-- ==== Sys2Proof/Word.lean ====
section
/-! DEFINITION. The word types of the F960 (R215, R216): bytes, 32-bit registers, 64-bit pairs and addresses. -/

namespace Sys2Proof

/-- A byte of memory. -/
abbrev Byte := BitVec 8

/-- The value of a g register, an x register or a uniform register (32 bits). -/
abbrev Word := BitVec 32

/-- A 64-bit value: an INT64 pair, an address operand (R14), a program counter. -/
abbrev DWord := BitVec 64

/-- The 64-bit value of a register pair: the even register holds bits 31:0 (R14, R216). -/
def DWord.ofPair (lo hi : Word) : DWord := hi ++ lo

/-- Bits 31:0 of a 64-bit value. -/
def DWord.lo (v : DWord) : Word := v.extractLsb' 0 32

/-- Bits 63:32 of a 64-bit value. -/
def DWord.hi (v : DWord) : Word := v.extractLsb' 32 32

end Sys2Proof
end

