-- ==== Sys2Proof/Config.lean ====
section
/-! DEFINITION. What the spec leaves open. Each constant has no body, so no proof can see its value: a statement about
it holds for every value. Log entry 3 names them. -/

namespace Sys2Proof.Config

/-- The candidate result of a special function (0 EX2, 1 LG2, 2 RSQ, 3 SIN, 4 COS, 5 TANH, 6 ERF) for an operand: R315
gives a bound, not the value (log 3). The model takes the candidate when it lies within the bound. -/
opaque special : Nat → BitVec 32 → BitVec 32

/-- A byte of scratch before anything has written it, for an allotment's seed and an offset (R193, R202; log 3). -/
opaque scratchByte : Nat → Nat → BitVec 8

/-- A byte of a leased span before anything has written it, for a grant's seed and an offset (R59; log 3). -/
opaque leaseByte : Nat → Nat → BitVec 8

/-- A free 64-bit value, for the counter's value (log 3). -/
opaque freeValue : Nat → BitVec 64

/-- A free choice, for the counter's value: the victim of a translation or poison cache (R76, R90; log 3). -/
opaque freeChoice : Nat → Nat

/-- The step at which a start fails, for the counter's value (R445, R446; log 3). -/
opaque failedStep : Nat → Nat

/-- Whether the code of a segment holds an experimental opcode: a code object does not say which bytes of a segment are code
(R449, R450; log 3). -/
opaque holdsExperimental : List (BitVec 8) → Bool

/-- Whether a signature over some bytes is good under the public key whose hash a fuse holds (R449, R450; log 3). -/
opaque signatureGood : Nat → List (BitVec 8) → List (BitVec 8) → Bool

end Sys2Proof.Config
end

