-- ==== Sys2Proof/Syntax.lean ====
section
/-! DEFINITION. The operations of the F960: one constructor of `Instr` for each row of spec/opcode_table.json.
An instruction's arguments are the fields of its bit picture, at their widths and in the order of the picture (R252 to
R258; the chapters' pictures); the events' arguments say which of the entities of their kind the event concerns, or the
message that arrives. -/

namespace Sys2Proof

/-- The guard field of R254, as its four bits. -/
abbrev Guard := BitVec 4

/-- A 7-bit register field (R258): 0-111 g registers, 112-127 x registers. -/
abbrev Reg7 := BitVec 7

/-- One 16-bit shape field of a five-word instruction: `15:5 value | 4:0 u` (R257). -/
structure ShapeField where
  value : BitVec 11
  u : BitVec 5
  deriving DecidableEq, Repr

/-- The four-word shape record of a five-word instruction: shape fields sh0 to sh7 (R257). -/
structure Shape where
  sh0 : ShapeField
  sh1 : ShapeField
  sh2 : ShapeField
  sh3 : ShapeField
  sh4 : ShapeField
  sh5 : ShapeField
  sh6 : ShapeField
  sh7 : ShapeField
  deriving DecidableEq, Repr

/-- A core of the package: its die, whether it is a home core, and its number on the die (R194). -/
structure CoreRef where
  die : Nat
  home : Bool
  idx : Nat
  deriving DecidableEq, Repr

/-- A party that executes instructions: a warp of a group, a sequencer program of a core, or a combiner wave (R102). -/
inductive ThreadRef where
  | warp (gid wid : Nat)
  | seq (core : CoreRef) (copy : Bool)
  | wave (core : CoreRef) (slot : Nat)
  deriving DecidableEq, Repr

/-- What happens at one return of data: the read alone is performed (its value is fixed, R103), or the next register
is written, the read being performed first if it has not been (R249). -/
inductive Arrive where
  | fix
  | write
  deriving DecidableEq, Repr

/-- Where the reply of a method call goes: the operation of the requester and the lane (R182). -/
structure ReplyTo where
  op : Nat
  lane : Nat
  deriving DecidableEq, Repr

/-- The 24-byte header of a message or response (R147). -/
structure Header where
  kind : BitVec 4
  srcCtx : BitVec 12
  job : BitVec 8
  tgtCtx : BitVec 12
  srcPkg : BitVec 13
  srcDie : BitVec 2
  dstPkg : BitVec 13
  seq : BitVec 32
  operand : BitVec 8
  cls : BitVec 4
  reserved1 : BitVec 20
  len : BitVec 7
  reserved2 : BitVec 14
  lpa : BitVec 43
  deriving DecidableEq, Repr

/-- What a message carries behind its header. The spec names the contents and gives them no byte layout, so they are
fields here (log 10). -/
inductive Payload where
  | none
  | bytes (b : List Byte)
  | beat (runs : List (Nat × List Byte))
  | atomic (wide float : Bool) (b cmp : DWord)
  | call (sel : BitVec 9) (arg : DWord) (dest : ReplyTo) (more : Nat)
  | reply (dest : ReplyTo) (value : DWord) (status : Nat)
  | spawn (record : List Byte) (owner : DWord)
  | signal (handle : DWord) (rel : Bool) (scope : Nat)
  | podArrive (n : Nat)
  | podInit (n expected : Nat)
  | podNotice (n expected : Nat) (phase : Bool)
  | read (size : Nat)
  | loaded (b : List Byte)
  | report (packages : Nat) (injected consumed : DWord) (doubt activity lossy : Bool)
  | ask (upTo : DWord) (ns : Nat)
  | decided (upTo : DWord) (clear : Bool)
  deriving DecidableEq, Repr

/-- A message or response of the fabric (R147, R148). -/
structure Msg where
  header : Header
  payload : Payload
  deriving DecidableEq, Repr

/-- An access of the host through an aperture (R444). -/
inductive HostAccess where
  | read (size : Nat)
  | write (b : List Byte)
  deriving DecidableEq, Repr

/-- Where an uncorrectable error is found: the structure code of R437, whether the error lies in shared state or in an
entry whose tag is unreadable (R436), the entry's containment tag, die, core, owning gang and LPA where it has one. -/
structure ErrorSite where
  code : Nat
  shared : Bool
  tag : BitVec 16
  die : Nat
  core : Option CoreRef
  gang : Option Nat
  lpa : Nat
  deriving DecidableEq, Repr

/-- The operations of the F960: rows 0 to 173 of the table are instructions, rows 174 to 278 are events.
The operations without arguments stand last. -/
inductive Instr where
  /-- IADD (R278): opcode 0x00. -/
  | iadd (d a b : BitVec 7) (g : BitVec 3)
  /-- ISUB (R278): opcode 0x01. -/
  | isub (d a b : BitVec 7) (g : BitVec 3)
  /-- IMUL (R278): opcode 0x02. -/
  | imul (d a b : BitVec 7) (g : BitVec 3)
  /-- IMULHI (R278): opcode 0x03. -/
  | imulhi (d a b : BitVec 7) (g : BitVec 3)
  /-- IMAD (R279): opcode 0x04. -/
  | imad (d a b : BitVec 7) (g : BitVec 3) (c : BitVec 7) (rnd : BitVec 3)
  /-- IMIN (R278): opcode 0x05. -/
  | imin (d a b : BitVec 7) (g : BitVec 3)
  /-- IMAX (R278): opcode 0x06. -/
  | imax (d a b : BitVec 7) (g : BitVec 3)
  /-- IABS (R282): opcode 0x07. -/
  | iabs (d a : BitVec 7) (g : Guard)
  /-- INEG (R282): opcode 0x07. -/
  | ineg (d a : BitVec 7) (g : Guard)
  /-- AND (R278): opcode 0x08. -/
  | and (d a b : BitVec 7) (g : BitVec 3)
  /-- OR (R278): opcode 0x09. -/
  | or (d a b : BitVec 7) (g : BitVec 3)
  /-- XOR (R278): opcode 0x0A. -/
  | xor (d a b : BitVec 7) (g : BitVec 3)
  /-- NOT (R282): opcode 0x0B. -/
  | not (d a : BitVec 7) (g : Guard)
  /-- SHL (R278): opcode 0x0C. -/
  | shl (d a b : BitVec 7) (g : BitVec 3)
  /-- SHR (R278): opcode 0x0D. -/
  | shr (d a b : BitVec 7) (g : BitVec 3)
  /-- SAR (R278): opcode 0x0E. -/
  | sar (d a b : BitVec 7) (g : BitVec 3)
  /-- ROT (R278): opcode 0x0F. -/
  | rot (d a b : BitVec 7) (g : BitVec 3)
  /-- BFE (R280): opcode 0x10. -/
  | bfe (d a b : BitVec 7) (g : BitVec 3)
  /-- BFI (R280): opcode 0x11. -/
  | bfi (d a b c : BitVec 7) (rnd : BitVec 3)
  /-- POPC (R282): opcode 0x12. -/
  | popc (d a : BitVec 7) (g : Guard)
  /-- CLZ (R282): opcode 0x12. -/
  | clz (d a : BitVec 7) (g : Guard)
  /-- BREV (R282): opcode 0x12. -/
  | brev (d a : BitVec 7) (g : Guard)
  /-- ISET (R284): opcode 0x13. -/
  | iset (pd : BitVec 3) (a b : BitVec 7) (cond : BitVec 3) (g : Guard)
  /-- SEL (R285): opcode 0x14. -/
  | sel (d a b : BitVec 7) (p : BitVec 3)
  /-- MOV (R286): opcode 0x15. -/
  | mov (d a : BitVec 7) (mode : BitVec 2) (g : Guard)
  /-- MOVI (R287): opcode 0x16. -/
  | movi (d : BitVec 7) (imm : BitVec 16)
  /-- MOVI_HI (R287): opcode 0x16. -/
  | moviHi (d : BitVec 7) (imm : BitVec 16)
  /-- MOVS (R288): opcode 0x17. -/
  | movs (d : BitVec 7) (num : BitVec 8) (u : BitVec 1) (g : Guard)
  /-- BLEND (R283): opcode 0x18. -/
  | blend (d a b : BitVec 7) (g : BitVec 3) (c : BitVec 7) (rnd : BitVec 3) (opx opy : BitVec 2) (na nb nc : BitVec 1)
  /-- IDIV_STEP (R281): opcode 0x19. -/
  | idivStep (d a b : BitVec 7) (g : BitVec 3)
  /-- IMULW (R279): opcode 0x1A. -/
  | imulw (d a b : BitVec 7) (g rnd : BitVec 3)
  /-- XADD (R289): opcode 0x20. -/
  | xadd (d a : BitVec 4) (i : BitVec 1) (b : BitVec 11) (g : Guard)
  /-- XSUB (R289): opcode 0x21. -/
  | xsub (d a : BitVec 4) (i : BitVec 1) (b : BitVec 11) (g : Guard)
  /-- XMUL (R289): opcode 0x22. -/
  | xmul (d a : BitVec 4) (i : BitVec 1) (b : BitVec 11) (g : Guard)
  /-- XSHL (R289): opcode 0x23. -/
  | xshl (d a : BitVec 4) (i : BitVec 1) (b : BitVec 11) (g : Guard)
  /-- XSHR (R289): opcode 0x24. -/
  | xshr (d a : BitVec 4) (i : BitVec 1) (b : BitVec 11) (g : Guard)
  /-- XMIN (R289): opcode 0x25. -/
  | xmin (d a : BitVec 4) (i : BitVec 1) (b : BitVec 11) (g : Guard)
  /-- XMAX (R289): opcode 0x26. -/
  | xmax (d a : BitVec 4) (i : BitVec 1) (b : BitVec 11) (g : Guard)
  /-- XAND (R289): opcode 0x27. -/
  | xand (d a : BitVec 4) (i : BitVec 1) (b : BitVec 11) (g : Guard)
  /-- XMOV (R290): opcode 0x28. -/
  | xmov (d a g : BitVec 4)
  /-- XSET (R291): opcode 0x29. -/
  | xset (d : BitVec 4) (a : BitVec 7) (k : BitVec 4) (m : BitVec 1) (p : BitVec 3) (g : Guard)
  /-- XFROM (R293): opcode 0x2A. -/
  | xfrom (d : BitVec 4) (a : BitVec 7) (t : BitVec 3) (g : Guard)
  /-- XRD (R294): opcode 0x2B. -/
  | xrd (d : BitVec 7) (a : BitVec 4) (h : BitVec 1) (g : Guard)
  /-- XWIDEN (R295): opcode 0x2C. -/
  | xwiden (d k g : BitVec 4)
  /-- XLD (R296): opcode 0x2D. -/
  | xld (x : BitVec 4) (a : BitVec 7) (imm : BitVec 8) (f : BitVec 1) (g : Guard)
  /-- XST (R296): opcode 0x2E. -/
  | xst (x : BitVec 4) (a : BitVec 7) (imm : BitVec 8) (f : BitVec 1) (g : Guard)
  /-- XCLAMP (R292): opcode 0x30. -/
  | xclamp (d : BitVec 4) (a : BitVec 7) (k g : BitVec 4)
  /-- FADD (R307): opcode 0x40. -/
  | fadd (d a b : BitVec 7) (g rnd : BitVec 3) (sat ftz : BitVec 1)
  /-- FSUB (R307): opcode 0x41. -/
  | fsub (d a b : BitVec 7) (g rnd : BitVec 3) (sat ftz : BitVec 1)
  /-- FMUL (R307): opcode 0x42. -/
  | fmul (d a b : BitVec 7) (g rnd : BitVec 3) (sat ftz : BitVec 1)
  /-- FFMA (R307): opcode 0x43. -/
  | ffma (d a b : BitVec 7) (g : BitVec 3) (c : BitVec 7) (rnd : BitVec 3) (sat ftz : BitVec 1)
  /-- FMIN (R308): opcode 0x44. -/
  | fmin (d a b : BitVec 7) (g : BitVec 3)
  /-- FMAX (R308): opcode 0x45. -/
  | fmax (d a b : BitVec 7) (g : BitVec 3)
  /-- FABS (R309): opcode 0x46. -/
  | fabs (d a : BitVec 7) (g : Guard)
  /-- FNEG (R309): opcode 0x46. -/
  | fneg (d a : BitVec 7) (g : Guard)
  /-- FABS_H2 (R309): opcode 0x46. -/
  | fabsH2 (d a : BitVec 7) (g : Guard)
  /-- FNEG_H2 (R309): opcode 0x46. -/
  | fnegH2 (d a : BitVec 7) (g : Guard)
  /-- FSET (R310): opcode 0x47. -/
  | fset (pd : BitVec 3) (a b : BitVec 7) (cond : BitVec 3) (g : Guard)
  /-- FCLASS (R311): opcode 0x48. -/
  | fclass (d a : BitVec 7) (op : BitVec 2) (g : Guard)
  /-- HADD2 (R312): opcode 0x49. -/
  | hadd2 (d a b : BitVec 7) (g rnd : BitVec 3) (sat ftz : BitVec 1) (sfmt : BitVec 4)
  /-- HMUL2 (R312): opcode 0x4A. -/
  | hmul2 (d a b : BitVec 7) (g rnd : BitVec 3) (sat ftz : BitVec 1) (sfmt : BitVec 4)
  /-- HFMA2 (R312): opcode 0x4B. -/
  | hfma2 (d a b : BitVec 7) (g : BitVec 3) (c : BitVec 7) (rnd : BitVec 3) (sat ftz : BitVec 1) (sfmt : BitVec 4)
  /-- FDOT2 (R313): opcode 0x4C. -/
  | fdot2 (d a b : BitVec 7) (g : BitVec 3) (c : BitVec 7) (rnd : BitVec 3) (sat ftz : BitVec 1) (sfmt : BitVec 4)
  /-- EX2 (R314): opcode 0x50. -/
  | ex2 (d a : BitVec 7) (rnd : BitVec 3) (ftz : BitVec 1) (g : Guard)
  /-- LG2 (R314): opcode 0x51. -/
  | lg2 (d a : BitVec 7) (rnd : BitVec 3) (ftz : BitVec 1) (g : Guard)
  /-- RCP (R314): opcode 0x52. -/
  | rcp (d a : BitVec 7) (rnd : BitVec 3) (ftz : BitVec 1) (g : Guard)
  /-- RSQ (R314): opcode 0x53. -/
  | rsq (d a : BitVec 7) (rnd : BitVec 3) (ftz : BitVec 1) (g : Guard)
  /-- SQRT (R314): opcode 0x54. -/
  | sqrt (d a : BitVec 7) (rnd : BitVec 3) (ftz : BitVec 1) (g : Guard)
  /-- SIN (R314): opcode 0x55. -/
  | sin (d a : BitVec 7) (rnd : BitVec 3) (ftz : BitVec 1) (g : Guard)
  /-- COS (R314): opcode 0x56. -/
  | cos (d a : BitVec 7) (rnd : BitVec 3) (ftz : BitVec 1) (g : Guard)
  /-- TANH (R314): opcode 0x57. -/
  | tanh (d a : BitVec 7) (rnd : BitVec 3) (ftz : BitVec 1) (g : Guard)
  /-- ERF (R314): opcode 0x58. -/
  | erf (d a : BitVec 7) (rnd : BitVec 3) (ftz : BitVec 1) (g : Guard)
  /-- CVT (R317): opcode 0x60. -/
  | cvt (d a : BitVec 7) (sc : BitVec 1) (g : Guard) (rnd : BitVec 3) (sat ftz : BitVec 1) (dfmt sfmt : BitVec 4) (scale : BitVec 7)
  /-- PACK (R319): opcode 0x61. -/
  | pack (d a : BitVec 7) (sc : BitVec 1) (g : Guard) (rnd : BitVec 3) (sat ftz : BitVec 1) (dfmt sfmt : BitVec 4) (scale : BitVec 7)
  /-- UNPACK (R319): opcode 0x62. -/
  | unpack (d a : BitVec 7) (sc : BitVec 1) (g : Guard) (rnd : BitVec 3) (sat ftz : BitVec 1) (dfmt sfmt : BitVec 4) (scale : BitVec 7)
  /-- AMAX (R320): opcode 0x63. -/
  | amax (d a : BitVec 7) (fmt : BitVec 2) (w : BitVec 1) (g : Guard)
  /-- SEED (R321): opcode 0x64. -/
  | seed (a : BitVec 7) (u : BitVec 1) (g : Guard)
  /-- CVT8 (R318): opcode 0x65. -/
  | cvt8 (d a b : BitVec 7) (rnd : BitVec 3) (sat ftz : BitVec 1) (dfmt : BitVec 4)
  /-- SHFL (R322): opcode 0x70. -/
  | shfl (d a : BitVec 7) (mode : BitVec 2) (i : BitVec 1) (b : BitVec 7)
  /-- VOTE_ALL (R324): opcode 0x71. -/
  | voteAll (ps : BitVec 3) (n : BitVec 1) (pd : BitVec 3) (g : Guard)
  /-- VOTE_ANY (R324): opcode 0x71. -/
  | voteAny (ps : BitVec 3) (n : BitVec 1) (pd : BitVec 3) (g : Guard)
  /-- VOTE_BALLOT (R324): opcode 0x71. -/
  | voteBallot (d : BitVec 7) (ps : BitVec 3) (n : BitVec 1) (g : Guard)
  /-- MATCH_ANY (R325): opcode 0x72. -/
  | matchAny (d a : BitVec 7) (pd : BitVec 3) (g : Guard)
  /-- MATCH_ALL (R325): opcode 0x72. -/
  | matchAll (d a : BitVec 7) (pd : BitVec 3) (g : Guard)
  /-- REDG (R326): opcode 0x73. -/
  | redg (d a : BitVec 7) (op g : BitVec 4)
  /-- SCANG (R327): opcode 0x74. -/
  | scang (d a : BitVec 7) (op : BitVec 4) (x k : BitVec 1) (g : Guard)
  /-- LDFRAG (R328): opcode 0x75. -/
  | ldfrag (d a : BitVec 7) (f : BitVec 1) (g : Guard)
  /-- LDFRAG_T_B8 (R329): opcode 0x75. -/
  | ldfragTB8 (d a : BitVec 7) (f : BitVec 1) (g : Guard)
  /-- LDFRAG_T_B16 (R329): opcode 0x75. -/
  | ldfragTB16 (d a : BitVec 7) (f : BitVec 1) (g : Guard)
  /-- SHFLI (R322): opcode 0x76. -/
  | shfli (d a : BitVec 7) (lane : BitVec 5)
  /-- PERMB (R323): opcode 0x77. -/
  | permb (d a b : BitVec 7)
  /-- LDG (R334): opcode 0x80. -/
  | ldg (d : BitVec 7) (a : BitVec 6) (ty : BitVec 3) (prv : BitVec 1) (ev : BitVec 2) (f : BitVec 1) (g : Guard)
  /-- STG (R334): opcode 0x81. -/
  | stg (d : BitVec 7) (a : BitVec 6) (ty : BitVec 3) (prv : BitVec 1) (ev : BitVec 2) (f : BitVec 1) (g : Guard)
  /-- LDA (R336): opcode 0x82. -/
  | lda (d : BitVec 7) (arr x c : BitVec 4) (f : BitVec 1) (g : Guard)
  /-- STA (R336): opcode 0x83. -/
  | sta (d : BitVec 7) (arr x c : BitVec 4) (f : BitVec 1) (g : Guard)
  /-- LDS (R338): opcode 0x84. -/
  | lds (d a : BitVec 7) (ty : BitVec 3) (f : BitVec 1) (g : Guard)
  /-- STS (R338): opcode 0x85. -/
  | sts (d a : BitVec 7) (ty : BitVec 3) (f : BitVec 1) (g : Guard)
  /-- PRF (R339): opcode 0x86. -/
  | prf (a : BitVec 6) (nc : BitVec 1) (ev : BitVec 2) (f : BitVec 1) (g : Guard)
  /-- ARM (R85): opcode 0x87. -/
  | arm (pd : BitVec 3) (arr : BitVec 4) (f : BitVec 1) (g : Guard)
  /-- DISARM (R340): opcode 0x87. -/
  | disarm (arr : BitVec 4) (f : BitVec 1) (g : Guard)
  /-- ALD (R341): opcode 0x88. -/
  | ald (arr k : BitVec 4) (f : BitVec 1) (g : Guard)
  /-- ATOM (R343): opcode 0x89. -/
  | atom (d : BitVec 7) (a : BitVec 6) (op : BitVec 4) (ord : BitVec 2) (f : BitVec 1) (g : Guard) (c : BitVec 7) (dfmt sfmt : BitVec 4) (scale : BitVec 7)
  /-- CALLM (R344): opcode 0x8A. -/
  | callm (d : BitVec 7) (a : BitVec 6) (pd : BitVec 3) (ord : BitVec 2) (f : BitVec 1) (g : Guard) (c : BitVec 7) (sfmt : BitVec 4) (scale : BitVec 7)
  /-- BIND (R113): opcode 0x8B. -/
  | bind (pd : BitVec 3) (o b : BitVec 4) (n : BitVec 5) (f : BitVec 1) (g : Guard)
  /-- UNBIND (R115): opcode 0x8B. -/
  | unbind (pd : BitVec 3) (b : BitVec 4) (f : BitVec 1) (g : Guard)
  /-- ACQ (R116): opcode 0x8C. -/
  | acq (d : BitVec 7) (a : BitVec 6) (scope : BitVec 3) (f : BitVec 1) (g : Guard)
  /-- ACQ_ALL (R117): opcode 0x8C. -/
  | acqAll (scope : BitVec 3) (f : BitVec 1) (g : Guard)
  /-- REL (R118): opcode 0x8D. -/
  | rel (d : BitVec 7) (a : BitVec 6) (scope : BitVec 3) (f : BitVec 1) (g : Guard)
  /-- REL_ALL (R119): opcode 0x8D. -/
  | relAll (scope : BitVec 3) (f : BitVec 1) (g : Guard)
  /-- FENCE (R348): opcode 0x8E. -/
  | fence (scope : BitVec 3) (f : BitVec 1) (g : Guard)
  /-- QFENCE (R135): opcode 0x8F. -/
  | qfence (msg copy mat f : BitVec 1) (g : Guard)
  /-- BRA (R298): opcode 0xA0. -/
  | bra (offset : BitVec 24)
  /-- BRP (R298): opcode 0xA1. -/
  | brp (n : BitVec 1) (p : BitVec 3) (offset : BitVec 20)
  /-- XBR (R299): opcode 0xA2. -/
  | xbr (x : BitVec 4) (c u : BitVec 1) (k : BitVec 8) (offset : BitVec 10)
  /-- JMPT (R300): opcode 0xA3. -/
  | jmpt (a x : BitVec 4) (c : BitVec 8)
  /-- CALL (R301): opcode 0xA4. -/
  | call (d : BitVec 7) (target : BitVec 16)
  /-- CALL_INDIRECT (R301): opcode 0xA4. -/
  | callIndirect (d a : BitVec 7)
  /-- RET (R301): opcode 0xA5. -/
  | ret (a : BitVec 7)
  /-- EXIT (R302): opcode 0xA6. -/
  | exit (g : Guard)
  /-- BRX (R301): opcode 0xA9. -/
  | brx (a : BitVec 7) (offset : BitVec 16)
  /-- BAR_INIT (R351): opcode 0xB0. -/
  | barInit (b : BitVec 4) (e h : BitVec 5) (g : Guard)
  /-- BAR_ARR (R352): opcode 0xB1. -/
  | barArr (b g : BitVec 4)
  /-- BAR_WAIT (R352): opcode 0xB1. -/
  | barWait (b : BitVec 4) (u : BitVec 1) (v : BitVec 5) (g : Guard)
  /-- BAR_SYNC (R352): opcode 0xB1. -/
  | barSync (b g : BitVec 4)
  /-- BARS_INIT (R353): opcode 0xB2. -/
  | barsInit (scope n : BitVec 3) (v : BitVec 5) (g : Guard)
  /-- BARS_ARR (R353): opcode 0xB2. -/
  | barsArr (scope n : BitVec 3) (g : Guard)
  /-- BARS_WAIT (R353): opcode 0xB2. -/
  | barsWait (scope n : BitVec 3) (u : BitVec 1) (v : BitVec 5) (g : Guard)
  /-- BARS_SYNC (R353): opcode 0xB2. -/
  | barsSync (scope n : BitVec 3) (g : Guard)
  /-- FORK (R211): opcode 0xB3. -/
  | fork (e : BitVec 1) (offset : BitVec 20)
  /-- RNDV (R212): opcode 0xB4. -/
  | rndv (e : BitVec 1)
  /-- BATON_PASS (R355): opcode 0xB5. -/
  | batonPass (u : BitVec 1) (w : BitVec 5)
  /-- QUIET (R356): opcode 0xB6. -/
  | quiet (d : BitVec 7) (t : BitVec 5) (f : BitVec 1) (g : Guard)
  /-- SIGNAL (R357): opcode 0xB7. -/
  | signal (h : BitVec 4) (scope : BitVec 3) (rel : BitVec 1) (g : Guard)
  /-- MLDB (R366): opcode 0xC0. -/
  | mldb (w : BitVec 3) (fmt : BitVec 4) (sc : BitVec 5) (src bm : BitVec 3) (sp sparse : BitVec 1) (sh : Shape)
  /-- MZERO (R367): opcode 0xC1. -/
  | mzero (m : BitVec 3) (isInt : BitVec 1)
  /-- MMA (R370): opcode 0xC2. -/
  | mma (m w : BitVec 3) (a sa : BitVec 7) (g : Guard) (sh : Shape)
  /-- MMA_STR (R368): opcode 0xC2. -/
  | mmaStr (m w : BitVec 3) (sh : Shape)
  /-- MRD (R373): opcode 0xC3. -/
  | mrd (m : BitVec 3) (dfmt : BitVec 4) (rnd : BitVec 3) (sat ftz : BitVec 1) (d : BitVec 7) (f : BitVec 1) (g : Guard) (sh : Shape)
  /-- MSIG (R374): opcode 0xC4. -/
  | msig (b : BitVec 4)
  /-- MSEQ_END (R374): opcode 0xC5. -/
  | mseqEnd (e : BitVec 1) (b : BitVec 4)
  /-- MAMAX (R374): opcode 0xC6. -/
  | mamax (m : BitVec 3) (d : BitVec 7) (f : BitVec 1) (g : Guard) (sh : Shape)
  /-- DCOPY (R377): opcode 0xD0. -/
  | dcopy (dk sk : BitVec 3) (dsp ssp : BitVec 2) (st : BitVec 5) (sg : BitVec 1) (h : BitVec 3) (f : BitVec 1) (g : Guard) (sh : Shape)
  /-- DCOPY_CK (R378): opcode 0xD1. -/
  | dcopyCk (dk sk : BitVec 3) (dsp ssp : BitVec 2) (st : BitVec 5) (sg : BitVec 1) (h : BitVec 3) (f : BitVec 1) (g : Guard) (sh : Shape)
  /-- DFILL (R377): opcode 0xD2. -/
  | dfill (dk sk : BitVec 3) (dsp ssp : BitVec 2) (st : BitVec 5) (sg : BitVec 1) (h : BitVec 3) (f : BitVec 1) (g : Guard) (sh : Shape)
  /-- DGATHER (R379): opcode 0xD3. -/
  | dgather (k : BitVec 3) (arr : BitVec 4) (sp : BitVec 2) (st : BitVec 5) (sg : BitVec 1) (h : BitVec 3) (f : BitVec 1) (g : Guard) (sh : Shape)
  /-- DSCAT (R379): opcode 0xD8. -/
  | dscat (k : BitVec 3) (arr : BitVec 4) (sp : BitVec 2) (st : BitVec 5) (sg : BitVec 1) (h : BitVec 3) (f : BitVec 1) (g : Guard) (sh : Shape)
  /-- DLEASE (R380): opcode 0xD4. -/
  | dlease (d sz du : BitVec 5) (pd : BitVec 3) (f : BitVec 1) (g : Guard)
  /-- DLEASE_RENEW (R380): opcode 0xD4. -/
  | dleaseRenew (d du : BitVec 5) (pd : BitVec 3) (f : BitVec 1) (g : Guard)
  /-- DUNLEASE (R380): opcode 0xD5. -/
  | dunlease (h : BitVec 5) (f : BitVec 1) (g : Guard)
  /-- DSIG (R380): opcode 0xD6. -/
  | dsig (b : BitVec 4) (arr sg : BitVec 1) (h : BitVec 3) (f : BitVec 1) (g : Guard)
  /-- DRELOC (R381): opcode 0xD7. -/
  | dreloc (k : BitVec 3) (st : BitVec 5) (f : BitVec 1) (g : Guard)
  /-- SPAWN (R385): opcode 0xE0. -/
  | spawn (pd : BitVec 3) (a : BitVec 6) (f : BitVec 1) (g : Guard)
  /-- SPAWN_AT (R385): opcode 0xE1. -/
  | spawnAt (pd : BitVec 3) (a t : BitVec 6) (f : BitVec 1) (g : Guard)
  /-- CSRR (R390): opcode 0xF0. -/
  | csrr (d : BitVec 7) (csr : BitVec 12) (g : Guard)
  /-- CSRW (R390): opcode 0xF1. -/
  | csrw (a : BitVec 7) (csr : BitVec 12) (g : Guard)
  /-- TRAP (R394): opcode 0xF2. -/
  | trap (cause : BitVec 8) (code : BitVec 12) (g : Guard)
  /-- TLBI_RANGE (R396): opcode 0xF6. -/
  | tlbiRange (k : BitVec 3) (c n : BitVec 5) (g : Guard)
  /-- TLBI_CTX (R396): opcode 0xF6. -/
  | tlbiCtx (c : BitVec 5) (g : Guard)
  /-- TLBI_PKG (R396): opcode 0xF6. -/
  | tlbiPkg (g : Guard)
  /-- CLOCK (R397): opcode 0xF7. -/
  | clock (d : BitVec 7) (g : Guard)
  /-- CLOCK_NS (R397): opcode 0xF7. -/
  | clockNs (d : BitVec 7) (g : Guard)
  /-- PERF (R398): opcode 0xF8. -/
  | perf (d : BitVec 7) (n : BitVec 3) (g : Guard)
  /-- CLAUSE_ISSUE (R200): event. -/
  | clauseIssue (core : CoreRef) (slot : Nat)
  /-- FRONTIER_WAIT_LIMIT (R199): event. -/
  | frontierWaitLimit (core : CoreRef) (slot : Nat)
  /-- LOOP_LIMIT (R199): event. -/
  | loopLimit (core : CoreRef) (slot : Nat)
  /-- TRANSLATION_DONE (R79): event. -/
  | translationDone (t : ThreadRef)
  /-- LOAD_DATA_RETURN (R247): event. -/
  | loadDataReturn (op piece : Nat) (how : Arrive)
  /-- STORE_ACK (R44): event. -/
  | storeAck (op piece : Nat)
  /-- ATOMIC_REPLY (R343): event. -/
  | atomicReply (op : Nat) (how : Arrive)
  /-- ALLOC_GRANT (R204): event. -/
  | allocGrant (core : CoreRef)
  /-- DISPATCH (R408): event. -/
  | dispatch (die : Nat)
  /-- GROUP_COMPLETE (R141): event. -/
  | groupComplete (gid : Nat)
  /-- SUCCESSOR_ENTRY (R410): event. -/
  | successorEntry (die : Nat)
  /-- DESCRIPTOR_READ (R406): event. -/
  | descriptorRead (slot : Nat)
  /-- SPILL_RETURN (R412): event. -/
  | spillReturn (die : Nat)
  /-- COPY_COMMAND_RUN (R377): event. -/
  | copyCommandRun (core : CoreRef) (entry : Nat) (count : Option Nat)
  /-- COPY_RECORD_COMPLETE (R411): event. -/
  | copyRecordComplete (core : CoreRef) (entry : Nat)
  /-- MATRIX_ENTRY_RUN (R370): event. -/
  | matrixEntryRun (core : CoreRef) (rows : Option Nat)
  /-- WAVE_FORM (R175): event. -/
  | waveForm (core : CoreRef)
  /-- WAVE_COMPLETE (R178): event. -/
  | waveComplete (core : CoreRef) (slot : Nat)
  /-- WAVE_TIME_LIMIT (R178): event. -/
  | waveTimeLimit (core : CoreRef) (slot : Nat)
  /-- METHOD_REQUEST (R173): event. -/
  | methodRequest (index : Nat)
  /-- METHOD_CALL (R169): event. -/
  | methodCall (m : Msg)
  /-- METHOD_REPLY (R182): event. -/
  | methodReply (m : Option Msg) (index : Nat)
  /-- REMOTE_STORE (R148): event. -/
  | remoteStore (m : Msg)
  /-- REMOTE_ATOMIC (R148): event. -/
  | remoteAtomic (m : Msg)
  /-- REMOTE_SPAWN (R483): event. -/
  | remoteSpawn (m : Msg)
  /-- REMOTE_SIGNAL (R350): event. -/
  | remoteSignal (m : Msg)
  /-- REMOTE_POD_INIT (R480): event. -/
  | remotePodInit (m : Msg)
  /-- COPY_BEAT (R148): event. -/
  | copyBeat (m : Msg)
  /-- REMOTE_LOAD (R149): event. -/
  | remoteLoad (m : Msg)
  /-- ACK_RESPONSE (R150): event. -/
  | ackResponse (m : Msg)
  /-- REFUSED_RESPONSE (R157): event. -/
  | refusedResponse (m : Msg)
  /-- RETRY_RESPONSE (R97): event. -/
  | retryResponse (m : Msg)
  /-- HELD_RESPONSE (R150): event. -/
  | heldResponse (m : Msg)
  /-- CONSUMED_RESPONSE (R157): event. -/
  | consumedResponse (m : Msg)
  /-- ABANDONED_RESPONSE (R157): event. -/
  | abandonedResponse (m : Msg)
  /-- PHASE_NOTICE (R480): event. -/
  | phaseNotice (m : Msg)
  /-- LOSS_NOTICE (R157): event. -/
  | lossNotice (m : Msg)
  /-- PROBE (R160): event. -/
  | probe (m : Msg)
  /-- REPORT (R160): event. -/
  | report (m : Msg)
  /-- TRAVERSE_PASS_TIMEOUT (R160): event. -/
  | traversePassTimeout (ctx job : Nat)
  /-- QUIET_TIMEOUT (R163): event. -/
  | quietTimeout (t : ThreadRef)
  /-- MESSAGE_RESEND (R150): event. -/
  | messageResend (die index : Nat)
  /-- MESSAGE_DOUBT (R157): event. -/
  | messageDoubt (die index : Nat)
  /-- LOSS_NOTICE_RESEND (R157): event. -/
  | lossNoticeResend (die index : Nat)
  /-- RETRY_RESEND (R97): event. -/
  | retryResend (index : Nat)
  /-- PHASE_NOTICE_RESEND (R480): event. -/
  | phaseNoticeResend (index : Nat)
  /-- LEASE_EXPIRY (R61): event. -/
  | leaseExpiry (die lease : Nat)
  /-- FOOTPRINT_FLUSH (R69): event. -/
  | footprintFlush (core : CoreRef) (index : Nat)
  /-- SLOT_DEADLINE (R407): event. -/
  | slotDeadline (slot : Nat)
  /-- OVERRUN (R407): event. -/
  | overrun (slot : Nat)
  /-- DRAIN_TIMEOUT (R429): event. -/
  | drainTimeout (slot : Nat)
  /-- SAVE_TIMEOUT (R429): event. -/
  | saveTimeout (slot : Nat)
  /-- DRAIN_COMPLETE (R429): event. -/
  | drainComplete (slot : Nat)
  /-- SAVE_COMPLETE (R431): event. -/
  | saveComplete (gang : Nat)
  /-- RESTORE (R433): event. -/
  | restore (index : Nat)
  /-- THERMAL_MIGRATION (R418): event. -/
  | thermalMigration (die : Nat)
  /-- ACTIVITY_PERIOD (R419): event. -/
  | activityPeriod (die activity : Nat)
  /-- SCRUB_READ (R92): event. -/
  | scrubRead (lpa : Nat)
  /-- MIGRATION_COMPLETE (R96): event. -/
  | migrationComplete (die : Nat)
  /-- UNCORRECTABLE_ERROR (R435): event. -/
  | uncorrectableError (site : ErrorSite)
  /-- GANG_KILL (R438): event. -/
  | gangKill (gang : Nat)
  /-- AUDIT_REPLAY (R442): event. -/
  | auditReplay (index : Nat) (core : CoreRef)
  /-- DIE_THROTTLE (R453): event. -/
  | dieThrottle (die : Nat)
  /-- MEMORY_THERMAL_STATE (R453): event. -/
  | memoryThermalState (stack : Nat)
  /-- HOST_APERTURE_ACCESS (R444): event. -/
  | hostApertureAccess (aperture offset : Nat) (access : HostAccess)
  /-- WORKING_PORT_CHANGE (R145): event. -/
  | workingPortChange (port : Nat) (up : Bool)
  /-- POWER_STATE_NORMAL (R453): event. -/
  | powerStateNormal (die : Option Nat)
  /-- MEMORY_THERMAL_STATE_EXIT (R453): event. -/
  | memoryThermalStateExit (stack : Nat)
  /-- CONTEXT_RESET_COMPLETE (R434): event. -/
  | contextResetComplete (ctx : Nat)
  /-- BACKGROUND_SWEEP_COMPLETE (R434): event. -/
  | backgroundSweepComplete (ctx : Nat)
  /-- CORRECTED_SOFT_ERROR (R435): event. -/
  | correctedSoftError (code : Nat)
  /-- SEQUENCER_ISSUE (R211): event. -/
  | sequencerIssue (core : CoreRef) (copy : Bool)
  /-- SIGNAL_BASE_DIE_TRANSFER (R357): event. -/
  | signalBaseDieTransfer (index : Nat)
  /-- SPAWN_BASE_DIE_TRANSFER (R386): event. -/
  | spawnBaseDieTransfer (index : Nat)
  /-- YIELD (R303): opcode 0xA7. -/
  | yield
  /-- NOP (R303): opcode 0xA8. -/
  | nop
  /-- BATON_TAKE (R208): opcode 0xB5. -/
  | batonTake
  /-- BATON_PASS_NONE (R355): opcode 0xB5. -/
  | batonPassNone
  /-- DONE (R387): opcode 0xE2. -/
  | done
  /-- ALLOC (R388): opcode 0xE3. -/
  | alloc
  /-- FREE (R389): opcode 0xE4. -/
  | free
  /-- ERET (R392): opcode 0xF3. -/
  | eret
  /-- TMASK (R393): opcode 0xF4. -/
  | tmask
  /-- TUNMASK (R393): opcode 0xF4. -/
  | tunmask
  /-- L1INV (R395): opcode 0xF5. -/
  | l1inv
  /-- HALT (R399): opcode 0xF9. -/
  | halt
  /-- TRAVERSE_PERIODIC (R162): event. -/
  | traversePeriodic
  /-- POWER_ON (R445): event. -/
  | powerOn
  /-- POWER_CAP (R453): event. -/
  | powerCap
  /-- EMERGENCY_STOP (R453): event. -/
  | emergencyStop
  /-- EMERGENCY_STOP_COMPLETE (R453): event. -/
  | emergencyStopComplete
  /-- QNOTIFY (R405): event. -/
  | qnotify
  /-- QCTL_MAP (R405): event. -/
  | qctlMap
  /-- QCTL_UNMAP (R405): event. -/
  | qctlUnmap
  /-- LSECTL_REVOKE (R61): event. -/
  | lsectlRevoke
  /-- POISONCMD_SET (R92): event. -/
  | poisoncmdSet
  /-- POISONCMD_CLEAR (R94): event. -/
  | poisoncmdClear
  /-- MIGCMD_MIGRATE_4K (R96): event. -/
  | migcmdMigrate4k
  /-- MIGCMD_MIGRATE_2M (R96): event. -/
  | migcmdMigrate2m
  /-- MIGCMD_REMOVE_REDIRECT (R98): event. -/
  | migcmdRemoveRedirect
  /-- FABJSTAT_LOSSY_CLEAR (R166): event. -/
  | fabjstatLossyClear
  /-- PRECMD_DRAIN (R429): event. -/
  | precmdDrain
  /-- PRECMD_SAVE (R428): event. -/
  | precmdSave
  /-- PRECMD_RESET (R434): event. -/
  | precmdReset
  /-- PRECMD_RESTORE (R433): event. -/
  | precmdRestore
  /-- PRECMD_RELEASE (R428): event. -/
  | precmdRelease
  /-- PRECMD_END_DRAIN (R428): event. -/
  | precmdEndDrain
  /-- BOOTCMD_WARM_START (R445): event. -/
  | bootcmdWarmStart
  /-- BOOTCMD_COLD_START (R445): event. -/
  | bootcmdColdStart
  /-- BOOTCMD_SHUTDOWN (R445): event. -/
  | bootcmdShutdown
  /-- FUSECMD_RAISE (R447): event. -/
  | fusecmdRaise
  /-- FUSECMD_REVOKE (R447): event. -/
  | fusecmdRevoke
  /-- LOADCMD_START (R450): event. -/
  | loadcmdStart
  /-- PKGCFG_WRITE (R448): event. -/
  | pkgcfgWrite
  /-- REGISTER_WRITE (R6): event. -/
  | registerWrite
  /-- POWER_OFF (R452): event. -/
  | powerOff
  /-- SVCTAIL_WRITE (R427): event. -/
  | svctailWrite
  deriving DecidableEq, Repr

end Sys2Proof
end

