-- ==== Sys2Proof/WellFormed.lean ====
section
/-! DEFINITION. When an instruction is well-formed: the checks of R263 that read one instruction alone (reserved
values, accepted codes, register rules, shape fields, guards). A failing check has the decode subcode of R263 and the
word of the instruction it concerns. Which of several failing checks is reported the spec leaves open; the model
reports the first of the list, in word order (log 5). -/

namespace Sys2Proof

/-- A failed check: decode subcode (R263) and word offset within the instruction. -/
structure Bad where
  subcode : Nat
  word : Nat
  deriving DecidableEq, Repr

/-- A check: nothing when it holds. -/
def need (ok : Bool) (subcode word : Nat) : Option Bad := if ok then none else some ⟨subcode, word⟩

/-- The first failed check. -/
def first : List (Option Bad) → Option Bad
  | [] => none
  | some b :: _ => some b
  | none :: r => first r

/-- A g register field (R258). -/
def isG (r : BitVec 7) : Bool := r < 112
/-- An even g register field, naming a pair (R216). -/
def isEvenG (r : BitVec 7) : Bool := r < 112 && !r.getLsbD 0
/-- A g register that is a multiple of 4, at most g108 (R328, R333). -/
def isQuadG (r : BitVec 7) : Bool := r < 112 && !r.getLsbD 0 && !r.getLsbD 1
/-- A 7-bit field that names a uniform register: bits 6:5 zero (R273). -/
def isUni (r : BitVec 7) : Bool := r < 32
/-- A run of `n` g registers starting at a multiple of `n` (R319). -/
def isRun (r : BitVec 7) (n : Nat) : Bool := r.toNat % n == 0 && r.toNat + n ≤ 112
/-- n = 1 with g = 7 is not a guard (R254). -/
def guardOk (g : Guard) : Bool := g ≠ 0xF
/-- The assigned format codes of R220. -/
def isFormat (f : BitVec 4) : Bool := f ≤ 3 || 8 ≤ f && f ≤ 14
/-- E4M3, E5M2, E2M1: the formats that take a scale (R230). -/
def isScaled (f : BitVec 4) : Bool := 12 ≤ f && f ≤ 14
/-- The narrow formats of PACK and UNPACK (R319). -/
def isNarrow (f : BitVec 4) : Bool := f = 9 || f = 10 || isScaled f
/-- Elements of a narrow format per register (R217, R319); a format that is not narrow has no such number. -/
def perRegister (f : BitVec 4) : Nat := if f = 14 then 8 else if f = 12 || f = 13 then 4 else 2
/-- The destination formats of MRD (R373). -/
def mrdFormat (f : BitVec 4) : Bool := f = 2 || f = 8 || f = 9 || f = 10 || f = 12 || f = 13
/-- The element size of an MRD destination format, in bytes. -/
def mrdSize (f : BitVec 4) : Nat := if f = 12 || f = 13 then 1 else if f = 9 || f = 10 then 2 else 4
/-- The marker of R257. -/
def ShapeField.isMarker (s : ShapeField) : Bool := s.value = 0x7FF
/-- A field not used is zero in both parts (R257). -/
def ShapeField.isZero (s : ShapeField) : Bool := s.value = 0 && s.u = 0
/-- A field whose value is not the marker has u = 0 (R257). -/
def ShapeField.uOk (s : ShapeField) : Bool := s.isMarker || s.u = 0
/-- The A format of an MMA, sh0 bits 3:0 (R368). -/
def fmtA (sh : Shape) : BitVec 4 := sh.sh0.value.extractLsb' 0 4
/-- The CSRs of R390: none for a number absent from the table, else whether the register may be written. -/
def csrAccess (csr : BitVec 12) : Option Bool :=
  if csr = 0x000 || csr = 0x001 || csr = 0x003 || csr = 0x020 || csr = 0x800 then some true
  else if csr = 0x002 || csr = 0x010 || csr = 0x011 then some false
  else none
/-- The assigned cause codes of R421. -/
def isCause (c : BitVec 8) : Bool := 1 ≤ c && c ≤ 0x0C || 0x40 ≤ c && c ≤ 0x42

/-- The checks of one instruction (R252 to R263 and the rules of its own description). Events have no encoding. -/
def Instr.check : Instr → Option Bad
  | .iadd _ _ _ _ => none
  | .isub _ _ _ _ => none
  | .imul _ _ _ _ => none
  | .imulhi _ _ _ _ => none
  | .imad _ _ _ _ _ rnd => first [need (rnd ≤ 4) 5 1]
  | .imin _ _ _ _ => none
  | .imax _ _ _ _ => none
  | .iabs _ _ g => first [need (guardOk g) 10 0]
  | .ineg _ _ g => first [need (guardOk g) 10 0]
  | .and _ _ _ _ => none
  | .or _ _ _ _ => none
  | .xor _ _ _ _ => none
  | .not _ _ g => first [need (guardOk g) 10 0]
  | .shl _ _ _ _ => none
  | .shr _ _ _ _ => none
  | .sar _ _ _ _ => none
  | .rot _ _ _ _ => none
  | .bfe _ _ _ _ => none
  | .bfi _ _ _ _ rnd => first [need (rnd ≤ 4) 5 1]
  | .popc _ _ g => first [need (guardOk g) 10 0]
  | .clz _ _ g => first [need (guardOk g) 10 0]
  | .brev _ _ g => first [need (guardOk g) 10 0]
  | .iset _ _ _ _ g => first [need (guardOk g) 10 0]
  | .sel _ _ _ _ => none
  | .mov d a mode g => first [need (guardOk g) 10 0, need (mode ≠ 1 && mode ≠ 3 || isUni a) 1 0, need (mode ≠ 2 && mode ≠ 3 || isUni d) 1 0]
  | .movi _ _ => none
  | .moviHi _ _ => none
  | .movs d num u g => first [need (guardOk g) 10 0, need (num ≤ 0x0B) 1 0, need (u = 0 || isUni d && num ≠ 0x00 && num ≠ 0x09) 1 0]
  | .blend _ _ _ _ _ rnd _ _ _ _ _ => first [need (rnd ≤ 4) 5 1]
  | .idivStep d a _ _ => first [need (isEvenG d && isEvenG a) 6 0]
  | .imulw d _ _ _ rnd => first [need (isEvenG d) 6 0, need (rnd ≤ 4) 5 1]
  | .xadd _ _ i b g => first [need (guardOk g) 10 0, need (i = 1 || b < 16) 1 0]
  | .xsub _ _ i b g => first [need (guardOk g) 10 0, need (i = 1 || b < 16) 1 0]
  | .xmul _ _ i b g => first [need (guardOk g) 10 0, need (i = 1 || b < 16) 1 0]
  | .xshl _ _ i b g => first [need (guardOk g) 10 0, need (if i = 1 then b < 32 else b < 16) 1 0]
  | .xshr _ _ i b g => first [need (guardOk g) 10 0, need (if i = 1 then b < 32 else b < 16) 1 0]
  | .xmin _ _ i b g => first [need (guardOk g) 10 0, need (i = 1 || b < 16) 1 0]
  | .xmax _ _ i b g => first [need (guardOk g) 10 0, need (i = 1 || b < 16) 1 0]
  | .xand _ _ i b g => first [need (guardOk g) 10 0, need (i = 1 || b < 16) 1 0]
  | .xmov _ _ g => first [need (guardOk g) 10 0]
  | .xset _ _ _ m p g => first [need (guardOk g) 10 0, need (m = 0 || p = 0) 1 0]
  | .xfrom _ a t g => first [need (guardOk g) 10 0, need (t ≤ 4) 1 0, need (isG a) 6 0]
  | .xrd d _ _ g => first [need (guardOk g) 10 0, need (isG d) 6 0]
  | .xwiden _ _ g => first [need (guardOk g) 10 0]
  | .xld _ a _ _ g => first [need (guardOk g) 10 0, need (isG a) 6 0]
  | .xst _ a _ _ g => first [need (guardOk g) 10 0, need (isG a) 6 0]
  | .xclamp _ _ _ g => first [need (guardOk g) 10 0]
  | .fadd d _ _ _ rnd _ _ => first [need (isG d) 6 0, need (rnd ≤ 4) 5 1]
  | .fsub d _ _ _ rnd _ _ => first [need (isG d) 6 0, need (rnd ≤ 4) 5 1]
  | .fmul d _ _ _ rnd _ _ => first [need (isG d) 6 0, need (rnd ≤ 4) 5 1]
  | .ffma d _ _ _ _ rnd _ _ => first [need (isG d) 6 0, need (rnd ≤ 4) 5 1]
  | .fmin d _ _ _ => first [need (isG d) 6 0]
  | .fmax d _ _ _ => first [need (isG d) 6 0]
  | .fabs d _ g => first [need (guardOk g) 10 0, need (isG d) 6 0]
  | .fneg d _ g => first [need (guardOk g) 10 0, need (isG d) 6 0]
  | .fabsH2 d _ g => first [need (guardOk g) 10 0, need (isG d) 6 0]
  | .fnegH2 d _ g => first [need (guardOk g) 10 0, need (isG d) 6 0]
  | .fset _ _ _ _ g => first [need (guardOk g) 10 0]
  | .fclass d _ op g => first [need (guardOk g) 10 0, need (isG d) 6 0, need (op ≠ 3) 1 0]
  | .hadd2 d _ _ _ rnd _ _ sfmt => first [need (isG d) 6 0, need (sfmt = 9 || sfmt = 10) 5 1, need (rnd ≤ 4) 5 1]
  | .hmul2 d _ _ _ rnd _ _ sfmt => first [need (isG d) 6 0, need (sfmt = 9 || sfmt = 10) 5 1, need (rnd ≤ 4) 5 1]
  | .hfma2 d _ _ _ _ rnd _ _ sfmt => first [need (isG d) 6 0, need (sfmt = 9 || sfmt = 10) 5 1, need (rnd ≤ 4) 5 1]
  | .fdot2 d _ _ _ _ rnd _ _ sfmt => first [need (isG d) 6 0, need (sfmt = 9 || sfmt = 10) 5 1, need (rnd ≤ 4) 5 1]
  | .ex2 d _ rnd _ g => first [need (guardOk g) 10 0, need (isG d) 6 0, need (rnd = 0) 5 0]
  | .lg2 d _ rnd _ g => first [need (guardOk g) 10 0, need (isG d) 6 0, need (rnd = 0) 5 0]
  | .rcp d _ rnd _ g => first [need (guardOk g) 10 0, need (isG d) 6 0, need (rnd ≤ 4) 5 0]
  | .rsq d _ rnd _ g => first [need (guardOk g) 10 0, need (isG d) 6 0, need (rnd = 0) 5 0]
  | .sqrt d _ rnd _ g => first [need (guardOk g) 10 0, need (isG d) 6 0, need (rnd ≤ 4) 5 0]
  | .sin d _ rnd _ g => first [need (guardOk g) 10 0, need (isG d) 6 0, need (rnd = 0) 5 0]
  | .cos d _ rnd _ g => first [need (guardOk g) 10 0, need (isG d) 6 0, need (rnd = 0) 5 0]
  | .tanh d _ rnd _ g => first [need (guardOk g) 10 0, need (isG d) 6 0, need (rnd = 0) 5 0]
  | .erf d _ rnd _ g => first [need (guardOk g) 10 0, need (isG d) 6 0, need (rnd = 0) 5 0]
  | .cvt d a sc g rnd _ _ dfmt sfmt scale => first [need (guardOk g) 10 0, need (isG d && (dfmt ≠ 3 || isEvenG d) && (sfmt ≠ 3 || isEvenG a)) 6 0, need (isFormat dfmt && isFormat sfmt) 5 1, need (sc = 0 || isScaled dfmt || isScaled sfmt) 5 1, need (rnd ≤ 4) 5 1, need (sc = 1 || scale = 0) 1 1]
  | .pack d a sc g rnd _ _ dfmt sfmt scale => first [need (guardOk g) 10 0, need (isG d && (!isNarrow dfmt || isRun a (perRegister dfmt))) 6 0, need (isNarrow dfmt && sfmt = 8) 5 1, need (sc = 0 || isScaled dfmt || isScaled sfmt) 5 1, need (rnd ≤ 4) 5 1, need (sc = 1 || scale = 0) 1 1]
  | .unpack d _ sc g rnd _ _ dfmt sfmt scale => first [need (guardOk g) 10 0, need (!isNarrow sfmt || isRun d (perRegister sfmt)) 6 0, need (isNarrow sfmt && dfmt = 8) 5 1, need (sc = 0 || isScaled dfmt || isScaled sfmt) 5 1, need (rnd ≤ 4) 5 1, need (sc = 1 || scale = 0) 1 1]
  | .amax d _ fmt _ g => first [need (guardOk g) 10 0, need (fmt ≠ 3) 1 0, need (isG d) 6 0]
  | .seed a u g => first [need (guardOk g) 10 0, need (u = 0 || isUni a) 1 0, need (if u = 0 then isEvenG a else a.getLsbD 0 = false) 6 0]
  | .cvt8 d _ _ rnd _ _ dfmt => first [need (isG d) 6 0, need (dfmt = 12 || dfmt = 13) 5 1, need (rnd ≤ 4) 5 1]
  | .shfl d _ _ i b => first [need (isG d) 6 0, need (i = 0 || isUni b) 1 0]
  | .voteAll _ _ _ g => first [need (guardOk g) 10 0]
  | .voteAny _ _ _ g => first [need (guardOk g) 10 0]
  | .voteBallot d _ _ g => first [need (guardOk g) 10 0, need (isG d) 6 0]
  | .matchAny d _ _ g => first [need (guardOk g) 10 0, need (isG d) 6 0]
  | .matchAll d _ _ g => first [need (guardOk g) 10 0, need (isG d) 6 0]
  | .redg d _ op g => first [need (guardOk g) 10 0, need (op ≤ 8) 1 0, need (isG d) 6 0]
  | .scang d _ op _ _ g => first [need (guardOk g) 10 0, need (op ≤ 8) 1 0, need (isG d) 6 0]
  | .ldfrag d _ _ g => first [need (guardOk g) 10 0, need (isQuadG d) 6 0]
  | .ldfragTB8 d _ _ g => first [need (guardOk g) 10 0, need (isQuadG d) 6 0]
  | .ldfragTB16 d _ _ g => first [need (guardOk g) 10 0, need (isQuadG d) 6 0]
  | .shfli d _ _ => first [need (isG d) 6 0]
  | .permb d _ _ => first [need (isG d) 6 0]
  | .ldg d _ ty _ _ _ g => first [need (guardOk g) 10 0, need (ty ≠ 7) 1 0, need (ty ≠ 5 || isEvenG d) 6 0, need (ty ≠ 6 || isQuadG d) 6 0]
  | .stg d _ ty _ _ _ g => first [need (guardOk g) 10 0, need (ty ≠ 1 && ty ≠ 3 && ty ≠ 7) 1 0, need (ty ≠ 5 || isEvenG d) 6 0, need (ty ≠ 6 || isQuadG d) 6 0]
  | .lda _ _ _ _ _ g => first [need (guardOk g) 10 0]
  | .sta _ _ _ _ _ g => first [need (guardOk g) 10 0]
  | .lds d _ ty _ g => first [need (guardOk g) 10 0, need (ty ≠ 7) 1 0, need (ty ≠ 5 || isEvenG d) 6 0, need (ty ≠ 6 || isQuadG d) 6 0]
  | .sts d _ ty _ g => first [need (guardOk g) 10 0, need (ty ≠ 1 && ty ≠ 3 && ty ≠ 7) 1 0, need (ty ≠ 5 || isEvenG d) 6 0, need (ty ≠ 6 || isQuadG d) 6 0]
  | .prf _ _ _ _ g => first [need (guardOk g) 10 0]
  | .arm _ _ _ g => first [need (guardOk g) 10 0]
  | .disarm _ _ g => first [need (guardOk g) 10 0]
  | .ald _ _ _ g => first [need (guardOk g) 10 0]
  | .atom d _ op ord _ g c dfmt sfmt scale => first [need (guardOk g) 10 0, need (op ≤ 8) 1 0, need (if dfmt = 3 then isEvenG d else isG d) 6 0, need (if dfmt = 3 then isEvenG c && (op ≠ 7 || isEvenG scale) else isG c && (op ≠ 7 || isG scale)) 6 1, need (dfmt = 2 || dfmt = 3 || dfmt = 8) 5 1, need ((op = 8 : Bool) = (dfmt = 8 : Bool)) 5 1, need (sfmt ≤ 4 && (ord ≠ 0 || sfmt = 0)) 1 1, need (op = 7 || scale = 0) 1 1]
  | .callm d _ _ ord _ g c sfmt _ => first [need (guardOk g) 10 0, need (isEvenG d) 6 0, need (isEvenG c) 6 1, need (sfmt ≤ 4 && (ord ≠ 0 || sfmt = 0)) 1 1]
  | .bind _ _ _ _ _ g => first [need (guardOk g) 10 0]
  | .unbind _ _ _ g => first [need (guardOk g) 10 0]
  | .acq d _ scope _ g => first [need (guardOk g) 10 0, need (scope ≤ 4) 1 0, need (isEvenG d) 6 0]
  | .acqAll scope _ g => first [need (guardOk g) 10 0, need (scope ≤ 4) 1 0]
  | .rel d _ scope _ g => first [need (guardOk g) 10 0, need (scope ≤ 4) 1 0, need (isEvenG d) 6 0]
  | .relAll scope _ g => first [need (guardOk g) 10 0, need (scope ≤ 4) 1 0]
  | .fence scope _ g => first [need (guardOk g) 10 0, need (scope ≤ 4) 1 0]
  | .qfence msg copy mat _ g => first [need (guardOk g) 10 0, need (msg = 1 || copy = 1 || mat = 1) 1 0]
  | .bra _ => none
  | .brp _ _ _ => none
  | .xbr _ _ u k _ => first [need (u = 0 || k < 32) 1 0]
  | .jmpt _ _ _ => none
  | .call d _ => first [need (isEvenG d) 6 0]
  | .callIndirect d a => first [need (isEvenG d && isEvenG a) 6 0]
  | .ret a => first [need (isEvenG a) 6 0]
  | .exit g => first [need (guardOk g) 10 0]
  | .yield => none
  | .nop => none
  | .brx a _ => first [need (isEvenG a) 6 0]
  | .barInit _ _ h g => first [need (guardOk g) 10 0, need (h.getLsbD 0 = false) 6 0]
  | .barArr _ g => first [need (guardOk g) 10 0]
  | .barWait _ u v g => first [need (guardOk g) 10 0, need (u = 1 || v ≤ 1) 1 0]
  | .barSync _ g => first [need (guardOk g) 10 0]
  | .barsInit scope n _ g => first [need (guardOk g) 10 0, need (1 ≤ scope && scope ≤ 4 && (scope ≠ 4 || n ≤ 3)) 1 0]
  | .barsArr scope n g => first [need (guardOk g) 10 0, need (1 ≤ scope && scope ≤ 4 && (scope ≠ 4 || n ≤ 3)) 1 0]
  | .barsWait scope n u v g => first [need (guardOk g) 10 0, need (1 ≤ scope && scope ≤ 4 && (scope ≠ 4 || n ≤ 3)) 1 0, need (u = 1 || v ≤ 1) 1 0]
  | .barsSync scope n g => first [need (guardOk g) 10 0, need (1 ≤ scope && scope ≤ 4 && (scope ≠ 4 || n ≤ 3)) 1 0]
  | .fork _ _ => none
  | .rndv _ => none
  | .batonTake => none
  | .batonPass _ _ => none
  | .batonPassNone => none
  | .quiet d _ _ g => first [need (guardOk g) 10 0, need (isG d) 6 0]
  | .signal _ scope rl g => first [need (guardOk g) 10 0, need (scope ≤ 4 && (rl = 1 || scope = 0)) 1 0]
  | .mldb _ fmt sc _ bm _ sparse sh => first [need (fmt = 0 || 9 ≤ fmt && fmt ≤ 14) 5 0, need (sc = 0 || isScaled fmt) 1 0, need (sparse = 1 || bm = 0) 1 0, need (sh.sh0.uOk) 9 1, need (sh.sh1.uOk) 9 1, need (sh.sh3.isZero) 1 2, need (sh.sh2.value < 32) 1 2, need (sh.sh2.uOk) 9 2, need (sh.sh4.isZero) 1 3, need (sh.sh5.isZero) 1 3, need (sh.sh6.isZero) 1 4, need (sh.sh7.isZero) 1 4]
  | .mzero _ _ => none
  | .mma _ _ a sa g sh => first [need (guardOk g) 10 0, need (isG a && isG sa) 6 0, need (!sh.sh0.isMarker) 1 1, need (sh.sh0.value < 128) 1 1, need (fmtA sh = 0 || 9 ≤ fmtA sh && fmtA sh ≤ 14) 5 1, need (sh.sh0.value.extractLsb' 4 3 ≠ 0 || sh.sh1.isZero) 1 1, need (sh.sh0.uOk) 9 1, need (sh.sh1.uOk) 9 1, need (sh.sh2.isZero) 1 2, need (sh.sh3.isZero) 1 2, need (sh.sh4.isZero) 1 3, need (sh.sh5.isZero) 1 3, need (sh.sh7.isZero) 1 4, need (sh.sh6.value < 32) 1 4, need (sh.sh6.uOk) 9 4]
  | .mmaStr _ _ sh => first [need (!sh.sh0.isMarker) 1 1, need (128 ≤ sh.sh0.value && sh.sh0.value < 256) 1 1, need (fmtA sh = 0 || 9 ≤ fmtA sh && fmtA sh ≤ 14) 5 1, need (sh.sh0.value.extractLsb' 4 3 ≠ 0 || sh.sh1.isZero) 1 1, need (sh.sh0.uOk) 9 1, need (sh.sh1.uOk) 9 1, need (sh.sh2.isMarker) 1 2, need (sh.sh2.uOk) 9 2, need (sh.sh3.uOk) 9 2, need (sh.sh4.uOk) 9 3, need (sh.sh5.uOk) 9 3, need (sh.sh7.isZero) 1 4, need (sh.sh6.value < 32) 1 4, need (sh.sh6.uOk) 9 4]
  | .mrd _ dfmt rnd _ _ d _ g sh => first [need (guardOk g) 10 0, need (mrdFormat dfmt) 5 0, need (rnd ≤ 3) 5 0, need (sh.sh0.value = 0 || d = 0) 1 0, need (sh.sh0.value = 1 || isG d) 6 0, need (!sh.sh0.isMarker) 1 1, need (sh.sh0.value ≤ 1) 1 1, need (sh.sh1.isMarker || sh.sh1.value ≤ 127) 1 1, need (sh.sh0.uOk) 9 1, need (sh.sh1.uOk) 9 1, need (sh.sh2.isMarker || 1 ≤ sh.sh2.value && sh.sh2.value ≤ 128) 1 2, need (sh.sh1.isMarker || sh.sh2.isMarker || sh.sh1.value + sh.sh2.value ≤ 128) 1 2, need (sh.sh0.value = 1 || sh.sh3.isZero) 1 2, need (sh.sh2.uOk) 9 2, need (sh.sh3.uOk) 9 2, need (sh.sh0.value = 1 || sh.sh4.isZero) 1 3, need (sh.sh0.value = 0 || sh.sh2.isMarker || sh.sh4.isMarker || sh.sh2.value.toNat * mrdSize dfmt ≤ 16 * sh.sh4.value.toNat) 1 3, need (sh.sh5.isZero || sh.sh5.isMarker) 1 3, need (sh.sh4.uOk) 9 3, need (sh.sh5.uOk) 9 3, need (sh.sh7.isZero) 1 4, need (sh.sh6.value < 32) 1 4, need (sh.sh6.uOk) 9 4]
  | .msig _ => none
  | .mseqEnd _ _ => none
  | .mamax _ d _ g sh => first [need (guardOk g) 10 0, need (isG d) 6 0, need (sh.sh1.isMarker || sh.sh1.value ≤ 127) 1 1, need (sh.sh0.isZero) 1 1, need (sh.sh1.uOk) 9 1, need (sh.sh2.isMarker || 1 ≤ sh.sh2.value && sh.sh2.value ≤ 128) 1 2, need (sh.sh1.isMarker || sh.sh2.isMarker || sh.sh1.value + sh.sh2.value ≤ 128) 1 2, need (sh.sh3.isZero) 1 2, need (sh.sh2.uOk) 9 2, need (sh.sh4.isZero) 1 3, need (sh.sh5.isZero) 1 3, need (sh.sh6.isZero) 1 4, need (sh.sh7.isZero) 1 4]
  | .dcopy _ _ dsp ssp _ _ _ _ g sh => first [need (guardOk g) 10 0, need (dsp ≠ 3 && ssp ≠ 3) 1 0, need (sh.sh0.uOk) 9 1, need (sh.sh1.uOk) 9 1, need (sh.sh2.uOk) 9 2, need (sh.sh3.uOk) 9 2, need (sh.sh4.uOk) 9 3, need (sh.sh5.uOk) 9 3, need (!sh.sh7.isMarker) 1 4, need (sh.sh7.value.extractLsb' 0 3 ≤ 4 && sh.sh7.value < 256) 1 4, need (sh.sh6.uOk) 9 4, need (sh.sh7.uOk) 9 4]
  | .dcopyCk _ _ dsp ssp st _ _ _ g sh => first [need (guardOk g) 10 0, need (dsp ≠ 3 && ssp ≠ 3) 1 0, need (st ≤ 29) 6 0, need (sh.sh0.uOk) 9 1, need (sh.sh1.uOk) 9 1, need (sh.sh2.uOk) 9 2, need (sh.sh3.uOk) 9 2, need (sh.sh4.uOk) 9 3, need (sh.sh5.uOk) 9 3, need (!sh.sh7.isMarker) 1 4, need (sh.sh7.value.extractLsb' 0 3 ≤ 4 && sh.sh7.value < 1024) 1 4, need (sh.sh6.uOk) 9 4, need (sh.sh7.uOk) 9 4]
  | .dfill _ _ dsp ssp _ _ _ _ g sh => first [need (guardOk g) 10 0, need (dsp ≠ 3 && ssp ≠ 3) 1 0, need (sh.sh0.uOk) 9 1, need (sh.sh1.uOk) 9 1, need (sh.sh2.uOk) 9 2, need (sh.sh3.uOk) 9 2, need (sh.sh4.uOk) 9 3, need (sh.sh5.uOk) 9 3, need (!sh.sh7.isMarker) 1 4, need (sh.sh7.value.extractLsb' 0 3 ≤ 4 && sh.sh7.value < 256) 1 4, need (sh.sh6.uOk) 9 4, need (sh.sh7.uOk) 9 4]
  | .dgather _ _ sp _ _ _ _ g sh => first [need (guardOk g) 10 0, need (sp ≠ 3) 1 0, need (!sh.sh0.isMarker) 1 1, need (!sh.sh1.isMarker) 1 1, need (sh.sh0.value ≤ 15) 1 1, need (sh.sh0.uOk) 9 1, need (sh.sh1.uOk) 9 1, need (sh.sh3.isZero) 1 2, need (sh.sh2.uOk) 9 2, need (sh.sh4.isZero) 1 3, need (sh.sh5.isZero) 1 3, need (!sh.sh7.isMarker) 1 4, need (sh.sh7.value.extractLsb' 0 3 = 0 && sh.sh7.value < 256) 1 4, need (sh.sh6.isZero) 1 4, need (sh.sh7.uOk) 9 4]
  | .dscat _ _ sp _ _ _ _ g sh => first [need (guardOk g) 10 0, need (sp ≠ 3) 1 0, need (!sh.sh0.isMarker) 1 1, need (!sh.sh1.isMarker) 1 1, need (sh.sh0.value ≤ 15) 1 1, need (sh.sh0.uOk) 9 1, need (sh.sh1.uOk) 9 1, need (sh.sh3.isZero) 1 2, need (sh.sh2.uOk) 9 2, need (sh.sh4.isZero) 1 3, need (sh.sh5.isZero) 1 3, need (!sh.sh7.isMarker) 1 4, need (sh.sh7.value.extractLsb' 0 3 = 0 && sh.sh7.value < 256) 1 4, need (sh.sh6.isZero) 1 4, need (sh.sh7.uOk) 9 4]
  | .dlease _ _ _ _ _ g => first [need (guardOk g) 10 0]
  | .dleaseRenew _ _ _ _ g => first [need (guardOk g) 10 0]
  | .dunlease _ _ g => first [need (guardOk g) 10 0]
  | .dsig _ arr sg _ _ g => first [need (guardOk g) 10 0, need (arr = 1 || sg = 1) 1 0]
  | .dreloc _ _ _ g => first [need (guardOk g) 10 0]
  | .spawn _ _ _ g => first [need (guardOk g) 10 0]
  | .spawnAt _ _ _ _ g => first [need (guardOk g) 10 0]
  | .done => none
  | .alloc => none
  | .free => none
  | .csrr d csr g => first [need (guardOk g) 10 0, need ((csrAccess csr).isSome) 1 0, need (isG d) 6 0]
  | .csrw a csr g => first [need (guardOk g) 10 0, need (csrAccess csr = some true) 1 0, need (isG a) 6 0]
  | .trap cause _ g => first [need (guardOk g) 10 0, need (isCause cause) 1 0]
  | .eret => none
  | .tmask => none
  | .tunmask => none
  | .l1inv => none
  | .tlbiRange _ _ _ g => first [need (guardOk g) 10 0]
  | .tlbiCtx _ g => first [need (guardOk g) 10 0]
  | .tlbiPkg g => first [need (guardOk g) 10 0]
  | .clock d g => first [need (guardOk g) 10 0, need (isEvenG d) 6 0]
  | .clockNs d g => first [need (guardOk g) 10 0, need (isEvenG d) 6 0]
  | .perf d _ g => first [need (guardOk g) 10 0, need (isEvenG d) 6 0]
  | .halt => none
  | .clauseIssue _ _ => none
  | .frontierWaitLimit _ _ => none
  | .loopLimit _ _ => none
  | .translationDone _ => none
  | .loadDataReturn _ _ _ => none
  | .storeAck _ _ => none
  | .atomicReply _ _ => none
  | .allocGrant _ => none
  | .dispatch _ => none
  | .groupComplete _ => none
  | .successorEntry _ => none
  | .descriptorRead _ => none
  | .spillReturn _ => none
  | .copyCommandRun _ _ _ => none
  | .copyRecordComplete _ _ => none
  | .matrixEntryRun _ _ => none
  | .waveForm _ => none
  | .waveComplete _ _ => none
  | .waveTimeLimit _ _ => none
  | .methodRequest _ => none
  | .methodCall _ => none
  | .methodReply _ _ => none
  | .remoteStore _ => none
  | .remoteAtomic _ => none
  | .remoteSpawn _ => none
  | .remoteSignal _ => none
  | .remotePodInit _ => none
  | .copyBeat _ => none
  | .remoteLoad _ => none
  | .ackResponse _ => none
  | .refusedResponse _ => none
  | .retryResponse _ => none
  | .heldResponse _ => none
  | .consumedResponse _ => none
  | .abandonedResponse _ => none
  | .phaseNotice _ => none
  | .lossNotice _ => none
  | .probe _ => none
  | .report _ => none
  | .traversePeriodic => none
  | .traversePassTimeout _ _ => none
  | .quietTimeout _ => none
  | .messageResend _ _ => none
  | .messageDoubt _ _ => none
  | .lossNoticeResend _ _ => none
  | .retryResend _ => none
  | .phaseNoticeResend _ => none
  | .leaseExpiry _ _ => none
  | .footprintFlush _ _ => none
  | .slotDeadline _ => none
  | .overrun _ => none
  | .drainTimeout _ => none
  | .saveTimeout _ => none
  | .drainComplete _ => none
  | .saveComplete _ => none
  | .restore _ => none
  | .thermalMigration _ => none
  | .activityPeriod _ _ => none
  | .scrubRead _ => none
  | .migrationComplete _ => none
  | .uncorrectableError _ => none
  | .gangKill _ => none
  | .auditReplay _ _ => none
  | .powerOn => none
  | .powerCap => none
  | .dieThrottle _ => none
  | .emergencyStop => none
  | .emergencyStopComplete => none
  | .memoryThermalState _ => none
  | .hostApertureAccess _ _ _ => none
  | .qnotify => none
  | .qctlMap => none
  | .qctlUnmap => none
  | .lsectlRevoke => none
  | .poisoncmdSet => none
  | .poisoncmdClear => none
  | .migcmdMigrate4k => none
  | .migcmdMigrate2m => none
  | .migcmdRemoveRedirect => none
  | .fabjstatLossyClear => none
  | .precmdDrain => none
  | .precmdSave => none
  | .precmdReset => none
  | .precmdRestore => none
  | .precmdRelease => none
  | .precmdEndDrain => none
  | .bootcmdWarmStart => none
  | .bootcmdColdStart => none
  | .bootcmdShutdown => none
  | .fusecmdRaise => none
  | .fusecmdRevoke => none
  | .loadcmdStart => none
  | .pkgcfgWrite => none
  | .registerWrite => none
  | .powerOff => none
  | .workingPortChange _ _ => none
  | .powerStateNormal _ => none
  | .memoryThermalStateExit _ => none
  | .contextResetComplete _ => none
  | .backgroundSweepComplete _ => none
  | .correctedSoftError _ => none
  | .svctailWrite => none
  | .sequencerIssue _ _ => none
  | .signalBaseDieTransfer _ => none
  | .spawnBaseDieTransfer _ => none

/-- A well-formed instruction passes every check of its own words. -/
def Instr.wf (i : Instr) : Bool := i.check.isNone

/-- Whether the operation is an instruction of the opcode map (R260), not an event. -/
def Instr.isEvent : Instr → Bool
  | .iadd _ _ _ _ => false
  | .isub _ _ _ _ => false
  | .imul _ _ _ _ => false
  | .imulhi _ _ _ _ => false
  | .imad _ _ _ _ _ _ => false
  | .imin _ _ _ _ => false
  | .imax _ _ _ _ => false
  | .iabs _ _ _ => false
  | .ineg _ _ _ => false
  | .and _ _ _ _ => false
  | .or _ _ _ _ => false
  | .xor _ _ _ _ => false
  | .not _ _ _ => false
  | .shl _ _ _ _ => false
  | .shr _ _ _ _ => false
  | .sar _ _ _ _ => false
  | .rot _ _ _ _ => false
  | .bfe _ _ _ _ => false
  | .bfi _ _ _ _ _ => false
  | .popc _ _ _ => false
  | .clz _ _ _ => false
  | .brev _ _ _ => false
  | .iset _ _ _ _ _ => false
  | .sel _ _ _ _ => false
  | .mov _ _ _ _ => false
  | .movi _ _ => false
  | .moviHi _ _ => false
  | .movs _ _ _ _ => false
  | .blend _ _ _ _ _ _ _ _ _ _ _ => false
  | .idivStep _ _ _ _ => false
  | .imulw _ _ _ _ _ => false
  | .xadd _ _ _ _ _ => false
  | .xsub _ _ _ _ _ => false
  | .xmul _ _ _ _ _ => false
  | .xshl _ _ _ _ _ => false
  | .xshr _ _ _ _ _ => false
  | .xmin _ _ _ _ _ => false
  | .xmax _ _ _ _ _ => false
  | .xand _ _ _ _ _ => false
  | .xmov _ _ _ => false
  | .xset _ _ _ _ _ _ => false
  | .xfrom _ _ _ _ => false
  | .xrd _ _ _ _ => false
  | .xwiden _ _ _ => false
  | .xld _ _ _ _ _ => false
  | .xst _ _ _ _ _ => false
  | .xclamp _ _ _ _ => false
  | .fadd _ _ _ _ _ _ _ => false
  | .fsub _ _ _ _ _ _ _ => false
  | .fmul _ _ _ _ _ _ _ => false
  | .ffma _ _ _ _ _ _ _ _ => false
  | .fmin _ _ _ _ => false
  | .fmax _ _ _ _ => false
  | .fabs _ _ _ => false
  | .fneg _ _ _ => false
  | .fabsH2 _ _ _ => false
  | .fnegH2 _ _ _ => false
  | .fset _ _ _ _ _ => false
  | .fclass _ _ _ _ => false
  | .hadd2 _ _ _ _ _ _ _ _ => false
  | .hmul2 _ _ _ _ _ _ _ _ => false
  | .hfma2 _ _ _ _ _ _ _ _ _ => false
  | .fdot2 _ _ _ _ _ _ _ _ _ => false
  | .ex2 _ _ _ _ _ => false
  | .lg2 _ _ _ _ _ => false
  | .rcp _ _ _ _ _ => false
  | .rsq _ _ _ _ _ => false
  | .sqrt _ _ _ _ _ => false
  | .sin _ _ _ _ _ => false
  | .cos _ _ _ _ _ => false
  | .tanh _ _ _ _ _ => false
  | .erf _ _ _ _ _ => false
  | .cvt _ _ _ _ _ _ _ _ _ _ => false
  | .pack _ _ _ _ _ _ _ _ _ _ => false
  | .unpack _ _ _ _ _ _ _ _ _ _ => false
  | .amax _ _ _ _ _ => false
  | .seed _ _ _ => false
  | .cvt8 _ _ _ _ _ _ _ => false
  | .shfl _ _ _ _ _ => false
  | .voteAll _ _ _ _ => false
  | .voteAny _ _ _ _ => false
  | .voteBallot _ _ _ _ => false
  | .matchAny _ _ _ _ => false
  | .matchAll _ _ _ _ => false
  | .redg _ _ _ _ => false
  | .scang _ _ _ _ _ _ => false
  | .ldfrag _ _ _ _ => false
  | .ldfragTB8 _ _ _ _ => false
  | .ldfragTB16 _ _ _ _ => false
  | .shfli _ _ _ => false
  | .permb _ _ _ => false
  | .ldg _ _ _ _ _ _ _ => false
  | .stg _ _ _ _ _ _ _ => false
  | .lda _ _ _ _ _ _ => false
  | .sta _ _ _ _ _ _ => false
  | .lds _ _ _ _ _ => false
  | .sts _ _ _ _ _ => false
  | .prf _ _ _ _ _ => false
  | .arm _ _ _ _ => false
  | .disarm _ _ _ => false
  | .ald _ _ _ _ => false
  | .atom _ _ _ _ _ _ _ _ _ _ => false
  | .callm _ _ _ _ _ _ _ _ _ => false
  | .bind _ _ _ _ _ _ => false
  | .unbind _ _ _ _ => false
  | .acq _ _ _ _ _ => false
  | .acqAll _ _ _ => false
  | .rel _ _ _ _ _ => false
  | .relAll _ _ _ => false
  | .fence _ _ _ => false
  | .qfence _ _ _ _ _ => false
  | .bra _ => false
  | .brp _ _ _ => false
  | .xbr _ _ _ _ _ => false
  | .jmpt _ _ _ => false
  | .call _ _ => false
  | .callIndirect _ _ => false
  | .ret _ => false
  | .exit _ => false
  | .yield => false
  | .nop => false
  | .brx _ _ => false
  | .barInit _ _ _ _ => false
  | .barArr _ _ => false
  | .barWait _ _ _ _ => false
  | .barSync _ _ => false
  | .barsInit _ _ _ _ => false
  | .barsArr _ _ _ => false
  | .barsWait _ _ _ _ _ => false
  | .barsSync _ _ _ => false
  | .fork _ _ => false
  | .rndv _ => false
  | .batonTake => false
  | .batonPass _ _ => false
  | .batonPassNone => false
  | .quiet _ _ _ _ => false
  | .signal _ _ _ _ => false
  | .mldb _ _ _ _ _ _ _ _ => false
  | .mzero _ _ => false
  | .mma _ _ _ _ _ _ => false
  | .mmaStr _ _ _ => false
  | .mrd _ _ _ _ _ _ _ _ _ => false
  | .msig _ => false
  | .mseqEnd _ _ => false
  | .mamax _ _ _ _ _ => false
  | .dcopy _ _ _ _ _ _ _ _ _ _ => false
  | .dcopyCk _ _ _ _ _ _ _ _ _ _ => false
  | .dfill _ _ _ _ _ _ _ _ _ _ => false
  | .dgather _ _ _ _ _ _ _ _ _ => false
  | .dscat _ _ _ _ _ _ _ _ _ => false
  | .dlease _ _ _ _ _ _ => false
  | .dleaseRenew _ _ _ _ _ => false
  | .dunlease _ _ _ => false
  | .dsig _ _ _ _ _ _ => false
  | .dreloc _ _ _ _ => false
  | .spawn _ _ _ _ => false
  | .spawnAt _ _ _ _ _ => false
  | .done => false
  | .alloc => false
  | .free => false
  | .csrr _ _ _ => false
  | .csrw _ _ _ => false
  | .trap _ _ _ => false
  | .eret => false
  | .tmask => false
  | .tunmask => false
  | .l1inv => false
  | .tlbiRange _ _ _ _ => false
  | .tlbiCtx _ _ => false
  | .tlbiPkg _ => false
  | .clock _ _ => false
  | .clockNs _ _ => false
  | .perf _ _ _ => false
  | .halt => false
  | .clauseIssue _ _ => true
  | .frontierWaitLimit _ _ => true
  | .loopLimit _ _ => true
  | .translationDone _ => true
  | .loadDataReturn _ _ _ => true
  | .storeAck _ _ => true
  | .atomicReply _ _ => true
  | .allocGrant _ => true
  | .dispatch _ => true
  | .groupComplete _ => true
  | .successorEntry _ => true
  | .descriptorRead _ => true
  | .spillReturn _ => true
  | .copyCommandRun _ _ _ => true
  | .copyRecordComplete _ _ => true
  | .matrixEntryRun _ _ => true
  | .waveForm _ => true
  | .waveComplete _ _ => true
  | .waveTimeLimit _ _ => true
  | .methodRequest _ => true
  | .methodCall _ => true
  | .methodReply _ _ => true
  | .remoteStore _ => true
  | .remoteAtomic _ => true
  | .remoteSpawn _ => true
  | .remoteSignal _ => true
  | .remotePodInit _ => true
  | .copyBeat _ => true
  | .remoteLoad _ => true
  | .ackResponse _ => true
  | .refusedResponse _ => true
  | .retryResponse _ => true
  | .heldResponse _ => true
  | .consumedResponse _ => true
  | .abandonedResponse _ => true
  | .phaseNotice _ => true
  | .lossNotice _ => true
  | .probe _ => true
  | .report _ => true
  | .traversePeriodic => true
  | .traversePassTimeout _ _ => true
  | .quietTimeout _ => true
  | .messageResend _ _ => true
  | .messageDoubt _ _ => true
  | .lossNoticeResend _ _ => true
  | .retryResend _ => true
  | .phaseNoticeResend _ => true
  | .leaseExpiry _ _ => true
  | .footprintFlush _ _ => true
  | .slotDeadline _ => true
  | .overrun _ => true
  | .drainTimeout _ => true
  | .saveTimeout _ => true
  | .drainComplete _ => true
  | .saveComplete _ => true
  | .restore _ => true
  | .thermalMigration _ => true
  | .activityPeriod _ _ => true
  | .scrubRead _ => true
  | .migrationComplete _ => true
  | .uncorrectableError _ => true
  | .gangKill _ => true
  | .auditReplay _ _ => true
  | .powerOn => true
  | .powerCap => true
  | .dieThrottle _ => true
  | .emergencyStop => true
  | .emergencyStopComplete => true
  | .memoryThermalState _ => true
  | .hostApertureAccess _ _ _ => true
  | .qnotify => true
  | .qctlMap => true
  | .qctlUnmap => true
  | .lsectlRevoke => true
  | .poisoncmdSet => true
  | .poisoncmdClear => true
  | .migcmdMigrate4k => true
  | .migcmdMigrate2m => true
  | .migcmdRemoveRedirect => true
  | .fabjstatLossyClear => true
  | .precmdDrain => true
  | .precmdSave => true
  | .precmdReset => true
  | .precmdRestore => true
  | .precmdRelease => true
  | .precmdEndDrain => true
  | .bootcmdWarmStart => true
  | .bootcmdColdStart => true
  | .bootcmdShutdown => true
  | .fusecmdRaise => true
  | .fusecmdRevoke => true
  | .loadcmdStart => true
  | .pkgcfgWrite => true
  | .registerWrite => true
  | .powerOff => true
  | .workingPortChange _ _ => true
  | .powerStateNormal _ => true
  | .memoryThermalStateExit _ => true
  | .contextResetComplete _ => true
  | .backgroundSweepComplete _ => true
  | .correctedSoftError _ => true
  | .svctailWrite => true
  | .sequencerIssue _ _ => true
  | .signalBaseDieTransfer _ => true
  | .spawnBaseDieTransfer _ => true

end Sys2Proof
end

