-- ==== Sys2Proof/Decode.lean ====
section
/-! DEFINITION. Clauses and instruction words: the decoder (total; it rejects by the subcodes of R263) and the encoder,
both written from the bit pictures of R241, R253 to R257, R277, R298 to R303, R306, R332, R365 to R384. -/

namespace Sys2Proof

/-- The `n` bits of a word from bit `lo` up. -/
def fld (lo n : Nat) (w : Word) : BitVec n := w.extractLsb' lo n

/-- A word from the fields of its picture, the least significant first. -/
def pack : List ((n : Nat) × BitVec n) → Word
  | [] => 0
  | ⟨n, v⟩ :: r => v.setWidth 32 ||| pack r <<< n

/-- A word from the fields of its picture, the most significant first. -/
def word (l : List ((n : Nat) × BitVec n)) : Word := pack l.reverse

/-- The shape record of four words (R257): word k holds sh(2k) in bits 31:16 and sh(2k+1) in bits 15:0, each field
`15:5 value | 4:0 u`. -/
def Shape.ofWords (w0 w1 w2 w3 : Word) : Shape :=
  ⟨⟨fld 21 11 w0, fld 16 5 w0⟩, ⟨fld 5 11 w0, fld 0 5 w0⟩, ⟨fld 21 11 w1, fld 16 5 w1⟩, ⟨fld 5 11 w1, fld 0 5 w1⟩,
   ⟨fld 21 11 w2, fld 16 5 w2⟩, ⟨fld 5 11 w2, fld 0 5 w2⟩, ⟨fld 21 11 w3, fld 16 5 w3⟩, ⟨fld 5 11 w3, fld 0 5 w3⟩⟩

/-- The four words of a shape record (R257). -/
def Shape.words (s : Shape) : List Word :=
  [word [⟨_, s.sh0.value⟩, ⟨_, s.sh0.u⟩, ⟨_, s.sh1.value⟩, ⟨_, s.sh1.u⟩],
   word [⟨_, s.sh2.value⟩, ⟨_, s.sh2.u⟩, ⟨_, s.sh3.value⟩, ⟨_, s.sh3.u⟩],
   word [⟨_, s.sh4.value⟩, ⟨_, s.sh4.u⟩, ⟨_, s.sh5.value⟩, ⟨_, s.sh5.u⟩],
   word [⟨_, s.sh6.value⟩, ⟨_, s.sh6.u⟩, ⟨_, s.sh7.value⟩, ⟨_, s.sh7.u⟩]]

/-- The class of an opcode (R242), whether assigned or not. -/
def opcodeClass (op : BitVec 8) : Nat :=
  if op < 0x80 then (if op = 0x2D || op = 0x2E || op = 0x75 then 1 else 0)
  else if op < 0xA0 then 1
  else if op < 0xB0 then 2
  else if op < 0xC0 then 5
  else if op < 0xD0 then 3
  else if op < 0xE0 then 4
  else if op < 0xF0 then 5
  else 6

/-- How many words an instruction of this opcode has (R261). -/
def opcodeLength (op : BitVec 8) : Nat :=
  if op = 0x04 || op = 0x11 || op = 0x18 || op = 0x1A || (0x40 ≤ op && op ≤ 0x43) || (0x49 ≤ op && op ≤ 0x4C)
    || (0x60 ≤ op && op ≤ 0x62) || op = 0x65 || op = 0x89 || op = 0x8A then 2
  else if op = 0xC0 || op = 0xC2 || op = 0xC3 || op = 0xC6 || (0xD0 ≤ op && op ≤ 0xD3) || op = 0xD8 then 5
  else 1

/-- The assigned opcodes of the map of R260. -/
def opcodeAssigned (op : BitVec 8) : Bool :=
  op ≤ 0x1A || (0x20 ≤ op && op ≤ 0x2E) || op = 0x30 || (0x40 ≤ op && op ≤ 0x4C) || (0x50 ≤ op && op ≤ 0x58)
    || (0x60 ≤ op && op ≤ 0x65) || (0x70 ≤ op && op ≤ 0x77) || (0x80 ≤ op && op ≤ 0x8F) || (0xA0 ≤ op && op ≤ 0xA9)
    || (0xB0 ≤ op && op ≤ 0xB7) || (0xC0 ≤ op && op ≤ 0xC6) || (0xD0 ≤ op && op ≤ 0xD8) || (0xE0 ≤ op && op ≤ 0xE4)
    || (0xF0 ≤ op && op ≤ 0xF9)

/-- The long-latency opcodes (R247, R261). -/
def opcodeLong (op : BitVec 8) : Bool :=
  op = 0x2D || op = 0x2E || op = 0x75 || (0x80 ≤ op && op ≤ 0x8F) || op = 0xC3 || op = 0xC6
    || (0xD0 ≤ op && op ≤ 0xD8) || op = 0xB6 || op = 0xE0 || op = 0xE1

/-- Row 0x0_ of the opcode map: integer arithmetic. -/
def decodeRow0 (lo : BitVec 4) (w e : Word) (_sh : Shape) : Option Instr :=
  if lo = 0x0 then some (.iadd (fld 17 7 w) (fld 10 7 w) (fld 3 7 w) (fld 0 3 w)) else
  if lo = 0x1 then some (.isub (fld 17 7 w) (fld 10 7 w) (fld 3 7 w) (fld 0 3 w)) else
  if lo = 0x2 then some (.imul (fld 17 7 w) (fld 10 7 w) (fld 3 7 w) (fld 0 3 w)) else
  if lo = 0x3 then some (.imulhi (fld 17 7 w) (fld 10 7 w) (fld 3 7 w) (fld 0 3 w)) else
  if lo = 0x4 then some (.imad (fld 17 7 w) (fld 10 7 w) (fld 3 7 w) (fld 0 3 w) (fld 25 7 e) (fld 22 3 e)) else
  if lo = 0x5 then some (.imin (fld 17 7 w) (fld 10 7 w) (fld 3 7 w) (fld 0 3 w)) else
  if lo = 0x6 then some (.imax (fld 17 7 w) (fld 10 7 w) (fld 3 7 w) (fld 0 3 w)) else
  if lo = 0x7 then if fld 4 1 w = 0 then some (.iabs (fld 17 7 w) (fld 10 7 w) (fld 0 4 w)) else if fld 4 1 w = 1 then some (.ineg (fld 17 7 w) (fld 10 7 w) (fld 0 4 w)) else none else
  if lo = 0x8 then some (.and (fld 17 7 w) (fld 10 7 w) (fld 3 7 w) (fld 0 3 w)) else
  if lo = 0x9 then some (.or (fld 17 7 w) (fld 10 7 w) (fld 3 7 w) (fld 0 3 w)) else
  if lo = 0xA then some (.xor (fld 17 7 w) (fld 10 7 w) (fld 3 7 w) (fld 0 3 w)) else
  if lo = 0xB then some (.not (fld 17 7 w) (fld 10 7 w) (fld 0 4 w)) else
  if lo = 0xC then some (.shl (fld 17 7 w) (fld 10 7 w) (fld 3 7 w) (fld 0 3 w)) else
  if lo = 0xD then some (.shr (fld 17 7 w) (fld 10 7 w) (fld 3 7 w) (fld 0 3 w)) else
  if lo = 0xE then some (.sar (fld 17 7 w) (fld 10 7 w) (fld 3 7 w) (fld 0 3 w)) else
  if lo = 0xF then some (.rot (fld 17 7 w) (fld 10 7 w) (fld 3 7 w) (fld 0 3 w)) else
  none

/-- Row 0x1_ of the opcode map: bit fields, moves and compares. -/
def decodeRow1 (lo : BitVec 4) (w e : Word) (_sh : Shape) : Option Instr :=
  if lo = 0x0 then some (.bfe (fld 17 7 w) (fld 10 7 w) (fld 3 7 w) (fld 0 3 w)) else
  if lo = 0x1 then some (.bfi (fld 17 7 w) (fld 10 7 w) (fld 3 7 w) (fld 25 7 e) (fld 22 3 e)) else
  if lo = 0x2 then if fld 4 2 w = 0 then some (.popc (fld 17 7 w) (fld 10 7 w) (fld 0 4 w)) else if fld 4 2 w = 1 then some (.clz (fld 17 7 w) (fld 10 7 w) (fld 0 4 w)) else if fld 4 2 w = 2 then some (.brev (fld 17 7 w) (fld 10 7 w) (fld 0 4 w)) else none else
  if lo = 0x3 then some (.iset (fld 21 3 w) (fld 14 7 w) (fld 7 7 w) (fld 4 3 w) (fld 0 4 w)) else
  if lo = 0x4 then some (.sel (fld 17 7 w) (fld 10 7 w) (fld 3 7 w) (fld 0 3 w)) else
  if lo = 0x5 then some (.mov (fld 17 7 w) (fld 10 7 w) (fld 4 2 w) (fld 0 4 w)) else
  if lo = 0x6 then if fld 16 1 w = 0 then some (.movi (fld 17 7 w) (fld 0 16 w)) else if fld 16 1 w = 1 then some (.moviHi (fld 17 7 w) (fld 0 16 w)) else none else
  if lo = 0x7 then some (.movs (fld 17 7 w) (fld 9 8 w) (fld 8 1 w) (fld 0 4 w)) else
  if lo = 0x8 then some (.blend (fld 17 7 w) (fld 10 7 w) (fld 3 7 w) (fld 0 3 w) (fld 25 7 e) (fld 22 3 e) (fld 10 2 e) (fld 8 2 e) (fld 7 1 e) (fld 6 1 e) (fld 5 1 e)) else
  if lo = 0x9 then some (.idivStep (fld 17 7 w) (fld 10 7 w) (fld 3 7 w) (fld 0 3 w)) else
  if lo = 0xA then some (.imulw (fld 17 7 w) (fld 10 7 w) (fld 3 7 w) (fld 0 3 w) (fld 22 3 e)) else
  none

/-- Row 0x2_ of the opcode map: index. -/
def decodeRow2 (lo : BitVec 4) (w _e : Word) (_sh : Shape) : Option Instr :=
  if lo = 0x0 then some (.xadd (fld 20 4 w) (fld 16 4 w) (fld 15 1 w) (fld 4 11 w) (fld 0 4 w)) else
  if lo = 0x1 then some (.xsub (fld 20 4 w) (fld 16 4 w) (fld 15 1 w) (fld 4 11 w) (fld 0 4 w)) else
  if lo = 0x2 then some (.xmul (fld 20 4 w) (fld 16 4 w) (fld 15 1 w) (fld 4 11 w) (fld 0 4 w)) else
  if lo = 0x3 then some (.xshl (fld 20 4 w) (fld 16 4 w) (fld 15 1 w) (fld 4 11 w) (fld 0 4 w)) else
  if lo = 0x4 then some (.xshr (fld 20 4 w) (fld 16 4 w) (fld 15 1 w) (fld 4 11 w) (fld 0 4 w)) else
  if lo = 0x5 then some (.xmin (fld 20 4 w) (fld 16 4 w) (fld 15 1 w) (fld 4 11 w) (fld 0 4 w)) else
  if lo = 0x6 then some (.xmax (fld 20 4 w) (fld 16 4 w) (fld 15 1 w) (fld 4 11 w) (fld 0 4 w)) else
  if lo = 0x7 then some (.xand (fld 20 4 w) (fld 16 4 w) (fld 15 1 w) (fld 4 11 w) (fld 0 4 w)) else
  if lo = 0x8 then some (.xmov (fld 20 4 w) (fld 16 4 w) (fld 0 4 w)) else
  if lo = 0x9 then some (.xset (fld 20 4 w) (fld 13 7 w) (fld 9 4 w) (fld 8 1 w) (fld 5 3 w) (fld 0 4 w)) else
  if lo = 0xA then some (.xfrom (fld 20 4 w) (fld 13 7 w) (fld 10 3 w) (fld 0 4 w)) else
  if lo = 0xB then some (.xrd (fld 17 7 w) (fld 13 4 w) (fld 12 1 w) (fld 0 4 w)) else
  if lo = 0xC then some (.xwiden (fld 20 4 w) (fld 16 4 w) (fld 0 4 w)) else
  if lo = 0xD then some (.xld (fld 20 4 w) (fld 13 7 w) (fld 5 8 w) (fld 4 1 w) (fld 0 4 w)) else
  if lo = 0xE then some (.xst (fld 20 4 w) (fld 13 7 w) (fld 5 8 w) (fld 4 1 w) (fld 0 4 w)) else
  none

/-- Row 0x3_ of the opcode map: index, experimental. -/
def decodeRow3 (lo : BitVec 4) (w _e : Word) (_sh : Shape) : Option Instr :=
  if lo = 0x0 then some (.xclamp (fld 20 4 w) (fld 13 7 w) (fld 9 4 w) (fld 0 4 w)) else
  none

/-- Row 0x4_ of the opcode map: floating point. -/
def decodeRow4 (lo : BitVec 4) (w e : Word) (_sh : Shape) : Option Instr :=
  if lo = 0x0 then some (.fadd (fld 17 7 w) (fld 10 7 w) (fld 3 7 w) (fld 0 3 w) (fld 22 3 e) (fld 21 1 e) (fld 20 1 e)) else
  if lo = 0x1 then some (.fsub (fld 17 7 w) (fld 10 7 w) (fld 3 7 w) (fld 0 3 w) (fld 22 3 e) (fld 21 1 e) (fld 20 1 e)) else
  if lo = 0x2 then some (.fmul (fld 17 7 w) (fld 10 7 w) (fld 3 7 w) (fld 0 3 w) (fld 22 3 e) (fld 21 1 e) (fld 20 1 e)) else
  if lo = 0x3 then some (.ffma (fld 17 7 w) (fld 10 7 w) (fld 3 7 w) (fld 0 3 w) (fld 25 7 e) (fld 22 3 e) (fld 21 1 e) (fld 20 1 e)) else
  if lo = 0x4 then some (.fmin (fld 17 7 w) (fld 10 7 w) (fld 3 7 w) (fld 0 3 w)) else
  if lo = 0x5 then some (.fmax (fld 17 7 w) (fld 10 7 w) (fld 3 7 w) (fld 0 3 w)) else
  if lo = 0x6 then if fld 4 2 w = 0 then some (.fabs (fld 17 7 w) (fld 10 7 w) (fld 0 4 w)) else if fld 4 2 w = 1 then some (.fneg (fld 17 7 w) (fld 10 7 w) (fld 0 4 w)) else if fld 4 2 w = 2 then some (.fabsH2 (fld 17 7 w) (fld 10 7 w) (fld 0 4 w)) else if fld 4 2 w = 3 then some (.fnegH2 (fld 17 7 w) (fld 10 7 w) (fld 0 4 w)) else none else
  if lo = 0x7 then some (.fset (fld 21 3 w) (fld 14 7 w) (fld 7 7 w) (fld 4 3 w) (fld 0 4 w)) else
  if lo = 0x8 then some (.fclass (fld 17 7 w) (fld 10 7 w) (fld 4 2 w) (fld 0 4 w)) else
  if lo = 0x9 then some (.hadd2 (fld 17 7 w) (fld 10 7 w) (fld 3 7 w) (fld 0 3 w) (fld 22 3 e) (fld 21 1 e) (fld 20 1 e) (fld 12 4 e)) else
  if lo = 0xA then some (.hmul2 (fld 17 7 w) (fld 10 7 w) (fld 3 7 w) (fld 0 3 w) (fld 22 3 e) (fld 21 1 e) (fld 20 1 e) (fld 12 4 e)) else
  if lo = 0xB then some (.hfma2 (fld 17 7 w) (fld 10 7 w) (fld 3 7 w) (fld 0 3 w) (fld 25 7 e) (fld 22 3 e) (fld 21 1 e) (fld 20 1 e) (fld 12 4 e)) else
  if lo = 0xC then some (.fdot2 (fld 17 7 w) (fld 10 7 w) (fld 3 7 w) (fld 0 3 w) (fld 25 7 e) (fld 22 3 e) (fld 21 1 e) (fld 20 1 e) (fld 12 4 e)) else
  none

/-- Row 0x5_ of the opcode map: special functions. -/
def decodeRow5 (lo : BitVec 4) (w _e : Word) (_sh : Shape) : Option Instr :=
  if lo = 0x0 then some (.ex2 (fld 17 7 w) (fld 10 7 w) (fld 7 3 w) (fld 6 1 w) (fld 0 4 w)) else
  if lo = 0x1 then some (.lg2 (fld 17 7 w) (fld 10 7 w) (fld 7 3 w) (fld 6 1 w) (fld 0 4 w)) else
  if lo = 0x2 then some (.rcp (fld 17 7 w) (fld 10 7 w) (fld 7 3 w) (fld 6 1 w) (fld 0 4 w)) else
  if lo = 0x3 then some (.rsq (fld 17 7 w) (fld 10 7 w) (fld 7 3 w) (fld 6 1 w) (fld 0 4 w)) else
  if lo = 0x4 then some (.sqrt (fld 17 7 w) (fld 10 7 w) (fld 7 3 w) (fld 6 1 w) (fld 0 4 w)) else
  if lo = 0x5 then some (.sin (fld 17 7 w) (fld 10 7 w) (fld 7 3 w) (fld 6 1 w) (fld 0 4 w)) else
  if lo = 0x6 then some (.cos (fld 17 7 w) (fld 10 7 w) (fld 7 3 w) (fld 6 1 w) (fld 0 4 w)) else
  if lo = 0x7 then some (.tanh (fld 17 7 w) (fld 10 7 w) (fld 7 3 w) (fld 6 1 w) (fld 0 4 w)) else
  if lo = 0x8 then some (.erf (fld 17 7 w) (fld 10 7 w) (fld 7 3 w) (fld 6 1 w) (fld 0 4 w)) else
  none

/-- Row 0x6_ of the opcode map: conversion. -/
def decodeRow6 (lo : BitVec 4) (w e : Word) (_sh : Shape) : Option Instr :=
  if lo = 0x0 then some (.cvt (fld 17 7 w) (fld 10 7 w) (fld 9 1 w) (fld 0 4 w) (fld 22 3 e) (fld 21 1 e) (fld 20 1 e) (fld 16 4 e) (fld 12 4 e) (fld 5 7 e)) else
  if lo = 0x1 then some (.pack (fld 17 7 w) (fld 10 7 w) (fld 9 1 w) (fld 0 4 w) (fld 22 3 e) (fld 21 1 e) (fld 20 1 e) (fld 16 4 e) (fld 12 4 e) (fld 5 7 e)) else
  if lo = 0x2 then some (.unpack (fld 17 7 w) (fld 10 7 w) (fld 9 1 w) (fld 0 4 w) (fld 22 3 e) (fld 21 1 e) (fld 20 1 e) (fld 16 4 e) (fld 12 4 e) (fld 5 7 e)) else
  if lo = 0x3 then some (.amax (fld 17 7 w) (fld 10 7 w) (fld 8 2 w) (fld 7 1 w) (fld 0 4 w)) else
  if lo = 0x4 then some (.seed (fld 10 7 w) (fld 9 1 w) (fld 0 4 w)) else
  if lo = 0x5 then some (.cvt8 (fld 17 7 w) (fld 10 7 w) (fld 3 7 w) (fld 22 3 e) (fld 21 1 e) (fld 20 1 e) (fld 16 4 e)) else
  none

/-- Row 0x7_ of the opcode map: cross-lane and fragments. -/
def decodeRow7 (lo : BitVec 4) (w _e : Word) (_sh : Shape) : Option Instr :=
  if lo = 0x0 then some (.shfl (fld 17 7 w) (fld 10 7 w) (fld 8 2 w) (fld 7 1 w) (fld 0 7 w)) else
  if lo = 0x1 then if fld 11 2 w = 0 then some (.voteAll (fld 14 3 w) (fld 13 1 w) (fld 8 3 w) (fld 0 4 w)) else if fld 11 2 w = 1 then some (.voteAny (fld 14 3 w) (fld 13 1 w) (fld 8 3 w) (fld 0 4 w)) else if fld 11 2 w = 2 then some (.voteBallot (fld 17 7 w) (fld 14 3 w) (fld 13 1 w) (fld 0 4 w)) else none else
  if lo = 0x2 then if fld 9 1 w = 0 then some (.matchAny (fld 17 7 w) (fld 10 7 w) (fld 6 3 w) (fld 0 4 w)) else if fld 9 1 w = 1 then some (.matchAll (fld 17 7 w) (fld 10 7 w) (fld 6 3 w) (fld 0 4 w)) else none else
  if lo = 0x3 then some (.redg (fld 17 7 w) (fld 10 7 w) (fld 6 4 w) (fld 0 4 w)) else
  if lo = 0x4 then some (.scang (fld 17 7 w) (fld 10 7 w) (fld 6 4 w) (fld 5 1 w) (fld 4 1 w) (fld 0 4 w)) else
  if lo = 0x5 then if fld 7 3 w = 0 then some (.ldfrag (fld 17 7 w) (fld 10 7 w) (fld 4 1 w) (fld 0 4 w)) else if fld 7 3 w = 4 then some (.ldfragTB8 (fld 17 7 w) (fld 10 7 w) (fld 4 1 w) (fld 0 4 w)) else if fld 7 3 w = 5 then some (.ldfragTB16 (fld 17 7 w) (fld 10 7 w) (fld 4 1 w) (fld 0 4 w)) else none else
  if lo = 0x6 then some (.shfli (fld 17 7 w) (fld 10 7 w) (fld 5 5 w)) else
  if lo = 0x7 then some (.permb (fld 17 7 w) (fld 10 7 w) (fld 3 7 w)) else
  none

/-- Row 0x8_ of the opcode map: memory. -/
def decodeRow8 (lo : BitVec 4) (w e : Word) (_sh : Shape) : Option Instr :=
  if lo = 0x0 then some (.ldg (fld 17 7 w) (fld 11 6 w) (fld 8 3 w) (fld 7 1 w) (fld 5 2 w) (fld 4 1 w) (fld 0 4 w)) else
  if lo = 0x1 then some (.stg (fld 17 7 w) (fld 11 6 w) (fld 8 3 w) (fld 7 1 w) (fld 5 2 w) (fld 4 1 w) (fld 0 4 w)) else
  if lo = 0x2 then some (.lda (fld 17 7 w) (fld 13 4 w) (fld 9 4 w) (fld 5 4 w) (fld 4 1 w) (fld 0 4 w)) else
  if lo = 0x3 then some (.sta (fld 17 7 w) (fld 13 4 w) (fld 9 4 w) (fld 5 4 w) (fld 4 1 w) (fld 0 4 w)) else
  if lo = 0x4 then some (.lds (fld 17 7 w) (fld 10 7 w) (fld 7 3 w) (fld 4 1 w) (fld 0 4 w)) else
  if lo = 0x5 then some (.sts (fld 17 7 w) (fld 10 7 w) (fld 7 3 w) (fld 4 1 w) (fld 0 4 w)) else
  if lo = 0x6 then some (.prf (fld 11 6 w) (fld 7 1 w) (fld 5 2 w) (fld 4 1 w) (fld 0 4 w)) else
  if lo = 0x7 then if fld 23 1 w = 0 then some (.arm (fld 20 3 w) (fld 16 4 w) (fld 4 1 w) (fld 0 4 w)) else if fld 23 1 w = 1 then some (.disarm (fld 16 4 w) (fld 4 1 w) (fld 0 4 w)) else none else
  if lo = 0x8 then some (.ald (fld 20 4 w) (fld 16 4 w) (fld 4 1 w) (fld 0 4 w)) else
  if lo = 0x9 then some (.atom (fld 17 7 w) (fld 11 6 w) (fld 7 4 w) (fld 5 2 w) (fld 4 1 w) (fld 0 4 w) (fld 25 7 e) (fld 16 4 e) (fld 12 4 e) (fld 5 7 e)) else
  if lo = 0xA then some (.callm (fld 17 7 w) (fld 11 6 w) (fld 8 3 w) (fld 6 2 w) (fld 4 1 w) (fld 0 4 w) (fld 25 7 e) (fld 12 4 e) (fld 5 7 e)) else
  if lo = 0xB then if fld 23 1 w = 0 then some (.bind (fld 20 3 w) (fld 16 4 w) (fld 12 4 w) (fld 7 5 w) (fld 4 1 w) (fld 0 4 w)) else if fld 23 1 w = 1 then some (.unbind (fld 20 3 w) (fld 12 4 w) (fld 4 1 w) (fld 0 4 w)) else none else
  if lo = 0xC then if fld 7 1 w = 0 then some (.acq (fld 17 7 w) (fld 11 6 w) (fld 8 3 w) (fld 4 1 w) (fld 0 4 w)) else if fld 7 1 w = 1 then some (.acqAll (fld 8 3 w) (fld 4 1 w) (fld 0 4 w)) else none else
  if lo = 0xD then if fld 7 1 w = 0 then some (.rel (fld 17 7 w) (fld 11 6 w) (fld 8 3 w) (fld 4 1 w) (fld 0 4 w)) else if fld 7 1 w = 1 then some (.relAll (fld 8 3 w) (fld 4 1 w) (fld 0 4 w)) else none else
  if lo = 0xE then some (.fence (fld 8 3 w) (fld 4 1 w) (fld 0 4 w)) else
  if lo = 0xF then some (.qfence (fld 7 1 w) (fld 6 1 w) (fld 5 1 w) (fld 4 1 w) (fld 0 4 w)) else
  none

/-- Row 0xA_ of the opcode map: control. -/
def decodeRowA (lo : BitVec 4) (w _e : Word) (_sh : Shape) : Option Instr :=
  if lo = 0x0 then some (.bra (fld 0 24 w)) else
  if lo = 0x1 then some (.brp (fld 23 1 w) (fld 20 3 w) (fld 0 20 w)) else
  if lo = 0x2 then some (.xbr (fld 20 4 w) (fld 19 1 w) (fld 18 1 w) (fld 10 8 w) (fld 0 10 w)) else
  if lo = 0x3 then some (.jmpt (fld 20 4 w) (fld 16 4 w) (fld 8 8 w)) else
  if lo = 0x4 then if fld 16 1 w = 0 then some (.call (fld 17 7 w) (fld 0 16 w)) else if fld 16 1 w = 1 then some (.callIndirect (fld 17 7 w) (fld 9 7 w)) else none else
  if lo = 0x5 then some (.ret (fld 17 7 w)) else
  if lo = 0x6 then some (.exit (fld 0 4 w)) else
  if lo = 0x7 then some .yield else
  if lo = 0x8 then some .nop else
  if lo = 0x9 then some (.brx (fld 17 7 w) (fld 0 16 w)) else
  none

/-- Row 0xB_ of the opcode map: synchronisation. -/
def decodeRowB (lo : BitVec 4) (w _e : Word) (_sh : Shape) : Option Instr :=
  if lo = 0x0 then some (.barInit (fld 20 4 w) (fld 15 5 w) (fld 10 5 w) (fld 0 4 w)) else
  if lo = 0x1 then if fld 18 2 w = 0 then some (.barArr (fld 20 4 w) (fld 0 4 w)) else if fld 18 2 w = 1 then some (.barWait (fld 20 4 w) (fld 17 1 w) (fld 12 5 w) (fld 0 4 w)) else if fld 18 2 w = 2 then some (.barSync (fld 20 4 w) (fld 0 4 w)) else none else
  if lo = 0x2 then if fld 16 2 w = 0 then some (.barsInit (fld 21 3 w) (fld 18 3 w) (fld 10 5 w) (fld 0 4 w)) else if fld 16 2 w = 1 then some (.barsArr (fld 21 3 w) (fld 18 3 w) (fld 0 4 w)) else if fld 16 2 w = 2 then some (.barsWait (fld 21 3 w) (fld 18 3 w) (fld 15 1 w) (fld 10 5 w) (fld 0 4 w)) else if fld 16 2 w = 3 then some (.barsSync (fld 21 3 w) (fld 18 3 w) (fld 0 4 w)) else none else
  if lo = 0x3 then some (.fork (fld 23 1 w) (fld 0 20 w)) else
  if lo = 0x4 then some (.rndv (fld 23 1 w)) else
  if lo = 0x5 then if fld 22 2 w = 0 then some (.batonTake) else if fld 22 2 w = 2 then some (.batonPass (fld 21 1 w) (fld 16 5 w)) else if fld 22 2 w = 3 then some (.batonPassNone) else none else
  if lo = 0x6 then some (.quiet (fld 17 7 w) (fld 12 5 w) (fld 4 1 w) (fld 0 4 w)) else
  if lo = 0x7 then some (.signal (fld 20 4 w) (fld 17 3 w) (fld 16 1 w) (fld 0 4 w)) else
  none

/-- Row 0xC_ of the opcode map: matrix. -/
def decodeRowC (lo : BitVec 4) (w _e : Word) (sh : Shape) : Option Instr :=
  if lo = 0x0 then some (.mldb (fld 21 3 w) (fld 17 4 w) (fld 12 5 w) (fld 9 3 w) (fld 6 3 w) (fld 5 1 w) (fld 4 1 w) sh) else
  if lo = 0x1 then some (.mzero (fld 21 3 w) (fld 20 1 w)) else
  if lo = 0x2 then if sh.sh0.value.getLsbD 7 then some (.mmaStr (fld 21 3 w) (fld 18 3 w) sh) else some (.mma (fld 21 3 w) (fld 18 3 w) (fld 11 7 w) (fld 4 7 w) (fld 0 4 w) sh) else
  if lo = 0x3 then some (.mrd (fld 21 3 w) (fld 17 4 w) (fld 14 3 w) (fld 13 1 w) (fld 12 1 w) (fld 5 7 w) (fld 4 1 w) (fld 0 4 w) sh) else
  if lo = 0x4 then some (.msig (fld 20 4 w)) else
  if lo = 0x5 then some (.mseqEnd (fld 23 1 w) (fld 19 4 w)) else
  if lo = 0x6 then some (.mamax (fld 21 3 w) (fld 11 7 w) (fld 4 1 w) (fld 0 4 w) sh) else
  none

/-- Row 0xD_ of the opcode map: copy. -/
def decodeRowD (lo : BitVec 4) (w _e : Word) (sh : Shape) : Option Instr :=
  if lo = 0x0 then some (.dcopy (fld 21 3 w) (fld 18 3 w) (fld 16 2 w) (fld 14 2 w) (fld 9 5 w) (fld 8 1 w) (fld 5 3 w) (fld 4 1 w) (fld 0 4 w) sh) else
  if lo = 0x1 then some (.dcopyCk (fld 21 3 w) (fld 18 3 w) (fld 16 2 w) (fld 14 2 w) (fld 9 5 w) (fld 8 1 w) (fld 5 3 w) (fld 4 1 w) (fld 0 4 w) sh) else
  if lo = 0x2 then some (.dfill (fld 21 3 w) (fld 18 3 w) (fld 16 2 w) (fld 14 2 w) (fld 9 5 w) (fld 8 1 w) (fld 5 3 w) (fld 4 1 w) (fld 0 4 w) sh) else
  if lo = 0x3 then some (.dgather (fld 21 3 w) (fld 17 4 w) (fld 15 2 w) (fld 9 5 w) (fld 8 1 w) (fld 5 3 w) (fld 4 1 w) (fld 0 4 w) sh) else
  if lo = 0x8 then some (.dscat (fld 21 3 w) (fld 17 4 w) (fld 15 2 w) (fld 9 5 w) (fld 8 1 w) (fld 5 3 w) (fld 4 1 w) (fld 0 4 w) sh) else
  if lo = 0x4 then if fld 5 1 w = 0 then some (.dlease (fld 19 5 w) (fld 14 5 w) (fld 9 5 w) (fld 6 3 w) (fld 4 1 w) (fld 0 4 w)) else if fld 5 1 w = 1 then some (.dleaseRenew (fld 19 5 w) (fld 9 5 w) (fld 6 3 w) (fld 4 1 w) (fld 0 4 w)) else none else
  if lo = 0x5 then some (.dunlease (fld 19 5 w) (fld 4 1 w) (fld 0 4 w)) else
  if lo = 0x6 then some (.dsig (fld 20 4 w) (fld 19 1 w) (fld 18 1 w) (fld 15 3 w) (fld 4 1 w) (fld 0 4 w)) else
  if lo = 0x7 then some (.dreloc (fld 21 3 w) (fld 9 5 w) (fld 4 1 w) (fld 0 4 w)) else
  none

/-- Row 0xE_ of the opcode map: task. -/
def decodeRowE (lo : BitVec 4) (w _e : Word) (_sh : Shape) : Option Instr :=
  if lo = 0x0 then some (.spawn (fld 21 3 w) (fld 15 6 w) (fld 4 1 w) (fld 0 4 w)) else
  if lo = 0x1 then some (.spawnAt (fld 21 3 w) (fld 15 6 w) (fld 9 6 w) (fld 4 1 w) (fld 0 4 w)) else
  if lo = 0x2 then some .done else
  if lo = 0x3 then some .alloc else
  if lo = 0x4 then some .free else
  none

/-- Row 0xF_ of the opcode map: system. -/
def decodeRowF (lo : BitVec 4) (w _e : Word) (_sh : Shape) : Option Instr :=
  if lo = 0x0 then some (.csrr (fld 17 7 w) (fld 5 12 w) (fld 0 4 w)) else
  if lo = 0x1 then some (.csrw (fld 17 7 w) (fld 5 12 w) (fld 0 4 w)) else
  if lo = 0x2 then some (.trap (fld 16 8 w) (fld 4 12 w) (fld 0 4 w)) else
  if lo = 0x3 then some .eret else
  if lo = 0x4 then if fld 23 1 w = 0 then some (.tmask) else if fld 23 1 w = 1 then some (.tunmask) else none else
  if lo = 0x5 then some .l1inv else
  if lo = 0x6 then if fld 22 2 w = 0 then some (.tlbiRange (fld 19 3 w) (fld 14 5 w) (fld 9 5 w) (fld 0 4 w)) else if fld 22 2 w = 1 then some (.tlbiCtx (fld 14 5 w) (fld 0 4 w)) else if fld 22 2 w = 2 then some (.tlbiPkg (fld 0 4 w)) else none else
  if lo = 0x7 then if fld 16 1 w = 0 then some (.clock (fld 17 7 w) (fld 0 4 w)) else if fld 16 1 w = 1 then some (.clockNs (fld 17 7 w) (fld 0 4 w)) else none else
  if lo = 0x8 then some (.perf (fld 17 7 w) (fld 14 3 w) (fld 0 4 w)) else
  if lo = 0x9 then some .halt else
  none

/-- The instruction whose opcode and operation fields the words show, every field read at its place in the bit
picture. `e` is the second word (the extension word of a two-word form), `sh` the shape record of a five-word form. -/
def candidate (w e : Word) (sh : Shape) : Option Instr :=
  if fld 28 4 w = 0x0 then decodeRow0 (fld 24 4 w) w e sh else
  if fld 28 4 w = 0x1 then decodeRow1 (fld 24 4 w) w e sh else
  if fld 28 4 w = 0x2 then decodeRow2 (fld 24 4 w) w e sh else
  if fld 28 4 w = 0x3 then decodeRow3 (fld 24 4 w) w e sh else
  if fld 28 4 w = 0x4 then decodeRow4 (fld 24 4 w) w e sh else
  if fld 28 4 w = 0x5 then decodeRow5 (fld 24 4 w) w e sh else
  if fld 28 4 w = 0x6 then decodeRow6 (fld 24 4 w) w e sh else
  if fld 28 4 w = 0x7 then decodeRow7 (fld 24 4 w) w e sh else
  if fld 28 4 w = 0x8 then decodeRow8 (fld 24 4 w) w e sh else
  if fld 28 4 w = 0xA then decodeRowA (fld 24 4 w) w e sh else
  if fld 28 4 w = 0xB then decodeRowB (fld 24 4 w) w e sh else
  if fld 28 4 w = 0xC then decodeRowC (fld 24 4 w) w e sh else
  if fld 28 4 w = 0xD then decodeRowD (fld 24 4 w) w e sh else
  if fld 28 4 w = 0xE then decodeRowE (fld 24 4 w) w e sh else
  if fld 28 4 w = 0xF then decodeRowF (fld 24 4 w) w e sh else
  none

/-- The words of an instruction, first word first (R252 to R257 and the pictures). An event has no words. -/
def encode : Instr → List Word
  | .iadd d a b g => [word [⟨_, 0x00#8⟩, ⟨_, d⟩, ⟨_, a⟩, ⟨_, b⟩, ⟨_, g⟩]]
  | .isub d a b g => [word [⟨_, 0x01#8⟩, ⟨_, d⟩, ⟨_, a⟩, ⟨_, b⟩, ⟨_, g⟩]]
  | .imul d a b g => [word [⟨_, 0x02#8⟩, ⟨_, d⟩, ⟨_, a⟩, ⟨_, b⟩, ⟨_, g⟩]]
  | .imulhi d a b g => [word [⟨_, 0x03#8⟩, ⟨_, d⟩, ⟨_, a⟩, ⟨_, b⟩, ⟨_, g⟩]]
  | .imad d a b g c rnd => [word [⟨_, 0x04#8⟩, ⟨_, d⟩, ⟨_, a⟩, ⟨_, b⟩, ⟨_, g⟩], word [⟨_, c⟩, ⟨_, rnd⟩, ⟨_, 0#22⟩]]
  | .imin d a b g => [word [⟨_, 0x05#8⟩, ⟨_, d⟩, ⟨_, a⟩, ⟨_, b⟩, ⟨_, g⟩]]
  | .imax d a b g => [word [⟨_, 0x06#8⟩, ⟨_, d⟩, ⟨_, a⟩, ⟨_, b⟩, ⟨_, g⟩]]
  | .iabs d a g => [word [⟨_, 0x07#8⟩, ⟨_, d⟩, ⟨_, a⟩, ⟨_, 0#4⟩, ⟨_, 0#2⟩, ⟨_, g⟩]]
  | .ineg d a g => [word [⟨_, 0x07#8⟩, ⟨_, d⟩, ⟨_, a⟩, ⟨_, 0#4⟩, ⟨_, 1#2⟩, ⟨_, g⟩]]
  | .and d a b g => [word [⟨_, 0x08#8⟩, ⟨_, d⟩, ⟨_, a⟩, ⟨_, b⟩, ⟨_, g⟩]]
  | .or d a b g => [word [⟨_, 0x09#8⟩, ⟨_, d⟩, ⟨_, a⟩, ⟨_, b⟩, ⟨_, g⟩]]
  | .xor d a b g => [word [⟨_, 0x0A#8⟩, ⟨_, d⟩, ⟨_, a⟩, ⟨_, b⟩, ⟨_, g⟩]]
  | .not d a g => [word [⟨_, 0x0B#8⟩, ⟨_, d⟩, ⟨_, a⟩, ⟨_, 0#4⟩, ⟨_, 0#2⟩, ⟨_, g⟩]]
  | .shl d a b g => [word [⟨_, 0x0C#8⟩, ⟨_, d⟩, ⟨_, a⟩, ⟨_, b⟩, ⟨_, g⟩]]
  | .shr d a b g => [word [⟨_, 0x0D#8⟩, ⟨_, d⟩, ⟨_, a⟩, ⟨_, b⟩, ⟨_, g⟩]]
  | .sar d a b g => [word [⟨_, 0x0E#8⟩, ⟨_, d⟩, ⟨_, a⟩, ⟨_, b⟩, ⟨_, g⟩]]
  | .rot d a b g => [word [⟨_, 0x0F#8⟩, ⟨_, d⟩, ⟨_, a⟩, ⟨_, b⟩, ⟨_, g⟩]]
  | .bfe d a b g => [word [⟨_, 0x10#8⟩, ⟨_, d⟩, ⟨_, a⟩, ⟨_, b⟩, ⟨_, g⟩]]
  | .bfi d a b c rnd => [word [⟨_, 0x11#8⟩, ⟨_, d⟩, ⟨_, a⟩, ⟨_, b⟩, ⟨_, 0#3⟩], word [⟨_, c⟩, ⟨_, rnd⟩, ⟨_, 0#22⟩]]
  | .popc d a g => [word [⟨_, 0x12#8⟩, ⟨_, d⟩, ⟨_, a⟩, ⟨_, 0#4⟩, ⟨_, 0#2⟩, ⟨_, g⟩]]
  | .clz d a g => [word [⟨_, 0x12#8⟩, ⟨_, d⟩, ⟨_, a⟩, ⟨_, 0#4⟩, ⟨_, 1#2⟩, ⟨_, g⟩]]
  | .brev d a g => [word [⟨_, 0x12#8⟩, ⟨_, d⟩, ⟨_, a⟩, ⟨_, 0#4⟩, ⟨_, 2#2⟩, ⟨_, g⟩]]
  | .iset pd a b cond g => [word [⟨_, 0x13#8⟩, ⟨_, pd⟩, ⟨_, a⟩, ⟨_, b⟩, ⟨_, cond⟩, ⟨_, g⟩]]
  | .sel d a b p => [word [⟨_, 0x14#8⟩, ⟨_, d⟩, ⟨_, a⟩, ⟨_, b⟩, ⟨_, p⟩]]
  | .mov d a mode g => [word [⟨_, 0x15#8⟩, ⟨_, d⟩, ⟨_, a⟩, ⟨_, 0#4⟩, ⟨_, mode⟩, ⟨_, g⟩]]
  | .movi d imm => [word [⟨_, 0x16#8⟩, ⟨_, d⟩, ⟨_, 0#1⟩, ⟨_, imm⟩]]
  | .moviHi d imm => [word [⟨_, 0x16#8⟩, ⟨_, d⟩, ⟨_, 1#1⟩, ⟨_, imm⟩]]
  | .movs d num u g => [word [⟨_, 0x17#8⟩, ⟨_, d⟩, ⟨_, num⟩, ⟨_, u⟩, ⟨_, 0#4⟩, ⟨_, g⟩]]
  | .blend d a b g c rnd opx opy na nb nc => [word [⟨_, 0x18#8⟩, ⟨_, d⟩, ⟨_, a⟩, ⟨_, b⟩, ⟨_, g⟩], word [⟨_, c⟩, ⟨_, rnd⟩, ⟨_, 0#10⟩, ⟨_, opx⟩, ⟨_, opy⟩, ⟨_, na⟩, ⟨_, nb⟩, ⟨_, nc⟩, ⟨_, 0#5⟩]]
  | .idivStep d a b g => [word [⟨_, 0x19#8⟩, ⟨_, d⟩, ⟨_, a⟩, ⟨_, b⟩, ⟨_, g⟩]]
  | .imulw d a b g rnd => [word [⟨_, 0x1A#8⟩, ⟨_, d⟩, ⟨_, a⟩, ⟨_, b⟩, ⟨_, g⟩], word [⟨_, 0#7⟩, ⟨_, rnd⟩, ⟨_, 0#22⟩]]
  | .xadd d a i b g => [word [⟨_, 0x20#8⟩, ⟨_, d⟩, ⟨_, a⟩, ⟨_, i⟩, ⟨_, b⟩, ⟨_, g⟩]]
  | .xsub d a i b g => [word [⟨_, 0x21#8⟩, ⟨_, d⟩, ⟨_, a⟩, ⟨_, i⟩, ⟨_, b⟩, ⟨_, g⟩]]
  | .xmul d a i b g => [word [⟨_, 0x22#8⟩, ⟨_, d⟩, ⟨_, a⟩, ⟨_, i⟩, ⟨_, b⟩, ⟨_, g⟩]]
  | .xshl d a i b g => [word [⟨_, 0x23#8⟩, ⟨_, d⟩, ⟨_, a⟩, ⟨_, i⟩, ⟨_, b⟩, ⟨_, g⟩]]
  | .xshr d a i b g => [word [⟨_, 0x24#8⟩, ⟨_, d⟩, ⟨_, a⟩, ⟨_, i⟩, ⟨_, b⟩, ⟨_, g⟩]]
  | .xmin d a i b g => [word [⟨_, 0x25#8⟩, ⟨_, d⟩, ⟨_, a⟩, ⟨_, i⟩, ⟨_, b⟩, ⟨_, g⟩]]
  | .xmax d a i b g => [word [⟨_, 0x26#8⟩, ⟨_, d⟩, ⟨_, a⟩, ⟨_, i⟩, ⟨_, b⟩, ⟨_, g⟩]]
  | .xand d a i b g => [word [⟨_, 0x27#8⟩, ⟨_, d⟩, ⟨_, a⟩, ⟨_, i⟩, ⟨_, b⟩, ⟨_, g⟩]]
  | .xmov d a g => [word [⟨_, 0x28#8⟩, ⟨_, d⟩, ⟨_, a⟩, ⟨_, 0#12⟩, ⟨_, g⟩]]
  | .xset d a k m p g => [word [⟨_, 0x29#8⟩, ⟨_, d⟩, ⟨_, a⟩, ⟨_, k⟩, ⟨_, m⟩, ⟨_, p⟩, ⟨_, 0#1⟩, ⟨_, g⟩]]
  | .xfrom d a t g => [word [⟨_, 0x2A#8⟩, ⟨_, d⟩, ⟨_, a⟩, ⟨_, t⟩, ⟨_, 0#6⟩, ⟨_, g⟩]]
  | .xrd d a h g => [word [⟨_, 0x2B#8⟩, ⟨_, d⟩, ⟨_, a⟩, ⟨_, h⟩, ⟨_, 0#8⟩, ⟨_, g⟩]]
  | .xwiden d k g => [word [⟨_, 0x2C#8⟩, ⟨_, d⟩, ⟨_, k⟩, ⟨_, 0#12⟩, ⟨_, g⟩]]
  | .xld x a imm f g => [word [⟨_, 0x2D#8⟩, ⟨_, x⟩, ⟨_, a⟩, ⟨_, imm⟩, ⟨_, f⟩, ⟨_, g⟩]]
  | .xst x a imm f g => [word [⟨_, 0x2E#8⟩, ⟨_, x⟩, ⟨_, a⟩, ⟨_, imm⟩, ⟨_, f⟩, ⟨_, g⟩]]
  | .xclamp d a k g => [word [⟨_, 0x30#8⟩, ⟨_, d⟩, ⟨_, a⟩, ⟨_, k⟩, ⟨_, 0#1⟩, ⟨_, 0#3⟩, ⟨_, 0#1⟩, ⟨_, g⟩]]
  | .fadd d a b g rnd sat ftz => [word [⟨_, 0x40#8⟩, ⟨_, d⟩, ⟨_, a⟩, ⟨_, b⟩, ⟨_, g⟩], word [⟨_, 0#7⟩, ⟨_, rnd⟩, ⟨_, sat⟩, ⟨_, ftz⟩, ⟨_, 0#20⟩]]
  | .fsub d a b g rnd sat ftz => [word [⟨_, 0x41#8⟩, ⟨_, d⟩, ⟨_, a⟩, ⟨_, b⟩, ⟨_, g⟩], word [⟨_, 0#7⟩, ⟨_, rnd⟩, ⟨_, sat⟩, ⟨_, ftz⟩, ⟨_, 0#20⟩]]
  | .fmul d a b g rnd sat ftz => [word [⟨_, 0x42#8⟩, ⟨_, d⟩, ⟨_, a⟩, ⟨_, b⟩, ⟨_, g⟩], word [⟨_, 0#7⟩, ⟨_, rnd⟩, ⟨_, sat⟩, ⟨_, ftz⟩, ⟨_, 0#20⟩]]
  | .ffma d a b g c rnd sat ftz => [word [⟨_, 0x43#8⟩, ⟨_, d⟩, ⟨_, a⟩, ⟨_, b⟩, ⟨_, g⟩], word [⟨_, c⟩, ⟨_, rnd⟩, ⟨_, sat⟩, ⟨_, ftz⟩, ⟨_, 0#20⟩]]
  | .fmin d a b g => [word [⟨_, 0x44#8⟩, ⟨_, d⟩, ⟨_, a⟩, ⟨_, b⟩, ⟨_, g⟩]]
  | .fmax d a b g => [word [⟨_, 0x45#8⟩, ⟨_, d⟩, ⟨_, a⟩, ⟨_, b⟩, ⟨_, g⟩]]
  | .fabs d a g => [word [⟨_, 0x46#8⟩, ⟨_, d⟩, ⟨_, a⟩, ⟨_, 0#4⟩, ⟨_, 0#2⟩, ⟨_, g⟩]]
  | .fneg d a g => [word [⟨_, 0x46#8⟩, ⟨_, d⟩, ⟨_, a⟩, ⟨_, 0#4⟩, ⟨_, 1#2⟩, ⟨_, g⟩]]
  | .fabsH2 d a g => [word [⟨_, 0x46#8⟩, ⟨_, d⟩, ⟨_, a⟩, ⟨_, 0#4⟩, ⟨_, 2#2⟩, ⟨_, g⟩]]
  | .fnegH2 d a g => [word [⟨_, 0x46#8⟩, ⟨_, d⟩, ⟨_, a⟩, ⟨_, 0#4⟩, ⟨_, 3#2⟩, ⟨_, g⟩]]
  | .fset pd a b cond g => [word [⟨_, 0x47#8⟩, ⟨_, pd⟩, ⟨_, a⟩, ⟨_, b⟩, ⟨_, cond⟩, ⟨_, g⟩]]
  | .fclass d a op g => [word [⟨_, 0x48#8⟩, ⟨_, d⟩, ⟨_, a⟩, ⟨_, 0#4⟩, ⟨_, op⟩, ⟨_, g⟩]]
  | .hadd2 d a b g rnd sat ftz sfmt => [word [⟨_, 0x49#8⟩, ⟨_, d⟩, ⟨_, a⟩, ⟨_, b⟩, ⟨_, g⟩], word [⟨_, 0#7⟩, ⟨_, rnd⟩, ⟨_, sat⟩, ⟨_, ftz⟩, ⟨_, 0#4⟩, ⟨_, sfmt⟩, ⟨_, 0#12⟩]]
  | .hmul2 d a b g rnd sat ftz sfmt => [word [⟨_, 0x4A#8⟩, ⟨_, d⟩, ⟨_, a⟩, ⟨_, b⟩, ⟨_, g⟩], word [⟨_, 0#7⟩, ⟨_, rnd⟩, ⟨_, sat⟩, ⟨_, ftz⟩, ⟨_, 0#4⟩, ⟨_, sfmt⟩, ⟨_, 0#12⟩]]
  | .hfma2 d a b g c rnd sat ftz sfmt => [word [⟨_, 0x4B#8⟩, ⟨_, d⟩, ⟨_, a⟩, ⟨_, b⟩, ⟨_, g⟩], word [⟨_, c⟩, ⟨_, rnd⟩, ⟨_, sat⟩, ⟨_, ftz⟩, ⟨_, 0#4⟩, ⟨_, sfmt⟩, ⟨_, 0#12⟩]]
  | .fdot2 d a b g c rnd sat ftz sfmt => [word [⟨_, 0x4C#8⟩, ⟨_, d⟩, ⟨_, a⟩, ⟨_, b⟩, ⟨_, g⟩], word [⟨_, c⟩, ⟨_, rnd⟩, ⟨_, sat⟩, ⟨_, ftz⟩, ⟨_, 0#4⟩, ⟨_, sfmt⟩, ⟨_, 0#12⟩]]
  | .ex2 d a rnd ftz g => [word [⟨_, 0x50#8⟩, ⟨_, d⟩, ⟨_, a⟩, ⟨_, rnd⟩, ⟨_, ftz⟩, ⟨_, 0#2⟩, ⟨_, g⟩]]
  | .lg2 d a rnd ftz g => [word [⟨_, 0x51#8⟩, ⟨_, d⟩, ⟨_, a⟩, ⟨_, rnd⟩, ⟨_, ftz⟩, ⟨_, 0#2⟩, ⟨_, g⟩]]
  | .rcp d a rnd ftz g => [word [⟨_, 0x52#8⟩, ⟨_, d⟩, ⟨_, a⟩, ⟨_, rnd⟩, ⟨_, ftz⟩, ⟨_, 0#2⟩, ⟨_, g⟩]]
  | .rsq d a rnd ftz g => [word [⟨_, 0x53#8⟩, ⟨_, d⟩, ⟨_, a⟩, ⟨_, rnd⟩, ⟨_, ftz⟩, ⟨_, 0#2⟩, ⟨_, g⟩]]
  | .sqrt d a rnd ftz g => [word [⟨_, 0x54#8⟩, ⟨_, d⟩, ⟨_, a⟩, ⟨_, rnd⟩, ⟨_, ftz⟩, ⟨_, 0#2⟩, ⟨_, g⟩]]
  | .sin d a rnd ftz g => [word [⟨_, 0x55#8⟩, ⟨_, d⟩, ⟨_, a⟩, ⟨_, rnd⟩, ⟨_, ftz⟩, ⟨_, 0#2⟩, ⟨_, g⟩]]
  | .cos d a rnd ftz g => [word [⟨_, 0x56#8⟩, ⟨_, d⟩, ⟨_, a⟩, ⟨_, rnd⟩, ⟨_, ftz⟩, ⟨_, 0#2⟩, ⟨_, g⟩]]
  | .tanh d a rnd ftz g => [word [⟨_, 0x57#8⟩, ⟨_, d⟩, ⟨_, a⟩, ⟨_, rnd⟩, ⟨_, ftz⟩, ⟨_, 0#2⟩, ⟨_, g⟩]]
  | .erf d a rnd ftz g => [word [⟨_, 0x58#8⟩, ⟨_, d⟩, ⟨_, a⟩, ⟨_, rnd⟩, ⟨_, ftz⟩, ⟨_, 0#2⟩, ⟨_, g⟩]]
  | .cvt d a sc g rnd sat ftz dfmt sfmt scale => [word [⟨_, 0x60#8⟩, ⟨_, d⟩, ⟨_, a⟩, ⟨_, sc⟩, ⟨_, 0#5⟩, ⟨_, g⟩], word [⟨_, 0#7⟩, ⟨_, rnd⟩, ⟨_, sat⟩, ⟨_, ftz⟩, ⟨_, dfmt⟩, ⟨_, sfmt⟩, ⟨_, scale⟩, ⟨_, 0#5⟩]]
  | .pack d a sc g rnd sat ftz dfmt sfmt scale => [word [⟨_, 0x61#8⟩, ⟨_, d⟩, ⟨_, a⟩, ⟨_, sc⟩, ⟨_, 0#5⟩, ⟨_, g⟩], word [⟨_, 0#7⟩, ⟨_, rnd⟩, ⟨_, sat⟩, ⟨_, ftz⟩, ⟨_, dfmt⟩, ⟨_, sfmt⟩, ⟨_, scale⟩, ⟨_, 0#5⟩]]
  | .unpack d a sc g rnd sat ftz dfmt sfmt scale => [word [⟨_, 0x62#8⟩, ⟨_, d⟩, ⟨_, a⟩, ⟨_, sc⟩, ⟨_, 0#5⟩, ⟨_, g⟩], word [⟨_, 0#7⟩, ⟨_, rnd⟩, ⟨_, sat⟩, ⟨_, ftz⟩, ⟨_, dfmt⟩, ⟨_, sfmt⟩, ⟨_, scale⟩, ⟨_, 0#5⟩]]
  | .amax d a fmt w g => [word [⟨_, 0x63#8⟩, ⟨_, d⟩, ⟨_, a⟩, ⟨_, fmt⟩, ⟨_, w⟩, ⟨_, 0#3⟩, ⟨_, g⟩]]
  | .seed a u g => [word [⟨_, 0x64#8⟩, ⟨_, 0#7⟩, ⟨_, a⟩, ⟨_, u⟩, ⟨_, 0#5⟩, ⟨_, g⟩]]
  | .cvt8 d a b rnd sat ftz dfmt => [word [⟨_, 0x65#8⟩, ⟨_, d⟩, ⟨_, a⟩, ⟨_, b⟩, ⟨_, 0#3⟩], word [⟨_, 0#7⟩, ⟨_, rnd⟩, ⟨_, sat⟩, ⟨_, ftz⟩, ⟨_, dfmt⟩, ⟨_, 0#16⟩]]
  | .shfl d a mode i b => [word [⟨_, 0x70#8⟩, ⟨_, d⟩, ⟨_, a⟩, ⟨_, mode⟩, ⟨_, i⟩, ⟨_, b⟩]]
  | .voteAll ps n pd g => [word [⟨_, 0x71#8⟩, ⟨_, 0#7⟩, ⟨_, ps⟩, ⟨_, n⟩, ⟨_, 0#2⟩, ⟨_, pd⟩, ⟨_, 0#4⟩, ⟨_, g⟩]]
  | .voteAny ps n pd g => [word [⟨_, 0x71#8⟩, ⟨_, 0#7⟩, ⟨_, ps⟩, ⟨_, n⟩, ⟨_, 1#2⟩, ⟨_, pd⟩, ⟨_, 0#4⟩, ⟨_, g⟩]]
  | .voteBallot d ps n g => [word [⟨_, 0x71#8⟩, ⟨_, d⟩, ⟨_, ps⟩, ⟨_, n⟩, ⟨_, 2#2⟩, ⟨_, 0#3⟩, ⟨_, 0#4⟩, ⟨_, g⟩]]
  | .matchAny d a pd g => [word [⟨_, 0x72#8⟩, ⟨_, d⟩, ⟨_, a⟩, ⟨_, 0#1⟩, ⟨_, pd⟩, ⟨_, 0#2⟩, ⟨_, g⟩]]
  | .matchAll d a pd g => [word [⟨_, 0x72#8⟩, ⟨_, d⟩, ⟨_, a⟩, ⟨_, 1#1⟩, ⟨_, pd⟩, ⟨_, 0#2⟩, ⟨_, g⟩]]
  | .redg d a op g => [word [⟨_, 0x73#8⟩, ⟨_, d⟩, ⟨_, a⟩, ⟨_, op⟩, ⟨_, 0#2⟩, ⟨_, g⟩]]
  | .scang d a op x k g => [word [⟨_, 0x74#8⟩, ⟨_, d⟩, ⟨_, a⟩, ⟨_, op⟩, ⟨_, x⟩, ⟨_, k⟩, ⟨_, g⟩]]
  | .ldfrag d a f g => [word [⟨_, 0x75#8⟩, ⟨_, d⟩, ⟨_, a⟩, ⟨_, 0#1⟩, ⟨_, 0#2⟩, ⟨_, 0#2⟩, ⟨_, f⟩, ⟨_, g⟩]]
  | .ldfragTB8 d a f g => [word [⟨_, 0x75#8⟩, ⟨_, d⟩, ⟨_, a⟩, ⟨_, 1#1⟩, ⟨_, 0#2⟩, ⟨_, 0#2⟩, ⟨_, f⟩, ⟨_, g⟩]]
  | .ldfragTB16 d a f g => [word [⟨_, 0x75#8⟩, ⟨_, d⟩, ⟨_, a⟩, ⟨_, 1#1⟩, ⟨_, 1#2⟩, ⟨_, 0#2⟩, ⟨_, f⟩, ⟨_, g⟩]]
  | .shfli d a lane => [word [⟨_, 0x76#8⟩, ⟨_, d⟩, ⟨_, a⟩, ⟨_, lane⟩, ⟨_, 0#5⟩]]
  | .permb d a b => [word [⟨_, 0x77#8⟩, ⟨_, d⟩, ⟨_, a⟩, ⟨_, b⟩, ⟨_, 0#3⟩]]
  | .ldg d a ty prv ev f g => [word [⟨_, 0x80#8⟩, ⟨_, d⟩, ⟨_, a⟩, ⟨_, ty⟩, ⟨_, prv⟩, ⟨_, ev⟩, ⟨_, f⟩, ⟨_, g⟩]]
  | .stg d a ty prv ev f g => [word [⟨_, 0x81#8⟩, ⟨_, d⟩, ⟨_, a⟩, ⟨_, ty⟩, ⟨_, prv⟩, ⟨_, ev⟩, ⟨_, f⟩, ⟨_, g⟩]]
  | .lda d arr x c f g => [word [⟨_, 0x82#8⟩, ⟨_, d⟩, ⟨_, arr⟩, ⟨_, x⟩, ⟨_, c⟩, ⟨_, f⟩, ⟨_, g⟩]]
  | .sta d arr x c f g => [word [⟨_, 0x83#8⟩, ⟨_, d⟩, ⟨_, arr⟩, ⟨_, x⟩, ⟨_, c⟩, ⟨_, f⟩, ⟨_, g⟩]]
  | .lds d a ty f g => [word [⟨_, 0x84#8⟩, ⟨_, d⟩, ⟨_, a⟩, ⟨_, ty⟩, ⟨_, 0#2⟩, ⟨_, f⟩, ⟨_, g⟩]]
  | .sts d a ty f g => [word [⟨_, 0x85#8⟩, ⟨_, d⟩, ⟨_, a⟩, ⟨_, ty⟩, ⟨_, 0#2⟩, ⟨_, f⟩, ⟨_, g⟩]]
  | .prf a nc ev f g => [word [⟨_, 0x86#8⟩, ⟨_, 0#7⟩, ⟨_, a⟩, ⟨_, 0#3⟩, ⟨_, nc⟩, ⟨_, ev⟩, ⟨_, f⟩, ⟨_, g⟩]]
  | .arm pd arr f g => [word [⟨_, 0x87#8⟩, ⟨_, 0#1⟩, ⟨_, pd⟩, ⟨_, arr⟩, ⟨_, 0#11⟩, ⟨_, f⟩, ⟨_, g⟩]]
  | .disarm arr f g => [word [⟨_, 0x87#8⟩, ⟨_, 1#1⟩, ⟨_, 0#3⟩, ⟨_, arr⟩, ⟨_, 0#11⟩, ⟨_, f⟩, ⟨_, g⟩]]
  | .ald arr k f g => [word [⟨_, 0x88#8⟩, ⟨_, arr⟩, ⟨_, k⟩, ⟨_, 0#11⟩, ⟨_, f⟩, ⟨_, g⟩]]
  | .atom d a op ord f g c dfmt sfmt scale => [word [⟨_, 0x89#8⟩, ⟨_, d⟩, ⟨_, a⟩, ⟨_, op⟩, ⟨_, ord⟩, ⟨_, f⟩, ⟨_, g⟩], word [⟨_, c⟩, ⟨_, 0#3⟩, ⟨_, 0#1⟩, ⟨_, 0#1⟩, ⟨_, dfmt⟩, ⟨_, sfmt⟩, ⟨_, scale⟩, ⟨_, 0#5⟩]]
  | .callm d a pd ord f g c sfmt scale => [word [⟨_, 0x8A#8⟩, ⟨_, d⟩, ⟨_, a⟩, ⟨_, pd⟩, ⟨_, ord⟩, ⟨_, 0#1⟩, ⟨_, f⟩, ⟨_, g⟩], word [⟨_, c⟩, ⟨_, 0#3⟩, ⟨_, 0#1⟩, ⟨_, 0#1⟩, ⟨_, 0#4⟩, ⟨_, sfmt⟩, ⟨_, scale⟩, ⟨_, 0#5⟩]]
  | .bind pd o b n f g => [word [⟨_, 0x8B#8⟩, ⟨_, 0#1⟩, ⟨_, pd⟩, ⟨_, o⟩, ⟨_, b⟩, ⟨_, n⟩, ⟨_, 0#2⟩, ⟨_, f⟩, ⟨_, g⟩]]
  | .unbind pd b f g => [word [⟨_, 0x8B#8⟩, ⟨_, 1#1⟩, ⟨_, pd⟩, ⟨_, 0#4⟩, ⟨_, b⟩, ⟨_, 0#5⟩, ⟨_, 0#2⟩, ⟨_, f⟩, ⟨_, g⟩]]
  | .acq d a scope f g => [word [⟨_, 0x8C#8⟩, ⟨_, d⟩, ⟨_, a⟩, ⟨_, scope⟩, ⟨_, 0#1⟩, ⟨_, 0#2⟩, ⟨_, f⟩, ⟨_, g⟩]]
  | .acqAll scope f g => [word [⟨_, 0x8C#8⟩, ⟨_, 0#7⟩, ⟨_, 0#6⟩, ⟨_, scope⟩, ⟨_, 1#1⟩, ⟨_, 0#2⟩, ⟨_, f⟩, ⟨_, g⟩]]
  | .rel d a scope f g => [word [⟨_, 0x8D#8⟩, ⟨_, d⟩, ⟨_, a⟩, ⟨_, scope⟩, ⟨_, 0#1⟩, ⟨_, 0#2⟩, ⟨_, f⟩, ⟨_, g⟩]]
  | .relAll scope f g => [word [⟨_, 0x8D#8⟩, ⟨_, 0#7⟩, ⟨_, 0#6⟩, ⟨_, scope⟩, ⟨_, 1#1⟩, ⟨_, 0#2⟩, ⟨_, f⟩, ⟨_, g⟩]]
  | .fence scope f g => [word [⟨_, 0x8E#8⟩, ⟨_, 0#13⟩, ⟨_, scope⟩, ⟨_, 0#3⟩, ⟨_, f⟩, ⟨_, g⟩]]
  | .qfence msg copy mat f g => [word [⟨_, 0x8F#8⟩, ⟨_, 0#16⟩, ⟨_, msg⟩, ⟨_, copy⟩, ⟨_, mat⟩, ⟨_, f⟩, ⟨_, g⟩]]
  | .bra offset => [word [⟨_, 0xA0#8⟩, ⟨_, offset⟩]]
  | .brp n p offset => [word [⟨_, 0xA1#8⟩, ⟨_, n⟩, ⟨_, p⟩, ⟨_, offset⟩]]
  | .xbr x c u k offset => [word [⟨_, 0xA2#8⟩, ⟨_, x⟩, ⟨_, c⟩, ⟨_, u⟩, ⟨_, k⟩, ⟨_, offset⟩]]
  | .jmpt a x c => [word [⟨_, 0xA3#8⟩, ⟨_, a⟩, ⟨_, x⟩, ⟨_, c⟩, ⟨_, 0#8⟩]]
  | .call d target => [word [⟨_, 0xA4#8⟩, ⟨_, d⟩, ⟨_, 0#1⟩, ⟨_, target⟩]]
  | .callIndirect d a => [word [⟨_, 0xA4#8⟩, ⟨_, d⟩, ⟨_, 1#1⟩, ⟨_, a⟩, ⟨_, 0#9⟩]]
  | .ret a => [word [⟨_, 0xA5#8⟩, ⟨_, a⟩, ⟨_, 0#17⟩]]
  | .exit g => [word [⟨_, 0xA6#8⟩, ⟨_, 0#20⟩, ⟨_, g⟩]]
  | .yield => [word [⟨_, 0xA7#8⟩, ⟨_, 0#24⟩]]
  | .nop => [word [⟨_, 0xA8#8⟩, ⟨_, 0#24⟩]]
  | .brx a offset => [word [⟨_, 0xA9#8⟩, ⟨_, a⟩, ⟨_, 0#1⟩, ⟨_, offset⟩]]
  | .barInit b e h g => [word [⟨_, 0xB0#8⟩, ⟨_, b⟩, ⟨_, e⟩, ⟨_, h⟩, ⟨_, 0#6⟩, ⟨_, g⟩]]
  | .barArr b g => [word [⟨_, 0xB1#8⟩, ⟨_, b⟩, ⟨_, 0#2⟩, ⟨_, 0#1⟩, ⟨_, 0#5⟩, ⟨_, 0#8⟩, ⟨_, g⟩]]
  | .barWait b u v g => [word [⟨_, 0xB1#8⟩, ⟨_, b⟩, ⟨_, 1#2⟩, ⟨_, u⟩, ⟨_, v⟩, ⟨_, 0#8⟩, ⟨_, g⟩]]
  | .barSync b g => [word [⟨_, 0xB1#8⟩, ⟨_, b⟩, ⟨_, 2#2⟩, ⟨_, 0#1⟩, ⟨_, 0#5⟩, ⟨_, 0#8⟩, ⟨_, g⟩]]
  | .barsInit scope n v g => [word [⟨_, 0xB2#8⟩, ⟨_, scope⟩, ⟨_, n⟩, ⟨_, 0#2⟩, ⟨_, 1#1⟩, ⟨_, v⟩, ⟨_, 0#6⟩, ⟨_, g⟩]]
  | .barsArr scope n g => [word [⟨_, 0xB2#8⟩, ⟨_, scope⟩, ⟨_, n⟩, ⟨_, 1#2⟩, ⟨_, 0#1⟩, ⟨_, 0#5⟩, ⟨_, 0#6⟩, ⟨_, g⟩]]
  | .barsWait scope n u v g => [word [⟨_, 0xB2#8⟩, ⟨_, scope⟩, ⟨_, n⟩, ⟨_, 2#2⟩, ⟨_, u⟩, ⟨_, v⟩, ⟨_, 0#6⟩, ⟨_, g⟩]]
  | .barsSync scope n g => [word [⟨_, 0xB2#8⟩, ⟨_, scope⟩, ⟨_, n⟩, ⟨_, 3#2⟩, ⟨_, 0#1⟩, ⟨_, 0#5⟩, ⟨_, 0#6⟩, ⟨_, g⟩]]
  | .fork e offset => [word [⟨_, 0xB3#8⟩, ⟨_, e⟩, ⟨_, 0#3⟩, ⟨_, offset⟩]]
  | .rndv e => [word [⟨_, 0xB4#8⟩, ⟨_, e⟩, ⟨_, 0#23⟩]]
  | .batonTake => [word [⟨_, 0xB5#8⟩, ⟨_, 0#24⟩]]
  | .batonPass u w => [word [⟨_, 0xB5#8⟩, ⟨_, 1#1⟩, ⟨_, 0#1⟩, ⟨_, u⟩, ⟨_, w⟩, ⟨_, 0#16⟩]]
  | .batonPassNone => [word [⟨_, 0xB5#8⟩, ⟨_, 1#1⟩, ⟨_, 1#1⟩, ⟨_, 0#1⟩, ⟨_, 0#5⟩, ⟨_, 0#16⟩]]
  | .quiet d t f g => [word [⟨_, 0xB6#8⟩, ⟨_, d⟩, ⟨_, t⟩, ⟨_, 0#7⟩, ⟨_, f⟩, ⟨_, g⟩]]
  | .signal h scope rl g => [word [⟨_, 0xB7#8⟩, ⟨_, h⟩, ⟨_, scope⟩, ⟨_, rl⟩, ⟨_, 0#12⟩, ⟨_, g⟩]]
  | .mldb w fmt sc src bm sp sparse sh => word [⟨_, 0xC0#8⟩, ⟨_, w⟩, ⟨_, fmt⟩, ⟨_, sc⟩, ⟨_, src⟩, ⟨_, bm⟩, ⟨_, sp⟩, ⟨_, sparse⟩, ⟨_, 0#4⟩] :: sh.words
  | .mzero m isInt => [word [⟨_, 0xC1#8⟩, ⟨_, m⟩, ⟨_, isInt⟩, ⟨_, 0#20⟩]]
  | .mma m w a sa g sh => word [⟨_, 0xC2#8⟩, ⟨_, m⟩, ⟨_, w⟩, ⟨_, a⟩, ⟨_, sa⟩, ⟨_, g⟩] :: sh.words
  | .mmaStr m w sh => word [⟨_, 0xC2#8⟩, ⟨_, m⟩, ⟨_, w⟩, ⟨_, 0#7⟩, ⟨_, 0#7⟩, ⟨_, 7#4⟩] :: sh.words
  | .mrd m dfmt rnd sat ftz d f g sh => word [⟨_, 0xC3#8⟩, ⟨_, m⟩, ⟨_, dfmt⟩, ⟨_, rnd⟩, ⟨_, sat⟩, ⟨_, ftz⟩, ⟨_, d⟩, ⟨_, f⟩, ⟨_, g⟩] :: sh.words
  | .msig b => [word [⟨_, 0xC4#8⟩, ⟨_, b⟩, ⟨_, 0#20⟩]]
  | .mseqEnd e b => [word [⟨_, 0xC5#8⟩, ⟨_, e⟩, ⟨_, b⟩, ⟨_, 0#19⟩]]
  | .mamax m d f g sh => word [⟨_, 0xC6#8⟩, ⟨_, m⟩, ⟨_, 0#3⟩, ⟨_, d⟩, ⟨_, 0#6⟩, ⟨_, f⟩, ⟨_, g⟩] :: sh.words
  | .dcopy dk sk dsp ssp st sg h f g sh => word [⟨_, 0xD0#8⟩, ⟨_, dk⟩, ⟨_, sk⟩, ⟨_, dsp⟩, ⟨_, ssp⟩, ⟨_, st⟩, ⟨_, sg⟩, ⟨_, h⟩, ⟨_, f⟩, ⟨_, g⟩] :: sh.words
  | .dcopyCk dk sk dsp ssp st sg h f g sh => word [⟨_, 0xD1#8⟩, ⟨_, dk⟩, ⟨_, sk⟩, ⟨_, dsp⟩, ⟨_, ssp⟩, ⟨_, st⟩, ⟨_, sg⟩, ⟨_, h⟩, ⟨_, f⟩, ⟨_, g⟩] :: sh.words
  | .dfill dk sk dsp ssp st sg h f g sh => word [⟨_, 0xD2#8⟩, ⟨_, dk⟩, ⟨_, sk⟩, ⟨_, dsp⟩, ⟨_, ssp⟩, ⟨_, st⟩, ⟨_, sg⟩, ⟨_, h⟩, ⟨_, f⟩, ⟨_, g⟩] :: sh.words
  | .dgather k arr sp st sg h f g sh => word [⟨_, 0xD3#8⟩, ⟨_, k⟩, ⟨_, arr⟩, ⟨_, sp⟩, ⟨_, 0#1⟩, ⟨_, st⟩, ⟨_, sg⟩, ⟨_, h⟩, ⟨_, f⟩, ⟨_, g⟩] :: sh.words
  | .dscat k arr sp st sg h f g sh => word [⟨_, 0xD8#8⟩, ⟨_, k⟩, ⟨_, arr⟩, ⟨_, sp⟩, ⟨_, 0#1⟩, ⟨_, st⟩, ⟨_, sg⟩, ⟨_, h⟩, ⟨_, f⟩, ⟨_, g⟩] :: sh.words
  | .dlease d sz du pd f g => [word [⟨_, 0xD4#8⟩, ⟨_, d⟩, ⟨_, sz⟩, ⟨_, du⟩, ⟨_, pd⟩, ⟨_, 0#1⟩, ⟨_, f⟩, ⟨_, g⟩]]
  | .dleaseRenew d du pd f g => [word [⟨_, 0xD4#8⟩, ⟨_, d⟩, ⟨_, 0#5⟩, ⟨_, du⟩, ⟨_, pd⟩, ⟨_, 1#1⟩, ⟨_, f⟩, ⟨_, g⟩]]
  | .dunlease h f g => [word [⟨_, 0xD5#8⟩, ⟨_, h⟩, ⟨_, 0#14⟩, ⟨_, f⟩, ⟨_, g⟩]]
  | .dsig b arr sg h f g => [word [⟨_, 0xD6#8⟩, ⟨_, b⟩, ⟨_, arr⟩, ⟨_, sg⟩, ⟨_, h⟩, ⟨_, 0#10⟩, ⟨_, f⟩, ⟨_, g⟩]]
  | .dreloc k st f g => [word [⟨_, 0xD7#8⟩, ⟨_, k⟩, ⟨_, 0#7⟩, ⟨_, st⟩, ⟨_, 0#4⟩, ⟨_, f⟩, ⟨_, g⟩]]
  | .spawn pd a f g => [word [⟨_, 0xE0#8⟩, ⟨_, pd⟩, ⟨_, a⟩, ⟨_, 0#6⟩, ⟨_, 0#4⟩, ⟨_, f⟩, ⟨_, g⟩]]
  | .spawnAt pd a t f g => [word [⟨_, 0xE1#8⟩, ⟨_, pd⟩, ⟨_, a⟩, ⟨_, t⟩, ⟨_, 0#4⟩, ⟨_, f⟩, ⟨_, g⟩]]
  | .done => [word [⟨_, 0xE2#8⟩, ⟨_, 0#24⟩]]
  | .alloc => [word [⟨_, 0xE3#8⟩, ⟨_, 0#24⟩]]
  | .free => [word [⟨_, 0xE4#8⟩, ⟨_, 0#24⟩]]
  | .csrr d csr g => [word [⟨_, 0xF0#8⟩, ⟨_, d⟩, ⟨_, csr⟩, ⟨_, 0#1⟩, ⟨_, g⟩]]
  | .csrw a csr g => [word [⟨_, 0xF1#8⟩, ⟨_, a⟩, ⟨_, csr⟩, ⟨_, 0#1⟩, ⟨_, g⟩]]
  | .trap cause code g => [word [⟨_, 0xF2#8⟩, ⟨_, cause⟩, ⟨_, code⟩, ⟨_, g⟩]]
  | .eret => [word [⟨_, 0xF3#8⟩, ⟨_, 0#24⟩]]
  | .tmask => [word [⟨_, 0xF4#8⟩, ⟨_, 0#1⟩, ⟨_, 0#23⟩]]
  | .tunmask => [word [⟨_, 0xF4#8⟩, ⟨_, 1#1⟩, ⟨_, 0#23⟩]]
  | .l1inv => [word [⟨_, 0xF5#8⟩, ⟨_, 0#24⟩]]
  | .tlbiRange k c n g => [word [⟨_, 0xF6#8⟩, ⟨_, 0#2⟩, ⟨_, k⟩, ⟨_, c⟩, ⟨_, n⟩, ⟨_, 0#5⟩, ⟨_, g⟩]]
  | .tlbiCtx c g => [word [⟨_, 0xF6#8⟩, ⟨_, 1#2⟩, ⟨_, 0#3⟩, ⟨_, c⟩, ⟨_, 0#5⟩, ⟨_, 0#5⟩, ⟨_, g⟩]]
  | .tlbiPkg g => [word [⟨_, 0xF6#8⟩, ⟨_, 2#2⟩, ⟨_, 0#3⟩, ⟨_, 0#5⟩, ⟨_, 0#5⟩, ⟨_, 0#5⟩, ⟨_, g⟩]]
  | .clock d g => [word [⟨_, 0xF7#8⟩, ⟨_, d⟩, ⟨_, 0#1⟩, ⟨_, 0#12⟩, ⟨_, g⟩]]
  | .clockNs d g => [word [⟨_, 0xF7#8⟩, ⟨_, d⟩, ⟨_, 1#1⟩, ⟨_, 0#12⟩, ⟨_, g⟩]]
  | .perf d n g => [word [⟨_, 0xF8#8⟩, ⟨_, d⟩, ⟨_, n⟩, ⟨_, 0#10⟩, ⟨_, g⟩]]
  | .halt => [word [⟨_, 0xF9#8⟩, ⟨_, 0#24⟩]]
  | .clauseIssue _ _ => []
  | .frontierWaitLimit _ _ => []
  | .loopLimit _ _ => []
  | .translationDone _ => []
  | .loadDataReturn _ _ _ => []
  | .storeAck _ _ => []
  | .atomicReply _ _ => []
  | .allocGrant _ => []
  | .dispatch _ => []
  | .groupComplete _ => []
  | .successorEntry _ => []
  | .descriptorRead _ => []
  | .spillReturn _ => []
  | .copyCommandRun _ _ _ => []
  | .copyRecordComplete _ _ => []
  | .matrixEntryRun _ _ => []
  | .waveForm _ => []
  | .waveComplete _ _ => []
  | .waveTimeLimit _ _ => []
  | .methodRequest _ => []
  | .methodCall _ => []
  | .methodReply _ _ => []
  | .remoteStore _ => []
  | .remoteAtomic _ => []
  | .remoteSpawn _ => []
  | .remoteSignal _ => []
  | .remotePodInit _ => []
  | .copyBeat _ => []
  | .remoteLoad _ => []
  | .ackResponse _ => []
  | .refusedResponse _ => []
  | .retryResponse _ => []
  | .heldResponse _ => []
  | .consumedResponse _ => []
  | .abandonedResponse _ => []
  | .phaseNotice _ => []
  | .lossNotice _ => []
  | .probe _ => []
  | .report _ => []
  | .traversePeriodic => []
  | .traversePassTimeout _ _ => []
  | .quietTimeout _ => []
  | .messageResend _ _ => []
  | .messageDoubt _ _ => []
  | .lossNoticeResend _ _ => []
  | .retryResend _ => []
  | .phaseNoticeResend _ => []
  | .leaseExpiry _ _ => []
  | .footprintFlush _ _ => []
  | .slotDeadline _ => []
  | .overrun _ => []
  | .drainTimeout _ => []
  | .saveTimeout _ => []
  | .drainComplete _ => []
  | .saveComplete _ => []
  | .restore _ => []
  | .thermalMigration _ => []
  | .activityPeriod _ _ => []
  | .scrubRead _ => []
  | .migrationComplete _ => []
  | .uncorrectableError _ => []
  | .gangKill _ => []
  | .auditReplay _ _ => []
  | .powerOn => []
  | .powerCap => []
  | .dieThrottle _ => []
  | .emergencyStop => []
  | .emergencyStopComplete => []
  | .memoryThermalState _ => []
  | .hostApertureAccess _ _ _ => []
  | .qnotify => []
  | .qctlMap => []
  | .qctlUnmap => []
  | .lsectlRevoke => []
  | .poisoncmdSet => []
  | .poisoncmdClear => []
  | .migcmdMigrate4k => []
  | .migcmdMigrate2m => []
  | .migcmdRemoveRedirect => []
  | .fabjstatLossyClear => []
  | .precmdDrain => []
  | .precmdSave => []
  | .precmdReset => []
  | .precmdRestore => []
  | .precmdRelease => []
  | .precmdEndDrain => []
  | .bootcmdWarmStart => []
  | .bootcmdColdStart => []
  | .bootcmdShutdown => []
  | .fusecmdRaise => []
  | .fusecmdRevoke => []
  | .loadcmdStart => []
  | .pkgcfgWrite => []
  | .registerWrite => []
  | .powerOff => []
  | .workingPortChange _ _ => []
  | .powerStateNormal _ => []
  | .memoryThermalStateExit _ => []
  | .contextResetComplete _ => []
  | .backgroundSweepComplete _ => []
  | .correctedSoftError _ => []
  | .svctailWrite => []
  | .sequencerIssue _ _ => []
  | .signalBaseDieTransfer _ => []
  | .spawnBaseDieTransfer _ => []

/-- What the decoder answers for the words at an instruction's address. -/
inductive Decoded where
  /-- The instruction and its length in words. -/
  | ok (i : Instr) (len : Nat)
  /-- A check of R263 failed. -/
  | bad (b : Bad)
  /-- Fewer words were given than the opcode's length. -/
  | short
  deriving DecidableEq, Repr

/-- The number of leading words on which two lists agree: where two encodings first differ. -/
def agreeing : List Word → List Word → Nat
  | a :: as, b :: bs => if a = b then agreeing as bs + 1 else 0
  | _, _ => 0

/-- The subcode of a word that differs from the encoding of its instruction in bits the instruction does not use: a
nonzero reserved bit (1), but for the rounding field of ATOM and CALLM, whose nonzero value has subcode 5 (R342,
R344, R256). -/
def reservedSubcode (w : Word) (e : Word) (at_ : Nat) : Nat :=
  if at_ = 1 && (fld 24 8 w = 0x89 || fld 24 8 w = 0x8A) && fld 22 3 e ≠ 0 then 5 else 1

/-- Word `n` of a list, zero past its end. -/
def wordAt (ws : List Word) (n : Nat) : Word := ws.getD n 0

/-- The instruction that a list of words names, before any check of it. -/
def named (ws : List Word) : Option Instr :=
  candidate (wordAt ws 0) (wordAt ws 1) (.ofWords (wordAt ws 1) (wordAt ws 2) (wordAt ws 3) (wordAt ws 4))

/-- Decode the instruction at the head of a list of words (R252, R263): its opcode must be assigned, the fields it
does not use zero, and its own checks must hold. -/
def decode (ws : List Word) : Decoded :=
  match ws with
  | [] => .short
  | w :: rest =>
    let op := fld 24 8 w
    let len := opcodeLength op
    if !opcodeAssigned op then .bad ⟨0, 0⟩
    else if rest.length + 1 < len then .short
    else
      match candidate w (wordAt rest 0) (.ofWords (wordAt rest 0) (wordAt rest 1) (wordAt rest 2) (wordAt rest 3)) with
      | none => .bad ⟨1, 0⟩
      | some i =>
        if encode i ≠ ws.take len then
          .bad ⟨reservedSubcode w (wordAt rest 0) (agreeing (encode i) ws), agreeing (encode i) ws⟩
        else
          match i.check with
          | some b => .bad b
          | none => .ok i len

/-- The opcode of an instruction; none for an event. -/
def Instr.opcode (i : Instr) : Option (BitVec 8) := (encode i).head?.map (fld 24 8)

/-- The header of a clause (R241). -/
structure ClauseHeader where
  count : BitVec 4
  cls : BitVec 3
  wait : BitVec 12
  flagA : BitVec 4
  flagB : BitVec 4
  block : Bool
  yield : Bool
  deriving DecidableEq, Repr

/-- The fields of a header word (R241). -/
def ClauseHeader.ofWord (w : Word) : ClauseHeader :=
  ⟨fld 28 4 w, fld 25 3 w, fld 13 12 w, fld 9 4 w, fld 5 4 w, fld 4 1 w = 1, fld 3 1 w = 1⟩

/-- The header word of a header, its reserved bits zero (R241). -/
def ClauseHeader.word (h : ClauseHeader) : Word :=
  Sys2Proof.word [⟨_, h.count⟩, ⟨_, h.cls⟩, ⟨_, h.wait⟩, ⟨_, h.flagA⟩, ⟨_, h.flagB⟩, ⟨_, BitVec.ofBool h.block⟩,
    ⟨_, BitVec.ofBool h.yield⟩, ⟨_, 0#3⟩]

/-- The checks of a header word (R241, R242, R263). -/
def headerCheck (w : Word) : Option Bad :=
  first [need (fld 0 3 w = 0) 1 0, need (fld 28 4 w ≠ 0 && fld 25 3 w ≠ 7) 2 0,
    need ((fld 9 4 w < 12 || fld 9 4 w = 15) && (fld 5 4 w < 12 || fld 5 4 w = 15)) 5 0]

/-- Who executes a clause: a warp of a group on a compute core or on a home core, a combiner wave, or the matrix or
copy sequencer's program (R192, R177, R211). -/
inductive Party where
  | warp (home : Bool)
  | wave
  | seq (copy : Bool)
  deriving DecidableEq, Repr

/-- The transfer instructions of R243. -/
def isTransfer (op : BitVec 8) : Bool := (0xA0 ≤ op && op ≤ 0xA6) || op = 0xA9

/-- The clause-ending instructions of R243: DONE, FORK, RNDV, MSEQ.END. -/
def isEnder (op : BitVec 8) : Bool := op = 0xE2 || op = 0xB3 || op = 0xB4 || op = 0xC5

/-- Whether a sequencer program's class-0 instruction names only uniform registers (R273, R305). -/
def seqRegs : Instr → List (BitVec 7)
  | .iadd d a b _ => [d, a, b]
  | .isub d a b _ => [d, a, b]
  | .imul d a b _ => [d, a, b]
  | .imulhi d a b _ => [d, a, b]
  | .imad d a b _ c _ => [d, a, b, c]
  | .imin d a b _ => [d, a, b]
  | .imax d a b _ => [d, a, b]
  | .iabs d a _ => [d, a]
  | .ineg d a _ => [d, a]
  | .and d a b _ => [d, a, b]
  | .or d a b _ => [d, a, b]
  | .xor d a b _ => [d, a, b]
  | .not d a _ => [d, a]
  | .shl d a b _ => [d, a, b]
  | .shr d a b _ => [d, a, b]
  | .sar d a b _ => [d, a, b]
  | .rot d a b _ => [d, a, b]
  | .bfe d a b _ => [d, a, b]
  | .bfi d a b c _ => [d, a, b, c]
  | .popc d a _ => [d, a]
  | .clz d a _ => [d, a]
  | .brev d a _ => [d, a]
  | .iset _ a b _ _ => [a, b]
  | .sel d a b _ => [d, a, b]
  | .mov d a _ _ => [d, a]
  | .movi d _ => [d]
  | .moviHi d _ => [d]
  | .movs d _ _ _ => [d]
  | .blend d a b _ c _ _ _ _ _ _ => [d, a, b, c]
  | .idivStep d a b _ => [d, a, b]
  | .imulw d a b _ _ => [d, a, b]
  | .xadd _ _ _ _ _ => []
  | .xsub _ _ _ _ _ => []
  | .xmul _ _ _ _ _ => []
  | .xshl _ _ _ _ _ => []
  | .xshr _ _ _ _ _ => []
  | .xmin _ _ _ _ _ => []
  | .xmax _ _ _ _ _ => []
  | .xand _ _ _ _ _ => []
  | .xmov _ _ _ => []
  | .xset _ a _ _ _ _ => [a]
  | .xfrom _ a _ _ => [a]
  | .xrd d _ _ _ => [d]
  | .xwiden _ _ _ => []
  | .xld _ _ _ _ _ => []
  | .xst _ _ _ _ _ => []
  | .xclamp _ a _ _ => [a]
  | .fadd d a b _ _ _ _ => [d, a, b]
  | .fsub d a b _ _ _ _ => [d, a, b]
  | .fmul d a b _ _ _ _ => [d, a, b]
  | .ffma d a b _ c _ _ _ => [d, a, b, c]
  | .fmin d a b _ => [d, a, b]
  | .fmax d a b _ => [d, a, b]
  | .fabs d a _ => [d, a]
  | .fneg d a _ => [d, a]
  | .fabsH2 d a _ => [d, a]
  | .fnegH2 d a _ => [d, a]
  | .fset _ a b _ _ => [a, b]
  | .fclass d a _ _ => [d, a]
  | .hadd2 d a b _ _ _ _ _ => [d, a, b]
  | .hmul2 d a b _ _ _ _ _ => [d, a, b]
  | .hfma2 d a b _ c _ _ _ _ => [d, a, b, c]
  | .fdot2 d a b _ c _ _ _ _ => [d, a, b, c]
  | .ex2 d a _ _ _ => [d, a]
  | .lg2 d a _ _ _ => [d, a]
  | .rcp d a _ _ _ => [d, a]
  | .rsq d a _ _ _ => [d, a]
  | .sqrt d a _ _ _ => [d, a]
  | .sin d a _ _ _ => [d, a]
  | .cos d a _ _ _ => [d, a]
  | .tanh d a _ _ _ => [d, a]
  | .erf d a _ _ _ => [d, a]
  | .cvt d a _ _ _ _ _ _ _ scale => [d, a, scale]
  | .pack d a _ _ _ _ _ _ _ scale => [d, a, scale]
  | .unpack d a _ _ _ _ _ _ _ scale => [d, a, scale]
  | .amax d a _ _ _ => [d, a]
  | .seed a _ _ => [a]
  | .cvt8 d a b _ _ _ _ => [d, a, b]
  | .shfl d a _ _ b => [d, a, b]
  | .voteAll _ _ _ _ => []
  | .voteAny _ _ _ _ => []
  | .voteBallot d _ _ _ => [d]
  | .matchAny d a _ _ => [d, a]
  | .matchAll d a _ _ => [d, a]
  | .redg d a _ _ => [d, a]
  | .scang d a _ _ _ _ => [d, a]
  | .ldfrag _ _ _ _ => []
  | .ldfragTB8 _ _ _ _ => []
  | .ldfragTB16 _ _ _ _ => []
  | .shfli d a _ => [d, a]
  | .permb d a b => [d, a, b]
  | .ldg _ _ _ _ _ _ _ => []
  | .stg _ _ _ _ _ _ _ => []
  | .lda _ _ _ _ _ _ => []
  | .sta _ _ _ _ _ _ => []
  | .lds _ _ _ _ _ => []
  | .sts _ _ _ _ _ => []
  | .prf _ _ _ _ _ => []
  | .arm _ _ _ _ => []
  | .disarm _ _ _ => []
  | .ald _ _ _ _ => []
  | .atom _ _ _ _ _ _ _ _ _ _ => []
  | .callm _ _ _ _ _ _ _ _ _ => []
  | .bind _ _ _ _ _ _ => []
  | .unbind _ _ _ _ => []
  | .acq _ _ _ _ _ => []
  | .acqAll _ _ _ => []
  | .rel _ _ _ _ _ => []
  | .relAll _ _ _ => []
  | .fence _ _ _ => []
  | .qfence _ _ _ _ _ => []
  | .bra _ => []
  | .brp _ _ _ => []
  | .xbr _ _ _ _ _ => []
  | .jmpt _ _ _ => []
  | .call _ _ => []
  | .callIndirect _ _ => []
  | .ret _ => []
  | .exit _ => []
  | .yield => []
  | .nop => []
  | .brx _ _ => []
  | .barInit _ _ _ _ => []
  | .barArr _ _ => []
  | .barWait _ _ _ _ => []
  | .barSync _ _ => []
  | .barsInit _ _ _ _ => []
  | .barsArr _ _ _ => []
  | .barsWait _ _ _ _ _ => []
  | .barsSync _ _ _ => []
  | .fork _ _ => []
  | .rndv _ => []
  | .batonTake => []
  | .batonPass _ _ => []
  | .batonPassNone => []
  | .quiet _ _ _ _ => []
  | .signal _ _ _ _ => []
  | .mldb _ _ _ _ _ _ _ _ => []
  | .mzero _ _ => []
  | .mma _ _ _ _ _ _ => []
  | .mmaStr _ _ _ => []
  | .mrd _ _ _ _ _ _ _ _ _ => []
  | .msig _ => []
  | .mseqEnd _ _ => []
  | .mamax _ _ _ _ _ => []
  | .dcopy _ _ _ _ _ _ _ _ _ _ => []
  | .dcopyCk _ _ _ _ _ _ _ _ _ _ => []
  | .dfill _ _ _ _ _ _ _ _ _ _ => []
  | .dgather _ _ _ _ _ _ _ _ _ => []
  | .dscat _ _ _ _ _ _ _ _ _ => []
  | .dlease _ _ _ _ _ _ => []
  | .dleaseRenew _ _ _ _ _ => []
  | .dunlease _ _ _ => []
  | .dsig _ _ _ _ _ _ => []
  | .dreloc _ _ _ _ => []
  | .spawn _ _ _ _ => []
  | .spawnAt _ _ _ _ _ => []
  | .done => []
  | .alloc => []
  | .free => []
  | .csrr _ _ _ => []
  | .csrw _ _ _ => []
  | .trap _ _ _ => []
  | .eret => []
  | .tmask => []
  | .tunmask => []
  | .l1inv => []
  | .tlbiRange _ _ _ _ => []
  | .tlbiCtx _ _ => []
  | .tlbiPkg _ => []
  | .clock _ _ => []
  | .clockNs _ _ => []
  | .perf _ _ _ => []
  | .halt => []
  | .clauseIssue _ _ => []
  | .frontierWaitLimit _ _ => []
  | .loopLimit _ _ => []
  | .translationDone _ => []
  | .loadDataReturn _ _ _ => []
  | .storeAck _ _ => []
  | .atomicReply _ _ => []
  | .allocGrant _ => []
  | .dispatch _ => []
  | .groupComplete _ => []
  | .successorEntry _ => []
  | .descriptorRead _ => []
  | .spillReturn _ => []
  | .copyCommandRun _ _ _ => []
  | .copyRecordComplete _ _ => []
  | .matrixEntryRun _ _ => []
  | .waveForm _ => []
  | .waveComplete _ _ => []
  | .waveTimeLimit _ _ => []
  | .methodRequest _ => []
  | .methodCall _ => []
  | .methodReply _ _ => []
  | .remoteStore _ => []
  | .remoteAtomic _ => []
  | .remoteSpawn _ => []
  | .remoteSignal _ => []
  | .remotePodInit _ => []
  | .copyBeat _ => []
  | .remoteLoad _ => []
  | .ackResponse _ => []
  | .refusedResponse _ => []
  | .retryResponse _ => []
  | .heldResponse _ => []
  | .consumedResponse _ => []
  | .abandonedResponse _ => []
  | .phaseNotice _ => []
  | .lossNotice _ => []
  | .probe _ => []
  | .report _ => []
  | .traversePeriodic => []
  | .traversePassTimeout _ _ => []
  | .quietTimeout _ => []
  | .messageResend _ _ => []
  | .messageDoubt _ _ => []
  | .lossNoticeResend _ _ => []
  | .retryResend _ => []
  | .phaseNoticeResend _ => []
  | .leaseExpiry _ _ => []
  | .footprintFlush _ _ => []
  | .slotDeadline _ => []
  | .overrun _ => []
  | .drainTimeout _ => []
  | .saveTimeout _ => []
  | .drainComplete _ => []
  | .saveComplete _ => []
  | .restore _ => []
  | .thermalMigration _ => []
  | .activityPeriod _ _ => []
  | .scrubRead _ => []
  | .migrationComplete _ => []
  | .uncorrectableError _ => []
  | .gangKill _ => []
  | .auditReplay _ _ => []
  | .powerOn => []
  | .powerCap => []
  | .dieThrottle _ => []
  | .emergencyStop => []
  | .emergencyStopComplete => []
  | .memoryThermalState _ => []
  | .hostApertureAccess _ _ _ => []
  | .qnotify => []
  | .qctlMap => []
  | .qctlUnmap => []
  | .lsectlRevoke => []
  | .poisoncmdSet => []
  | .poisoncmdClear => []
  | .migcmdMigrate4k => []
  | .migcmdMigrate2m => []
  | .migcmdRemoveRedirect => []
  | .fabjstatLossyClear => []
  | .precmdDrain => []
  | .precmdSave => []
  | .precmdReset => []
  | .precmdRestore => []
  | .precmdRelease => []
  | .precmdEndDrain => []
  | .bootcmdWarmStart => []
  | .bootcmdColdStart => []
  | .bootcmdShutdown => []
  | .fusecmdRaise => []
  | .fusecmdRevoke => []
  | .loadcmdStart => []
  | .pkgcfgWrite => []
  | .registerWrite => []
  | .powerOff => []
  | .workingPortChange _ _ => []
  | .powerStateNormal _ => []
  | .memoryThermalStateExit _ => []
  | .contextResetComplete _ => []
  | .backgroundSweepComplete _ => []
  | .correctedSoftError _ => []
  | .svctailWrite => []
  | .sequencerIssue _ _ => []
  | .signalBaseDieTransfer _ => []
  | .spawnBaseDieTransfer _ => []

/-- The class-0 instructions a sequencer program may not execute although their registers name uniform ones (R273,
R305). -/
def seqForbidden (i : Instr) (op : BitVec 8) : Bool :=
  (0x20 ≤ op && op ≤ 0x30) || (0x70 ≤ op && op ≤ 0x77) || op = 0x64 ||
  match i with
  | .mov _ _ mode _ => mode ≠ 0
  | .movs _ num _ _ => num = 0x00 || num = 0x09
  | .amax _ _ _ w _ => w = 1
  | _ => false

/-- The rounding field of an instruction that carries one (R221). -/
def roundingOf : Instr → BitVec 3
  | .imad _ _ _ _ _ rnd => rnd
  | .bfi _ _ _ _ rnd => rnd
  | .blend _ _ _ _ _ rnd _ _ _ _ _ => rnd
  | .imulw _ _ _ _ rnd => rnd
  | .fadd _ _ _ _ rnd _ _ => rnd
  | .fsub _ _ _ _ rnd _ _ => rnd
  | .fmul _ _ _ _ rnd _ _ => rnd
  | .ffma _ _ _ _ _ rnd _ _ => rnd
  | .hadd2 _ _ _ _ rnd _ _ _ => rnd
  | .hmul2 _ _ _ _ rnd _ _ _ => rnd
  | .hfma2 _ _ _ _ _ rnd _ _ _ => rnd
  | .fdot2 _ _ _ _ _ rnd _ _ _ => rnd
  | .ex2 _ _ rnd _ _ => rnd
  | .lg2 _ _ rnd _ _ => rnd
  | .rcp _ _ rnd _ _ => rnd
  | .rsq _ _ rnd _ _ => rnd
  | .sqrt _ _ rnd _ _ => rnd
  | .sin _ _ rnd _ _ => rnd
  | .cos _ _ rnd _ _ => rnd
  | .tanh _ _ rnd _ _ => rnd
  | .erf _ _ rnd _ _ => rnd
  | .cvt _ _ _ _ rnd _ _ _ _ _ => rnd
  | .pack _ _ _ _ rnd _ _ _ _ _ => rnd
  | .unpack _ _ _ _ rnd _ _ _ _ _ => rnd
  | .cvt8 _ _ _ rnd _ _ _ => rnd
  | .mrd _ _ rnd _ _ _ _ _ _ => rnd
  | _ => 0

/-- Whether the last register that an instruction names stands in its extension word (R256). -/
def extNames : Instr → Bool
  | .imad _ _ _ _ _ _ => true
  | .bfi _ _ _ _ _ => true
  | .blend _ _ _ _ _ _ _ _ _ _ _ => true
  | .ffma _ _ _ _ _ _ _ _ => true
  | .hfma2 _ _ _ _ _ _ _ _ _ => true
  | .fdot2 _ _ _ _ _ _ _ _ _ => true
  | .cvt _ _ _ _ _ _ _ _ _ _ => true
  | .pack _ _ _ _ _ _ _ _ _ _ => true
  | .unpack _ _ _ _ _ _ _ _ _ _ => true
  | _ => false

/-- The word of an instruction that names a register which a sequencer program does not have: the extension word when only that one
does. -/
def badRegWord (i : Instr) : Nat := if extNames i && (seqRegs i).dropLast.all isUni then 1 else 0

/-- The checks that depend on the party (R177, R192, R211, R228, R273, R305, R373): subcode 11, subcode 5 for rounding
code 4 in a sequencer program, subcode 1 for the row mask of MRD. -/
def partyCheck (p : Party) (i : Instr) (op : BitVec 8) : Option Bad :=
  match p with
  | .warp home =>
    first [need (!(home && (opcodeClass op = 3 || op = 0xB5))) 11 0,
      match i with
      | .mseqEnd _ _ => need false 11 0
      | .mrd _ _ _ _ _ _ _ _ sh => need sh.sh5.isZero 1 3
      | _ => none]
  | .wave =>
    first [need (opcodeClass op ≤ 2 || op = 0xF7 || op = 0xF2) 11 0,
      need (!(op = 0x2E || op = 0x81 || op = 0x89 || op = 0x8A || op = 0x8B || op = 0x8C || op = 0x8D || op = 0x8E)) 11 0,
      match i with
      | .sta _ arr _ _ _ _ => need (arr = 0) 11 0
      | .ald arr _ _ _ => need (arr ≠ 0) 11 0
      | .arm _ arr _ _ => need (arr ≠ 0) 11 0
      | .disarm arr _ _ => need (arr ≠ 0) 11 0
      | _ => none]
  | .seq copy =>
    first [
      need (opcodeClass op = 0 || (opcodeClass op = 3 && !copy) || (opcodeClass op = 4 && copy)
        || op = 0xA0 || op = 0xA1 || op = 0xA6 || op = 0xA8) 11 0,
      need (opcodeClass op ≠ 0 || !seqForbidden i op) 11 0,
      need (opcodeClass op ≠ 0 || (seqRegs i).all isUni) 11 (badRegWord i),
      need (roundingOf i ≠ 4) 5 (if opcodeLength op = 2 then 1 else 0),
      match i with
      | .mma _ _ _ _ _ _ => need false 11 0
      | .mamax _ _ _ _ _ => need false 11 0
      | .mrd _ _ _ _ _ _ _ _ sh => first [need (sh.sh0.value = 1) 11 1, need sh.sh5.isMarker 1 3]
      | _ => none]

/-- Whether an instruction writes no register and no predicate, so that it may select flag 15 (R250, R296, R334, R340
to R348, R373, R380). -/
def writesNothing (i : Instr) (op : BitVec 8) : Bool :=
  op = 0x2E || op = 0x81 || op = 0x83 || op = 0x85 || op = 0x86 || op = 0x88 || op = 0x8D || op = 0x8E || op = 0x8F
    || op = 0xD5 || op = 0xD6 ||
  match i with
  | .disarm _ _ _ => true
  | .acqAll _ _ _ => true
  | .mrd _ _ _ _ _ _ _ _ sh => sh.sh0.value = 1
  | _ => false

/-- The checks of one instruction's place in its clause (R243, R250): its class, its being last, its flag. -/
def placeCheck (h : ClauseHeader) (last : Bool) (i : Instr) (w : Word) : Option Bad :=
  let op := fld 24 8 w
  let flag := if fld 4 1 w = 1 then h.flagB else h.flagA
  first [need (opcodeClass op = h.cls.toNat || (opcodeClass op = 2 && last)) 3 0,
    need (last || !(isTransfer op || isEnder op)) 4 0,
    need (!(opcodeLong op && flag = 15) || writesNothing i op) 8 0]

/-- What decoding a whole clause answers. -/
inductive ClauseDecoded where
  /-- The clause: its header, its block priority if it has one, its instruction words. -/
  | ok (h : ClauseHeader) (priority : Option (BitVec 16)) (words : List Word)
  /-- A failed check, its word counted from the header (R263). -/
  | bad (b : Bad)
  /-- The list ended before the clause did. -/
  | short
  deriving DecidableEq, Repr

/-- A failed check as a party has it: the register fields of a sequencer program name uniform registers, and what they may not name
there has subcode 11, where other parties have the pair and x register rules of subcode 6 (R273, R305). -/
def Bad.forParty (b : Bad) (p : Party) (ws : List Word) : Bad :=
  match p, named ws with
  | .seq _, some i =>
    (match partyCheck p i (fld 24 8 (wordAt ws 0)) with
     | some c => if b.subcode = 6 && c.subcode = 11 then c else b
     | none => b)
  | _, _ => b

/-- Decode `n` instructions from a list of words. `at_` is the index of the first word within the clause; `acc` holds
the words already read, last first. -/
def decodeBody (p : Party) (h : ClauseHeader) : Nat → Nat → List Word → List Word → Bad ⊕ Option (List Word)
  | 0, _, _, acc => .inr (some acc.reverse)
  | n + 1, at_, ws, acc =>
    match decode ws with
    | .short => .inr none
    | .bad b => .inl ⟨(b.forParty p ws).subcode, at_ + (b.forParty p ws).word⟩
    | .ok i len =>
      match first [placeCheck h (n = 0) i (wordAt ws 0), partyCheck p i (fld 24 8 (wordAt ws 0))] with
      | some b => .inl ⟨b.subcode, at_ + b.word⟩
      | none => decodeBody p h n (at_ + len) (ws.drop len) ((ws.take len).reverse ++ acc)

/-- Decode the clause at the head of a list of words (R240 to R245). -/
def decodeClause (p : Party) (ws : List Word) : ClauseDecoded :=
  match ws with
  | [] => .short
  | w :: rest =>
    match headerCheck w with
    | some b => .bad b
    | none =>
      let h := ClauseHeader.ofWord w
      let body := fun (pri : Option (BitVec 16)) (at_ : Nat) (l : List Word) =>
        match decodeBody p h h.count.toNat at_ l [] with
        | .inl b => ClauseDecoded.bad b
        | .inr none => .short
        | .inr (some l) => .ok h pri l
      if h.block then
        match rest with
        | [] => .short
        | b :: l => if fld 0 16 b ≠ 0 then .bad ⟨1, 1⟩ else body (some (fld 16 16 b)) 2 l
      else body none 1 rest

/-- The words of an instruction given as the bits of a table row: bit 0 is the least significant bit of the first word,
the bits above those given are zero, up to the longest instruction of five words. -/
def tableWords (_nbits w : Nat) : List Word := (List.range 5).map fun k => BitVec.ofNat 32 (w >>> (32 * k))

/-- The instruction the decoder reads from an instruction whose bits are `w`, numbered as spec/opcode_table.json
numbers them. -/
def decodeTableWord (nbits w : Nat) : Option Instr :=
  match decode (tableWords nbits w) with
  | .ok i _ => some i
  | _ => none

end Sys2Proof
end

