-- ==== Sys2Proof/Machine/State.lean ====
section
/-! DEFINITION. The state of one F960 package as plain data: every piece of state the spec names (INVENTORY.md lists them
with their rules), the model's own agenda, issuer and free-value counter, the reasons a step can stop, and the state
after reset. -/

namespace Sys2Proof.Machine

/-! ## Lanes and warps -/

/-- An x register: its value and its two signed shadows (R274). -/
structure XReg where
  v : Word
  lo : Word
  hi : Word
  deriving DecidableEq, Repr

/-- The registers of one lane: g0 to g111, x0 to x15, p0 to p6, the generator state (R193, R226, R258). -/
structure Lane where
  g : List Word
  x : List XReg
  p : BitVec 7
  gen : DWord
  deriving DecidableEq, Repr

/-- An array register (R81). -/
structure ArrReg where
  base : DWord
  extent : Word
  z : Nat
  trap : Bool
  log : Bool
  armed : Bool
  armedW : Bool
  deriving DecidableEq, Repr

/-- A frontier entry (R195, R199). `clause` is the address of the clause that holds `pc`; it differs from `pc` only at
a resume point inside a clause (R246). -/
structure Entry where
  pc : DWord
  prio : BitVec 16
  mask : Word
  wait : Nat
  clause : DWord
  deriving DecidableEq, Repr

/-- The clause a thread is issuing: the words not yet issued, the address of the next of them, the address after the
clause, the issuing entry's mask, priority and wait count, whether it stood first, whether the loop rule chose it, and
whether a clause boundary found the yield hint or a YIELD (R196, R199, R200, R303). -/
structure Clause where
  addr : DWord
  header : ClauseHeader
  words : List Word
  pc : DWord
  next : DWord
  mask : Word
  prio : BitVec 16
  wait : Nat
  wasFirst : Bool
  byLoop : Bool
  yield : Bool
  deriving DecidableEq, Repr

/-- A span recorded by a copy arrival: 0 virtual, 1 scratch, 2 lease (R138, R432). -/
structure Span where
  base : DWord
  len : Nat
  space : Nat
  deriving DecidableEq, Repr

/-- A barrier (R349). `whole` says that a signal marked the phase or that it has more than 8 spans (R139); `sig` is the
widest scope of the phase's `.rel` signals (R358). The `last` fields are those of the last completed phase. -/
structure Barrier where
  expected : Nat
  count : Nat
  phase : Bool
  members : Word
  spans : List Span
  whole : Bool
  sig : Nat
  lastSpans : List Span
  lastWhole : Bool
  lastSig : Nat
  deriving DecidableEq, Repr

/-- Which barrier: a group's b register, a gang's, or a wider one of a context (R140, R353). -/
inductive BarRef where
  | group (gid b : Nat)
  | gang (gang n : Nat)
  | wide (scope place ctx n : Nat)
  deriving DecidableEq, Repr

/-- The trap frame of R423. -/
structure TrapFrame where
  pc : DWord
  clause : DWord
  mask : Word
  prio : BitVec 16
  cause : BitVec 8
  flags : BitVec 8
  detail : DWord
  address : DWord
  lane : BitVec 8
  deriving DecidableEq, Repr

/-- What a thread waits for inside its current instruction (R79, R200, R214). -/
inductive Wait where
  /-- Not waiting. -/
  | none
  /-- A translation stall (R79), since a cycle count, for some virtual addresses: TRANSLATION_DONE ends it. -/
  | translation (start : Nat) (vas : List Nat)
  /-- Its checks have passed, and what it sends has to wait (R156, R134): TRANSLATION_DONE lets it go on. -/
  | launch
  /-- The fetch of its next clause waits for the walk of an address (R77, R245). -/
  | fetch (va : Nat)
  /-- That walk has ended, and the clause can be fetched. -/
  | fetched (va : Nat)
  /-- A trap raised at an entry, whose frame waits for its walks and its home points, since a cycle count (R391). -/
  | trap (start : Nat) (entry : Entry) (frame : TrapFrame)
  /-- Issue is held until an operation has ended (ACQ, ALD, JMPT). -/
  | op (id : Nat)
  /-- BAR.SYNC, BARS.SYNC: the phase taken first, while the arrival waits as a release (R352). -/
  | arriving (phase : Bool)
  /-- BAR.WAIT, BAR.SYNC, BARS: the phase waited on (R352). -/
  | barrier (ref : BarRef) (phase : Bool)
  /-- Released by a completion; the acquire is made when the warp goes on (R139, R358). -/
  | released (spans : List Span) (whole : Bool) (scope : Nat)
  | alloc
  | free
  | baton
  /-- QUIET: its place in the order of QUIETs and traverses, deadline in ns, the status once decided (R162, R163). -/
  | quiet (start deadline : Nat) (status : Option Nat)
  | halt
  /-- QFENCE waits for queue entries numbered below this (R135). -/
  | fence (upTo : Nat)
  /-- The instruction is executed again as soon as the thread issues: its condition did not hold (R118, R125, R211,
  R212, R247, R351). -/
  | retry
  deriving DecidableEq, Repr

/-- A trap handler that runs (R391, R392): the entries suspended when it was entered, and the entry that its ERET puts back. -/
structure Handled where
  suspended : List Entry
  entry : Entry
  deriving DecidableEq, Repr

/-- A warp, a sequencer program (one lane; its 7-bit fields name uniform registers, R211, R273), or a combiner wave
(R176). `handlers` are the trap handlers in progress, the innermost first (R391); `trapped` is the entry an ended thread ended at
(log 16). -/
structure Thread where
  wid : Nat
  slot : Nat
  lanes : List Lane
  s : List Word
  arrays : List ArrReg
  frontier : List Entry
  loopCount : Nat
  clause : Option Clause
  flags : List Nat
  unack : Nat
  loss : Bool
  tvec : DWord
  tframe : Word
  tcause : BitVec 8
  pend : Bool
  masked : Bool
  handlers : List Handled
  wait : Wait
  trapped : Option Entry
  seqFaults : List (Bool × TrapFrame)
  runCrc : Word
  frame : Option TrapFrame
  stamp : Nat
  freed : Bool
  ended : Bool
  deriving DecidableEq, Repr

/-! ## Translation (R72 to R101) -/

/-- A leaf entry's fields (R74), and the size of the page that the entry maps by its level (R73). -/
structure Leaf where
  size : Nat
  kind : Nat
  attr : BitVec 9
  w : Bool
  f : Bool
  mig : Bool
  frame : Nat
  owner : BitVec 16
  peer : Nat
  deriving DecidableEq, Repr

/-- A TLB entry (R76): the page's virtual base and size, the leaf, the tag and the clean bit; of a region-1 page of this package
also what the walk found exported of it to its peer context: first LPA, length, whether for writing (R479). -/
structure TlbEntry where
  va : Nat
  size : Nat
  leaf : Leaf
  tag : BitVec 16
  clean : Bool
  exports : List (Nat × Nat × Bool)
  deriving DecidableEq, Repr

/-- 64 bytes of a die's poison bitmap held in a poison cache (R90), and the virtual page, base and size, whose access read
them (R396). -/
structure PoisonEntry where
  die : Nat
  chunk : Nat
  bits : List Byte
  tag : BitVec 16
  page : Nat × Nat
  deriving DecidableEq, Repr

/-- A walk-cache entry: a table entry's LPA, its two words, the span of virtual addresses it maps (R77, R396). -/
structure WalkEntry where
  lpa : Nat
  w0 : DWord
  w1 : DWord
  va : Nat
  span : Nat
  tag : BitVec 16
  deriving DecidableEq, Repr

/-- What a walker is asked for (R77, R78): the translation of a 4 KiB page, or 64 bytes of a die's poison bitmap for an access
through a page, base and size. -/
inductive WalkFor where
  | page (n : Nat)
  | chunk (die n : Nat) (through : Nat × Nat)
  deriving DecidableEq, Repr

/-- Who waits for a walk: a thread (its access, its fetch, its trap frame), an entry of a copy queue, a piece of a prefetch. -/
inductive WalkUser where
  | thread (r : ThreadRef)
  | copy (c : CoreRef) (entry : Nat)
  | piece (op n : Nat)
  deriving DecidableEq, Repr

/-- A walk at a die's walker (R77): the context's tag, what it is for, those that its result answers, whether it holds one of the
64 places or waits for one. -/
structure Walk where
  tag : BitVec 16
  what : WalkFor
  users : List WalkUser
  started : Bool
  deriving DecidableEq, Repr

/-- A pinned translation and the arrays that pin it: group, warp, array register (R86). -/
structure Pin where
  entry : TlbEntry
  users : List (Nat × Nat × Nat)
  deriving DecidableEq, Repr

/-! ## Caches (R50 to R57) -/

/-- A physical address: in this package, or in another one (R17, R18). -/
structure PAddr where
  pkg : Option Nat
  lpa : Nat
  deriving DecidableEq, Repr

/-- A cache line: L1, RDC (with their data) or L2 (whose data is memory's). `page` is the virtual page, base and size, through
which an L1 line was filled (R51), `va` the virtual address through which an L1 or RDC line was (R113). -/
structure Line where
  pa : PAddr
  page : Nat × Nat
  va : Nat
  tag : BitVec 16
  binding : Option Nat
  prio : Nat
  reserved : Bool
  dirty : Bool
  data : List Byte
  stamp : Nat
  deriving DecidableEq, Repr

/-! ## Memory operations -/

/-- Where an access goes after translation: its physical address and page, host memory, scratch of a group, a wave's
scratch or state buffer; or a virtual address that a prefetch has still to translate. -/
inductive Target where
  | mem (pa : PAddr) (leaf : Leaf) (va : Nat)
  | host (addr : Nat)
  | scratch (gid off : Nat)
  | wave (off : Nat)
  | state (off : Nat)
  | virt (va : Nat)
  deriving DecidableEq, Repr

/-- Which kind of access, for the cache rules of R47. -/
inductive AccessKind where
  | load
  | store
  | atomic
  | fetch
  | engine
  | prefetch
  deriving DecidableEq, Repr

/-- How an operation's value is written: a load of `size` bytes extended or not, an x register with its shadows (R296),
the old value of an atomic, a descriptor (R341), an object read by ACQ, a jump table element (R300), a line of an input tile for the
audit log (R440). -/
inductive OpKind where
  | load (size : Nat) (signed : Bool)
  | xload
  | store
  | frag (form : Nat)
  | atomic (op : Nat) (wide float : Bool) (acq : Option Nat)
  | ald (arr : Nat)
  | acq (scope : Nat)
  | jmpt
  | rel
  | call (acq : Option Nat) (isRel : Bool)
  | prefetch (near : Bool)
  | audit (index lpa : Nat)
  | spawn
  | quiet
  | pend
  deriving DecidableEq, Repr

/-- One indivisible part of an operation: at most 8 bytes of one lane (16 of a scratch row). `regs` are the registers
still to be written, each with the byte offset of its part; `value` is the data read, once the read is performed;
`data` is what a store writes. -/
structure Piece where
  lane : Nat
  target : Target
  size : Nat
  off : Nat
  regs : List (BitVec 7 × Nat)
  value : Option (List Byte)
  data : List Byte
  cmp : DWord
  done : Bool
  sent : Bool
  held : Bool
  deriving DecidableEq, Repr

/-- An outstanding operation of a thread (R247): what it is, its flag, its mask of taking-part lanes, destination, its predicate,
the eviction hint, whether acquires forbid its fills of L1 and of the RDC (R116), the L1 frames reserved for it (R52), the pinned
pages it uses, by their virtual base (R86), the pieces not yet done. `late` are stores of its die that passed a line it has asked
another package for, and `noLines` the lines among those that must not be installed when they come (R106, R122). -/
structure Op where
  id : Nat
  thread : ThreadRef
  core : CoreRef
  tag : BitVec 16
  job : Nat
  kind : OpKind
  flag : Option Nat
  counted : Bool
  mask : Word
  dest : BitVec 7
  pred : BitVec 3
  hint : Option Nat
  access : AccessKind
  noInstall : List (Option Nat)
  noInstallAll : Bool
  noRdc : List (Option Nat)
  noRdcAll : Bool
  frames : List PAddr
  pins : List Nat
  late : List (PAddr × Nat × List Byte)
  noLines : List PAddr
  pieces : List Piece
  stamp : Nat
  deriving DecidableEq, Repr

/-! ## Task records (R409, R412) -/

/-- How a record came into its pool: what R416 needs of its producer. -/
inductive Producer where
  | queue
  | remote
  | core (c : CoreRef) (scope : Nat)
  deriving DecidableEq, Repr

/-- A task record in a pool or bound: the 64 bytes of the pool copy, its counted mark, its parent's group, the job key (context ×
256 + number) of the spawn that made it, its producer, the die whose pool took it, its owner address, the records of its unit
(R205, R409, R412). -/
structure Rec where
  bytes : List Byte
  addr : Nat
  counted : Bool
  parent : Option Nat
  job : Nat
  slot : Option Nat
  producer : Producer
  die : Nat
  owner : Nat
  pinned : Bool
  unit : Nat
  uIdx : Nat
  uSize : Nat
  uBad : Bool
  repeated : Bool
  kills : Nat
  seq : Nat
  deriving DecidableEq, Repr

/-! ## Engines (R360 to R382) -/

/-- An accumulator tile: its form and 32 × 128 elements of 96 bits; a row not listed is zero (R231). -/
structure Tile where
  isInt : Bool
  rows : List (Nat × List Nat)
  deriving DecidableEq, Repr

/-- Where an engine finds bytes: virtual addresses of a context, scratch of a group, or a lease. -/
inductive EngineSpace where
  | virt (addr : Nat)
  | scr (addr : Nat)
  | lease (handle : Word) (off : Nat)
  deriving DecidableEq, Repr

/-- A weight slot (R364, R366): the contents with their format, L and band map, the operands admitted last, and of the MLDB
performed last its words, operands, source, the bitmap's place when it is sparse, and pitch. -/
structure WSlot where
  fmt : Option (BitVec 4)
  scaleB : Word
  bands : Nat
  map : List Nat
  data : List (List Nat)
  admFmt : Option (BitVec 4)
  admBands : Nat
  admMap : List Nat
  words : List Word
  operands : List Word
  src : Option (EngineSpace × Option EngineSpace × Nat)
  deriving DecidableEq, Repr

/-- A matrix queue entry with its admission-time operands (R366 to R374); `bm` is where an MLDB's bitmap was read, `wrote` how many
registers of the first lane left an MRD has written (R249). -/
inductive MatrixOp where
  | mldb (w : Nat) (fmt : BitVec 4) (scaleB : Word) (bands : Nat) (map : List Nat) (bitmap : List Byte)
      (bm : Option EngineSpace) (src : EngineSpace) (pages : List TlbEntry) (pitch : Nat)
  | mzero (m : Nat) (isInt : Bool)
  | mma (m w n : Nat) (fmt : BitVec 4) (rows : List (Nat × Nat)) (stride : Nat) (scales : List (List Word))
      (sbase : Option Nat)
  | mrd (m : Nat) (dfmt : BitVec 4) (rnd : Nat) (sat ftz : Bool) (c0 cols : Nat) (lanes : List Nat)
      (dest : Option (BitVec 7)) (dbase dpitch wrote : Nat)
  | msig
  | mamax (m c0 cols : Nat) (lanes : List Nat) (d : BitVec 7)
  | seqEnd
  deriving DecidableEq, Repr

/-- An entry of the matrix queue: who admitted it, its flag, its signal, its words and operands for the image (R432), whether
some of its rows are done (R372). `orphan` marks an entry of a sequencer program that another has replaced: its thread is then the
warp that forked it, and its results go to no register (R136, R211). -/
structure MatrixEntry where
  id : Nat
  started : Bool
  thread : ThreadRef
  gid : Nat
  flag : Option Nat
  signal : Option Nat
  op : MatrixOp
  words : List Word
  operands : List Word
  orphan : Bool
  deriving DecidableEq, Repr

/-- What a copy queue entry does (R375 to R381); of a lease's renewal `units` is the handle. -/
inductive CopyOp where
  | copy (ck first last : Bool) (dst src : EngineSpace) (fill : Option DWord) (size x y z sp spp dp dpp : Nat)
  | footprint (scatter : Bool) (arr : EngineSpace) (lo count z : Nat) (side : EngineSpace) (tooBig : Bool)
  | lease (renew : Bool) (d : BitVec 5) (units dur : Word) (pd : BitVec 3) (mask : Word)
  | unlease (handle : Word)
  | sig
  | reloc (descriptor : Nat)
  deriving DecidableEq, Repr

/-- An entry of the copy queue: its progress (elements moved, beats unanswered), its failure, the chain's start and expected value
(R378). `asked` is the line of another package that is on its way, with its page and virtual address, with the stores of the die
that passed it in `late`, and the binding indexes (or `noFill`) whose fill of the RDC is forbidden meanwhile (R47, R116, R122);
`lines` are those that have come; `beat` are the runs gathered for a destination line of another package, by its virtual address,
`cover` the destination line of this package with a bit for each byte of it written (R49), and `written` the bytes as written, in
copy order; `walked` are the 4 KiB pages whose walks it has asked for since its last element (R77); `wrote` says that the register
behind the status register is written (R249). A copy record's entry has no thread and
holds its record; `began` is when it was bound, in ns. `orphan` as in a matrix entry. -/
structure CopyEntry where
  id : Nat
  thread : Option ThreadRef
  gid : Option Nat
  ctx : Nat
  tag : BitVec 16
  job : Nat
  flag : Option Nat
  st : Option (BitVec 5)
  arrive : Option Nat
  signal : Option DWord
  op : CopyOp
  pos : Nat
  unanswered : Nat
  code : Nat
  done : Bool
  sigSent : Bool
  start : Option Word
  expect : Option Word
  asked : Option (PAddr × Leaf × Nat)
  late : List (Nat × List Byte)
  noRdc : List (Option Nat)
  noFill : Bool
  lines : List (PAddr × List Byte)
  beat : Option (Nat × List (Nat × List Byte))
  cover : Nat × Nat
  written : List (List Byte)
  record : Option Rec
  began : Nat
  walked : List Nat
  wrote : Bool
  orphan : Bool
  deriving DecidableEq, Repr

/-- An entry of the message queue: CALLM, SIGNAL, or a remote spawn (R132). -/
inductive MsgOp where
  | call (op : Nat)
  | signal (handle : DWord) (scope : Nat) (isRel : Bool)
  | spawn (op lane : Nat)
  deriving DecidableEq, Repr

structure MsgEntry where
  id : Nat
  thread : ThreadRef
  gid : Nat
  op : MsgOp
  sent : Bool
  done : Bool
  deriving DecidableEq, Repr

/-- A sequencer program, its group and forking warp, whether it has ended (R211). -/
structure SeqProg where
  thread : Thread
  gid : Nat
  forker : Nat
  ended : Bool
  deriving DecidableEq, Repr

/-- Who holds the baton (R208). -/
inductive Holder where
  | free
  | warp (gid wid : Nat)
  | seq (gid : Nat)
  deriving DecidableEq, Repr

/-! ## The Wain (R168 to R189) -/

/-- A method request: the object, its target context, the selector and argument, and where the reply goes: an operation
of this package, or a message to answer; `single` marks a request to be run alone after its wave faulted (R185). `stamp` is its arrival,
`call` that of the first request of its method call to this object, behind which those of the call have their place (R174). -/
structure Request where
  stamp : Nat
  call : Nat
  lpa : Nat
  ctx : Nat
  sel : BitVec 9
  arg : DWord
  dest : ReplyTo
  msg : Option Msg
  key : Nat × Nat
  single : Bool
  leaf : Leaf
  deriving DecidableEq, Repr

/-- A method call some of whose lanes have reached their object's queue and some not (R174): the object, the package, die and operation
of the requester, and the arrival of its first request. -/
structure OpenCall where
  lpa : Nat
  who : Nat × Nat × Nat
  first : Nat
  deriving DecidableEq, Repr

/-- A running wave: its requests, the state buffer, its scratch, the replies of the lanes that ended, the method's
words, limit and resources (R175 to R185). -/
structure Wave where
  thread : Thread
  reqs : List Request
  sel : BitVec 9
  entry : DWord
  buffer : List Byte
  words : Nat
  scr : Nat
  gblk : Nat
  xq : Nat
  scratch : List Host.Cell
  replies : List (Nat × DWord)
  start : Nat
  limit : Nat
  fault : Option (BitVec 8 × Nat)
  deriving DecidableEq, Repr

/-! ## Groups and gangs (R190 to R212) -/

/-- The allotment states of R202. -/
inductive AllotState where
  | prologue
  | waiting
  | full
  | tail
  deriving DecidableEq, Repr

/-- Records still to enter a pool (R205, R406, R410): the address of the next, how many are left, what they enter with, and
the unit that the next one continues. -/
structure Batch where
  next : Nat
  left : Nat
  ctx : Nat
  slot : Option Nat
  job : Nat
  producer : Producer
  unit : Nat
  uIdx : Nat
  uSize : Nat
  uBad : Bool
  deriving DecidableEq, Repr

/-- Audit of a bound record: where its areas begin in the log, the declared inputs and outputs, what of the inputs in another package
is still to be copied (addresses, lengths, places in the log), whether it was dropped, the signature at DONE; its group's number, job key and private base, which its replay takes again (R440 to R442). -/
structure Audit where
  index : Nat
  base : Nat
  gid : Nat
  job : Nat
  priv : Nat
  inputs : List (Nat × Nat)
  outputs : List (Nat × Nat)
  left : List (Nat × Nat × Nat)
  dropped : Bool
  signature : Option DWord
  record : Rec
  die : Nat
  deriving DecidableEq, Repr

/-- What a replay's accesses may do (R442): the declared input tiles, the declared output tiles and the private space, each with the
LPA of its logged copy or its shadow area in the log; whether anything has ended the replay as inconclusive. -/
structure Shadow where
  inputs : List (Nat × Nat × Nat)
  outputs : List (Nat × Nat × Nat)
  priv : Nat × Nat × Nat
  ended : Bool
  deriving DecidableEq, Repr

/-- A resident group (R190). `job` is its job key, context × 256 + number, taken at its launch (R152). -/
structure Group where
  gid : Nat
  record : Rec
  ctx : Nat
  epoch : BitVec 4
  core : CoreRef
  gang : Nat
  member : Nat
  gangSize : Nat
  warps : List Thread
  state : AllotState
  order : Nat
  units : Nat
  seed : Nat
  scratch : List Host.Cell
  bars : List Barrier
  privBase : Nat
  perfsel : Word
  perf : List DWord
  job : Nat
  gtEntry : Option Nat
  started : Nat
  ended : Bool
  deriving DecidableEq, Repr

/-- A gang: its members in order, the members that completed, its barriers, its kills, a save in progress (R205, R207,
R431, R439). -/
structure Gang where
  id : Nat
  size : Nat
  die : Nat
  quad : Nat
  members : List Nat
  complete : List Nat
  bars : List Barrier
  kills : Nat
  recs : List Rec
  save : Option Nat
  deriving DecidableEq, Repr

/-- A core: caches, translation, queues, engines, sequencers, baton, the Wain of a home core; `starved` are the contexts with a
request that waits for room in it, and the requester's package, die and operation (R173), `opened` the method calls of which lanes are
still to come (R174), `issuing` the thread that each issue slot issued last (R200). -/
structure Core where
  ref : CoreRef
  l1 : List Line
  tlb : List TlbEntry
  poison : List PoisonEntry
  pins : List Pin
  matrix : List MatrixEntry
  copy : List CopyEntry
  msgs : List MsgEntry
  slots : List WSlot
  tiles : List Tile
  baton : Holder
  batonQueue : List (Nat × Nat)
  owner : Option Nat
  matSeq : Option SeqProg
  copySeq : Option SeqProg
  waves : List (Option Wave)
  requests : List Request
  perfselS : Word
  perfS : List DWord
  starved : List (Nat × Nat × Nat × Nat)
  opened : List OpenCall
  cycles : Nat
  footprints : List (DWord × DWord × Nat × Nat)
  issuing : List (Nat × ThreadRef)
  deriving DecidableEq, Repr

/-! ## The fabric (R145 to R167) -/

/-- An entry of a job counter table (R153). `read` says that a pass 2 has read the lossy bit as set and that it has not been set
again since (R163). -/
structure JobEntry where
  ctx : Nat
  job : Nat
  tag : BitVec 16
  injected : DWord
  consumed : DWord
  lost : Nat
  doubt : Nat
  activity : Bool
  lossy : Bool
  read : Bool
  deriving DecidableEq, Repr

/-- What a counted message was sent for, so that its answer or loss reaches its party (R158); `gone` when its job has been discarded
by a context reset (R434). -/
inductive Origin where
  | piece (op piece : Nat)
  | call (op lane : Nat)
  | copy (core : CoreRef) (entry beat : Nat)
  | copySig (core : CoreRef) (entry : Nat)
  | signal (core : CoreRef) (entry : Nat) (thread : ThreadRef)
  | spawn (core : CoreRef) (entry : Nat) (op lane : Nat) (thread : ThreadRef)
  | bar (thread : ThreadRef)
  | reply
  | gone
  deriving DecidableEq, Repr

/-- A counted message kept until it is answered (R150, R157): the port it left by last, the containment tag of its job's context
(R167), resends made, when its wait last started, whether it was answered retry, whether it is in doubt and when that was last
noticed. -/
structure Sent where
  msg : Msg
  origin : Origin
  key : Nat × Nat
  port : Option Nat
  tag : BitVec 16
  resends : Nat
  last : Nat
  retry : Bool
  doubt : Bool
  noticed : Nat
  deriving DecidableEq, Repr

/-- An outgoing flow: destination package, class, next sequence (R149). -/
structure FlowOut where
  pkg : Nat
  cls : Nat
  next : BitVec 32
  deriving DecidableEq, Repr

/-- An incoming flow: source, class, next expected sequence, messages held ahead of a gap with the containment tags of their jobs'
contexts (R167), answers given, sequences to be treated as duplicates (R149, R157). -/
structure FlowIn where
  pkg : Nat
  die : Nat
  cls : Nat
  next : BitVec 32
  held : List (Msg × BitVec 16)
  answered : List (BitVec 32 × Msg)
  abandoned : List (BitVec 32)
  deriving DecidableEq, Repr

/-- A held or retried write at a home point (R97): a piece of an operation of this package, an element of a copy command of this
package, a write of a core's footprint log, or a message. -/
inductive HeldItem where
  | piece (op piece : Nat) (tag : BitVec 16)
  | write (core : CoreRef) (entry : Nat) (tag : BitVec 16) (lpa : Nat) (leaf : Leaf) (b : List Byte)
  | log (die : Nat) (tag : BitVec 16) (lpa : Nat) (leaf : Leaf) (b : List Byte)
  | msg (m : Msg)
  deriving DecidableEq, Repr

/-- A lease (R58 to R62, R438): the gang whose party was granted it, the slots of 128 KiB it occupies, its expiry in ns, what
was written to it. -/
structure Lease where
  valid : Bool
  gang : Nat
  tag : BitVec 16
  units : Nat
  gen : BitVec 16
  expiry : Nat
  places : List Nat
  seed : Nat
  data : List Host.Cell
  deriving DecidableEq, Repr

/-- A running migration (R96). -/
structure Migration where
  src : Nat
  dst : Nat
  size : Nat
  pte : Nat
  deriving DecidableEq, Repr

/-- The budget of an internal activity of a die (R419): what the current period spent and deferred, in µs and in units, what the
last period deferred, and when the current one began. -/
structure Budget where
  spent : Nat
  deferred : Nat
  shown : Nat
  since : Nat
  deriving DecidableEq, Repr

/-- A transfer on the base-die network: a signal, a spawned record, the request of a method call and its reply (R169, R182,
R357, R386). A reply that came as a message is answered at its die once it is written whole (R148). -/
inductive Transfer where
  | signal (handle : DWord) (ctx : Nat) (core : CoreRef) (entry : Nat) (thread : ThreadRef) (isRel : Bool) (scope : Nat)
  | copySig (handle : DWord) (ctx : Nat) (core : CoreRef) (entry : Nat)
  | spawn (record : Rec) (die : Nat) (op lane : Nat)
  | request (op lane due : Nat)
  | reply (dest : ReplyTo) (value : DWord) (status : Nat) (msg : Option (Nat × Msg))
  deriving DecidableEq, Repr

/-- A die. `spill` are the records in the contexts' spill regions, each with its place in the die's
slice (R412), `exports` the export tables' entries that its home points cache, by the tag of the target context (R22); `walks` the
walks and bitmap reads at its walker and those that wait for it, `walkTurn` the context whose walk was started last (R77). -/
structure Die where
  idx : Nat
  l2 : List Line
  rdc : List Line
  tlb : List (Nat × TlbEntry)
  poison : List (Nat × PoisonEntry)
  walk : List WalkEntry
  exports : List (BitVec 16 × List (DWord × DWord))
  walks : List Walk
  walkTurn : Nat
  pool : List Rec
  spill : List (Nat × Rec)
  batches : List Batch
  entrySeq : Nat
  groupTable : List (Nat × BitVec 16 × Option Nat)
  bars : List (Nat × Nat × Barrier)
  leases : List Lease
  hold : List (Nat × Nat)
  held : List HeldItem
  retried : List (Nat × HeldItem)
  redirects : List (Nat × Nat × Nat)
  migration : Option Migration
  jobs : List JobEntry
  flowsOut : List FlowOut
  sent : List Sent
  flowsIn : List FlowIn
  ports : List Nat
  auditGen : Word
  budgets : List Budget
  throttled : Bool
  hotStacks : List Nat
  lastMove : Nat
  deriving DecidableEq, Repr

/-! ## The package -/

/-- The device registers, by name; `d` a die, `q` a queue slot, `n` a number (R62, R94, R100, R166, R402 to R404, R419,
R425, R447). -/
inductive Reg where
  | lse (d n : Nat) | leasecap (d : Nat) | lsectl (d : Nat)
  | poisonbase (d : Nat) | poisoncmd (d : Nat) | migcmd (d : Nat) | migdst (d : Nat) | migpte (d : Nat) | migstat (d : Nat)
  | fabctl | fabjsel (d : Nat) | fabjinj (d : Nat) | fabjcon (d : Nat) | fabjstat (d : Nat) | presbase
  | ctxbase | thermctl | overstat
  | qnotify (q : Nat) | qctl (q : Nat) | qring (q : Nat) | qtaila (q : Nat) | qhead (q : Nat) | qtail (q : Nat)
  | qperiod (q : Nat) | qbudget (q : Nat) | qstat (q : Nat) | qtimer (q : Nat)
  | abud (d n : Nat)
  | svcring | svchead | svctail | faultbase | savepool | savefree | precmd | prestat | audctl | audk
  | bootstat | bootcmd | stagebase | secver | fusecmd | keystat | loadcmd | loaddst | loadva | loadstat
  | pwrctl | pwrstat | pkgcfg
  deriving DecidableEq, Repr

/-- A register write on its way to its unit: from the host, or the piece of a supervisor's store (R17, R444). -/
structure RegWrite where
  reg : Reg
  value : DWord
  piece : Option (Nat × Nat)
  deriving DecidableEq, Repr

/-- What a queue slot holds besides its registers (R405 to R407, R429): the budget left in core-µs and the ns charged beyond
it, the deadline in ns, whether it overran in this period, whether the F960 set susp, its drain, its timers with the context
that is saved, the descriptor it
is entering. -/
structure Slot where
  q : Nat
  remain : Nat
  deadline : Nat
  partSusp : Bool
  draining : Bool
  drainEnd : Option Nat
  expired : Bool
  saveEnd : Option (Nat × Nat)
  batch : Option Batch
  overrun : Bool
  charged : Nat
  deriving DecidableEq, Repr

/-- An event of the event ring (R427). -/
structure Event where
  kind : Nat
  cause : Nat
  ctx : Nat
  core : Nat
  slot : Nat
  a : DWord
  b : DWord
  c : DWord
  deriving DecidableEq, Repr

/-- A save image that is held: its slots, and of the gang what the image's bytes do not hold (R431, R432; log 11). -/
structure Image where
  first : Nat
  ctx : Nat
  epoch : BitVec 4
  gang : Gang
  groups : List Group
  seqs : List (Nat × Bool × SeqProg)
  matrix : List (Nat × List MatrixEntry)
  slots : List (Nat × List WSlot)
  baton : List (Nat × Holder)
  qslot : Option Nat
  reason : Nat
  restoring : Bool
  deriving DecidableEq, Repr

/-- A traverse running at this root (R160): the pass, its sums so far, those of pass 1. `start` is its place in the order of QUIETs
and traverses, `asks` the QUIETs of other packages that it decides for: of each package those up to a place in its order (R162). -/
structure Traverse where
  ctx : Nat
  job : Nat
  pass : Nat
  start : Nat
  passStart : Nat
  packages : Nat
  injected : DWord
  consumed : DWord
  doubt : Bool
  activity : Bool
  lossy : Bool
  firstInj : DWord
  firstCon : DWord
  asks : List (Nat × DWord)
  deriving DecidableEq, Repr

/-- A QUIET of another package that waits for a traverse of this root: its job, its package, the end of its places in that package's
order, and when it times out; 0 places when that package only holds entries of the job (R162; log 21). -/
structure Ask where
  ctx : Nat
  job : Nat
  pkg : Nat
  upTo : DWord
  deadline : Nat
  deriving DecidableEq, Repr

/-- A phase notice not yet acknowledged (R480). -/
structure Notice where
  pkg : Nat
  ctx : Nat
  n : Nat
  expected : Nat
  phase : Bool
  last : Nat
  deriving DecidableEq, Repr

/-- A context whose reset has begun, or whose old tags are still being swept (R434). -/
structure Sweep where
  ctx : Nat
  old : BitVec 4
  new : BitVec 4
  reason : Nat
  announced : Bool
  deriving DecidableEq, Repr

/-- The device: everything but the agenda and the fuses. `pinRevokes` are the spans of this package's memory whose pins are
revoked once the accesses that use them are complete (R87), `precmd` the command that is being accepted (R428), `loading` the load
that runs (R447). `boot` is BOOTSTAT.state, `capped` the steps of 1/16 by which the clock is lowered, `asks` the QUIETs of other
packages that wait for a traverse of this root (R162), `between` the jobs whose traverse has made pass 1 here and not pass 2
(R156), `periodic` the jobs whose periodic traverse waits for budget (R162, R419), `wire` the outgoing packets with
their ports, `hostReply` what the last host access was answered (none: an error response). -/
structure Dev where
  mem : List Host.Cell
  hostMem : List Host.Cell
  badLines : List Nat
  regs : List (Reg × DWord)
  regBus : List RegWrite
  precmd : Option DWord
  loading : Option DWord
  cores : List Core
  dies : List Die
  groups : List Group
  gangs : List Gang
  slots : List Slot
  ops : List Op
  pinRevokes : List (Nat × Nat)
  transfers : List Transfer
  events : List Event
  dropped : Nat
  overruns : List Nat
  images : List Image
  wideBars : List (Nat × Nat × Nat × Barrier)
  notices : List Notice
  traverses : List Traverse
  asks : List Ask
  between : List (Nat × Nat)
  periodic : List (Nat × Nat)
  lastPeriodic : Nat
  sweeps : List Sweep
  waitingResets : List (Nat × Nat)
  audits : List Audit
  auditUsed : Nat
  shadow : Option Shadow
  verified : List (List Byte × Nat)
  boot : Nat
  on : Bool
  retain : Bool
  warmFail : Nat
  warmKind : Bool
  bootError : Nat
  emergency : Option Nat
  capped : Nat
  now : Nat
  coreTemp : List (CoreRef × Nat)
  stackTemp : List (Nat × Nat)
  watts : Nat
  softErrors : List (Nat × Nat × Nat)
  wire : List (Nat × Msg)
  hostNotices : List DWord
  hostReply : Option (List Byte)
  issuer : Option ThreadRef
  free : Nat
  nextId : Nat
  tick : Nat
  cycles : Nat
  deriving DecidableEq, Repr

/-- The fuses of R447: the security version, the raises used, the revoked key slots, and of each key slot the hash of its public key
(R449). -/
structure Fuses where
  secver : BitVec 16
  raises : Nat
  revoked : BitVec 4
  keys : List Nat
  deriving DecidableEq, Repr

/-- A replay that runs (R442): the audit it replays, the die of its core, and what the record sees of the package, kept apart from
it. -/
structure Replay where
  index : Nat
  die : Nat
  dev : Dev
  deriving DecidableEq, Repr

/-- What happens next (log 4): an operation of the table as an event, a thread issuing its next instruction, time
passing, what the world does to the package (host memory written, a sensor read, the oldest outgoing packet leaving,
a line of memory going bad), and an act of a running replay. -/
inductive Act where
  | event (i : Instr)
  | issue (t : ThreadRef)
  | elapse (ns cycles : Nat)
  | hostMem (addr : Nat) (b : List Byte)
  | coreTemp (c : CoreRef) (t : Nat)
  | stackTemp (k t : Nat)
  | watts (w : Nat)
  | wire
  | badLine (line : Nat) (bad : Bool)
  | replay (index : Nat) (a : Act)
  deriving DecidableEq, Repr

structure State where
  agenda : List Act
  fuses : Fuses
  dev : Dev
  replays : List Replay
  deriving DecidableEq, Repr

/-- Why a step stops without a next state. -/
inductive Fault where
  /-- An instruction was executed while no thread is marked as issuing it (`Dev.issuer`), or that thread does not exist.
  Raised by every instruction; safe: no hardware instruction issues without a party (R102). -/
  | noIssuer
  /-- An event was executed in a state where it cannot happen: its unit, entry, message or command does not exist, or
  its condition does not hold. Raised by every event; safe: the hardware does not perform such a step. -/
  | notEnabled
  deriving DecidableEq, Repr

/-- Why an operation has no meaning. -/
inductive Refusal where
  /-- An arm of exec whose meaning is not modelled yet; raised by no instruction of the finished model. Safe. -/
  | notModelled (mnemonic : String)
  deriving DecidableEq, Repr

/-! ## Reset -/

/-- An x register at group start: value 0, interval top (R193). -/
def XReg.reset : XReg := ⟨0, 0x80000000, 0x7FFFFFFF⟩

/-- A barrier at group start: uninitialised (R193). -/
def Barrier.reset : Barrier := ⟨0, 0, false, 0, [], false, 0, [], false, 0⟩

/-- An array register at group start (R81). -/
def ArrReg.reset : ArrReg := ⟨0, 0, 0, true, false, false, false⟩

/-- A free lease (R62). -/
def Lease.reset : Lease := ⟨false, 0, 0, 0, 0, 0, [], 0, []⟩

/-- An empty weight slot (R364). -/
def WSlot.reset : WSlot := ⟨none, 0, 0, [], [], none, 0, [], [], [], none⟩

/-- A cleared accumulator tile: float form, +0 (R231). -/
def Tile.reset : Tile := ⟨false, []⟩

/-- A core after reset: every structure empty (R445). -/
def Core.reset (c : CoreRef) : Core :=
  { ref := c, l1 := [], tlb := [], poison := [], pins := [], matrix := [], copy := [], msgs := [],
    slots := List.replicate 8 WSlot.reset, tiles := List.replicate 8 Tile.reset, baton := .free, batonQueue := [],
    owner := none, matSeq := none, copySeq := none, waves := List.replicate 16 none, requests := [], starved := [], opened := [],
    perfselS := 0,
    perfS := [0, 0, 0, 0], cycles := 0, footprints := [], issuing := [] }

/-- The ports of a die (R145). -/
def diePorts (d : Nat) : List Nat :=
  if d = 0 then [0, 1, 2, 3, 4] else if d = 1 then [5, 6, 7, 8, 9] else if d = 2 then [10, 11, 12, 13] else [14, 15, 16, 17]

/-- A die after reset (R445). The audit generator's seed the spec does not give (log 1). -/
def Die.reset (d : Nat) : Die :=
  { idx := d, l2 := [], rdc := [], tlb := [], poison := [], walk := [], exports := [], walks := [], walkTurn := 0,
    pool := [], spill := [], batches := [], entrySeq := 0,
    groupTable := [], bars := [], leases := List.replicate 16 Lease.reset, hold := [], held := [], retried := [],
    redirects := [], migration := none, jobs := [], flowsOut := [], sent := [], flowsIn := [], ports := diePorts d,
    auditGen := 1, budgets := List.replicate 6 ⟨0, 0, 0, 0⟩, throttled := false, hotStacks := [],
    lastMove := 0 }

/-- The device after a cold start (R445): memory zero, every structure empty, every register at its reset value (a
register not listed holds it), BOOTSTAT.state ready. -/
def Dev.reset : Dev :=
  { mem := [], hostMem := [], badLines := [], regs := [], regBus := [], precmd := none, loading := none, cores := [],
    dies := [Die.reset 0, Die.reset 1, Die.reset 2, Die.reset 3], groups := [], gangs := [], slots := [], ops := [], pinRevokes := [],
    transfers := [], events := [], dropped := 0, overruns := [], images := [], wideBars := [], notices := [],
    traverses := [], asks := [], between := [], periodic := [], lastPeriodic := 0, sweeps := [], waitingResets := [], audits := [], auditUsed := 0,
    shadow := none, verified := [],
    boot := 1, on := true, retain := false, warmFail := 0, warmKind := false, bootError := 0,
    emergency := none, capped := 0, now := 0, coreTemp := [], stackTemp := [], watts := 0, softErrors := [], wire := [],
    hostNotices := [], hostReply := none, issuer := none, free := 0, nextId := 0, tick := 0, cycles := 0 }

/-- The machine right after reset: a cold start has completed (R445), nothing is on the agenda (log 4). -/
def State.reset : State := { agenda := [], fuses := ⟨0, 0, 0, [0, 0, 0, 0]⟩, dev := Dev.reset, replays := [] }

end Sys2Proof.Machine
end

