-- ==== Sys2Proof/Machine/Memory.lean ====
section
/-! DEFINITION. Memory as lists of cells in one canonical form (addresses strictly rising, no cell equal to what an
unlisted address reads as), byte order (R216), the memory map of R17, and the named places of the device: cores, dies,
groups, threads, registers, the context table. -/

namespace Sys2Proof.Machine

/-! ## Cells -/

/-- The byte at an address; an address not listed reads as `d`. -/
def cellGet (d : Byte) : List Host.Cell → Nat → Byte
  | [], _ => d
  | (a, b) :: r, k => if k < a then d else if k = a then b else cellGet d r k

/-- The cells with address `k` holding `b`, kept sorted. -/
def cellPut : List Host.Cell → Nat → Byte → List Host.Cell
  | [], k, b => [(k, b)]
  | (a, c) :: r, k, b => if k < a then (k, b) :: (a, c) :: r else if k = a then (k, b) :: r else (a, c) :: cellPut r k b

/-- The cells without address `k`. -/
def cellDrop : List Host.Cell → Nat → List Host.Cell
  | [], _ => []
  | (a, c) :: r, k => if k < a then (a, c) :: r else if k = a then r else (a, c) :: cellDrop r k

/-- Memory reads zero where nothing is listed: a cold start clears it (R445). Host memory is taken alike (log 2). -/
def unlisted : Byte := 0

/-- Write one byte of memory, keeping the canonical form. -/
def memPut (m : List Host.Cell) (k : Nat) (b : Byte) : List Host.Cell :=
  if b = unlisted then cellDrop m k else cellPut m k b

/-- Read one byte of memory. -/
def memGet (m : List Host.Cell) (k : Nat) : Byte := cellGet unlisted m k

/-- Every listed address lies above `lo` and rises, and no cell equals the unlisted byte. -/
def cellsFrom (lo : Nat) : List Host.Cell → Bool
  | [] => true
  | (a, b) :: r => decide (lo ≤ a) && decide (b ≠ unlisted) && cellsFrom (a + 1) r

/-- The canonical form of memory. -/
def Memory.wf (m : List Host.Cell) : Bool := cellsFrom 0 m

/-- `n` bytes from address `a` up. -/
def memRead (m : List Host.Cell) (a : Nat) : Nat → List Byte
  | 0 => []
  | n + 1 => memGet m a :: memRead m (a + 1) n

/-- The cells of bytes from address `a` up, those that hold the unlisted value left out. -/
def blockCells (a : Nat) : List Byte → List Host.Cell
  | [] => []
  | b :: r => if b = unlisted then blockCells (a + 1) r else (a, b) :: blockCells (a + 1) r

/-- Write a list of bytes from address `a` up. -/
def memWrite (m : List Host.Cell) (a : Nat) (b : List Byte) : List Host.Cell :=
  (m.takeWhile fun c => c.1 < a) ++ blockCells a b ++ m.dropWhile fun c => c.1 < a + b.length

/-! ## Byte order (R216) -/

/-- The value of bytes, least significant first. -/
def bytesNat : List Byte → Nat
  | [] => 0
  | b :: r => b.toNat + 256 * bytesNat r

/-- The `n` low bytes of a number, least significant first. -/
def natBytes (k : Nat) : Nat → List Byte
  | 0 => []
  | n + 1 => BitVec.ofNat 8 k :: natBytes (k / 256) n

/-- A 64-bit and a 32-bit value of memory. -/
def memD (m : List Host.Cell) (a : Nat) : DWord := BitVec.ofNat 64 (bytesNat (memRead m a 8))
def memW (m : List Host.Cell) (a : Nat) : Word := BitVec.ofNat 32 (bytesNat (memRead m a 4))

/-- The bits hi:lo of a 64-bit value, as a number. -/
def bits (v : DWord) (hi lo : Nat) : Nat := v.toNat / 2 ^ lo % 2 ^ (hi + 1 - lo)

/-- A flag bit of a number. -/
def bitOf (v n : Nat) : Bool := v / 2 ^ n % 2 == 1

/-! ## Lists -/

/-- The list with element `n` changed by `f`. -/
def updAt {α : Type} (l : List α) (n : Nat) (f : α → α) : List α :=
  match l, n with
  | [], _ => []
  | a :: r, 0 => f a :: r
  | a :: r, n + 1 => a :: updAt r n f

/-- The list with the first element that satisfies `p` changed by `f`. -/
def updBy {α : Type} (p : α → Bool) (f : α → α) : List α → List α
  | [] => []
  | a :: r => if p a then f a :: r else a :: updBy p f r

/-- The list with `f` applied to each element and its index. -/
def mapIdx {α β : Type} (f : Nat → α → β) : Nat → List α → List β
  | _, [] => []
  | n, a :: r => f n a :: mapIdx f (n + 1) r

/-- A fold over a list with the index. -/
def foldIdx {α β : Type} (f : Nat → β → α → β) : Nat → β → List α → β
  | _, b, [] => b
  | n, b, a :: r => foldIdx f (n + 1) (f n b a) r

/-- Insertion into a list kept in the order of `le`. -/
def insertBy {α : Type} (le : α → α → Bool) (a : α) : List α → List α
  | [] => [a]
  | b :: r => if le a b then a :: b :: r else b :: insertBy le a r

/-- The list sorted by `le`, equal elements in their order. -/
def sortBy {α : Type} (le : α → α → Bool) : List α → List α
  | [] => []
  | a :: r => insertBy le a (sortBy le r)

/-- The numbers n, n+1, … : `k` of them. -/
def upFrom (n : Nat) : Nat → List Nat
  | 0 => []
  | k + 1 => n :: upFrom (n + 1) k

/-- The lanes of a 32-bit mask, ascending. -/
def maskLanes (m : Word) : List Nat := (upFrom 0 32).filter fun l => m.getLsbD l

/-- The mask of the lanes below 32 that satisfy `p`. -/
def maskOf (p : Nat → Bool) : Word :=
  (upFrom 0 32).foldl (fun m l => if p l then m ||| (1#32 <<< l) else m) 0

/-! ## The memory map (R17) -/

/-- Whether an LPA is populated HBM4E or LPDDR. -/
def backed (a : Nat) : Bool := a < 0x0C000000000 || (0x20000000000 ≤ a && a < 0x40000000000)

/-- Whether an LPA lies in the device-register space. -/
def isDevice (a : Nat) : Bool := 0x40000000000 ≤ a && a < 0x40100000000

/-- Whether an LPA lies in the LPDDR tier. -/
def isLpddr (a : Nat) : Bool := 0x20000000000 ≤ a && a < 0x40000000000

/-- The die that owns an LPA. -/
def dieOf (a : Nat) : Nat := if isLpddr a then (a - 0x20000000000) / 0x8000000000 else a / 0x3000000000

/-- The first LPA of a die in a tier, and the size of the die's share (R17, R64). -/
def tierStart (lpddr : Bool) (d : Nat) : Nat := if lpddr then 0x20000000000 + d * 0x8000000000 else d * 0x3000000000
def tierSize (lpddr : Bool) : Nat := if lpddr then 0x8000000000 else 0x3000000000

/-- The line of an address (R43). -/
def lineOf (a : Nat) : Nat := a / 128

/-! ## Cores, dies, groups, threads -/

/-- A core: as held, or as after reset. -/
def Dev.core (d : Dev) (c : CoreRef) : Core := (d.cores.find? fun k => k.ref = c).getD (Core.reset c)

/-- Replace a core. -/
def putCore (k : Core) : List Core → List Core
  | [] => [k]
  | a :: r => if a.ref = k.ref then k :: r else a :: putCore k r

def Dev.setCore (d : Dev) (k : Core) : Dev := { d with cores := putCore k d.cores }
def Dev.onCore (d : Dev) (c : CoreRef) (f : Core → Core) : Dev := d.setCore (f (d.core c))

def Dev.die (d : Dev) (n : Nat) : Die := d.dies.getD n (Die.reset n)
def Dev.onDie (d : Dev) (n : Nat) (f : Die → Die) : Dev := { d with dies := updAt d.dies n f }

def Dev.group (d : Dev) (gid : Nat) : Option Group := d.groups.find? fun g => g.gid = gid
def Dev.onGroup (d : Dev) (gid : Nat) (f : Group → Group) : Dev :=
  { d with groups := updBy (fun g => g.gid = gid) f d.groups }
def Dev.gang (d : Dev) (id : Nat) : Option Gang := d.gangs.find? fun g => g.id = id
def Dev.onGang (d : Dev) (id : Nat) (f : Gang → Gang) : Dev :=
  { d with gangs := updBy (fun g => g.id = id) f d.gangs }

/-- The thread a reference names. -/
def Dev.thread (d : Dev) (r : ThreadRef) : Option Thread :=
  match r with
  | .warp gid wid => (d.group gid).bind fun g => g.warps.find? fun w => w.wid = wid
  | .seq c copy => (if copy then (d.core c).copySeq else (d.core c).matSeq).map fun p => p.thread
  | .wave c slot => ((d.core c).waves.getD slot none).map fun w => w.thread

/-- Change a thread. -/
def Dev.onThread (d : Dev) (r : ThreadRef) (f : Thread → Thread) : Dev :=
  match r with
  | .warp gid wid => d.onGroup gid fun g => { g with warps := updBy (fun w => w.wid = wid) f g.warps }
  | .seq c true => d.onCore c fun k => { k with copySeq := k.copySeq.map fun p => { p with thread := f p.thread } }
  | .seq c false => d.onCore c fun k => { k with matSeq := k.matSeq.map fun p => { p with thread := f p.thread } }
  | .wave c slot => d.onCore c fun k =>
      { k with waves := updAt k.waves slot fun w => w.map fun w => { w with thread := f w.thread } }

/-- The group of a thread: a sequencer program belongs to the forking warp's group; a wave has none. -/
def Dev.groupOf (d : Dev) (r : ThreadRef) : Option Group :=
  match r with
  | .warp gid _ => d.group gid
  | .seq c copy => (if copy then (d.core c).copySeq else (d.core c).matSeq).bind fun p => d.group p.gid
  | .wave _ _ => none

/-- The core a thread runs on. -/
def Dev.coreOf (d : Dev) (r : ThreadRef) : CoreRef :=
  match r with
  | .warp gid _ => ((d.group gid).map fun g => g.core).getD ⟨0, false, 0⟩
  | .seq c _ => c
  | .wave c _ => c

/-- The context a thread runs in. -/
def Dev.ctxOf (d : Dev) (r : ThreadRef) : Nat :=
  match r with
  | .wave c slot => (((d.core c).waves.getD slot none).bind fun w => w.reqs.head?.map fun q => q.ctx).getD 0
  | _ => ((d.groupOf r).map fun g => g.ctx).getD 0

/-- A free 64-bit value, and the counter moved on (log 3). -/
def Dev.fresh (d : Dev) : DWord × Dev := (Config.freeValue d.free, { d with free := d.free + 1 })

/-- A free choice among `n`, and the counter moved on (log 3). -/
def Dev.choose (d : Dev) (n : Nat) : Nat × Dev := (Config.freeChoice d.free % n, { d with free := d.free + 1 })

/-! ## Device registers -/

/-- Reset values of the registers (R62, R94, R166, R402, R404, R419, R425, R447). ABUD0's budget is computed by the part;
0 here (log 1). -/
def regReset : Reg → DWord
  | .leasecap _ => 384
  | .fabctl => BitVec.ofNat 64 (5000 * 2 ^ 28 + 3 * 2 ^ 24 + 1000 * 2 ^ 12 + 20)
  | .thermctl => BitVec.ofNat 64 (4 * 2 ^ 16 + 95 * 2 ^ 8 + 80)
  | .qtimer _ => BitVec.ofNat 64 (50 * 2 ^ 16 + 200)
  | .abud _ n => BitVec.ofNat 64 (1000 * 2 ^ 32 +
      (if n = 1 then 20 else if n = 2 then 50 else if n = 3 then 20 else if n = 4 then 100 else if n = 5 then 10 else 0)
        * 2 ^ 16)
  | .pwrctl => 2600
  | _ => 0

/-- The stored value of a register. -/
def Dev.reg (d : Dev) (r : Reg) : DWord := ((d.regs.find? fun p => p.1 = r).map fun p => p.2).getD (regReset r)

/-- Store a register's value. -/
def Dev.setReg (d : Dev) (r : Reg) (v : DWord) : Dev :=
  { d with regs := (r, v) :: d.regs.filter fun p => p.1 ≠ r }

/-- The package's number (R18, R448). -/
def Dev.pkgNum (d : Dev) : Nat := bits (d.reg .pkgcfg) 12 0

/-- Whether the package's number is fixed (R448). -/
def Dev.pkgLocked (d : Dev) : Bool := bits (d.reg .pkgcfg) 63 63 == 1

/-- Whether the fabric interfaces send messages and take arriving ones in: the number is fixed (R448), and the package runs (log 32). -/
def Dev.linkUp (d : Dev) : Bool := d.pkgLocked && d.boot == 1

/-! ## Home points (R44, R98) -/

/-- Where an LPA leads through at most `n` redirects, each of the die that the address before it lies on. -/
def Dev.homeIn (d : Dev) : Nat → Nat → Nat
  | 0, a => a
  | n + 1, a =>
    match (d.die (dieOf a)).redirects.find? fun r => r.1 ≤ a && a < r.1 + r.2.2 with
    | some r => d.homeIn n (r.2.1 + (a - r.1))
    | none => a

/-- Where an LPA leads at its home point: a redirect forwards it, and where the frame it names was migrated again, the redirect of
that frame's home point does so too (R98). -/
def Dev.home (d : Dev) (lpa : Nat) : Nat := d.homeIn ((d.dies.map fun k => k.redirects.length).sum) lpa

/-- Read bytes of this package's memory at the home point. -/
def Dev.homeRead (d : Dev) (lpa n : Nat) : List Byte := memRead d.mem (d.home lpa) n

/-- Write bytes of this package's memory at the home point. -/
def Dev.homeWrite (d : Dev) (lpa : Nat) (b : List Byte) : Dev := { d with mem := memWrite d.mem (d.home lpa) b }

/-- A 64-bit and a 32-bit value at the home point. -/
def Dev.homeD (d : Dev) (lpa : Nat) : DWord := memD d.mem (d.home lpa)
def Dev.homeW (d : Dev) (lpa : Nat) : Word := memW d.mem (d.home lpa)

/-- The bytes other than 0 of a span of memory that starts at a page, at their home points: offset and value, rising page by
page. -/
def Dev.homeCells (d : Dev) (lpa n : Nat) : List (Nat × Byte) :=
  let from_ := fun (h k o : Nat) => (d.mem.filter fun c => h ≤ c.1 && c.1 < h + k).map fun c => (c.1 - h + o, c.2)
  if d.dies.all fun k => k.redirects.isEmpty then from_ lpa n 0
  else (upFrom 0 ((n + 4095) / 4096)).flatMap fun p => from_ (d.home (lpa + 4096 * p)) (min 4096 (n - 4096 * p)) (4096 * p)

/-- `n` bytes from a position of sorted cells, with what an unlisted one reads as. -/
def cellsBytes (free : Nat → Byte) : List Host.Cell → Nat → Nat → List Byte
  | _, _, 0 => []
  | [], a, n + 1 => free a :: cellsBytes free [] (a + 1) n
  | (k, c) :: r, a, n + 1 => if k = a then c :: cellsBytes free r (a + 1) n else free a :: cellsBytes free ((k, c) :: r) (a + 1) n

/-- `n` bytes of memory from an address. -/
def memSpan (m : List Host.Cell) (a n : Nat) : List Byte := cellsBytes (fun _ => unlisted) (m.dropWhile fun c => c.1 < a) a n

/-- The parts of a span of memory that have one home: the whole of it while nothing is redirected, else page by page (R98). -/
def Dev.homeParts (d : Dev) (a n : Nat) : List (Nat × Nat) :=
  if d.dies.all fun k => k.redirects.isEmpty then [(a, n)]
  else (upFrom (a / 4096) ((a + n + 4095) / 4096 - a / 4096)).map fun p =>
    let lo := max a (p * 4096)
    (lo, min (a + n) (p * 4096 + 4096) - lo)

/-- A span of memory, read and written at its home points. -/
def Dev.homeSpan (d : Dev) (a n : Nat) : List Byte := (d.homeParts a n).flatMap fun p => memSpan d.mem (d.home p.1) p.2
def Dev.homePut (d : Dev) (a : Nat) (b : List Byte) : Dev :=
  (d.homeParts a b.length).foldl (fun d p => d.homeWrite p.1 ((b.drop (p.1 - a)).take p.2)) d

/-! ## The context table (R401) -/

/-- LPA of a context's entry. -/
def Dev.ctxEntry (d : Dev) (ctx : Nat) : Nat := bits (d.reg .ctxbase) 42 19 * 2 ^ 19 + 128 * ctx

/-- A 64-bit field of a context's entry; every context is absent while CTXBASE is zero (R445). -/
def Dev.ctxD (d : Dev) (ctx off : Nat) : DWord :=
  if bits (d.reg .ctxbase) 42 19 = 0 then 0 else d.homeD (d.ctxEntry ctx + off)

/-- A 32-bit field of a context's entry. -/
def Dev.ctxW (d : Dev) (ctx off : Nat) : Word :=
  if bits (d.reg .ctxbase) 42 19 = 0 then 0 else d.homeW (d.ctxEntry ctx + off)

/-- V, the supervisor mark S, and the epoch of a context (R401). -/
def Dev.ctxValid (d : Dev) (ctx : Nat) : Bool := bits (d.ctxD ctx 0) 63 63 == 1
def Dev.ctxSuper (d : Dev) (ctx : Nat) : Bool := bits (d.ctxD ctx 0) 62 62 == 1
def Dev.ctxEpoch (d : Dev) (ctx : Nat) : BitVec 4 := BitVec.ofNat 4 (bits (d.ctxD ctx 0) 61 58)

/-- The containment tag of a context (R74, R435). -/
def mkTag (ctx : Nat) (epoch : BitVec 4) : BitVec 16 := BitVec.ofNat 12 ctx ++ epoch
def Dev.tag (d : Dev) (ctx : Nat) : BitVec 16 := mkTag ctx (d.ctxEpoch ctx)
def tagCtx (t : BitVec 16) : Nat := (t.extractLsb' 4 12).toNat

/-- The tag under which a thread accesses memory: its group's epoch, or the target context's (R74, R170). -/
def Dev.tagOf (d : Dev) (r : ThreadRef) : BitVec 16 :=
  match d.groupOf r with
  | some g => mkTag g.ctx g.epoch
  | none => d.tag (d.ctxOf r)

/-! ## Fields of a task record (R409) -/

def recD (r : List Byte) (off : Nat) : DWord := BitVec.ofNat 64 (bytesNat ((r.drop off).take 8))
def recFlags (r : List Byte) : DWord := recD r 40
def recCopy (r : List Byte) : Bool := bits (recFlags r) 63 63 == 1
def recIdem (r : List Byte) : Bool := bits (recFlags r) 62 62 == 1
def recAudit (r : List Byte) : Bool := bits (recFlags r) 61 61 == 1
def recScope (r : List Byte) : Nat := bits (recFlags r) 59 57
def recBand (r : List Byte) : Nat := bits (recFlags r) 56 55
def recGang (r : List Byte) : Nat := bits (recFlags r) 53 52 + 1
def recWarps (r : List Byte) : Nat := bits (recFlags r) 51 47 + 1
def recGblk (r : List Byte) : Nat := bits (recFlags r) 46 43
def recXq (r : List Byte) : Nat := bits (recFlags r) 42 41
def recScr (r : List Byte) : Nat := bits (recFlags r) 40 36
def recPriv (r : List Byte) : Nat := 16 * bits (recFlags r) 35 23
def recPlace (r : List Byte) : Nat := bits (recFlags r) 22 21
/-- The context of a record, bits 31:20 of the owner field. -/
def recCtx (r : List Byte) : Nat := bytesNat ((r.drop 48).take 4) / 2 ^ 20 % 2 ^ 12
def recEpoch (r : List Byte) : BitVec 4 := BitVec.ofNat 4 (bytesNat ((r.drop 52).take 1))

/-- Private bytes per lane of a group (R25). -/
def Group.priv (g : Group) : Nat := recPriv g.record.bytes

/-- Scratch bytes a group holds now (R30, R202). -/
def Group.scratchBytes (g : Group) : Nat := g.units * 0x4000

end Sys2Proof.Machine
end

