-- ==== Sys2Proof/Machine/Regs.lean ====
section
/-! DEFINITION. The device-register space (R17): which register lies at an LPA, what reading one answers, and which of
its bits a write changes (R62, R94, R100, R166, R402 to R404, R419, R425, R447). -/

namespace Sys2Proof.Machine

/-- The register of a per-die block at an offset. -/
def leaseReg (d off : Nat) : Option Reg :=
  if off < 0x80 then some (.lse d (off / 8)) else if off = 0x80 then some (.leasecap d)
  else if off = 0x88 then some (.lsectl d) else none
def poisonReg (d off : Nat) : Option Reg :=
  if off = 0 then some (.poisonbase d) else if off = 8 then some (.poisoncmd d) else if off = 0x10 then some (.migcmd d)
  else if off = 0x18 then some (.migdst d) else if off = 0x20 then some (.migpte d)
  else if off = 0x28 then some (.migstat d) else none
def fabricReg (d off : Nat) : Option Reg :=
  if off = 0 then (if d = 0 then some .fabctl else none) else if off = 8 then some (.fabjsel d)
  else if off = 0x10 then some (.fabjinj d) else if off = 0x18 then some (.fabjcon d)
  else if off = 0x20 then some (.fabjstat d) else if off = 0x28 then (if d = 0 then some .presbase else none) else none
def svcReg (off : Nat) : Option Reg :=
  [Reg.svcring, .svchead, .svctail, .faultbase, .savepool, .savefree, .precmd, .prestat, .audctl, .audk][off / 8]?
def bootReg (off : Nat) : Option Reg :=
  [Reg.bootstat, .bootcmd, .stagebase, .secver, .fusecmd, .keystat, .loadcmd, .loaddst, .loadva, .loadstat, .pwrctl,
    .pwrstat, .pkgcfg][off / 8]?
def slotReg (q off : Nat) : Option Reg :=
  if off = 0 then some (.qnotify q)
  else if off < 0x1000 then none
  else [Reg.qctl q, .qring q, .qtaila q, .qhead q, .qtail q, .qperiod q, .qbudget q, .qstat q, .qtimer q][(off - 0x1000) / 8]?

/-- The register at an LPA; none for a reserved address. -/
def regAt (lpa : Nat) : Option Reg :=
  let o := lpa - 0x40000000000
  if lpa < 0x40000000000 || o % 8 ≠ 0 then none
  else if 0x100000 ≤ o && o < 0x140000 then leaseReg ((o - 0x100000) / 0x10000) (o % 0x10000)
  else if 0x200000 ≤ o && o < 0x240000 then poisonReg ((o - 0x200000) / 0x10000) (o % 0x10000)
  else if 0x300000 ≤ o && o < 0x340000 then fabricReg ((o - 0x300000) / 0x10000) (o % 0x10000)
  else if o = 0x400000 then some .ctxbase
  else if o = 0x400008 then some .thermctl
  else if o = 0x400010 then some .overstat
  else if 0x500000 ≤ o && o < 0x540000 then
    (if o % 0x10000 < 0x30 then some (.abud ((o - 0x500000) / 0x10000) (o % 0x10000 / 8)) else none)
  else if 0x600000 ≤ o && o < 0x600050 then svcReg (o - 0x600000)
  else if 0x700000 ≤ o && o < 0x700068 then bootReg (o - 0x700000)
  else if 0x1000000 ≤ o && o < 0x1800000 then slotReg ((o - 0x1000000) / 0x2000) (o % 0x2000)
  else none

/-- The bits of a register that a write stores; the others keep their value (R6). -/
def regMask : Reg → Nat
  | .leasecap _ => 0x1FF
  | .poisonbase _ => 0x7FFFFE00000
  | .migcmd _ => 0x600007FFFFFFF000
  | .migdst _ => 0x7FFFFFFF000
  | .migpte _ => 0x7FFFFFFFFF0
  | .fabctl => 0xFFFFFFFFFFF
  | .fabjsel _ => 0xFFFFF
  | .presbase => 0x7FFFFFFFC00
  | .ctxbase => 0x7FFFFF80000
  | .thermctl => 0xFFFFFFFF
  | .qctl _ => 0xFFFFFC0000000000
  | .qring _ => 0xFFFFFFFFFFF01F
  | .qtaila _ => 0xFFFFFFFFFFFFFFFF
  | .qhead _ => 0xFFFFFFFF
  | .qperiod _ => 0xFFFFFFFF
  | .qbudget _ => 0xFFFFFFFF
  | .qtimer _ => 0xFFFFFFFF
  | .abud _ n => if n = 0 then 0 else 0xFFFFFFF0000
  | .svcring => 0x7FFFFFFF01F
  | .svctail => 0xFFFFFFFF
  | .faultbase => 0x7FFFFFE0000
  | .savepool => 0xFFFF07FFFFE00000
  | .audctl => 0x800007FFFFFF001F
  | .audk => 0x7FFFFFFF000
  | .stagebase => 0x7FFC0000000
  | .loadcmd => 0x7FFFFFFFFF8
  | .loaddst => 0x7FFFFFFF000
  | .loadva => 0xFFFFFFFFFFF000
  | .pwrctl => 0xFFF
  | .pkgcfg => 0x8000000000001FFF
  | _ => 0

/-- Put a field hi:lo of a 64-bit value. -/
def field (lo n : Nat) : Nat := n * 2 ^ lo

/-- The job counter entry selected by FABJSEL on a die (R166). -/
def Dev.jobSelected (d : Dev) (die : Nat) : Option JobEntry :=
  (d.die die).jobs.find? fun j => j.ctx = bits (d.reg (.fabjsel die)) 19 8 && j.job = bits (d.reg (.fabjsel die)) 7 0

/-- µs from now to a time in ns, rounded up. -/
def Dev.usUntil (d : Dev) (t : Nat) : Nat := (t - d.now + 999) / 1000

/-- Image slots in use (R425): one for each member of a gang that is held. -/
def Dev.imagesUsed (d : Dev) : Nat := (d.images.map fun i => i.groups.length).sum

/-- The hottest of a list of temperatures (R447). -/
def maxOf (l : List Nat) : Nat := l.foldl max 0

/-- The power and thermal state (R453): 3 emergency stop, 2 a die throttled, 1 capped, 0 normal. -/
def Dev.powerState (d : Dev) : Nat :=
  if d.boot = 3 then 3 else if d.dies.any fun k => k.throttled then 2 else if d.capped ≠ 0 then 1 else 0

/-- What a read of a register answers: fields the part computes are computed; write-only fields read zero (R403). -/
def Dev.readReg (d : Dev) (secver : BitVec 16) (revoked : BitVec 4) (r : Reg) : DWord :=
  match r with
  | .lse die n =>
    let l := (d.die die).leases.getD n Lease.reset
    BitVec.ofNat 64 (field 63 l.valid.toNat + field 51 (if l.valid then tagCtx l.tag else 0)
      + field 47 (if l.valid then (l.tag.extractLsb' 0 4).toNat else 0) + field 40 (if l.valid then l.units else 0)
      + field 24 l.gen.toNat + (if l.valid then min (d.usUntil l.expiry) 0xFFFFFF else 0))
  | .lsectl _ => 0
  | .poisoncmd _ => 0
  | .migcmd _ => d.reg r &&& 0x600007FFFFFFF000
  | .fabjinj die => ((d.jobSelected die).map fun j => j.injected).getD 0
  | .fabjcon die => ((d.jobSelected die).map fun j => j.consumed).getD 0
  | .fabjstat die =>
    match d.jobSelected die with
    | some j => BitVec.ofNat 64 (field 63 1 + field 62 j.activity.toNat + field 61 j.lossy.toNat
        + field 54 (min j.doubt 127) + j.lost)
    | none => 0
  | .overstat => match d.overruns with
    | q :: _ => BitVec.ofNat 64 (field 63 1 + q)
    | [] => 0
  | .qnotify _ => 0
  | .qstat q =>
    match d.slots.find? fun s => s.q = q with
    | some s => BitVec.ofNat 64 (field 32 s.remain + (if d.reg (.qperiod q) = 0 then 0 else d.usUntil s.deadline))
    | none => 0
  | .abud die n => d.reg r ||| BitVec.ofNat 64 (min (((d.die die).budgets[n]?).elim 0 Budget.shown) 0xFFFF)
  | .svchead => d.reg r ||| BitVec.ofNat 64 (field 32 (min d.dropped 0xFFFFFFFF))
  | .savefree => BitVec.ofNat 64 (bits (d.reg .savepool) 63 48 - d.imagesUsed)
  | .precmd => 0
  | .prestat => d.reg r ||| BitVec.ofNat 64 (field 63 d.precmd.isSome.toNat)
  | .loadstat => d.reg r ||| BitVec.ofNat 64 (field 63 d.loading.isSome.toNat)
  | .bootstat => BitVec.ofNat 64 (field 8 d.bootError + field 6 d.warmFail + field 5 d.warmKind.toNat
      + field 4 d.retain.toNat + d.boot)
  | .bootcmd => 0
  | .secver => secver.setWidth 64
  | .fusecmd => 0
  | .keystat => revoked.setWidth 64
  | .loadcmd => d.reg r &&& 0x7FFFFFFFFF8
  | .pwrstat => BitVec.ofNat 64 (field 56 (min 255 (maxOf (d.coreTemp.map fun p => p.2)))
      + field 48 (min 255 (maxOf (d.stackTemp.map fun p => p.2))) + field 16 d.powerState + min 0xFFFF d.watts)
  | r => d.reg r

/-- The value a write leaves in a register's stored bits, with the limits of R62, R402, R447. -/
def Dev.storeReg (d : Dev) (r : Reg) (v : DWord) : Dev :=
  let m := BitVec.ofNat 64 (regMask r)
  let w := (d.reg r &&& ~~~m) ||| (v &&& m)
  let w :=
    match r with
    | .leasecap _ => if 384 < w.toNat then 384 else w
    | .thermctl => if bits w 31 16 < 4 then (w &&& 0xFFFF) ||| 0x40000 else w
    | .pwrctl => if w.toNat < 1000 then 1000 else if 2600 < w.toNat then 2600 else w
    | _ => w
  d.setReg r w

end Sys2Proof.Machine
end

