-- ==== Sys2Proof/Machine/Translate.lean ====
section
/-! DEFINITION. Translation and poison (R12 to R22, R64, R72 to R79, R89 to R93, R479): the walk, the TLBs, the walk and
poison caches, the pins, and where an access goes. -/

namespace Sys2Proof.Machine

/-! ## Poison and compression maps (R89) -/

/-- The frame index of an LPA on its die. -/
def frameIndex (a : Nat) : Nat :=
  if isLpddr a then 0x3000000 + (a - tierStart true (dieOf a)) / 4096 else (a - tierStart false (dieOf a)) / 4096

/-- The LPA of the first of the 512 frames whose bits are chunk `n` of a die's map (R90). -/
def poisonChunkStart (die n : Nat) : Nat :=
  if 512 * n < 0x3000000 then tierStart false die + n * 0x200000 else tierStart true die + (512 * n - 0x3000000) * 4096

/-- Where a die's maps lie (R89): the base as it stands, zero included (log 12). -/
def Dev.mapBase (d : Dev) (die : Nat) : Nat := bits (d.reg (.poisonbase die)) 42 21 * 2 ^ 21

/-- Bit `n` of a map at `base`. -/
def mapBit (m : List Host.Cell) (base n : Nat) : Bool := (memGet m (base + n / 8)).getLsbD (n % 8)

/-- Set or clear bit `n` of a map at `base`. -/
def mapPut (m : List Host.Cell) (base n : Nat) (v : Bool) : List Host.Cell :=
  let b := memGet m (base + n / 8)
  let k : Byte := 1#8 <<< (n % 8)
  memPut m (base + n / 8) (if v then b ||| k else b &&& ~~~k)

/-- Whether a frame's poison bit is set. -/
def Dev.poisoned (d : Dev) (a : Nat) : Bool :=
  backed a && mapBit d.mem (d.mapBase (dieOf a)) (frameIndex a)

/-- Whether a frame's compression bit is set (R65). -/
def Dev.compressed (d : Dev) (a : Nat) : Bool :=
  backed a && mapBit d.mem (d.mapBase (dieOf a) + 0x1600000) (frameIndex a)

/-- The number of listed cells in a span of addresses that satisfy `p`. -/
def countCells (m : List Host.Cell) (a n : Nat) (p : Byte → Bool) : Nat :=
  (m.filter fun c => a ≤ c.1 && c.1 < a + n && p c.2).length

/-- The pieces of contiguous LPAs a page covers: one, or a quarter on each die when it is interleaved (R64). -/
def pageParts (lpa size : Nat) (inter : Bool) : List (Nat × Nat) :=
  if inter then
    let q := lpa - tierStart (isLpddr lpa) (dieOf lpa)
    [0, 1, 2, 3].map fun die => (tierStart (isLpddr lpa) die + q, size / 4)
  else [(lpa, size)]

/-- Whether a contiguous part of a page has no poisoned frame: by the frame's bit for 4 KiB, else by the summary bits of
its 2 MiB spans (R90). -/
def Dev.partClean (d : Dev) (lpa size pageSize : Nat) : Bool :=
  let b := d.mapBase (dieOf lpa)
  if pageSize = 4096 then !mapBit d.mem b (frameIndex lpa)
  else (upFrom (frameIndex lpa / 512) (max 1 (size / 0x200000))).all fun n => !mapBit d.mem (b + 0x2C00000) n

/-- Whether every frame of a contiguous part has the given compression bit: R46 compares cmp with "the frame's bit", and of a page
of several frames the model takes every frame (DESIGN CHOICE, log 44). -/
def Dev.partCmp (d : Dev) (lpa size : Nat) (v : Bool) : Bool :=
  let b := d.mapBase (dieOf lpa) + 0x1600000
  if size < 8 * 4096 then (upFrom (frameIndex lpa) (size / 4096)).all fun n => mapBit d.mem b n == v
  else if v then countCells d.mem (b + frameIndex lpa / 8) (size / 4096 / 8) (fun x => x = 0xFF) = size / 4096 / 8
  else countCells d.mem (b + frameIndex lpa / 8) (size / 4096 / 8) (fun _ => true) = 0

/-! ## Walks (R72 to R75) -/

/-- The fields of a leaf entry (R74). -/
def leafOf (w0 w1 : DWord) : Leaf :=
  { size := 4096, kind := bits w0 61 60, attr := BitVec.ofNat 9 (bits w0 59 51), w := bits w0 50 50 == 1, f := bits w0 49 49 == 1,
    mig := bits w0 48 48 == 1, frame := bits w0 43 0, owner := BitVec.ofNat 16 (bits w1 63 48), peer := bits w1 47 36 }

/-- Fields of the attribute (R45). -/
def Leaf.level (l : Leaf) : Nat := (l.attr.extractLsb' 7 2).toNat
def Leaf.write (l : Leaf) : Nat := (l.attr.extractLsb' 5 2).toNat
def Leaf.cmp (l : Leaf) : Bool := l.attr.getLsbD 4
def Leaf.evict (l : Leaf) : Nat := (l.attr.extractLsb' 2 2).toNat
def Leaf.inter (l : Leaf) : Bool := l.attr.getLsbD 1
def Leaf.lpddr (l : Leaf) : Bool := l.attr.getLsbD 0

/-- What a walk answers. -/
inductive WalkOut where
  | ok (e : TlbEntry)
  | bad (sub : Nat)
  deriving DecidableEq, Repr

/-- Whether a package is present in the domain: the map is read through the home point of the die that holds it; without a map
only this package is (R20). -/
def Dev.present (d : Dev) (pkg : Nat) : Bool :=
  if bits (d.reg .presbase) 42 10 = 0 then pkg == d.pkgNum
  else mapBit d.mem (d.home (bits (d.reg .presbase) 42 10 * 2 ^ 10)) pkg

/-- The reserved frame bits of a leaf (R74): 43:31 of kind 0b00, 43:40 of kind 0b10. -/
def Leaf.frameReserved (l : Leaf) : Bool := (l.kind = 0 && 2 ^ 31 ≤ l.frame) || (l.kind = 2 && 2 ^ 40 ≤ l.frame)

/-- The checks of a leaf of region 0 (R17, R46, R64, R75). A page of device registers has no tier and no compression bit, so those
two checks of R46 are not made of it (DESIGN CHOICE, log 44). -/
def Dev.leafBad0 (d : Dev) (sup : Bool) (l : Leaf) (size : Nat) : Option Nat :=
  let lpa := l.frame * 4096
  let inter := l.inter && size != 4096
  let q := lpa - tierStart (isLpddr lpa) (dieOf lpa)
  if l.kind ≠ 0 then some 4
  else if isDevice lpa then
    (if !sup then some 5 else if l.level = 3 || l.write = 3 then some 6 else if lpa % size ≠ 0 then some 7 else none)
  else if !backed lpa then some 5
  else if l.level = 3 || l.write = 3 || l.lpddr ≠ isLpddr lpa then some 6
  else if (if inter then q % (size / 4) ≠ 0 || tierSize (isLpddr lpa) < q + size / 4 else lpa % size ≠ 0 : Bool) then some 7
  else if !((pageParts lpa size inter).all fun p => d.partCmp p.1 p.2 l.cmp) then some 6
  else none

/-- The checks of a leaf of region 1 (R15, R20, R46, R75, R448). Device registers are refused in every context: R17 gives them to
supervisors without naming the region, and the model gives them no peer mapping (DESIGN CHOICE, log 44). -/
def Dev.leafBad1 (d : Dev) (l : Leaf) (size : Nat) : Option Nat :=
  let lpa := l.frame % 2 ^ 31 * 4096
  if l.kind ≠ 1 then some 4
  else if !d.pkgLocked || !d.present (l.frame / 2 ^ 31) || !backed lpa then some 5
  else if l.level = 3 || l.write = 3 || l.lpddr ≠ isLpddr lpa || l.inter then some 6
  else if lpa % size ≠ 0 then some 7
  else none

/-- The checks of a leaf of region 2. -/
def leafBad2 (l : Leaf) (size : Nat) : Option Nat :=
  if l.kind ≠ 2 then some 4
  else if l.frame * 4096 % size ≠ 0 then some 7
  else none

/-- The reserved bits of a leaf entry (R74). -/
def leafReserved (region : Nat) (w0 w1 : DWord) : Bool :=
  bits w0 47 44 != 0 || bits w1 35 0 != 0 || (region != 0 && bits w1 63 48 != 0) || (region != 1 && bits w1 47 36 != 0)

/-- The levels of a walk, root first: the shift of the index and its width (R73). -/
def walkLevels : List (Nat × Nat) := [(39, 15), (30, 9), (21, 9), (12, 9)]

/-- Follow the tables from one at `table` through the levels left. Entries read come from the walk cache or from
the home points of the dies that hold them (R73), and the valid ones read are returned for the cache. -/
def Dev.walkFrom (d : Dev) (die : Nat) (sup : Bool) (tag : BitVec 16) (va : Nat) :
    List (Nat × Nat) → Nat → List WalkEntry → WalkOut × List WalkEntry
  | [], _, acc => (.bad 2, acc)
  | (shift, width) :: rest, table, acc =>
    let region := va / 2 ^ 54
    let addr := table + 16 * (va / 2 ^ shift % 2 ^ width)
    let cached := (d.die die).walk.find? fun e => e.lpa = addr && e.tag = tag
    let w0 := (cached.map fun e => e.w0).getD (d.homeD addr)
    let w1 := (cached.map fun e => e.w1).getD (d.homeD (addr + 8))
    let base := va / 2 ^ shift * 2 ^ shift
    let acc := if cached.isSome then acc else ⟨addr, w0, w1, base, 2 ^ shift, tag⟩ :: acc
    if bits w0 63 63 = 0 then (.bad 1, acc.drop (if cached.isSome then 0 else 1))
    else if bits w0 62 62 = 1 then
      if shift = 39 then (.bad 2, acc)
      else if leafReserved region w0 w1 then (.bad 3, acc)
      else if (leafOf w0 w1).frameReserved then (.bad 3, acc)
      else
        let size := 2 ^ shift
        let l := { leafOf w0 w1 with size := size }
        let bad := if region = 0 then d.leafBad0 sup l size else if region = 1 then d.leafBad1 l size else leafBad2 l size
        match bad with
        | some k => (.bad k, acc)
        | none =>
          let lpa := l.frame % 2 ^ 31 * 4096
          let own := region = 0 || (region = 1 && l.frame / 2 ^ 31 = d.pkgNum)
          let clean := own && backed lpa &&
            (pageParts lpa size (region = 0 && l.inter && size != 4096)).all fun p => d.partClean p.1 p.2 size
          (.ok ⟨base, size, l, tag, clean, []⟩, acc)
    else if rest.isEmpty then (.bad 2, acc)
    else if bits w0 61 44 ≠ 0 || w1 ≠ 0 || bits w0 43 0 ≥ 2 ^ 31 || bits w0 43 0 % 2 ≠ 0 || !backed (bits w0 43 0 * 4096)
    then (.bad 3, acc)
    else d.walkFrom die sup tag va rest (bits w0 43 0 * 4096) acc

/-- Keep a cache of a given capacity: past it, a free choice leaves. -/
def Dev.trim {α : Type} (d : Dev) (cap : Nat) (l : List α) : List α × Dev :=
  if l.length ≤ cap then (l, d)
  else
    let (n, d) := d.choose (l.length - 1)
    (l.take (n + 1) ++ l.drop (n + 2), d)

/-- The L2 TLB of a core: its quad's, or that of the home cores (R76). -/
def quadKey (c : CoreRef) : Nat := if c.home then 16 else c.idx / 4

/-- Put an entry into a core's L1 TLB. -/
def Dev.fillL1Tlb (d : Dev) (c : CoreRef) (e : TlbEntry) : Dev :=
  let (l, d) := d.trim 64 (e :: (d.core c).tlb)
  d.onCore c fun k => { k with tlb := l }

/-- Put an entry into a quad's L2 TLB. -/
def Dev.fillL2Tlb (d : Dev) (die key : Nat) (e : TlbEntry) : Dev :=
  let mine := (d.die die).tlb.filter fun p => p.1 = key
  let others := (d.die die).tlb.filter fun p => p.1 ≠ key
  let (l, d) := d.trim 2048 ((key, e) :: mine)
  d.onDie die fun k => { k with tlb := l ++ others }

/-- Whether a TLB entry maps an address under a tag (R76). -/
def TlbEntry.hits (e : TlbEntry) (tag : BitVec 16) (va : Nat) : Bool := e.tag = tag && e.va ≤ va && va < e.va + e.size

/-! ## Export tables (R22, R479) -/

/-- The valid entries of a context's export table in memory. -/
def Dev.exportTable (d : Dev) (tag : BitVec 16) : List (DWord × DWord) :=
  let t := (d.ctxD (tagCtx tag) 104).toNat
  if t = 0 then []
  else ((d.homeCells t 4096).filter fun c => c.1 % 16 == 7 && c.2.getLsbD 7).map fun c => (d.homeD (t + c.1 - 7), d.homeD (t + c.1 + 1))

/-- The export entries of a context that the home points of a die go by: those they cache, or the table's. -/
def Dev.exportEntries (d : Dev) (die : Nat) (tag : BitVec 16) : List (DWord × DWord) :=
  (((d.die die).exports.find? fun x => x.1 = tag).map fun x => x.2).getD (d.exportTable tag)

/-- A check against a context's export table leaves its entries in the cache of the die's home points, until TLBI.ctx of the context,
TLBI.pkg, its reset or that of the die (R22; the cache's size the spec does not give, log 10). -/
def Dev.keepExports (d : Dev) (die : Nat) (tag : BitVec 16) : Dev :=
  if (d.die die).exports.any fun x => x.1 = tag then d
  else
    let l := d.exportTable tag
    d.onDie die fun k => { k with exports := (tag, l) :: k.exports }

/-- What an export entry exports: first LPA, length, whether for writing; nothing when its span leaves one die's memory of one tier
(R22). -/
def exportSpan (x : DWord × DWord) : Option (Nat × Nat × Bool) :=
  let base := bits x.1 42 12 * 4096
  let n := (bits x.2 30 0 + 1) * 4096
  if backed base && backed (base + n - 1) && dieOf base == dieOf (base + n - 1) && isLpddr base == isLpddr (base + n - 1) then
    some (base, n, bits x.1 62 62 == 1)
  else none

/-- Whether spans export an LPA, for reading or for writing. -/
def inExports (l : List (Nat × Nat × Bool)) (lpa : Nat) (write : Bool) : Bool :=
  l.any fun x => (!write || x.2.2) && x.1 ≤ lpa && lpa < x.1 + x.2.1

/-- The first LPA of [lo, hi) that spans do not export, for reading or for writing; `n` at least the number of spans. -/
def firstGap (l : List (Nat × Nat × Bool)) (write : Bool) : Nat → Nat → Nat → Option Nat
  | 0, lo, hi => if lo < hi then some lo else none
  | n + 1, lo, hi =>
    if hi ≤ lo then none
    else if inExports l lo write then
      firstGap l write n ((l.filter fun x => inExports [x] lo write).foldl (fun m x => max m (x.1 + x.2.1)) lo) hi
    else some lo

/-- What a context exports of the memory of a die, as the home points of that die go by it. -/
def Dev.exportSpans (d : Dev) (die ctx : Nat) : List (Nat × Nat × Bool) :=
  if d.ctxValid ctx then (d.exportEntries die (d.tag ctx)).filterMap exportSpan else []

/-- Whether a context exports an LPA of this package, for reading or for writing (R22). -/
def Dev.exported (d : Dev) (ctx lpa : Nat) (write : Bool) : Bool := inExports (d.exportSpans (dieOf lpa) ctx) lpa write

/-! ## Removing translations (R87, R92, R396) -/

/-- Whether a page overlaps [v, v + n - 1]. -/
def TlbEntry.overlaps (e : TlbEntry) (v n : Nat) : Bool := decide (e.va < v + n) && decide (v < e.va + e.size)

/-- Change every core that is held, every die, every warp. -/
def Dev.mapCores (d : Dev) (f : Core → Core) : Dev := { d with cores := d.cores.map f }
def Dev.mapDies (d : Dev) (f : Die → Die) : Dev := { d with dies := d.dies.map f }
def Dev.mapWarps (d : Dev) (f : Group → Thread → Thread) : Dev :=
  { d with groups := d.groups.map fun g => { g with warps := g.warps.map (f g) } }

/-- The arrays that pin a page satisfying `p`: group, warp, register. -/
def Dev.pinners (d : Dev) (p : TlbEntry → Bool) : List (Nat × Nat × Nat) :=
  d.cores.flatMap fun k => (k.pins.filter fun x => p x.entry).flatMap fun x => x.users

/-- Whether a TLB entry maps a byte of a span of this package's memory. -/
def TlbEntry.mapsSpan (d : Dev) (lpa n : Nat) (e : TlbEntry) : Bool :=
  let base := e.leaf.frame % 2 ^ 31 * 4096
  let meets := fun (p : Nat × Nat) => decide (p.1 < lpa + n) && decide (lpa < p.1 + p.2)
  if e.va / 2 ^ 54 = 0 then (pageParts base e.size (e.leaf.inter && e.size != 4096)).any meets
  else e.va / 2 ^ 54 = 1 && e.leaf.frame / 2 ^ 31 = d.pkgNum && meets (base, e.size)

/-- Whether a piece of an access still needs its translation: it has not been performed, no home point holds it (R97, R99), and its
line is not waiting for the kill of its gang (R438). -/
def Dev.usesPage (d : Dev) (p : Piece) : Bool :=
  !p.done && p.value.isNone && !p.held && match p.target with
    | .mem ⟨none, lpa⟩ _ _ => !d.badLines.contains (d.home lpa / 128)
    | _ => true

/-- Whether an issued access still uses a pin-store entry of a core (R86). -/
def Dev.pinUsed (d : Dev) (c : CoreRef) (x : Pin) : Bool :=
  d.ops.any fun o => o.core = c && o.tag = x.entry.tag && o.pins.contains x.entry.va && o.pieces.any d.usesPage

/-- Free the pin-store entries that no array pins and no issued access uses (R86). -/
def Dev.freePins (d : Dev) (c : CoreRef) : Dev :=
  if (d.core c).pins.isEmpty then d
  else d.onCore c fun k => { k with pins := k.pins.filter fun x => !x.users.isEmpty || d.pinUsed c x }

/-- Disarm every array that pins a page satisfying `p` and release all its pins (R87). -/
def Dev.revoke (d : Dev) (p : TlbEntry → Bool) : Dev :=
  let users := d.pinners p
  if users.isEmpty then d else
  let d := d.mapCores fun k =>
    { k with pins := k.pins.map fun x => { x with users := x.users.filter fun u => !users.contains u } }
  let d := d.cores.foldl (fun d k => d.freePins k.ref) d
  d.mapWarps fun g w =>
    let dis := fun (i : Nat) (a : ArrReg) =>
      if users.contains (g.gid, w.wid, i) then { a with armed := false, armedW := false } else a
    { w with arrays := mapIdx dis 0 w.arrays }

/-- Whether accesses that use pins of the pages satisfying `p` are still under way, or a queued MLDB uses such a page (R87, R366). -/
def Dev.pinsBusy (d : Dev) (p : TlbEntry → Bool) : Bool :=
  d.cores.any fun k =>
    (k.pins.any fun x => p x.entry && d.pinUsed k.ref x) ||
      k.matrix.any fun e => match e.op with
        | .mldb _ _ _ _ _ _ _ _ pages _ => pages.any p
        | _ => false

/-- Revoke the pins of a span of this package's memory: at once, or as soon as the accesses that use them are complete (R87). -/
def Dev.revokeSpan (d : Dev) (lpa n : Nat) : Dev :=
  if d.pinsBusy (TlbEntry.mapsSpan d lpa n) then { d with pinRevokes := (lpa, n) :: d.pinRevokes }
  else d.revoke (TlbEntry.mapsSpan d lpa n)

/-- Make the revocations that no access keeps waiting any longer. -/
def Dev.settleRevokes (d : Dev) : Dev :=
  if d.pinRevokes.isEmpty then d
  else d.pinRevokes.foldl (fun d x => d.revokeSpan x.1 x.2) { d with pinRevokes := [] }

/-- Whether revocations of a span are still outstanding. -/
def Dev.revoking (d : Dev) (lpa n : Nat) : Bool := d.pinRevokes.any fun x => decide (x.1 < lpa + n) && decide (lpa < x.1 + x.2)

/-- Remove the TLB, walk-cache and poison-cache entries satisfying the tests, everywhere in the package (R396). -/
def Dev.dropEntries (d : Dev) (p : TlbEntry → Bool) (q : PoisonEntry → Bool) (w : WalkEntry → Bool) : Dev :=
  let d := d.mapCores fun k =>
    { k with tlb := k.tlb.filter (fun e => !p e), poison := k.poison.filter (fun e => !q e) }
  d.mapDies fun k =>
    { k with tlb := k.tlb.filter (fun e => !p e.2), poison := k.poison.filter (fun e => !q e.2),
             walk := k.walk.filter (fun e => !w e) }

/-- Remove translations and poison-cache entries everywhere in the package, and revoke pins (R396). -/
def Dev.dropPages (d : Dev) (p : TlbEntry → Bool) (q : PoisonEntry → Bool) (w : WalkEntry → Bool) : Dev :=
  (d.dropEntries p q w).revoke p

/-- Release the pins of the arrays of a core that satisfy `p`: group, warp, register (R86). -/
def Dev.unpinBy (d : Dev) (c : CoreRef) (p : Nat × Nat × Nat → Bool) : Dev :=
  if (d.core c).pins.isEmpty then d
  else (d.onCore c fun k => { k with pins := k.pins.map fun x => { x with users := x.users.filter fun u => !p u } }).freePins c

/-- Release the pins of one array register (R86). -/
def Dev.unpin (d : Dev) (c : CoreRef) (gid wid arr : Nat) : Dev := d.unpinBy c fun u => u = (gid, wid, arr)

/-- Release every pin of a warp (R86: DONE). -/
def Dev.unpinWarp (d : Dev) (c : CoreRef) (gid wid : Nat) : Dev := d.unpinBy c fun u => u.1 = gid && u.2.1 = wid

/-- Release every pin of a group (R86, R389). -/
def Dev.unpinGroup (d : Dev) (c : CoreRef) (gid : Nat) : Dev := d.unpinBy c fun u => u.1 = gid

/-- Set a frame's poison bit with all its effects; pins in use are revoked when their accesses are complete (R87, R92). -/
def Dev.setPoison (d : Dev) (lpa : Nat) : Dev :=
  let die := dieOf lpa
  let n := frameIndex lpa
  let b := d.mapBase die
  let d := { d with mem := mapPut (mapPut d.mem b n true) (b + 0x2C00000) (n / 512) true }
  let frame := lpa / 4096 * 4096
  let maps := TlbEntry.mapsSpan d frame 4096
  let unclean := fun (e : TlbEntry) => if maps e then { e with clean := false } else e
  let chunk := fun (e : PoisonEntry) => e.die = die && e.chunk = n / 512
  let d := d.mapCores fun k =>
    { k with tlb := k.tlb.map unclean, poison := k.poison.filter (fun e => !chunk e) }
  let d := d.mapDies fun k =>
    { k with tlb := k.tlb.map (fun p => (p.1, unclean p.2)), poison := k.poison.filter (fun e => !chunk e.2) }
  d.revokeSpan frame 4096

/-- An uncorrectable line was read at its home point: the frame that holds it there is poisoned (R92, R98). -/
def Dev.foundBad (d : Dev) (lpa : Nat) : Dev := d.setPoison (d.home lpa)

/-- Clear a frame's poison bit; the summary bit follows the frames of its 2 MiB (R89, R94). R92 names the invalidation of
poison-cache entries for a set only: copies of the cleared bit stay until they are replaced or removed by TLBI (DESIGN CHOICE,
log 45). -/
def Dev.clearPoison (d : Dev) (lpa : Nat) : Dev :=
  let n := frameIndex lpa
  let b := d.mapBase (dieOf lpa)
  let m := mapPut d.mem b n false
  let any := (memRead m (b + n / 512 * 64) 64).any fun x => x ≠ 0
  { d with mem := mapPut m (b + 0x2C00000) (n / 512) any }

/-! ## The TLBs and the walker (R76, R77) -/

/-- Whether a TLB entry is of region 1 and names this package (R479). -/
def TlbEntry.ownPeer (d : Dev) (e : TlbEntry) : Bool := e.va / 2 ^ 54 = 1 && e.leaf.frame / 2 ^ 31 = d.pkgNum

/-- A translation that a walk gave, with the result of the export check when it names this package through region 1 (R479). -/
def Dev.withExports (d : Dev) (e : TlbEntry) : TlbEntry × Dev :=
  if e.ownPeer d then
    let base := e.leaf.frame % 2 ^ 31 * 4096
    let l := (d.exportSpans (dieOf base) e.leaf.peer).filter fun x => x.1 < base + e.size && base < x.1 + x.2.1
    ({ e with exports := l }, d.keepExports (dieOf base) (d.tag e.leaf.peer))
  else (e, d)

/-- The translation of a page: from the L1 TLB, the L2 TLB, or a walk, filling what was missed (R76, R77). A root pointer that is not
aligned to 512 KiB, or names no backed memory, has no subcode in R75: the tables are walked at the value as it stands (DESIGN
CHOICE, log 44). A table line found uncorrectable poisons its frame (R92); the walk goes on with what it holds (log 27). -/
def Dev.page (d : Dev) (c : CoreRef) (tag : BitVec 16) (va : Nat) : WalkOut × Dev :=
  match (d.core c).tlb.find? fun e => e.hits tag va with
  | some e => (.ok e, d)
  | none =>
    match (d.die c.die).tlb.find? fun p => p.1 = quadKey c && p.2.hits tag va with
    | some p => (.ok p.2, d.fillL1Tlb c p.2)
    | none =>
      let ctx := tagCtx tag
      let root := (d.ctxD ctx (8 + 8 * (va / 2 ^ 54))).toNat
      if root = 0 then (.bad 0, d)
      else
        let (r, new) := d.walkFrom c.die (d.ctxSuper ctx) tag va walkLevels root []
        let (l, d) := d.trim 512 (new ++ (d.die c.die).walk)
        let d := d.onDie c.die fun k => { k with walk := l }
        let d := new.foldl (fun d e => if d.badLines.contains (d.home e.lpa / 128) then d.foundBad e.lpa else d) d
        match r with
        | .bad s => (.bad s, d)
        | .ok e =>
          let (e, d) := d.withExports e
          (.ok e, (d.fillL2Tlb c.die (quadKey c) e).fillL1Tlb c e)

/-- Whether a thread waits for walks: in a translation stall, for a fetch, or for its trap frame. -/
def Wait.walks : Wait → Bool
  | .translation _ _ => true
  | .fetch _ => true
  | .trap _ _ _ => true
  | _ => false

/-- Whether a party still waits for its walks: its thread, its copy queue entry or its prefetch is still there. -/
def Dev.stalled (d : Dev) (u : WalkUser) : Bool :=
  match u with
  | .thread r => (d.thread r).any fun t => t.wait.walks
  | .copy c id => (d.core c).copy.any fun e => e.id = id
  | .piece op n => d.ops.any fun o => o.id = op && (o.pieces[n]?).any fun p => !p.done

/-- The walks that are still wanted: those that a party still waits for. -/
def Dev.wantedWalks (d : Dev) (die : Nat) : List Walk :=
  ((d.die die).walks.map fun w => { w with users := w.users.filter d.stalled }).filter fun w => !w.users.isEmpty

/-- How many walks hold a place of the walker: of every context, or of one. -/
def heldPlaces (ws : List Walk) (ctx : Option Nat) : Nat :=
  (ws.filter fun w => w.started && (ctx.isNone || ctx = some (tagCtx w.tag))).length

/-- Whether a waiting walk may start: one of the 64 places is free, and its context holds fewer than 16 while walks of other
contexts wait (R77). -/
def mayStart (ws : List Walk) (w : Walk) : Bool :=
  !w.started && heldPlaces ws none < 64 &&
    (heldPlaces ws (some (tagCtx w.tag)) < 16 || !(ws.any fun x => !x.started && tagCtx x.tag != tagCtx w.tag))

/-- Start waiting walks, round-robin by context: the next context after the one served last comes first (R77). -/
def startWalks : Nat → List Walk → Nat → List Walk × Nat
  | 0, ws, turn => (ws, turn)
  | fuel + 1, ws, turn =>
    let after := fun (w : Walk) => (tagCtx w.tag + 4095 - turn) % 4096
    match sortBy (fun a b => decide (after a ≤ after b)) (ws.filter (mayStart ws)) with
    | [] => (ws, turn)
    | w :: _ => startWalks fuel (updBy (fun x => x = w) (fun x => { x with started := true }) ws) (tagCtx w.tag)

/-- Give the places of a die's walker to the walks that may start. -/
def Dev.runWalker (d : Dev) (die : Nat) : Dev :=
  let (ws, turn) := startWalks (d.wantedWalks die).length (d.wantedWalks die) (d.die die).walkTurn
  d.onDie die fun k => { k with walks := ws, walkTurn := turn }

/-- The LPA of an address in a page of this package (R64). -/
def TlbEntry.lpaAt (e : TlbEntry) (va : Nat) : Nat :=
  let b := e.leaf.frame % 2 ^ 31 * 4096
  let o := va - e.va
  if e.leaf.kind = 0 && e.leaf.inter && e.size != 4096 && !isDevice b then
    let l := isLpddr b
    let d0 := dieOf b
    tierStart l ((d0 + o / 4096) % 4) + (b - tierStart l d0) + o / 2 ^ 14 * 2 ^ 12 + o % 4096
  else b + o

/-- 64 bytes of a bitmap from a quad's poison cache, or read and kept there (R90). -/
def Dev.poisonChunk (d : Dev) (c : CoreRef) (tag : BitVec 16) (page : Nat × Nat) (base die chunk : Nat) :
    PoisonEntry × Dev :=
  match (d.die c.die).poison.find? fun p => p.1 = quadKey c && p.2.die = die && p.2.chunk = chunk && p.2.tag = tag with
  | some p => (p.2, d)
  | none =>
    let e : PoisonEntry := ⟨die, chunk, memRead d.mem (base + chunk * 64) 64, tag, page⟩
    let mine := (d.die c.die).poison.filter fun p => p.1 = quadKey c
    let others := (d.die c.die).poison.filter fun p => p.1 ≠ quadKey c
    let (l, d) := d.trim 256 ((quadKey c, e) :: mine)
    (e, d.onDie c.die fun k => { k with poison := l ++ others })

/-- The poison bit of an accessed frame through the poison caches (R90). -/
def Dev.poisonBit (d : Dev) (c : CoreRef) (tag : BitVec 16) (page : Nat × Nat) (lpa : Nat) : Bool × Dev :=
  let n := frameIndex lpa
  match (d.core c).poison.find? fun e => e.die = dieOf lpa && e.chunk = n / 512 && e.tag = tag with
  | some e => ((e.bits.getD (n % 512 / 8) 0).getLsbD (n % 8), d)
  | none =>
    let (e, d) := d.poisonChunk c tag page (d.mapBase (dieOf lpa)) (dieOf lpa) (n / 512)
    let (l, d) := d.trim 16 (e :: (d.core c).poison)
    ((e.bits.getD (n % 512 / 8) 0).getLsbD (n % 8), d.onCore c fun k => { k with poison := l })

/-! ## Waiting for walks (R77, R78) -/

/-- The translation of an address that a core's L1 TLB or the L2 TLB behind it holds. -/
def Dev.heldPage (d : Dev) (c : CoreRef) (tag : BitVec 16) (va : Nat) : Option TlbEntry :=
  ((d.core c).tlb.find? fun e => e.hits tag va).orElse fun _ =>
    ((d.die c.die).tlb.find? fun p => p.1 = quadKey c && p.2.hits tag va).map fun p => p.2

/-- The frame whose poison bit an access of a page asks the bitmap for (R90, R91, R93, R479). -/
def Dev.poisonAsked (d : Dev) (e : TlbEntry) (va : Nat) : Option Nat :=
  let lpa := e.lpaAt va
  if va / 2 ^ 54 = 2 || (va / 2 ^ 54 = 1 && !(e.ownPeer d && inExports e.exports lpa false)) || isDevice lpa || e.clean then none
  else some lpa

/-- Whether a core's poison cache, or that of its quad, holds 64 bytes of a die's bitmap. -/
def Dev.chunkHeld (d : Dev) (c : CoreRef) (tag : BitVec 16) (die n : Nat) : Bool :=
  ((d.core c).poison.any fun e => e.die = die && e.chunk = n && e.tag = tag) ||
    (d.die c.die).poison.any fun p => p.1 = quadKey c && p.2.die = die && p.2.chunk = n && p.2.tag = tag

/-- What an access of an address needs of the walker: a walk, or once its page is held the bytes of the bitmap that it misses. -/
def Dev.walkNeed (d : Dev) (c : CoreRef) (tag : BitVec 16) (va : Nat) : Option WalkFor :=
  if 3 * 2 ^ 54 ≤ va then none
  else
    match d.heldPage c tag va with
    | none => some (.page (va / 4096))
    | some e => (d.poisonAsked e va).bind fun lpa =>
        let n := frameIndex lpa / 512
        if d.chunkHeld c tag (dieOf lpa) n then none else some (.chunk (dieOf lpa) n (e.va, e.size))

def WalkFor.isChunk : WalkFor → Bool
  | .chunk _ _ _ => true
  | .page _ => false

/-- Whether two requests are for one page, or for the same 64 bytes. -/
def WalkFor.same : WalkFor → WalkFor → Bool
  | .page a, .page b => a == b
  | .chunk a m _, .chunk b n _ => a == b && m == n
  | _, _ => false

/-- What accesses of addresses need of the walker. -/
def Dev.walkNeeds (d : Dev) (c : CoreRef) (tag : BitVec 16) (vas : List Nat) : List WalkFor :=
  (vas.filterMap (d.walkNeed c tag)).foldl (fun l w => if l.any w.same then l else l ++ [w]) []

/-- Ask the walker: the request merges with a walk for the same of the same context (R77, R78). -/
def addWalk (tag : BitVec 16) (u : WalkUser) (ws : List Walk) (what : WalkFor) : List Walk :=
  if ws.any fun w => w.tag = tag && w.what.same what then
    ws.map fun w => if w.tag = tag && w.what.same what && !w.users.contains u then { w with users := w.users ++ [u] } else w
  else ws ++ [⟨tag, what, [u], false⟩]

/-- A party asks a die's walker for what it needs. -/
def Dev.askWalks (d : Dev) (u : WalkUser) (die : Nat) (tag : BitVec 16) (needs : List WalkFor) : Dev :=
  if needs.isEmpty then d
  else (d.onDie die fun k => { k with walks := needs.foldl (addWalk tag u) k.walks }).runWalker die

/-- The walks of a party that a die's walker holds. -/
def Dev.walksOf (d : Dev) (u : WalkUser) (die : Nat) : List Walk := (d.die die).walks.filter fun w => w.users.contains u

/-- The core whose caches the answer of a walk fills. -/
def Dev.userCore (d : Dev) (u : WalkUser) : CoreRef :=
  match u with
  | .thread r => d.coreOf r
  | .copy c _ => c
  | .piece op _ => ((d.ops.find? fun o => o.id = op).map fun o => o.core).getD ⟨0, false, 0⟩

/-- The answer of a walk reaches a core. -/
def Dev.answerWalk (d : Dev) (c : CoreRef) (w : Walk) : Dev :=
  match w.what with
  | .page n => (d.page c w.tag (n * 4096)).2
  | .chunk die n through => (d.poisonBit c w.tag through (poisonChunkStart die n)).2

/-- A started walk ends: every core that asked for it has its answer, and the place is free. -/
def Dev.endWalk (d : Dev) (die : Nat) (w : Walk) : Dev :=
  let d := w.users.foldl (fun d u => d.answerWalk (d.userCore u) w) d
  d.onDie die fun k => { k with walks := k.walks.filter fun x => !(x.tag = w.tag && x.what.same w.what) }

/-- The started walks of a party end, and waiting walks take their places. -/
def Dev.endWalks (d : Dev) (u : WalkUser) (die : Nat) : Dev :=
  let ws := (d.walksOf u die).filter fun w => w.started
  if ws.isEmpty then d else (ws.foldl (fun d w => d.endWalk die w) d).runWalker die

/-- The walker has given the places that are free; with no walk of a party nothing is to be given. -/
def Dev.walked (d : Dev) (u : WalkUser) (die : Nat) : Dev := if (d.walksOf u die).isEmpty then d else d.runWalker die

/-- How an access that waits for the walker goes on: its walks are done, it waits on, or nothing of it can end now. -/
inductive Gate where
  | go (d : Dev)
  | wait (d : Dev)
  | stuck

/-- A party that accesses some addresses on a core meets the walker of its die (R77, R78): its started walks end; the pages are asked
for unless they were `asked` for before, and then the bytes of the bitmap that are missing. -/
def Dev.walkGate (d : Dev) (u : WalkUser) (c : CoreRef) (tag : BitVec 16) (asked : Nat → Bool) (vas : List Nat) : Gate :=
  let d := d.walked u c.die
  let mine := d.walksOf u c.die
  if mine.any fun w => !w.started then (if mine.any fun w => w.started then .wait (d.endWalks u c.die) else .stuck)
  else
    let d := d.endWalks u c.die
    let needs := (d.walkNeeds c tag vas).filter fun w => match w with
      | .page n => !asked n
      | .chunk _ _ _ => true
    if needs.isEmpty then .go d else .wait (d.askWalks u c.die tag needs)

/-- What the translation of an address answers. -/
inductive XlateOut where
  | ok (t : Target) (e : TlbEntry)
  | xlate (sub : Nat)
  | poison
  deriving DecidableEq, Repr

/-- Where an address of a page goes, with its permission and poison checks (R19, R75, R91, R479). -/
def Dev.resolve (d : Dev) (c : CoreRef) (tag : BitVec 16) (e : TlbEntry) (va : Nat) (write fetch : Bool) :
    XlateOut × Dev :=
  let region := va / 2 ^ 54
  if write && !e.leaf.w then (.xlate 8, d)
  else if fetch && !e.leaf.f then (.xlate 9, d)
  else if region = 2 then (.ok (.host (e.leaf.frame * 4096 + (va - e.va))) e, d)
  else
    let lpa := e.lpaAt va
    let pkg := e.leaf.frame / 2 ^ 31
    if region = 1 && pkg ≠ d.pkgNum then (.ok (.mem ⟨some pkg, lpa⟩ e.leaf va) e, d)
    else if region = 1 && !inExports e.exports lpa write then (.xlate 5, d)
    else if isDevice lpa || e.clean then (.ok (.mem ⟨none, lpa⟩ e.leaf va) e, d)
    else
      let (p, d) := d.poisonBit c tag (e.va, e.size) lpa
      if p then (.poison, d) else (.ok (.mem ⟨none, lpa⟩ e.leaf va) e, d)

/-- Whether `n` bytes lie inside a span. -/
def spanHolds (va n : Nat) (s : Nat × Nat) : Bool := decide (s.1 ≤ va) && decide (va + n ≤ s.1 + s.2)

/-- Whether a replay may make an access: a load inside a declared input tile, a store inside a declared output tile, an access inside
private space (R442). -/
def Shadow.allows (w : Shadow) (va n : Nat) (write : Bool) : Bool :=
  spanHolds va n (w.priv.1, w.priv.2.1) ||
    (if write then w.outputs else w.inputs).any fun o => spanHolds va n (o.1, o.2.1)

/-- The place in the log of an address that a replay accesses: in the shadow areas of its private space and its outputs, in the logged
copies of its inputs (R442). -/
def Shadow.place (w : Shadow) (va : Nat) (write : Bool) : Option Nat :=
  ((w.priv :: if write then w.outputs else w.inputs).find? fun o => spanHolds va 1 (o.1, o.2.1)).map fun o => o.2.2 + (va - o.1)

/-- Something that R442 excludes has happened: a replay ends as inconclusive. -/
def Dev.endReplay (d : Dev) : Dev :=
  match d.shadow with
  | some w => { d with shadow := some { w with ended := true } }
  | none => d

/-- An access of `n` bytes that a replay may not make ends it (R442). -/
def Dev.shadowCheck (d : Dev) (va n : Nat) (write : Bool) : Dev :=
  match d.shadow with
  | some w => if w.allows va n write then d else d.endReplay
  | none => d

/-- Where a replay's access goes: private space and output tiles have their shadow areas in the log, input tiles their logged copies,
and any other access ends the replay (R442). -/
def Dev.shadowed (d : Dev) (va : Nat) (write fetch : Bool) (x : XlateOut) : XlateOut × Dev :=
  match d.shadow, x with
  | some w, .ok (.mem _ leaf v) e =>
    if fetch then (x, d)
    else
      match w.place va write with
      | some lpa => (.ok (.mem ⟨none, lpa⟩ leaf v) e, d)
      | none => (.xlate 11, d.endReplay)
  | some _, .ok _ _ => (.xlate 11, d.endReplay)
  | _, _ => (x, d)

/-- Translate one address for a party on a core (R12, R16, R79). -/
def Dev.translate (d : Dev) (c : CoreRef) (tag : BitVec 16) (va : Nat) (write fetch : Bool) : XlateOut × Dev :=
  if 2 ^ 56 ≤ va || va / 2 ^ 54 = 3 then (.xlate 10, d)
  else if fetch && va / 2 ^ 54 ≠ 0 then (.xlate 11, d)
  else
    match d.page c tag va with
    | (.bad s, d) => (.xlate s, d)
    | (.ok e, d) =>
      let (x, d) := d.resolve c tag e va write fetch
      d.shadowed va write fetch x

end Sys2Proof.Machine
end

