-- ==== Sys2Proof/Machine/Cache.lean ====
section
/-! DEFINITION. The memory hierarchy (R43 to R57, R97, R98, R106 to R117, R122): home points, the L1 of a core, the
remote-data cache and the L2 of a die, bindings, and the invalidations of acquires. L1 and RDC hold data of their own;
L2 holds no data apart from memory's, since every access to a line's home point sees one value (R44, R53). -/

namespace Sys2Proof.Machine

/-! ## Home points -/

/-- Whether a line of memory holds uncorrectable data. -/
def Dev.bad (d : Dev) (lpa : Nat) : Bool := d.badLines.contains (d.home lpa / 128)

/-- Whether the frame that an LPA leads to is in hold for a migration (R96, R98): writes to it wait. -/
def Dev.inHold (d : Dev) (lpa : Nat) : Bool :=
  let a := d.home lpa
  (d.die (dieOf a)).hold.any fun h => h.1 ≤ a && a < h.1 + h.2

/-- Whether a running wave holds a byte of a span: writes to its state wait (R131, R188). Both are taken where their home points
lead (R98). -/
def Dev.waveHolds (d : Dev) (lpa n : Nat) : Bool :=
  d.cores.any fun k => k.waves.any fun w => match w with
    | some w => w.reqs.any fun q => decide (d.home q.lpa < d.home lpa + n) && decide (d.home lpa < d.home q.lpa + 8 * w.words)
    | none => false

/-- Whether a write that no program makes has to wait at its place: its page is in hold, or a wave holds it (R96, R131). -/
def Dev.placeWaits (d : Dev) (t : Target) (n : Nat) : Bool :=
  match t with
  | .mem ⟨none, lpa⟩ _ _ => d.inHold lpa || d.waveHolds lpa n
  | _ => false

/-! ## Bindings (R112 to R115) -/

/-- The valid bindings of a context, ascending: index, object word, region word. -/
def Dev.bindings (d : Dev) (ctx : Nat) : List (Nat × DWord × DWord) :=
  let t := (d.ctxD ctx 32).toNat
  if t = 0 then []
  else
    let vs := (d.homeCells t 16384).filter fun c => c.1 % 16 == 7 && c.2.getLsbD 7
    vs.map fun c => (c.1 / 16, d.homeD (t + c.1 - 7), d.homeD (t + c.1 + 1))

/-- The region of a binding: first byte and length (R112). -/
def bindingSpan (w : DWord) : Nat × Nat := (bits w 43 0 * 4096, (bits w 63 44 + 1) * 4096)

/-- The binding index of a virtual address (R114). -/
def Dev.bindingOf (d : Dev) (ctx va : Nat) : Option Nat :=
  ((d.bindings ctx).find? fun b => (bindingSpan b.2.2).1 ≤ va && va < (bindingSpan b.2.2).1 + (bindingSpan b.2.2).2).map
    fun b => b.1

/-- The binding set of an object: the valid bindings that name it (R116). -/
def Dev.bindingSet (d : Dev) (ctx obj : Nat) : List (Option Nat) :=
  ((d.bindings ctx).filter fun b => bits b.2.1 55 3 * 8 == obj).map fun b => some b.1

/-! ## Cache lines -/

/-- The line address of a physical address. -/
def PAddr.line (p : PAddr) : PAddr := ⟨p.pkg, p.lpa / 128 * 128⟩

/-- Whether a line is homed on a die. -/
def PAddr.onDie (p : PAddr) (die : Nat) : Bool := p.pkg.isNone && dieOf p.lpa == die

/-- A hit: the line address and the context match, and the data is present (R50, R54). -/
def Line.hits (l : Line) (pa : PAddr) (tag : BitVec 16) : Bool := l.pa = pa && l.tag = tag && !l.data.isEmpty

/-- What a cache keeps when the lines that do not satisfy `keep` leave it: of a reserved frame the frame stays, empty, until the last
line of its instruction returns (R52). -/
def vacate (keep : Line → Bool) (ls : List Line) : List Line :=
  ls.filterMap fun l => if keep l then some l else if l.reserved then some { l with data := [] } else none

/-- Remove the lines that do not satisfy `keep` from the L1 of a core, and from the RDC of a die. -/
def Dev.dropL1 (d : Dev) (c : CoreRef) (keep : Line → Bool) : Dev := d.onCore c fun k => { k with l1 := vacate keep k.l1 }
def Dev.dropRdc (d : Dev) (die : Nat) (keep : Line → Bool) : Dev := d.onDie die fun k => { k with rdc := vacate keep k.rdc }

/-- The set of a line (log 13). -/
def setOf (sets : Nat) (pa : PAddr) : Nat := pa.lpa / 128 % sets

/-- The victim of a set: least recently used among the unreserved lines of lowest priority (R51, R57). -/
def victim : List Line → Option Line
  | [] => none
  | l :: r =>
    match victim r with
    | none => if l.reserved then none else some l
    | some v => if l.reserved then some v else if l.prio < v.prio || (l.prio == v.prio && l.stamp ≤ v.stamp) then some l else some v

/-- The priority a fill or hint may give in a set: at most 8 lines of priority 3 (R57). -/
def limitPrio (set : List Line) (prio : Nat) : Nat := if prio = 3 && 8 ≤ (set.filter fun l => l.prio == 3).length then 2 else prio

/-- Install a line: it replaces its own earlier copy, or the set's victim when the set is full. A line that finds no
victim is not installed. The lines of priority 3 are counted without the one that leaves (R57). -/
def install (sets ways : Nat) (lines : List Line) (new : Line) : List Line :=
  let rest := lines.filter fun l => !(l.pa = new.pa && l.tag = new.tag)
  let set := rest.filter fun l => setOf sets l.pa == setOf sets new.pa
  let with_ := fun (set : List Line) => { new with prio := limitPrio set new.prio }
  if set.length < ways then with_ set :: rest
  else
    match victim set with
    | some v => with_ (set.filter fun l => l ≠ v) :: rest.filter fun l => l ≠ v
    | none => rest

/-- The new bytes laid over a line's data from offset `o`. -/
def overlay (data : List Byte) (o : Nat) (b : List Byte) : List Byte :=
  data.take o ++ b ++ data.drop (o + b.length)

/-- Next value of the access counter that orders lines by use. -/
def Dev.bump (d : Dev) : Nat × Dev := (d.tick, { d with tick := d.tick + 1 })

/-! ## L2 (R53, R56, R57, R59) -/

/-- The number of ways of an L2 set that leases pin: a lease's slot of 128 KiB takes one way of 1,024 sets (log 13). -/
def pinnedWays (ls : List Lease) (set : Nat) : Nat :=
  (ls.map fun l => if l.valid then (l.places.filter fun p => p % 32 == set / 1024).length else 0).sum

/-- A use of an L2 line at the home point that serves it (R98): a hit takes a hint's priority, a miss fills when `fill`; a write
makes it dirty; streaming sets priority 0. -/
def Dev.l2Use (d : Dev) (lpa : Nat) (owner : BitVec 16) (prio : Nat) (hint : Option Nat) (fill dirty : Bool) : Dev :=
  if !backed lpa then d else
  let lpa := d.home lpa
  let pa : PAddr := ⟨none, lpa / 128 * 128⟩
  let (t, d) := d.bump
  d.onDie (dieOf lpa) fun k =>
    let set := k.l2.filter fun l => setOf 32768 l.pa == setOf 32768 pa && l.pa ≠ pa
    match k.l2.find? fun l => l.pa = pa with
    | some l => { k with l2 := { l with prio := (hint.map (limitPrio set)).getD l.prio, dirty := l.dirty || dirty, stamp := t }
                        :: k.l2.filter fun l => l.pa ≠ pa }
    | none =>
      if fill then
        let new : Line := ⟨pa, (0, 0), 0, owner, none, hint.getD prio, false, dirty, [0], t⟩
        let rest := k.l2.filter fun l => tagCtx l.tag ≠ tagCtx owner || l.pa ≠ pa
        let k' := install 32768 (16 - pinnedWays k.leases (setOf 32768 pa)) rest new
        { k with l2 := k' }
      else k

/-! ## Reads -/

/-- The RDC's use for a read of a line homed elsewhere: the data on a hit. -/
def Dev.rdcHit (d : Dev) (die : Nat) (pa : PAddr) (tag : BitVec 16) : Option Line := (d.die die).rdc.find? fun l => l.hits pa.line tag

/-- The stores of a die that have issued and are not performed, to a line: offset in the line and bytes, oldest first
(R106, R122). -/
def Dev.pending (d : Dev) (die : Nat) (core : Option CoreRef) (pa : PAddr) : List (Nat × List Byte) :=
  (d.ops.filter fun o => o.access = .store && o.core.die == die && (core.isNone || core = some o.core)).flatMap fun o =>
    (o.pieces.filter fun p => !p.done && match p.target with
      | .mem a _ _ => a.line = pa.line
      | _ => false).map fun p => (match p.target with
        | .mem a _ _ => a.lpa % 128
        | _ => 0, p.data)

/-- Lay pending stores over a line. -/
def overlays (data : List Byte) (l : List (Nat × List Byte)) : List Byte := l.foldl (fun a p => overlay a p.1 p.2) data

/-- Install a line in a core's L1 (R50), with the core's own issued stores merged in. -/
def Dev.fillL1 (d : Dev) (c : CoreRef) (pa : PAddr) (tag : BitVec 16) (va size : Nat) (data : List Byte) : Dev :=
  let (t, d) := d.bump
  let b := d.bindingOf (tagCtx tag) va
  let data := overlays data (d.pending c.die (some c) pa)
  d.onCore c fun k =>
    let was := (k.l1.find? fun l => l.pa = pa.line && l.tag = tag).map fun l => l.reserved
    { k with l1 := install 128 8 k.l1 ⟨pa.line, (va / size * size, size), va, tag, b, 0, was.getD false, false, data, t⟩ }

/-- Install a line in a die's RDC (R54, R122). -/
def Dev.fillRdc (d : Dev) (die : Nat) (pa : PAddr) (tag : BitVec 16) (va prio : Nat) (data : List Byte) : Dev :=
  let (t, d) := d.bump
  let b := d.bindingOf (tagCtx tag) va
  let data := overlays data (d.pending die none pa)
  d.onDie die fun k => { k with rdc := install 16384 16 k.rdc ⟨pa.line, (0, 0), va, tag, b, prio, false, false, data, t⟩ }

/-- Mark a line of a list as used, a hint replacing its priority (R56). -/
def touch (lines : List Line) (sets : Nat) (pa : PAddr) (tag : BitVec 16) (t : Nat) (hint : Option Nat) : List Line :=
  let set := lines.filter fun l => setOf sets l.pa == setOf sets pa && !(l.pa = pa && l.tag = tag)
  lines.map fun l => if l.hits pa tag then { l with stamp := t, prio := (hint.map (limitPrio set)).getD l.prio } else l

/-- The hint of an ev field (R335). -/
def hintOf (ev : BitVec 2) : Option Nat := if ev = 0 then none else if ev = 1 then some 0 else some ev.toNat

/-- The hint as it acts on a page: none at level 0b10 (R335). -/
def Leaf.hint (l : Leaf) (h : Option Nat) : Option Nat := if l.level = 2 then none else h

/-- Whether fills that would carry a binding index are forbidden to an operation (R116). -/
def mayFill (no : List (Option Nat)) (all : Bool) (b : Option Nat) : Bool := !all && !no.contains b

/-- The fills that are forbidden to a read: of L1 and of the RDC, by binding index or all (R116), and of single lines. -/
structure Forbidden where
  l1 : List (Option Nat)
  l1All : Bool
  rdc : List (Option Nat)
  rdcAll : Bool
  lines : List PAddr
  deriving DecidableEq, Repr

/-- No fill is forbidden. -/
def Forbidden.none : Forbidden := ⟨[], false, [], false, []⟩

def Op.forbidden (o : Op) : Forbidden := ⟨o.noInstall, o.noInstallAll, o.noRdc, o.noRdcAll, o.noLines⟩

/-- A read of the home point (level 0b10, ACQ) by a warp renews the bytes it returns in the lines of its context that its core's L1 and
its die's RDC hold, so that no later read of the warp returns an older write (R106; that the present line is written, and does not
leave, is the model's choice: DESIGN CHOICE, log 46). -/
def Dev.freshen (d : Dev) (c : CoreRef) (tag : BitVec 16) (pa : PAddr) (b : List Byte) : Dev :=
  let new := fun (l : Line) => if l.hits pa.line tag then { l with data := overlay l.data (pa.lpa % 128) b } else l
  (d.onCore c fun k => { k with l1 := k.l1.map new }).onDie c.die fun k => { k with rdc := k.rdc.map new }

/-- A read of bytes of one line by a party of a core, through the caches its page selects (R47). For a line of another
package the data must be at hand (a cache hit, or `arrived`); none means that it must be asked for. `l1` is false for
engines, fetches, waves. R47 fills the near cache of the requester; that a read from another die also fills the L2 of the home die,
through which the home point serves it (R44, R53), is the model's choice, and so is that an L2 line filled through a region-1 entry
that names this package carries the owner tag of that entry, which is zero (DESIGN CHOICE, log 46). -/
def Dev.readThrough (d : Dev) (c : CoreRef) (tag : BitVec 16) (pa : PAddr) (leaf : Leaf) (va n : Nat) (l1 : Bool)
    (hint : Option Nat) (no : Forbidden) (arrived : Option (List Byte)) :
    Option (List Byte) × Dev :=
  let ctx := tagCtx tag
  let o := pa.lpa % 128
  let cut := fun (data : List Byte) => (data.drop o).take n
  let may := mayFill no.l1 no.l1All (d.bindingOf ctx va) && !no.lines.contains pa.line
  let mayRdc := mayFill no.rdc no.rdcAll (d.bindingOf ctx va) && !no.lines.contains pa.line
  let useL1 := l1 && leaf.level = 0
  let hint := leaf.hint hint
  let (t, d) := d.bump
  match (if useL1 then (d.core c).l1.find? fun l => l.hits pa.line tag else none) with
  | some l => (some (cut l.data), d.onCore c fun k => { k with l1 := touch k.l1 128 pa.line tag t none })
  | none =>
    if pa.onDie c.die then
      let d := d.l2Use pa.lpa leaf.owner leaf.evict hint (leaf.level ≠ 2) false
      let line := d.homeRead pa.line.lpa 128
      let d := if useL1 && may then d.fillL1 c pa tag va leaf.size line else d
      (some (cut line), if leaf.level = 2 then d.freshen c tag pa (cut line) else d)
    else
      match (if leaf.level = 2 then none else d.rdcHit c.die pa tag) with
      | some l =>
        let d := d.onDie c.die fun k => { k with rdc := touch k.rdc 16384 pa.line tag t hint }
        (some (cut l.data), if useL1 && may then d.fillL1 c pa tag va leaf.size l.data else d)
      | none =>
        let line := if pa.pkg.isNone then some (d.homeRead pa.line.lpa 128) else arrived
        match line with
        | none => (none, d)
        | some line =>
          let d := if pa.pkg.isNone then d.l2Use pa.lpa leaf.owner leaf.evict hint (leaf.level ≠ 2) false else d
          let d := if leaf.level = 2 then d.freshen c tag pa (cut line) else d
          let d := if leaf.level ≠ 2 && mayRdc then d.fillRdc c.die pa tag va (hint.getD leaf.evict) line else d
          (some (cut line), if useL1 && may then d.fillL1 c pa tag va leaf.size line else d)

/-! ## Lines on their way from another package (R106, R122) -/

/-- Whether a piece is a read of a line of another package that is on its way. -/
def Piece.asks (p : Piece) (line : PAddr) : Bool :=
  p.sent && !p.done && p.value.isNone && match p.target with
    | .mem a _ _ => a.line = line
    | _ => false

/-- Whether an operation of a die reads a line of another package that is on its way. -/
def Op.asks (o : Op) (die : Nat) (line : PAddr) : Bool :=
  (o.access = .load || o.access = .prefetch) && o.core.die == die && o.pieces.any fun p => p.asks line

/-- Change the copy commands of a die that have asked another package for a line. -/
def Dev.onAsking (d : Dev) (die : Nat) (p : CopyEntry → PAddr → Bool) (f : CopyEntry → CopyEntry) : Dev :=
  let asks := fun (e : CopyEntry) => e.asked.any fun x => p e x.1
  if (d.cores.any fun k => k.ref.die == die && k.copy.any asks) = true then
    d.mapCores fun k => if k.ref.die = die then { k with copy := k.copy.map fun e => if asks e then f e else e } else k
  else d

/-- A store of a die that passes a line of another package on its way: the fill is installed with the store merged (R122). -/
def Dev.passFill (d : Dev) (die : Nat) (pa : PAddr) (b : List Byte) : Dev :=
  if pa.pkg.isNone then d
  else
    let late := fun (o : Op) =>
      if o.asks die pa.line then { o with late := o.late ++ [(pa.line, pa.lpa % 128, b)] } else o
    ({ d with ops := d.ops.map late }).onAsking die (fun _ a => a.line = pa.line) fun e => { e with late := e.late ++ [(pa.lpa % 128, b)] }

/-- Whether a line of another package is on its way to a die: a second read of it waits for the first, so that no fill is installed
over a newer one (R106). -/
def Dev.lineAsked (d : Dev) (die : Nat) (line : PAddr) : Bool :=
  (d.ops.any fun o => o.asks die line) ||
    d.cores.any fun k => k.ref.die == die && k.copy.any fun e => e.asked.any fun x => x.1.line = line

/-- The fills of the lines satisfying `p`, by their physical and virtual addresses, that are on their way to a die are discarded when
they come. -/
def Dev.barLines (d : Dev) (die : Nat) (p : PAddr → Nat → Bool) : Dev :=
  let bar := fun (o : Op) =>
    let ls := o.pieces.filterMap fun q => match q.target with
      | .mem a _ va => if q.asks a.line && p a.line va then some a.line else none
      | _ => none
    if o.core.die = die && (o.access = .load || o.access = .prefetch) then { o with noLines := ls ++ o.noLines } else o
  ({ d with ops := d.ops.map bar }).onAsking die (fun e a => e.asked.any fun (x : PAddr × Leaf × Nat) => p a.line x.2.2) fun e => { e with noFill := true }

/-! ## Stores (R49) -/

/-- What an issued store does to the L1 of its core and the RDC of its die; a hint replaces the priority of an RDC line that it hits
(R56, R335). A frame that is reserved and not filled yet holds nothing to update or to invalidate. Whether a store that updates a
present L1 line counts as a use of it for replacement R51 does not say: the line's place in the order of use stays (DESIGN CHOICE,
log 46). -/
def Dev.storeNear (d : Dev) (c : CoreRef) (tag : BitVec 16) (pa : PAddr) (leaf : Leaf) (hint : Option Nat) (b : List Byte) : Dev :=
  let upd := fun (l : Line) =>
    if l.pa = pa.line && l.tag = tag && !l.data.isEmpty then
      (if leaf.write = 0 then some { l with data := overlay l.data (pa.lpa % 128) b }
       else if l.reserved then some { l with data := [] } else none)
    else some l
  let d := d.onCore c fun k => if k.l1.isEmpty then k else { k with l1 := k.l1.filterMap upd }
  let d := d.onDie c.die fun k =>
    if k.rdc.isEmpty then k
    else { k with rdc := touch (k.rdc.filterMap upd) 16384 pa.line tag d.tick (leaf.hint hint) }
  d.passFill c.die pa b

/-- The home point's part of a store (R47, R49): the bytes are performed, the L2 line as the policy states. -/
def Dev.storeHome (d : Dev) (lpa : Nat) (leaf : Leaf) (hint : Option Nat) (b : List Byte) : Dev :=
  let fill := leaf.level ≠ 2 && leaf.write ≠ 1
  let d := d.l2Use lpa leaf.owner leaf.evict (if leaf.write = 2 then some 0 else leaf.hint hint) fill true
  d.homeWrite lpa b

/-- An atomic or method call removes its line from the issuing core's L1 and the issuing die's RDC (R47); a fill of it that is on
its way is not installed over what it writes (R106). -/
def Dev.dropLine (d : Dev) (c : CoreRef) (tag : BitVec 16) (pa : PAddr) : Dev :=
  let keep := fun (l : Line) => !(l.pa = pa.line && tagCtx l.tag == tagCtx tag)
  let d := (d.dropL1 c keep).dropRdc c.die keep
  if pa.pkg.isNone then d else d.barLines c.die fun a _ => a = pa.line

/-! ## Acquires (R116, R117, R139) -/

/-- Whether a scope reaches the RDC: `.pkg` or `.pod`. -/
def wideScope (s : Nat) : Bool := 3 ≤ s

/-- Forbid fills with an index of `b` (or all) to the outstanding reads of a core, and of the RDC to those of a die for
wide scopes. -/
def Dev.forbidFills (d : Dev) (c : CoreRef) (ctx scope : Nat) (b : Option (List (Option Nat))) : Dev :=
  let mark := fun (o : Op) =>
    if tagCtx o.tag ≠ ctx then o
    else
      let o := if o.core = c then
          (match b with
           | some b => { o with noInstall := b ++ o.noInstall }
           | none => { o with noInstallAll := true })
        else o
      if wideScope scope && o.core.die == c.die then
        (match b with
         | some b => { o with noRdc := b ++ o.noRdc }
         | none => { o with noRdcAll := true })
      else o
  ({ d with ops := d.ops.map mark }).onAsking c.die (fun e _ => wideScope scope && tagCtx e.tag == ctx) fun e =>
    match b with
    | some b => { e with noRdc := b ++ e.noRdc }
    | none => { e with noFill := true }

/-- Invalidate the lines of a context whose binding index lies in `b` (R116). -/
def Dev.acquireSet (d : Dev) (c : CoreRef) (ctx scope : Nat) (b : List (Option Nat)) : Dev :=
  if b.isEmpty then d else
  let keep := fun (l : Line) => !(tagCtx l.tag == ctx && b.contains l.binding)
  let d := d.dropL1 c keep
  let d := if wideScope scope then d.dropRdc c.die keep else d
  d.forbidFills c ctx scope (some b)

/-- Invalidate every line of a context in the core's L1, and in the die's RDC at `.pkg` or `.pod` (R117). -/
def Dev.acquireAll (d : Dev) (c : CoreRef) (ctx scope : Nat) : Dev :=
  let keep := fun (l : Line) => !(tagCtx l.tag == ctx)
  let d := d.dropL1 c keep
  let d := if wideScope scope then d.dropRdc c.die keep else d
  d.forbidFills c ctx scope none

/-- The physical parts of a span of virtual addresses of a context, as the page tables map it now: for each page its first
physical address and the number of bytes. -/
def Dev.spanParts (d : Dev) (c : CoreRef) (tag : BitVec 16) (va len : Nat) : List (PAddr × Nat) :=
  (upFrom (va / 4096) ((va + len + 4095) / 4096 - va / 4096)).filterMap fun p =>
    match (d.page c tag (p * 4096)).1 with
    | .ok e =>
      let lo := max va (p * 4096)
      some (⟨if e.va / 2 ^ 54 = 1 && e.leaf.frame / 2 ^ 31 ≠ d.pkgNum then some (e.leaf.frame / 2 ^ 31) else none, e.lpaAt lo⟩,
        min (va + len) (p * 4096 + 4096) - lo)
    | .bad _ => none

/-- Whether a line holds a byte of the parts. -/
def inParts (parts : List (PAddr × Nat)) (pa : PAddr) : Bool :=
  parts.any fun p => p.1.pkg = pa.pkg && decide (pa.lpa < p.1.lpa + p.2) && decide (p.1.lpa < pa.lpa + 128)

/-- Whether a line lies in a virtual span of a context: by the pages as the tables map them now, or by the address through which it
was filled, which they may have ceased to map. -/
def lineInSpan (parts : List (PAddr × Nat)) (va len : Nat) (pa : PAddr) (at_ : Nat) : Bool :=
  inParts parts pa || (decide (at_ / 128 * 128 < va + len) && decide (va < at_ / 128 * 128 + 128))

/-- Invalidate the lines of a virtual span of a context in a core's L1, and with `rdc` in its die's RDC (R139, R141); fills of
those lines that are on their way are discarded. -/
def Dev.dropSpan (d : Dev) (c : CoreRef) (tag : BitVec 16) (va len : Nat) (rdc : Bool) : Dev :=
  let inSpan := lineInSpan (d.spanParts c tag va len) va len
  let keep := fun (l : Line) => !(tagCtx l.tag == tagCtx tag && inSpan l.pa l.va)
  let d := d.dropL1 c keep
  let d := if rdc then d.dropRdc c.die keep else d
  d.barLines c.die inSpan

/-- What completing a barrier does for a released warp (R139, R358): ACQ.ALL at the scope, the recorded virtual spans
removed from L1 and RDC, and the context's whole share of the RDC, with the fills of it that are on their way, when the phase was
marked whole. -/
def Dev.acquireBarrier (d : Dev) (c : CoreRef) (tag : BitVec 16) (scope : Nat) (spans : List Span) (whole : Bool) : Dev :=
  let d := d.acquireAll c (tagCtx tag) scope
  if whole then
    (d.dropRdc c.die fun l => !(tagCtx l.tag == tagCtx tag)).forbidFills c (tagCtx tag) 3 none
  else
    (spans.filter fun s => s.space == 0).foldl (fun d s => d.dropSpan c tag s.base.toNat s.len true) d

/-- Purge every RDC line and L1 line of a span of physical memory of this package (R51, R96). -/
def Dev.purge (d : Dev) (lpa n : Nat) : Dev :=
  let keep := fun (l : Line) => !(l.pa.pkg.isNone && lpa ≤ l.pa.lpa && l.pa.lpa < lpa + n)
  let d := d.mapCores fun k => { k with l1 := vacate keep k.l1 }
  d.mapDies fun k => { k with rdc := vacate keep k.rdc }

end Sys2Proof.Machine
end

