-- ==== Sys2Proof/Machine/Interval.lean ====
section
/-! DEFINITION. Intervals of index registers (R274, R275): pairs of signed bounds, and the interval each operation
writes. Bounds are computed in unbounded integers; a bound outside the signed 32-bit range makes the interval top. -/

namespace Sys2Proof.Machine

/-- A pair of signed bounds. -/
structure Ivl where
  lo : Int
  hi : Int
  deriving DecidableEq, Repr


/-- Top, [-2^31, 2^31 - 1] (R274). -/
def ivlTop : Ivl := ⟨-2147483648, 2147483647⟩

/-- The interval of one value. -/
def ivlConst (k : Int) : Ivl := ⟨k, k⟩

/-- A result bound outside the signed 32-bit range makes the interval top (R275). -/
def ivlClip (i : Ivl) : Ivl := if ivlTop.lo ≤ i.lo ∧ i.hi ≤ ivlTop.hi ∧ i.lo ≤ ivlTop.hi ∧ ivlTop.lo ≤ i.hi then i else ivlTop

/-- Add (R275). -/
def ivlAdd (a b : Ivl) : Ivl := ivlClip ⟨a.lo + b.lo, a.hi + b.hi⟩

/-- Subtract (R275). -/
def ivlSub (a b : Ivl) : Ivl := ivlClip ⟨a.lo - b.hi, a.hi - b.lo⟩

/-- Multiply: the least and greatest of the four corner products (R275). -/
def ivlMul (a b : Ivl) : Ivl :=
  let p := a.lo * b.lo
  let q := a.lo * b.hi
  let r := a.hi * b.lo
  let s := a.hi * b.hi
  ivlClip ⟨min (min p q) (min r s), max (max p q) (max r s)⟩

/-- The shift amount when b's interval is [k, k] with k in [0, 31] (R275). -/
def ivlAmount (b : Ivl) : Option Nat := if b.lo = b.hi ∧ 0 ≤ b.lo ∧ b.lo ≤ 31 then some b.lo.toNat else none

/-- Shift left (R275). -/
def ivlShl (a b : Ivl) : Ivl :=
  match ivlAmount b with
  | some k => ivlClip ⟨a.lo * 2 ^ k, a.hi * 2 ^ k⟩
  | none => ivlTop

/-- Arithmetic shift right: floors of the quotients (R275). -/
def ivlSar (a b : Ivl) : Ivl :=
  match ivlAmount b with
  | some k => ⟨a.lo.fdiv (2 ^ k), a.hi.fdiv (2 ^ k)⟩
  | none => ivlTop

/-- Logical shift right: as the arithmetic one when a is not negative (R275). -/
def ivlShr (a b : Ivl) : Ivl := if 0 ≤ a.lo then ivlSar a b else ivlTop

/-- Minimum (R275). -/
def ivlMin (a b : Ivl) : Ivl := ⟨min a.lo b.lo, min a.hi b.hi⟩

/-- Maximum (R275). -/
def ivlMax (a b : Ivl) : Ivl := ⟨max a.lo b.lo, max a.hi b.hi⟩

/-- And: [0, m] when one source is the constant m ≥ 0 and the other is not negative (R275). With two such constants
either rule applies; the model takes the first source's (log 6). -/
def ivlAnd (a b : Ivl) : Ivl :=
  if a.lo = a.hi ∧ 0 ≤ a.lo ∧ 0 ≤ b.lo then ⟨0, a.lo⟩
  else if b.lo = b.hi ∧ 0 ≤ b.lo ∧ 0 ≤ a.lo then ⟨0, b.lo⟩
  else ivlTop

/-- Any other write (R275). -/
def ivlOther (_ _ : Ivl) : Ivl := ivlTop

/-- Whether a value lies in an interval (R274). -/
def ivlHas (i : Ivl) (v : Word) : Bool := i.lo ≤ v.toInt && v.toInt ≤ i.hi

/-- Intersection with [lo, hi], which may be empty (R83, R379). -/
def ivlMeet (a b : Ivl) : Ivl := ⟨max a.lo b.lo, min a.hi b.hi⟩

/-- The least interval containing both (R83). -/
def ivlUnion (a b : Ivl) : Ivl := ⟨min a.lo b.lo, max a.hi b.hi⟩

/-- XBR `.lt` taken or `.ge` falling through: hi := min(hi, K - 1) (R299). -/
def ivlBelow (i : Ivl) (k : Int) : Ivl := ⟨i.lo, min i.hi (k - 1)⟩

/-- XBR `.ge` taken or `.lt` falling through: lo := max(lo, K) (R299). -/
def ivlFrom (i : Ivl) (k : Int) : Ivl := ⟨max i.lo k, i.hi⟩

end Sys2Proof.Machine
end

