-- ==== Sys2Proof/Machine/Operands.lean ====
section
/-! DEFINITION. Operands (R14, R216, R253 to R258, R272 to R276, R331): lane registers, pairs, intervals, predicates and
guards, uniform registers, address fields, shape fields, and the form that performs one operation in every taking-part
lane of a warp or once in a sequencer program. -/

namespace Sys2Proof.Machine

/-! ## Lane registers -/

/-- The x register a 7-bit field names, 112 to 127 (R258). -/
def xNum (r : BitVec 7) : Nat := r.toNat - 112

/-- Whether a 7-bit field names an x register. -/
def isX (r : BitVec 7) : Bool := 112 ≤ r.toNat

/-- An x register of a lane. -/
def Lane.xr (l : Lane) (n : Nat) : XReg := l.x.getD n XReg.reset

/-- The value of a 7-bit register field: an x source contributes its value (R273). -/
def Lane.get (l : Lane) (r : BitVec 7) : Word := if isX r then (l.xr (xNum r)).v else l.g.getD r.toNat 0

/-- The interval of a 7-bit field: an x source its own, any other top (R275). -/
def Lane.ivl (l : Lane) (r : BitVec 7) : Ivl :=
  if isX r then ⟨(l.xr (xNum r)).lo.toInt, (l.xr (xNum r)).hi.toInt⟩ else ivlTop

/-- Write an x register with its interval. -/
def Lane.setX (l : Lane) (n : Nat) (v : Word) (i : Ivl) : Lane :=
  { l with x := l.x.set n ⟨v, BitVec.ofInt 32 i.lo, BitVec.ofInt 32 i.hi⟩ }

/-- Write a 7-bit register field, an x register with the given interval (R275). -/
def Lane.setI (l : Lane) (r : BitVec 7) (v : Word) (i : Ivl) : Lane :=
  if isX r then l.setX (xNum r) v i else { l with g := l.g.set r.toNat v }

/-- Write a 7-bit register field, an x register with interval top. -/
def Lane.set (l : Lane) (r : BitVec 7) (v : Word) : Lane := l.setI r v ivlTop

/-- The 64-bit value of a g pair (R14, R216). -/
def Lane.pair (l : Lane) (r : BitVec 7) : DWord := DWord.ofPair (l.get r) (l.get (r + 1))

/-- Write a g pair. -/
def Lane.setPair (l : Lane) (r : BitVec 7) (v : DWord) : Lane := (l.set r v.lo).set (r + 1) v.hi

/-- A predicate: p7 reads true (R258, R285). -/
def Lane.pr (l : Lane) (n : BitVec 3) : Bool := n = 7 || l.p.getLsbD n.toNat

/-- Write a predicate: a write to p7 is discarded (R258). -/
def Lane.setP (l : Lane) (n : BitVec 3) (b : Bool) : Lane :=
  if n = 7 then l
  else { l with p := if b then l.p ||| (1#7 <<< n.toNat) else l.p &&& ~~~(1#7 <<< n.toNat) }

/-- Whether a guard holds in a lane: bits 2:0 the predicate, bit 3 its negation (R254). -/
def Lane.guard (l : Lane) (g : Guard) : Bool := l.pr (g.extractLsb' 0 3) != g.getLsbD 3

/-- A short guard as a full one (R253); an unguarded form (R272). -/
def shortGuard (g : BitVec 3) : Guard := 0#1 ++ g
def unguarded : Guard := 7

/-! ## Taking part -/

/-- A lane of a thread. -/
def Thread.lane (t : Thread) (n : Nat) : Lane := t.lanes.getD n ⟨[], [], 0, 0⟩

/-- The active lanes: the mask of the issuing entry (R196). -/
def Thread.active (t : Thread) : Word := (t.clause.map fun c => c.mask).getD 0

/-- The taking-part lanes of a guard (R272). -/
def Thread.taking (t : Thread) (g : Guard) : Word := maskOf fun n => t.active.getLsbD n && (t.lane n).guard g

/-- The lowest-numbered lane of a mask; 32 when it is empty. -/
def lowest (m : Word) : Nat := (maskLanes m).headD 32

/-! ## Uniform registers -/

/-- A uniform register and a uniform pair. -/
def Thread.sreg (t : Thread) (n : Nat) : Word := t.s.getD n 0
def Thread.spair (t : Thread) (n : Nat) : DWord := DWord.ofPair (t.sreg n) (t.sreg (n + 1))
def Thread.setS (t : Thread) (n : Nat) (v : Word) : Thread := { t with s := t.s.set n v }

/-- The uniform pair s(2k), s(2k + 1) of a pair field (R277, R341). -/
def Thread.kpair (t : Thread) (k : Nat) : DWord := t.spair (2 * k)

/-- The address of a 6-bit address field in a lane: a g pair below 56, else a uniform pair (R331). -/
def Thread.addr (t : Thread) (lane : Nat) (a : BitVec 6) : DWord :=
  if a.toNat < 56 then (t.lane lane).pair (BitVec.ofNat 7 (2 * a.toNat)) else t.kpair (a.toNat - 56)

/-- Whether an address field names a uniform pair (R331). -/
def uniAddr (a : BitVec 6) : Bool := 56 ≤ a.toNat

/-- The 7-bit register fields an address field names, for the allotment check: none when it is uniform. -/
def addrRegs (a : BitVec 6) : List (BitVec 7) :=
  if uniAddr a then [] else [BitVec.ofNat 7 (2 * a.toNat), BitVec.ofNat 7 (2 * a.toNat + 1)]

/-- A shape field's value: the marker takes the uniform register it names (R257). -/
def Thread.shape (t : Thread) (f : ShapeField) : Nat :=
  if f.value = 0x7FF then (t.sreg f.u.toNat).toNat else f.value.toNat

/-! ## One operation in every taking-part lane -/

/-- A lane that stands for a sequencer program: its 7-bit fields name the uniform registers (R273). -/
def Thread.asLane (t : Thread) : Lane := { t.lane 0 with g := t.s, x := [] }

/-- Change the lanes of a mask; a sequencer program acts once, on its uniform registers and its predicates (R273). -/
def Thread.mapLanes (t : Thread) (seq : Bool) (m : Word) (f : Nat → Lane → Lane) : Thread :=
  if seq then
    if m.getLsbD 0 then
      let l := f 0 t.asLane
      { t with s := l.g, lanes := [{ t.lane 0 with p := l.p, gen := l.gen }] }
    else t
  else { t with lanes := mapIdx (fun n l => if m.getLsbD n then f n l else l) 0 t.lanes }

/-- Whether a party is a sequencer program. -/
def isSeq : ThreadRef → Bool
  | .seq _ _ => true
  | _ => false

end Sys2Proof.Machine
end

