-- ==== Sys2Proof/Machine/Frontier.lean ====
section
/-! DEFINITION. The frontier of a warp (R195 to R199): frontier order, merging, and the choice of the issuing entry. -/

namespace Sys2Proof.Machine

/-- Frontier order: descending priority, then ascending PC (R195). -/
def Entry.before (a b : Entry) : Bool := b.prio < a.prio || (a.prio == b.prio && a.pc ≤ b.pc)

/-- Two entries at one PC as one: the union of the masks, the greater priority, the greater wait count (R197, R199). -/
def Entry.merge (a b : Entry) : Entry :=
  { a with mask := a.mask ||| b.mask, prio := if a.prio < b.prio then b.prio else a.prio, wait := max a.wait b.wait }

/-- Insert an entry: it merges with the entry at its PC, if there is one (R197). -/
def insertEntry (e : Entry) (f : List Entry) : List Entry :=
  match f.find? fun x => x.pc = e.pc with
  | some x => insertBy Entry.before (x.merge e) (f.filter fun y => y.pc ≠ e.pc)
  | none => insertBy Entry.before e f

/-- The entry with the greatest wait count, the first of them in frontier order (R199). -/
def longestWaiting : List Entry → Option Entry
  | [] => none
  | e :: r =>
    match longestWaiting r with
    | some x => if e.wait < x.wait then some x else some e
    | none => some e

/-- What the progress rule chooses: the entry, the loop count left, whether the entry stood first, whether the loop rule
chose it. -/
structure Choice where
  entry : Entry
  loopCount : Nat
  wasFirst : Bool
  byLoop : Bool
  deriving DecidableEq, Repr

/-- The choice of the issuing entry (R199). -/
def chooseEntry (f : List Entry) (loopCount : Nat) : Option Choice :=
  match f, longestWaiting f with
  | e :: rest, some w =>
    if 992 ≤ w.wait then some ⟨w, loopCount, w.pc = e.pc, false⟩
    else if loopCount = 64 then
      match rest with
      | e2 :: _ => some ⟨e2, 0, false, true⟩
      | [] => some ⟨e, loopCount, true, false⟩
    else some ⟨e, loopCount, true, false⟩
  | _, _ => none

/-- The other entries after a clause is chosen from `e`: their wait counts rise (R199). -/
def othersWait (f : List Entry) (e : Entry) : List Entry :=
  (f.filter fun x => x.pc ≠ e.pc).map fun x => { x with wait := min (x.wait + 1) 1023 }

/-- Where lanes of the issuing entry go at the end of a clause, and whether by a taken branch. -/
structure Move where
  mask : Word
  pc : DWord
  taken : Bool
  deriving DecidableEq, Repr

/-- The lanes of a mask grouped by the PC a function gives them, each PC once, in lane order (R196). -/
def groupMoves (lanes : List Nat) (pc : Nat → DWord) (taken : Nat → Bool) : List Move :=
  match lanes with
  | [] => []
  | l :: r =>
    let rest := groupMoves r pc taken
    match rest.find? fun m => m.pc = pc l with
    | some m => { m with mask := m.mask ||| (1#32 <<< l), taken := m.taken || taken l } :: rest.filter fun x => x.pc ≠ pc l
    | none => ⟨1#32 <<< l, pc l, taken l⟩ :: rest

end Sys2Proof.Machine
end

