-- ==== Sys2Proof/Machine/Fetch.lean ====
section
/-! DEFINITION. Fetching clauses (R240 to R246, R296): the words of a clause through translation, its decoding, the
priority of a target's header, and the causes of traps (R421). -/

namespace Sys2Proof.Machine

/-! ## Trap causes (R421) -/

def causeIllegal : BitVec 8 := 0x01
def causePriv : BitVec 8 := 0x02
def causeAlign : BitVec 8 := 0x03
def causeBounds : BitVec 8 := 0x04
def causeXrange : BitVec 8 := 0x05
def causeXlate : BitVec 8 := 0x06
def causePoison : BitVec 8 := 0x07
def causeAllot : BitVec 8 := 0x08
def causeBaton : BitVec 8 := 0x09
def causeMethod : BitVec 8 := 0x0A
def causeLost : BitVec 8 := 0x0B
def causeQuietTo : BitVec 8 := 0x0C

/-- What a trap reports: cause, detail (R424), address, lane (R423). -/
structure TrapInfo where
  cause : BitVec 8
  detail : DWord
  address : DWord
  lane : BitVec 8
  deriving DecidableEq, Repr

/-- A trap that concerns no lane. -/
def TrapInfo.plain (cause : BitVec 8) (detail : DWord) : TrapInfo := ⟨cause, detail, 0, 0xFF⟩

/-- ILLEGAL at issue, not covered by a subcode (R424). -/
def trapIllegal : TrapInfo := .plain causeIllegal 0xFF

/-- ILLEGAL at fetch: the subcode and the index of the offending word (R424). -/
def trapFetch (b : Bad) : TrapInfo := .plain causeIllegal (BitVec.ofNat 64 (b.subcode + 256 * b.word))

/-- ILLEGAL at issue with a subcode: the index is that of the instruction's word in the clause (R424, log 5). -/
def trapFit (sub : Nat) (t : Thread) : TrapInfo :=
  trapFetch ⟨sub, match t.clause with | some c => (c.pc - c.addr).toNat / 4 | none => 0⟩

/-- The trap of a failed translation. -/
def trapXlate (sub : Nat) (addr : DWord) (lane : BitVec 8) : TrapInfo := ⟨causeXlate, BitVec.ofNat 64 sub, addr, lane⟩

/-! ## Performance counters (R398) -/

/-- Add to the counters whose selector byte names an event. -/
def countIn (sel : Word) (ctr : List DWord) (code n : Nat) : List DWord :=
  mapIdx (fun i v => if (sel.extractLsb' (8 * i) 8).toNat = code then v + BitVec.ofNat 64 n else v) 0 ctr

/-- Count an event of a thread, in its group's counters and its core's. -/
def Dev.count (d : Dev) (r : ThreadRef) (code n : Nat) : Dev :=
  let d := match d.groupOf r with
    | some g => d.onGroup g.gid fun g => { g with perf := countIn g.perfsel g.perf code n }
    | none => d
  d.onCore (d.coreOf r) fun k => { k with perfS := countIn k.perfselS k.perfS code n }

/-- A thread asks the walker of its die for what its addresses need; a page that is walked has missed the L1 TLB (R398). -/
def Dev.askFor (d : Dev) (r : ThreadRef) (needs : List WalkFor) : Dev :=
  let pages := (needs.filter fun w => !w.isChunk).length
  (if pages = 0 then d else d.count r 4 pages).askWalks (.thread r) (d.coreOf r).die (d.tagOf r) needs

/-- What a thread's accesses of some addresses need of the walker. -/
def Dev.needsOf (d : Dev) (r : ThreadRef) (vas : List Nat) : List WalkFor := d.walkNeeds (d.coreOf r) (d.tagOf r) vas

/-- Count a miss of the L1 TLB of its core by a thread that the L2 TLB answers, at the address it translates; one that is walked was
counted when it was asked for (R398). -/
def Dev.countTlbMiss (d : Dev) (r : ThreadRef) (va : Nat) : Dev :=
  let c := d.coreOf r
  if ((d.core c).tlb.any fun e => e.hits (d.tagOf r) va) || (d.heldPage c (d.tagOf r) va).isNone then d else d.count r 4 1

/-! ## Words -/

/-- The party a thread is, for the checks of its clauses. -/
def Dev.party (d : Dev) (r : ThreadRef) : Party :=
  match r with
  | .warp _ _ => .warp (d.coreOf r).home
  | .seq _ copy => .seq copy
  | .wave _ _ => .wave

/-- How a thread fetches: it looks at code, without waiting for a walk (log 14), or it fetches a clause that it will issue, one page of
whose code may have been walked for it. -/
inductive FetchMode where
  | look
  | issue (walked : Option Nat)
  deriving DecidableEq, Repr

/-- Why a fetch stops: it traps, or it waits for the walk of an address. -/
inductive FetchStop where
  | trap (k : TrapInfo)
  | walk (va : Nat)
  deriving DecidableEq, Repr

/-- Whether a fetch of an address has to wait for the walker (R77). -/
def Dev.fetchWaits (d : Dev) (r : ThreadRef) (m : FetchMode) (va : Nat) : Bool :=
  match m with
  | .look => false
  | .issue walked => va < 2 ^ 54 && match d.walkNeed (d.coreOf r) (d.tagOf r) va with
    | none => false
    | some (.page p) => walked ≠ some p
    | some (.chunk _ _ _) => true

/-- Fetch one word of code (R16, R47, R91). Code in a device-register page reads a free value (log 3); uncorrectable
code poisons its frame and traps like it (R92, log 30). The trap of a refused fetch concerns no lane, so its address field is zero
by R423 (DEDUCED, log 20). -/
def Dev.fetchWord (d : Dev) (r : ThreadRef) (m : FetchMode) (va : Nat) : (Word ⊕ FetchStop) × Dev :=
  let c := d.coreOf r
  let tag := d.tagOf r
  if d.fetchWaits r m va then (.inr (.walk va), d)
  else
    match (d.countTlbMiss r va).translate c tag va false true with
    | (.xlate sub, d) => (.inr (.trap (.plain causeXlate (BitVec.ofNat 64 sub))), d)
    | (.poison, d) => (.inr (.trap (.plain causePoison 0)), d)
    | (.ok (.mem pa leaf va) _, d) =>
      if isDevice pa.lpa then (.inl d.fresh.1.lo, d.fresh.2)
      else if pa.pkg.isNone && d.bad pa.lpa then (.inr (.trap (.plain causePoison 0)), d.foundBad pa.lpa)
      else
        match d.readThrough c tag pa leaf va 4 false none Forbidden.none none with
        | (some b, d) => (.inl (BitVec.ofNat 32 (bytesNat b)), d)
        | (none, d) => (.inl d.fresh.1.lo, d.fresh.2)
    | (.ok _ _, d) => (.inr (.trap (.plain causeXlate 11)), d)

/-- Fetch `n` words behind those of `acc` (last first). -/
def Dev.fetchMany (d : Dev) (r : ThreadRef) (m : FetchMode) : Nat → Nat → List Word → (List Word ⊕ FetchStop) × Dev
  | 0, _, acc => (.inl acc, d)
  | n + 1, va, acc =>
    match d.fetchWord r m va with
    | (.inr k, d) => (.inr k, d)
    | (.inl w, d) => d.fetchMany r m n (va + 4) (w :: acc)

/-- Fetch the words of `n` instructions; an unassigned opcode ends the clause's words. -/
def Dev.fetchBody (d : Dev) (r : ThreadRef) (m : FetchMode) : Nat → Nat → List Word → (List Word ⊕ FetchStop) × Dev
  | 0, _, acc => (.inl acc, d)
  | n + 1, va, acc =>
    match d.fetchWord r m va with
    | (.inr k, d) => (.inr k, d)
    | (.inl w, d) =>
      let op := fld 24 8 w
      if !opcodeAssigned op then (.inl (w :: acc), d)
      else
        match d.fetchMany r m (opcodeLength op - 1) (va + 4) (w :: acc) with
        | (.inr k, d) => (.inr k, d)
        | (.inl acc, d) => d.fetchBody r m n (va + 4 * opcodeLength op) acc

/-- Fetch and decode the clause at an address (R245): its header, block priority and instruction words. -/
def Dev.fetchClause (d : Dev) (r : ThreadRef) (m : FetchMode) (pc : DWord) :
    ((ClauseHeader × Option (BitVec 16) × List Word) ⊕ FetchStop) × Dev :=
  if pc.toNat % 4 ≠ 0 then (.inr (.trap (.plain causeAlign 0)), d)
  else
    match d.fetchWord r m pc.toNat with
    | (.inr k, d) => (.inr k, d)
    | (.inl w, d) =>
      match headerCheck w with
      | some b => (.inr (.trap (trapFetch b)), d)
      | none =>
        let h := ClauseHeader.ofWord w
        match d.fetchMany r m h.block.toNat (pc.toNat + 4) [w] with
        | (.inr k, d) => (.inr k, d)
        | (.inl acc, d) =>
          match d.fetchBody r m h.count.toNat (pc.toNat + 4 + 4 * h.block.toNat) acc with
          | (.inr k, d) => (.inr k, d)
          | (.inl acc, d) =>
            match decodeClause (d.party r) acc.reverse with
            | .ok h p ws => (.inl (h, p, ws), d)
            | .bad b => (.inr (.trap (trapFetch b)), d)
            | .short => (.inr (.trap (trapFetch ⟨0, acc.length - 1⟩)), d)

/-- The words of a clause's instructions from the instruction at a word offset on; none when no instruction starts
there (R246). -/
def wordsFrom : Nat → Nat → List Word → Option (List Word)
  | _, 0, ws => some ws
  | 0, _, _ => none
  | fuel + 1, off, ws =>
    match ws with
    | [] => none
    | w :: _ =>
      let n := opcodeLength (fld 24 8 w)
      if n ≤ off then wordsFrom fuel (off - n) (ws.drop n) else none

/-- The clause an entry goes on with: the clause at its PC, or the rest of the recorded clause when its PC is the address
of an instruction inside that one (R246). -/
def Dev.fetchEntry (d : Dev) (r : ThreadRef) (m : FetchMode) (e : Entry) (q : Choice) : (Clause ⊕ FetchStop) × Dev :=
  let clauseOf := fun (addr pc : DWord) (h : ClauseHeader) (all ws : List Word) =>
    ({ addr := addr, header := h, words := ws, pc := pc,
       next := addr + BitVec.ofNat 64 (4 + 4 * h.block.toNat + 4 * all.length), mask := e.mask, prio := e.prio, wait := 0,
       wasFirst := q.wasFirst, byLoop := q.byLoop, yield := h.yield } : Clause)
  let first := fun (h : ClauseHeader) => 4 + 4 * h.block.toNat
  match d.fetchClause r m e.clause with
  | (.inr k, d) => (.inr k, d)
  | (.inl (h, _, ws), d) =>
    let start := e.clause + BitVec.ofNat 64 (first h)
    if e.pc = e.clause then (.inl (clauseOf e.clause start h ws ws), d)
    else
      let off := (e.pc - start).toNat
      match (if off % 4 = 0 && off < 4 * ws.length then wordsFrom 16 (off / 4) ws else none) with
      | some rest => (.inl (clauseOf e.clause e.pc h ws rest), d)
      | none =>
        match d.fetchClause r m e.pc with
        | (.inr k, d) => (.inr k, d)
        | (.inl (h, _, ws), d) => (.inl (clauseOf e.pc (e.pc + BitVec.ofNat 64 (first h)) h ws ws), d)

/-- The block priority of the clause at a PC, when its header can be fetched and has the block bit (R196). The look at
the header leaves the caches as they were (log 14). -/
def Dev.headerPriority (d : Dev) (r : ThreadRef) (pc : DWord) : Option (BitVec 16) :=
  if pc.toNat % 4 ≠ 0 then none
  else
    match d.fetchMany r .look 1 pc.toNat [] with
    | (.inl (w :: _), d1) =>
      if (ClauseHeader.ofWord w).block then
        match d1.fetchMany r .look 1 (pc.toNat + 4) [] with
        | (.inl (b :: _), _) => some (fld 16 16 b)
        | _ => none
      else none
    | _ => none

/-- Whether an instruction of the clause at an address starts at a PC inside it (log 15). -/
def Dev.inClause (d : Dev) (r : ThreadRef) (clause pc : DWord) : Bool :=
  match d.fetchClause r .look clause with
  | (.inl (h, _, ws), _) =>
    let off := (pc - (clause + BitVec.ofNat 64 (4 + 4 * h.block.toNat))).toNat
    off % 4 == 0 && off < 4 * ws.length && (wordsFrom 16 (off / 4) ws).isSome
  | _ => false

/-- Whether the flags a clause waits for are clear (R248). -/
def flagsClear (t : Thread) (h : ClauseHeader) : Bool :=
  (upFrom 0 12).all fun i => !(h.wait.getLsbD i) || t.flags.getD i 0 == 0

end Sys2Proof.Machine
end

