-- ==== Sys2Proof/Machine/Ops.lean ====
section
/-! DEFINITION. The named operations every meaning is built from: running a meaning for the issuing party, performance
counts, private addresses, taking an exception (R391, R423, R426) and returning from one (R392), going on to the next
instruction and ending a clause (R196, R199), the allotment check (R203), and the forms of the register instructions. -/

namespace Sys2Proof.Machine

/-- What a meaning answers. -/
abbrev Out := Host.Outcome State Fault Refusal

/-- An instruction's meaning: it acts for the party that issues it (log 4); without one it cannot be executed. -/
def runFor (s : State) (f : ThreadRef → Thread → Dev → Dev) : Out :=
  match s.dev.issuer with
  | none => .fault .noIssuer
  | some r =>
    match s.dev.thread r with
    | none => .fault .noIssuer
    | some t => .next { s with dev := f r t s.dev }

/-- An event's meaning: it happens, or it cannot happen in this state. -/
def happen (s : State) (f : Dev → Option Dev) : Out :=
  match f s.dev with
  | some d => .next { s with dev := d }
  | none => .fault .notEnabled

/-! ## Allotment (R201, R203) -/

/-- The general and index registers a party may name now. -/
def Dev.allotment (d : Dev) (r : ThreadRef) : Nat × Nat :=
  match r with
  | .warp _ _ =>
    match d.groupOf r with
    | some g =>
      match g.state with
      | .full => (8 * recGblk g.record.bytes, 4 * (recXq g.record.bytes + 1))
      | .tail => (8, 0)
      | _ => (16, 4)
    | none => (0, 0)
  | .wave c slot =>
    match (d.core c).waves.getD slot none with
    | some w => (8 * w.gblk, 4 * (w.xq + 1))
    | none => (0, 0)
  | .seq _ _ => (112, 16)

/-- The first register field outside the allotment. -/
def outside (lim : Nat × Nat) (regs : List (BitVec 7)) : Option (BitVec 7) :=
  regs.find? fun r => if isX r then lim.2 ≤ xNum r else lim.1 ≤ r.toNat

/-- The ALLOT trap of an instruction that names the given registers, if it takes one. -/
def Dev.allotTrap (d : Dev) (r : ThreadRef) (regs : List (BitVec 7)) : Option TrapInfo :=
  (outside (d.allotment r) regs).map fun f => .plain causeAllot (f.setWidth 64)

/-- The registers of an operand of `n` consecutive registers. -/
def regRun (r : BitVec 7) : Nat → List (BitVec 7)
  | 0 => []
  | n + 1 => r :: regRun (r + 1) n

/-! ## Private space (R25 to R27) -/

/-- The virtual address of private offset `o` of a lane of a warp of a group (R26). -/
def privAddr (g : Group) (wid lane o : Nat) : Nat :=
  g.privBase + wid * 32 * g.priv + o / 16 * 512 + lane * 16 + o % 16

/-! ## Taking an exception (R391, R423, R424, R426) -/

/-- The bytes of a trap frame (R423). -/
def TrapFrame.bytes (f : TrapFrame) : List Byte :=
  natBytes f.pc.toNat 8 ++ natBytes f.clause.toNat 8 ++ natBytes f.mask.toNat 4 ++ natBytes f.prio.toNat 2
    ++ [f.cause, f.flags] ++ natBytes f.detail.toNat 8 ++ natBytes f.address.toNat 8 ++ [f.lane] ++ List.replicate 23 0

/-- The frame of a trap at an entry: flags bit 0 precise, bit 1 raised through RNDV, bit 2 inside the clause (R423). -/
def frameOf (e : Entry) (k : TrapInfo) (precise viaRndv : Bool) : TrapFrame :=
  { pc := e.pc, clause := e.clause, mask := e.mask, prio := e.prio, cause := k.cause,
    flags := BitVec.ofNat 8 (precise.toNat + 2 * viaRndv.toNat + 4 * (e.pc != e.clause).toNat),
    detail := k.detail, address := k.address, lane := k.lane }

/-- The four 16-byte chunks of the frame at TFRAME in a lane's private space: their virtual addresses (R423, R26). -/
def frameChunks (g : Group) (t : Thread) (lane : Nat) : List Nat :=
  [0, 16, 32, 48].map fun o => privAddr g t.wid lane (t.tframe.toNat + o)

/-- Translate a list of virtual addresses, stopping at the first that fails. -/
def Dev.translateAll (d : Dev) (c : CoreRef) (tag : BitVec 16) (write : Bool) :
    List Nat → (List (Nat × Target × TlbEntry) ⊕ (Nat × XlateOut)) × Dev
  | [] => (.inl [], d)
  | va :: rest =>
    match d.translate c tag va write false with
    | (.ok tg e, d) =>
      match d.translateAll c tag write rest with
      | (.inl l, d) => (.inl ((va, tg, e) :: l), d)
      | (.inr f, d) => (.inr f, d)
    | (bad, d) => (.inr (va, bad), d)

/-- Write bytes at a translated place of this package, near caches included (R106). -/
def Dev.writeAt (d : Dev) (c : CoreRef) (tag : BitVec 16) (tg : Target) (b : List Byte) : Dev :=
  match tg with
  | .mem pa leaf _ => (d.storeNear c tag pa leaf none b).storeHome pa.lpa leaf none b
  | .host a => { d with hostMem := memWrite d.hostMem a b }
  | _ => d

/-- Write a frame's chunks. -/
def Dev.writeChunks (d : Dev) (c : CoreRef) (tag : BitVec 16) : List (Nat × Target × TlbEntry) → List Byte → Dev
  | [], _ => d
  | (_, tg, _) :: rest, b => (d.writeAt c tag tg (b.take 16)).writeChunks c tag rest (b.drop 16)

/-- Stop a warp at an entry and deliver its trap to the supervisor: its gang is to be saved (R426). TSTAT.cause is that of the
last trap whose handler was entered (R391). -/
def Dev.deliver (d : Dev) (r : ThreadRef) (e : Entry) (f : TrapFrame) : Dev :=
  let d := d.onThread r fun t =>
    { t with frontier := insertEntry e t.frontier, clause := none, wait := .none, frame := some f, ended := false }
  match d.groupOf r with
  | some g => d.onGang g.gang fun q => if q.save.isSome then q else { q with save := some 3 }
  | none => d

/-- Enter a warp's handler with a frame: none while a chunk of it has to wait at its place, since the frame is written there before the
handler issues; a frame that cannot be written leaves the trap to the supervisor (R391). Traps are masked from then on, so a loss that
is still to be taken is held in TSTAT.pend (R393). -/
def Dev.enterHandler (d : Dev) (r : ThreadRef) (g : Group) (t : Thread) (e : Entry) (f : TrapFrame) : Option Dev :=
  match d.translateAll g.core (mkTag g.ctx g.epoch) true (frameChunks g t (lowest e.mask)) with
  | (.inr _, d) => some (d.deliver r e f)
  | (.inl tgs, d) =>
    if tgs.any fun x => d.placeWaits x.2.1 16 then none
    else
      let d := d.writeChunks g.core (mkTag g.ctx g.epoch) tgs f.bytes
      some (d.onThread r fun t =>
        { t with frontier := [⟨t.tvec, 0xFFFF, e.mask, 0, t.tvec⟩], clause := none, wait := .none, masked := true,
                 pend := t.pend || t.loss, tcause := f.cause, handlers := ⟨t.frontier, e⟩ :: t.handlers, trapped := none,
                 ended := false })

/-- A trap raised in a warp at an entry that is no longer in its frontier (R391); one in a replay ends it (R442). Its frame is checked
like a private store (R79): what misses the TLBs is asked of the walker, and the warp waits. -/
def Dev.trapWarp (d : Dev) (r : ThreadRef) (e : Entry) (k : TrapInfo) (precise viaRndv : Bool) : Dev :=
  match d.groupOf r, d.thread r with
  | some g, some t =>
    let d := d.endReplay
    let f := frameOf e k precise viaRndv
    if t.masked || t.tvec = 0 || g.priv < t.tframe.toNat + 64 || t.tframe.toNat % 16 ≠ 0 then d.deliver r e f
    else
      let needs := d.needsOf r (frameChunks g t (lowest e.mask))
      match (if needs.isEmpty then d.enterHandler r g t e f else none) with
      | some d => d
      | none =>
        (d.onThread r fun t => { t with clause := none, wait := .trap d.cycles e f, trapped := none, ended := false }).askFor r needs
  | _, _ => d

/-- The entry of the clause in progress, at the instruction about to issue. -/
def Clause.entry (c : Clause) : Entry := ⟨c.pc, c.prio, c.mask, c.wait, c.addr⟩

/-- Raise in an ended warp the faults its sequencer programs left, one at a time (R211). -/
def Dev.raiseSeqFault (d : Dev) (r : ThreadRef) : Dev :=
  match d.thread r with
  | some t =>
    match t.ended, t.trapped, t.seqFaults with
    | true, some e, (_, f) :: rest =>
      (d.onThread r fun t => { t with seqFaults := rest }).trapWarp r e ⟨f.cause, f.detail, f.pc, 0xFF⟩ true true
    | _, _, _ => d
  | none => d

/-- End the program of a sequencer: a fault is held for the forking warp (R211), the baton goes back to it (R208). -/
def Dev.seqEnd (d : Dev) (c : CoreRef) (copy : Bool) (f : Option TrapFrame) : Dev :=
  match if copy then (d.core c).copySeq else (d.core c).matSeq with
  | none => d
  | some p =>
    let p' := { p with ended := true, thread := { p.thread with frontier := [], clause := none, wait := .none } }
    let d := d.onCore c fun q =>
      if copy then { q with copySeq := some p' }
      else { q with matSeq := some p', baton := match q.baton with
        | .seq _ => .warp p.gid p.forker
        | b => b }
    match f with
    | none => d
    | some f =>
      (d.endReplay.onThread (.warp p.gid p.forker) fun t => { t with seqFaults := t.seqFaults ++ [(copy, f)] }).raiseSeqFault
        (.warp p.gid p.forker)

/-- A trap raised in a party at an entry (R391; R211 in a sequencer program; R178 in a wave, whose cause and word offset
are kept for its error replies). -/
def Dev.raiseAt (d : Dev) (r : ThreadRef) (e : Entry) (k : TrapInfo) : Dev :=
  match r with
  | .warp _ _ => d.trapWarp r e k true false
  | .seq c copy => d.seqEnd c copy (some (frameOf e k true true))
  | .wave c slot => d.onCore c fun q => { q with waves := updAt q.waves slot fun w => w.map fun w =>
      { w with fault := some (k.cause, min ((e.pc - w.entry).toNat / 4) 0xFFFF),
               thread := { w.thread with frontier := [], clause := none, wait := .none, ended := true } } }

/-- A trap raised by the instruction in progress: its saved PC is that of the instruction. -/
def Dev.raise (d : Dev) (r : ThreadRef) (k : TrapInfo) : Dev :=
  match (d.thread r).bind fun t => t.clause with
  | some c => d.raiseAt r c.entry k
  | none => d

/-- LOST taken by a release operation that found the loss bit set: the saved PC is that of the release; taking it clears
the loss bit, and what TSTAT.pend held (R127, R393). -/
def Dev.raiseLost (d : Dev) (r : ThreadRef) : Dev :=
  match (d.thread r).bind fun t => t.clause with
  | some c =>
    (d.onThread r fun t => { t with loss := false, pend := false }).trapWarp r c.entry (.plain causeLost 0) false false
  | none => d

/-! ## Going on, ending a clause (R196, R197, R199) -/

/-- A thread whose frontier is empty has ended: a warp keeps the entry it ended at (log 16), a sequencer program gives
the baton back (R208); a fault its sequencer left is raised in an ended warp (R211). -/
def Dev.endThread (d : Dev) (r : ThreadRef) (e : Entry) : Dev :=
  match r with
  | .seq c copy => d.seqEnd c copy none
  | _ => (d.onThread r fun t =>
      { t with frontier := [], clause := none, wait := .none, handlers := [], trapped := some e, ended := true }).raiseSeqFault r

/-- The frontier after the lanes of a finished clause have gone to their places (R196, R197), and the loop count (R199). -/
def Thread.afterMoves (t : Thread) (c : Clause) (ms : List (Move × Option (BitVec 16))) (tick : Nat) : Thread :=
  let f := ms.foldl (fun f m =>
    if m.1.mask = 0 then f else insertEntry ⟨m.1.pc, m.2.getD c.prio, m.1.mask, c.wait, m.1.pc⟩ f) t.frontier
  let back := ms.any fun m => m.1.taken && m.1.mask ≠ 0 && m.1.pc ≤ c.pc && (f.head?.map fun e => e.pc) = some m.1.pc
  { t with frontier := f, clause := none, wait := .none, stamp := if c.yield then tick else t.stamp,
           loopCount := if c.wasFirst && back then min (t.loopCount + 1) 64
                        else if c.byLoop then t.loopCount else 0 }

/-- End the clause in progress: its lanes go to the given places; with none left anywhere the thread ends (R210). -/
def Dev.endClause (d : Dev) (r : ThreadRef) (moves : List Move) : Dev :=
  match (d.thread r).bind fun t => t.clause with
  | none => d
  | some c =>
    let ms := moves.map fun m => (m, d.headerPriority r m.pc)
    let (tick, d) := d.bump
    let d := d.onThread r fun t => t.afterMoves c ms tick
    match d.thread r with
    | some t => if t.frontier.isEmpty && (t.handlers.all fun h => h.suspended.isEmpty) then d.endThread r c.entry else d
    | none => d

/-- Go on to the next instruction of the clause, `len` words on, or end the clause with every lane in one entry. -/
def Dev.retire (d : Dev) (r : ThreadRef) (len : Nat) : Dev :=
  match (d.thread r).bind fun t => t.clause with
  | none => d
  | some c =>
    let d := d.count r 2 1
    if c.words.length ≤ len then d.endClause r [⟨c.mask, c.next, false⟩]
    else d.onThread r fun t =>
      { t with wait := .none, clause := some { c with words := c.words.drop len, pc := c.pc + BitVec.ofNat 64 (4 * len) } }

/-- End the clause by a transfer (R297). -/
def Dev.transfer (d : Dev) (r : ThreadRef) (moves : List Move) : Dev := (d.count r 2 1).endClause r moves

/-- Hold the thread at its instruction. -/
def Dev.hold (d : Dev) (r : ThreadRef) (w : Wait) : Dev := d.onThread r fun t => { t with wait := w }

/-! ## Return from an exception (R392) -/

/-- The state of a warp after ERET with the PC its frame holds: the saved entry in the place of the handler's, with its
own priority and those of its lanes that the handler's entry still has; traps unmasked; the entries back that were suspended when
this handler was entered. A handler in which it was entered goes on. -/
def Thread.returned (t : Thread) (h : Handled) (mask : Word) (pc clause : DWord) : Thread :=
  let e := h.entry
  let f := h.suspended.foldl (fun f x => insertEntry x f) t.frontier
  let m := e.mask &&& mask
  { t with frontier := if m = 0 then f else insertEntry { e with pc := pc, mask := m, clause := clause } f,
           clause := none, wait := .none, handlers := t.handlers.drop 1, masked := false }

/-- Read the frame's bytes at its chunks. -/
def Dev.readChunks (d : Dev) (c : CoreRef) (tag : BitVec 16) : List (Nat × Target × TlbEntry) → List Byte × Dev
  | [] => ([], d)
  | (va, tg, _) :: rest =>
    let (b, d) := match tg with
      | .mem pa leaf _ =>
        match d.readThrough c tag pa leaf va 16 true none Forbidden.none none with
        | (some b, d) => (b, d)
        | (none, d) => (List.replicate 16 0, d)
      | _ => (List.replicate 16 0, d)
    let (r, d) := d.readChunks c tag rest
    (b ++ r, d)

/-- The return from an exception (R392): ILLEGAL when no handler runs; a frame that cannot be read traps (R391, R423). -/
def Dev.returnTrap (d : Dev) (r : ThreadRef) : Dev :=
  match d.groupOf r, d.thread r with
  | some g, some t =>
    match t.clause, t.handlers.head? with
    | some c, some h =>
      let e := h.entry
      let lane := lowest c.mask
      let ln := BitVec.ofNat 8 lane
      if g.priv < t.tframe.toNat + 64 then d.raise r ⟨causeBounds, 0, t.tframe.setWidth 64, ln⟩
      else if t.tframe.toNat % 16 ≠ 0 then d.raise r ⟨causeAlign, 0, t.tframe.setWidth 64, ln⟩
      else
        let tag := mkTag g.ctx g.epoch
        match d.translateAll g.core tag false (frameChunks g t lane) with
        | (.inr (va, .xlate sub), d) => d.raise r (trapXlate sub (BitVec.ofNat 64 va) ln)
        | (.inr (va, _), d) => d.raise r ⟨causePoison, 0, BitVec.ofNat 64 va, ln⟩
        | (.inl tgs, d) =>
          let (b, d) := d.readChunks g.core tag tgs
          let pc := BitVec.ofNat 64 (bytesNat (b.take 8))
          let clause := if pc = e.pc || d.inClause r e.clause pc then e.clause else pc
          let d := d.count r 2 1
          let d := d.onThread r fun t => t.returned h c.mask pc clause
          match d.thread r with
          | some t => if t.frontier.isEmpty && (t.handlers.all fun h => h.suspended.isEmpty) then d.endThread r c.entry else d
          | none => d
    | some _, none => d.raise r trapIllegal
    | none, _ => d
  | _, _ => d.raise r trapIllegal

/-- The addresses of the frame that ERET reads: none where it reads no frame (R392, R423). -/
def Dev.returnReads (d : Dev) (r : ThreadRef) : List Nat :=
  match d.groupOf r, d.thread r with
  | some g, some t =>
    match t.clause, t.handlers with
    | some c, _ :: _ =>
      if g.priv < t.tframe.toNat + 64 || t.tframe.toNat % 16 ≠ 0 then [] else frameChunks g t (lowest c.mask)
    | _, _ => []
  | _, _ => []

/-! ## Forms of the register instructions -/

/-- An instruction that changes registers and predicates of its taking-part lanes: `regs` are the register fields it
names, `f` gives a lane after it. An ALLOT trap comes first and performs no lane (R203). -/
def lanesOp (s : State) (len : Nat) (regs : List (BitVec 7)) (g : Guard) (f : Thread → Nat → Lane → Lane) : Out :=
  runFor s fun r t d =>
    match d.allotTrap r regs with
    | some k => d.raise r k
    | none => (d.onThread r fun t' => t'.mapLanes (isSeq r) (t.taking g) (f t)).retire r len

/-- An instruction that changes its thread as a whole. -/
def threadOp (s : State) (len : Nat) (regs : List (BitVec 7)) (f : Dev → ThreadRef → Thread → Thread) : Out :=
  runFor s fun r t d =>
    match d.allotTrap r regs with
    | some k => d.raise r k
    | none => (d.onThread r fun _ => f d r t).retire r len

end Sys2Proof.Machine
end

