-- ==== Sys2Proof/Machine/Issue.lean ====
section
/-! DEFINITION. Issue (R199, R200, R248): which threads may go on, the choice of a warp by an issue slot, the start of a
clause, and the events CLAUSE_ISSUE, FRONTIER_WAIT_LIMIT, LOOP_LIMIT and SEQUENCER_ISSUE. -/

namespace Sys2Proof.Machine

/-- Whether the arithmetic clocks run (R445, R453). -/
def Dev.clocked (d : Dev) : Bool := d.on && d.emergency.isNone && d.boot == 1

/-- The wave a thread is. -/
def Dev.waveOf (d : Dev) (r : ThreadRef) : Option Wave :=
  match r with
  | .wave c slot => (d.core c).waves.getD slot none
  | _ => none

/-- Whether a wave has run for its method's time limit (R178). -/
def Dev.timedOut (d : Dev) (w : Wave) : Bool := w.limit ≠ 0 && decide (w.start + 1024 * w.limit ≤ d.cycles)

/-- Whether a thread may issue at all: it lives, no trap of it waits for the supervisor (R426), its gang is not being
saved, unless its traps are masked (R430, R431), and it is no wave whose time has passed (R178, R189). -/
def Dev.mayIssue (d : Dev) (r : ThreadRef) (t : Thread) : Bool :=
  d.clocked && !t.ended && t.frame.isNone && !((d.waveOf r).any fun w => d.timedOut w) &&
  match (d.groupOf r).bind fun g => d.gang g.gang with
  | some q => q.save.isNone || t.masked
  | none => true

/-- The threads of a core that share its issue slots: warps of its groups, waves of its Wain (R173, R191). -/
def Dev.threadsOn (d : Dev) (c : CoreRef) : List (ThreadRef × Thread) :=
  ((d.groups.filter fun g => g.core = c).flatMap fun g => g.warps.map fun w => (ThreadRef.warp g.gid w.wid, w)) ++
    (foldIdx (fun n (l : List (ThreadRef × Thread)) (w : Option Wave) => match w with
      | some w => l ++ [(ThreadRef.wave c n, w.thread)]
      | none => l) 0 [] (d.core c).waves)

/-- Whether a thread goes on with the clause it has started. -/
def Thread.going (t : Thread) : Bool := t.clause.isSome && !t.ended

/-- Whether a thread halted by HALT has a trap to take (R399). -/
def Thread.haltTrap (t : Thread) : Bool := t.wait = .halt && t.loss && !t.masked

/-- Whether nothing holds a thread between two clauses: a restored warp that had arrived at a barrier goes on once it is
released (R246, R431). -/
def Wait.over : Wait → Bool
  | .none => true
  | .released _ _ _ => true
  | .fetched _ => true
  | _ => false

/-- The page of code that has been walked for a fetch. -/
def Wait.walked : Wait → Option Nat
  | .fetched va => Option.some (va / 4096)
  | _ => Option.none

/-- Whether a thread's next clause is eligible (R200, R248): a clause that cannot be fetched is, and takes its trap. -/
def Dev.eligible (d : Dev) (r : ThreadRef) (t : Thread) : Bool :=
  d.mayIssue r t && t.clause.isNone && t.wait.over &&
  ((t.loss && !t.masked) ||
  match chooseEntry t.frontier t.loopCount with
  | none => false
  | some q =>
    match (d.fetchEntry r .look q.entry q).1 with
    | .inl c => flagsClear t c.header
    | .inr _ => true)

/-- LOST at a clause boundary: the saved PC is that of the next instruction the warp would issue (R127, R424). -/
def Dev.boundaryLost (d : Dev) (r : ThreadRef) (t : Thread) : Dev :=
  let take := fun (d : Dev) (e : Entry) => match r with
    | .wave _ _ => d.raiseAt r e (.plain causeLost 0)
    | _ => d.trapWarp r e (.plain causeLost 0) false false
  let d := d.onThread r fun t => { t with loss := false, pend := false, wait := .none }
  match t.clause with
  | some c => take (d.onThread r fun t => { t with clause := none }) c.entry
  | none =>
    match chooseEntry t.frontier t.loopCount with
    | none => d
    | some q => take (d.onThread r fun t => { t with frontier := t.frontier.filter fun x => x.pc ≠ q.entry.pc }) q.entry

/-- The acquire of a restored warp that a barrier has released (R139, R358). -/
def Dev.resumeAcquire (d : Dev) (r : ThreadRef) (t : Thread) : Dev :=
  match t.wait with
  | .released spans whole scope =>
    (d.acquireBarrier (d.coreOf r) (d.tagOf r) scope spans whole).onThread r fun t => { t with wait := .none }
  | _ => d

/-- A thread takes the entry that R199 has chosen: the others' wait counts rise, and a clause is issued. -/
def Dev.takeEntry (d : Dev) (r : ThreadRef) (q : Choice) : Dev :=
  let (tick, d) := d.bump
  (d.onThread r fun t =>
    { t with frontier := othersWait t.frontier q.entry, loopCount := q.loopCount, stamp := tick, wait := .none }).count r 1 1

/-- Start the next clause of a thread: LOST first (R127), else the entry R199 chooses, fetched and decoded whole (R245). A fetch that
misses the TLBs waits for the walker (R77) and then begins again. -/
def Dev.startClause (d : Dev) (r : ThreadRef) : Option Dev :=
  match d.thread r with
  | none => none
  | some t =>
    let d := d.resumeAcquire r t
    if t.loss && !t.masked then some (d.boundaryLost r t)
    else
      match chooseEntry t.frontier t.loopCount with
      | none => none
      | some q =>
        match d.fetchEntry r (.issue t.wait.walked) q.entry q with
        | (.inl c, d) => some ((d.takeEntry r q).onThread r fun t => { t with clause := some c })
        | (.inr (.trap k), d) => some ((d.takeEntry r q).raiseAt r { q.entry with wait := 0 } k)
        | (.inr (.walk va), d) => some ((d.hold r (.fetch va)).askFor r (d.needsOf r [va]))

/-- The least recently issued of some threads (R200). R200 does not order threads that have never issued, whose stamps are equal: the first
of the core's groups and of their warps is taken (DESIGN CHOICE, log 56). -/
def leastRecent : List (ThreadRef × Thread) → Option (ThreadRef × Thread)
  | [] => none
  | a :: r =>
    match leastRecent r with
    | some b => if b.2.stamp < a.2.stamp then some b else some a
    | none => some a

/-- The thread an issue slot chooses: none while a thread of the slot goes on with its clause (R200). -/
def Dev.slotChoice (d : Dev) (c : CoreRef) (slot : Nat) : Option (ThreadRef × Thread) :=
  let ts := (d.threadsOn c).filter fun p => p.2.slot == slot
  if ts.any fun p => p.2.going && p.2.wait = .none && d.mayIssue p.1 p.2 then none
  else leastRecent (ts.filter fun p => d.eligible p.1 p.2 || (d.mayIssue p.1 p.2 && p.2.haltTrap))

/-- A thread issues on its slot. -/
def Dev.takeSlot (d : Dev) (r : ThreadRef) : Dev :=
  match r, d.thread r with
  | .seq _ _, _ => d
  | _, some t => d.onCore (d.coreOf r) fun k => { k with issuing := (t.slot, r) :: k.issuing.filter fun x => x.1 ≠ t.slot }
  | _, none => d

/-- Whether a thread's slot may issue it now: a slot issues the whole clause of the thread that it issued last, unless that thread
waits inside it (R200). -/
def Dev.slotFree (d : Dev) (r : ThreadRef) (t : Thread) : Bool :=
  match r with
  | .seq _ _ => true
  | _ => !((d.core (d.coreOf r)).issuing.any fun x => x.1 = t.slot && x.2 ≠ r &&
      (d.thread x.2).any fun h => h.slot = t.slot && h.going && h.wait = .none && d.mayIssue x.2 h)

/-- CLAUSE_ISSUE (R200): the slot chooses an eligible warp and frontier entry, then fetches, decodes and checks the
clause. -/
def execClauseIssue (core : CoreRef) (slot : Nat) (s : State) : Out :=
  happen s fun d =>
    match d.slotChoice core slot with
    | some (r, _) => (d.takeSlot r).startClause r
    | none => none

/-- FRONTIER_WAIT_LIMIT (R199): the chosen warp holds an entry with a wait count of 992 or more, which issues. -/
def execFrontierWaitLimit (core : CoreRef) (slot : Nat) (s : State) : Out :=
  happen s fun d =>
    match d.slotChoice core slot with
    | some (r, t) => if t.frontier.any fun e => 992 ≤ e.wait then (d.takeSlot r).startClause r else none
    | none => none

/-- LOOP_LIMIT (R199): the chosen warp's loop count is 64, and the second entry issues. -/
def execLoopLimit (core : CoreRef) (slot : Nat) (s : State) : Out :=
  happen s fun d =>
    match d.slotChoice core slot with
    | some (r, t) =>
      if (chooseEntry t.frontier t.loopCount).any fun q => q.byLoop then (d.takeSlot r).startClause r else none
    | none => none

/-- SEQUENCER_ISSUE (R211): a sequencer fetches and issues the next clause of its program; a fetch fault or a forbidden
instruction ends the program. -/
def execSequencerIssue (core : CoreRef) (copy : Bool) (s : State) : Out :=
  happen s fun d =>
    match d.thread (.seq core copy) with
    | some t => if !t.ended && d.eligible (.seq core copy) t then d.startClause (.seq core copy) else none
    | none => none

/-- Whether a thread's instruction in progress may be issued, or issued again to look at what it waits for. -/
def Dev.canStep (d : Dev) (r : ThreadRef) (t : Thread) : Bool :=
  d.mayIssue r t && t.clause.isSome && d.slotFree r t &&
  match t.wait with
  | .translation _ _ => false
  | .launch => false
  | .op _ => false
  | .quiet _ _ none => false
  | .halt => false
  | _ => true

end Sys2Proof.Machine
end

