-- ==== Sys2Proof/Machine/Flags.lean ====
section
/-! DEFINITION. Completion flags and outstanding operations (R125 to R127, R247 to R251): tagging and clearing flags, the
unacknowledged-store counter, the loss bit, the operations that are outstanding, and the form of a long-latency
instruction. -/

namespace Sys2Proof.Machine

/-! ## The clause in progress -/

/-- The address an offset in words from the clause address names (R259). -/
def Clause.target (c : Clause) {n : Nat} (off : BitVec n) : DWord := c.addr + BitVec.ofInt 64 (4 * off.toInt)

/-- The instruction a thread issues next: the one its clause's words begin with. -/
def Thread.head (t : Thread) : Option Decoded := t.clause.map fun c => decode c.words

/-! ## Flags (R247) -/

/-- The completion flag an instruction's flag-select bit names: none when the header selects 15. -/
def Clause.flag (c : Clause) (f : BitVec 1) : Option Nat :=
  let n := if f = 0 then c.header.flagA else c.header.flagB
  if n = 15 then none else some n.toNat

/-- The flag a thread's instruction in progress selects. -/
def Thread.flagOf (t : Thread) (f : BitVec 1) : Option Nat := t.clause.bind fun c => c.flag f

/-- Whether a flag already counts 63 outstanding operations. -/
def Thread.flagFull (t : Thread) (f : Option Nat) : Bool :=
  match f with
  | some n => 63 ≤ t.flags.getD n 0
  | none => false

/-- One more, and one less, outstanding operation of a flag. -/
def Thread.tagFlag (t : Thread) (f : Option Nat) : Thread :=
  match f with
  | some n => { t with flags := updAt t.flags n (· + 1) }
  | none => t
def Thread.untagFlag (t : Thread) (f : Option Nat) : Thread :=
  match f with
  | some n => { t with flags := updAt t.flags n (· - 1) }
  | none => t

/-- Whether one more counted instruction fits the unacknowledged-store counter (R125). -/
def Thread.mayCount (t : Thread) : Bool := t.unack < 1023

/-- The form of a long-latency instruction: an ALLOT trap first; then it waits while its flag is full (R203, R247). -/
def longOpBy (s : State) (regs : Thread → List (BitVec 7)) (f : BitVec 1)
    (act : ThreadRef → Thread → Option Nat → Dev → Dev) : Out :=
  runFor s fun r t d =>
    match d.allotTrap r (regs t) with
    | some k => d.raise r k
    | none => if t.flagFull (t.flagOf f) then d.hold r .retry else act r t (t.flagOf f) d

def longOp (s : State) (regs : List (BitVec 7)) (f : BitVec 1) (act : ThreadRef → Thread → Option Nat → Dev → Dev) : Out :=
  longOpBy s (fun _ => regs) f act

/-- Hold a thread in a translation stall for its addresses: what they need is asked of the walker of its die (R77, R79). -/
def Dev.stall (d : Dev) (r : ThreadRef) (vas : List Nat) : Dev :=
  (d.hold r (.translation d.cycles vas)).askFor r (d.needsOf r vas)

/-- Change a lane of a thread. -/
def Dev.onLane (d : Dev) (r : ThreadRef) (lane : Nat) (f : Lane → Lane) : Dev :=
  d.onThread r fun t => { t with lanes := updAt t.lanes lane f }

/-! ## Outstanding operations -/

def Dev.op (d : Dev) (id : Nat) : Option Op := d.ops.find? fun o => o.id = id
def Dev.onOp (d : Dev) (id : Nat) (f : Op → Op) : Dev := { d with ops := updBy (fun o => o.id = id) f d.ops }
def Dev.dropOp (d : Dev) (id : Nat) : Dev := { d with ops := d.ops.filter fun o => o.id ≠ id }
def Dev.onPiece (d : Dev) (id n : Nat) (f : Piece → Piece) : Dev :=
  d.onOp id fun o => { o with pieces := updAt o.pieces n f }

/-- A new outstanding operation: it gets a number and a place in issue order, and tags its flag. -/
def Dev.addOp (d : Dev) (o : Op) : Nat × Dev :=
  let id := d.nextId
  let d := { d with nextId := id + 1, ops := d.ops ++ [{ o with id := id, stamp := id }] }
  (id, d.onThread o.thread fun t =>
    { t.tagFlag o.flag with unack := if o.counted then t.unack + 1 else t.unack })

/-- The number of a group's job. -/
def Group.jobNum (g : Group) : Nat := g.job % 256

/-- An operation of a thread before its pieces are filled in. -/
def Dev.opFor (d : Dev) (r : ThreadRef) (kind : OpKind) (access : AccessKind) (flag : Option Nat) (mask : Word) : Op :=
  { id := 0, thread := r, core := d.coreOf r, tag := d.tagOf r,
    job := ((d.groupOf r).map fun g => g.job).getD (d.ctxOf r * 256), kind := kind,
    flag := flag, counted := false, mask := mask, dest := 0, pred := 7, hint := none, access := access, noInstall := [],
    noInstallAll := false, noRdc := [], noRdcAll := false, frames := [], pins := [], late := [], noLines := [], pieces := [], stamp := 0 }

/-- Whether a thread has a load not yet performed (R103, R118). -/
def Dev.loadsPending (d : Dev) (r : ThreadRef) : Bool :=
  d.ops.any fun o => o.thread = r && o.access = .load && o.pieces.any fun p => !p.done && p.value.isNone

/-- What a release operation waits for (R118, R125, R139). -/
def Dev.releaseReady (d : Dev) (r : ThreadRef) (t : Thread) : Bool := t.unack == 0 && !d.loadsPending r

/-- The warp that takes the LOST of a party: of a sequencer program the warp that forked it. -/
def Dev.lossTaker (d : Dev) (r : ThreadRef) : ThreadRef :=
  match r with
  | .seq c copy => ((if copy then (d.core c).copySeq else (d.core c).matSeq).map fun p => ThreadRef.warp p.gid p.forker).getD r
  | r => r

/-- A loss sets the warp's loss bit; while its traps are masked TSTAT shows it as pending (R127, R393). -/
def Dev.markLoss (d : Dev) (r : ThreadRef) : Dev :=
  d.onThread (d.lossTaker r) fun t => { t with loss := true, pend := t.pend || t.masked }

/-! ## Scratch (R29 to R34, R193) -/

/-- A byte of a group's scratch: what was written last, else a free value (log 3). -/
def Group.scratchGet (g : Group) (off : Nat) : Byte := cellGet (Config.scratchByte g.seed off) g.scratch off

def Group.scratchRead (g : Group) (off : Nat) : Nat → List Byte
  | 0 => []
  | n + 1 => g.scratchGet off :: g.scratchRead (off + 1) n

/-- Cells written from an offset up. -/
def putAll (m : List Host.Cell) (a : Nat) : List Byte → List Host.Cell
  | [] => m
  | b :: r => putAll (cellPut m a b) (a + 1) r

def Dev.scratchWrite (d : Dev) (gid off : Nat) (b : List Byte) : Dev :=
  d.onGroup gid fun g => { g with scratch := putAll g.scratch off b }

/-- The group and offset a scratch address names, when an access of `n` bytes there passes R29 to R31. -/
def Dev.scratchAt (d : Dev) (g : Group) (a n : Nat) : Option (Nat × Nat) :=
  let off := a % 2 ^ 19
  let member := a / 2 ^ 19 % 4
  if 2 ^ 22 ≤ a then none
  else if bitOf a 21 then
    (if g.gangSize ≤ member then none
     else match d.groups.find? fun k => k.gang = g.gang && k.member = member with
      | some k => if off + n ≤ k.scratchBytes then some (k.gid, off) else none
      | none => none)
  else if member ≠ 0 then none
  else if off + n ≤ g.scratchBytes then some (g.gid, off) else none

/-- A wave's scratch: zero where nothing is written (R176). -/
def Wave.scratchRead (w : Wave) (off : Nat) : Nat → List Byte
  | 0 => []
  | n + 1 => cellGet 0 w.scratch off :: w.scratchRead (off + 1) n

def Dev.onWave (d : Dev) (r : ThreadRef) (f : Wave → Wave) : Dev :=
  match r with
  | .wave c slot => d.onCore c fun k => { k with waves := updAt k.waves slot fun w => w.map f }
  | _ => d

/-! ## Array registers (R38, R81 to R84) -/

def Thread.arr (t : Thread) (n : BitVec 4) : ArrReg := t.arrays.getD n.toNat ArrReg.reset
def Thread.setArr (t : Thread) (n : Nat) (a : ArrReg) : Thread := { t with arrays := t.arrays.set n a }

/-- The interval of x + c in a lane, formed by interval addition (R83). -/
def Lane.indexIvl (l : Lane) (x : BitVec 4) (c : Int) : Ivl :=
  ivlAdd ⟨(l.xr x.toNat).lo.toInt, (l.xr x.toNat).hi.toInt⟩ (ivlConst c)

/-- The lanes' intervals of x + c: none when one of them is top (R52). -/
def Thread.laneIvls (t : Thread) (x : BitVec 4) (c : Int) : Option (List Ivl) :=
  (maskLanes t.active).mapM fun n =>
    let i := (t.lane n).indexIvl x c
    if i = ivlTop then none else some i

/-- The union over the active lanes (R83): each lane's x + c; any overflow gives top. -/
def Thread.indexIvl (t : Thread) (x : BitVec 4) (c : Int) : Ivl :=
  match maskLanes t.active with
  | [] => ivlTop
  | n :: r => r.foldl (fun i m => ivlUnion i ((t.lane m).indexIvl x c)) ((t.lane n).indexIvl x c)

/-- Whether the bounds check is elided: I lies inside [0, E - 1] (R83). -/
def Thread.elided (t : Thread) (arr x : BitVec 4) (c : Int) : Bool :=
  0 ≤ (t.indexIvl x c).lo && decide ((t.indexIvl x c).hi < (t.arr arr).extent.toNat)

/-- The element a lane names, x + c in 33 bits, and its address (R38). -/
def Thread.elemIndex (t : Thread) (lane : Nat) (x : BitVec 4) (c : Int) : Int := ((t.lane lane).xr x.toNat).v.toInt + c
def ArrReg.elemAddr (a : ArrReg) (i : Int) : DWord := a.base + BitVec.ofInt 64 (i * 2 ^ a.z)
def ArrReg.inBounds (a : ArrReg) (i : Int) : Bool := 0 ≤ i && decide (i < a.extent.toNat)

end Sys2Proof.Machine
end

