-- ==== Sys2Proof/Machine/Integer.lean ====
section
/-! DEFINITION. The integer results of R278 to R283 as functions of 32-bit values, and the comparisons of R284. -/

namespace Sys2Proof.Machine

/-- Bits 63:32 of the signed product (R278). -/
def mulHigh (a b : Word) : Word := BitVec.ofInt 32 ((a.toInt * b.toInt).fdiv (2 ^ 32))

/-- The 64-bit signed product (R279). -/
def mulWide (a b : Word) : DWord := BitVec.ofInt 64 (a.toInt * b.toInt)

/-- The signed minimum and maximum (R278). -/
def smin (a b : Word) : Word := if a.toInt ≤ b.toInt then a else b
def smax (a b : Word) : Word := if a.toInt ≤ b.toInt then b else a

/-- SHL: 0 when b, unsigned, is 32 or more (R278). -/
def shl32 (a b : Word) : Word := if b.toNat < 32 then a <<< b.toNat else 0
/-- SHR (R278). -/
def shr32 (a b : Word) : Word := if b.toNat < 32 then a >>> b.toNat else 0
/-- SAR: 32 copies of a[31] when b is 32 or more (R278). -/
def sar32 (a b : Word) : Word := if b.toNat < 32 then a.sshiftRight b.toNat else a.sshiftRight 31
/-- ROT: a rotated left by b mod 32 (R278). -/
def rot32 (a b : Word) : Word := a.rotateLeft (b.toNat % 32)

/-- Position, width, mask and sign bit of a field specification (R280). -/
def fieldPos (b : Word) : Nat := (b.extractLsb' 0 5).toNat
def fieldWidth (b : Word) : Nat := min (min (b.extractLsb' 8 6).toNat 32) (32 - fieldPos b)
def fieldMask (b : Word) : Word := BitVec.ofNat 32 (2 ^ fieldWidth b - 1) <<< fieldPos b

/-- BFE (R280). -/
def bfe32 (a b : Word) : Word :=
  let w := fieldWidth b
  let v := (a &&& fieldMask b) >>> fieldPos b
  if w = 0 then 0
  else if b.getLsbD 16 && v.getLsbD (w - 1) then v ||| ~~~(BitVec.ofNat 32 (2 ^ w - 1)) else v

/-- BFI (R280). -/
def bfi32 (a b c : Word) : Word := (c &&& ~~~(fieldMask b)) ||| ((a <<< fieldPos b) &&& fieldMask b)

/-- One step of unsigned restoring division: the new Q and M (R281). -/
def divStep (q m b : Word) : Word × Word :=
  let t := 2 * m.toNat + q.toNat / 2 ^ 31
  let q' := q <<< 1
  if b.toNat ≤ t then (q' ||| 1, BitVec.ofNat 32 (t - b.toNat)) else (q', BitVec.ofNat 32 t)

/-- IABS, INEG (R282). -/
def iabs32 (a : Word) : Word := if 0 ≤ a.toInt then a else 0 - a
def ineg32 (a : Word) : Word := 0 - a

/-- The number of one bits among the lowest `n` (R282). -/
def onesBelow (a : Word) : Nat → Nat
  | 0 => 0
  | n + 1 => onesBelow a n + (a.getLsbD n).toNat

/-- POPC (R282). -/
def popc32 (a : Word) : Word := BitVec.ofNat 32 (onesBelow a 32)

/-- Leading zero bits below bit `n` (R282). -/
def leadingZeros (a : Word) : Nat → Nat
  | 0 => 0
  | n + 1 => if a.getLsbD n then 0 else leadingZeros a n + 1

/-- CLZ (R282). -/
def clz32 (a : Word) : Word := BitVec.ofNat 32 (leadingZeros a 32)

/-- BREV (R282). -/
def brev32 (a : Word) : Word := a.reverse

/-- The first and second steps of BLEND (R283). -/
def blendFirst (op : BitVec 2) (a b : Word) : Word :=
  if op = 0 then a &&& b else if op = 1 then a ||| b else if op = 2 then a ^^^ b else b
def blendSecond (op : BitVec 2) (t c a : Word) : Word :=
  if op = 0 then t &&& c else if op = 1 then t ||| c else if op = 2 then t ^^^ c else (t &&& c) ||| (a &&& ~~~c)

/-- A source of BLEND, inverted when its bit is set (R283). -/
def blendSource (n : BitVec 1) (a : Word) : Word := if n = 1 then ~~~a else a

/-- BLEND (R283). -/
def blend32 (opx opy : BitVec 2) (na nb nc : BitVec 1) (a b c : Word) : Word :=
  blendSecond opy (blendFirst opx (blendSource na a) (blendSource nb b)) (blendSource nc c) (blendSource na a)

/-- The operations of REDG, SCANG and ATOM that work on integers: wrapping add, signed minimum and maximum, and, or,
xor (R326, R343). -/
def intReduce (op : Nat) (a b : Word) : Word :=
  if op = 0 then a + b
  else if op = 1 then smin a b
  else if op = 2 then smax a b
  else if op = 3 then a &&& b
  else if op = 4 then a ||| b
  else a ^^^ b

end Sys2Proof.Machine
end

