-- ==== Sys2Proof/Machine/Alu.lean ====
section
/-! DEFINITION. The integer instructions (R278 to R288): three-register and unary arithmetic, comparison, selection, moves,
immediates and special registers. -/

namespace Sys2Proof.Machine

/-- The three-register form (R253): d := f(a, b), an x destination with the interval the rule of R275 gives. -/
def lane3 (s : State) (d a b : BitVec 7) (g : BitVec 3) (f : Word → Word → Word) (i : Ivl → Ivl → Ivl) : Out :=
  lanesOp s 1 [d, a, b] (shortGuard g) fun _ _ l => l.setI d (f (l.get a) (l.get b)) (i (l.ivl a) (l.ivl b))

/-- The unary form (R282): d := f(a), an x destination with interval top. -/
def lane1 (s : State) (d a : BitVec 7) (g : Guard) (f : Word → Word) : Out :=
  lanesOp s 1 [d, a] g fun _ _ l => l.set d (f (l.get a))

/-- IADD (R278, R275). -/
def execIadd (d a b : BitVec 7) (g : BitVec 3) (s : State) : Out := lane3 s d a b g (· + ·) ivlAdd

/-- ISUB (R278, R275). -/
def execIsub (d a b : BitVec 7) (g : BitVec 3) (s : State) : Out := lane3 s d a b g (· - ·) ivlSub

/-- IMUL (R278, R275). -/
def execImul (d a b : BitVec 7) (g : BitVec 3) (s : State) : Out := lane3 s d a b g (· * ·) ivlMul

/-- IMULHI (R278, R275). -/
def execImulhi (d a b : BitVec 7) (g : BitVec 3) (s : State) : Out := lane3 s d a b g mulHigh ivlOther

/-- IMIN (R278, R275). -/
def execImin (d a b : BitVec 7) (g : BitVec 3) (s : State) : Out := lane3 s d a b g smin ivlMin

/-- IMAX (R278, R275). -/
def execImax (d a b : BitVec 7) (g : BitVec 3) (s : State) : Out := lane3 s d a b g smax ivlMax

/-- AND (R278, R275). -/
def execAnd (d a b : BitVec 7) (g : BitVec 3) (s : State) : Out := lane3 s d a b g (· &&& ·) ivlAnd

/-- OR (R278, R275). -/
def execOr (d a b : BitVec 7) (g : BitVec 3) (s : State) : Out := lane3 s d a b g (· ||| ·) ivlOther

/-- XOR (R278, R275). -/
def execXor (d a b : BitVec 7) (g : BitVec 3) (s : State) : Out := lane3 s d a b g (· ^^^ ·) ivlOther

/-- SHL (R278, R275). -/
def execShl (d a b : BitVec 7) (g : BitVec 3) (s : State) : Out := lane3 s d a b g shl32 ivlShl

/-- SHR (R278, R275). -/
def execShr (d a b : BitVec 7) (g : BitVec 3) (s : State) : Out := lane3 s d a b g shr32 ivlShr

/-- SAR (R278, R275). -/
def execSar (d a b : BitVec 7) (g : BitVec 3) (s : State) : Out := lane3 s d a b g sar32 ivlSar

/-- ROT (R278, R275). -/
def execRot (d a b : BitVec 7) (g : BitVec 3) (s : State) : Out := lane3 s d a b g rot32 ivlOther

/-- BFE (R280). -/
def execBfe (d a b : BitVec 7) (g : BitVec 3) (s : State) : Out := lane3 s d a b g bfe32 ivlOther

/-- IMAD (R279): bits 31:0 of a × b + c. Its result, like those of BFI, BLEND and IMULW, is always exact, and the rounding field is ignored
(R221): code 4 draws nothing from the lanes' generators, where R226 alone would have each result advance them (DEDUCED, log 55). -/
def execImad (d a b : BitVec 7) (g : BitVec 3) (c : BitVec 7) (_rnd : BitVec 3) (s : State) : Out :=
  lanesOp s 2 [d, a, b, c] (shortGuard g) fun _ _ l => l.set d (l.get a * l.get b + l.get c)

/-- BFI (R280): unguarded; the rounding field is ignored (log 55). -/
def execBfi (d a b c : BitVec 7) (_rnd : BitVec 3) (s : State) : Out :=
  lanesOp s 2 [d, a, b, c] unguarded fun _ _ l => l.set d (bfi32 (l.get a) (l.get b) (l.get c))

/-- BLEND (R283); the rounding field is ignored (log 55). -/
def execBlend (d a b : BitVec 7) (g : BitVec 3) (c : BitVec 7) (_rnd : BitVec 3) (opx opy : BitVec 2)
    (na nb nc : BitVec 1) (s : State) : Out :=
  lanesOp s 2 [d, a, b, c] (shortGuard g) fun _ _ l =>
    l.set d (blend32 opx opy na nb nc (l.get a) (l.get b) (l.get c))

/-- IDIV.step (R281): the pair a holds Q and M, the pair d receives them. -/
def execIdivStep (d a b : BitVec 7) (g : BitVec 3) (s : State) : Out :=
  lanesOp s 1 [d, d + 1, a, a + 1, b] (shortGuard g) fun _ _ l =>
    let q := divStep (l.get a) (l.get (a + 1)) (l.get b)
    (l.set d q.1).set (d + 1) q.2

/-- IMULW (R279): the 64-bit signed product to the pair d; the rounding field is ignored (log 55). -/
def execImulw (d a b : BitVec 7) (g _rnd : BitVec 3) (s : State) : Out :=
  lanesOp s 2 [d, d + 1, a, b] (shortGuard g) fun _ _ l => l.setPair d (mulWide (l.get a) (l.get b))

/-- IABS (R282). -/
def execIabs (d a : BitVec 7) (g : Guard) (s : State) : Out := lane1 s d a g iabs32

/-- INEG (R282). -/
def execIneg (d a : BitVec 7) (g : Guard) (s : State) : Out := lane1 s d a g ineg32

/-- NOT (R282). -/
def execNot (d a : BitVec 7) (g : Guard) (s : State) : Out := lane1 s d a g (~~~ ·)

/-- POPC (R282). -/
def execPopc (d a : BitVec 7) (g : Guard) (s : State) : Out := lane1 s d a g popc32

/-- CLZ (R282). -/
def execClz (d a : BitVec 7) (g : Guard) (s : State) : Out := lane1 s d a g clz32

/-- BREV (R282). -/
def execBrev (d a : BitVec 7) (g : Guard) (s : State) : Out := lane1 s d a g brev32

/-- The test of a condition code (R284). -/
def icond (cond : BitVec 3) (a b : Word) : Bool :=
  if cond = 0 then a == b
  else if cond = 1 then a != b
  else if cond = 2 then a.toInt < b.toInt
  else if cond = 3 then a.toInt ≤ b.toInt
  else if cond = 4 then b.toInt < a.toInt
  else if cond = 5 then b.toInt ≤ a.toInt
  else if cond = 6 then a.toNat < b.toNat
  else b.toNat ≤ a.toNat

/-- ISET (R284). -/
def execIset (pd : BitVec 3) (a b : BitVec 7) (cond : BitVec 3) (g : Guard) (s : State) : Out :=
  lanesOp s 1 [a, b] g fun _ _ l => l.setP pd (icond cond (l.get a) (l.get b))

/-- SEL (R285): unguarded. -/
def execSel (d a b : BitVec 7) (p : BitVec 3) (s : State) : Out :=
  lanesOp s 1 [d, a, b] unguarded fun _ _ l => l.set d (if l.pr p then l.get a else l.get b)

/-- The uniform register a 7-bit field names in its bits 4:0 (R273). -/
def uniNum (r : BitVec 7) : Nat := (r.extractLsb' 0 5).toNat

/-- MOV (R286): mode 0 between lane registers, an x source's interval copied; 1 from a uniform register; 2 to a uniform
register from the lowest-numbered taking-part lane; 3 between uniform registers. -/
def execMov (d a : BitVec 7) (mode : BitVec 2) (g : Guard) (s : State) : Out :=
  if mode = 0 then lanesOp s 1 [d, a] g fun _ _ l => l.setI d (l.get a) (l.ivl a)
  else if mode = 1 then lanesOp s 1 [d] g fun t _ l => l.set d (t.sreg (uniNum a))
  else if mode = 2 then threadOp s 1 [a] fun _ _ t =>
    if t.taking g = 0 then t else t.setS (uniNum d) ((t.lane (lowest (t.taking g))).get a)
  else threadOp s 1 [] fun _ _ t => if t.taking g = 0 then t else t.setS (uniNum d) (t.sreg (uniNum a))

/-- MOVI (R287): unguarded; an x destination takes the interval of the constant (R275). -/
def execMovi (d : BitVec 7) (imm : BitVec 16) (s : State) : Out :=
  lanesOp s 1 [d] unguarded fun _ _ l => l.setI d (imm.signExtend 32) (ivlConst imm.toInt)

/-- MOVI.HI (R287): unguarded. -/
def execMoviHi (d : BitVec 7) (imm : BitVec 16) (s : State) : Out :=
  lanesOp s 1 [d] unguarded fun _ _ l => l.set d (imm ++ (l.get d).extractLsb' 0 16)

/-- COREID (R194). -/
def coreId (c : CoreRef) : Nat := c.die * 128 + c.home.toNat * 64 + c.idx

/-- A special register of a party that belongs to a group: the warp, or the warp that forked the program (R194, R288). -/
def Dev.groupSpecial (d : Dev) (g : Group) (wid unack lane : Nat) (num : BitVec 8) : Nat :=
  if num = 0 then lane
  else if num = 1 then wid
  else if num = 2 then g.warps.length
  else if num = 3 then (if g.gangSize = 1 then 0 else g.member)
  else if num = 4 then g.gangSize
  else if num = 5 then coreId g.core
  else if num = 6 then g.ctx
  else if num = 7 then g.jobNum
  else if num = 8 then d.pkgNum
  else if num = 9 then unack
  else if num = 10 then g.privBase % 2 ^ 32
  else g.privBase / 2 ^ 32

/-- A special register of a wave: its lane, core, context and package as R194 gives them, its counter (R125); the registers that
describe a place in a group are free values within their ranges (log 3). -/
def Dev.waveSpecial (d : Dev) (r : ThreadRef) (unack lane : Nat) (num : BitVec 8) : Nat :=
  let v := d.fresh.1.toNat
  if num = 0 then lane
  else if num = 5 then coreId (d.coreOf r)
  else if num = 6 then d.ctxOf r
  else if num = 8 then d.pkgNum
  else if num = 1 then v % 32
  else if num = 2 then v % 32 + 1
  else if num = 3 then v % 4
  else if num = 4 then v % 4 + 1
  else if num = 7 then v % 256
  else if num = 9 then unack
  else v % 2 ^ 32

/-- The value of a special register in a lane of a party (R288). -/
def Dev.special (d : Dev) (r : ThreadRef) (t : Thread) (lane : Nat) (num : BitVec 8) : Nat :=
  match r, d.groupOf r with
  | .warp _ wid, some g => d.groupSpecial g wid t.unack lane num
  | .seq c copy, some g =>
    d.groupSpecial g (((if copy then (d.core c).copySeq else (d.core c).matSeq).map fun p => p.forker).getD 0) 0 lane num
  | _, _ => d.waveSpecial r t.unack lane num

/-- The interval an x destination of MOVS takes (R288). -/
def specialIvl (num : BitVec 8) : Ivl :=
  if num = 0 || num = 1 then ⟨0, 31⟩
  else if num = 2 then ⟨1, 32⟩
  else if num = 3 then ⟨0, 3⟩
  else if num = 4 then ⟨1, 4⟩
  else if num = 6 then ⟨0, 4095⟩
  else if num = 7 then ⟨0, 255⟩
  else if num = 8 then ⟨0, 8191⟩
  else if num = 9 then ⟨0, 1023⟩
  else ivlTop

/-- MOVS (R288): a special register to a lane register, or with u = 1 to a uniform register. -/
def execMovs (d : BitVec 7) (num : BitVec 8) (u : BitVec 1) (g : Guard) (s : State) : Out :=
  runFor s fun r t dev =>
    let value := fun lane => BitVec.ofNat 32 (dev.special r t lane num)
    match dev.allotTrap r (if u = 1 then [] else [d]) with
    | some k => dev.raise r k
    | none =>
      let dev := match r with
        | .wave _ _ => dev.fresh.2
        | _ => dev
      if u = 1 && !isSeq r then
        (dev.onThread r fun t => if t.taking g = 0 then t else t.setS (uniNum d) (value 0)).retire r 1
      else (dev.onThread r fun t' => t'.mapLanes (isSeq r) (t.taking g) fun n l =>
        l.setI (if isSeq r then BitVec.ofNat 7 (uniNum d) else d) (value n) (specialIvl num)).retire r 1

end Sys2Proof.Machine
end

