-- ==== Sys2Proof/Machine/Fabric.lean ====
section
/-! DEFINITION. The fabric (R145 to R158): the job counter tables, sending counted messages and responses, the messages
kept until they are answered, and what an answer or a loss does to the party a message was sent for. -/

namespace Sys2Proof.Machine

/-! ## Job counter tables (R152 to R156) -/

def Die.job (k : Die) (ctx job : Nat) : Option JobEntry := k.jobs.find? fun j => j.ctx = ctx && j.job = job

/-- Whether a header carries a job key. -/
def headerOfJob (h : Header) (ctx job : Nat) : Bool := h.srcCtx.toNat == ctx && h.job.toNat == job

/-- Whether a write that waits at a home point is a message of a job. -/
def HeldItem.ofJob (x : HeldItem) (ctx job : Nat) : Bool :=
  match x with
  | .msg m => headerOfJob m.header ctx job
  | _ => false

/-- Whether a transfer is of a counted record of a job, or of a reply of it that came as a message. -/
def Transfer.ofJob (t : Transfer) (rec_ : Rec → Bool) (ctx job : Nat) : Bool :=
  match t with
  | .spawn r _ _ _ => rec_ r
  | .reply _ _ _ (some (_, m)) => headerOfJob m.header ctx job
  | _ => false

/-- Whether a job has, at this package, a message that is unconsumed, held, retried or in doubt, or a counted record that is not
done, in a pool, bound to a core, or to a copy engine as a copy record (R156). -/
def Dev.jobBusy (d : Dev) (ctx job : Nat) : Bool :=
  let rec_ := fun (r : Rec) => r.counted && r.job == ctx * 256 + job
  let req := fun (q : Request) => q.msg.any fun m => headerOfJob m.header ctx job
  (d.dies.any fun k =>
    (k.sent.any fun x => x.key = (ctx, job)) || (k.held.any fun x => x.ofJob ctx job) ||
    (k.retried.any fun x => x.2.ofJob ctx job) || (k.flowsIn.any fun f => f.held.any fun x => headerOfJob x.1.header ctx job) ||
    k.pool.any rec_ || (k.spill.any fun x => rec_ x.2)) ||
  (d.cores.any fun k => k.requests.any req || k.waves.any fun w => w.any fun w => w.reqs.any req) ||
  (d.groups.any fun g => rec_ g.record) || (d.images.any fun i => i.groups.any fun g => rec_ g.record) ||
  (d.cores.any fun k => k.copy.any fun e => e.record.any rec_) || d.transfers.any fun t => t.ofJob rec_ ctx job

/-- Whether an entry may be freed (R156). -/
def Dev.jobFreeable (d : Dev) (j : JobEntry) : Bool :=
  j.injected = j.consumed && j.doubt == 0 && !j.activity && !j.lossy && !d.between.contains (j.ctx, j.job) &&
    !(d.traverses.any fun t => t.ctx = j.ctx && t.job = j.job) && !d.jobBusy j.ctx j.job

/-- The device with an entry for a job in a die's table: one is allocated, in a full table in the place of one that may
be freed; none when that is not possible (R156). -/
def Dev.withJob (d : Dev) (die ctx job : Nat) : Option Dev :=
  let k := d.die die
  let new : JobEntry := ⟨ctx, job, d.tag ctx, 0, 0, 0, 0, false, false, false⟩
  if (k.job ctx job).isSome then some d
  else if k.jobs.length < 4096 then some (d.onDie die fun k => { k with jobs := new :: k.jobs })
  else
    match k.jobs.find? fun j => d.jobFreeable j with
    | some x => some (d.onDie die fun k => { k with jobs := new :: k.jobs.filter fun j => j ≠ x })
    | none => none

/-- Change a job's entry; every change sets the activity bit (R153). -/
def Dev.onJob (d : Dev) (die ctx job : Nat) (f : JobEntry → JobEntry) : Dev :=
  d.onDie die fun k => { k with jobs := updBy (fun j => j.ctx = ctx && j.job = job) (fun j => { f j with activity := true }) k.jobs }

/-- Count an injection, and a consumption (R153). -/
def Dev.countInjected (d : Dev) (die ctx job : Nat) : Option Dev :=
  (d.withJob die ctx job).map fun d => d.onJob die ctx job fun j => { j with injected := j.injected + 1 }
def Dev.countConsumed (d : Dev) (die ctx job : Nat) : Option Dev :=
  (d.withJob die ctx job).map fun d => d.onJob die ctx job fun j => { j with consumed := j.consumed + 1 }

/-- Loss repair's counting (R153, R158). -/
def Dev.countLost (d : Dev) (die ctx job : Nat) : Dev :=
  d.onJob die ctx job fun j =>
    { j with consumed := j.consumed + 1, lost := min (j.lost + 1) 0xFFFFFFFF, lossy := true, read := false }

/-- Whether a context is being reset: its messages are refused (R434). -/
def Dev.resetting (d : Dev) (ctx : Nat) : Bool := d.sweeps.any fun w => w.ctx == ctx && !w.announced

/-! ## Sending -/

/-- The doubt slots of a die's interface in use (R157); a context reset frees those of its jobs (R434). -/
def Die.doubts (k : Die) : Nat := (k.sent.filter fun x => x.doubt && x.origin ≠ .gone).length

/-- Whether an interface may inject a message of a job now: fewer than 64 messages are in doubt and the job has, or can be
given, an entry (R156, R157). -/
def Dev.mayInject (d : Dev) (die ctx job : Nat) : Bool := (d.die die).doubts < 64 && (d.withJob die ctx job).isSome

/-- The next sequence of an outgoing flow (R149). -/
def Die.nextSeq (k : Die) (pkg cls : Nat) : BitVec 32 :=
  ((k.flowsOut.find? fun f => f.pkg = pkg && f.cls = cls).map fun f => f.next).getD 0

def Die.takeSeq (k : Die) (pkg cls : Nat) : Die :=
  { k with flowsOut := ⟨pkg, cls, k.nextSeq pkg cls + 1⟩ :: k.flowsOut.filter fun f => !(f.pkg = pkg && f.cls = cls) }

/-- The class of an LPA: bits 10:7 (R147). -/
def classOf (lpa : Nat) : Nat := lpa / 128 % 16

/-- What a message's header says besides its flow: kind, job key, target context and package, operand, LPA, payload
bytes. -/
structure Addressed where
  kind : Nat
  ctx : Nat
  job : Nat
  tgtCtx : Nat
  pkg : Nat
  operand : Nat
  lpa : Nat
  len : Nat
  deriving DecidableEq, Repr

/-- The header of a message of a die's interface (R147). -/
def Dev.header (d : Dev) (die : Nat) (a : Addressed) (seq : BitVec 32) : Header :=
  { kind := BitVec.ofNat 4 a.kind, srcCtx := BitVec.ofNat 12 a.ctx, job := BitVec.ofNat 8 a.job,
    tgtCtx := BitVec.ofNat 12 a.tgtCtx, srcPkg := BitVec.ofNat 13 d.pkgNum, srcDie := BitVec.ofNat 2 die,
    dstPkg := BitVec.ofNat 13 a.pkg, seq := seq, operand := BitVec.ofNat 8 a.operand,
    cls := BitVec.ofNat 4 (classOf a.lpa), reserved1 := 0, len := BitVec.ofNat 7 (a.len - 1), reserved2 := 0,
    lpa := BitVec.ofNat 43 a.lpa }

/-- Whether a packet is an answer that refuses or abandons what it answers. -/
def isRefusal (m : Msg) : Bool := m.header.kind = 7 && (m.header.operand = 1 || m.header.operand = 5)

/-- Put a packet on the wire: by a free choice among the working ports of its die's interface, but by another than `last` where
there is one (R150), and from die 0 when its own die has no working port (R145); until the package's number is fixed its interfaces
send nothing but refusals (R448). What becomes of a packet when die 0 has no working port either the spec does not say: it is dropped (DESIGN
CHOICE, log 10). The port it leaves by is answered. -/
def Dev.emitBy (d : Dev) (die : Nat) (last : Option Nat) (m : Msg) : Option Nat × Dev :=
  let ports := (d.die (if (d.die die).ports.isEmpty then 0 else die)).ports
  let others := ports.filter fun p => last ≠ some p
  let l := if others.isEmpty then ports else others
  if !(d.linkUp || isRefusal m) || l.isEmpty then (none, d)
  else
    let (n, d) := d.choose l.length
    let p := l.getD n 0
    (some p, { d with wire := d.wire ++ [(p, m)] })

/-- Put a packet on the wire. -/
def Dev.emit (d : Dev) (die : Nat) (m : Msg) : Dev := (d.emitBy die none m).2

/-- An uncounted request or answer. -/
def Dev.sendPlain (d : Dev) (die : Nat) (a : Addressed) (seq : BitVec 32) (p : Payload) : Dev :=
  d.emit die ⟨d.header die a seq, p⟩

/-- The bytes of a payload: data, and of what a response carries besides data the fields that the spec names (log 10). -/
def payloadSize : Payload → Nat
  | .bytes b => b.length
  | .beat runs => (runs.map fun r => r.2.length).sum
  | .loaded b => b.length
  | .podNotice _ _ _ => 4
  | .report _ _ _ _ _ _ => 18
  | _ => 0

/-- The answer to a message: a response whose flow and source-die fields name the message's (log 10). -/
def Dev.responseTo (d : Dev) (m : Msg) (code : Nat) (p : Payload) : Msg :=
  ⟨{ kind := 7, srcCtx := m.header.srcCtx, job := m.header.job, tgtCtx := m.header.tgtCtx,
     srcPkg := BitVec.ofNat 13 d.pkgNum, srcDie := m.header.srcDie, dstPkg := m.header.srcPkg, seq := m.header.seq,
     operand := BitVec.ofNat 8 code, cls := m.header.cls, reserved1 := 0, len := BitVec.ofNat 7 (payloadSize p - 1),
      reserved2 := 0, lpa := m.header.lpa }, p⟩

/-- Whether a counted write of a die to a line of another package is unanswered (R149); a method call, which writes its object, is
taken for one (DESIGN CHOICE, log 10). -/
def Die.writeUnanswered (k : Die) (pkg lpa : Nat) : Bool :=
  k.sent.any fun x => x.msg.header.dstPkg.toNat = pkg && x.msg.header.lpa.toNat / 128 = lpa / 128 &&
    (x.msg.header.kind = 0 || x.msg.header.kind = 1 || x.msg.header.kind = 2 || x.msg.header.kind = 6)

/-! ## The ends of an operation -/

/-- The object addresses of an operation's lanes. -/
def Op.addresses (o : Op) : List Nat :=
  o.pieces.filterMap fun p => match p.target with
    | .mem _ _ va => some va
    | _ => none

/-- The invalidations of an acquire on the objects of an operation (R116, R129, R130). -/
def Dev.acquireObjects (d : Dev) (o : Op) (scope : Nat) : Dev :=
  d.acquireSet o.core (tagCtx o.tag) scope (o.addresses.flatMap fun a => d.bindingSet (tagCtx o.tag) a)

/-- The head entries of a message queue that are done leave it: entries are performed in admission order (R133). -/
def dropDone {α : Type} (isDone : α → Bool) : List α → List α
  | [] => []
  | e :: r => if isDone e then dropDone isDone r else e :: r

/-- An entry of a message queue is performed. -/
def Dev.msgDone (d : Dev) (c : CoreRef) (p : MsgEntry → Bool) : Dev :=
  d.onCore c fun k => { k with msgs := dropDone (fun e => e.done) (k.msgs.map fun (e : MsgEntry) =>
    if p e then { e with done := true } else e) }

/-- The L1 frames reserved for an operation that ends: their reserved bits clear, frames that took no line are free (R52). -/
def Dev.freeFrames (d : Dev) (o : Op) : Dev :=
  if o.frames.isEmpty then d
  else
    let still := fun (l : Line) => d.ops.any fun x => x.id ≠ o.id && x.core = o.core && x.frames.contains l.pa
    let upd := fun (l : Line) => if o.frames.contains l.pa && !still l then { l with reserved := false } else l
    d.onCore o.core fun k => { k with l1 := (k.l1.map upd).filter fun l => l.reserved || !l.data.isEmpty }

/-- End an operation whose every piece is done: the invalidations of its acquire part, its flag, its count, its message
queue entry. An operation that holds issue ends by its own rule and is not ended here. -/
def Dev.closeOp (d : Dev) (id : Nat) : Dev :=
  match d.op id with
  | none => d
  | some o =>
    if !(o.pieces.all fun p => p.done) then d
    else
      let d := match o.kind with
        | .atomic _ _ _ (some scope) => d.acquireObjects o scope
        | .call (some scope) _ => d.acquireObjects o scope
        | _ => d
      let d := match o.kind with
        | .call _ _ => d.msgDone o.core fun e => e.op = MsgOp.call id
        | _ => d
      let d := d.onThread o.thread fun t =>
        { t.untagFlag o.flag with unack := if o.counted then t.unack - 1 else t.unack }
      (d.freeFrames o).dropOp id

/-- A piece is done; the operation ends with its last piece. -/
def Dev.donePiece (d : Dev) (id n : Nat) : Dev := (d.onPiece id n fun p => { p with done := true }).closeOp id

/-- The line of a piece leaves the near caches of its issuer: what an atomic or a method call wrote there has been performed, and a
read that filled them meanwhile may have been before it (R109). -/
def Dev.dropNear (d : Dev) (id n : Nat) : Dev :=
  match (d.op id).map fun o => (o, o.pieces[n]?) with
  | some (o, some p) =>
    match p.target with
    | .mem pa _ _ => d.dropLine o.core o.tag pa
    | _ => d
  | _ => d

/-- The incoming flow of a message. A flow is named by its source interface, this package and a class, so its state is one
for the package; it stands with die 0 (log 10). -/
def Dev.flowIn (d : Dev) (h : Header) : FlowIn :=
  (((d.die 0).flowsIn.find? fun f => f.pkg = h.srcPkg.toNat && f.die = h.srcDie.toNat && f.cls = h.cls.toNat)).getD
    ⟨h.srcPkg.toNat, h.srcDie.toNat, h.cls.toNat, 0, [], [], []⟩

def Dev.setFlow (d : Dev) (f : FlowIn) : Dev :=
  let other := fun (g : FlowIn) => !(g.pkg = f.pkg && g.die = f.die && g.cls = f.cls)
  d.onDie 0 fun k => { k with flowsIn := f :: k.flowsIn.filter other }

/-- Keep the answer given to a message, and send it. -/
def Dev.answer (d : Dev) (die : Nat) (m : Msg) (code : Nat) (p : Payload) : Dev :=
  let r := d.responseTo m code p
  let f := d.flowIn m.header
  (d.setFlow { f with answered := (m.header.seq, r) :: f.answered.filter fun a => a.1 ≠ m.header.seq }).emit die r

/-- A reply is delivered whole, or its warp is gone: one that came as a message is consumed and acknowledged now (R148, R183). -/
def Dev.replied (d : Dev) (msg : Option (Nat × Msg)) : Dev :=
  match msg with
  | some (die, m) => ((d.countConsumed die m.header.srcCtx.toNat m.header.job.toNat).getD d).answer die m 0 .none
  | none => d

/-- Write the reply of a method call: the line of its object leaves the near caches of the issuer; the registers of the pair of its
lane are written, each on its own, then its status predicate, the rest by a transfer of the reply that stays (R182, R249). -/
def Dev.writeReply (d : Dev) (dest : ReplyTo) (value : DWord) (status : Nat) (msg : Option (Nat × Msg)) : Dev :=
  match d.op dest.op with
  | none => d.replied msg
  | some o =>
    match o.kind with
    | .call _ _ =>
      match (upFrom 0 o.pieces.length).find? fun n => (o.pieces[n]?).any fun (p : Piece) => p.lane = dest.lane && !p.done with
      | none => d.replied msg
      | some n =>
        let d := d.dropNear dest.op n
        match ((o.pieces[n]?).map fun p => p.regs).getD [] with
        | (r, off) :: rest =>
          let d := d.onLane o.thread dest.lane fun l => l.set r (BitVec.ofNat 32 (value.toNat / 2 ^ (8 * off)))
          let d := d.onPiece dest.op n fun p => { p with regs := rest }
          { d with transfers := d.transfers ++ [.reply dest value status msg] }
        | [] => ((d.onLane o.thread dest.lane fun l => l.setP o.pred (status == 0)).donePiece dest.op n).replied msg
    | _ => d.replied msg

/-- The error word of R182. -/
def errorWord (offset : Nat) (cause : BitVec 8) (status : Nat) : DWord :=
  BitVec.ofNat 64 (field 16 (min offset 0xFFFF) + field 8 cause.toNat + status)

/-! ## Answers and losses (R150, R157, R158) -/

/-- Change an entry of a copy queue. -/
def Dev.onCopy (d : Dev) (c : CoreRef) (entry : Nat) (f : CopyEntry → CopyEntry) : Dev :=
  d.onCore c fun k => { k with copy := updBy (fun e => e.id = entry) f k.copy }

/-- A message was acknowledged. -/
def Dev.acked (d : Dev) (o : Origin) (p : Payload) : Dev :=
  match o with
  | .piece op n =>
    match p with
    | .bytes b => (d.dropNear op n).onPiece op n fun q => { q with value := some b }
    | _ => d.donePiece op n
  | .copy c e n =>
    let back := match p with
      | .bytes b => some b
      | _ => none
    d.onCopy c e fun x =>
      { x with unanswered := x.unanswered - 1, written := updAt x.written n fun b => back.getD b }
  | .copySig c e => d.onCopy c e fun x => { x with unanswered := x.unanswered - 1 }
  | .signal c e _ => d.msgDone c fun x => x.id = e
  | .spawn c e op lane _ =>
    let d := match d.op op with
      | some o =>
        match (upFrom 0 o.pieces.length).find? fun n => (o.pieces[n]?).any fun (p : Piece) => p.lane = lane && !p.done with
        | some n => d.donePiece op n
        | none => d
      | none => d
    d.msgDone c fun x => x.id = e
  | _ => d

/-- A message is lost: counting, and what R158 says for its kind. -/
def Dev.lostMsg (d : Dev) (die : Nat) (x : Sent) : Dev :=
  let d := if x.origin = .gone then d else d.countLost die x.key.1 x.key.2
  match x.origin with
  | .piece op _ =>
    match d.op op with
    | some o =>
      let n := match x.origin with
        | .piece _ n => n
        | _ => 0
      (d.markLoss o.thread).donePiece op n
    | none => d
  | .call op lane => d.writeReply ⟨op, lane⟩ (errorWord 0 causeLost 3) 3 none
  | .copy c e _ => d.onCopy c e fun x =>
      { x with unanswered := x.unanswered - 1, code := if x.code = 0 then 3 else x.code }
  | .copySig c e => d.onCopy c e fun x =>
      { x with unanswered := x.unanswered - 1, code := if x.code = 0 then 3 else x.code }
  | .signal c e t => (d.markLoss t).msgDone c fun x => x.id = e
  | .spawn c e op lane t =>
    ((d.acked (.spawn c e op lane t) .none).markLoss t)
  | .bar t => d.markLoss t
  | .reply => d
  | .gone => d

/-- Inject a counted message: its sequence is taken, it is counted, kept until answered, and leaves (R149, R150, R153); an
interface of a package without a fixed number refuses it at once, and it is lost (R448). The caller has checked
`mayInject`. -/
def Dev.inject (d : Dev) (die : Nat) (a : Addressed) (p : Payload) (o : Origin) : Dev :=
  let cls := classOf a.lpa
  let m : Msg := ⟨d.header die a ((d.die die).nextSeq a.pkg cls), p⟩
  let d := (d.countInjected die a.ctx a.job).getD d
  let (port, d) := d.emitBy die none m
  let x : Sent := ⟨m, o, (a.ctx, a.job), port, d.tag a.ctx, 0, d.now, false, false, 0⟩
  if d.linkUp then d.onDie die fun k => { k.takeSeq a.pkg cls with sent := k.sent ++ [x] }
  else d.lostMsg die x

/-- The kept message a response names: its flow's interface, package, class and sequence (log 10). -/
def Dev.sentFor (d : Dev) (m : Msg) : Option Sent :=
  (d.die m.header.srcDie.toNat).sent.find? fun x =>
    x.msg.header.dstPkg = m.header.srcPkg && x.msg.header.cls = m.header.cls && x.msg.header.seq = m.header.seq

/-- A kept message is settled and kept no longer; one in doubt leaves doubt (R153). -/
def Dev.forget (d : Dev) (die : Nat) (x : Sent) : Dev :=
  let d := d.onDie die fun k => { k with sent := k.sent.filter fun y => y.msg ≠ x.msg }
  if x.doubt && x.origin ≠ .gone then d.onJob die x.key.1 x.key.2 fun j => { j with doubt := j.doubt - 1 } else d

/-! ## Receiving flows (R149) -/

/-- Sequences that are settled without arriving are passed over (R157). -/
def FlowIn.skip (f : FlowIn) : Nat → FlowIn
  | 0 => f
  | n + 1 => if f.abandoned.contains f.next then ({ f with next := f.next + 1 } : FlowIn).skip n else f

end Sys2Proof.Machine
end

