-- ==== Sys2Proof/Machine/Barrier.lean ====
section
/-! DEFINITION. Barriers (R138 to R140, R349 to R353, R358, R480) and handles (R350): arrivals, completion, the acquire of
a released warp, the span and root of a context (R159), and the phase notices of pod barriers. -/

namespace Sys2Proof.Machine

/-! ## Spans of a context (R159) -/

/-- The packages of a context's span: those of its map, and this one. -/
def Dev.span (d : Dev) (ctx : Nat) : List Nat :=
  let base := (d.ctxD ctx 48).toNat
  let cells := if base = 0 then [] else d.homeCells base 1024
  let named := cells.flatMap fun c => (upFrom 0 8).filterMap fun i => if c.2.getLsbD i then some (c.1 * 8 + i) else none
  if named.contains d.pkgNum then named else d.pkgNum :: named

/-- The package that holds the root of a context's jobs: the lowest-numbered of the span. -/
def Dev.root (d : Dev) (ctx : Nat) : Nat := (d.span ctx).foldl min d.pkgNum

/-! ## Places -/

/-- The scope of a barrier (R140). -/
def BarRef.scope : BarRef → Nat
  | .group _ _ => 0
  | .gang _ _ => 1
  | .wide s _ _ _ => s

/-- The barrier a reference names; none when its group or gang does not exist. -/
def Dev.bar (d : Dev) (r : BarRef) : Option Barrier :=
  match r with
  | .group gid b => (d.group gid).map fun g => g.bars.getD b Barrier.reset
  | .gang id n => (d.gang id).map fun g => g.bars.getD n Barrier.reset
  | .wide s place ctx n =>
    if s = 2 then some ((((d.die place).bars.find? fun x => x.1 = ctx && x.2.1 = n).map fun x => x.2.2).getD Barrier.reset)
    else some (((d.wideBars.find? fun x => x.1 = s && x.2.1 = ctx && x.2.2.1 = n).map fun x => x.2.2.2).getD Barrier.reset)

def Dev.setBar (d : Dev) (r : BarRef) (b : Barrier) : Dev :=
  match r with
  | .group gid n => d.onGroup gid fun g => { g with bars := g.bars.set n b }
  | .gang id n => d.onGang id fun g => { g with bars := g.bars.set n b }
  | .wide s place ctx n =>
    if s = 2 then
      d.onDie place fun k => { k with bars := (ctx, n, b) :: k.bars.filter fun x => !(x.1 = ctx && x.2.1 = n) }
    else { d with wideBars := (s, ctx, n, b) :: d.wideBars.filter fun x => !(x.1 = s && x.2.1 = ctx && x.2.2.1 = n) }

/-- Whether some warp waits on a barrier. -/
def Dev.waiterOn (d : Dev) (r : BarRef) : Bool :=
  d.groups.any fun g => g.warps.any fun w => match w.wait with
    | .barrier x _ => x = r
    | _ => false

/-! ## Arrivals (R349) -/

/-- Who arrives: the warp recorded in members, the span recorded, a signal's release scope (R138, R352, R358). -/
structure Arrival where
  member : Option Nat
  span : Option Span
  signal : Bool
  scope : Nat
  deriving DecidableEq, Repr

/-- A plain arrival. -/
def Arrival.plain : Arrival := ⟨none, none, false, 0⟩

/-- The barrier with one more arrival, before completion. -/
def Barrier.arrive (b : Barrier) (a : Arrival) : Barrier :=
  { b with
    count := b.count + 1
    members := match a.member with
      | some w => b.members ||| (1#32 <<< w)
      | none => b.members
    spans := match a.span with
      | some x => if b.spans.length < 8 then b.spans ++ [x] else b.spans
      | none => b.spans
    whole := b.whole || a.signal || (a.span.isSome && b.spans.length ≥ 8)
    sig := max b.sig a.scope }

/-- The phase completes (R349). -/
def Barrier.complete (b : Barrier) : Barrier :=
  { b with count := 0, phase := !b.phase, members := 0, spans := [], whole := false, sig := 0, lastSpans := b.spans,
           lastWhole := b.whole, lastSig := b.sig }

/-- The warps waiting on a phase of a barrier are released with what their acquire covers (R139, R349, R358). -/
def Dev.releaseWaiters (d : Dev) (r : BarRef) (phase : Bool) (b : Barrier) : Dev :=
  d.mapWarps fun _ w =>
    if w.wait = .barrier r phase then { w with wait := .released b.lastSpans b.lastWhole (max r.scope b.lastSig) } else w

/-- Put a notice on the wire. -/
def Dev.emitNotice (d : Dev) (x : Notice) : Dev :=
  d.sendPlain 0 ⟨7, x.ctx, 0, x.ctx, x.pkg, 6, 0, 4⟩ 0 (.podNotice x.n x.expected x.phase)

/-- Whether two notices concern one barrier's image. -/
def sameImage (a b : Notice) : Bool := a.pkg == b.pkg && a.ctx == b.ctx && a.n == b.n

/-- Send a phase notice to each other package of the span (R480); a notice waits for the earlier ones of its image to be
acknowledged, so that they are applied in order. -/
def Dev.sendNotices (d : Dev) (ctx n : Nat) (b : Barrier) : Dev :=
  ((d.span ctx).filter fun p => p ≠ d.pkgNum).foldl (fun d p =>
    let note : Notice := ⟨p, ctx, n, b.expected, b.phase, d.now⟩
    let first := !(d.notices.any fun x => sameImage x note)
    let d := { d with notices := d.notices ++ [note] }
    if first then d.emitNotice note else d) d

/-- What follows a change of a pod barrier at the root (R480). -/
def Dev.afterBar (d : Dev) (r : BarRef) (b : Barrier) : Dev :=
  match r with
  | .wide s _ ctx n => if s = 4 then d.sendNotices ctx n b else d
  | _ => d

/-- An arrival at a barrier: none when it is uninitialised or does not exist (R349). -/
def Dev.arrive (d : Dev) (r : BarRef) (a : Arrival) : Option Dev :=
  match d.bar r with
  | none => none
  | some b =>
    if b.expected = 0 then none
    else
      let x := b.arrive a
      if x.count < b.expected then some (d.setBar r x)
      else
        let y := x.complete
        some (((d.setBar r y).releaseWaiters r b.phase y).afterBar r y)

/-- Initialise a barrier (R351). -/
def Dev.initBar (d : Dev) (r : BarRef) (expected : Nat) : Dev :=
  match d.bar r with
  | none => d
  | some b =>
    let x : Barrier :=
      { b with expected := expected, count := 0, phase := false, members := 0, spans := [], whole := false, sig := 0,
               lastSpans := [], lastWhole := false, lastSig := 0 }
    (d.setBar r x).afterBar r x

/-- Whether an init must leave a barrier alone: arrivals counted, or a waiter (R351, R353). -/
def Dev.barBusy (d : Dev) (r : BarRef) : Bool := ((d.bar r).any fun b => b.count != 0) || d.waiterOn r

/-! ## Handles (R350) -/

/-- The fields of a barrier handle: package, die, group entry, barrier, generation. -/
structure BarHandle where
  pkg : Nat
  die : Nat
  entry : Nat
  bar : Nat
  gen : BitVec 16
  deriving DecidableEq, Repr

def BarHandle.ofWord (v : DWord) : BarHandle :=
  ⟨bits v 63 51, bits v 50 49, bits v 48 37, bits v 36 33, BitVec.ofNat 16 (bits v 15 0)⟩

def BarHandle.word (h : BarHandle) : DWord :=
  BitVec.ofNat 64 (field 51 h.pkg + field 49 h.die + field 37 h.entry + field 33 h.bar + h.gen.toNat)

/-- The group a handle of this package names: its entry is live, the generation is its own, the context owns it, and the
reserved bits are zero. -/
def Dev.handleGroup (d : Dev) (v : DWord) (ctx : Nat) : Option Nat :=
  let h := BarHandle.ofWord v
  if bits v 32 16 ≠ 0 then none
  else
    match (d.die h.die).groupTable.find? fun x => x.1 = h.entry with
    | some (_, gen, some gid) =>
      if gen ≠ h.gen then none
      else if (d.groups ++ d.images.flatMap fun i => i.groups).any fun g => g.gid = gid && g.ctx = ctx then some gid
      else none
    | _ => none

/-! ## Barrier images (R432) -/

/-- A list of bytes made `n` long: cut, or filled with zeros. -/
def padTo (n : Nat) (b : List Byte) : List Byte := b.take n ++ List.replicate (n - b.length) 0

/-- The 16 bytes of a recorded span. -/
def Span.bytes (x : Span) : List Byte := natBytes x.base.toNat 8 ++ natBytes x.len 4 ++ natBytes x.space 4

/-- The number of spans an image gives: 9 for a phase marked whole. -/
def spanCount (l : List Span) (whole : Bool) : Nat := if whole || 8 < l.length then 9 else l.length

/-- A barrier image of 512 bytes. -/
def Barrier.bytes (b : Barrier) : List Byte :=
  padTo 512 (natBytes b.expected 4 ++ natBytes b.count 4 ++
    [BitVec.ofNat 8 b.phase.toNat, BitVec.ofNat 8 (spanCount b.spans b.whole), BitVec.ofNat 8 (spanCount b.lastSpans b.lastWhole), 0]
    ++ natBytes b.members.toNat 4 ++ padTo 128 ((b.spans.take 8).flatMap Span.bytes) ++ padTo 128 ((b.lastSpans.take 8).flatMap Span.bytes))

/-- The spans of an image. -/
def spansOf (n : Nat) (b : List Byte) : List Span :=
  if 8 < n then []
  else (upFrom 0 n).map fun k =>
    ⟨BitVec.ofNat 64 (bytesNat ((b.drop (16 * k)).take 8)), bytesNat ((b.drop (16 * k + 8)).take 4), bytesNat ((b.drop (16 * k + 12)).take 4)⟩

/-- The barrier that an image holds; the scopes of its signals, which the image does not hold, are those of `old` (log 11). -/
def Barrier.ofBytes (b : List Byte) (old : Barrier) : Barrier :=
  let n := (b.getD 9 0).toNat
  let l := (b.getD 10 0).toNat
  { expected := bytesNat (b.take 4), count := bytesNat ((b.drop 4).take 4), phase := b.getD 8 0 ≠ 0,
    members := BitVec.ofNat 32 (bytesNat ((b.drop 12).take 4)), spans := spansOf n (b.drop 16), whole := decide (8 < n),
    sig := old.sig, lastSpans := spansOf l (b.drop 144), lastWhole := decide (8 < l), lastSig := old.lastSig }

/-- The LPA of an image slot (R425). -/
def Dev.imageBase (d : Dev) (slot : Nat) : Nat := bits (d.reg .savepool) 42 21 * 2 ^ 21 + 2 ^ 21 * slot

/-- The saved group of a number: its image, its place among the gang's images. -/
def Dev.savedGroup (d : Dev) (gid : Nat) : Option (Image × Nat × Group) :=
  d.images.findSome? fun i => foldIdx (fun n (x : Option (Image × Nat × Group)) g =>
    if g.gid = gid then some (i, n, g) else x) 0 none i.groups

/-- An arrival at a barrier of a group that is resident or saved: a saved group's barrier image takes it (R350). -/
def Dev.arriveGroup (d : Dev) (gid b : Nat) (a : Arrival) : Option Dev :=
  if (d.group gid).isSome then d.arrive (.group gid b) a
  else
    match d.savedGroup gid with
    | none => none
    | some (i, n, g) =>
      let at_ := d.imageBase (i.first + n) + 0x8400 + 512 * b
      let x := Barrier.ofBytes (d.homeRead at_ 512) (g.bars.getD b Barrier.reset)
      if x.expected = 0 then none
      else
        let y := x.arrive a
        let y := if y.count < x.expected then y else y.complete
        let upd := fun (g : Group) => if g.gid = gid then { g with bars := g.bars.set b y } else g
        let d := d.homeWrite at_ y.bytes
        some { d with
          images := d.images.map fun i => { i with groups := i.groups.map upd } }

/-- A signal's arrival by handle (R357, R358): none when it is refused. -/
def Dev.arriveSignal (d : Dev) (v : DWord) (ctx : Nat) (isRel : Bool) (scope : Nat) : Option Dev :=
  (d.handleGroup v ctx).bind fun gid =>
    d.arriveGroup gid (BarHandle.ofWord v).bar ⟨none, none, true, if isRel then scope else 0⟩

end Sys2Proof.Machine
end

