-- ==== Sys2Proof/Machine/Float.lean ====
section
/-! DEFINITION. Floating-point formats and exact arithmetic (R217 to R226, R229, R231). A value is a NaN, an infinity or
an exact dyadic number; every operation computes exactly and rounds once. -/

namespace Sys2Proof.Machine

/-- A floating-point value: a NaN, an infinity, or (-1)^neg × m × 2^e. A zero has m = 0 and keeps its sign. -/
inductive FVal where
  | nan
  | inf (neg : Bool)
  | num (neg : Bool) (m : Nat) (e : Int)
  deriving DecidableEq, Repr

/-- How a format uses its largest exponent (R219). -/
inductive FKind where
  | ieee
  | e4m3
  | e2m1
  deriving DecidableEq, Repr

/-- A floating-point format (R218, R231): fraction bits, exponent bits, bias. -/
structure FFmt where
  fbits : Nat
  ebits : Nat
  bias : Nat
  kind : FKind
  deriving DecidableEq, Repr


/-- The formats of R218 and the E96 form of R231. -/
def fp32 : FFmt := ⟨23, 8, 127, .ieee⟩
def tf32 : FFmt := ⟨10, 8, 127, .ieee⟩
def bf16 : FFmt := ⟨7, 8, 127, .ieee⟩
def fp16 : FFmt := ⟨10, 5, 15, .ieee⟩
def e5m2 : FFmt := ⟨2, 5, 15, .ieee⟩
def e4m3 : FFmt := ⟨3, 4, 7, .e4m3⟩
def e2m1 : FFmt := ⟨1, 2, 1, .e2m1⟩
def e96 : FFmt := ⟨80, 15, 16383, .ieee⟩

/-- The float format of a code of R220. -/
def floatFormat (code : BitVec 4) : Option FFmt :=
  if code = 8 then some fp32 else if code = 9 then some fp16 else if code = 10 then some bf16
  else if code = 11 then some tf32 else if code = 12 then some e4m3 else if code = 13 then some e5m2
  else if code = 14 then some e2m1 else none

/-- The exponent of one unit in the last place of the smallest binade. -/
def FFmt.emin (f : FFmt) : Int := 1 - (f.bias : Int) - f.fbits

/-- Significand and exponent of the largest finite value (R218). -/
def FFmt.top (f : FFmt) : Nat × Int :=
  match f.kind with
  | .ieee => (2 ^ (f.fbits + 1) - 1, 2 ^ f.ebits - 2 - (f.bias : Int) - f.fbits)
  | .e4m3 => (14, 5)
  | .e2m1 => (3, 1)

/-- Sign bit place. -/
def FFmt.signBit (f : FFmt) : Nat := f.fbits + f.ebits

/-- The value of a bit pattern (R218, R219). -/
def FFmt.decode (f : FFmt) (n : Nat) : FVal :=
  let neg := n / 2 ^ f.signBit % 2 == 1
  let e := n / 2 ^ f.fbits % 2 ^ f.ebits
  let m := n % 2 ^ f.fbits
  if f.kind = .ieee ∧ e = 2 ^ f.ebits - 1 then (if m = 0 then .inf neg else .nan)
  else if f.kind = .e4m3 ∧ e = 15 ∧ m = 7 then .nan
  else if e = 0 then .num neg m f.emin
  else .num neg (2 ^ f.fbits + m) (f.emin + e - 1)

/-- Whether a bit pattern is subnormal (R218). -/
def FFmt.subnormal (f : FFmt) (n : Nat) : Bool := n / 2 ^ f.fbits % 2 ^ f.ebits == 0 && n % 2 ^ f.fbits != 0

/-- The value of a bit pattern, a subnormal taken as a zero of its sign when `ftz` is set (R222). -/
def FFmt.decodeFtz (f : FFmt) (ftz : Bool) (n : Nat) : FVal :=
  if ftz && f.subnormal n then .num (n / 2 ^ f.signBit % 2 == 1) 0 0 else f.decode n

/-- The canonical NaN (R219); E2M1 has none and writes +0 (R223). -/
def FFmt.nan (f : FFmt) : Nat :=
  match f.kind with
  | .ieee => (2 ^ f.ebits - 1) * 2 ^ f.fbits + 2 ^ (f.fbits - 1)
  | .e4m3 => 0x7F
  | .e2m1 => 0

/-- A finite bit pattern: sign, significand at most 2^(fbits + 1), exponent of its unit. -/
def FFmt.pack (f : FFmt) (neg : Bool) (m : Nat) (e : Int) : Nat :=
  let s := if neg then 2 ^ f.signBit else 0
  if m < 2 ^ f.fbits then s + m
  else if m = 2 ^ (f.fbits + 1) then s + (e + 1 - f.emin + 1).toNat * 2 ^ f.fbits
  else s + (e - f.emin + 1).toNat * 2 ^ f.fbits + (m - 2 ^ f.fbits)

/-- The largest finite value of a sign. -/
def FFmt.maxBits (f : FFmt) (neg : Bool) : Nat := f.pack neg f.top.1 f.top.2

/-- What stands where an infinity would be written (R223). -/
def FFmt.infBits (f : FFmt) (sat neg : Bool) : Nat :=
  match f.kind with
  | .e2m1 => f.maxBits neg
  | .ieee => if sat then f.maxBits neg else (if neg then 2 ^ f.signBit else 0) + (2 ^ f.ebits - 1) * 2 ^ f.fbits
  | .e4m3 => if sat then f.maxBits neg else if neg then 0xFF else 0x7F

/-- The rounding modes of R221. -/
def rndNear : Nat := 0
def rndZero : Nat := 1
def rndUp : Nat := 2
def rndDown : Nat := 3
def rndStoch : Nat := 4

/-- One advance of the generator (R226). -/
def genNext (s : DWord) : DWord :=
  let a := s ^^^ (s <<< 13)
  let b := a ^^^ (a >>> 7)
  b ^^^ (b <<< 17)

/-- The 24 bits a rounding takes from the advanced state (R226). -/
def genBits (s : DWord) : Nat := (s.extractLsb' 40 24).toNat

/-- m × 2^-k rounded to an integer: `q` the truncation, `r` the remainder below 2^k, `sticky` whether the exact value
lies above m × 2^-k by less than one unit of m (R221, R226). `rb` is the 24-bit random number. -/
def roundShift (mode rb : Nat) (neg : Bool) (m k : Nat) (sticky : Bool) : Nat :=
  let q := m / 2 ^ k
  let r := m % 2 ^ k
  let exact := r == 0 && !sticky
  let up :=
    if mode = rndNear then
      decide (2 ^ k < 2 * r) || (2 * r == 2 ^ k && (sticky || q % 2 == 1))
    else if mode = rndZero then false
    else if mode = rndUp then !neg && !exact
    else if mode = rndDown then neg && !exact
    else decide (2 ^ 24 ≤ r * 2 ^ 24 / 2 ^ k + rb)
  if up then q + 1 else q

/-- The position above the leading bit of a number: 0 for 0. -/
def bitLen (n : Nat) : Nat := if n = 0 then 0 else n.log2 + 1

/-- A finite exact value rounded to a format (R221 to R223): the bits written. `m` × 2^`e` is the magnitude, `sticky`
says that the exact magnitude is larger by less than 2^`e`. -/
def FFmt.roundMag (f : FFmt) (mode rb : Nat) (sat ftz neg : Bool) (m : Nat) (e : Int) (sticky : Bool) : Nat :=
  if m = 0 ∧ !sticky then f.pack neg 0 f.emin else
  let qe := max ((bitLen m : Int) + e - 1 - f.fbits) f.emin
  let s := if qe ≤ e then m * 2 ^ (e - qe).toNat else roundShift mode rb neg m (qe - e).toNat sticky
  let past := decide (f.top.1 * 2 ^ (f.top.2 - min f.top.2 qe).toNat < s * 2 ^ (qe - min f.top.2 qe).toNat)
  if past then
    (if mode = rndNear || mode = rndStoch || (mode = rndUp && !neg) || (mode = rndDown && neg) then f.infBits sat neg
     else f.maxBits neg)
  else if ftz && decide (s < 2 ^ f.fbits) then f.pack neg 0 f.emin
  else f.pack neg s qe

/-- A value written in a format (R219, R222, R223). -/
def FFmt.round (f : FFmt) (mode rb : Nat) (sat ftz : Bool) (v : FVal) : Nat :=
  match v with
  | .nan => f.nan
  | .inf neg => f.infBits sat neg
  | .num neg m e => f.roundMag mode rb sat ftz neg m e false

/-- The magnitude's sign and integer at a given exponent, not above its own. -/
def scaled (neg : Bool) (m : Nat) (e e' : Int) : Int :=
  let k : Int := (m * 2 ^ (e - e').toNat : Nat)
  if neg then -k else k

/-- A signed integer times 2^e as a value; a zero takes the given sign. -/
def FVal.ofInt (zeroNeg : Bool) (k : Int) (e : Int) : FVal :=
  .num (if k = 0 then zeroNeg else k < 0) k.natAbs e

/-- Exact sum; `down` is toward -∞ mode, where an exact zero sum is -0 (R229, R307). -/
def FVal.add (down : Bool) (a b : FVal) : FVal :=
  match a, b with
  | .nan, _ => .nan
  | _, .nan => .nan
  | .inf x, .inf y => if x = y then .inf x else .nan
  | .inf x, .num _ _ _ => .inf x
  | .num _ _ _, .inf y => .inf y
  | .num x m e, .num y n g =>
    let lo := min e g
    .ofInt (if x = y then x else down) (scaled x m e lo + scaled y n g lo) lo

/-- Negation, which keeps a NaN. -/
def FVal.neg : FVal → FVal
  | .nan => .nan
  | .inf x => .inf !x
  | .num x m e => .num (!x) m e

/-- Exact product; 0 × ∞ is a NaN (R307). -/
def FVal.mul (a b : FVal) : FVal :=
  match a, b with
  | .nan, _ => .nan
  | _, .nan => .nan
  | .inf x, .inf y => .inf (x != y)
  | .inf x, .num y n _ => if n = 0 then .nan else .inf (x != y)
  | .num x m _, .inf y => if m = 0 then .nan else .inf (x != y)
  | .num x m e, .num y n g => .num (x != y) (m * n) (e + g)

/-- Whether a value is a NaN. -/
def FVal.isNan : FVal → Bool
  | .nan => true
  | _ => false

/-- a < b on values that are not NaN; zeros are equal (R310). -/
def FVal.lt (a b : FVal) : Bool :=
  match a, b with
  | .nan, _ => false
  | _, .nan => false
  | .inf x, .inf y => x && !y
  | .inf x, .num _ _ _ => x
  | .num _ _ _, .inf y => !y
  | .num x m e, .num y n g => decide (scaled x m e (min e g) < scaled y n g (min e g))

/-- An integer rounded from a value under a mode (R224). -/
def FVal.toInt (mode rb : Nat) (neg : Bool) (m : Nat) (e : Int) : Int :=
  let k := if 0 ≤ e then m * 2 ^ e.toNat else roundShift mode rb neg m (-e).toNat false
  if neg then -(k : Int) else k

/-- Conversion to an n-bit integer (R224). -/
def toIntBits (n mode rb : Nat) (sat : Bool) (v : FVal) : Nat :=
  let least : Int := -(2 ^ (n - 1))
  let most : Int := 2 ^ (n - 1) - 1
  let k : Int :=
    match v with
    | .nan => 0
    | .inf neg => if neg then least else most
    | .num neg m e =>
      let k := FVal.toInt mode rb neg m e
      if sat then min (max k least) most else k
  (BitVec.ofInt n k).toNat

/-- The width of an integer format code of R220: INT8, INT16, INT32, INT64. -/
def intWidth (code : BitVec 4) : Nat := 8 * 2 ^ code.toNat

/-- The value of an n-bit two's complement integer. -/
def intValue (n k : Nat) : FVal := .ofInt false (BitVec.ofNat n k).toInt 0

/-- The bits of a 32-bit register that a format reads: element 0, and TF32 without its ignored bits (R217, R218). -/
def sourceBits (code : BitVec 4) (k : Nat) : Nat :=
  if code = 11 then k / 2 ^ 13 % 2 ^ 19
  else if code = 8 then k
  else if code = 9 || code = 10 then k % 2 ^ 16
  else if code = 14 then k % 16
  else k % 256

/-- The container of a written element: TF32 has bits 12:0 zero (R218). -/
def destBits (code : BitVec 4) (k : Nat) : Nat := if code = 11 then k * 2 ^ 13 else k

/-- The value of a source of CVT (R317): an element of a float format, flushed when `ftz`, or an integer. -/
def sourceValue (code : BitVec 4) (ftz : Bool) (k : Nat) : FVal :=
  match floatFormat code with
  | some f => f.decodeFtz ftz (sourceBits code k)
  | none => intValue (intWidth code) k

/-- The value written for a converted value (R317, R223, R224). -/
def convertTo (code : BitVec 4) (mode rb : Nat) (sat ftz : Bool) (v : FVal) : Nat :=
  match floatFormat code with
  | some f => destBits code (f.round mode rb sat ftz v)
  | none => toIntBits (intWidth code) mode rb sat v

/-- One conversion with an optional scale (R317): the scale is FP32 and never flushed. -/
def convert (dfmt sfmt : BitVec 4) (mode rb : Nat) (sat ftz : Bool) (scale : Option Word) (k : Nat) : Nat :=
  let x := sourceValue sfmt ftz k
  let x := match scale with
    | some s => x.mul (fp32.decode s.toNat)
    | none => x
  convertTo dfmt mode rb sat ftz x

/-- CVT8 (R318): the product rounded to binary32 by nearest-even without flushing, then converted. -/
def convert8 (dfmt : BitVec 4) (mode rb : Nat) (sat ftz : Bool) (a b : Word) : Nat :=
  let t := fp32.round rndNear 0 false false ((fp32.decode a.toNat).mul (fp32.decode b.toNat))
  convert dfmt 8 mode rb sat ftz none t

/-- FADD, FMUL, FFMA and FDOT2 in a format (R307, R312, R313). FSUB adds the negated operand. -/
def fAdd (f : FFmt) (mode rb : Nat) (sat ftz : Bool) (a b : Nat) : Nat :=
  f.round mode rb sat ftz ((f.decodeFtz ftz a).add (mode = rndDown) (f.decodeFtz ftz b))
def fSub (f : FFmt) (mode rb : Nat) (sat ftz : Bool) (a b : Nat) : Nat :=
  f.round mode rb sat ftz ((f.decodeFtz ftz a).add (mode = rndDown) (f.decodeFtz ftz b).neg)
def fMul (f : FFmt) (mode rb : Nat) (sat ftz : Bool) (a b : Nat) : Nat :=
  f.round mode rb sat ftz ((f.decodeFtz ftz a).mul (f.decodeFtz ftz b))
def fFma (f : FFmt) (mode rb : Nat) (sat ftz : Bool) (a b c : Nat) : Nat :=
  f.round mode rb sat ftz
    (((f.decodeFtz ftz a).mul (f.decodeFtz ftz b)).add (mode = rndDown) (f.decodeFtz ftz c))

/-- The exact sum of a list of values: any NaN, or infinities of both signs, give a NaN; the sign of a zero sum is the
common sign of the terms, else that of the mode. -/
def sumExact (down : Bool) (l : List FVal) : FVal :=
  match l with
  | [] => .num down 0 0
  | [v] => v
  | v :: r => v.add down (sumExact down r)

/-- FDOT2 on two packed registers of a half format and an FP32 addend (R313). -/
def fDot2 (f : FFmt) (mode rb : Nat) (sat ftz : Bool) (a b c : Nat) : Nat :=
  let el := fun (k i : Nat) => f.decodeFtz ftz (k / 2 ^ (16 * i) % 2 ^ 16)
  fp32.round mode rb sat ftz (sumExact (mode = rndDown)
    [(el a 0).mul (el b 0), (el a 1).mul (el b 1), fp32.decodeFtz ftz c])

/-- FMIN and FMAX: -0 below +0, a NaN gives way, no rounding (R308). -/
def fMinMax (isMax : Bool) (a b : Word) : Word :=
  let x := fp32.decode a.toNat
  let y := fp32.decode b.toNat
  if x.isNan && y.isNan then 0x7FC00000
  else if x.isNan then b
  else if y.isNan then a
  else
    let less := x.lt y || (!y.lt x && a.getLsbD 31 && !b.getLsbD 31)
    if less = isMax then b else a

/-- The binary32 sum of reductions, scans, atomics and combining waves: nearest-even, subnormals kept, any NaN gives
0x7FC0_0000 (R237, R343). -/
def fAddPlain (a b : Word) : Word := BitVec.ofNat 32 (fAdd fp32 rndNear 0 false false a.toNat b.toNat)

/-- A correctly rounded quotient 1 ÷ a (R314): 400 bits of quotient and a sticky bit. -/
def fRcp (mode rb : Nat) (ftz : Bool) (a : Nat) : Nat :=
  match fp32.decodeFtz ftz a with
  | .nan => fp32.nan
  | .inf neg => fp32.pack neg 0 0
  | .num neg m e =>
    if m = 0 then fp32.infBits false neg
    else fp32.roundMag mode rb false ftz neg (2 ^ 400 / m) (-e - 400) (2 ^ 400 % m != 0)

/-- The integer square root by bits: the greatest r below 2^`k` with (acc + r)^2 ≤ n, added to acc. -/
def isqrtBits (n : Nat) : Nat → Nat → Nat
  | 0, acc => acc
  | k + 1, acc =>
    let t := acc + 2 ^ k
    isqrtBits n k (if t * t ≤ n then t else acc)

/-- The integer square root of a number below 2^(2k). -/
def isqrt (k n : Nat) : Nat := isqrtBits n k 0

/-- A correctly rounded square root (R314, R316). -/
def fSqrt (mode rb : Nat) (ftz : Bool) (a : Nat) : Nat :=
  match fp32.decodeFtz ftz a with
  | .nan => fp32.nan
  | .inf neg => if neg then fp32.nan else fp32.infBits false false
  | .num neg m e =>
    if m = 0 then fp32.pack neg 0 0
    else if neg then fp32.nan
    else
      let m2 := if e % 2 = 0 then m else 2 * m
      let e2 := if e % 2 = 0 then e else e - 1
      let n := m2 * 2 ^ 128
      let r := isqrt 80 n
      fp32.roundMag mode rb false ftz false r (e2 / 2 - 64) (r * r != n)

/-- The class mask of a bit pattern (R311). -/
def fClass (f : FFmt) (n : Nat) : Nat :=
  match f.decode n with
  | .nan => 2 ^ 8
  | .inf neg => if neg then 1 else 2 ^ 7
  | .num neg m _ =>
    if m = 0 then (if neg then 2 ^ 3 else 2 ^ 4)
    else if f.subnormal n then (if neg then 2 ^ 2 else 2 ^ 5)
    else if neg then 2 else 2 ^ 6

/-- The comparisons of FSET (R310). -/
def fCompare (cond : BitVec 3) (a b : Word) : Bool :=
  let x := fp32.decode a.toNat
  let y := fp32.decode b.toNat
  let nan := x.isNan || y.isNan
  if cond = 0 then !nan && !x.lt y && !y.lt x
  else if cond = 1 then nan || x.lt y || y.lt x
  else if cond = 2 then x.lt y
  else if cond = 3 then !nan && !y.lt x
  else if cond = 4 then y.lt x
  else if cond = 5 then !nan && !x.lt y
  else if cond = 6 then !nan
  else nan

end Sys2Proof.Machine
end

