-- ==== Sys2Proof/Machine/Home.lean ====
section
/-! DEFINITION. What is performed at home points (R44, R96, R97, R103 to R107, R128, R131, R343): the order in which the
accesses of a die reach a line, the hold of a migration, atomics, the reads and writes of one piece of an operation, and
device registers. -/

namespace Sys2Proof.Machine

/-! ## Order of delivery (R105, R106, R149) -/

/-- Whether two targets lie in one line of memory or of host memory. -/
def clash (a b : Target) : Bool :=
  match a, b with
  | .mem p _ _, .mem q _ _ => p.line = q.line
  | .host p, .host q => p / 128 == q / 128
  | _, _ => false

def isScratch : Target → Bool
  | .scratch _ _ => true
  | .wave _ => true
  | .state _ => true
  | _ => false

/-- Whether a piece is not performed yet: a load once its value is fixed is. -/
def Piece.open_ (p : Piece) : Bool := !p.done && p.value.isNone

/-- Whether an access takes its place in the order of a line: loads, stores and atomics do; what a method call writes its wave
performs (R128), and a prefetch returns nothing (R339). -/
def Op.ordered (o : Op) : Bool :=
  match o.kind with
  | .call _ _ => false
  | _ => o.access = .load || o.access = .store || o.access = .atomic

/-- Whether a piece must be performed before another of the same die or thread: scratch accesses of one thread go in
program order; the earlier accesses of one die to one line go first, a held write only within its thread (R97, R106). -/
def goesFirst (o : Op) (q : Piece) (thread : ThreadRef) (die : Nat) (p : Piece) : Bool :=
  q.open_ &&
    ((isScratch q.target && isScratch p.target && o.thread = thread) ||
     (o.ordered && o.core.die == die && clash q.target p.target && (!q.held || o.thread = thread)))

/-- Whether an operation is a method call, and whether it is a release (R130). -/
def Op.isCall (o : Op) : Bool :=
  match o.kind with
  | .call _ _ => true
  | _ => false
def Op.isRel (o : Op) : Bool :=
  match o.kind with
  | .call _ rel => rel
  | _ => false

/-- Whether a target lies in another package. -/
def Target.remote : Target → Bool
  | .mem pa _ _ => pa.pkg.isSome
  | _ => false

/-- The physical address of a target in memory, and its leaf. -/
def Target.pa : Target → Option PAddr
  | .mem pa _ _ => some pa
  | _ => none

def Target.leaf : Target → Option Leaf
  | .mem _ l _ => some l
  | _ => none

/-- Whether the lanes of an operation are performed in ascending order: those of an atomic and of REL (R343, R347). -/
def Op.ascending (o : Op) : Bool :=
  match o.kind with
  | .rel => true
  | _ => o.access = .atomic

/-- Whether an earlier lane of its own operation keeps a piece from being performed: any for an atomic or REL (R343, R347), for a
store one that writes the same line. -/
def Op.laneWaits (o : Op) (n : Nat) (p : Piece) : Bool :=
  (o.pieces.take n).any fun q =>
    q.open_ && (o.ascending || (o.access = .store && (clash q.target p.target || (isScratch q.target && isScratch p.target))))

/-- Whether an earlier access keeps a piece from being performed. -/
def Dev.blocked (d : Dev) (o : Op) (n : Nat) : Bool :=
  match o.pieces[n]? with
  | none => true
  | some p =>
    (d.ops.any fun x => decide (x.stamp < o.stamp) && x.pieces.any fun q => goesFirst x q o.thread o.core.die p) ||
      o.laneWaits n p

/-- Whether a request of an operation's lane has still to reach its Wain. -/
def Dev.requested (d : Dev) (op lane : Nat) : Bool :=
  d.transfers.any fun t => match t with
    | .request o l _ => o == op && l == lane
    | _ => false

/-- Whether an entry of a message queue that was admitted before one is still to be performed. -/
def Dev.msgBefore (d : Dev) (c : CoreRef) (id : Nat) : Bool := (d.core c).msgs.any fun e => decide (e.id < id) && !e.done

/-- Whether the request of a method call waits for an earlier entry of its message queue: a release for each to be performed, since
what they write comes before it (R108); any other, for one to the same object until the Wain has it, for one to another object of
the line, or to another package, until it is performed (R133). -/
def Dev.callWaits (d : Dev) (o : Op) (p : Piece) : Bool :=
  o.isCall && ((o.isRel && d.msgBefore o.core o.id) ||
    d.ops.any fun x => decide (x.stamp < o.stamp) && x.isCall && x.core = o.core && x.pieces.any fun q =>
      q.open_ && clash q.target p.target && (p.target.remote || q.target.pa ≠ p.target.pa || d.requested x.id q.lane))

/-- Whether a message of an operation has still to leave for another package. -/
def Op.unsent (o : Op) : Bool := o.pieces.any fun p => p.target.remote && p.open_ && !p.sent

/-- Whether an earlier lane of a store has still to leave for a line that a piece writes: the highest lane's value is to remain
(R334). -/
def Op.storeBefore (o : Op) (n : Nat) (p : Piece) : Bool :=
  o.access = .store && (o.pieces.take n).any fun q => q.open_ && !q.sent && clash q.target p.target

/-- Whether the message of a piece may leave now: it is not on its way, its lanes are in order, no message of its die for the
same line that was issued before it is still to leave (R106, R149), and no earlier method call comes first (R133). -/
def Dev.maySend (d : Dev) (o : Op) (n : Nat) (p : Piece) : Bool :=
  !p.sent && !(o.ascending && o.laneWaits n p) && !o.storeBefore n p && !d.callWaits o p &&
    !(d.ops.any fun x => decide (x.stamp < o.stamp) && x.ordered && x.core.die == o.core.die &&
      x.pieces.any fun q => q.open_ && !q.sent && clash q.target p.target)

/-- A line that is written whole is filled without reading memory, so what memory held of it no longer matters (R49). -/
def Dev.lineWritten (d : Dev) (lpa : Nat) : Dev := { d with badLines := d.badLines.filter fun n => n ≠ d.home lpa / 128 }

/-- A write at a home point: writing a part of an uncorrectable line leaves it uncorrectable; only a write of all its bytes
replaces it. -/
def Dev.writeHome (d : Dev) (lpa : Nat) (leaf : Leaf) (hint : Option Nat) (b : List Byte) : Dev :=
  let d := d.storeHome lpa leaf hint b
  if b.length = 128 then d.lineWritten lpa else d

/-- The bytes of a line, as a bit for each, that `n` bytes from an address cover. -/
def lineBits (a n : Nat) : Nat := (2 ^ n - 1) * 2 ^ (a % 128) % 2 ^ 128

/-- The bytes of a line that the pieces of an instruction write, of all or of those performed. -/
def Op.covers (o : Op) (line : PAddr) (performed : Bool) : Nat :=
  o.pieces.foldl (fun m p => match p.target with
    | .mem a _ _ => if a.line = line && (!performed || !p.open_) then m ||| lineBits a.lpa p.data.length else m
    | _ => m) 0

/-- The stores of one instruction that together cover a line, once the last of them is performed (R49). -/
def Dev.storedLine (d : Dev) (id n : Nat) (pa : PAddr) : Dev :=
  match d.op id with
  | none => d
  | some o =>
    let o := { o with pieces := updAt o.pieces n fun p => { p with done := true } }
    if o.kind = .store && o.covers pa.line true = 2 ^ 128 - 1 then d.lineWritten pa.lpa else d

/-! ## Atomics (R343) -/

/-- Signed minimum and maximum, and compare, at 32 or 64 bits. -/
def atomicLess (wide : Bool) (a b : DWord) : Bool := if wide then a.toInt < b.toInt else a.lo.toInt < b.lo.toInt

/-- The new value of an atomic. -/
def atomicNew (op : Nat) (wide : Bool) (old b cmp : DWord) : DWord :=
  if op = 0 then old + b
  else if op = 1 then (if atomicLess wide b old then b else old)
  else if op = 2 then (if atomicLess wide old b then b else old)
  else if op = 3 then old &&& b
  else if op = 4 then old ||| b
  else if op = 5 then old ^^^ b
  else if op = 6 then b
  else if op = 7 then (if wide then (if old = cmp then b else old) else if old.lo = cmp.lo then b else old)
  else (fAddPlain old.lo b.lo).setWidth 64

/-- The value of bytes as a 64-bit value, zero above them. -/
def bytesD (b : List Byte) : DWord := BitVec.ofNat 64 (bytesNat b)

/-! ## The hold of a migration (R96, R97) -/

/-- Whether two addresses lie in one line. -/
def sameLine (a b : Nat) : Bool := a / 128 == b / 128

/-- The sender of a held item, the issuing die or the source interface of a message's flow (R97), and where its LPA leads. -/
def Dev.heldKey (d : Dev) (h : HeldItem) : (Nat × Nat) × Nat :=
  match h with
  | .piece op n _ =>
    match d.op op with
    | some o =>
      match o.pieces[n]? with
      | some ⟨_, .mem pa _ _, _, _, _, _, _, _, _, _, _⟩ => ((2 ^ 13, o.core.die), d.home pa.lpa)
      | _ => ((2 ^ 13, o.core.die), 0)
    | none => ((2 ^ 13, 0), 0)
  | .write c _ _ lpa _ _ => ((2 ^ 13, c.die), d.home lpa)
  | .log die _ lpa _ _ => ((2 ^ 13, die), d.home lpa)
  | .msg m => ((m.header.srcPkg.toNat, m.header.srcDie.toNat), d.home m.header.lpa.toNat)

/-- Whether a retried write of the same sender to the same line is still to be resent (R97): it stands with the sender's die. -/
def Dev.retriedBefore (d : Dev) (h : HeldItem) : Bool :=
  let key := d.heldKey h
  (d.die key.1.2).retried.any fun x => (d.heldKey x.2).1 = key.1 && sameLine (d.heldKey x.2).2 key.2

/-- Put a write into a die's hold queue; false when the queue is full or an earlier one was answered retry. -/
def Dev.hold_ (d : Dev) (die : Nat) (h : HeldItem) : Bool × Dev :=
  if (d.die die).held.length < 64 && !d.retriedBefore h then
    (true, d.onDie die fun k => { k with held := k.held ++ [h] })
  else (false, d)

/-- A write of this package that arrives at a home point in hold, or behind a write that was answered retry: held, or answered retry
and resent later. -/
def Dev.holdItem (d : Dev) (lpa : Nat) (h : HeldItem) : Dev :=
  let (ok, d) := if d.inHold lpa then d.hold_ (dieOf (d.home lpa)) h else (false, d)
  if ok then d else d.onDie (d.heldKey h).1.2 fun k => { k with retried := k.retried ++ [(d.now, h)] }

/-- Whether a write of this package is held or answered retry when it reaches its home point (R97). -/
def Dev.mustHold (d : Dev) (lpa : Nat) (h : HeldItem) : Bool := d.inHold lpa || d.retriedBefore h

/-- The piece of an operation is held. -/
def Dev.holdPiece (d : Dev) (lpa op n : Nat) (tag : BitVec 16) : Dev :=
  (d.holdItem lpa (.piece op n tag)).onPiece op n fun p => { p with held := true }

/-! ## Device registers (R17) -/

/-- The value a load of a device register reads: whole registers; a part of one is a free value (log 3). Addresses where
no register lies read as zero (R7, log 18). -/
def Dev.deviceRead (d : Dev) (f : Fuses) (lpa n : Nat) : List Byte × Dev :=
  if n = 8 then
    (natBytes (((regAt lpa).map fun r => (d.readReg f.secver f.revoked r).toNat).getD 0) 8, d)
  else let (v, d) := d.fresh; (natBytes v.toNat n, d)

/-- Put the store of a device register on its way to its unit. -/
def Dev.deviceWrite (d : Dev) (op n lpa : Nat) (b : List Byte) : Dev :=
  match regAt lpa with
  | none => d.donePiece op n
  | some r =>
    let (v, d) := if b.length = 8 then (bytesD b, d) else d.fresh
    let d := d.onPiece op n fun p => { p with sent := true }
    { d with regBus := d.regBus ++ [⟨r, v, some (op, n)⟩] }

/-! ## Reads (R47, R103) -/

/-- Whether an operation's reads go to the home point and not to a cache: ACQ and atomics (R47, R116). -/
def Op.atHome (o : Op) : Bool :=
  match o.kind with
  | .acq _ => true
  | _ => o.access = .atomic

/-- Whether an operation looks up the L1 of its core: not those of waves (R177), nor a near prefetch (R339). -/
def Op.usesL1 (o : Op) : Bool :=
  match o.thread, o.kind with
  | .wave _ _, _ => false
  | _, .prefetch near => !near
  | _, .audit _ _ => false
  | _, _ => true

/-- The last line of an LDA has returned: the frames reserved for it are no longer (R52). -/
def Dev.returned (d : Dev) (id : Nat) : Dev :=
  match d.op id with
  | some o =>
    if !o.frames.isEmpty && o.pieces.all fun p => p.done || p.value.isSome then
      (d.freeFrames o).onOp id fun o => { o with frames := [] }
    else d
  | none => d

/-- Fix the value of a piece. -/
def Dev.fixed (d : Dev) (id n : Nat) (b : List Byte) : Dev := (d.onPiece id n fun p => { p with value := some b }).returned id

/-- Whether a read is served by a line that the L1 of its core or the RDC of its die holds (R47, R50, R54). -/
def Dev.nearHit (d : Dev) (o : Op) (pa : PAddr) (l : Leaf) : Bool :=
  (o.usesL1 && l.level == 0 && (d.core o.core).l1.any fun x => x.hits pa.line o.tag) ||
    (!pa.onDie o.core.die && l.level != 2 && (d.rdcHit o.core.die pa o.tag).isSome)

/-- Whether a read would be served with uncorrectable data: no near cache holds the line, and at its home point it is bad (R92). -/
def Dev.readsBad (d : Dev) (o : Op) (pa : PAddr) (l : Leaf) : Bool := pa.pkg.isNone && d.bad pa.lpa && !d.nearHit o pa l

/-- The level of the page, for a read: level 0b10 at the home point (R45). -/
def Op.leafFor (o : Op) (l : Leaf) : Leaf := if o.atHome then { l with attr := 0b100000000#9 } else l

/-- Whether a prefetched place has a line to fill (R339). -/
def prefetchable : Target → Bool
  | .mem pa leaf _ => !isDevice pa.lpa && leaf.level ≠ 2
  | _ => false

/-- A lane's prefetch meets the walker (R77, R339): its address is translated, and a lane that fails a check requests nothing. `sent`
says that its page has been asked for. -/
def Dev.translatePiece (d : Dev) (o : Op) (n : Nat) (p : Piece) (va : Nat) : Option Dev :=
  let asked := fun (d : Dev) => d.onPiece o.id n fun p => { p with sent := true }
  match d.walkGate (.piece o.id n) o.core o.tag (fun _ => p.sent) [va] with
  | .stuck => none
  | .wait d => some (asked d)
  | .go d =>
    match (if p.sent then d else d.countTlbMiss o.thread va).translate o.core o.tag va false false with
    | (.ok t _, d) =>
      if prefetchable t then some (d.onPiece o.id n fun p => { p with target := t, sent := false }) else some (d.fixed o.id n [])
    | (_, d) => some (d.fixed o.id n [])

/-- Perform the read of a piece, or, for a line of another package that is not at hand, send the request (R149). -/
def Dev.readPiece (d : Dev) (f : Fuses) (id n : Nat) : Option Dev :=
  match d.op id with
  | none => none
  | some o =>
    match o.pieces[n]? with
    | none => none
    | some p =>
      if p.done || p.value.isSome || d.blocked o n then none
      else
        match p.target with
        | .host a => some (d.fixed id n (memRead d.hostMem a p.size))
        | .scratch gid off => (d.group gid).map fun g => d.fixed id n (g.scratchRead off p.size)
        | .wave off => (d.waveOf o.thread).map fun w => d.fixed id n (w.scratchRead off p.size)
        | .state off => (d.waveOf o.thread).map fun w => d.fixed id n ((w.buffer.drop off).take p.size)
        | .virt va => d.translatePiece o n p va
        | .mem pa leaf va =>
          if pa.pkg.isNone && isDevice pa.lpa then
            let (b, d) := d.deviceRead f pa.lpa p.size
            some (d.fixed id n b)
          else if d.readsBad o pa (o.leafFor leaf) then
            (if o.access = .prefetch then some ((d.foundBad pa.lpa).fixed id n []) else none)
          else if p.sent then none
          else
            let l := o.leafFor leaf
            let miss := o.access = .load && o.usesL1 && l.level == 0 &&
              !((d.core o.core).l1.any fun x => x.hits pa.line o.tag)
            let d := if miss then d.count o.thread 3 1 else d
            match d.readThrough o.core o.tag pa l va p.size o.usesL1 o.hint o.forbidden none with
            | (some b, d) => some (d.fixed id n b)
            | (none, d) =>
              let die := o.core.die
              let pkg := pa.pkg.getD 0
              if (d.die die).writeUnanswered pkg pa.lpa || d.lineAsked die pa.line then none
              else
                let line := l.level ≠ 2
                let a : Addressed := ⟨7, o.job / 256, o.job % 256, leaf.peer, pkg, 0, if line then pa.line.lpa else pa.lpa, 1⟩
                let d := d.onPiece id n fun p => { p with sent := true }
                some (d.sendPlain die a (BitVec.ofNat 32 (id * 64 + n)) (.read (if line then 128 else p.size)))

/-- The data of a remote read has come: with the stores of the die that passed it merged (R122), it goes through the caches its page
selects, and fixes the value. -/
def Dev.readArrived (d : Dev) (id n : Nat) (b : List Byte) : Option Dev :=
  match d.op id with
  | none => none
  | some o =>
    match o.pieces[n]? with
    | none => none
    | some p =>
      if p.done || p.value.isSome || !p.sent then none
      else
        match p.target with
        | .mem pa leaf va =>
          let l := o.leafFor leaf
          let late := (o.late.filter fun x => x.1 = pa.line).map fun x => x.2
          if l.level = 2 then
            let line := overlays (List.replicate (pa.lpa % 128) 0 ++ b ++ List.replicate (128 - pa.lpa % 128 - b.length) 0) late
            some ((d.freshen o.core o.tag pa ((line.drop (pa.lpa % 128)).take b.length)).fixed id n b)
          else
            let b := overlays b late
            match d.readThrough o.core o.tag pa l va p.size o.usesL1 o.hint o.forbidden (some b) with
            | (some v, d) => some (d.fixed id n v)
            | (none, _) => none
        | _ => none

/-! ## Writes -/

/-- Perform a store's piece at its home point: bytes of a load-store access, or the write of REL. -/
def Dev.performStore (d : Dev) (o : Op) (n : Nat) : Dev :=
  match o.pieces[n]? with
  | some p =>
    match p.target with
    | .mem pa leaf _ => ((d.writeHome pa.lpa leaf o.hint p.data).storedLine o.id n pa).donePiece o.id n
    | .host a => ({ d with hostMem := memWrite d.hostMem a p.data }).donePiece o.id n
    | .scratch gid off => (d.scratchWrite gid off p.data).donePiece o.id n
    | .wave off => (d.onWave o.thread fun w => { w with scratch := putAll w.scratch off p.data }).donePiece o.id n
    | .state off => (d.onWave o.thread fun w => { w with buffer := overlay w.buffer off p.data }).donePiece o.id n
    | .virt _ => d
  | none => d

/-- Perform an atomic of a lane at its home point: the old value returns; the line leaves the issuer's near caches
(R47, R128). -/
def Dev.performAtomic (d : Dev) (o : Op) (n op : Nat) (wide : Bool) : Dev :=
  match o.pieces[n]? with
  | some p =>
    let b := bytesD p.data
    match p.target with
    | .mem pa leaf _ =>
      let old := bytesD (d.homeRead pa.lpa p.size)
      let d := d.l2Use pa.lpa leaf.owner leaf.evict none (leaf.level ≠ 2) true
      let d := d.homeWrite pa.lpa (natBytes (atomicNew op wide old b p.cmp).toNat p.size)
      (d.dropLine o.core o.tag pa).fixed o.id n (natBytes old.toNat p.size)
    | .host a =>
      let old := bytesD (memRead d.hostMem a p.size)
      let new := natBytes (atomicNew op wide old b p.cmp).toNat p.size
      ({ d with hostMem := memWrite d.hostMem a new }).fixed o.id n (natBytes old.toNat p.size)
    | _ => d
  | none => d

/-- A write of this package reaches its home point: it is performed, or it enters hold. None when it cannot reach it now:
an earlier access goes first, a wave holds the object, it is on its way already. -/
def Dev.writePiece (d : Dev) (id n : Nat) : Option Dev :=
  match d.op id with
  | none => none
  | some o =>
    match o.pieces[n]? with
    | none => none
    | some p =>
      if p.done || p.value.isSome || p.held || p.sent || d.blocked o n then none
      else
        let perform := fun (d : Dev) => match o.kind with
          | .atomic op wide _ _ => some (d.performAtomic o n op wide)
          | .store => some (d.performStore o n)
          | .rel => some (d.performStore o n)
          | _ => none
        match p.target with
        | .mem pa _ _ =>
          if pa.pkg.isSome then none
          else if isDevice pa.lpa then
            (match o.kind with
             | .atomic _ _ _ _ => let (b, d) := d.fresh; some (d.fixed id n (natBytes b.toNat p.size))
             | _ => some (d.deviceWrite id n pa.lpa p.data))
          else if o.access = .atomic && d.bad pa.lpa then none
          else if d.mustHold pa.lpa (.piece id n o.tag) then some (d.holdPiece pa.lpa id n o.tag)
          else if d.waveHolds pa.lpa p.size then none
          else perform d
        | _ => perform d

/-- Perform a held write of this package (R96 step 5). -/
def Dev.releasePiece (d : Dev) (id n : Nat) : Dev :=
  match d.op id with
  | none => d
  | some o =>
    let d := d.onPiece id n fun p => { p with held := false }
    match o.kind with
    | .atomic op wide _ _ => d.performAtomic o n op wide
    | _ => d.performStore o n

end Sys2Proof.Machine
end

