-- ==== Sys2Proof/Machine/Access.lean ====
section
/-! DEFINITION. Lane accesses to memory (R23 to R40, R52, R67 to R70, R79, R80, R83, R84): the checks of an access, the
pieces it is performed in, footprints and their log. -/

namespace Sys2Proof.Machine

/-! ## Checks -/

/-- One lane's access: its lane, final address, whether it keeps its limits, its size. -/
structure LaneAccess where
  lane : Nat
  addr : DWord
  inside : Bool
  size : Nat
  deriving DecidableEq, Repr

/-- A trap that reports a lane and its address. -/
def LaneAccess.trap (a : LaneAccess) (cause : BitVec 8) (detail : Nat) : TrapInfo :=
  ⟨cause, BitVec.ofNat 64 detail, a.addr, BitVec.ofNat 8 a.lane⟩

/-- Translate an address for a thread, counting an L1 TLB miss (R398). -/
def Dev.xlate (d : Dev) (r : ThreadRef) (va : Nat) (write : Bool) : XlateOut × Dev :=
  let c := d.coreOf r
  let tag := d.tagOf r
  (d.countTlbMiss r va).translate c tag va write false

/-- Translate the accesses of every lane. -/
def Dev.xlateLanes (d : Dev) (r : ThreadRef) (write : Bool) : List LaneAccess → List (LaneAccess × XlateOut) × Dev
  | [] => ([], d)
  | a :: rest =>
    let (x, d) := d.xlate r a.addr.toNat write
    let (l, d) := d.xlateLanes r write rest
    ((a, x) :: l, d)

/-- The one trap of an access whose lanes fail: BOUNDS, then ALIGN, then XLATE, then POISON, each at its lowest lane
(R80); a use that host memory does not support is ILLEGAL once translation resolves it (R24, log 5). -/
def Dev.checkLanes (d : Dev) (r : ThreadRef) (write noHost : Bool) (l : List LaneAccess) :
    (List (LaneAccess × Target) ⊕ TrapInfo) × Dev :=
  match l.find? fun a => !a.inside with
  | some a => (.inr (a.trap causeBounds 0), d)
  | none =>
    match l.find? fun a => a.addr.toNat % a.size ≠ 0 with
    | some a => (.inr (a.trap causeAlign 0), d)
    | none =>
      let (xs, d) := d.xlateLanes r write l
      match xs.findSome? fun x => match x.2 with
        | .xlate sub => some (x.1.trap causeXlate sub)
        | _ => none with
      | some k => (.inr k, d)
      | none =>
        match xs.findSome? fun x => match x.2 with
          | .poison => some (x.1.trap causePoison 0)
          | _ => none with
        | some k => (.inr k, d)
        | none =>
          let ts := xs.filterMap fun x => match x.2 with
            | .ok t _ => some (x.1, t)
            | _ => none
          match (if noHost then ts.find? fun x => match x.2 with
            | .host _ => true
            | _ => false else none) with
          | some x => (.inr ⟨causeIllegal, 0xFF, 0, BitVec.ofNat 8 x.1.lane⟩, d)
          | none => (.inl ts, d)

/-- The addresses that accesses translate. -/
def addresses (l : List LaneAccess) : List Nat := l.map fun a => a.addr.toNat

/-! ## Pieces -/

/-- A target some bytes further on. -/
def Target.plus (t : Target) (k : Nat) : Target :=
  match t with
  | .mem pa leaf va => .mem { pa with lpa := pa.lpa + k } leaf (va + k)
  | .host a => .host (a + k)
  | .scratch g o => .scratch g (o + k)
  | .wave o => .wave (o + k)
  | .state o => .state (o + k)
  | .virt va => .virt (va + k)

def Piece.new (lane : Nat) (t : Target) (size : Nat) : Piece :=
  ⟨lane, t, size, 0, [], none, [], 0, false, false, false⟩

/-- The registers a value of some bytes fills from a first register on: 4 bytes each. -/
def regParts (d : BitVec 7) (size : Nat) : List (BitVec 7 × Nat) :=
  if size ≤ 4 then [(d, 0)] else (upFrom 0 (size / 4)).map fun k => (d + BitVec.ofNat 7 k, 4 * k)

/-- The pieces of a lane's load: a part of at most 8 bytes is read at once (R107). -/
def loadPieces (lane : Nat) (t : Target) (size : Nat) (d : BitVec 7) : List Piece :=
  if size = 16 then
    [{ Piece.new lane t 8 with regs := regParts d 8 },
     { Piece.new lane (t.plus 8) 8 with regs := regParts (d + 2) 8 }]
  else [{ Piece.new lane t size with regs := regParts d size }]

/-- The pieces of a lane's store: to another package one message carries all its bytes. -/
def storePieces (lane : Nat) (t : Target) (b : List Byte) : List Piece :=
  if b.length = 16 && !t.remote then
    [{ Piece.new lane t 8 with data := b.take 8 }, { Piece.new lane (t.plus 8) 8 with data := b.drop 8 }]
  else [{ Piece.new lane t b.length with data := b }]

/-- The bytes of a run of registers of a lane. -/
def Lane.bytes (l : Lane) (r : BitVec 7) (size : Nat) : List Byte :=
  if size ≤ 4 then natBytes (l.get r).toNat size
  else (upFrom 0 (size / 4)).flatMap fun k => natBytes (l.get (r + BitVec.ofNat 7 k)).toNat 4

/-- The size, and whether a load extends the sign, of a type code (R333). -/
def typeSize (ty : BitVec 3) : Nat := [1, 1, 2, 2, 4, 8, 16].getD ty.toNat 16
def typeSigned (ty : BitVec 3) : Bool := ty = 1 || ty = 3

/-- The registers an operand of some bytes names. -/
def operandRegs (d : BitVec 7) (size : Nat) : List (BitVec 7) := regRun d (max 1 (size / 4))

/-! ## Stores leave the core (R47, R49, R148) -/

/-- Whether the messages of some pieces may be injected now (R156, R157). -/
def Dev.mayLaunch (d : Dev) (o : Op) : Bool :=
  !(o.pieces.any fun p => p.target.remote) || d.mayInject o.core.die (o.job / 256) (o.job % 256)

/-- What the near caches see of a piece when it issues. -/
def Dev.nearPiece (d : Dev) (o : Op) (p : Piece) : Dev :=
  match o.kind, p.target with
  | .store, .mem pa leaf _ => if isDevice pa.lpa then d else d.storeNear o.core o.tag pa leaf o.hint p.data
  | .rel, .mem pa leaf _ => if isDevice pa.lpa then d else d.storeNear o.core o.tag pa leaf none p.data
  | .atomic _ _ _ _, .mem pa _ _ => d.dropLine o.core o.tag pa
  | .call _ _, .mem pa _ _ => d.dropLine o.core o.tag pa
  | _, _ => d

/-- The lanes of a method call that name the same object as one of its pieces (R174). -/
def Op.sameObject (o : Op) (p : Piece) : List Nat :=
  (upFrom 0 o.pieces.length).filter fun m => (o.pieces[m]?).any fun q => match q.target, p.target with
    | .mem a _ _, .mem b _ _ => a = b
    | _, _ => false

/-- Send the message of a piece that goes to another package; that of a method call says how many lanes to its object follow. -/
def Dev.sendPiece (d : Dev) (o : Op) (n : Nat) (p : Piece) : Dev :=
  match p.target with
  | .mem ⟨some pkg, lpa⟩ leaf _ =>
    let die := o.core.die
    let a := fun (kind operand len : Nat) => (⟨kind, o.job / 256, o.job % 256, leaf.peer, pkg, operand, lpa, len⟩ : Addressed)
    let sent := fun (d : Dev) => d.onPiece o.id n fun p => { p with sent := true }
    match o.kind with
    | .store => sent (d.inject die (a 0 0 p.data.length) (.bytes p.data) (.piece o.id n))
    | .rel => sent (d.inject die (a 0 0 p.data.length) (.bytes p.data) (.piece o.id n))
    | .atomic op wide float _ =>
      sent (d.inject die (a 1 op (if wide then 16 else 8)) (.atomic wide float (bytesD p.data) p.cmp) (.piece o.id n))
    | .call _ _ =>
      let sel : BitVec 9 := BitVec.ofNat 9 p.cmp.toNat
      sent (d.inject die (a 2 (p.cmp.toNat % 256) 16) (.call sel (bytesD p.data) ⟨o.id, p.lane⟩
        ((o.sameObject p).filter fun m => n < m).length) (.call o.id p.lane))
    | _ => d
  | _ => d

/-- Marks a chosen record's audit as dropped (R441); in a replay the same instruction ends it (R442). -/
def Dev.dropAudit (d : Dev) (r : ThreadRef) : Dev :=
  let d := d.endReplay
  match d.groupOf r with
  | some g => { d with audits := d.audits.map fun a => if a.record = g.record then { a with dropped := true } else a }
  | none => d

/-- Whether a write goes to a peer address: to another package, or to this one through region 1 (R11, R441). -/
def Target.peer : Target → Bool
  | .mem pa _ va => pa.pkg.isSome || va / 2 ^ 54 == 1
  | _ => false

/-- The pieces of an operation with their sizes are checked in a replay (R442). -/
def Dev.shadowPieces (d : Dev) (o : Op) : Dev :=
  if d.shadow.isNone then d
  else o.pieces.foldl (fun d p => match p.target with
    | .mem _ _ va => d.shadowCheck va p.size (o.access == .store || o.access == .atomic)
    | _ => d) d

/-- An operation issues: it is outstanding, its near effects happen, its messages leave, those of an atomic or REL lane by lane
(R343, R347); without pieces it ends at once. A store to a peer address drops the audit of its record (R441); a replay's accesses are
checked with their sizes (R442). -/
def Dev.launch (d : Dev) (o : Op) : Nat × Dev :=
  let (id, d) := d.addOp o
  let o := { o with id := id, stamp := id }
  let d := if o.access = .store && o.pieces.any fun p => p.target.peer then d.dropAudit o.thread else d
  let d := d.shadowPieces o
  let d := foldIdx (fun n d p =>
    let d := d.nearPiece o p
    let o := (d.op id).getD o
    if d.maySend o n p then d.sendPiece o n p else d) 0 d o.pieces
  (id, d.closeOp id)

/-- The message of a piece that waited for an earlier one leaves, of a method call with those to the same object (R174); none when it
still waits, or may not be injected now. -/
def Dev.leavePiece (d : Dev) (id n : Nat) : Option Dev :=
  match d.op id with
  | none => none
  | some o =>
    match o.pieces[n]? with
    | some p =>
      if p.target.remote && p.open_ && d.maySend o n p && d.mayInject o.core.die (o.job / 256) (o.job % 256) then
        let all := match o.kind with
          | .call _ _ => o.sameObject p
          | _ => [n]
        some (all.foldl (fun d m => ((o.pieces[m]?).map fun q => d.sendPiece o m q).getD d) d)
      else none
    | none => none

/-! ## Private addresses (R25 to R27) -/

/-- The access of a lane to private space at an offset: limits and final address. -/
def Dev.privAccess (d : Dev) (r : ThreadRef) (lane off size : Nat) : LaneAccess :=
  match d.groupOf r, d.thread r with
  | some g, some t => ⟨lane, BitVec.ofNat 64 (privAddr g t.wid lane off), decide (off + size ≤ g.priv), size⟩
  | _, _ => ⟨lane, BitVec.ofNat 64 off, false, size⟩

/-! ## Footprints (R52, R67 to R70) -/

/-- The footprint of an array access: first byte and length; none when it is empty. A top interval gives the whole span. -/
def ArrReg.footprint (a : ArrReg) (i : Ivl) : Option (Nat × Nat) :=
  let e : Int := a.extent.toNat
  let j := if i = ivlTop then ⟨0, e - 1⟩ else ivlMeet i ⟨0, e - 1⟩
  if j.hi < j.lo then none
  else some (a.base.toNat + j.lo.toNat * 2 ^ a.z, (j.hi - j.lo + 1).toNat * 2 ^ a.z)

/-- The byte span of the elements that lanes' intervals name, clipped (R52); none when it is empty. -/
def ArrReg.clipped (a : ArrReg) (l : List Ivl) : Option (Nat × Nat) :=
  match l with
  | [] => none
  | i :: r =>
    let lo := max 0 (r.foldl (fun m j => min m j.lo) i.lo)
    let hi := min ((a.extent.toNat : Int) - 1) (r.foldl (fun m j => max m j.hi) i.hi)
    if hi < lo then none else some (a.base.toNat + lo.toNat * 2 ^ a.z, (hi - lo + 1).toNat * 2 ^ a.z)

/-- The lines an access reserves in L1: none when the interval of a lane is top (R52). -/
def Dev.footprintLines (d : Dev) (c : CoreRef) (tag : BitVec 16) (a : ArrReg) (l : Option (List Ivl)) : List PAddr :=
  match l with
  | none => []
  | some l =>
    match a.clipped l with
    | none => []
    | some (base, len) =>
      let n := (base + len + 127) / 128 - base / 128
      if 64 < n then []
      else
        let pages := (upFrom (base / 4096) ((base + len + 4095) / 4096 - base / 4096)).filterMap fun p =>
          match (d.page c tag (p * 4096)).1 with
          | .ok e => if e.va / 2 ^ 54 = 2 then none else some (p, (⟨if e.va / 2 ^ 54 = 1 && e.leaf.frame / 2 ^ 31 ≠ d.pkgNum
              then some (e.leaf.frame / 2 ^ 31) else none, e.lpaAt (p * 4096)⟩ : PAddr), e.leaf.level)
          | .bad _ => none
        (upFrom (base / 128) n).filterMap fun l =>
          (pages.find? fun p => p.1 = l / 32).bind fun p =>
            if p.2.2 = 0 then some { p.2.1 with lpa := p.2.1.lpa + l % 32 * 128 } else none

/-- Reserve frames for the missing lines of a footprint, or none at all when they do not fit (R52). -/
def Dev.reserve (d : Dev) (c : CoreRef) (tag : BitVec 16) (lines : List PAddr) : List PAddr × Dev :=
  let l1 := (d.core c).l1
  let missing := lines.filter fun pa => !(l1.any fun l => l.hits pa tag)
  let place := fun (ls : List Line) (pa : PAddr) => install 128 8 ls ⟨pa, (0, 0), 0, tag, none, 0, true, false, [], 0⟩
  let l1' := missing.foldl place l1
  if missing.isEmpty || 512 < (l1'.filter fun l => l.reserved).length ||
      !(missing.all fun pa => l1'.any fun l => l.pa = pa && l.reserved) then ([], d)
  else (missing, d.onCore c fun k => { k with l1 := l1' })

/-- Write a part of the log as the context's write-around stores are made (R49, R69): in the hold of a migration it is held, or answered
retry, like any other write (R96, R97). -/
def Dev.logStore (d : Dev) (c : CoreRef) (tag : BitVec 16) (pa : PAddr) (l : Leaf) (b : List Byte) : Dev :=
  let around := { l with attr := (l.attr &&& 0b110011111#9) ||| 0b000100000#9 }
  let d := d.storeNear c tag pa around none b
  let h := HeldItem.log c.die tag pa.lpa around b
  if d.mustHold pa.lpa h then d.holdItem pa.lpa h else d.storeHome pa.lpa around none b

/-- A word of a footprint-log descriptor as the log's writes go by it: one that such a write has given a value which is still held in a
migration counts with that value (DESIGN CHOICE, log 47). -/
def Dev.logWord (d : Dev) (lpa : Nat) : Nat :=
  let all := d.dies.flatMap fun k => k.held ++ k.retried.map fun x => x.2
  let mine := all.filterMap fun h => match h with
    | .log _ _ a _ b => if a = lpa && b.length = 4 then some (bytesNat b) else none
    | _ => none
  (mine.getLast?).getD (memW d.mem (d.home lpa)).toNat

/-- The virtual address of a context's footprint-log descriptor; 0 for none (R70, R401). -/
def Dev.logDesc (d : Dev) (tag : BitVec 16) : Nat := (d.ctxD (tagCtx tag) 56).toNat / 32 * 32

/-- The base and size of the ring that a descriptor names: none when its base is 0 or it breaks the alignment or size rules, which
disables logging (R70). -/
def Dev.logRing (d : Dev) (lpa : Nat) : Option (Nat × Nat) :=
  let base := (memD d.mem (d.home lpa)).toNat
  let size := (memW d.mem (d.home lpa + 8)).toNat
  if base = 0 || base % 4096 ≠ 0 || size < 256 || 2 ^ 24 < size || 2 ^ size.log2 ≠ size || 2 ^ 54 ≤ base then none else some (base, size)

/-- Whether a context's footprint-log enables are ignored (R70). -/
def Dev.logOff (d : Dev) (c : CoreRef) (tag : BitVec 16) : Bool :=
  d.logDesc tag = 0 || (match (d.translate c tag (d.logDesc tag) true false).1 with
    | .ok (.mem pa _ _) _ => pa.pkg.isNone && !isDevice pa.lpa && (d.logRing pa.lpa).isNone
    | _ => false)

/-- Write one log entry into the context's ring (R70); a replay writes none (R442, log 38). What becomes of an entry whose
descriptor or ring cannot be reached (a failed translation, a poisoned frame, a page of another package or of device registers)
the spec does not say: the entry is dropped, and no drop is counted (DESIGN CHOICE, log 47). -/
def Dev.writeLog (d : Dev) (c : CoreRef) (tag : BitVec 16) (w0 w1 : DWord) : Dev :=
  if d.logDesc tag = 0 || d.shadow.isSome then d
  else
    match d.translate c tag (d.logDesc tag) true false with
    | (.ok (.mem pa leaf _) _, d) =>
      if pa.pkg.isSome || isDevice pa.lpa then d
      else
        match d.logRing pa.lpa with
        | none => d
        | some (base, size) =>
        let head := d.logWord (pa.lpa + 12)
        let tail := d.logWord (pa.lpa + 16)
        let drops := d.logWord (pa.lpa + 20)
        if (head + 1) % size = tail then
          d.logStore c tag { pa with lpa := pa.lpa + 20 } leaf (natBytes (min (drops + 1) 0xFFFFFFFF) 4)
        else
          match d.translate c tag (base + 16 * (head % size)) true false with
          | (.ok (.mem qa leaf' _) _, d) =>
            if qa.pkg.isSome || isDevice qa.lpa then d
            else
              (d.logStore c tag qa leaf' (natBytes w0.toNat 8 ++ natBytes w1.toNat 8)).logStore c tag
                { pa with lpa := pa.lpa + 12 } leaf (natBytes ((head + 1) % size) 4)
          | (_, d) => d
    | (_, d) => d

/-- Write a buffered entry to the log. -/
def Dev.flushFootprint (d : Dev) (c : CoreRef) (i : Nat) : Dev :=
  match (d.core c).footprints[i]? with
  | none => d
  | some (w0, w1, ctx, _) =>
    (d.onCore c fun k => { k with footprints := k.footprints.eraseIdx i }).writeLog c (d.tag ctx) w0 w1

/-- Write every buffered entry of a context to the log: the context is saved or drained from the core (R69). -/
def Dev.flushCtx (d : Dev) (c : CoreRef) (ctx : Nat) : Dev :=
  let k := d.core c
  let mine := k.footprints.filter fun e => e.2.2.1 = ctx
  if mine.isEmpty then d
  else
    let d := d.onCore c fun k => { k with footprints := k.footprints.filter fun e => e.2.2.1 != ctx }
    mine.foldl (fun d e => d.writeLog c (d.tag ctx) e.1 e.2.1) d

/-- Log a footprint: it is merged with an equal buffered entry, or takes a place in the buffer (R67 to R69). When the 16 places are
taken the oldest entry is written out; and the core field of a home core's entry holds the home core's index, which is that of a
compute core too, since R68 numbers compute cores only (DESIGN CHOICE, log 47). -/
def Dev.logFootprint (d : Dev) (c : CoreRef) (tag : BitVec 16) (kind : Nat) (span : Option (Nat × Nat)) : Dev :=
  match span with
  | none => d
  | some (base, len) =>
    if d.logOff c tag then d else
    let ctx := tagCtx tag
    let pages := (base + len + 4095) / 4096 - base / 4096
    let many : Bool := 4096 < pages
    let w0 := BitVec.ofNat 64 (field 62 c.die + field 56 c.idx + field 12 (base / 4096 % 2 ^ 44))
    let low := field 15 many.toNat + field 12 kind + (if many then 4095 else pages - 1)
    let k := d.core c
    match (upFrom 0 k.footprints.length).find? fun i =>
        (k.footprints[i]?).any fun e => e.1 = w0 && bits e.2.1 47 0 = low && e.2.2.1 = ctx with
    | some i =>
      let more := fun (e : DWord × DWord × Nat × Nat) =>
        (e.1, BitVec.ofNat 64 (field 48 (min (bits e.2.1 63 48 + 1) 0xFFFF) + low), e.2.2.1, e.2.2.2)
      d.onCore c fun k => { k with footprints := updAt k.footprints i more }
    | none =>
      let d := if 16 ≤ k.footprints.length then d.flushFootprint c 0 else d
      d.onCore c fun k => { k with footprints := k.footprints ++ [(w0, BitVec.ofNat 64 (field 48 1 + low), ctx, d.now)] }

end Sys2Proof.Machine
end

