-- ==== Sys2Proof/Machine/LoadStore.lean ====
section
/-! DEFINITION. Loads and stores: global and private (R333 to R335, R296), arrays (R336, R337), scratch (R338, R328 to
R330), prefetch (R339). An access that needs a translation stalls at issue; the part after its checks is the `Done` half. -/

namespace Sys2Proof.Machine

/-! ## Global and private -/

/-- The register fields the address of LDG or STG names. -/
def globalRegs (a : BitVec 6) (prv : BitVec 1) : List (BitVec 7) := if prv = 1 then [a.setWidth 7] else addrRegs a

/-- The accesses of the taking-part lanes of LDG or STG (R26, R331, R333). -/
def Dev.globalLanes (d : Dev) (r : ThreadRef) (t : Thread) (a : BitVec 6) (ty : BitVec 3) (prv : BitVec 1) (g : Guard) :
    List LaneAccess :=
  (maskLanes (t.taking g)).map fun l =>
    if prv = 1 then d.privAccess r l ((t.lane l).get (a.setWidth 7)).toNat (typeSize ty)
    else ⟨l, t.addr l a, true, typeSize ty⟩

/-- LDG (R333, R334): the stall of its checks; without a taking-part lane it ends at once. -/
def execLdg (d : BitVec 7) (a : BitVec 6) (ty : BitVec 3) (prv : BitVec 1) (_ev : BitVec 2) (f : BitVec 1) (g : Guard)
    (s : State) : Out :=
  longOp s (operandRegs d (typeSize ty) ++ globalRegs a prv) f fun r t _ dev =>
    if t.taking g = 0 then dev.retire r 1 else dev.stall r (addresses (dev.globalLanes r t a ty prv g))

/-- LDG once its translations are done: one trap, or its reads are outstanding. -/
def Dev.ldgDone (dev : Dev) (r : ThreadRef) (t : Thread) (d : BitVec 7) (a : BitVec 6) (ty : BitVec 3) (prv : BitVec 1)
    (ev : BitVec 2) (f : BitVec 1) (g : Guard) : Option Dev :=
  match dev.checkLanes r false false (dev.globalLanes r t a ty prv g) with
  | (.inr k, dev) => some (dev.raise r k)
  | (.inl ts, dev) =>
    let o := { dev.opFor r (.load (typeSize ty) (typeSigned ty)) .load (t.flagOf f) (t.taking g) with
      hint := hintOf ev, dest := d, pieces := ts.flatMap fun x => loadPieces x.1.lane x.2 (typeSize ty) d }
    some ((dev.launch o).2.retire r 1)

/-- STG (R333, R334): it waits while the unacknowledged-store counter is full (R125). -/
def execStg (d : BitVec 7) (a : BitVec 6) (ty : BitVec 3) (prv : BitVec 1) (_ev : BitVec 2) (f : BitVec 1) (g : Guard)
    (s : State) : Out :=
  longOp s (operandRegs d (typeSize ty) ++ globalRegs a prv) f fun r t _ dev =>
    if !t.mayCount then dev.hold r .retry
    else if t.taking g = 0 then dev.retire r 1 else dev.stall r (addresses (dev.globalLanes r t a ty prv g))

/-- STG once its translations are done. -/
def Dev.stgDone (dev : Dev) (r : ThreadRef) (t : Thread) (d : BitVec 7) (a : BitVec 6) (ty : BitVec 3) (prv : BitVec 1)
    (ev : BitVec 2) (f : BitVec 1) (g : Guard) : Option Dev :=
  match dev.checkLanes r true false (dev.globalLanes r t a ty prv g) with
  | (.inr k, dev) => some (dev.raise r k)
  | (.inl ts, dev) =>
    let o := { dev.opFor r .store .store (t.flagOf f) (t.taking g) with
      hint := hintOf ev, counted := true
      pieces := ts.flatMap fun x => storePieces x.1.lane x.2 ((t.lane x.1.lane).bytes d (typeSize ty)) }
    if dev.mayLaunch o then some ((dev.launch o).2.retire r 1) else none

/-! ## Index registers in private space (R296) -/

/-- The accesses of XLD and XST: 16 bytes of private space at a + 16 × imm, a 32-bit offset (R11, R272). -/
def Dev.xLanes (d : Dev) (r : ThreadRef) (t : Thread) (a : BitVec 7) (imm : BitVec 8) (g : Guard) : List LaneAccess :=
  (maskLanes (t.taking g)).map fun l => d.privAccess r l ((((t.lane l).get a).toNat + 16 * imm.toNat) % 2 ^ 32) 16

/-- XLD (R296). -/
def execXld (x : BitVec 4) (a : BitVec 7) (imm : BitVec 8) (f : BitVec 1) (g : Guard) (s : State) : Out :=
  longOp s [xField x, a] f fun r t _ dev =>
    if t.taking g = 0 then dev.retire r 1 else dev.stall r (addresses (dev.xLanes r t a imm g))
where
  /-- The 7-bit field of an index register. -/
  xField (x : BitVec 4) : BitVec 7 := 112 + x.setWidth 7

/-- XLD once its translations are done. -/
def Dev.xldDone (dev : Dev) (r : ThreadRef) (t : Thread) (x : BitVec 4) (a : BitVec 7) (imm : BitVec 8) (f : BitVec 1)
    (g : Guard) : Option Dev :=
  match dev.checkLanes r false false (dev.xLanes r t a imm g) with
  | (.inr k, dev) => some (dev.raise r k)
  | (.inl ts, dev) =>
    let o := { dev.opFor r .xload .load (t.flagOf f) (t.taking g) with
      dest := 112 + x.setWidth 7
      pieces := ts.flatMap fun y => [Piece.new y.1.lane y.2 8, Piece.new y.1.lane (y.2.plus 8) 8] }
    some ((dev.launch o).2.retire r 1)

/-- XST (R296). -/
def execXst (x : BitVec 4) (a : BitVec 7) (imm : BitVec 8) (f : BitVec 1) (g : Guard) (s : State) : Out :=
  longOp s [112 + x.setWidth 7, a] f fun r t _ dev =>
    if !t.mayCount then dev.hold r .retry
    else if t.taking g = 0 then dev.retire r 1 else dev.stall r (addresses (dev.xLanes r t a imm g))

/-- XST once its translations are done. -/
def Dev.xstDone (dev : Dev) (r : ThreadRef) (t : Thread) (x : BitVec 4) (a : BitVec 7) (imm : BitVec 8) (f : BitVec 1)
    (g : Guard) : Option Dev :=
  match dev.checkLanes r true false (dev.xLanes r t a imm g) with
  | (.inr k, dev) => some (dev.raise r k)
  | (.inl ts, dev) =>
    let data := fun (l : Nat) =>
      let y := (t.lane l).xr x.toNat
      natBytes y.v.toNat 4 ++ natBytes y.lo.toNat 4 ++ natBytes y.hi.toNat 4 ++ [0, 0, 0, 0]
    let o := { dev.opFor r .store .store (t.flagOf f) (t.taking g) with
      counted := true, pieces := ts.flatMap fun y => storePieces y.1.lane y.2 (data y.1.lane) }
    if dev.mayLaunch o then some ((dev.launch o).2.retire r 1) else none

/-! ## Arrays (R336, R337) -/

/-- Whether a register operand fits an element size (R336). -/
def arrayFits (z : Nat) (d : BitVec 7) : Bool :=
  if z ≤ 2 then true
  else if z = 3 then d.toNat < 112 && d.toNat % 2 == 0
  else d.toNat ≤ 108 && d.toNat % 4 == 0

/-- The register fields LDA and STA name. -/
def arrayRegs (t : Thread) (d : BitVec 7) (arr x : BitVec 4) : List (BitVec 7) :=
  let z := (t.arr arr).z
  (if arrayFits z d then operandRegs d (2 ^ z) else [d]) ++ [112 + x.setWidth 7]

/-- The accesses of an array instruction's lanes: element addresses; `.mask` mode leaves out lanes out of bounds. -/
def Thread.arrayLanes (t : Thread) (arr x : BitVec 4) (c : Int) (mask : Word) : List LaneAccess :=
  let a := t.arr arr
  (maskLanes mask).filterMap fun l =>
    let i := t.elemIndex l x c
    if a.inBounds i || a.trap then some ⟨l, a.elemAddr i, a.inBounds i, 2 ^ a.z⟩ else none

/-- The lanes of a mask that are out of bounds. -/
def Thread.outLanes (t : Thread) (arr x : BitVec 4) (c : Int) (mask : Word) : List Nat :=
  (maskLanes mask).filter fun l => !(t.arr arr).inBounds (t.elemIndex l x c)

/-- The status predicate p6 of `.mask` mode (R337). -/
def Thread.maskStatus (t : Thread) (arr : BitVec 4) (mask : Word) (out : List Nat) : Thread :=
  if (t.arr arr).trap then t
  else { t with lanes := mapIdx (fun n l => if mask.getLsbD n then l.setP 6 (out.contains n) else l) 0 t.lanes }

/-- A pinned translation as an elided access uses it: its checks were made when it was pinned (R84, R85). -/
def Pin.checked (p : Pin) : TlbEntry := { p.entry with clean := true, exports := [(0, 2 ^ 64, true)] }

/-- The translations of an elided stall, from the pins of the array, and the pinned pages they come from (R84, R86). -/
def Dev.pinned (d : Dev) (r : ThreadRef) (arr : BitVec 4) (write : Bool) (l : List LaneAccess) :
    Option (List (LaneAccess × Target) × List Nat) :=
  match r with
  | .warp gid wid =>
    let pins := (d.core (d.coreOf r)).pins.filter fun p => p.users.contains (gid, wid, arr.toNat)
    let tag := d.tagOf r
    let one := fun (a : LaneAccess) =>
      match pins.find? fun p => p.entry.hits tag a.addr.toNat with
      | some p =>
        let va := a.addr.toNat
        (match (d.shadowed va write false (d.resolve (d.coreOf r) tag p.checked va write false).1).1 with
         | .ok t _ => some ((a, t), p.entry.va)
         | _ => none)
      | none => none
    (l.mapM one).map fun x => (x.map Prod.fst, (x.map Prod.snd).eraseDups)
  | _ => none

/-- A load's or store's part after its checks: reads, zeros for masked lanes, or writes; p6; the frames reserved in an L1, which a wave
does not use (R177); the pinned pages in use. -/
def Dev.arrayFinish (dev : Dev) (r : ThreadRef) (t : Thread) (store : Bool) (d : BitVec 7) (arr x : BitVec 4) (c : Int)
    (f : BitVec 1) (mask : Word) (ts : List (LaneAccess × Target)) (pins : List Nat) : Option Dev :=
  let a := t.arr arr
  let size := 2 ^ a.z
  let out := t.outLanes arr x c mask
  let zero : List Piece := out.map fun l =>
    { Piece.new l (.state 0) size with value := some (List.replicate size 0), regs := regParts d size }
  let o := if store then
      { dev.opFor r .store .store (t.flagOf f) mask with
        counted := (dev.waveOf r).isNone
        pieces := ts.flatMap fun x => storePieces x.1.lane x.2 ((t.lane x.1.lane).bytes d size) }
    else
      { dev.opFor r (.load size false) .load (t.flagOf f) mask with
        dest := d, pieces := (ts.flatMap fun x => loadPieces x.1.lane x.2 size d) ++ zero }
  if !dev.mayLaunch o then none
  else
    let (frames, dev) := if store || (dev.waveOf r).isSome then ([], dev)
      else dev.reserve o.core o.tag (dev.footprintLines o.core o.tag a (t.laneIvls x c))
    let dev := dev.onThread r fun t => t.maskStatus arr mask out
    some ((dev.launch { o with frames := frames, pins := pins }).2.retire r 1)

/-- An array load or store at issue (R83, R84, R336): ILLEGAL for a register that does not fit; in a wave a0 is the state
buffer (R176); the check is elided or inserted, the stall elided or taken. -/
def arrayOp (store : Bool) (d : BitVec 7) (arr x c : BitVec 4) (f : BitVec 1) (g : Guard) (s : State) : Out :=
  longOpBy s (fun t => arrayRegs t d arr x) f fun r t _ dev =>
    let a := t.arr arr
    let c := c.toInt
    let mask := t.taking g
    if !arrayFits a.z d then dev.raise r (trapFit 6 t)
    else if store && !t.mayCount then dev.hold r .retry
    else
      let lanes := t.arrayLanes arr x c mask
      let elided := t.elided arr x c
      let log := fun (dev : Dev) =>
        if a.log then dev.logFootprint (dev.coreOf r) (dev.tagOf r) (if store then 1 else 0) (a.footprint (t.indexIvl x c))
        else dev
      let note := fun (dev : Dev) => log (dev.count r (if elided then 7 else 6) 1)
      if mask = 0 then (log dev).retire r 1 else
      if (dev.waveOf r).isSome && arr = 0 then
        match lanes.find? fun l => !l.inside with
        | some l => (note dev).raise r (l.trap causeBounds 0)
        | none =>
          let ts := lanes.map fun l => (l, Target.state l.addr.toNat)
          ((note dev).arrayFinish r t store d arr x c f mask ts []).getD dev
      else
        match (if elided && (if store then a.armedW else a.armed) then dev.pinned r arr store lanes else none) with
        | some (ts, pins) => ((note dev).arrayFinish r t store d arr x c f mask ts pins).getD (dev.hold r .retry)
        | none => (note dev).stall r (addresses lanes)

/-- An array load or store once its translations are done. -/
def Dev.arrayDone (dev : Dev) (r : ThreadRef) (t : Thread) (store : Bool) (d : BitVec 7) (arr x c : BitVec 4)
    (f : BitVec 1) (g : Guard) : Option Dev :=
  match dev.checkLanes r store false (t.arrayLanes arr x c.toInt (t.taking g)) with
  | (.inr k, dev) => some (dev.raise r k)
  | (.inl ts, dev) => dev.arrayFinish r t store d arr x c.toInt f (t.taking g) ts []

/-- LDA (R336, R337). -/
def execLda (d : BitVec 7) (arr x c : BitVec 4) (f : BitVec 1) (g : Guard) (s : State) : Out := arrayOp false d arr x c f g s

/-- STA (R336, R337). -/
def execSta (d : BitVec 7) (arr x c : BitVec 4) (f : BitVec 1) (g : Guard) (s : State) : Out := arrayOp true d arr x c f g s

/-! ## Scratch (R338, R328 to R330) -/

/-- The scratch place of an access of a party: of a group's allotments, or of a wave's own scratch (R29 to R31, R176). -/
def Dev.scratchTarget (d : Dev) (r : ThreadRef) (a n : Nat) : Option Target :=
  match d.waveOf r, d.groupOf r with
  | some w, _ => if a + n ≤ w.scr * 1024 && a < 2 ^ 19 then some (.wave a) else none
  | none, some g => (d.scratchAt g a n).map fun p => .scratch p.1 p.2
  | none, none => none

/-- The accesses of scratch lanes: one trap, or a place for each lane. -/
def Dev.scratchLanes (d : Dev) (r : ThreadRef) (l : List LaneAccess) : List (LaneAccess × Target) ⊕ TrapInfo :=
  let xs := l.map fun a => (a, d.scratchTarget r a.addr.toNat a.size)
  match xs.find? fun x => x.2.isNone with
  | some x => .inr (x.1.trap causeBounds 0)
  | none =>
    match l.find? fun a => a.addr.toNat % a.size ≠ 0 with
    | some a => .inr (a.trap causeAlign 0)
    | none => .inl (xs.filterMap fun x => x.2.map fun t => (x.1, t))

/-- The scratch that a place lies in, and its offset there. -/
def Target.scratchPlace : Target → Option Nat × Nat
  | .scratch gid off => (some gid, off)
  | .wave off => (none, off)
  | _ => (none, 0)

/-- The most distinct words that an access touches in one bank of one scratch, whatever addresses name them (R31, R34). -/
def bankDepth (l : List (LaneAccess × Target)) : Nat :=
  let words := (l.flatMap fun x =>
    let p := x.2.scratchPlace
    (upFrom (p.2 / 4) (max 1 (x.1.size / 4))).map fun w => (p.1, w)).eraseDups
  (words.map fun w => (words.filter fun v => v.1 = w.1 && v.2 % 32 == w.2 % 32).length).foldl max 0

/-- The scratch addresses of the taking-part lanes. -/
def Thread.scratchAddrs (t : Thread) (a : BitVec 7) (size : Nat) (g : Guard) : List LaneAccess :=
  (maskLanes (t.taking g)).map fun l => ⟨l, ((t.lane l).get a).setWidth 64, true, size⟩

/-- LDS (R338): checked at issue. -/
def execLds (d a : BitVec 7) (ty : BitVec 3) (f : BitVec 1) (g : Guard) (s : State) : Out :=
  longOp s (operandRegs d (typeSize ty) ++ [a]) f fun r t fl dev =>
    let l := t.scratchAddrs a (typeSize ty) g
    match dev.scratchLanes r l with
    | .inr k => dev.raise r k
    | .inl ts =>
      let o := { dev.opFor r (.load (typeSize ty) (typeSigned ty)) .load fl (t.taking g) with
        dest := d, pieces := ts.flatMap fun x => loadPieces x.1.lane x.2 (typeSize ty) d }
      ((dev.count r 9 (bankDepth ts - 1)).launch o).2.retire r 1

/-- STS (R338). -/
def execSts (d a : BitVec 7) (ty : BitVec 3) (f : BitVec 1) (g : Guard) (s : State) : Out :=
  longOp s (operandRegs d (typeSize ty) ++ [a]) f fun r t fl dev =>
    let l := t.scratchAddrs a (typeSize ty) g
    match dev.scratchLanes r l with
    | .inr k => dev.raise r k
    | .inl ts =>
      let o := { dev.opFor r .store .store fl (t.taking g) with
        pieces := ts.flatMap fun x => storePieces x.1.lane x.2 ((t.lane x.1.lane).bytes d (typeSize ty)) }
      ((dev.count r 9 (bankDepth ts - 1)).launch o).2.retire r 1

/-- The fragment loads (R328): the rows of the taking-part lanes are read; `form` 0 plain, 1 `.t.b8`, 2 `.t.b16`. -/
def fragOp (form : Nat) (d a : BitVec 7) (f : BitVec 1) (g : Guard) (s : State) : Out :=
  longOp s (regRun d 4 ++ [a]) f fun r t fl dev =>
    let l := t.scratchAddrs a 16 g
    match dev.scratchLanes r l with
    | .inr k => dev.raise r k
    | .inl ts =>
      let o := { dev.opFor r (.frag form) .load fl (t.taking g) with
        dest := d, pieces := ts.map fun x => { Piece.new x.1.lane x.2 16 with regs := regParts d 16 } }
      ((dev.count r 9 (bankDepth ts - 4)).launch o).2.retire r 1

/-- LDFRAG (R328, R329). -/
def execLdfrag (d a : BitVec 7) (f : BitVec 1) (g : Guard) (s : State) : Out := fragOp 0 d a f g s

/-- LDFRAG.T.B8 (R328, R329). -/
def execLdfragTB8 (d a : BitVec 7) (f : BitVec 1) (g : Guard) (s : State) : Out := fragOp 1 d a f g s

/-- LDFRAG.T.B16 (R328, R329). -/
def execLdfragTB16 (d a : BitVec 7) (f : BitVec 1) (g : Guard) (s : State) : Out := fragOp 2 d a f g s

/-- The byte of a tile's row: zero for a row that no lane supplied (R328). -/
def tileByte (rows : List (Nat × List Byte)) (row col : Nat) : Byte :=
  ((rows.find? fun x => x.1 = row).map fun x => x.2.getD col 0).getD 0

/-- The 16 bytes a lane receives (R329). -/
def fragment (form : Nat) (rows : List (Nat × List Byte)) (lane : Nat) : List Byte :=
  if form = 0 then (upFrom 0 16).map fun b => tileByte rows lane b
  else if form = 1 then (upFrom 0 16).map fun e => tileByte rows (16 * (lane / 16) + e) (lane % 16)
  else (upFrom 0 8).flatMap fun e =>
    [tileByte rows (8 * (lane / 8) + e) (2 * (lane % 8)), tileByte rows (8 * (lane / 8) + e) (2 * (lane % 8) + 1)]

/-! ## Prefetch (R339) -/

/-- PRF (R339): each taking-part lane's address is translated when its request meets the walker, so the warp does not stall. It takes
no trap but at decode: with an address register outside the allotment no lane requests anything. -/
def execPrf (a : BitVec 6) (nc : BitVec 1) (ev : BitVec 2) (f : BitVec 1) (g : Guard) (s : State) : Out :=
  longOp s [] f fun r t fl dev =>
    let lanes := if (dev.allotTrap r (addrRegs a)).isSome then [] else maskLanes (t.taking g)
    let o := { dev.opFor r (.prefetch (nc = 1)) .prefetch fl (t.taking g) with
      hint := hintOf ev, pieces := lanes.map fun l => Piece.new l (.virt (t.addr l a).toNat) 1 }
    (dev.launch o).2.retire r 1

end Sys2Proof.Machine
end

