-- ==== Sys2Proof/Machine/Objects.lean ====
section
/-! DEFINITION. Atomics and method calls (R128 to R130, R342 to R344), sync objects (R111 to R119, R345 to R348), the
queue fence (R135), and array registers (R82, R85 to R88, R340, R341). -/

namespace Sys2Proof.Machine

/-! ## Waiting as a release -/

/-- A release operation waits for the warp's counter and loads; the loss bit keeps it from being performed (R118, R127). -/
def Dev.afterReleaseIn (d : Dev) (r : ThreadRef) (t : Thread) (w : Wait) (go : Dev → Dev) : Dev :=
  if !d.releaseReady r t then d.hold r w
  else if t.loss then d.raiseLost r
  else go d

/-- A release operation that is executed again until it may be performed. -/
def Dev.afterRelease (d : Dev) (r : ThreadRef) (t : Thread) (go : Dev → Dev) : Dev := d.afterReleaseIn r t .retry go

/-- Whether an earlier operation of a thread keeps an entry from being admitted: a scratch write not performed, an acquire
not complete (R134). -/
def Dev.admissionWaits (d : Dev) (r : ThreadRef) : Bool :=
  d.ops.any fun o => o.thread = r && (match o.kind with
    | .store => o.pieces.any fun p => !p.done && isScratch p.target
    | .atomic _ _ _ (some _) => true
    | .call (some _) _ => true
    | _ => false)

/-- Whether an ord field has a release part, and its acquire part's scope (R342). -/
def ordRel (ord : BitVec 2) : Bool := ord.getLsbD 1
def ordAcq (ord : BitVec 2) (scope : BitVec 4) : Option Nat := if ord.getLsbD 0 then some scope.toNat else none

/-- The accesses of lanes at the addresses that an address field gives them. -/
def Thread.pointLanes (t : Thread) (a : BitVec 6) (size : Nat) (mask : Word) : List LaneAccess :=
  (maskLanes mask).map fun l => ⟨l, t.addr l a, true, size⟩

/-! ## ATOM -/

def atomSize (dfmt : BitVec 4) : Nat := if dfmt = 3 then 8 else 4

/-- ATOM (R342, R343): with `.rel` it waits as a release; then the stall of its checks. -/
def execAtom (d : BitVec 7) (a : BitVec 6) (op : BitVec 4) (ord : BitVec 2) (f : BitVec 1) (g : Guard) (c : BitVec 7)
    (dfmt _sfmt : BitVec 4) (scale : BitVec 7) (s : State) : Out :=
  let run := fun r => operandRegs r (atomSize dfmt)
  longOp s (run d ++ addrRegs a ++ run c ++ (if op = 7 then run scale else [])) f fun r t _ dev =>
    if t.taking g = 0 then dev.retire r 2
    else if !t.mayCount then dev.hold r .retry
    else if ordRel ord then dev.afterRelease r t fun dev => dev.stall r (addresses (t.pointLanes a (atomSize dfmt) (t.taking g)))
    else dev.stall r (addresses (t.pointLanes a (atomSize dfmt) (t.taking g)))

/-- ATOM once its translations are done. An ordered ATOM names a sync object, an 8-byte word on an 8-byte boundary (R36, R111), whatever
size it acts on: a lane of 4 bytes at another address takes ALIGN as well (DEDUCED, log 48). -/
def Dev.atomDone (dev : Dev) (r : ThreadRef) (t : Thread) (d : BitVec 7) (a : BitVec 6) (op : BitVec 4) (ord : BitVec 2)
    (f : BitVec 1) (g : Guard) (c : BitVec 7) (dfmt sfmt : BitVec 4) (scale : BitVec 7) : Option Dev :=
  let size := atomSize dfmt
  let lanes := t.pointLanes a size (t.taking g)
  match lanes.find? fun l => ord ≠ 0 && l.addr.toNat % 8 ≠ 0 with
  | some l => some (dev.raise r (l.trap causeAlign 0))
  | none =>
  match dev.checkLanes r true (!(op = 0 || op = 6 || op = 7)) lanes with
  | (.inr k, dev) => some (dev.raise r k)
  | (.inl ts, dev) =>
    let piece := fun (x : LaneAccess × Target) =>
      let l := t.lane x.1.lane
      { Piece.new x.1.lane x.2 size with
        regs := regParts d size, data := l.bytes c size, cmp := if op = 7 then bytesD (l.bytes scale size) else 0 }
    let o := { dev.opFor r (.atomic op.toNat (dfmt = 3) (dfmt = 8) (ordAcq ord sfmt)) .atomic (t.flagOf f) (t.taking g) with
      dest := d, counted := true, pieces := ts.map piece }
    if dev.mayLaunch o then some (((dev.launch o).2.dropAudit r).retire r 2) else none

/-! ## CALLM -/

/-- CALLM (R344): its admission waits (R134); with `.rel` it waits as a release; then the stall of its checks. -/
def execCallm (d : BitVec 7) (a : BitVec 6) (_pd : BitVec 3) (ord : BitVec 2) (f : BitVec 1) (g : Guard) (c : BitVec 7)
    (_sfmt : BitVec 4) (scale : BitVec 7) (s : State) : Out :=
  longOp s (regRun d 2 ++ addrRegs a ++ regRun c 2 ++ [scale]) f fun r t _ dev =>
    if t.taking g = 0 then dev.retire r 2
    else if dev.admissionWaits r then dev.hold r .retry
    else if ordRel ord then dev.afterRelease r t fun dev => dev.stall r (addresses (t.pointLanes a 8 (t.taking g)))
    else dev.stall r (addresses (t.pointLanes a 8 (t.taking g)))

/-- CALLM once its translations are done: one request for each lane, in ascending lane order, and an entry of the message
queue (R132, R169, R174). -/
def Dev.callmDone (dev : Dev) (r : ThreadRef) (t : Thread) (d : BitVec 7) (a : BitVec 6) (pd : BitVec 3) (ord : BitVec 2)
    (f : BitVec 1) (g : Guard) (c : BitVec 7) (sfmt : BitVec 4) (scale : BitVec 7) : Option Dev :=
  match dev.checkLanes r true true (t.pointLanes a 8 (t.taking g)) with
  | (.inr k, dev) => some (dev.raise r k)
  | (.inl ts, dev) =>
    let piece := fun (x : LaneAccess × Target) =>
      let l := t.lane x.1.lane
      { Piece.new x.1.lane x.2 8 with regs := regParts d 8, data := l.bytes c 8, cmp := ((l.get scale).setWidth 9).setWidth 64 }
    let o := { dev.opFor r (.call (ordAcq ord sfmt) (ordRel ord)) .engine (t.flagOf f) (t.taking g) with
      dest := d, pred := pd, pieces := ts.map piece }
    if !dev.mayLaunch o then none
    else
      let (id, dev) := dev.launch o
      let (mid, dev) := (dev.nextId, { dev with nextId := dev.nextId + 1 })
      let gid := ((dev.groupOf r).map fun g => g.gid).getD 0
      let dev := dev.onCore (dev.coreOf r) fun k => { k with msgs := k.msgs ++ [⟨mid, r, gid, .call id, true, false⟩] }
      let near := (ts.filter fun x => !x.2.remote).map fun x => Transfer.request id x.1.lane 0
      some ((({ dev with transfers := dev.transfers ++ near }).dropAudit r).retire r 2)

/-! ## BIND and UNBIND (R112 to R115, R345) -/

/-- Write a predicate in every taking-part lane. -/
def Thread.setPred (t : Thread) (p : BitVec 3) (mask : Word) (v : Bool) : Thread := t.mapLanes false mask fun _ l => l.setP p v

/-- Whether any L1 or RDC of the package holds a line of a context. -/
def Dev.anyLine (d : Dev) (ctx : Nat) : Bool :=
  (d.cores.any fun k => k.l1.any fun l => tagCtx l.tag == ctx) || (d.dies.any fun k => k.rdc.any fun l => tagCtx l.tag == ctx)

/-- Remove the lines of a context in a span of pages from every L1 and RDC of the package: those of the frames that the pages map now,
and those that were filled through a page of the span (R113). -/
def Dev.dropSpanAll (d : Dev) (c : CoreRef) (tag : BitVec 16) (va len : Nat) : Dev :=
  if !d.anyLine (tagCtx tag) then d
  else
    let inSpan := lineInSpan (d.spanParts c tag va len) va len
    let keep := fun (l : Line) => !(tagCtx l.tag == tagCtx tag && inSpan l.pa l.va)
    let d := d.mapCores fun k => { k with l1 := vacate keep k.l1 }
    d.mapDies fun k => { k with rdc := vacate keep k.rdc }

/-- A trap of an instruction that acts once for its warp, with the address it names (log 20). -/
def warpTrap (cause : BitVec 8) (detail : Nat) (addr : DWord) : TrapInfo := ⟨cause, BitVec.ofNat 64 detail, addr, 0xFF⟩

/-- BIND (R113, R345): the stall of the object's translation. -/
def execBind (_pd : BitVec 3) (o _b : BitVec 4) (_n : BitVec 5) (f : BitVec 1) (g : Guard) (s : State) : Out :=
  longOp s [] f fun r t _ dev => if t.taking g = 0 then dev.retire r 1 else dev.stall r [(t.kpair o.toNat).toNat]

/-- The effect of BIND behind its checks: its status, and the table entry and invalidations of a success. A context
without a table binds nothing (log 19). -/
def Dev.bindRegion (d : Dev) (c : CoreRef) (tag : BitVec 16) (obj base n : Nat) : Bool × Dev :=
  let ctx := tagCtx tag
  let table := (d.ctxD ctx 32).toNat
  let bs := d.bindings ctx
  if n = 0 || 1048576 < n || base / 2 ^ 54 ≠ (base + n * 4096 - 1) / 2 ^ 54 || table = 0 || 1024 ≤ bs.length then (false, d)
  else if bs.any fun b => decide ((bindingSpan b.2.2).1 < base + n * 4096) &&
      decide (base < (bindingSpan b.2.2).1 + (bindingSpan b.2.2).2) then (false, d)
  else
    match (upFrom 0 1024).find? fun i => !(bs.any fun b => b.1 = i) with
    | none => (false, d)
    | some i =>
      let w0 := field 63 1 + obj
      let w1 := field 44 (n - 1) + base / 4096
      let d := d.homeWrite (table + 16 * i) (natBytes w0 8 ++ natBytes w1 8)
      (true, d.dropSpanAll c tag base (n * 4096))

/-- The status of BIND and UNBIND is set, and the next instruction issues. -/
def Dev.bindStatus (d : Dev) (r : ThreadRef) (pd : BitVec 3) (g : Guard) (ok : Bool) : Dev :=
  (d.onThread r fun t => t.setPred pd (t.taking g) ok).retire r 1

/-- BIND once its object is translated. -/
def Dev.bindDone (dev : Dev) (r : ThreadRef) (t : Thread) (pd : BitVec 3) (o b : BitVec 4) (n : BitVec 5) (g : Guard) :
    Option Dev :=
  let obj := t.kpair o.toNat
  let base := t.kpair b.toNat
  if obj.toNat % 8 ≠ 0 then some (dev.raise r (warpTrap causeAlign 0 obj))
  else if base.toNat % 4096 ≠ 0 then some (dev.raise r (warpTrap causeAlign 0 base))
  else if obj.toNat / 2 ^ 54 = 2 || base.toNat / 2 ^ 54 = 2 then some (dev.raise r trapIllegal)
  else if 3 ≤ obj.toNat / 2 ^ 54 then some (dev.raise r (warpTrap causeXlate 10 obj))
  else if 3 ≤ base.toNat / 2 ^ 54 then some (dev.raise r (warpTrap causeXlate 10 base))
  else
    match dev.xlate r obj.toNat false with
    | (.xlate sub, dev) => some (dev.raise r (warpTrap causeXlate sub obj))
    | (.poison, dev) => some (dev.raise r (warpTrap causePoison 0 obj))
    | (.ok _ _, dev) =>
      let (ok, dev) := dev.bindRegion (dev.coreOf r) (dev.tagOf r) obj.toNat base.toNat (t.sreg n.toNat).toNat
      some (dev.bindStatus r pd g ok)

/-- The valid binding of a party's context with a region base (R115). -/
def Dev.bindingAt (d : Dev) (r : ThreadRef) (base : Nat) : Option (Nat × DWord × DWord) :=
  (d.bindings (d.ctxOf r)).find? fun x => (bindingSpan x.2.2).1 = base

/-- The object that a binding names (R112). -/
def bindingObject (x : Nat × DWord × DWord) : DWord := BitVec.ofNat 64 (bits x.2.1 55 3 * 8)

/-- UNBIND (R115, R345): the stall of the object's translation (R79): of the object that the binding names (DEDUCED, log 53). Without a
valid binding at the base there is none to translate, and the status is false. -/
def execUnbind (pd : BitVec 3) (b : BitVec 4) (f : BitVec 1) (g : Guard) (s : State) : Out :=
  longOp s [] f fun r t _ dev =>
    let base := (t.kpair b.toNat).toNat
    if t.taking g = 0 then dev.retire r 1
    else if base / 2 ^ 54 = 2 then dev.raise r trapIllegal
    else
      match dev.bindingAt r base with
      | some x => dev.stall r [(bindingObject x).toNat]
      | none => dev.bindStatus r pd g false

/-- UNBIND once the object is translated: the valid binding with the base loses V, and no line is invalidated (R115). A translation or a
poison bit of the object that fails is a precise trap (R79, R91). -/
def Dev.unbindDone (dev : Dev) (r : ThreadRef) (t : Thread) (pd : BitVec 3) (b : BitVec 4) (g : Guard) : Option Dev :=
  match dev.bindingAt r (t.kpair b.toNat).toNat with
  | none => some (dev.bindStatus r pd g false)
  | some x =>
    let obj := bindingObject x
    match dev.xlate r obj.toNat false with
    | (.xlate sub, dev) => some (dev.raise r (warpTrap causeXlate sub obj))
    | (.poison, dev) => some (dev.raise r (warpTrap causePoison 0 obj))
    | (.ok _ _, dev) =>
      let a := (dev.ctxD (dev.ctxOf r) 32).toNat + 16 * x.1
      some ((dev.homeWrite a (natBytes (x.2.1.toNat % 2 ^ 63) 8)).bindStatus r pd g true)

/-! ## ACQ, REL, FENCE (R116 to R119, R346 to R348) -/

/-- The accesses of ACQ and REL: each lane's object, or one for a uniform pair. -/
def Thread.objectLanes (t : Thread) (a : BitVec 6) (mask : Word) : List LaneAccess :=
  let lanes := if uniAddr a then [lowest mask] else maskLanes mask
  lanes.map fun l => ⟨l, t.addr l a, true, 8⟩

/-- ACQ (R116): the stall of its checks. -/
def execAcq (d : BitVec 7) (a : BitVec 6) (_scope : BitVec 3) (f : BitVec 1) (g : Guard) (s : State) : Out :=
  longOp s (regRun d 2 ++ addrRegs a) f fun r t _ dev =>
    if t.taking g = 0 then dev.retire r 1 else dev.stall r (addresses (t.objectLanes a (t.taking g)))

/-- ACQ once its translations are done: its reads at the home points are outstanding and hold issue. -/
def Dev.acqDone (dev : Dev) (r : ThreadRef) (t : Thread) (d : BitVec 7) (a : BitVec 6) (scope : BitVec 3) (f : BitVec 1)
    (g : Guard) : Option Dev :=
  match dev.checkLanes r false true (t.objectLanes a (t.taking g)) with
  | (.inr k, dev) => some (dev.raise r k)
  | (.inl ts, dev) =>
    let o := { dev.opFor r (.acq scope.toNat) .load (t.flagOf f) (t.taking g) with
      dest := d, pieces := ts.map fun x => Piece.new x.1.lane x.2 8 }
    let (id, dev) := dev.launch o
    some (dev.hold r (.op id))

/-- ACQ ends when its reads are performed: the invalidations, then the values, then issue goes on (R116). -/
def Dev.acqFinish (d : Dev) (o : Op) (scope : Nat) : Dev :=
  let d := d.acquireObjects o scope
  let value := fun (l : Nat) =>
    let p := (o.pieces.find? fun p => p.lane = l).orElse fun _ => o.pieces.head?
    p.bind fun p => p.value
  let d := d.onThread o.thread fun t =>
    { t.untagFlag o.flag with
      wait := .none
      lanes := mapIdx (fun n l => if o.mask.getLsbD n then
        (match value n with
         | some b => if b.isEmpty then l else l.setPair o.dest (bytesD b)
         | none => l) else l) 0 t.lanes }
  (d.dropOp o.id).retire o.thread 1

/-- ACQ.ALL (R117). -/
def execAcqAll (scope : BitVec 3) (f : BitVec 1) (g : Guard) (s : State) : Out :=
  longOp s [] f fun r t _ dev =>
    if t.taking g = 0 then dev.retire r 1
    else (dev.acquireAll (dev.coreOf r) (dev.ctxOf r) scope.toNat).retire r 1

/-- REL (R118): it waits as a release; then the stall of its checks. -/
def execRel (d : BitVec 7) (a : BitVec 6) (_scope : BitVec 3) (f : BitVec 1) (g : Guard) (s : State) : Out :=
  longOp s (regRun d 2 ++ addrRegs a) f fun r t _ dev =>
    if t.taking g = 0 then dev.retire r 1 else dev.afterRelease r t fun dev => dev.stall r (addresses (t.objectLanes a (t.taking g)))

/-- REL once its translations are done: later instructions issue once its writes have been sent (R118, R347), so it holds issue while a
message of it has still to leave. -/
def Dev.relDone (dev : Dev) (r : ThreadRef) (t : Thread) (d : BitVec 7) (a : BitVec 6) (f : BitVec 1) (g : Guard) :
    Option Dev :=
  match dev.checkLanes r true true (t.objectLanes a (t.taking g)) with
  | (.inr k, dev) => some (dev.raise r k)
  | (.inl ts, dev) =>
    let o := { dev.opFor r .rel .store (t.flagOf f) (t.taking g) with
      counted := true, pieces := ts.map fun x => { Piece.new x.1.lane x.2 8 with data := (t.lane x.1.lane).bytes d 8 } }
    if dev.mayLaunch o then
      let (id, dev) := dev.launch o
      some (if (dev.op id).any Op.unsent then dev.hold r (.op id) else dev.retire r 1)
    else none

/-- A REL whose last message has left holds issue no longer (R347). -/
def Dev.relSent (d : Dev) (id : Nat) : Dev :=
  match d.op id with
  | none => d
  | some o => if (d.thread o.thread).any (fun t => t.wait = .op id) && !o.unsent then (d.hold o.thread .none).retire o.thread 1 else d

/-- REL.ALL (R119). -/
def execRelAll (_scope : BitVec 3) (f : BitVec 1) (g : Guard) (s : State) : Out :=
  longOp s [] f fun r t _ dev =>
    if t.taking g = 0 then dev.retire r 1 else dev.afterRelease r t fun dev => dev.retire r 1

/-- FENCE (R119, R348): REL.ALL, then ACQ.ALL. -/
def execFence (scope : BitVec 3) (f : BitVec 1) (g : Guard) (s : State) : Out :=
  longOp s [] f fun r t _ dev =>
    if t.taking g = 0 then dev.retire r 1
    else dev.afterRelease r t fun dev => (dev.acquireAll (dev.coreOf r) (dev.ctxOf r) scope.toNat).retire r 1

/-- Whether an entry of the named queues that a group's parties admitted before a number is still queued (R135). -/
def Dev.queued (d : Dev) (c : CoreRef) (gid upTo : Nat) (msg copy mat : Bool) : Bool :=
  let k := d.core c
  (msg && k.msgs.any fun e => e.gid = gid && decide (e.id < upTo)) ||
  (copy && k.copy.any fun e => e.gid = some gid && decide (e.id < upTo)) ||
  (mat && k.matrix.any fun e => e.gid = gid && decide (e.id < upTo))

/-- QFENCE (R135): it holds issue until the entries of its queues admitted before it are performed. -/
def execQfence (msg copy mat f : BitVec 1) (g : Guard) (s : State) : Out :=
  longOp s [] f fun r t _ dev =>
    let upTo := match t.wait with
      | .fence n => n
      | _ => dev.nextId
    match dev.groupOf r with
    | some gr =>
      if t.taking g ≠ 0 && dev.queued gr.core gr.gid upTo (msg = 1) (copy = 1) (mat = 1) then dev.hold r (.fence upTo)
      else dev.retire r 1
    | none => dev.retire r 1

/-! ## Array registers (R82, R85 to R88, R340, R341) -/

/-- In a wave a0 is the state array, and naming it here is ILLEGAL (R176). -/
def Dev.waveA0 (d : Dev) (r : ThreadRef) (arr : BitVec 4) : Bool := (d.waveOf r).isSome && arr = 0

/-- Release an array register's pins and clear its armed bits (R86). -/
def Dev.disarm (d : Dev) (r : ThreadRef) (arr : Nat) : Dev :=
  let d := match r with
    | .warp gid wid => d.unpin (d.coreOf r) gid wid arr
    | _ => d
  d.onThread r fun t => t.setArr arr { t.arrays.getD arr ArrReg.reset with armed := false, armedW := false }

/-- Whether a page of region 1 names this package, whose export tables its accesses go by (R479). -/
def Dev.ownPeer (d : Dev) (e : TlbEntry) : Bool := e.va / 2 ^ 54 = 1 && e.leaf.frame / 2 ^ 31 = d.pkgNum

/-- The first address of a span that a page's exports leave out, where the page's accesses go by them (R479): none where all of the span
within the page may be read, or written. -/
def Dev.exportGap (d : Dev) (e : TlbEntry) (base stop : Nat) (write : Bool) : Option Nat :=
  let lo := max base e.va
  let at_ := e.lpaAt lo
  if d.ownPeer e then
    (firstGap e.exports write (e.exports.length + 1) at_ (at_ + (min stop (e.va + e.size) - lo))).map fun g => lo + (g - at_)
  else none

/-- Walk the pages of a span in ascending order: the pages, or the failing subcode and address (R85, R479). -/
def Dev.armWalk (d : Dev) (r : ThreadRef) (base stop : Nat) :
    Nat → Nat → List TlbEntry → (List TlbEntry ⊕ (Nat × Nat)) × Dev
  | 0, _, acc => (.inl acc.reverse, d)
  | fuel + 1, va, acc =>
    if stop ≤ va then (.inl acc.reverse, d)
    else
      let fail := fun (k : Nat) => (k, max base (va / 4096 * 4096))
      match (d.countTlbMiss r va).page (d.coreOf r) (d.tagOf r) va with
      | (.bad k, d) => (.inr (fail k), d)
      | (.ok e, d) =>
        match d.exportGap e base stop false with
        | some v => (.inr (5, max base (v / 4096 * 4096)), d)
        | none => d.armWalk r base stop fuel (e.va + e.size) (e :: acc)

/-- Whether a page's frames inside a span hold poison. -/
def Dev.pagePoisoned (d : Dev) (e : TlbEntry) (base stop : Nat) : Bool :=
  if e.clean || e.va / 2 ^ 54 = 2 || (e.va / 2 ^ 54 = 1 && !d.ownPeer e) then false
  else
    let lo := max base e.va
    let hi := min stop (e.va + e.size)
    (upFrom (lo / 4096) ((hi + 4095) / 4096 - lo / 4096)).any fun p => d.poisoned (e.lpaAt (p * 4096))

/-- Whether writing through a page of a span is permitted. -/
def Dev.pageWritable (d : Dev) (e : TlbEntry) (base stop : Nat) : Bool := e.leaf.w && (d.exportGap e base stop true).isNone

/-- Put a page into a pin store for an array. -/
def addPin (u : Nat × Nat × Nat) (pins : List Pin) (e : TlbEntry) : List Pin :=
  if pins.any fun p => p.entry.va = e.va && p.entry.tag = e.tag then
    pins.map fun p => if p.entry.va = e.va && p.entry.tag = e.tag then { p with users := u :: p.users } else p
  else ⟨e, [u]⟩ :: pins

/-- Arm an array register of a warp (R85): the failing walk, or whether it is armed now. Its earlier pins go first. An array without
elements arms with no pins on any core; a home core, which has no pin store, arms no other. -/
def Dev.armArray (d : Dev) (r : ThreadRef) (arr : Nat) : (Bool ⊕ (Nat × Nat)) × Dev :=
  let d := d.disarm r arr
  match d.thread r with
  | none => (.inl false, d)
  | some t =>
    let c := d.coreOf r
    let a := t.arrays.getD arr ArrReg.reset
    let base := a.base.toNat
    let stop := base + a.extent.toNat * 2 ^ a.z
    match d.armWalk r base stop ((stop - base) / 4096 + 2) base [] with
    | (.inr k, d) => (.inr k, d)
    | (.inl [], d) => (.inl true, d.onThread r fun t => t.setArr arr { a with armed := true, armedW := true })
    | (.inl pages, d) =>
      let d := d.freePins c
      match r with
      | .warp gid wid =>
        let pins := pages.foldl (addPin (gid, wid, arr)) (d.core c).pins
        if 64 < pages.length || 256 < pins.length || c.home || (pages.any fun e => e.leaf.mig) ||
            pages.any fun e => d.pagePoisoned e base stop then (.inl false, d)
        else
          let w := pages.all fun e => d.pageWritable e base stop
          let d := d.onCore c fun k => { k with pins := pins }
          (.inl true, d.onThread r fun t => t.setArr arr { a with armed := true, armedW := w })
      | _ => (.inl false, d)

/-- An address in each 4 KiB of an array's span, of at most 64 pages of them (R85). -/
def ArrReg.pages (a : ArrReg) : List Nat :=
  let base := a.base.toNat
  let stop := base + a.extent.toNat * 2 ^ a.z
  (upFrom (base / 4096) (min 64 ((stop + 4095) / 4096 - base / 4096))).map fun p => p * 4096

/-- ARM (R85, R340): the stall of its walks. -/
def execArm (_pd : BitVec 3) (arr : BitVec 4) (f : BitVec 1) (g : Guard) (s : State) : Out :=
  longOp s [] f fun r t _ dev =>
    if t.taking g = 0 then dev.retire r 1
    else if dev.waveA0 r arr then dev.raise r trapIllegal
    else dev.stall r (t.arrays.getD arr.toNat ArrReg.reset).pages

/-- ARM once its walks are done. -/
def Dev.armDone (dev : Dev) (r : ThreadRef) (pd : BitVec 3) (arr : BitVec 4) (g : Guard) : Option Dev :=
  match dev.armArray r arr.toNat with
  | (.inr (k, a), dev) => some (dev.raise r (warpTrap causeXlate k (BitVec.ofNat 64 a)))
  | (.inl ok, dev) => some ((dev.onThread r fun t => t.setPred pd (t.taking g) ok).retire r 1)

/-- DISARM (R340). -/
def execDisarm (arr : BitVec 4) (f : BitVec 1) (g : Guard) (s : State) : Out :=
  longOp s [] f fun r t _ dev =>
    if t.taking g = 0 then dev.retire r 1
    else if dev.waveA0 r arr then dev.raise r trapIllegal
    else (dev.disarm r arr.toNat).retire r 1

/-- ALD (R341): the stall of its checks. -/
def execAld (arr k : BitVec 4) (f : BitVec 1) (g : Guard) (s : State) : Out :=
  longOp s [] f fun r t _ dev =>
    if t.taking g = 0 then dev.retire r 1
    else if dev.waveA0 r arr then dev.raise r trapIllegal
    else dev.stall r [(t.kpair k.toNat).toNat]

/-- ALD once its translation is done: the read of the descriptor holds issue. -/
def Dev.aldDone (dev : Dev) (r : ThreadRef) (t : Thread) (arr k : BitVec 4) (f : BitVec 1) : Option Dev :=
  let whole := fun (k : TrapInfo) => { k with lane := 0xFF }
  match dev.checkLanes r false false [⟨0, t.kpair k.toNat, true, 16⟩] with
  | (.inr k, dev) => some (dev.raise r (whole k))
  | (.inl ts, dev) =>
    let o := { dev.opFor r (.ald arr.toNat) .load (t.flagOf f) 1 with
      pieces := ts.flatMap fun x => [Piece.new 0 x.2 8, Piece.new 0 (x.2.plus 8) 8] }
    let (id, dev) := dev.launch o
    some (dev.hold r (.op id))

/-- The array register a descriptor gives, when it is valid (R39, R82). -/
def ArrReg.ofDescriptor (b : List Byte) : Option ArrReg :=
  let base := bytesNat (b.take 8)
  let extent := bytesNat ((b.drop 8).take 4)
  let w := bytesNat ((b.drop 12).take 4)
  let z := w % 8
  let last := base + extent * 2 ^ z - 1
  if w / 32 ≠ 0 || 4 < z || base % 2 ^ z ≠ 0 || 3 ≤ base / 2 ^ 54 || (extent ≠ 0 && last / 2 ^ 54 ≠ base / 2 ^ 54) then none
  else some ⟨BitVec.ofNat 64 base, BitVec.ofNat 32 extent, z, bitOf w 3, bitOf w 4, false, false⟩

/-- ALD ends when its descriptor is read: the register is written and its pins released, or BOUNDS (R82). A descriptor
whose remote read was refused leaves the register as it was (R21). -/
def Dev.aldFinish (d : Dev) (o : Op) (arr : Nat) : Dev :=
  let b := o.pieces.flatMap fun p => p.value.getD []
  let d := (d.onThread o.thread fun t => { t.untagFlag o.flag with wait := .none }).dropOp o.id
  if b.length < 16 then d.retire o.thread 1
  else
    match ArrReg.ofDescriptor b with
    | none => d.raise o.thread (warpTrap causeBounds 0 (BitVec.ofNat 64 (o.addresses.headD 0)))
    | some a => ((d.disarm o.thread arr).onThread o.thread fun t => t.setArr arr a).retire o.thread 1

end Sys2Proof.Machine
end

