-- ==== Sys2Proof/Machine/Events.lean ====
section
/-! DEFINITION. The event ring and the fault records (R425 to R427): the bytes of an event, the ring's room, the events held
on chip, and the fault record of a context. -/

namespace Sys2Proof.Machine

/-- An event that names no core and no queue slot. -/
def Event.of (kind cause ctx : Nat) (a b c : DWord) : Event := ⟨kind, cause, ctx, 0xFFFF, 0xFFFF, a, b, c⟩

/-- The 32 bytes of a ring entry (R427). -/
def Event.bytes (e : Event) : List Byte :=
  [BitVec.ofNat 8 e.kind, BitVec.ofNat 8 e.cause] ++ natBytes e.ctx 2 ++ natBytes e.core 2 ++ natBytes e.slot 2 ++
    natBytes e.a.toNat 8 ++ natBytes e.b.toNat 8 ++ natBytes e.c.toNat 8

/-- The entries of the event ring; none while it is disabled (R425). -/
def Dev.ringSize (d : Dev) : Option Nat :=
  let n := bits (d.reg .svcring) 4 0
  if n < 7 then none else some (2 ^ n)

/-- Write an entry at the head, when (head + 1) mod 2^lsize is not the tail (R427). -/
def Dev.writeEvent (d : Dev) (e : Event) : Option Dev :=
  match d.ringSize with
  | none => none
  | some n =>
    let head := bits (d.reg .svchead) 31 0
    if (head + 1) % n = bits (d.reg .svctail) 31 0 then none
    else
      let d := d.homeWrite (bits (d.reg .svcring) 42 12 * 4096 + 32 * (head % n)) e.bytes
      some (d.setReg .svchead (BitVec.ofNat 64 ((head + 1) % n)))

/-- Write the held events, oldest first, as long as the ring has room. -/
def Dev.flushEvents (d : Dev) : List Event → Dev
  | [] => { d with events := [] }
  | e :: r =>
    match d.writeEvent e with
    | some d => d.flushEvents r
    | none => { d with events := e :: r }

/-- The LPA of a context's fault record (R427): the base as it stands, zero included (log 12); none for 0xFFFF, no context. -/
def Dev.faultRecord (d : Dev) (ctx : Nat) : Option Nat :=
  if 4096 ≤ ctx then none else some (bits (d.reg .faultbase) 42 17 * 2 ^ 17 + 32 * ctx)

/-- Update the fault record of the context an event names (R427): `detail` is its last detail or operand C. -/
def Dev.noteFault (d : Dev) (e : Event) (detail : DWord) : Dev :=
  match d.faultRecord e.ctx with
  | none => d
  | some a =>
    let n := min ((d.homeW a).toNat + 1) 0xFFFFFFFF
    d.homeWrite a (natBytes n 4 ++ [BitVec.ofNat 8 e.cause, BitVec.ofNat 8 e.kind, 0, 0] ++ natBytes e.a.toNat 8 ++
      natBytes detail.toNat 8 ++ natBytes d.now 8)

/-- An event happens (R427): the fault record, then the ring behind the events held, up to 64 on chip, else it is dropped
and counted. -/
def Dev.event (d : Dev) (e : Event) : Dev :=
  let d := d.noteFault e e.c
  let d := d.flushEvents d.events
  match (if d.events.isEmpty then d.writeEvent e else none) with
  | some d => d
  | none => if d.events.length < 64 then { d with events := d.events ++ [e] } else { d with dropped := min (d.dropped + 1) 0xFFFFFFFF }

/-- A record refused, a descriptor skipped, a counter block or tail word not reached (R427 kind 9). -/
def Dev.refuse (d : Dev) (ctx slot : Nat) (cause : BitVec 8) (addr : Nat) : Dev :=
  d.event ⟨9, cause.toNat, ctx, 0xFFFF, slot, BitVec.ofNat 64 addr, 0, 0⟩

/-- SVCTAIL_WRITE (R427): the supervisor's write of SVCTAIL frees ring room, and the events held on chip go to the ring. -/
def Dev.svctailWrite (d : Dev) (v : DWord) : Dev :=
  let d := d.storeReg .svctail v
  d.flushEvents d.events

end Sys2Proof.Machine
end

