-- ==== Sys2Proof/Machine/Side.lean ====
section
/-! DEFINITION. Accesses that the package makes for a context outside any core (R405, R406, R410 to R415, R440): they walk
the context's tables afresh, check permission and poison, and read and write home points. They fill no TLB (log 27). -/

namespace Sys2Proof.Machine

/-- A walk of a context's tables that meets no cached entry: die 4 does not exist, so its walker cache is empty. -/
def Dev.freshPage (d : Dev) (tag : BitVec 16) (va : Nat) : WalkOut :=
  let ctx := tagCtx tag
  let root := (d.ctxD ctx (8 + 8 * (va / 2 ^ 54))).toNat
  if root = 0 then .bad 0 else (d.walkFrom 4 (d.ctxSuper ctx) tag va walkLevels root []).1

/-- Where an address of a context lies, or the cause its checks fail with (R12, R22, R75, R91). -/
def Dev.sidePlace (d : Dev) (tag : BitVec 16) (va : Nat) (write : Bool) : Target ⊕ BitVec 8 :=
  if 2 ^ 56 ≤ va || va / 2 ^ 54 = 3 then .inr causeXlate
  else
    match d.freshPage tag va with
    | .bad _ => .inr causeXlate
    | .ok e =>
      let region := va / 2 ^ 54
      let pkg := e.leaf.frame / 2 ^ 31
      if write && !e.leaf.w then .inr causeXlate
      else if region = 2 then .inl (.host (e.leaf.frame * 4096 + (va - e.va)))
      else
        let lpa := e.lpaAt va
        if region = 1 && pkg ≠ d.pkgNum then .inl (.mem ⟨some pkg, lpa⟩ e.leaf va)
        else if region = 1 && !d.exported e.leaf.peer lpa write then .inr causeXlate
        else if isDevice lpa then .inl (.mem ⟨none, lpa⟩ e.leaf va)
        else if d.poisoned lpa then .inr causePoison
        else .inl (.mem ⟨none, lpa⟩ e.leaf va)

/-- Where an address of a context is read or written at its home point. Uncorrectable data is taken like a poisoned frame (log 27). -/
def Dev.sideTarget (d : Dev) (tag : BitVec 16) (va : Nat) (write : Bool) : Target ⊕ BitVec 8 :=
  match d.sidePlace tag va write with
  | .inl (.mem ⟨none, lpa⟩ leaf v) =>
    if !write && !isDevice lpa && d.bad lpa then .inr causePoison else .inl (.mem ⟨none, lpa⟩ leaf v)
  | x => x

/-- The frames of the uncorrectable lines that a read of a span meets are poisoned (R92). -/
def Dev.poisonRead (d : Dev) (tag : BitVec 16) (va n : Nat) : Dev :=
  (upFrom (va / 128) ((va + n + 127) / 128 - va / 128)).foldl (fun d l => match d.sidePlace tag (l * 128) false with
    | .inl (.mem ⟨none, lpa⟩ _ _) => if !isDevice lpa && d.bad lpa then d.foundBad lpa else d
    | _ => d) d

/-- The 64 bytes of a task record as a die reads them, through its near cache (R47), or the cause that it cannot be read with.
Data found uncorrectable poisons its frame (R92). -/
def Dev.recordRead (d : Dev) (die : Nat) (tag : BitVec 16) (va : Nat) : (List Byte ⊕ BitVec 8) × Dev :=
  match d.sidePlace tag va false with
  | .inr c => (.inr c, d)
  | .inl (.mem pa leaf va) =>
    if pa.pkg.isSome then (.inr causeXlate, d)
    else if isDevice pa.lpa then (.inl (d.homeRead pa.lpa 64), d)
    else
      let near := !pa.onDie die && leaf.level != 2 && (d.rdcHit die pa tag).isSome
      if !near && d.bad pa.lpa then (.inr causePoison, d.foundBad pa.lpa)
      else
        match d.readThrough ⟨die, true, 0⟩ tag pa leaf va 64 false none Forbidden.none none with
        | (some b, d) => (.inl b, d)
        | (none, d) => (.inr causeXlate, d)
  | .inl (.host a) => (.inl (memRead d.hostMem a 64), d)
  | .inl _ => (.inr causeXlate, d)

/-- The bytes at a place of this package or of host memory. A line of another package is not read. -/
def Dev.sideBytes (d : Dev) (t : Target) (n : Nat) : Option (List Byte) :=
  match t with
  | .mem ⟨none, lpa⟩ _ _ => some (d.homeRead lpa n)
  | .host a => some (memRead d.hostMem a n)
  | _ => none

/-- Read `k` pieces of `n` bytes, each at once, or the cause that stops it. -/
def Dev.sideRead (d : Dev) (tag : BitVec 16) (n : Nat) : Nat → Nat → List Byte ⊕ BitVec 8
  | _, 0 => .inl []
  | va, k + 1 =>
    match d.sideTarget tag va false with
    | .inr c => .inr c
    | .inl t =>
      match d.sideBytes t n, d.sideRead tag n (va + n) k with
      | some b, .inl r => .inl (b ++ r)
      | none, _ => .inr causeXlate
      | _, .inr c => .inr c

/-- The use of a place's line that a die's read of it makes of its near cache: lookup, and fill on a miss (R47). -/
def Dev.nearUse (d : Dev) (die : Nat) (tag : BitVec 16) (t : Target) (n : Nat) : Dev :=
  match t with
  | .mem ⟨none, lpa⟩ leaf va =>
    if isDevice lpa then d else (d.readThrough ⟨die, true, 0⟩ tag ⟨none, lpa⟩ leaf va n false none Forbidden.none none).2
  | _ => d

/-- Write bytes at a place of this package or of host memory, as a store that has reached it. -/
def Dev.sideWrite (d : Dev) (t : Target) (b : List Byte) : Dev :=
  match t with
  | .mem ⟨none, lpa⟩ leaf _ => d.writeHome lpa leaf none b
  | .host a => { d with hostMem := memWrite d.hostMem a b }
  | _ => d

end Sys2Proof.Machine
end

