-- ==== Sys2Proof/Machine/Pool.lean ====
section
/-! DEFINITION. The ready pools (R409, R412, R415, R483): the F960's own copy of a record, its FIFO, the chip's and the
spill region's room, entering a record and the return of spilled ones. -/

namespace Sys2Proof.Machine

/-! ## The pool copy of a record -/

/-- A record's bytes with the fields that the F960 writes: owner, epoch, sequence (R409, R483). -/
def ownBytes (b : List Byte) (ctx : Nat) (slot : Option Nat) (epoch : BitVec 4) (seq : Nat) : List Byte :=
  b.take 48 ++ natBytes (ctx * 2 ^ 20 + ((slot.map fun q => q * 2 ^ 10).getD 1)) 4 ++ [epoch.setWidth 8] ++
    (b.drop 53).take 3 ++ natBytes seq 8

/-- A record that enters for a context by itself, fed by a slot or by none: a unit of one, which a larger gang size spoils
(R205). -/
def Rec.entering (b : List Byte) (addr ctx : Nat) (slot : Option Nat) (epoch : BitVec 4) (job : Nat) (counted : Bool)
    (parent : Option Nat) (producer : Producer) : Rec :=
  { bytes := ownBytes b ctx slot epoch 0, addr := addr, counted := counted, parent := parent, job := job, slot := slot,
    producer := producer, die := 0, owner := 0, pinned := false, unit := 0, uIdx := 0, uSize := 1, uBad := recGang b ≠ 1,
    repeated := false,
    kills := 0, seq := 0 }

def Rec.ctx (r : Rec) : Nat := recCtx r.bytes

/-- The job key of a record, as context × 256 + job number (R152, R483). -/
def Dev.recKey (d : Dev) (r : Rec) : Nat :=
  match r.slot with
  | some q => r.ctx * 256 + bits (d.reg (.qctl q)) 49 42
  | none => r.job

/-- Whether two records stand in one FIFO: context, slot and band (R412). -/
def sameFifo (a b : Rec) : Bool := a.ctx == b.ctx && a.slot = b.slot && recBand a.bytes == recBand b.bytes

/-! ## Room (R412) -/

def Die.onChip (k : Die) (ctx : Nat) : Nat := (k.pool.filter fun r => r.ctx == ctx).length
def Die.spilled (k : Die) (ctx : Nat) : Nat := (k.spill.filter fun x => x.2.ctx == ctx).length

/-- Records of a context's slice of its spill region on one die: a quarter of it, 128 bytes a record. -/
def Dev.spillRoom (d : Dev) (ctx : Nat) : Nat := (d.ctxW ctx 72).toNat % 65536 * 128

/-- Whether records of another context wait to enter a die's pool: spilled ones, released successors, a launch's (R412). -/
def Dev.othersWait (d : Dev) (die ctx : Nat) : Bool :=
  ((d.die die).spill.any fun x => x.2.ctx != ctx) || ((d.die die).batches.any fun b => b.ctx != ctx) ||
    (die = 0 && d.slots.any fun q => q.batch.any fun b => b.ctx != ctx)

/-- Whether the chip can take a record of a context: the pool has room, and the context holds less than its share while
records of another context wait. -/
def Dev.mayHold (d : Dev) (die ctx : Nat) : Bool :=
  decide ((d.die die).pool.length < 16384) && !(4096 ≤ (d.die die).onChip ctx && d.othersWait die ctx)

/-! ## The spill region (R401, R412) -/

/-- The LPA of a place of a die's slice: the region's base, the die's quarter, 128 bytes a place. -/
def Dev.spillAt (d : Dev) (die ctx n : Nat) : Nat := (d.ctxD ctx 64).toNat / 65536 * 65536 + 128 * (die * d.spillRoom ctx + n)

/-- The lowest free place of a context's slice. -/
def Die.freePlace (k : Die) (ctx : Nat) : Nat :=
  ((upFrom 0 (k.spilled ctx + 1)).find? fun n => !(k.spill.any fun x => x.1 = n && x.2.ctx == ctx)).getD 0

/-- A spilled record's 128 bytes: the record, and behind it the metadata that R412 lists (their order is the model's, log 23). -/
def Rec.spillBytes (r : Rec) : List Byte :=
  r.bytes.take 64 ++ natBytes (r.counted.toNat + 2 * r.parent.isSome.toNat) 8 ++ natBytes (r.parent.getD 0) 8 ++ natBytes r.seq 8 ++
    natBytes r.job 8 ++ List.replicate 32 0

/-- A record as its 128 bytes in the spill region have it. -/
def Rec.fromSpill (r : Rec) (b : List Byte) : Rec :=
  let flags := (recD b 64).toNat
  { r with bytes := b.take 64, counted := flags % 2 = 1, parent := if flags / 2 % 2 = 1 then some (recD b 72).toNat else none,
           seq := (recD b 80).toNat, job := (recD b 88).toNat }

/-- Write a record to its context's slice; `first` when it goes in front of those that are there. -/
def Dev.spillRec (d : Dev) (die : Nat) (r : Rec) (first : Bool) : Dev :=
  let n := (d.die die).freePlace r.ctx
  (d.homeWrite (d.spillAt die r.ctx n) r.spillBytes).onDie die fun k =>
    { k with spill := if first then (n, r) :: k.spill else k.spill ++ [(n, r)] }

/-- The list with its last element that satisfies a test taken out. -/
def takeLast {α : Type} (p : α → Bool) (l : List α) : Option (α × List α) :=
  match l with
  | [] => none
  | a :: r =>
    match takeLast p r with
    | some (x, r') => some (x, a :: r')
    | none => if p a then some (a, r) else none

/-- A full pool makes room for a record of a context below its share: the newest record of a context above it goes to its
spill region. -/
def Dev.makeRoom (d : Dev) (die ctx : Nat) : Option Dev :=
  let k := d.die die
  if 4096 ≤ k.onChip ctx then none
  else
    match takeLast (fun r => decide (4096 < k.onChip r.ctx) && decide (k.spilled r.ctx < d.spillRoom r.ctx)) k.pool with
    | some (x, pool) => some ((d.onDie die fun k => { k with pool := pool }).spillRec die x true)
    | none => none

/-- Append a record to a die's pool or spill, with its sequence. -/
def Dev.appendRec (d : Dev) (die : Nat) (r : Rec) (toSpill : Bool) : Dev :=
  let seq := (d.die die).entrySeq
  let r := { r with die := die, seq := seq, bytes := r.bytes.take 56 ++ natBytes seq 8 }
  let d := d.onDie die fun k => { k with entrySeq := seq + 1 }
  if toSpill then d.spillRec die r false else d.onDie die fun k => { k with pool := k.pool ++ [r] }

/-- Enter a record into a die's pool, or into its context's spill slice; none when neither has room (R412). -/
def Dev.enterRec (d : Dev) (die : Nat) (r : Rec) : Option Dev :=
  let k := d.die die
  let behind := k.spill.any fun x => sameFifo x.2 r
  if !behind && d.mayHold die r.ctx then some (d.appendRec die r false)
  else
    match (if behind || decide (k.pool.length < 16384) then none else d.makeRoom die r.ctx) with
    | some d => some (d.appendRec die r false)
    | none => if k.spilled r.ctx < d.spillRoom r.ctx then some (d.appendRec die r true) else none

/-- A counted record is accepted into a pool: it is injected at the interface of the pool's die (R153, R154). -/
def Dev.countEntered (d : Dev) (die : Nat) (r : Rec) : Option Dev :=
  if r.counted then d.countInjected die (d.recKey r / 256) (d.recKey r % 256) else some d

/-! ## Where a record enters (R415) -/

/-- The home line of a region-0 address of a context, as the page tables map it now. -/
def Dev.homeOf (d : Dev) (ctx va : Nat) : Option Nat :=
  if 2 ^ 54 ≤ va then none
  else
    match d.freshPage (d.tag ctx) va with
    | .ok e => some (e.lpaAt va)
    | .bad _ => none

/-- The record with its place among those that place 2 binds to a home core: its owner address's LPA (R415). Gangs are bound under R205,
and never to a home core: the records of a gang stay together in the pool that they enter (DESIGN CHOICE, log 29). -/
def Dev.placed (d : Dev) (r : Rec) : Option Rec :=
  if recPlace r.bytes = 2 && recGang r.bytes = 1 && !r.pinned then
    (d.homeOf r.ctx (recD r.bytes 8).toNat).map fun a => { r with owner := a, pinned := true }
  else some r

/-- The die whose pool a record enters. -/
def Rec.poolDie (r : Rec) (die : Nat) : Nat := if r.pinned then dieOf r.owner else die

/-- Enter a record of a queue, a counter block or a local spawn, moved to the die of its owner address when its place asks
for it; one whose owner address has no translation is refused (R413, R415). None while there is no room. -/
def Dev.enterPlaced (d : Dev) (die : Nat) (r : Rec) : Option Dev :=
  match d.placed r with
  | none => some (d.refuse r.ctx (r.slot.getD 0xFFFF) causeXlate r.addr)
  | some r => (d.enterRec (r.poolDie die) r).bind fun d => d.countEntered (r.poolDie die) r

/-! ## Spill (R412) -/

/-- The first spilled record that its context's share lets return. -/
def Dev.returning (d : Dev) (die : Nat) : Option (Nat × Rec) := (d.die die).spill.find? fun x => d.mayHold die x.2.ctx

/-- SPILL_RETURN (R412): a spilled record returns to the chip, the oldest of its FIFO first, as the spill region holds it. -/
def execSpillReturn (die : Nat) (s : State) : Out :=
  happen s fun d =>
    match d.returning die with
    | some x =>
      let r := x.2.fromSpill (d.homeRead (d.spillAt die x.2.ctx x.1) 128)
      some (d.onDie die fun k => { k with pool := k.pool ++ [r], spill := k.spill.erase x })
    | none => none

/-! ## Units (R205) -/

/-- A unit is spoilt: those of its records that are in a pool or spilled are refused with it. -/
def Dev.spoilUnit (d : Dev) (unit : Nat) : Dev :=
  let bad := fun (r : Rec) => if r.unit = unit then { r with uBad := true } else r
  d.mapDies fun k => { k with pool := k.pool.map bad, spill := k.spill.map fun x => (x.1, bad x.2) }

end Sys2Proof.Machine
end

