-- ==== Sys2Proof/Machine/System.lean ====
section
/-! DEFINITION. Task, allotment and system instructions (R383 to R399): SPAWN, DONE, ALLOC, FREE, the control and status
registers, traps and their mask, L1INV, TLBI, the clocks, the performance counters, HALT; and the allotment pools of a core
(R201, R204). -/

namespace Sys2Proof.Machine

/-! ## Spawning (R385, R386) -/

/-- The die that owns an LPA, a device register's being die 0. -/
def ownerDie (lpa : Nat) : Nat := if backed lpa then dieOf lpa else 0

/-- The 64 bytes of a record at a translated place; of a device-register page they are free values (log 3). -/
def Dev.recordBytes (d : Dev) (c : CoreRef) (tag : BitVec 16) (t : Target) : List Byte × Dev :=
  let free := fun (d : Dev) => (upFrom 0 8).foldl (fun (p : List Byte × Dev) _ =>
    (p.1 ++ natBytes p.2.fresh.1.toNat 8, p.2.fresh.2)) ([], d)
  match t with
  | .mem pa leaf va =>
    if isDevice pa.lpa then free d
    else
      match d.readThrough c tag pa leaf va 64 false none Forbidden.none none with
      | (some b, d) => (b, d)
      | (none, d) => free d
  | _ => free d

/-- Write a spawn's status predicate: of the lane of its piece, or of every taking-part lane when it spawns once. -/
def Dev.spawnStatus (d : Dev) (o : Op) (lane : Nat) (ok : Bool) : Dev :=
  d.onThread o.thread fun t => { t with lanes := mapIdx (fun n l =>
    if (if o.pieces.length = 1 then o.mask.getLsbD n else n == lane) then l.setP o.pred ok else l) 0 t.lanes }

/-- A piece of a spawn is settled: its predicate is written and its part of the flag goes. -/
def Dev.spawnEnd (d : Dev) (id lane : Nat) (ok : Bool) : Dev :=
  match d.op id with
  | none => d
  | some o =>
    let d := d.spawnStatus o lane ok
    match (upFrom 0 o.pieces.length).find? fun n => (o.pieces[n]?).any fun (p : Piece) => p.lane = lane && !p.done with
    | some n => d.donePiece id n
    | none => d

/-- Send one record of a spawn: into this die's pool, by transfer to another die, or as a message to another package
(R386). None while the counted record cannot be counted (R156). -/
def Dev.spawnOne (d : Dev) (r : ThreadRef) (gr : Group) (o : Op) (lane : Nat) (rec target : Target) : Option Dev :=
  let c := gr.core
  let (b, d) := d.recordBytes c o.tag rec
  let addr := match rec with
    | .mem _ _ va => va
    | _ => 0
  let new := Rec.entering b addr gr.ctx gr.record.slot gr.epoch gr.job gr.record.counted (some gr.gid)
    (.core c (recScope b))
  let enter := fun (d : Dev) (x : Rec) =>
    let die := x.poolDie c.die
    if die = c.die then
      match d.enterRec die x with
      | some d => (d.countEntered die x).map fun d => d.spawnEnd o.id lane true
      | none => some (d.spawnEnd o.id lane false)
    else some { d with transfers := d.transfers ++ [.spawn x die o.id lane] }
  match target with
  | .mem ⟨some pkg, lpa⟩ leaf _ =>
    let (mid, d) := (d.nextId, { d with nextId := d.nextId + 1 })
    let d := d.onCore c fun k => { k with msgs := k.msgs ++ [⟨mid, r, gr.gid, .spawn o.id lane, true, false⟩] }
    let d := d.spawnStatus o lane true
    some (d.inject c.die ⟨4, gr.job / 256, gr.jobNum, leaf.peer, pkg, 0, 0, 64⟩ (.spawn b (BitVec.ofNat 64 lpa))
      (.spawn c mid o.id lane r))
  | .mem ⟨none, lpa⟩ _ _ => enter d { new with owner := if backed lpa then lpa else 0, pinned := true }
  | _ =>
    match d.placed new with
    | some x => enter d x
    | none => some ((d.refuse gr.ctx (gr.record.slot.getD 0xFFFF) causeXlate addr).spawnEnd o.id lane true)

/-- The spawns of the lanes, in ascending lane order. -/
def Dev.spawnAll (d : Dev) (r : ThreadRef) (gr : Group) (o : Op) : List (Nat × Target × Target) → Option Dev
  | [] => some d
  | (lane, rec, target) :: rest => (d.spawnOne r gr o lane rec target).bind fun d => d.spawnAll r gr o rest

/-- The lanes that a spawn spawns for: each taking part, or one when every address is a uniform pair. -/
def spawnLanes (mask : Word) (a : BitVec 6) (tt : Option (BitVec 6)) : List Nat :=
  if !uniAddr a || tt.any fun x => !uniAddr x then maskLanes mask else [lowest mask]

/-- The accesses to the records of a spawn, and to its targets. -/
def Thread.spawnRecs (t : Thread) (ls : List Nat) (a : BitVec 6) : List LaneAccess := ls.map fun l => ⟨l, t.addr l a, true, 64⟩
def Thread.spawnTargets (t : Thread) (ls : List Nat) (tt : Option (BitVec 6)) : List LaneAccess :=
  match tt with
  | some x => ls.map fun l => ⟨l, t.addr l x, true, 1⟩
  | none => []

/-- SPAWN and SPAWN.AT once their translations are done (R385): the traps of the record addresses; the wait as REL.ALL, out of the
translation stall, and LOST; the traps of the targets; then the records go out. Without a target address every record's target is
the die itself. -/
def Dev.spawnDone (dev : Dev) (r : ThreadRef) (t : Thread) (pd : BitVec 3) (a : BitVec 6) (tt : Option (BitVec 6))
    (f : BitVec 1) (g : Guard) : Option Dev :=
  match dev.groupOf r with
  | none => none
  | some gr =>
    let mask := t.taking g
    let ls := spawnLanes mask a tt
    let recs := t.spawnRecs ls a
    match recs.find? fun x => x.addr.toNat % 64 ≠ 0 with
    | some x => some (dev.raise r (x.trap causeAlign 0))
    | none =>
      match recs.find? fun x => 2 ^ 54 ≤ x.addr.toNat with
      | some x => some (dev.raise r (x.trap causeXlate (if 2 ^ 56 ≤ x.addr.toNat || x.addr.toNat / 2 ^ 54 = 3 then 10 else 11)))
      | none =>
        match dev.checkLanes r false false recs with
        | (.inr k, dev) => some (dev.raise r k)
        | (.inl rs, dev) =>
          if !dev.releaseReady r t then some (dev.hold r .retry)
          else if t.loss then some (dev.raiseLost r)
          else
            match dev.checkLanes r false true (t.spawnTargets ls tt) with
            | (.inr k, dev) => some (dev.raise r k)
            | (.inl ts, dev) =>
              let remote := ts.any fun x => x.2.remote
              if remote && (dev.admissionWaits r || !dev.mayInject gr.core.die (gr.job / 256) gr.jobNum) then some (dev.hold r .retry)
              else
                let o := { dev.opFor r .spawn .engine (t.flagOf f) mask with
                  pred := pd, pieces := ls.map fun l => Piece.new l (.state 0) 0 }
                let (id, dev) := (dev.dropAudit r).addOp o
                let work := rs.map fun x =>
                  (x.1.lane, x.2, ((ts.find? fun y => y.1.lane = x.1.lane).map fun y => y.2).getD (.state 0))
                (dev.spawnAll r gr { o with id := id } work).map fun dev => dev.retire r 1

/-- SPAWN and SPAWN.AT at issue: the stall of their checks; one that waits behind them, as a release or for a message that may not
be injected yet, goes on without another stall while its translations are held. -/
def spawnOp (s : State) (regs : List (BitVec 7)) (pd : BitVec 3) (a : BitVec 6) (tt : Option (BitVec 6)) (f : BitVec 1) (g : Guard) :
    Out :=
  longOp s regs f fun r t _ dev =>
    let ls := spawnLanes (t.taking g) a tt
    let vas := addresses (t.spawnRecs ls a ++ t.spawnTargets ls tt)
    if t.taking g = 0 then dev.retire r 1
    else if t.wait = .retry && (dev.needsOf r vas).isEmpty then (dev.spawnDone r t pd a tt f g).getD (dev.hold r .retry)
    else dev.stall r vas

/-- SPAWN (R385). -/
def execSpawn (pd : BitVec 3) (a : BitVec 6) (f : BitVec 1) (g : Guard) (s : State) : Out :=
  spawnOp s (addrRegs a) pd a none f g

/-- SPAWN.AT (R385). -/
def execSpawnAt (pd : BitVec 3) (a t : BitVec 6) (f : BitVec 1) (g : Guard) (s : State) : Out :=
  spawnOp s (addrRegs a ++ addrRegs t) pd a (some t) f g

/-- SPAWN_BASE_DIE_TRANSFER (R386): a spawned record arrives at another die, is accepted into its pool or spill, and pd is
written. -/
def execSpawnBaseDieTransfer (index : Nat) (s : State) : Out :=
  happen s fun d =>
    match d.transfers[index]? with
    | some (.spawn x die op lane) =>
      let d := { d with transfers := d.transfers.eraseIdx index }
      (match d.enterRec die x with
       | some d => (d.countEntered die x).map fun d => d.spawnEnd op lane true
       | none => some (d.spawnEnd op lane false))
    | _ => none

/-! ## DONE (R387) -/

/-- DONE releases every pin of its warp, and its arrays are not armed any longer (R86). -/
def Dev.disarmWarp (d : Dev) (r : ThreadRef) : Dev :=
  match r with
  | .warp gid wid =>
    (d.unpinWarp (d.coreOf r) gid wid).onThread r fun t =>
      { t with arrays := t.arrays.map fun a => { a with armed := false, armedW := false } }
  | _ => d

/-- DONE (R387, R210): the warp ends, once it may as a release; with its loss bit set it takes LOST instead (R127). -/
def execDone (s : State) : Out :=
  runFor s fun r t d =>
    match t.clause with
    | none => d
    | some c => d.afterRelease r t fun d => ((d.count r 2 1).disarmWarp r).endThread r c.entry

/-! ## Allotment (R201 to R204, R388, R389) -/

/-- General blocks and index groups that a group holds now. -/
def Group.held (g : Group) : Nat × Nat :=
  let w := recWarps g.record.bytes
  if g.ended then (0, 0)
  else match g.state with
    | .full => (w * recGblk g.record.bytes, w * (recXq g.record.bytes + 1))
    | .tail => (w, 0)
    | _ => (2 * w, w)

/-- What a group needs beyond its prologue, in each pool. -/
def needOf (rec : List Byte) : Nat × Nat × Nat :=
  (recWarps rec * recGblk rec - 2 * recWarps rec, recWarps rec * (recXq rec + 1) - recWarps rec, recScr rec - 1)

/-- The free general blocks, index groups and scratch units of a core. -/
def Dev.freePools (d : Dev) (c : CoreRef) : Nat × Nat × Nat :=
  let gs := d.groups.filter fun g => g.core = c
  let ws := (d.core c).waves.filterMap fun w => w
  (256 - (gs.map fun g => g.held.1).sum - (ws.map fun w => w.gblk).sum,
   128 - (gs.map fun g => g.held.2).sum - (ws.map fun w => if w.gblk = 0 then 0 else w.xq + 1).sum,
   (if c.home then 8 else 24) - (gs.map fun g => g.units).sum)

/-- The waiting groups of a core, in the order of their first ALLOC. -/
def Dev.waiting (d : Dev) (c : CoreRef) : List Group :=
  sortBy (fun a b => decide (a.order ≤ b.order)) (d.groups.filter fun g => g.core = c && g.state = .waiting && !g.ended)

/-- ALLOC (R388). -/
def execAlloc (s : State) : Out :=
  runFor s fun r _ d =>
    match d.groupOf r with
    | none => d.raise r trapIllegal
    | some g =>
      match g.state with
      | .prologue =>
        let (tick, d) := d.bump
        (d.onGroup g.gid fun g => { g with state := .waiting, order := tick }).hold r .alloc
      | .waiting => d.hold r .alloc
      | .full => d.retire r 1
      | .tail => d.raise r (.plain causeAllot 0)

/-- ALLOC_GRANT (R204): the oldest waiting group of a core is granted when its need fits the free pools. -/
def execAllocGrant (core : CoreRef) (s : State) : Out :=
  happen s fun d =>
    match d.waiting core with
    | [] => none
    | g :: _ =>
      let n := needOf g.record.bytes
      let f := d.freePools core
      if n.1 ≤ f.1 && n.2.1 ≤ f.2.1 && n.2.2 ≤ f.2.2 then
        some (d.onGroup g.gid fun g => { g with state := .full, units := recScr g.record.bytes })
      else none

/-- Whether an operation still has a register to write that the tail drops: g8 and up, or an x register. -/
def Op.writesDropped (o : Op) : Bool :=
  let drops := fun (r : BitVec 7) => decide (8 ≤ r.toNat)
  match o.kind with
  | .call _ _ => drops (o.dest + 1)
  | .acq _ => drops (o.dest + 1)
  | .store => false
  | .rel => false
  | .spawn => false
  | .prefetch _ => false
  | .xload => true
  | _ => o.pieces.any fun p => !p.done && p.regs.any fun x => drops x.1

/-- Bytes of an element that MRD reads out (R373). -/
def mrdBytes (dfmt : BitVec 4) : Nat := if dfmt = 12 || dfmt = 13 then 1 else if dfmt = 9 || dfmt = 10 then 2 else 4

/-- Whether an entry of the matrix queue writes a register that the tail drops. -/
def MatrixEntry.writesDropped (e : MatrixEntry) : Bool :=
  match e.op with
  | .mrd _ dfmt _ _ _ _ cols _ (some d) _ _ _ => decide (8 ≤ d.toNat + (cols * mrdBytes dfmt + 3) / 4 - 1)
  | .mamax _ _ _ _ d => decide (8 ≤ d.toNat)
  | _ => false

/-- Whether operations of a group still write registers that the tail drops. -/
def Dev.dropsPending (d : Dev) (g : Group) : Bool :=
  (d.ops.any fun o => (match o.thread with
    | .warp gid _ => gid == g.gid
    | _ => false) && o.writesDropped) ||
  (d.core g.core).matrix.any fun e => e.gid = g.gid && e.writesDropped

/-- FREE (R389): it waits for every live warp of the group and for writes of dropped registers; then the group is in the
tail, its pins are released, its baton is free. -/
def execFree (s : State) : Out :=
  runFor s fun r _ d =>
    match d.groupOf r with
    | none => d.raise r trapIllegal
    | some g =>
      if g.state = .tail then d.retire r 1
      else
        let d := d.onThread r fun t => { t with freed := true }
        let all := match d.group g.gid with
          | some g => g.warps.all fun w => w.freed || w.ended
          | none => false
        if !all || d.dropsPending g then d.hold r .free
        else
          let d := d.unpinGroup g.core g.gid
          let d := d.onGroup g.gid fun g =>
            { g with state := .tail
                     warps := g.warps.map fun w =>
                       { w with arrays := w.arrays.map fun a => { a with armed := false, armedW := false } } }
          let d := d.onCore g.core fun k => { k with baton := match k.baton with
            | .warp gid w => if gid = g.gid then .free else .warp gid w
            | .seq gid => if gid = g.gid then .free else .seq gid
            | .free => .free }
          d.retire r 1

/-! ## Control and status registers (R390) -/

/-- TSTAT. -/
def Thread.tstat (t : Thread) : Word :=
  BitVec.ofNat 32 (field 8 t.tcause.toNat + field 1 t.pend.toNat + t.masked.toNat)

def AllotState.code : AllotState → Nat
  | .prologue => 0
  | .waiting => 1
  | .full => 2
  | .tail => 3

/-- The value of a CSR. BUDGET of a record fed by no queue slot the spec does not give (log 3). -/
def Dev.csrValue (d : Dev) (r : ThreadRef) (t : Thread) (g : Group) (csr : Nat) : Word × Dev :=
  if csr = 0 then (t.tvec.lo, d)
  else if csr = 1 then (t.tvec.hi, d)
  else if csr = 2 then (t.tstat, d)
  else if csr = 3 then (t.tframe, d)
  else if csr = 0x10 then (BitVec.ofNat 32 g.state.code, d)
  else if csr = 0x11 then
    (match g.record.slot with
     | some q => (BitVec.ofNat 32 (min (((d.slots.find? fun x => x.q = q).map fun x => x.remain).getD 0) 0xFFFFFFFF), d)
     | none => (d.fresh.1.lo, d.fresh.2))
  else if csr = 0x20 then (g.perfsel, d)
  else ((d.core (d.coreOf r)).perfselS, d)

/-- Whether a thread runs in a supervisor context (R383). -/
def Dev.isSuper (d : Dev) (r : ThreadRef) : Bool := d.ctxSuper (d.ctxOf r)

/-- CSRR (R390). -/
def execCsrr (d : BitVec 7) (csr : BitVec 12) (g : Guard) (s : State) : Out :=
  runFor s fun r t dev =>
    match dev.allotTrap r [d] with
    | some k => dev.raise r k
    | none =>
      if t.taking g = 0 then dev.retire r 1
      else if 0x800 ≤ csr.toNat && !dev.isSuper r then dev.raise r (.plain causePriv 0)
      else
        match dev.groupOf r with
        | none => dev.raise r trapIllegal
        | some gr =>
          let (v, dev) := dev.csrValue r t gr csr.toNat
          (dev.onThread r fun t => t.mapLanes false (t.taking g) fun _ l => l.set d v).retire r 1

/-- Write a CSR: bits 1:0 of TVEC.lo are ignored; the read-only ones are refused at fetch. -/
def Dev.csrWrite (d : Dev) (r : ThreadRef) (g : Group) (csr : Nat) (v : Word) : Dev :=
  if csr = 0 then d.onThread r fun t => { t with tvec := DWord.ofPair ((v &&& 0xFFFFFFFC) ||| (t.tvec.lo &&& 3)) t.tvec.hi }
  else if csr = 1 then d.onThread r fun t => { t with tvec := DWord.ofPair t.tvec.lo v }
  else if csr = 3 then d.onThread r fun t => { t with tframe := v }
  else if csr = 0x20 then d.onGroup g.gid fun g => { g with perfsel := v }
  else if csr = 0x800 then d.onCore (d.coreOf r) fun k => { k with perfselS := v }
  else d

/-- CSRW (R390). -/
def execCsrw (a : BitVec 7) (csr : BitVec 12) (g : Guard) (s : State) : Out :=
  runFor s fun r t dev =>
    match dev.allotTrap r [a] with
    | some k => dev.raise r k
    | none =>
      if t.taking g = 0 then dev.retire r 1
      else if 0x800 ≤ csr.toNat && !dev.isSuper r then dev.raise r (.plain causePriv 0)
      else
        match dev.groupOf r with
        | none => dev.raise r trapIllegal
        | some gr => (dev.csrWrite r gr csr.toNat ((t.lane (lowest (t.taking g))).get a)).retire r 1

/-! ## Traps (R392 to R394) -/

/-- TRAP (R394): the named cause, with the code and bit 63 in the detail; those of the service core are PRIV in a tenant
context (R422). -/
def execTrap (cause : BitVec 8) (code : BitVec 12) (g : Guard) (s : State) : Out :=
  runFor s fun r t d =>
    if t.taking g = 0 then d.retire r 1
    else if 0x40 ≤ cause.toNat && !d.isSuper r then d.raise r (.plain causePriv 0)
    else d.raise r (.plain cause (0x8000000000000000 ||| code.setWidth 64))

/-- ERET (R392): the read of its frame stalls for what it misses (R79). -/
def execEret (s : State) : Out :=
  runFor s fun r _ d => if (d.needsOf r (d.returnReads r)).isEmpty then d.returnTrap r else d.stall r (d.returnReads r)

/-- TMASK (R393): a loss that is still to be taken is held in TSTAT.pend from then on. -/
def execTmask (s : State) : Out :=
  runFor s fun r _ d => (d.onThread r fun t => { t with masked := true, pend := t.pend || t.loss }).retire r 1

/-- TUNMASK (R393). -/
def execTunmask (s : State) : Out := runFor s fun r _ d => (d.onThread r fun t => { t with masked := false }).retire r 1

/-! ## Caches and translation (R395, R396) -/

/-- L1INV (R395): the context's lines leave the core's L1, and fills in flight are discarded. -/
def execL1inv (s : State) : Out :=
  runFor s fun r _ d =>
    let ctx := d.ctxOf r
    ((d.dropL1 (d.coreOf r) fun l => tagCtx l.tag != ctx).forbidFills (d.coreOf r) ctx 0 none).retire r 1

/-- Whether a page's frames hold a line. -/
def TlbEntry.holds (e : TlbEntry) (pa : PAddr) : Bool :=
  let lpa := e.leaf.frame % 2 ^ 31 * 4096
  if e.va / 2 ^ 54 = 0 then
    pa.pkg.isNone && (pageParts lpa e.size (e.leaf.inter && e.size != 4096)).any fun p => p.1 ≤ pa.lpa && pa.lpa < p.1 + p.2
  else (pa.pkg.isNone || pa.pkg = some (e.leaf.frame / 2 ^ 31)) && lpa ≤ pa.lpa && pa.lpa < lpa + e.size

/-- A shootdown (R22, R51, R396): TLB, walk-cache and poison-cache entries; the L1 lines filled through a removed page or lying in
one; the export entries of the contexts that `x` names; the pins. -/
def Dev.shootdown (d : Dev) (p : TlbEntry → Bool) (q : PoisonEntry → Bool) (w : WalkEntry → Bool) (l : Line → Bool)
    (x : Nat → Bool) : Dev :=
  let pages := ((d.cores.flatMap fun k => k.tlb) ++ d.dies.flatMap fun k => k.tlb.map fun e => e.2).filter p
  let drop := fun (n : Line) => l n || pages.any fun e => tagCtx e.tag == tagCtx n.tag && e.holds n.pa
  let d := d.mapCores fun k => { k with l1 := vacate (fun n => !drop n) k.l1 }
  let d := d.mapDies fun k => { k with exports := k.exports.filter fun e => !x (tagCtx e.1) }
  d.dropPages p q w

/-- What a TLBI names: a test of a context and a page (virtual base and size), and whether the context's export entries go too. -/
structure TlbiSpan where
  page : Nat → Nat × Nat → Bool
  exports : Nat → Bool

/-- The poison-cache entries that a TLBI removes (log 13): those read for an access to a page that it names, and those that hold the
bit of a frame of a translation that it removes. -/
def Dev.tlbiPoison (d : Dev) (n : TlbiSpan) (q : PoisonEntry) : Bool :=
  n.page (tagCtx q.tag) q.page ||
    ((d.cores.flatMap fun k => k.tlb) ++ d.dies.flatMap fun k => k.tlb.map fun e => e.2).any fun e =>
      tagCtx e.tag == tagCtx q.tag && n.page (tagCtx e.tag) (e.va, e.size) &&
        e.mapsSpan d (poisonChunkStart q.die q.chunk) 0x200000

/-- The form of TLBI: supervisor only; it holds issue until the accesses that use revoked pins are complete. -/
def tlbiOp (s : State) (g : Guard) (n : Thread → TlbiSpan) : Out :=
  runFor s fun r t d =>
    let p := fun (e : TlbEntry) => (n t).page (tagCtx e.tag) (e.va, e.size)
    if t.taking g = 0 then d.retire r 1
    else if !d.isSuper r then d.raise r (.plain causePriv 0)
    else if d.pinsBusy p then d.hold r .retry
    else (d.shootdown p (d.tlbiPoison (n t)) (fun e => (n t).page (tagCtx e.tag) (e.va, e.span))
      (fun e => (n t).page (tagCtx e.tag) e.page) (n t).exports).retire r 1

/-- The context a uniform register names. -/
def Thread.tlbiCtx (t : Thread) (c : BitVec 5) : Nat := (t.sreg c.toNat).toNat % 4096

/-- TLBI.RANGE (R396): the pages of the context that overlap its 4 KiB pages from V on; none of them when it counts none. -/
def execTlbiRange (k : BitVec 3) (c n : BitVec 5) (g : Guard) (s : State) : Out :=
  tlbiOp s g fun t =>
    let v := (t.kpair k.toNat).toNat
    let len := 4096 * (t.sreg n.toNat).toNat
    ⟨fun ctx e => ctx == t.tlbiCtx c && decide (0 < len) && decide (e.1 < v + len) && decide (v < e.1 + e.2), fun _ => false⟩

/-- TLBI.CTX (R22, R396). -/
def execTlbiCtx (c : BitVec 5) (g : Guard) (s : State) : Out :=
  tlbiOp s g fun t => ⟨fun ctx _ => ctx == t.tlbiCtx c, fun ctx => ctx == t.tlbiCtx c⟩

/-- TLBI.PKG (R22, R396). -/
def execTlbiPkg (g : Guard) (s : State) : Out := tlbiOp s g fun _ => ⟨fun _ _ => true, fun _ => true⟩

/-! ## Time and counters (R397 to R399) -/

/-- Write a 64-bit value into the pair d of the taking-part lanes. -/
def pairOp (s : State) (d : BitVec 7) (g : Guard) (v : Dev → ThreadRef → DWord) : Out :=
  threadOp s 1 [d, d + 1] fun dev r t => t.mapLanes false (t.taking g) fun _ l => l.setPair d (v dev r)

/-- CLOCK (R397). -/
def execClock (d : BitVec 7) (g : Guard) (s : State) : Out :=
  pairOp s d g fun dev r => BitVec.ofNat 64 (dev.cycles - (dev.core (dev.coreOf r)).cycles)

/-- CLOCK.NS (R397). -/
def execClockNs (d : BitVec 7) (g : Guard) (s : State) : Out := pairOp s d g fun dev _ => BitVec.ofNat 64 dev.now

/-- PERF (R398): counters 4 to 7 are the core's, PRIV in a tenant context. -/
def execPerf (d : BitVec 7) (n : BitVec 3) (g : Guard) (s : State) : Out :=
  runFor s fun r t dev =>
    match dev.allotTrap r [d, d + 1] with
    | some k => dev.raise r k
    | none =>
      if t.taking g = 0 then dev.retire r 1
      else if 4 ≤ n.toNat && !dev.isSuper r then dev.raise r (.plain causePriv 0)
      else
        let v := if 4 ≤ n.toNat then (dev.core (dev.coreOf r)).perfS.getD (n.toNat - 4) 0
          else ((dev.groupOf r).map fun gr => gr.perf.getD n.toNat 0).getD 0
        (dev.onThread r fun t => t.mapLanes false (t.taking g) fun _ l => l.setPair d v).retire r 1

/-- HALT (R399): the warp is not eligible until a trap is delivered to it, whose saved PC is that of the next instruction. -/
def execHalt (s : State) : Out :=
  runFor s fun r _ d => if !d.isSuper r then d.raise r (.plain causePriv 0) else (d.retire r 1).hold r .halt

end Sys2Proof.Machine
end

