-- ==== Sys2Proof/Machine/Admit.lean ====
section
/-! DEFINITION. Admission and placing (R191 to R193, R202, R204, R205, R416, R417): the warp entries and pools of a core, what
a record needs, the child reserve, private space, scope instances, and the state a group starts with. -/

namespace Sys2Proof.Machine

/-! ## Warp entries (R191, R192) -/

/-- Warps of groups that live on an issue slot of a core. -/
def Dev.liveOn (d : Dev) (c : CoreRef) (slot : Nat) : Nat :=
  ((d.groups.filter fun g => g.core = c).map fun g => (g.warps.filter fun w => !w.ended && w.slot == slot).length).sum

/-- The free warp entries of each issue slot: 8, of a home core's groups 4 (R192). -/
def Dev.freeEntries (d : Dev) (c : CoreRef) : List Nat := (upFrom 0 4).map fun n => (if c.home then 4 else 8) - d.liveOn c n

/-- The slot with the most free entries, ties to the lower. -/
def mostFree (free : List Nat) : Nat := foldIdx (fun n best k => if free.getD best 0 < k then n else best) 0 0 free

/-- The issue slots of `n` warps placed in ascending number. -/
def placeWarps : Nat → List Nat → List Nat
  | 0, _ => []
  | n + 1, free => mostFree free :: placeWarps n (updAt free (mostFree free) fun k => k - 1)

/-- Live warps of groups on a core. -/
def Dev.liveWarps (d : Dev) (c : CoreRef) : Nat := ((upFrom 0 4).map fun n => d.liveOn c n).sum

/-! ## Admission (R204) -/

/-- Whether a core admits a group of these record bytes (R192, R204). -/
def Dev.admits (d : Dev) (c : CoreRef) (b : List Byte) : Bool :=
  let w := recWarps b
  let f := d.freePools c
  let open_ := (d.groups.filter fun g => g.core = c && !g.ended && (g.state = .prologue || g.state = .waiting)).map
    fun g => needOf g.record.bytes
  decide (w ≤ (d.freeEntries c).sum) && decide (2 * w ≤ f.1) && decide (w ≤ f.2.1) && decide (1 ≤ f.2.2) &&
    (needOf b :: open_).all (fun n => decide (n.1 ≤ f.1 - 2 * w) && decide (n.2.1 ≤ f.2.1 - w) && decide (n.2.2 ≤ f.2.2 - 1)) &&
    (!c.home || (recGang b == 1 && decide (recScr b ≤ 8)))

/-- Whether a core is hot (R402). -/
def Dev.hot (d : Dev) (c : CoreRef) : Bool :=
  decide (bits (d.reg .thermctl) 15 8 ≤ ((d.coreTemp.find? fun p => p.1 = c).map fun p => p.2).getD 0)

/-- Whether a core is cool. -/
def Dev.cool (d : Dev) (c : CoreRef) : Bool :=
  decide (((d.coreTemp.find? fun p => p.1 = c).map fun p => p.2).getD 0 < bits (d.reg .thermctl) 7 0)

/-- The compute cores and the home cores of a die. -/
def computeCores (die : Nat) : List CoreRef := (upFrom 0 64).map fun n => ⟨die, false, n⟩
def homeCores (die : Nat) : List CoreRef := (upFrom 0 8).map fun n => ⟨die, true, n⟩

/-! ## Scope instances (R121, R416) -/

/-- Whether two positions lie in one scope instance. -/
def sameInstance (scope : Nat) (a b : CoreRef) : Bool :=
  if scope = 0 then a = b
  else if scope = 1 then a = b || (!a.home && !b.home && a.die == b.die && a.idx / 4 == b.idx / 4)
  else if scope = 2 then a.die == b.die
  else true

/-- The narrowest scope whose instance contains both positions. -/
def narrowest (a b : CoreRef) : Nat := ((upFrom 0 4).find? fun s => sameInstance s a b).getD 3

/-- The scope of a record's group-start acquire on a core and whether it is widened; none when the record is not bound there.
The scope covers the record's own and its counter block's (R141, R416; log 28). -/
def Rec.startScope (r : Rec) (inputs : Bool) (c : CoreRef) : Option (Nat × Bool) :=
  match r.producer with
  | .queue => some (3, false)
  | .remote => some (4, false)
  | .core p s =>
    if sameInstance s p c then some (max s (recScope r.bytes), false)
    else if inputs then some (max (narrowest p c) (recScope r.bytes), true)
    else none

/-! ## Private space (R25) -/

/-- The pages of private space of a record. -/
def privPages (b : List Byte) : Nat := (recWarps b * 32 * recPriv b + 4095) / 4096

/-- The runs of free positions for `n` pages before `stop`, as a first page and a count; `used` is sorted. -/
def freeRuns (n stop : Nat) : Nat → List (Nat × Nat) → List (Nat × Nat)
  | cur, [] => if cur + n ≤ stop then [(cur, stop - n - cur + 1)] else []
  | cur, (s, l) :: r => (if cur + n ≤ s then [(cur, s - n - cur + 1)] else []) ++ freeRuns n stop (max cur (s + l)) r

/-- The `k`-th position of some runs. -/
def pickRun : List (Nat × Nat) → Nat → Nat
  | [], _ => 0
  | (s, n) :: r, k => if k < n then s + k else pickRun r (k - n)

/-- A private base for a record: a free choice among the positions of its context's pool that are free (log 3). None when it
does not fit. -/
def Dev.privBase (d : Dev) (ctx : Nat) (b : List Byte) : Option (Nat × Dev) :=
  let base := (d.ctxD ctx 88).toNat
  let n := privPages b
  if n = 0 then some (base, d)
  else
    let gs := ((d.groups.filter fun g => !g.ended) ++ d.images.flatMap fun i => i.groups).filter fun g => g.ctx == ctx
    let used := (gs.map fun g => ((g.privBase - base) / 4096, privPages g.record.bytes)).filter fun p => p.2 ≠ 0
    let runs := freeRuns n ((d.ctxD ctx 96).toNat / 4096) 0 (sortBy (fun (a b : Nat × Nat) => a.1.ble b.1) used)
    if runs.isEmpty then none
    else
      let (k, d) := d.choose (runs.map fun r => r.2).sum
      some (base + 4096 * pickRun runs k, d)

/-! ## Group start (R193) -/

/-- The rounding generator of a lane at group start (R227). -/
def genStart (wid lane : Nat) : DWord := 0x9E3779B97F4A7C15 ^^^ BitVec.ofNat 64 (wid * 32 + lane)

/-- A warp at group start (R193). -/
def newWarp (b : List Byte) (tvec : DWord) (wid slot : Nat) : Thread :=
  let lane := fun (l : Nat) => (⟨List.replicate 112 0, List.replicate 16 XReg.reset, 0, genStart wid l⟩ : Lane)
  { wid := wid, slot := slot, lanes := (upFrom 0 32).map lane,
    s := [(recD b 8).lo, (recD b 8).hi, (recD b 16).lo, (recD b 16).hi] ++ List.replicate 28 0,
    arrays := List.replicate 16 ArrReg.reset, frontier := [⟨recD b 0, 0xFFFF, 0xFFFFFFFF, 0, recD b 0⟩], loopCount := 0,
    clause := none, flags := List.replicate 12 0, unack := 0, loss := false, tvec := tvec, tframe := 0, tcause := 0,
    pend := false, masked := false, handlers := [], wait := .none, trapped := none, seqFaults := [], runCrc := 0,
    frame := none, stamp := 0, freed := false, ended := false }

/-- A group at group start, in the prologue (R193, R202). Its job key is that of the spawn that made its record; a queue slot's is
put in its place when the slot feeds its launch (R152). -/
def newGroup (gid : Nat) (r : Rec) (c : CoreRef) (gang member size : Nat) (slots : List Nat) (priv now : Nat) (tvec : DWord) :
    Group :=
  { gid := gid, record := r, ctx := r.ctx, epoch := recEpoch r.bytes, core := c, gang := gang, member := member, gangSize := size,
    warps := mapIdx (fun w slot => newWarp r.bytes tvec w slot) 0 slots, state := .prologue, order := 0, units := 1, seed := gid,
    scratch := [], bars := List.replicate 16 Barrier.reset, privBase := priv, perfsel := 0, perf := [0, 0, 0, 0],
    job := r.job, gtEntry := none, started := now, ended := false }

/-- Put a record's group on a core: its warps are placed (R191). -/
def Dev.addGroup (d : Dev) (r : Rec) (c : CoreRef) (gid gang member size priv : Nat) : Dev :=
  let slots := placeWarps (recWarps r.bytes) (d.freeEntries c)
  { d with groups := d.groups ++ [newGroup gid r c gang member size slots priv d.now (d.ctxD r.ctx 80)] }

/-! ## The child reserve (R417) -/

/-- Record bytes that need a context's reserve allotment; one warp with the prologue allotment when it is zero. -/
def Dev.reserveBytes (d : Dev) (ctx : Nat) : List Byte :=
  let v := (d.ctxW ctx 76).toNat
  let flags := if v = 0 then field 43 2 + field 36 1 else field 47 (v / 2 ^ 24 % 32) + field 23 (v % 2 ^ 24)
  List.replicate 40 0 ++ natBytes flags 8 ++ List.replicate 16 0

/-- Whether a record's parent is resident. -/
def Dev.parentResident (d : Dev) (r : Rec) : Bool := r.parent.any fun p => (d.group p).any fun g => !g.ended

/-- Whether some compute core of a die still admits the reserve of a record's context, or the record may use it. -/
def Dev.reserveLeft (d : Dev) (die : Nat) (r : Rec) : Bool :=
  d.parentResident r || (computeCores die).any fun c => d.admits c (d.reserveBytes r.ctx)

/-- Whether a core takes a record's group: R204, temperature, scope and the child reserve. -/
def Dev.takes (d : Dev) (c : CoreRef) (r : Rec) (inputs : Bool) : Bool :=
  d.admits c r.bytes && !d.hot c && (r.startScope inputs c).isSome && (d.addGroup r c 0 0 0 1 0).reserveLeft c.die r

/-- The first core of a list with the fewest live warps. -/
def Dev.fewest (d : Dev) : List CoreRef → Option CoreRef
  | [] => none
  | c :: r =>
    match d.fewest r with
    | some k => if d.liveWarps k < d.liveWarps c then some k else some c
    | none => some c

end Sys2Proof.Machine
end

