-- ==== Sys2Proof/Machine/Matrix.lean ====
section
/-! DEFINITION. Massif (R208, R209, R230 to R236, R360 to R374): admission of matrix entries, weight slots, accumulator
tiles, and what a matrix entry does when it runs. -/

namespace Sys2Proof.Machine

/-! ## Element formats -/

/-- Bits of a matrix element in memory (R217, R365). -/
def elementBits (fmt : BitVec 4) : Nat := if fmt = 14 then 4 else if fmt = 11 then 32 else if fmt = 9 || fmt = 10 then 16 else 8

/-- Planes of an A format (R2). -/
def planes (fmt : BitVec 4) : Nat :=
  if fmt = 14 then 2 else if fmt = 12 || fmt = 13 then 4 else if fmt = 9 || fmt = 11 then 11 else 8

/-- Whether a format is one of the narrow ones that take scales (R230). -/
def isNarrow (fmt : BitVec 4) : Bool := fmt = 12 || fmt = 13 || fmt = 14

/-- The bytes that `n` elements fill. -/
def elementBytes (fmt : BitVec 4) (n : Nat) : Nat := n * elementBits fmt / 8

/-- The code of element `k` of a run of bytes. -/
def elementCode (fmt : BitVec 4) (b : List Byte) (k : Nat) : Nat :=
  if fmt = 14 then (b.getD (k / 2) 0).toNat / (if k % 2 = 0 then 1 else 16) % 16
  else
    let w := elementBits fmt / 8
    sourceBits fmt (bytesNat ((b.drop (k * w)).take w))

/-- The exact value of an element: Massif never flushes (R222). -/
def elementValue (fmt : BitVec 4) (code : Nat) : FVal :=
  match floatFormat fmt with
  | some f => f.decode code
  | none => intValue 8 code

/-! ## Sums and promotion (R232 to R235) -/

/-- A value rounded to E96 by nearest-even. -/
def roundE96 (v : FVal) : FVal := e96.decode (e96.round rndNear 0 false false v)

/-- The accumulator element after adding a value. -/
def accumulate (c : Nat) (p : FVal) : Nat := e96.round rndNear 0 false false ((e96.decode c).add false p)

/-- A sum whose zero is +0. -/
def plusZero : FVal → FVal
  | .num _ 0 _ => .num false 0 0
  | v => v

/-- R233: a block's partial promoted into its element with the scales. -/
def promote (c : Nat) (partials : List FVal) (scaleA scaleB : Word) : Nat :=
  let p := roundE96 (plusZero (sumExact false partials))
  let s := (fp32.decode scaleA.toNat).mul (fp32.decode scaleB.toNat)
  accumulate c (roundE96 (p.mul s))

/-- The exponent of the leading bit of a product; none for a zero. -/
def leading : FVal → Option Int
  | .num _ m e => if m = 0 then none else some (e + bitLen m - 1)
  | _ => none

/-- A finite product as an integer of weight 2^w, truncated toward -∞. -/
def atWeight (w : Int) : FVal → Int
  | .num neg m e =>
    if w ≤ e then scaled neg m e w
    else
      let k : Int := 2 ^ (w - e).toNat
      (if neg then -(m : Int) else m) / k
  | _ => 0

/-- R234: one band's products summed to an E96 value. -/
def bandSum (ps : List FVal) : FVal :=
  let special := ps.any fun v => match v with
    | .num _ _ _ => false
    | _ => true
  if special then sumExact false ps
  else
    match ps.filterMap leading with
    | [] => .num false 0 0
    | e :: r =>
      let w := r.foldl max e - 88
      roundE96 (FVal.ofInt false ((ps.map (atWeight w)).sum) w)

/-- The products of one logical band of a slot with a row of A, in one column: the physical band and its logical one. -/
def bandProducts (fmt : BitVec 4) (a : List Byte) (sl : WSlot) (bfmt : BitVec 4) (phys b c : Nat) : List FVal :=
  (upFrom 0 8).map fun t =>
    (elementValue fmt (elementCode fmt a (8 * b + t))).mul
      (elementValue bfmt ((sl.data.getD (8 * phys + t) []).getD c 0))

/-- An accumulator element after one K block (R370). -/
def afterBlock (fmt : BitVec 4) (a : List Byte) (sl : WSlot) (scaleA : Word) (col c : Nat) : Nat :=
  let bfmt := sl.fmt.getD 0
  let bands := foldIdx (fun phys (l : List (List FVal)) b => l ++ [bandProducts fmt a sl bfmt phys b col]) 0 [] sl.map
  if isNarrow fmt then promote c bands.flatten scaleA sl.scaleB
  else if fmt = 0 then
    let sum := bands.flatten.foldl (fun (k : Int) v => k + atWeight 0 v) 0
    (BitVec.ofInt 96 ((BitVec.ofNat 96 c).toInt + sum)).toNat
  else bands.foldl (fun c ps => accumulate c (bandSum ps)) c

/-! ## Tiles -/

/-- A row of a tile. -/
def Tile.row (t : Tile) (i : Nat) : List Nat := ((t.rows.find? fun r => r.1 = i).map fun r => r.2).getD (List.replicate 128 0)
def Tile.setRow (t : Tile) (i : Nat) (r : List Nat) : Tile := { t with rows := (i, r) :: t.rows.filter fun x => x.1 ≠ i }

/-! ## Admission (R208, R209, R360, R362) -/

/-- The party that must hold the baton. -/
def holderOf (r : ThreadRef) (g : Group) : Holder :=
  match r with
  | .warp gid wid => .warp gid wid
  | _ => .seq g.gid

/-- The matrix state as a group finds it that has not owned it before: slots empty, tiles in float form at +0 (R209). -/
def Core.owned (k : Core) (gid : Nat) : Core :=
  if k.owner = some gid then k
  else { k with owner := some gid, slots := List.replicate 8 WSlot.reset, tiles := List.replicate 8 Tile.reset }

/-- The form of a class-3 instruction: the baton first; the matrix state passes to the group once the entries of its last holder are
performed; the ALLOT trap; a full flag or a full queue makes it wait (log 25). -/
def matrixOp (s : State) (regs : List (BitVec 7)) (flag : Thread → Option Nat)
    (act : ThreadRef → Thread → Group → Option Nat → Dev → Dev) : Out :=
  runFor s fun r t d =>
    match d.groupOf r with
    | none => d.raise r trapIllegal
    | some g =>
      let k := d.core g.core
      match d.allotTrap r regs with
      | some x => d.raise r x
      | none =>
        if k.baton ≠ holderOf r g then d.raise r (.plain causeBaton 0)
        else if (k.owner ≠ some g.gid && !k.matrix.isEmpty) || t.flagFull (flag t) ||
            decide (64 ≤ k.matrix.length) then d.hold r .retry
        else act r t g (flag t) (d.onCore g.core fun k => k.owned g.gid)

/-- A signal field: the barrier that is arrived at. -/
def signalOf (v : Nat) : Option Nat := if bitOf v 4 then some (v % 16) else none

/-- Whether a named barrier is uninitialised, which the admission refuses (R349). -/
def Group.signalBad (g : Group) (b : Option Nat) : Bool := b.any fun n => (g.bars.getD n Barrier.reset).expected == 0

/-- ILLEGAL at admission, with its subcode (R360, R424). -/
def trapAdmit (sub : Nat) : TrapInfo := .plain causeIllegal (BitVec.ofNat 64 sub)

/-- A shape field's half word for the image: a marker gives way to the value that it read, where the field can hold that; `unit` says
that the field counts units of 16 bytes, while a marker reads the address itself (R362, R432). -/
def Thread.substituted (t : Thread) (unit : Bool) (h : Nat) : Nat :=
  let f : ShapeField := ⟨BitVec.ofNat 11 (h / 32), BitVec.ofNat 5 h⟩
  let v := t.shape f
  let v' := if unit then v / 16 else v
  if f.value = 0x7FF && decide (v' < 0x7FF) && (!unit || v % 16 == 0) then v' * 32 else h

/-- The shape fields of an entry that are unit addresses. -/
def MatrixOp.unitFields : MatrixOp → List Nat
  | .mma _ _ _ _ _ _ _ _ => [3, 5]
  | .mrd _ _ _ _ _ _ _ _ _ _ _ _ => [3]
  | _ => []

/-- The words of an instruction with their marker fields substituted (R432). -/
def Thread.substituteAll (t : Thread) (units : List Nat) (words : List Word) : List Word :=
  let half := fun (n h : Nat) => t.substituted (units.contains n) h
  mapIdx (fun n w => if n = 0 then w else
    BitVec.ofNat 32 (half (2 * n - 2) (w.toNat / 65536) * 65536 + half (2 * n - 1) (w.toNat % 65536))) 0 words

/-- Admit an entry: it waits as R134 states, tags its flag, and the instruction is done. -/
def Dev.admitMatrix (d : Dev) (r : ThreadRef) (t : Thread) (g : Group) (flag signal : Option Nat) (len : Nat)
    (operands : List Word) (op : MatrixOp) : Dev :=
  if d.admissionWaits r then d.hold r .retry
  else
    let (id, d) := (d.nextId, { d with nextId := d.nextId + 1 })
    let words := t.substituteAll op.unitFields ((t.clause.map fun c => c.words.take len).getD [])
    let e : MatrixEntry := ⟨id, false, r, g.gid, flag, signal, op, words, operands, false⟩
    let d := d.onCore g.core fun k => { k with matrix := k.matrix ++ [e] }
    (d.onThread r fun t => t.tagFlag flag).retire r len

/-- A unit address in scratch (R362): units of 16 bytes, or with the marker the full scratch address. -/
def Thread.unitAddr (t : Thread) (f : ShapeField) : Nat := if f.value = 0x7FF then t.shape f else t.shape f * 16

/-- Whether a span lies in the group's own scratch, within its allotment. -/
def Group.ownSpan (g : Group) (a n : Nat) : Bool := decide (a < 2 ^ 19) && decide (a + n ≤ g.scratchBytes)

/-- The form of a tile for admission: that of the last MZERO admitted to it (R367). -/
def Core.tileInt (k : Core) (m : Nat) : Bool :=
  let queued := k.matrix.filterMap fun e => match e.op with
    | .mzero n i => if n = m then some i else none
    | _ => none
  (queued.getLast?).getD ((k.tiles.getD m Tile.reset).isInt)

/-! ## MLDB (R364 to R366) -/

/-- Read bytes of virtual addresses for an engine, through the near caches a line at a time (R47). The second component is
false when a line that no near cache holds is uncorrectable at its home point. -/
def Dev.engineRead (d : Dev) (f : Fuses) (c : CoreRef) (tag : BitVec 16) (pages : List TlbEntry) :
    Nat → Nat → Nat → (List Byte × Bool) × Dev
  | 0, _, _ => (([], true), d)
  | fuel + 1, va, n =>
    if n = 0 then (([], true), d)
    else
      let k := min n (128 - va % 128)
      match pages.find? fun e => e.hits tag va with
      | none => (([], true), d)
      | some e =>
        let pa : PAddr := ⟨none, (d.shadow.bind fun w => w.place va false).getD (e.lpaAt va)⟩
        if isDevice pa.lpa then
          let (v, d) := d.deviceRead f pa.lpa (min n 8)
          let (x, d) := d.engineRead f c tag pages fuel (va + min n 8) (n - min n 8)
          ((v ++ x.1, x.2), d)
        else
          let ok := (!pa.onDie c.die && e.leaf.level != 2 && (d.rdcHit c.die pa tag).isSome) || !d.bad pa.lpa
          let (b, d) := match d.readThrough c tag pa e.leaf va k false none Forbidden.none none with
            | (some b, d) => (b, d)
            | (none, d) => (List.replicate k 0, d)
          let (x, d) := d.engineRead f c tag pages fuel (va + k) (n - k)
          ((b ++ x.1, ok && x.2), d)

/-- The translations of the pages of a span, or the first failure. -/
def Dev.spanPages (d : Dev) (c : CoreRef) (tag : BitVec 16) (stop : Nat) :
    Nat → Nat → List TlbEntry → (List TlbEntry ⊕ (Nat × XlateOut)) × Dev
  | 0, _, acc => (.inl acc.reverse, d)
  | fuel + 1, va, acc =>
    if stop ≤ va then (.inl acc.reverse, d)
    else
      match d.translate c tag va false false with
      | (.ok (.mem ⟨none, _⟩ _ _) e, d) =>
        if 2 ^ 54 ≤ va then (.inr (va, .xlate 11), d) else d.spanPages c tag stop fuel ((va / 4096 + 1) * 4096) (e :: acc)
      | (.ok _ _, d) => (.inr (va, .xlate 11), d)
      | (x, d) => (.inr (va, x), d)

/-- The trap of a failing span. -/
def spanTrap : Nat × XlateOut → TrapInfo
  | (va, .poison) => warpTrap causePoison 0 (BitVec.ofNat 64 va)
  | (va, .xlate sub) => warpTrap causeXlate sub (BitVec.ofNat 64 va)
  | (va, _) => warpTrap causeXlate 11 (BitVec.ofNat 64 va)

/-- The logical bands that hold a nonzero block, ascending (R365). -/
def nonzeroBands (bitmap : List Byte) (bands : Nat) : List Nat :=
  (upFrom 0 bands).filter fun b => bitmap.getD (2 * b) 0 ≠ 0 || bitmap.getD (2 * b + 1) 0 ≠ 0

/-- The bands that an MLDB loads. -/
def bandMap (sparse : Bool) (bitmap : List Byte) (bands : Nat) : List Nat :=
  if sparse then nonzeroBands bitmap bands else upFrom 0 16

/-- The bytes that an MLDB reads from its source: `nz` bands of 8 rows at a pitch. -/
def sourceSpan (fmt : BitVec 4) (pitch nz : Nat) : Nat := if nz = 0 then 0 else (8 * nz - 1) * pitch * 16 + elementBytes fmt 128

/-- The two words of an operand's address. -/
def EngineSpace.words (s : EngineSpace) : List Word :=
  let a := match s with
    | .virt a => a
    | .scr a => a
    | .lease _ a => a
  [BitVec.ofNat 32 a, BitVec.ofNat 32 (a / 2 ^ 32)]

/-- The part of MLDB behind its reads of the bitmap: the slot's admission-time fields, and the entry. -/
def Dev.mldbAdmit (d : Dev) (r : ThreadRef) (t : Thread) (g : Group) (w : BitVec 3) (fmt : BitVec 4) (sc : BitVec 5)
    (sig : Nat) (bands : Nat) (map : List Nat) (bitmap : List Byte) (bm : Option EngineSpace) (src : EngineSpace)
    (pages : List TlbEntry) (pitch : Nat) : Dev :=
  if d.admissionWaits r then d.hold r .retry
  else
    let scale := t.sreg sc.toNat
    let d := d.onCore g.core fun k => { k with slots := updAt k.slots w.toNat fun x =>
      { x with admFmt := some fmt, admBands := bands, admMap := map } }
    d.admitMatrix r t g none (signalOf sig) 5
      ([scale, BitVec.ofNat 32 bands, BitVec.ofNat 32 pitch] ++ src.words ++ (bm.map EngineSpace.words).getD [])
      (.mldb w.toNat fmt scale bands map bitmap bm src pages pitch)

/-- The two scratch spans of MLDB from scratch; the bitmap is read at admission. -/
def Dev.mldbScratch (d : Dev) (g : Group) (fmt : BitVec 4) (src bm : Nat) (sparse : Bool) (bands pitch : Nat) :
    Option (List Nat × List Byte) :=
  let bitmap := if sparse then (d.scratchAt g bm (2 * bands)).bind fun p => (d.group p.1).map fun k => k.scratchRead p.2 (2 * bands)
    else some []
  bitmap.bind fun b =>
    let map := bandMap sparse b bands
    let n := sourceSpan fmt pitch map.length
    if 16 < map.length then none
    else if n = 0 || (d.scratchAt g src n).isSome then some (map, b) else none

/-- Addresses of the pages that an MLDB of `nz` bands reads: the ends of its rows. -/
def mldbPages (fmt : BitVec 4) (a pitch nz : Nat) : List Nat :=
  (upFrom 0 (8 * nz)).flatMap fun r => [a + r * pitch * 16, a + r * pitch * 16 + elementBytes fmt 128 - 1]

/-- MLDB (R366): its checks; from scratch it is admitted at once, from memory it stalls for its translations. -/
def execMldb (w : BitVec 3) (fmt : BitVec 4) (sc : BitVec 5) (src bm : BitVec 3) (sp sparse : BitVec 1) (sh : Shape) (s : State) : Out :=
  matrixOp s [] (fun _ => none) fun r t g _ d =>
    let a := t.kpair src.toNat
    let b := t.kpair bm.toNat
    let a := if sp = 1 then a.lo.toNat else a.toNat
    let b := if sp = 1 then b.lo.toNat else b.toNat
    let pitch := t.shape sh.sh0
    let bands := t.shape sh.sh1
    let sig := sh.sh2.value.toNat
    if a % 16 ≠ 0 then d.raise r (warpTrap causeAlign 0 (BitVec.ofNat 64 a))
    else if sparse = 1 && b % 16 ≠ 0 then d.raise r (warpTrap causeAlign 0 (BitVec.ofNat 64 b))
    else if bands < 1 || 64 < bands || (sparse = 0 && bands ≠ 16) || pitch * 16 < elementBytes fmt 128 then
      d.raise r (.plain causeBounds 0)
    else if g.signalBad (signalOf sig) then d.raise r (trapAdmit 1)
    else if d.admissionWaits r then d.hold r .retry
    else if sp = 1 then
      match d.mldbScratch g fmt a b (sparse = 1) bands pitch with
      | some (map, bitmap) => d.mldbAdmit r t g w fmt sc sig bands map bitmap (if sparse = 1 then some (.scr b) else none) (.scr a) [] pitch
      | none => d.raise r (warpTrap causeBounds 0 (BitVec.ofNat 64 a))
    else d.stall r (mldbPages fmt a pitch (min 16 bands) ++ if sparse = 1 then [b, b + 2 * bands - 1] else [])

/-- MLDB from memory once its translations are done: the bitmap is read, and the pages of the source and of the bitmap stay pinned. -/
def Dev.mldbDone (d : Dev) (f : Fuses) (r : ThreadRef) (t : Thread) (w : BitVec 3) (fmt : BitVec 4) (sc : BitVec 5) (src bm : BitVec 3)
    (sparse : BitVec 1) (sh : Shape) : Option Dev :=
  match d.groupOf r with
  | none => none
  | some g =>
    let a := (t.kpair src.toNat).toNat
    let b := (t.kpair bm.toNat).toNat
    let bands := t.shape sh.sh1
    let pitch := t.shape sh.sh0
    let tag := d.tagOf r
    let n := if sparse = 1 then 2 * bands else 0
    if d.admissionWaits r then none
    else if 2 ^ 54 ≤ a then some (d.raise r (warpTrap causeXlate (if 3 * 2 ^ 54 ≤ a then 10 else 11) (BitVec.ofNat 64 a)))
    else if sparse = 1 && 2 ^ 54 ≤ b then
      some (d.raise r (warpTrap causeXlate (if 3 * 2 ^ 54 ≤ b then 10 else 11) (BitVec.ofNat 64 b)))
    else
      match (if n = 0 then d else d.shadowCheck b n false).spanPages g.core tag (b + n) (n / 4096 + 2) b [] with
      | (.inr x, d) => some (d.raise r (spanTrap x))
      | (.inl bp, d) =>
        let (bytes, d) := d.engineRead f g.core tag bp (n / 8 + 4) b n
        if !bytes.2 then none
        else
          let map := bandMap (sparse = 1) bytes.1 bands
          let m := sourceSpan fmt pitch map.length
          if 16 < map.length then some (d.raise r (.plain causeBounds 0))
          else
            match (d.shadowCheck a m false).spanPages g.core tag (a + m) (m / 4096 + 2) a [] with
            | (.inr x, d) => some (d.raise r (spanTrap x))
            | (.inl pages, d) =>
              some (d.mldbAdmit r t g w fmt sc sh.sh2.value.toNat bands map bytes.1
                (if sparse = 1 then some (.virt b) else none) (.virt a) (pages ++ bp) pitch)

/-- The rows that a slot receives (R365): the elements of blocks whose bit is set. -/
def slotRows (fmt : BitVec 4) (sparse : Bool) (map : List Nat) (bitmap : List Byte) (row : Nat → List Byte) : List (List Nat) :=
  (upFrom 0 (8 * map.length)).map fun r =>
    let b := map.getD (r / 8) 0
    let bytes := row r
    (upFrom 0 128).map fun c =>
      let bit := 16 * b + c / 8
      if !sparse || (bitmap.getD (bit / 8) 0).getLsbD (bit % 8) then elementCode fmt bytes c else 0

/-! ## MZERO, MMA (R367 to R371) -/

/-- MZERO (R367). -/
def execMzero (m : BitVec 3) (isInt : BitVec 1) (s : State) : Out :=
  matrixOp s [] (fun _ => none) fun r t g _ d => d.admitMatrix r t g none none 1 [] (.mzero m.toNat (isInt = 1))

/-- Whether the formats of A, the slots and the tile agree (R369). -/
def formatsAgree (fmt : BitVec 4) (slots : List WSlot) (isInt : Bool) : Bool :=
  slots.all (fun x => match x.admFmt with
    | none => false
    | some b => if isNarrow fmt then isNarrow b else b = fmt) && (isInt == (fmt = 0))

/-- The admission checks of MMA behind its operands, and its entry. `lane` says whether a row's address is a lane's. -/
def Dev.mmaAdmit (d : Dev) (r : ThreadRef) (t : Thread) (g : Group) (m w : BitVec 3) (sh : Shape) (sa : BitVec 7)
    (lane : Bool) (rows : List (Nat × Nat)) : Dev :=
  let fmt : BitVec 4 := sh.sh0.value.extractLsb' 0 4
  let n := (sh.sh0.value.extractLsb' 4 3).toNat + 1
  let stride := t.shape sh.sh1
  let sig := signalOf sh.sh6.value.toNat
  let k := d.core g.core
  let slots := (k.slots.drop w.toNat).take n
  let segs := slots.map fun x => elementBytes fmt (8 * x.admBands)
  let sbase := t.unitAddr sh.sh5
  let scaled := isNarrow fmt
  let trapAt := fun (c : BitVec 8) (row : Nat × Nat) =>
    if lane then (⟨c, 0, BitVec.ofNat 64 row.2, BitVec.ofNat 8 row.1⟩ : TrapInfo) else warpTrap c 0 (BitVec.ofNat 64 row.2)
  let rowOk := fun (row : Nat × Nat) =>
    (upFrom 0 n).all fun j => g.ownSpan (row.2 + 16 * stride * j) (segs.getD j 0)
  let scaleOk := fun (row : Nat × Nat) => (upFrom 0 n).all fun j => g.ownSpan (sbase + 32 * row.1 + 4 * j) 4
  if 8 < w.toNat + n then d.raise r (trapAdmit 1)
  else if !formatsAgree fmt slots (k.tileInt m.toNat) then d.raise r (trapAdmit 1)
  else if lane && (if scaled then 111 < sa.toNat + n - 1 else sa ≠ 0) then d.raise r (trapAdmit 6)
  else if g.signalBad sig then d.raise r (trapAdmit 1)
  else if (segs.take (n - 1)).any fun x => decide (16 * stride < x) then d.raise r (.plain causeBounds 0)
  else
    match rows.find? fun x => !rowOk x with
    | some x => d.raise r (trapAt causeBounds x)
    | none =>
      if !lane && rows.any fun x => !scaleOk x then d.raise r (warpTrap causeBounds 0 (BitVec.ofNat 64 sbase))
      else
        match rows.find? fun x => x.2 % 16 ≠ 0 with
        | some x => d.raise r (trapAt causeAlign x)
        | none =>
          if !lane && sbase % 16 ≠ 0 then d.raise r (warpTrap causeAlign 0 (BitVec.ofNat 64 sbase))
          else
            let scales := if scaled && lane then
                rows.map fun x => (upFrom 0 n).map fun j => (t.lane x.1).get (sa + BitVec.ofNat 7 j)
              else []
            d.admitMatrix r t g none sig 5
              ([BitVec.ofNat 32 stride, BitVec.ofNat 32 sbase, maskOf fun l => rows.any fun x => x.1 == l] ++
                foldIdx (fun k (l : List Word) x => l ++ BitVec.ofNat 32 x.2 :: scales.getD k []) 0 [] rows)
              (.mma m.toNat w.toNat n fmt rows (16 * stride) scales (if scaled && !lane then some sbase else none))

/-- MMA in lane mode (R368): the taking-part lanes are the rows. -/
def execMma (m w : BitVec 3) (a sa : BitVec 7) (g : Guard) (sh : Shape) (s : State) : Out :=
  let n := (sh.sh0.value.extractLsb' 4 3).toNat + 1
  let narrow := isNarrow (sh.sh0.value.extractLsb' 0 4)
  matrixOp s (a :: if narrow && sa.toNat + n ≤ 112 then regRun sa n else []) (fun _ => none) fun r t gr _ d =>
    if t.taking g = 0 then d.retire r 5
    else d.mmaAdmit r t gr m w sh sa true ((maskLanes (t.taking g)).map fun l => (l, ((t.lane l).get a).toNat))

/-- MMA in strided mode (R368): the rows of a mask. -/
def execMmaStr (m w : BitVec 3) (sh : Shape) (s : State) : Out :=
  matrixOp s [] (fun _ => none) fun r t gr _ d =>
    let base := t.unitAddr sh.sh3
    let pitch := t.shape sh.sh4 * 16
    d.mmaAdmit r t gr m w sh 0 false ((maskLanes (BitVec.ofNat 32 (t.shape sh.sh2))).map fun i => (i, base + i * pitch))

/-- One row of an MMA (R370): all its K blocks, in ascending order. -/
def mmaRow (g : Group) (slots : List WSlot) (fmt : BitVec 4) (stride : Nat) (tile : Tile) (row : Nat × Nat)
    (scale : Nat → Word) : Tile :=
  let blocks := foldIdx (fun j (l : List (WSlot × List Byte × Word)) sl =>
    l ++ [(sl, g.scratchRead (row.2 + stride * j) (elementBytes fmt (8 * sl.bands)), scale j)]) 0 [] slots
  tile.setRow row.1 (mapIdx (fun col c => blocks.foldl (fun c x => afterBlock fmt x.2.1 x.1 x.2.2 col c) c) 0 (tile.row row.1))

/-! ## Readout and control (R373, R374) -/

/-- A tile element converted (R236). -/
def readOut (isInt : Bool) (dfmt : BitVec 4) (rnd : Nat) (sat ftz : Bool) (v : Nat) : Nat :=
  convertTo dfmt rnd 0 sat ftz (if isInt then intValue 96 v else e96.decode v)

/-- The bytes of a row's columns read out. -/
def rowBytes (t : Tile) (dfmt : BitVec 4) (rnd : Nat) (sat ftz : Bool) (c0 cols i : Nat) : List Byte :=
  (((t.row i).drop c0).take cols).flatMap fun v => natBytes (readOut t.isInt dfmt rnd sat ftz v) (mrdBytes dfmt)

/-- MRD (R373). -/
def execMrd (m : BitVec 3) (dfmt : BitVec 4) (rnd : BitVec 3) (sat ftz : BitVec 1) (d : BitVec 7) (f : BitVec 1) (g : Guard)
    (sh : Shape) (s : State) : Out :=
  let scr := sh.sh0.value = 1
  matrixOp s (if scr then [] else [d]) (fun t => t.flagOf f) fun r t gr fl dev =>
    let c0 := t.shape sh.sh1
    let cols := t.shape sh.sh2
    let size := cols * mrdBytes dfmt
    let regs := (size + 3) / 4
    let rows := match r with
      | .seq _ _ => maskLanes (BitVec.ofNat 32 (t.shape sh.sh5))
      | _ => maskLanes (t.taking g)
    let base := t.unitAddr sh.sh3
    let pitch := t.shape sh.sh4 * 16
    let sig := signalOf sh.sh6.value.toNat
    if t.taking g = 0 then dev.retire r 5
    else if 127 < c0 || cols < 1 || 128 < cols || 128 < c0 + cols || (scr && pitch < size) ||
        (!isSeq r && t.shape sh.sh5 ≠ 0) then dev.raise r (trapAdmit 1)
    else if !scr && (size % 4 ≠ 0 || 64 < size || 111 < d.toNat + regs - 1) then dev.raise r (trapAdmit 6)
    else if !(dev.core gr.core).tileInt m.toNat && dfmt = 2 then dev.raise r (trapAdmit 1)
    else if gr.signalBad sig then dev.raise r (trapAdmit 1)
    else
      match (if scr then rows.find? fun i => !gr.ownSpan (base + i * pitch) size else none) with
      | some i => dev.raise r (warpTrap causeBounds 0 (BitVec.ofNat 64 (base + i * pitch)))
      | none =>
        if scr && base % mrdBytes dfmt ≠ 0 then dev.raise r (warpTrap causeAlign 0 (BitVec.ofNat 64 base))
        else
          match (if scr then none else dev.allotTrap r (regRun d regs)) with
          | some k => dev.raise r k
          | none =>
            dev.admitMatrix r t gr fl sig 5 ([c0, cols, base, pitch].map (BitVec.ofNat 32) ++ [maskOf fun l => rows.contains l])
              (.mrd m.toNat dfmt rnd.toNat (sat = 1) (ftz = 1) c0 cols rows (if scr then none else some d) base pitch 0)

/-- MSIG (R374): one arrival when every earlier matrix entry is performed. -/
def execMsig (b : BitVec 4) (s : State) : Out :=
  matrixOp s [] (fun _ => none) fun r t g _ d =>
    if g.signalBad (some b.toNat) then d.raise r (trapAdmit 1) else d.admitMatrix r t g none (some b.toNat) 1 [] .msig

/-- MSEQ.END (R374): the last entry of a matrix program; the program issues nothing more. -/
def execMseqEnd (e : BitVec 1) (b : BitVec 4) (s : State) : Out :=
  matrixOp s [] (fun _ => none) fun r t g _ d =>
    let sig := if e = 1 then some b.toNat else none
    if g.signalBad sig then d.raise r (trapAdmit 1)
    else
      let d := d.admitMatrix r t g none sig 1 [] .seqEnd
      d.onThread r fun t => if t.wait = .none then { t with frontier := [], clause := none, wait := .op 0 } else t

/-- MAMAX (R374). -/
def execMamax (m : BitVec 3) (d : BitVec 7) (f : BitVec 1) (g : Guard) (sh : Shape) (s : State) : Out :=
  matrixOp s [d] (fun t => t.flagOf f) fun r t gr fl dev =>
    let c0 := t.shape sh.sh1
    let cols := t.shape sh.sh2
    if t.taking g = 0 then dev.retire r 5
    else if 127 < c0 || cols < 1 || 128 < cols || 128 < c0 + cols then dev.raise r (trapAdmit 1)
    else dev.admitMatrix r t gr fl none 5 ([c0, cols].map (BitVec.ofNat 32) ++ [t.taking g])
      (.mamax m.toNat c0 cols (maskLanes (t.taking g)) d)

/-- The greatest magnitude of a row's columns, to FP32 toward +∞ (R374). -/
def rowMax (t : Tile) (c0 cols i : Nat) : Word :=
  let vs := (((t.row i).drop c0).take cols).map fun v => if t.isInt then intValue 96 v else e96.decode v
  let mag := fun (v : FVal) => match v with
    | .num _ m e => FVal.num false m e
    | .inf _ => .inf false
    | .nan => .nan
  if vs.any fun v => v.isNan then 0x7FC00000
  else
    let most := vs.foldl (fun a v => if a.lt (mag v) then mag v else a) (.num false 0 0)
    BitVec.ofNat 32 (fp32.round rndUp 0 false false most)

/-! ## Running (R366, R370, R373) -/

/-- The entry that runs is performed: its arrival, its flag, its place in the queue. -/
def Dev.matrixDone (d : Dev) (c : CoreRef) (e : MatrixEntry) : Dev :=
  let d := d.onCore c fun k => { k with matrix := k.matrix.filter fun x => x.id ≠ e.id }
  let d := d.onThread e.thread fun t => t.untagFlag e.flag
  match e.signal with
  | some b => (d.arrive (.group e.gid b) Arrival.plain).getD d
  | none => d

/-- The slot of an MLDB filled from its source; none while the source holds uncorrectable data. -/
def Dev.loadSlot (d : Dev) (f : Fuses) (c : CoreRef) (g : Group) (e : MatrixEntry) (w : Nat) (fmt : BitVec 4) (scaleB : Word)
    (bands : Nat) (map : List Nat) (bitmap : List Byte) (bm : Option EngineSpace) (src : EngineSpace) (pages : List TlbEntry)
    (pitch : Nat) : Option Dev :=
  let n := elementBytes fmt 128
  let tag := mkTag g.ctx g.epoch
  let rows := upFrom 0 (8 * map.length)
  let read := fun (p : List (List Byte) × Bool × Dev) (r : Nat) =>
    match src with
    | .virt a =>
      let (x, d) := p.2.2.engineRead f c tag pages (n / 8 + 2) (a + r * pitch * 16) n
      (p.1 ++ [x.1], p.2.1 && x.2, d)
    | .scr a =>
      let x := (d.scratchAt g (a + r * pitch * 16) n).bind fun q => (d.group q.1).map fun k => k.scratchRead q.2 n
      (p.1 ++ [x.getD []], p.2.1, p.2.2)
    | .lease _ _ => p
  let (bytes, ok, d) := rows.foldl read ([], true, d)
  if !ok then none
  else
    let data := slotRows fmt (!bitmap.isEmpty) map bitmap fun r => bytes.getD r []
    some (d.onCore c fun k => { k with slots := updAt k.slots w fun x =>
      { x with fmt := some fmt, scaleB := scaleB, bands := bands, map := map, data := data, words := e.words,
               operands := e.operands, src := some (src, bm, pitch) } })

/-- Write a row read out to scratch, or to the registers from the `first` of them on, at most `count`; an orphaned entry has no
registers. -/
def Dev.writeRow (d : Dev) (e : MatrixEntry) (lane : Nat) (b : List Byte) (dest : Option (BitVec 7)) (at_ first count : Nat) : Dev :=
  match dest with
  | none => d.scratchWrite e.gid at_ b
  | some r =>
    if e.orphan then d
    else d.onLane e.thread lane fun l =>
      ((upFrom 0 ((b.length + 3) / 4)).drop first |>.take count).foldl (fun l k =>
        l.set (r + BitVec.ofNat 7 k) (BitVec.ofNat 32 (bytesNat ((b.drop (4 * k)).take 4)))) l

/-- Run the head of a matrix queue: all of it, or an MMA, MRD or MAMAX for its next rows only; an MRD for no whole row writes one more
register of its first row (R249). -/
def Dev.runMatrix (d : Dev) (f : Fuses) (c : CoreRef) (e : MatrixEntry) (g : Group) (count : Option Nat) : Option Dev :=
  let k := d.core c
  let keep := fun (op : MatrixOp) (d : Dev) =>
    d.onCore c fun k => { k with matrix := updBy (fun x => x.id = e.id) (fun x => { x with op := op, started := true }) k.matrix }
  match e.op with
  | .mldb w fmt sb bands map bitmap bm src pages pitch =>
    (d.loadSlot f c g e w fmt sb bands map bitmap bm src pages pitch).map fun d => d.matrixDone c e
  | .mzero m isInt =>
    some ((d.onCore c fun k => { k with tiles := updAt k.tiles m fun _ => { Tile.reset with isInt := isInt } }).matrixDone c e)
  | .mma m w n fmt rows stride scales sbase =>
    let slots := (k.slots.drop w).take n
    let take := (count.getD rows.length).min rows.length
    if count = some 0 then none
    else
      let scale := fun (idx i j : Nat) => match sbase with
        | some b => BitVec.ofNat 32 (bytesNat (g.scratchRead (b + 32 * i + 4 * j) 4))
        | none => (scales.getD idx []).getD j 0
      let tile := foldIdx (fun idx t row => mmaRow g slots fmt stride t row (scale idx row.1)) 0
        (k.tiles.getD m Tile.reset) (rows.take take)
      let cycles := take * planes fmt *
        (if slots.any fun x => !x.map.isEmpty then 1 else 0)
      let d := d.onCore c fun k => { k with tiles := updAt k.tiles m fun _ => tile }
      let d := d.count e.thread 8 cycles
      if take = rows.length then some (d.matrixDone c e)
      else some (keep (.mma m w n fmt (rows.drop take) stride (scales.drop take) sbase) d)
  | .mrd m dfmt rnd sat ftz c0 cols lanes dest dbase dpitch wrote =>
    let tile := k.tiles.getD m Tile.reset
    let row := fun (i : Nat) => rowBytes tile dfmt rnd sat ftz c0 cols i
    if count = some 0 then
      match lanes, dest with
      | i :: rest, some _ =>
        let n := ((row i).length + 3) / 4
        let d := d.writeRow e i (row i) dest 0 wrote 1
        if wrote + 1 < n then some (keep (.mrd m dfmt rnd sat ftz c0 cols lanes dest dbase dpitch (wrote + 1)) d)
        else if rest.isEmpty then some (d.matrixDone c e)
        else some (keep (.mrd m dfmt rnd sat ftz c0 cols rest dest dbase dpitch 0) d)
      | _, _ => none
    else
      let take := (count.getD lanes.length).min lanes.length
      let d := foldIdx (fun n (d : Dev) i => d.writeRow e i (row i) dest (dbase + i * dpitch) (if n = 0 then wrote else 0) 16) 0 d
        (lanes.take take)
      if take = lanes.length then some (d.matrixDone c e)
      else some (keep (.mrd m dfmt rnd sat ftz c0 cols (lanes.drop take) dest dbase dpitch 0) d)
  | .mamax m c0 cols lanes reg =>
    let take := (count.getD lanes.length).min lanes.length
    if count = some 0 then none
    else
      let tile := k.tiles.getD m Tile.reset
      let d := (lanes.take take).foldl (fun (d : Dev) i =>
        if e.orphan then d else d.onLane e.thread i fun l => l.set reg (rowMax tile c0 cols i)) d
      if take = lanes.length then some (d.matrixDone c e) else some (keep (.mamax m c0 cols (lanes.drop take) reg) d)
  | .msig => some (d.matrixDone c e)
  | .seqEnd => some (if e.orphan then d.matrixDone c e else (d.matrixDone c e).seqEnd c false none)

/-- MATRIX_ENTRY_RUN (R133, R371): Massif performs one entry at a time, in queue order. -/
def execMatrixEntryRun (core : CoreRef) (rows : Option Nat) (s : State) : Out :=
  happen s fun d =>
    if !d.clocked then none
    else
      match (d.core core).matrix.head? with
      | none => none
      | some e => (d.group e.gid).bind fun g => d.runMatrix s.fuses core e g rows

end Sys2Proof.Machine
end

