-- ==== Sys2Proof/Machine/Traverse.lean ====
section
/-! DEFINITION. The traverse (R159 to R165) and the activity budgets it is charged to (R419): passes, the
decision, and the statuses of waiting QUIETs (R163). -/

namespace Sys2Proof.Machine

/-! ## Activity budgets (R419) -/

/-- The µs an activity has spent in its period. -/
def Dev.spent (d : Dev) (die n : Nat) : Nat := ((d.die die).budgets[n]?).elim 0 Budget.spent

/-- Whether an internal activity of a die has budget left in its period. -/
def Dev.hasBudget (d : Dev) (die n : Nat) : Bool := d.spent die n < bits (d.reg (.abud die n)) 31 16

/-- Charge a unit of one µs (log 22); count a deferred one. -/
def Dev.spend (d : Dev) (die n : Nat) : Dev :=
  d.onDie die fun k => { k with budgets := updAt k.budgets n fun b => { b with spent := b.spent + 1 } }
def Dev.defer (d : Dev) (die n : Nat) : Dev :=
  d.onDie die fun k => { k with budgets := updAt k.budgets n fun b => { b with deferred := b.deferred + 1 } }

/-! ## Passes (R160, R165) -/

/-- What one package reports for a job: the sums and the three bits over its four interfaces. -/
structure Sums where
  injected : DWord
  consumed : DWord
  doubt : Bool
  activity : Bool
  lossy : Bool
  deriving DecidableEq, Repr

def Dev.jobEntries (d : Dev) (ctx job : Nat) : List JobEntry :=
  d.dies.flatMap fun k => k.jobs.filter fun j => j.ctx = ctx && j.job = job

def Dev.sums (d : Dev) (ctx job : Nat) : Sums :=
  (d.jobEntries ctx job).foldl (fun s j => ⟨s.injected + j.injected, s.consumed + j.consumed, s.doubt || j.doubt != 0,
    s.activity || j.activity, s.lossy || j.lossy⟩) ⟨0, 0, false, false, false⟩

/-- Change the entries of a job in every interface. -/
def Dev.onJobs (d : Dev) (ctx job : Nat) (f : JobEntry → JobEntry) : Dev :=
  d.mapDies fun k => { k with jobs := k.jobs.map fun j => if j.ctx = ctx && j.job = job then f j else j }

/-- Read a package's entries for a pass: pass 1 clears the activity bits it reads; pass 2 notes the lossy bits it reads (R163). -/
def Dev.readJob (d : Dev) (ctx job pass : Nat) : Sums × Dev :=
  let others := d.between.filter fun j => j ≠ (ctx, job)
  (d.sums ctx job,
   if pass = 1 then { d.onJobs ctx job fun j => { j with activity := false, read := false } with between := (ctx, job) :: others }
   else { d.onJobs ctx job fun j => { j with read := j.lossy } with between := others })

/-- Clear the lossy bits that pass 2 has read (R163). -/
def Dev.clearRead (d : Dev) (ctx job : Nat) : Dev :=
  d.onJobs ctx job fun j => if j.read then { j with lossy := false, read := false } else j

/-- The job that a QUIET of a group waits for: the group's context and JOBID (R163). -/
def Group.quietJob (g : Group) : Nat × Nat := (g.ctx, g.jobNum)

/-- A QUIET of a job that is not decided. -/
def Dev.quietWaits (d : Dev) (ctx job : Nat) (r : ThreadRef) (t : Thread) : Bool :=
  ((d.groupOf r).any fun g => g.quietJob = (ctx, job)) &&
    match t.wait with
    | .quiet _ _ none => true
    | _ => false

/-- Give a status to every waiting QUIET of a job whose place is before one. -/
def Dev.deliverQuiet (d : Dev) (ctx job upTo status : Nat) : Dev :=
  d.mapWarps fun g w =>
    if d.quietWaits ctx job (.warp g.gid w.wid) w then
      match w.wait with
      | .quiet s dl none => if s < upTo then { w with wait := .quiet s dl (some status) } else w
      | _ => w
    else w

/-- Whether a delivered status reached some QUIET. -/
def Dev.anyQuiet (d : Dev) (ctx job upTo : Nat) : Bool :=
  d.groups.any fun g => g.warps.any fun w => d.quietWaits ctx job (.warp g.gid w.wid) w &&
    match w.wait with
    | .quiet s _ none => decide (s < upTo)
    | _ => false

def Dev.dropTraverse (d : Dev) (ctx job : Nat) : Dev :=
  { d with traverses := d.traverses.filter fun t => !(t.ctx = ctx && t.job = job) }

/-- The decision after pass 2 (R161, R163): the QUIETs that issued before pass 1 began get the status, those of other packages by a
report; when some were decided with status 1, the lossy bits read in pass 2 are cleared (log 21). -/
def Dev.decision (d : Dev) (t : Traverse) : Dev :=
  let d := d.dropTraverse t.ctx t.job
  let stable := t.injected = t.firstInj && t.consumed = t.firstCon && t.injected = t.consumed && !t.activity && !t.doubt
  if !stable then d
  else
    let status := t.lossy.toNat
    let clear := t.lossy && (d.anyQuiet t.ctx t.job t.start || !t.asks.isEmpty)
    let d := d.deliverQuiet t.ctx t.job t.start status
    let d := if clear then d.clearRead t.ctx t.job else d
    let decided := fun (a : Ask) => a.ctx = t.ctx && a.job = t.job && t.asks.any fun x => x.1 = a.pkg && a.upTo ≤ x.2
    let d := { d with asks := d.asks.filter fun a => !decided a }
    ((d.span t.ctx).filter fun p => p ≠ d.pkgNum).foldl (fun d p =>
      let upTo := (t.asks.filter fun x => x.1 = p).foldl (fun m x => if m ≤ x.2 then x.2 else m) 0
      d.sendPlain 0 ⟨10, t.ctx, t.job, t.ctx, p, status, 0, 9⟩ 0 (.decided upTo clear)) d

/-- Add a report to a running pass. -/
def Traverse.add (t : Traverse) (n : Nat) (s : Sums) : Traverse :=
  { t with packages := t.packages + n, injected := t.injected + s.injected, consumed := t.consumed + s.consumed,
           doubt := t.doubt || s.doubt, activity := t.activity || s.activity, lossy := t.lossy || s.lossy }

/-- Start a pass at the root: this package's entries are read, the other packages are probed. Pass 1 takes the traverse's place, and
the QUIETs of other packages that it decides for (R162). -/
def Dev.startPass (d : Dev) (t : Traverse) (pass : Nat) : Traverse × Dev :=
  let (place, d) := d.bump
  let asks := (d.asks.filter fun a => a.ctx = t.ctx && a.job = t.job && a.upTo ≠ 0 && decide (d.now ≤ a.deadline)).map
    fun a => (a.pkg, a.upTo)
  let t := if pass = 1 then { t with start := place, asks := asks } else t
  let (s, d) := (d.spend 0 3).readJob t.ctx t.job pass
  let t : Traverse := { t with pass := pass, passStart := d.now, packages := 0, injected := 0, consumed := 0, doubt := false,
                               activity := false, lossy := false }
  let d := ((d.span t.ctx).filter fun p => p ≠ d.pkgNum).foldl (fun d p =>
    d.sendPlain 0 ⟨9, t.ctx, t.job, t.ctx, p, pass, 0, 1⟩ 0 .none) d
  (t.add 1 s, d)

/-- Keep a running traverse, or, when its pass is complete, go on: pass 2, or the decision. A total that passes the span
restarts it (R165). -/
def Dev.putTraverse (d : Dev) (t : Traverse) : Dev :=
  let d := d.dropTraverse t.ctx t.job
  let n := (d.span t.ctx).length
  let keep := fun (d : Dev) (t : Traverse) => { d with traverses := t :: d.traverses }
  if t.packages < n then keep d t
  else if n < t.packages then let (t, d) := d.startPass t 1; keep d t
  else if t.pass = 1 then
    let (t, d) := d.startPass { t with firstInj := t.injected, firstCon := t.consumed } 2
    if t.packages < n then keep d t else d.decision t
  else d.decision t

/-- Start a traverse of a job at its root, when none runs. -/
def Dev.startTraverse (d : Dev) (ctx job : Nat) : Dev :=
  if d.traverses.any fun t => t.ctx = ctx && t.job = job then d
  else
    let (t, d) := d.startPass ⟨ctx, job, 1, 0, d.now, 0, 0, 0, false, false, false, 0, 0, []⟩ 1
    d.putTraverse t

/-- The jobs of this root for which a QUIET waits, here or on another package, while no traverse of them runs (R161, R162). -/
def Dev.quietJobs (d : Dev) : List (Nat × Nat) :=
  let here := d.groups.filterMap fun g =>
    if g.warps.any fun w => d.quietWaits g.ctx g.jobNum (.warp g.gid w.wid) w then some g.quietJob else none
  let away := (d.asks.filter fun a => a.upTo ≠ 0 && decide (d.now ≤ a.deadline)).map fun a => (a.ctx, a.job)
  ((here ++ away).eraseDups).filter fun j =>
    d.root j.1 = d.pkgNum && !(d.traverses.any fun t => t.ctx = j.1 && t.job = j.2)

/-- Start the traverse of a job, or have it wait for the next period of the budget (R419). -/
def Dev.startPeriodic (d : Dev) (j : Nat × Nat) : Dev :=
  if d.hasBudget 0 3 then d.startTraverse j.1 j.2
  else { d with periodic := if d.periodic.contains j then d.periodic else d.periodic ++ [j] }

/-- The traverses that waiting QUIETs ask for, and the periodic ones that were put off, start as far as the budget allows (R161, R162,
R419). -/
def Dev.startAsked (d : Dev) : Dev :=
  let d := d.quietJobs.foldl (fun d j => if d.hasBudget 0 3 then d.startTraverse j.1 j.2 else d) d
  if d.periodic.isEmpty then d else d.periodic.foldl Dev.startPeriodic { d with periodic := [] }

/-- A QUIET's traverse: the root starts it when none of the job runs and the budget allows; another package asks the root for it
(R162; the spec gives no message for that, log 21). -/
def Dev.demandTraverse (d : Dev) (ctx job place deadline : Nat) : Dev :=
  if d.root ctx = d.pkgNum then
    (if (d.traverses.any fun t => t.ctx = ctx && t.job = job) || !d.hasBudget 0 3 then d else d.startTraverse ctx job)
  else
    d.sendPlain 0 ⟨9, ctx, job, ctx, d.root ctx, 0, 0, 16⟩ 0 (.ask (BitVec.ofNat 64 (place + 1)) (deadline - d.now))

/-- An ask of another package reaches the root. -/
def Dev.addAsk (d : Dev) (a : Ask) : Dev :=
  if d.root a.ctx ≠ d.pkgNum || d.asks.contains a then d
  else
    let d := { d with asks := a :: d.asks.filter fun x => decide (d.now ≤ x.deadline) }
    if a.upTo = 0 then d else d.startAsked

/-- The jobs with a nonzero entry here. -/
def Dev.entryJobs (d : Dev) : List (Nat × Nat) :=
  (d.dies.flatMap fun k => (k.jobs.filter fun j => j.injected ≠ 0 || j.consumed ≠ 0).map fun j => (j.ctx, j.job)).eraseDups

/-- The jobs of this root with a nonzero entry here, or on a package that has said so. -/
def Dev.activeJobs (d : Dev) : List (Nat × Nat) :=
  ((d.entryJobs ++ (d.asks.filter fun a => a.upTo = 0).map fun a => (a.ctx, a.job)).eraseDups).filter fun p => d.root p.1 = d.pkgNum

/-! ## Events -/

/-- The units that wait for the next period when one ends: a patrol read, which is due at all times (log 22), a POISONCMD write, a migration's copy, the traverse of a
waiting QUIET (R419). -/
def Dev.waitingUnits (d : Dev) (die n : Nat) : Nat :=
  if d.hasBudget die n then 0
  else if n = 1 then 1
  else if n = 5 then (match d.regBus with | w :: _ => if w.reg = .poisoncmd die then 1 else 0 | [] => 0)
  else if n = 4 then (if (d.die die).migration.isSome then 1 else 0)
  else if n = 3 && die = 0 then d.quietJobs.length + d.periodic.length
  else 0

/-- ACTIVITY_PERIOD (R419): a period ends, what it deferred is shown, and what was deferred may go on. -/
def execActivityPeriod (die activity : Nat) (s : State) : Out :=
  happen s fun d =>
    match (d.die die).budgets[activity]? with
    | some b =>
      let period := 1000 * max 1 (bits (d.reg (.abud die activity)) 43 32)
      if 4 ≤ die || d.now < b.since + period then none
      else
        let shown := b.deferred + d.waitingUnits die activity
        some (d.onDie die fun k => { k with budgets := k.budgets.set activity ⟨0, 0, shown, d.now⟩ })
    | none => none

/-- TRAVERSE_PERIODIC (R162, R419): the FABCTL period has passed; a traverse of every job of this root with a nonzero entry starts, or
waits for budget; the roots of the other jobs with a nonzero entry here are told of it. -/
def execTraversePeriodic (s : State) : Out :=
  happen s fun d =>
    let period := bits (d.reg .fabctl) 11 0
    if !d.on || period = 0 || d.now < d.lastPeriodic + period * 1000 then none
    else
      let jobs := d.activeJobs
      let told := (d.entryJobs.filter fun j => d.root j.1 ≠ d.pkgNum).foldl (fun d j =>
        d.sendPlain 0 ⟨9, j.1, j.2, j.1, d.root j.1, 0, 0, 16⟩ 0 (.ask 0 0))
        { d with lastPeriodic := d.now, asks := d.asks.filter fun a => a.upTo ≠ 0 }
      some (jobs.foldl Dev.startPeriodic told)

/-- TRAVERSE_PASS_TIMEOUT (R160): 50 µs without every report; the traverse starts again from pass 1. -/
def execTraversePassTimeout (ctx job : Nat) (s : State) : Out :=
  happen s fun d =>
    match d.traverses.find? fun t => t.ctx = ctx && t.job = job with
    | some t =>
      if d.now < t.passStart + 50000 then none
      else
        let d := d.dropTraverse ctx job
        let (t, d) := d.startPass t 1
        some (d.putTraverse t)
    | none => none

end Sys2Proof.Machine
end

