-- ==== Sys2Proof/Machine/Sync.lean ====
section
/-! DEFINITION. Barriers, fork and rendezvous, the baton, QUIET and SIGNAL (R349 to R358, R208 to R212, R480). -/

namespace Sys2Proof.Machine

/-- The form of a class-5 instruction that acts once for its warp: nothing without a taking-part lane (R331). -/
def warpOp (s : State) (g : Guard) (act : ThreadRef → Thread → Group → Dev → Dev) : Out :=
  runFor s fun r t d =>
    if t.taking g = 0 then d.retire r 1
    else match d.groupOf r with
      | some gr => act r t gr d
      | none => d.raise r trapIllegal

/-- The warp number of a party. -/
def widOf : ThreadRef → Nat
  | .warp _ wid => wid
  | _ => 0

/-! ## Waiting on a barrier (R139, R352) -/

/-- The phase operand of a wait: the low bit of v, or of the uniform register it names. -/
def Thread.phaseOf (t : Thread) (u : BitVec 1) (v : BitVec 5) : Bool := if u = 1 then (t.sreg v.toNat).getLsbD 0 else v.getLsbD 0

/-- The acquire of a wait that ends, and the next instruction. -/
def Dev.endWait (d : Dev) (r : ThreadRef) (scope : Nat) (spans : List Span) (whole : Bool) : Dev :=
  (d.acquireBarrier (d.coreOf r) (d.tagOf r) scope spans whole).retire r 1

/-- Wait for a phase other than `ph`: at once when the barrier is past it, with the spans of its last completion. -/
def Dev.waitBar (d : Dev) (r : ThreadRef) (ref : BarRef) (ph : Bool) : Dev :=
  match d.bar ref with
  | none => d.raise r trapIllegal
  | some b =>
    if b.phase ≠ ph then d.endWait r (max ref.scope b.lastSig) b.lastSpans b.lastWhole else d.hold r (.barrier ref ph)

/-- The wait instruction: a released warp goes on, a waiting one waits on. -/
def Dev.barWait (d : Dev) (r : ThreadRef) (t : Thread) (ref : BarRef) (ph : Bool) : Dev :=
  match t.wait with
  | .released spans whole scope => d.endWait r scope spans whole
  | .barrier _ _ => d
  | _ => d.waitBar r ref ph

/-- A warp's arrival, as a release (R139), held with a wait until it may be made: ILLEGAL where the barrier is uninitialised. -/
def Dev.barArrive (d : Dev) (r : ThreadRef) (t : Thread) (ref : BarRef) (w : Wait) (go : Dev → Dev) : Dev :=
  let a : Arrival := { Arrival.plain with member := match ref with
    | .group _ _ => some (widOf r)
    | _ => none }
  d.afterReleaseIn r t w fun d =>
    match d.arrive ref a with
    | some d => go d
    | none => d.raise r trapIllegal

/-- The phase that an arrive-and-wait instruction took first (R352). -/
def Dev.syncPhase (d : Dev) (t : Thread) (ref : BarRef) : Bool :=
  match t.wait with
  | .arriving ph => ph
  | _ => ((d.bar ref).map fun b => b.phase).getD false

/-- The arrive-and-wait instruction: the phase is taken first, and kept while the arrival waits as a release (R352). -/
def Dev.barSync (d : Dev) (r : ThreadRef) (t : Thread) (ref : BarRef) : Dev :=
  match t.wait with
  | .released spans whole scope => d.endWait r scope spans whole
  | .barrier _ _ => d
  | _ =>
    let ph := d.syncPhase t ref
    d.barArrive r t ref (.arriving ph) fun d => d.waitBar r ref ph

/-! ## Barriers of the group (R351, R352) -/

/-- The group's entry in its die's group table, allocated at the first BAR.INIT: none while all are held (R350, R351). -/
def Dev.groupEntry (d : Dev) (g : Group) : Option (Nat × BitVec 16 × Dev) :=
  let die := g.core.die
  match (d.die die).groupTable.find? fun x => x.2.2 = some g.gid with
  | some (e, gen, _) => some (e, gen, d)
  | none =>
    let table := (d.die die).groupTable
    match (upFrom 0 4096).find? fun e => !(table.any fun x => x.1 = e && x.2.2.isSome) with
    | none => none
    | some e =>
      let gen := ((table.find? fun x => x.1 = e).map fun x => x.2.1).getD 0 + 1
      let d := d.onDie die fun k => { k with groupTable := (e, gen, some g.gid) :: k.groupTable.filter fun x => x.1 ≠ e }
      some (e, gen, d.onGroup g.gid fun g => { g with gtEntry := some e })

/-- The die whose group table holds a group's entry: where it executed BAR.INIT first (R350). -/
def Dev.entryDie (d : Dev) (g : Group) : Nat :=
  ((d.dies.find? fun k => k.groupTable.any fun x => x.2.2 = some g.gid).map fun k => k.idx).getD g.core.die

/-- BAR.INIT (R351). -/
def execBarInit (b : BitVec 4) (e h : BitVec 5) (g : Guard) (s : State) : Out :=
  warpOp s g fun r t gr d =>
    let n := (t.sreg e.toNat).toNat
    let ref := BarRef.group gr.gid b.toNat
    if n < 1 || 1023 < n || d.barBusy ref then d.raise r trapIllegal
    else
      let die := d.entryDie gr
      match (match (d.die die).groupTable.find? fun x => x.2.2 = some gr.gid with
        | some (e, gen, _) => some (e, gen, d)
        | none => d.groupEntry gr) with
      | none => d.hold r .retry
      | some (entry, gen, d) =>
        let v := (BarHandle.mk d.pkgNum die entry b.toNat gen).word
        let d := d.initBar ref n
        (d.onThread r fun t => (t.setS h.toNat v.lo).setS (h.toNat + 1) v.hi).retire r 1

/-- BAR.ARR (R352). -/
def execBarArr (b g : BitVec 4) (s : State) : Out :=
  warpOp s g fun r t gr d => d.barArrive r t (.group gr.gid b.toNat) .retry fun d => d.retire r 1

/-- BAR.WAIT (R352). -/
def execBarWait (b : BitVec 4) (u : BitVec 1) (v : BitVec 5) (g : Guard) (s : State) : Out :=
  warpOp s g fun r t gr d => d.barWait r t (.group gr.gid b.toNat) (t.phaseOf u v)

/-- BAR.SYNC (R352). -/
def execBarSync (b g : BitVec 4) (s : State) : Out :=
  warpOp s g fun r t gr d => d.barSync r t (.group gr.gid b.toNat)

/-! ## Wider barriers (R353, R480) -/

/-- The barrier of a scope that a group's warp names; none where there is none for it (R206). -/
def wideBar (g : Group) (scope n : BitVec 3) : Option BarRef :=
  if scope = 1 then (if g.gangSize ≤ 1 then none else some (.gang g.gang n.toNat))
  else if scope = 2 then some (.wide 2 g.core.die g.ctx n.toNat)
  else if scope = 3 then some (.wide 3 0 g.ctx n.toNat)
  else some (.wide 4 0 g.ctx n.toNat)

/-- Whether an operation on a pod barrier goes to another package's root (R480). -/
def Dev.podRemote (d : Dev) (g : Group) (scope : BitVec 3) : Bool := scope = 4 && d.root g.ctx ≠ d.pkgNum

/-- Send a pod-barrier arrival or init to the root, when a message may be injected; until then the warp is held with a wait. -/
def Dev.sendPod (d : Dev) (r : ThreadRef) (g : Group) (operand : Nat) (p : Payload) (w : Wait) (go : Dev → Dev) : Dev :=
  let die := g.core.die
  if d.mayInject die (g.job / 256) g.jobNum then
    go (d.inject die ⟨5, g.job / 256, g.jobNum, g.ctx, d.root g.ctx, operand, 0, 8⟩ p (.bar r))
  else d.hold r w

/-- BARS.INIT (R353, R480). -/
def execBarsInit (scope n : BitVec 3) (v : BitVec 5) (g : Guard) (s : State) : Out :=
  warpOp s g fun r t gr d =>
    let e := (t.sreg v.toNat).toNat
    match wideBar gr scope n with
    | none => d.raise r trapIllegal
    | some ref =>
      if e < 1 || (if scope = 1 then 1023 else 2 ^ 24 - 1) < e then d.raise r trapIllegal
      else if d.podRemote gr scope then d.sendPod r gr 1 (.podInit n.toNat e) .retry fun d => d.retire r 1
      else if d.barBusy ref then d.raise r trapIllegal
      else (d.initBar ref e).retire r 1

/-- BARS.ARR (R353, R480). -/
def execBarsArr (scope n : BitVec 3) (g : Guard) (s : State) : Out :=
  warpOp s g fun r t gr d =>
    match wideBar gr scope n with
    | none => d.raise r trapIllegal
    | some ref =>
      if d.podRemote gr scope then
        d.afterRelease r t fun d => d.sendPod r gr 0 (.podArrive n.toNat) .retry fun d => d.retire r 1
      else d.barArrive r t ref .retry fun d => d.retire r 1

/-- BARS.WAIT (R353, R480). -/
def execBarsWait (scope n : BitVec 3) (u : BitVec 1) (v : BitVec 5) (g : Guard) (s : State) : Out :=
  warpOp s g fun r t gr d =>
    match wideBar gr scope n with
    | none => d.raise r trapIllegal
    | some ref => d.barWait r t ref (t.phaseOf u v)

/-- BARS.SYNC (R353, R480): away from the root it compares with the image's phase. -/
def execBarsSync (scope n : BitVec 3) (g : Guard) (s : State) : Out :=
  warpOp s g fun r t gr d =>
    match wideBar gr scope n with
    | none => d.raise r trapIllegal
    | some ref =>
      if d.podRemote gr scope then
        match t.wait with
        | .released spans whole scope => d.endWait r scope spans whole
        | .barrier _ _ => d
        | _ =>
          let ph := d.syncPhase t ref
          d.afterReleaseIn r t (.arriving ph) fun d =>
            d.sendPod r gr 0 (.podArrive n.toNat) (.arriving ph) fun d => d.waitBar r ref ph
      else d.barSync r t ref

/-! ## Fork and rendezvous (R208, R211, R212, R354) -/

/-- The program of a core's copy or matrix sequencer. -/
def Core.seq (k : Core) (copy : Bool) : Option SeqProg := if copy then k.copySeq else k.matSeq
def Core.setSeq (k : Core) (copy : Bool) (p : Option SeqProg) : Core :=
  if copy then { k with copySeq := p } else { k with matSeq := p }

/-- The thread of a new sequencer program: the forking warp's uniform registers, predicates false, no flag pending, one
entry at its first clause (R211). -/
def seqThread (t : Thread) (target : DWord) : Thread :=
  { wid := 0, slot := 0, lanes := [⟨[], [], 0, 0⟩], s := t.s, arrays := [], frontier := [⟨target, 0xFFFF, 1, 0, target⟩],
    loopCount := 0, clause := none, flags := List.replicate 12 0, unack := 0, loss := false, tvec := 0, tframe := 0,
    tcause := 0, pend := false, masked := false, handlers := [], wait := .none, trapped := none, seqFaults := [],
    runCrc := 0, frame := none, stamp := 0, freed := false, ended := false }

/-- The entries still queued of a sequencer's program that is replaced: they go on for the warp that forked it, and what they would
write to the program's registers is gone with it (R136, R211). -/
def Dev.orphanSeq (d : Dev) (c : CoreRef) (copy : Bool) : Dev :=
  match (d.core c).seq copy with
  | none => d
  | some p =>
    let mat := fun (e : MatrixEntry) =>
      if e.thread = .seq c copy then { e with thread := .warp p.gid p.forker, flag := none, orphan := true } else e
    let cpy := fun (e : CopyEntry) =>
      if e.thread = some (.seq c copy) then
        { e with thread := some (.warp p.gid p.forker), flag := none, st := none, start := e.start.orElse fun _ => some p.thread.runCrc,
                 orphan := true }
      else e
    d.onCore c fun k => { k with matrix := k.matrix.map mat, copy := k.copy.map cpy }

/-- FORK (R211, R354): it waits while the sequencer runs a program; forking the matrix sequencer needs the baton and
passes it (R208). -/
def execFork (e : BitVec 1) (offset : BitVec 20) (s : State) : Out :=
  runFor s fun r t d =>
    match d.groupOf r, t.clause with
    | some g, some c =>
      let copy := e = 1
      let busy := ((d.core g.core).seq copy).any fun p => !p.ended
      if !copy && (d.core g.core).baton ≠ .warp g.gid (widOf r) then d.raise r (.plain causeBaton 0)
      else if busy then d.hold r .retry
      else
        let p : SeqProg := ⟨seqThread t (c.target offset), g.gid, widOf r, false⟩
        let d := (d.orphanSeq g.core copy).onCore g.core fun k =>
          let k := k.setSeq copy (some p)
          if copy then k else { k with baton := .seq g.gid }
        d.retire r 1
    | _, _ => d.raise r trapIllegal

/-- Whether entries that a sequencer program admitted are still queued, or its flags pending (R136, R251). -/
def Dev.seqPending (d : Dev) (c : CoreRef) (copy : Bool) : Bool :=
  let k := d.core c
  (k.matrix.any fun e => e.thread = .seq c copy) || (k.copy.any fun e => e.thread = some (.seq c copy)) ||
    ((k.seq copy).any fun p => p.thread.flags.any fun n => n != 0)

/-- Whether entries of a replaced program that a warp forked are still queued. -/
def Dev.orphans (d : Dev) (c : CoreRef) (copy : Bool) (r : ThreadRef) : Bool :=
  if copy then (d.core c).copy.any fun e => e.orphan && e.thread = some r
  else (d.core c).matrix.any fun e => e.orphan && e.thread = r

/-- RNDV (R212, R354): it waits for the program the warp forked and for its entries; a fault the program ended with is
raised here, with the sequencer's PC. -/
def execRndv (e : BitVec 1) (s : State) : Out :=
  runFor s fun r t d =>
    match d.groupOf r, t.clause with
    | some g, some c =>
      let copy := e = 1
      let mine := ((d.core g.core).seq copy).any fun p => p.gid = g.gid && p.forker = widOf r
      let running := mine && ((d.core g.core).seq copy).any fun p => !p.ended
      if running || (mine && d.seqPending g.core copy) || d.orphans g.core copy r then d.hold r .retry
      else
        let d := if mine then d.onCore g.core fun k => k.setSeq copy none else d
        match t.seqFaults.find? fun x => x.1 = copy with
        | some x =>
          let d := d.onThread r fun t => { t with seqFaults := t.seqFaults.filter fun y => y ≠ x }
          d.trapWarp r c.entry ⟨x.2.cause, x.2.detail, x.2.pc, 0xFF⟩ true true
        | none => d.retire r 1
    | _, _ => d.raise r trapIllegal

/-! ## The baton (R208, R355) -/

/-- BATON.TAKE (R208): at once when the warp holds it, or when it is free and no other waits before; else in order. Taken by a warp of
another group than the last, the matrix state belongs to none until that group's first entry clears it (R209). -/
def execBatonTake (s : State) : Out :=
  runFor s fun r _ d =>
    match d.groupOf r with
    | some g =>
      let me := (g.gid, widOf r)
      let k := d.core g.core
      let take := (k.baton = .warp me.1 me.2) || (k.baton = .free && (k.batonQueue.head?.getD me) = me)
      if take then
        (d.onCore g.core fun k =>
          { k with baton := .warp me.1 me.2, batonQueue := k.batonQueue.filter fun x => x ≠ me,
                   owner := if k.owner = some g.gid then k.owner else none }).retire r 1
      else
        let d := d.onCore g.core fun k =>
          { k with batonQueue := if k.batonQueue.contains me then k.batonQueue else k.batonQueue ++ [me] }
        d.hold r .baton
    | none => d.raise r trapIllegal

/-- BATON.PASS (R208, R355): to a warp of the group. -/
def execBatonPass (u : BitVec 1) (w : BitVec 5) (s : State) : Out :=
  runFor s fun r t d =>
    match d.groupOf r with
    | some g =>
      let n := if u = 1 then (t.sreg w.toNat).toNat else w.toNat
      if (d.core g.core).baton ≠ .warp g.gid (widOf r) || g.warps.length ≤ n then d.raise r (.plain causeBaton 0)
      else (d.onCore g.core fun k =>
        { k with baton := .warp g.gid n, batonQueue := k.batonQueue.filter fun x => x ≠ (g.gid, n) }).retire r 1
    | none => d.raise r trapIllegal

/-- BATON.PASS to none (R208, R355). -/
def execBatonPassNone (s : State) : Out :=
  runFor s fun r _ d =>
    match d.groupOf r with
    | some g =>
      if (d.core g.core).baton ≠ .warp g.gid (widOf r) then d.raise r (.plain causeBaton 0)
      else (d.onCore g.core fun k => { k with baton := .free }).retire r 1
    | none => d.raise r trapIllegal

/-! ## QUIET (R162, R163, R356) -/

/-- QUIET's deadline: its timeout operand in µs, or FABCTL's default, 0 taken as 1. -/
def Dev.quietDeadline (d : Dev) (us : Nat) : Nat :=
  d.now + 1000 * (if us = 0 then max 1 (bits (d.reg .fabctl) 23 12) else us)

/-- Write QUIET's status and go on. -/
def Dev.quietEnd (d : Dev) (r : ThreadRef) (q : BitVec 7) (mask : Word) (status : Nat) : Dev :=
  (d.onThread r fun t => t.mapLanes false mask fun _ l => l.set q (BitVec.ofNat 32 status)).retire r 1

/-- QUIET (R356): it takes its place among the QUIETs and traverses, asks for a traverse of its job, and waits for the decision. -/
def execQuiet (q : BitVec 7) (tm : BitVec 5) (f : BitVec 1) (g : Guard) (s : State) : Out :=
  longOp s [q] f fun r t _ d =>
    if t.taking g = 0 then d.retire r 1
    else
      match t.wait, d.groupOf r with
      | .quiet _ _ (some status), _ => d.quietEnd r q (t.taking g) status
      | .quiet _ _ none, some _ => d
      | _, some gr =>
        let (place, d) := d.bump
        let deadline := d.quietDeadline (t.sreg tm.toNat).toNat
        ((d.dropAudit r).hold r (.quiet place deadline none)).demandTraverse gr.ctx gr.jobNum place deadline
      | _, none => d.raise r trapIllegal

/-- QUIET_TIMEOUT (R163, R356): the timeout expires first: status 2, or with a zero operand the QUIETTO trap. -/
def execQuietTimeout (r : ThreadRef) (s : State) : Out :=
  happen s fun d =>
    match d.thread r with
    | none => none
    | some t =>
      match t.wait, t.head with
      | .quiet _ dl none, some (.ok (.quiet q tm _ g) _) =>
        if d.now < dl then none
        else if (t.sreg tm.toNat).toNat = 0 then some (d.raise r (.plain causeQuietTo 0))
        else some (d.quietEnd r q (t.taking g) 2)
      | _, _ => none

/-! ## SIGNAL (R357) -/

/-- SIGNAL (R357): an entry of the message queue, whose admission waits (R134); with `.rel` it waits as a release, and for the
warp's earlier entries of that queue. -/
def execSignal (h : BitVec 4) (scope : BitVec 3) (rel : BitVec 1) (g : Guard) (s : State) : Out :=
  warpOp s g fun r t gr d =>
    let v := t.kpair h.toNat
    let hd := BarHandle.ofWord v
    let die := gr.core.die
    let far := hd.pkg ≠ d.pkgNum
    let send := fun (d : Dev) =>
      let (id, d) := (d.nextId, { d with nextId := d.nextId + 1 })
      let d := d.onCore gr.core fun k => { k with msgs := k.msgs ++ [⟨id, r, gr.gid, .signal v scope.toNat (rel = 1), true, false⟩] }
      let d := if far then
          d.inject die ⟨5, gr.job / 256, gr.jobNum, gr.ctx, hd.pkg, 0, 0, 8⟩ (.signal v (rel = 1) scope.toNat) (.signal gr.core id r)
        else { d with transfers := d.transfers ++ [.signal v gr.ctx gr.core id r (rel = 1) scope.toNat] }
      (d.dropAudit r).retire r 1
    let mine := (d.core gr.core).msgs.any fun e => e.thread = r
    if d.admissionWaits r || (far && !d.mayInject die (gr.job / 256) gr.jobNum) then d.hold r .retry
    else if rel = 1 then
      (if mine then d.hold r .retry else d.afterRelease r t send)
    else send d

/-- SIGNAL_BASE_DIE_TRANSFER (R350, R357): the signal arrives at the barrier of the group it names, resident, saved or
moved; one that is refused is lost (R158). A copy's signal to this package arrives the same way. -/
def execSignalBaseDieTransfer (index : Nat) (s : State) : Out :=
  happen s fun d =>
    let drop := fun (d : Dev) => { d with transfers := d.transfers.eraseIdx index }
    match d.transfers[index]? with
    | some (.signal v ctx c e t isRel scope) =>
      (match d.arriveSignal v ctx isRel scope with
       | some d => some ((drop d).msgDone c fun x => x.id = e)
       | none => some (((drop d).markLoss t).msgDone c fun x => x.id = e))
    | some (.copySig v ctx c e) =>
      (match d.arriveSignal v ctx false 0 with
       | some d => some ((drop d).acked (.copySig c e) .none)
       | none => some ((drop d).onCopy c e fun x =>
           { x with unanswered := x.unanswered - 1, code := if x.code = 0 then 3 else x.code }))
    | _ => none

end Sys2Proof.Machine
end

