-- ==== Sys2Proof/Machine/Copy.lean ====
section
/-! DEFINITION. The Dray (R24, R37, R48, R58 to R62, R132 to R138, R360 to R363, R375 to R382, R411): admission of copy
commands, leases, the elements a command moves, its beats to other packages, its status and its signals. -/

namespace Sys2Proof.Machine

/-! ## Leases (R58 to R62) -/

/-- A lease of a die by the handle that names it, when it is granted under that generation (R60). -/
def Dev.leaseOf (d : Dev) (handle : Word) : Option (Nat × Nat × Lease) :=
  let die := (handle.extractLsb' 30 2).toNat
  let n := (handle.extractLsb' 26 4).toNat
  match (d.die die).leases[n]? with
  | some l => if l.valid && l.gen = handle.extractLsb' 0 16 && handle.extractLsb' 16 10 = 0 then some (die, n, l) else none
  | none => none

/-- The lease a handle names for a context on a die (R60). -/
def Dev.liveLease (d : Dev) (handle : Word) (die ctx : Nat) : Option (Nat × Lease) :=
  match d.leaseOf handle with
  | some (k, n, l) => if k = die && tagCtx l.tag == ctx then some (n, l) else none
  | none => none

def Dev.onLease (d : Dev) (die n : Nat) (f : Lease → Lease) : Dev := d.onDie die fun k => { k with leases := updAt k.leases n f }

/-- The bytes of a lease: what was written last, else a free value (log 3). -/
def Lease.read (l : Lease) (off : Nat) : Nat → List Byte
  | 0 => []
  | n + 1 => cellGet (Config.leaseByte l.seed off) l.data off :: l.read (off + 1) n

/-- The places of 128 KiB that no lease of a die holds, lowest first: 12 ways of 32 groups of sets (log 13). -/
def Die.freePlaces (k : Die) : List Nat :=
  (upFrom 0 384).filter fun p => !(k.leases.any fun l => l.valid && l.places.contains p)

/-- The L2 lines that stay when leases pin ways: in each set the most recently used that fit (R59). -/
def keepLines (ls : List Lease) (lines : List Line) : List Line :=
  let recent := sortBy (fun a b => decide (b.stamp ≤ a.stamp)) lines
  recent.foldl (fun kept l =>
    let set := setOf 32768 l.pa
    if (kept.filter fun x => setOf 32768 x.pa == set).length < 16 - pinnedWays ls set then kept ++ [l] else kept) []

/-- Grant a lease (R58, R59): the handle; none when there is no free lease or too little capacity. -/
def Dev.grantLease (d : Dev) (die gang : Nat) (tag : BitVec 16) (units us : Nat) : Option (Word × Dev) :=
  let k := d.die die
  let used := (k.leases.map fun l => if l.valid then l.units else 0).sum
  match (upFrom 0 16).find? fun n => (k.leases[n]?).any fun l => !l.valid with
  | none => none
  | some n =>
    let places := k.freePlaces.take units
    if (d.reg (.leasecap die)).toNat % 512 < used + units || places.length < units then none
    else
      let gen := (k.leases.getD n Lease.reset).gen + 1
      let (seed, d) := (d.free, { d with free := d.free + 1 })
      let d := d.onLease die n fun _ => ⟨true, gang, tag, units, gen, d.now + 1000 * us, places, seed, []⟩
      let d := d.onDie die fun k => { k with l2 := keepLines k.leases k.l2 }
      some (BitVec.ofNat 32 (field 30 die + field 26 n + gen.toNat), d)

/-- Whether an operand names a lease. -/
def EngineSpace.names (e : EngineSpace) (h : Word) : Bool :=
  match e with
  | .lease x _ => x = h
  | _ => false

/-- Whether a command names a lease by a handle. -/
def CopyOp.names (o : CopyOp) (h : Word) : Bool :=
  match o with
  | .copy _ _ _ dst src fill _ _ _ _ _ _ _ _ => dst.names h || (fill.isNone && src.names h)
  | .footprint _ _ _ _ _ side _ => side.names h
  | _ => false

/-- Free a lease; its contents are gone (R61). -/
def Dev.freeLease (d : Dev) (die n : Nat) : Dev :=
  d.onLease die n fun l => { l with valid := false, tag := 0, units := 0, places := [], data := [] }

/-- Whether an entry still has elements to move. -/
def CopyOp.total : CopyOp → Nat
  | .copy _ _ _ _ _ _ _ x y z _ _ _ _ => x * y * z
  | .footprint _ _ _ count _ _ tooBig => if tooBig then 0 else count
  | _ => 0

/-- A lease is released at once by expiry or revocation (R61): commands that name it fail with code 4 and move no more. -/
def Dev.endLease (d : Dev) (die n : Nat) : Dev :=
  match (d.die die).leases[n]? with
  | none => d
  | some l =>
    if !l.valid then d
    else
      let h : Word := BitVec.ofNat 32 (field 30 die + field 26 n + l.gen.toNat)
      let stop := fun (e : CopyEntry) =>
        if e.op.names h && !e.done then { e with code := if e.code = 0 then 4 else e.code, pos := e.op.total, beat := none } else e
      (d.mapCores fun k => if k.ref.die = die then { k with copy := k.copy.map stop } else k).freeLease die n

/-- LEASE_EXPIRY (R61): the timer of a lease has run out. -/
def execLeaseExpiry (die lease : Nat) (s : State) : Out :=
  happen s fun d =>
    match (d.die die).leases[lease]? with
    | some l => if l.valid && decide (l.expiry ≤ d.now) then some (d.endLease die lease) else none
    | none => none

/-! ## Operands and their checks (R375, R376) -/

/-- What a copy operand names: its space's code and its pair's value (R375). -/
def spaceOf (code : BitVec 2) (v : DWord) : EngineSpace :=
  if code = 0 then .virt v.toNat else if code = 1 then .scr v.lo.toNat else .lease v.lo v.hi.toNat

/-- Whether two spans of one space meet. -/
def spansMeet (a b : List (Nat × Nat)) : Bool :=
  a.any fun x => b.any fun y => decide (x.1 < y.1 + y.2) && decide (y.1 < x.1 + x.2) && x.2 != 0 && y.2 != 0

/-- The rows of a command: offset and bytes of each. -/
def rowSpans (size x y z p pp : Nat) : List (Nat × Nat) :=
  (upFrom 0 z).flatMap fun k => (upFrom 0 y).map fun j => ((j * p + k * pp) * size, x * size)

/-- Bytes from a base to the end of the last element; 0 when nothing is copied. -/
def extentOf (size x y z p pp : Nat) : Nat := if x * y * z = 0 then 0 else ((y - 1) * p + (z - 1) * pp + x) * size

/-- Two operands in the same space: the offsets they are compared by (R376). Scratch addresses of one member compare by their
offsets. -/
def Dev.sameSpace (d : Dev) (g : Option Group) (a b : EngineSpace) : Option (Nat × Nat) :=
  match a, b with
  | .virt x, .virt y => some (x, y)
  | .scr x, .scr y =>
    (match (g.bind fun g => d.scratchAt g x 0), (g.bind fun g => d.scratchAt g y 0) with
     | some p, some q => if p.1 = q.1 then some (p.2, q.2) else none
     | _, _ => none)
  | .lease h x, .lease k y => if h = k then some (x, y) else none
  | _, _ => none

/-- The failure of one operand over `n` bytes of elements of `size` bytes: ILLEGAL, BOUNDS, ALIGN. -/
def Dev.operandBad (d : Dev) (g : Option Group) (die ctx : Nat) (e : EngineSpace) (n size : Nat) : List TrapInfo :=
  match e with
  | .virt a =>
    (if a / 2 ^ 54 = 2 then [trapAdmit 1] else []) ++ (if a % size ≠ 0 then [warpTrap causeAlign 0 (BitVec.ofNat 64 a)] else [])
  | .scr a =>
    (match g with
     | none => [trapAdmit 1]
     | some g => if n ≠ 0 && (d.scratchAt g a n).isNone then [warpTrap causeBounds 0 (BitVec.ofNat 64 a)] else []) ++
      (if a % size ≠ 0 then [warpTrap causeAlign 0 (BitVec.ofNat 64 a)] else [])
  | .lease h off =>
    (match d.liveLease h die ctx with
     | some (_, l) => if l.units * 131072 < off + n then [.plain causeBounds 0] else []
     | none => [.plain causeBounds 0]) ++
      (if off % size ≠ 0 then [warpTrap causeAlign 0 (BitVec.ofNat 64 off)] else [])

/-- The first of several failures: ILLEGAL, then BOUNDS, then ALIGN (R80, log 5). -/
def firstBad (l : List TrapInfo) : Option TrapInfo :=
  ((l.find? fun k => k.cause = causeIllegal).orElse fun _ => l.find? fun k => k.cause = causeBounds).orElse fun _ => l.head?

/-- The command of DCOPY, DCOPY.CK or DFILL from its operands, or the check that fails (R375, R376). `pair` and `shape` read
the operands. -/
def Dev.copyCommand (d : Dev) (g : Option Group) (die ctx : Nat) (ck fill : Bool) (dk sk : BitVec 3) (dsp ssp : BitVec 2)
    (sh : Shape) (pair : Nat → DWord) (shape : ShapeField → Nat) : CopyOp ⊕ TrapInfo :=
  let x := shape sh.sh0
  let y := shape sh.sh1
  let z := shape sh.sh2
  let sp := shape sh.sh3
  let spp := shape sh.sh4
  let dp := shape sh.sh5
  let dpp := shape sh.sh6
  let v := sh.sh7.value.toNat
  let size := 2 ^ (v % 8)
  let dst := spaceOf dsp (pair dk.toNat)
  let src := if fill then EngineSpace.virt 0 else spaceOf ssp (pair sk.toNat)
  let far : Bool := (y > 1 && dp < x) || (z > 1 && dpp < y * dp) || Nat.blt (2 ^ 31) (x * y * z * size)
  let meet : Bool := match (if fill || far then none else d.sameSpace g dst src) with
    | some (a, b) =>
      let da := extentOf size x y z dp dpp
      let sa := extentOf size x y z sp spp
      spansMeet [(a, da)] [(b, sa)] && spansMeet ((rowSpans size x y z dp dpp).map fun r => (a + r.1, r.2))
        ((rowSpans size x y z sp spp).map fun r => (b + r.1, r.2))
    | none => false
  let bad := (if fill && (ssp ≠ 0 || sp ≠ 0 || spp ≠ 0) then [trapAdmit 1] else []) ++
    (if far then [.plain causeBounds 0] else []) ++
    d.operandBad g die ctx dst (if far then 0 else extentOf size x y z dp dpp) size ++
    (if fill then [] else d.operandBad g die ctx src (if far then 0 else extentOf size x y z sp spp) size) ++
    (if meet then [.plain causeBounds 0] else [])
  match firstBad bad with
  | some k => .inr k
  | none => .inl (.copy ck (bitOf v 8) (bitOf v 9) dst src (if fill then some (pair sk.toNat) else none) size x y z sp spp dp dpp)

/-! ## Admission -/

/-- An entry of the copy queue before its command is filled in. -/
def Dev.copyEntry (d : Dev) (r : ThreadRef) (g : Group) (flag : Option Nat) (op : CopyOp) : CopyEntry :=
  { id := 0, thread := some r, gid := some g.gid, ctx := g.ctx, tag := mkTag g.ctx g.epoch, job := g.job, flag := flag,
    st := none, arrive := none, signal := none, op := op, pos := 0, unanswered := 0, code := 0, done := false,
    sigSent := false, start := none, expect := none, asked := none, late := [], noRdc := [], noFill := false, lines := [],
    beat := none, cover := (0, 0), written := [], record := none, began := d.now, walked := [], wrote := false, orphan := false }

/-- Admit an entry to a core's copy queue. -/
def Dev.pushCopy (d : Dev) (c : CoreRef) (e : CopyEntry) : Dev :=
  let (id, d) := (d.nextId, { d with nextId := d.nextId + 1 })
  d.onCore c fun k => { k with copy := k.copy ++ [{ e with id := id }] }

/-- Admit a party's entry: it waits as R134 states, tags its flag, and the instruction is done. -/
def Dev.admitCopy (d : Dev) (r : ThreadRef) (g : Group) (len : Nat) (e : CopyEntry) : Dev :=
  if d.admissionWaits r then d.hold r .retry
  else ((d.pushCopy g.core e).onThread r fun t => t.tagFlag e.flag).retire r len

/-- The form of a class-4 instruction: nothing is admitted without a taking-part lane; a full flag makes it wait. -/
def copyOp (s : State) (len : Nat) (f : BitVec 1) (g : Guard) (act : ThreadRef → Thread → Group → Dev → Dev) : Out :=
  longOp s [] f fun r t _ d =>
    if t.taking g = 0 then d.retire r len
    else match d.groupOf r with
      | some gr => act r t gr d
      | none => d.raise r trapIllegal

/-- The arrive bit and barrier of sh7 (R375). -/
def arriveOf (sh : Shape) : Option Nat :=
  if bitOf sh.sh7.value.toNat 3 then some (sh.sh7.value.toNat / 16 % 16) else none

/-- The signal handle of sg and h. -/
def Thread.signalHandle (t : Thread) (sg : BitVec 1) (h : BitVec 3) : Option DWord :=
  if sg = 1 then some (t.kpair (8 + h.toNat)) else none

/-- DCOPY, DCOPY.CK and DFILL (R375 to R378). -/
def copyInstr (s : State) (ck fill : Bool) (dk sk : BitVec 3) (dsp ssp : BitVec 2) (st : BitVec 5) (sg : BitVec 1)
    (h : BitVec 3) (f : BitVec 1) (g : Guard) (sh : Shape) : Out :=
  copyOp s 5 f g fun r t gr d =>
    match d.copyCommand (some gr) gr.core.die gr.ctx ck fill dk sk dsp ssp sh t.kpair t.shape with
    | .inr k => d.raise r k
    | .inl op =>
      let first := bitOf sh.sh7.value.toNat 8
      let last := bitOf sh.sh7.value.toNat 9
      d.admitCopy r gr 5 { d.copyEntry r gr (t.flagOf f) op with
        st := some st, arrive := arriveOf sh, signal := t.signalHandle sg h
        start := if ck && first then some (t.sreg (st.toNat + 1)) else none
        expect := if ck && last then some (t.sreg (st.toNat + 2)) else none }

/-- DCOPY (R377). -/
def execDcopy (dk sk : BitVec 3) (dsp ssp : BitVec 2) (st : BitVec 5) (sg : BitVec 1) (h : BitVec 3) (f : BitVec 1)
    (g : Guard) (sh : Shape) (s : State) : Out := copyInstr s false false dk sk dsp ssp st sg h f g sh

/-- DCOPY.CK (R378). -/
def execDcopyCk (dk sk : BitVec 3) (dsp ssp : BitVec 2) (st : BitVec 5) (sg : BitVec 1) (h : BitVec 3) (f : BitVec 1)
    (g : Guard) (sh : Shape) (s : State) : Out := copyInstr s true false dk sk dsp ssp st sg h f g sh

/-- DFILL (R377). -/
def execDfill (dk sk : BitVec 3) (dsp ssp : BitVec 2) (st : BitVec 5) (sg : BitVec 1) (h : BitVec 3) (f : BitVec 1)
    (g : Guard) (sh : Shape) (s : State) : Out := copyInstr s false true dk sk dsp ssp st sg h f g sh

/-- The interval of x + c over the taking-part lanes (R379). -/
def Thread.takingIvl (t : Thread) (x : BitVec 4) (c : Int) (mask : Word) : Ivl :=
  match maskLanes mask with
  | [] => ivlTop
  | n :: r => r.foldl (fun i m => ivlUnion i ((t.lane m).indexIvl x c)) ((t.lane n).indexIvl x c)

/-- DGATHER and DSCAT (R379): the footprint of an array, to or from the other side. -/
def footprintInstr (s : State) (scatter : Bool) (k : BitVec 3) (arr : BitVec 4) (sp : BitVec 2) (st : BitVec 5)
    (sg : BitVec 1) (h : BitVec 3) (f : BitVec 1) (g : Guard) (sh : Shape) : Out :=
  copyOp s 5 f g fun r t gr d =>
    let x : BitVec 4 := sh.sh0.value.extractLsb' 0 4
    let c : Int := sh.sh1.value.toNat - 1024
    let a := t.arr arr
    let i := t.takingIvl x c (t.taking g)
    let e : Int := a.extent.toNat
    let j := if i = ivlTop then ⟨0, e - 1⟩ else ivlMeet i ⟨0, e - 1⟩
    let lo := if j.hi < j.lo then 0 else j.lo.toNat
    let count := (j.hi - j.lo + 1).toNat
    let size := 2 ^ a.z
    let tooBig : Bool := t.shape sh.sh2 < count
    let n := if tooBig then 0 else count * size
    let base := a.base.toNat + lo * size
    let side := spaceOf sp (t.kpair k.toNat)
    let meet := match side with
      | .virt v => spansMeet [(base, n)] [(v, n)]
      | _ => false
    let bad := (if a.base.toNat / 2 ^ 54 = 2 then [trapAdmit 1] else []) ++ d.operandBad (some gr) gr.core.die gr.ctx side n size ++
      (if meet || 2 ^ 31 < n then [.plain causeBounds 0] else [])
    match d.allotTrap r [112 + x.setWidth 7] with
    | some k => d.raise r k
    | none =>
      match (if 30 < st.toNat then some (trapAdmit 6) else firstBad bad) with
      | some k => d.raise r k
      | none =>
        let d := if a.log && !d.admissionWaits r then
            d.logFootprint gr.core (d.tagOf r) (if scatter then 3 else 2) (if count = 0 then none else some (base, count * size))
          else d
        d.admitCopy r gr 5 { d.copyEntry r gr (t.flagOf f) (.footprint scatter (.virt base) lo count a.z side tooBig) with
          st := some st, arrive := arriveOf sh, signal := t.signalHandle sg h, code := if tooBig then 7 else 0 }

/-- DGATHER (R379). -/
def execDgather (k : BitVec 3) (arr : BitVec 4) (sp : BitVec 2) (st : BitVec 5) (sg : BitVec 1) (h : BitVec 3) (f : BitVec 1)
    (g : Guard) (sh : Shape) (s : State) : Out := footprintInstr s false k arr sp st sg h f g sh

/-- DSCAT (R379). -/
def execDscat (k : BitVec 3) (arr : BitVec 4) (sp : BitVec 2) (st : BitVec 5) (sg : BitVec 1) (h : BitVec 3) (f : BitVec 1)
    (g : Guard) (sh : Shape) (s : State) : Out := footprintInstr s true k arr sp st sg h f g sh

/-- DLEASE, a grant (R380). -/
def execDlease (d sz du : BitVec 5) (pd : BitVec 3) (f : BitVec 1) (g : Guard) (s : State) : Out :=
  copyOp s 1 f g fun r t gr dev => dev.admitCopy r gr 1
    (dev.copyEntry r gr (t.flagOf f) (.lease false d (t.sreg sz.toNat) (t.sreg du.toNat) pd (t.taking g)))

/-- DLEASE, a renewal (R380): the handle is read at admission (R360). -/
def execDleaseRenew (d du : BitVec 5) (pd : BitVec 3) (f : BitVec 1) (g : Guard) (s : State) : Out :=
  copyOp s 1 f g fun r t gr dev => dev.admitCopy r gr 1
    (dev.copyEntry r gr (t.flagOf f) (.lease true d (t.sreg d.toNat) (t.sreg du.toNat) pd (t.taking g)))

/-- DUNLEASE (R380): BOUNDS for a handle of another die or with bits 25:16 nonzero. -/
def execDunlease (h : BitVec 5) (f : BitVec 1) (g : Guard) (s : State) : Out :=
  copyOp s 1 f g fun r t gr dev =>
    let v := t.sreg h.toNat
    if (v.extractLsb' 30 2).toNat ≠ gr.core.die || v.extractLsb' 16 10 ≠ 0 then dev.raise r (.plain causeBounds 0)
    else dev.admitCopy r gr 1 (dev.copyEntry r gr (t.flagOf f) (.unlease v))

/-- DSIG (R380). -/
def execDsig (b : BitVec 4) (arr sg : BitVec 1) (h : BitVec 3) (f : BitVec 1) (g : Guard) (s : State) : Out :=
  copyOp s 1 f g fun r t gr dev =>
    let a := if arr = 1 then some b.toNat else none
    if gr.signalBad a then dev.raise r (trapAdmit 1)
    else dev.admitCopy r gr 1 { dev.copyEntry r gr (t.flagOf f) .sig with arrive := a, signal := t.signalHandle sg h }

/-- DRELOC (R381): supervisor only; the descriptor is aligned to 16. -/
def execDreloc (k : BitVec 3) (st : BitVec 5) (f : BitVec 1) (g : Guard) (s : State) : Out :=
  copyOp s 1 f g fun r t gr dev =>
    let a := (t.kpair k.toNat).toNat
    if !dev.isSuper r then dev.raise r (.plain causePriv 0)
    else if a % 16 ≠ 0 then dev.raise r (warpTrap causeAlign 0 (BitVec.ofNat 64 a))
    else dev.admitCopy r gr 1 { dev.copyEntry r gr (t.flagOf f) (.reloc a) with st := some st }

/-! ## Moving bytes -/

/-- An entry that accesses some addresses meets the walker of its die (R77, R78). -/
def Dev.copyGate (d : Dev) (c : CoreRef) (e : CopyEntry) (vas : List Nat) : Gate :=
  match d.walkGate (.copy c e.id) c e.tag e.walked.contains vas with
  | .wait d => .wait (d.onCopy c e.id fun x => { x with walked := vas.map (· / 4096) ++ x.walked })
  | g => g

/-- What a read of an entry answers: bytes, a status code, a line of another package that must be asked for, or that it waits for the
walker. -/
inductive CopyRead where
  | ok (b : List Byte)
  | bad (code : Nat)
  | ask (pa : PAddr) (leaf : Leaf) (va : Nat)
  | walk
  | wait
  deriving DecidableEq, Repr

/-- Read bytes within one line of virtual addresses, once they are walked (R47, R363, R376). R24 has every host-shared operand raise
ILLEGAL, which after admission nothing raises (R360): what DRELOC's descriptor, or an address in it, names in region 2 ends the command
with code 1 as R376 says of a span that carries into it (DESIGN CHOICE, log 54). -/
def Dev.copyReadAt (d : Dev) (f : Fuses) (c : CoreRef) (e : CopyEntry) (va n : Nat) : CopyRead × Dev :=
  if va / 2 ^ 54 = 2 then (.bad 1, d)
  else
    match (d.shadowCheck va n false).translate c e.tag va false false with
    | (.xlate _, d) => (.bad 1, d)
    | (.poison, d) => (.bad 2, d)
    | (.ok (.mem pa leaf va) _, d) =>
      if pa.pkg.isNone && isDevice pa.lpa then
        let (v, d) := d.deviceRead f pa.lpa (min n 8)
        if n ≤ 8 then (.ok v, d)
        else let (w, d) := d.deviceRead f (pa.lpa + 8) (n - 8); (.ok (v ++ w), d)
      else if pa.pkg.isNone && d.bad pa.lpa &&
          !(!pa.onDie c.die && leaf.level != 2 && (d.rdcHit c.die pa e.tag).isSome) then (.bad 2, d.foundBad pa.lpa)
      else
        match e.lines.find? fun l => l.1 = pa.line with
        | some l => (.ok ((l.2.drop (pa.lpa % 128)).take n), d)
        | none =>
          match d.readThrough c e.tag pa leaf va n false none Forbidden.none none with
          | (some b, d) => (.ok b, d)
          | (none, d) => (.ask pa leaf va, d)
    | (.ok _ _, d) => (.bad 1, d)

/-- Read bytes within one line of virtual addresses, as the command runs. -/
def Dev.copyReadVirt (d : Dev) (f : Fuses) (c : CoreRef) (e : CopyEntry) (va n : Nat) : CopyRead × Dev :=
  match d.copyGate c e [va] with
  | .go d => d.copyReadAt f c e va n
  | .wait d => (.walk, d)
  | .stuck => (.wait, d)

/-- Read bytes of an operand at an offset. -/
def Dev.copyRead (d : Dev) (f : Fuses) (c : CoreRef) (e : CopyEntry) (s : EngineSpace) (off n : Nat) : CopyRead × Dev :=
  match s with
  | .virt a => d.copyReadVirt f c e (a + off) n
  | .scr a =>
    match (e.gid.bind fun g => d.group g).bind fun g => d.scratchAt g (a + off) n with
    | some p => (match d.group p.1 with
      | some g => (.ok (g.scratchRead p.2 n), d)
      | none => (.wait, d))
    | none => (.wait, d)
  | .lease h o =>
    match d.leaseOf h with
    | some (_, _, l) => (.ok (l.read (o + off) n), d)
    | none => (.bad 4, d)

/-- Ask another package for a line of a copy's source; none while a write of the die to it is unanswered (R149), or the line is on its
way to the die already (R106). -/
def Dev.copyAsk (d : Dev) (c : CoreRef) (e : CopyEntry) (pa : PAddr) (leaf : Leaf) (va : Nat) : Option Dev :=
  let pkg := pa.pkg.getD 0
  if e.asked.isSome || (d.die c.die).writeUnanswered pkg pa.lpa || d.lineAsked c.die pa.line then none
  else
    let d := d.onCopy c e.id fun x => { x with asked := some (pa.line, leaf, va), late := [], noRdc := [], noFill := false }
    some (d.sendPlain c.die ⟨7, e.job / 256, e.job % 256, leaf.peer, pkg, 0, pa.line.lpa, 1⟩ (BitVec.ofNat 32 (e.id * 64)) (.read 128))

/-- The line that a copy asked for has come: with the stores of the die that passed it merged (R122), it fills the RDC where its page
says so and no acquire has forbidden it (R47, R116). -/
def Dev.copyArrived (d : Dev) (c : CoreRef) (e : CopyEntry) (b : List Byte) : Option Dev :=
  match e.asked with
  | none => none
  | some (pa, leaf, va) =>
    let b := overlays b e.late
    let fill := leaf.level != 2 && mayFill e.noRdc e.noFill (d.bindingOf (tagCtx e.tag) va)
    let d := if fill then d.fillRdc c.die pa e.tag va leaf.evict b else d
    some (d.onCopy c e.id fun x =>
      { x with asked := none, late := [], noRdc := [], noFill := false, lines := (pa, b) :: x.lines })

/-- What a write of an entry answers: done, a status code, it waits for the walker, it cannot be made now, or bytes for a beat. -/
inductive CopyWrite where
  | ok
  | bad (code : Nat)
  | walk
  | wait
  | far
  deriving DecidableEq, Repr

/-- A write of a command to a peer address drops the audit of its record (R441). -/
def Dev.dropCopyAudit (d : Dev) (e : CopyEntry) : Dev :=
  match e.thread with
  | some r => d.dropAudit r
  | none => d

/-- The bytes of a destination line that a command has written; when they cover it, what it held before no longer matters (R49). -/
def Dev.coverLine (d : Dev) (c : CoreRef) (e : CopyEntry) (lpa n : Nat) : Dev :=
  let line := lpa / 128 * 128
  let bits := (if e.cover.1 = line then e.cover.2 else 0) ||| lineBits lpa n
  let d := d.onCopy c e.id fun x => { x with cover := (line, bits) }
  if bits = 2 ^ 128 - 1 then d.lineWritten lpa else d

/-- Write bytes within one line of walked virtual addresses at their home point (R47, R48): a home point in hold holds them,
unacknowledged, or answers retry (R97); a running wave on them goes first (R131). -/
def Dev.copyWriteAt (d : Dev) (c : CoreRef) (e : CopyEntry) (va : Nat) (b : List Byte) : CopyWrite × Dev :=
  if va / 2 ^ 54 = 2 then (.bad 1, d)
  else
    match (d.shadowCheck va b.length true).translate c e.tag va true false with
    | (.xlate _, d) => (.bad 1, d)
    | (.poison, d) => (.bad 2, d)
    | (.ok (.mem pa leaf _) _, d) =>
      let d := if va / 2 ^ 54 = 1 then d.dropCopyAudit e else d
      if pa.pkg.isSome then (.far, d)
      else if isDevice pa.lpa then
        (match regAt pa.lpa with
         | some r =>
           let (v, d) := if b.length = 8 then (bytesD b, d) else d.fresh
           (.ok, { d with regBus := d.regBus ++ [⟨r, v, none⟩] })
         | none => (.ok, d))
      else
        let h : HeldItem := .write c e.id e.tag pa.lpa leaf b
        if d.mustHold pa.lpa h then (.ok, (d.holdItem pa.lpa h).onCopy c e.id fun x => { x with unanswered := x.unanswered + 1 })
        else if d.waveHolds pa.lpa b.length then (.wait, d)
        else (.ok, (d.writeHome pa.lpa leaf none b).coverLine c e pa.lpa b.length)
    | (.ok _ _, d) => (.bad 1, d)

/-- Write bytes within one line of virtual addresses, as the command runs. -/
def Dev.copyWriteVirt (d : Dev) (c : CoreRef) (e : CopyEntry) (va : Nat) (b : List Byte) : CopyWrite × Dev :=
  match d.copyGate c e [va] with
  | .go d => d.copyWriteAt c e va b
  | .wait d => (.walk, d)
  | .stuck => (.wait, d)

/-- Write bytes of an operand at an offset. -/
def Dev.copyWrite (d : Dev) (c : CoreRef) (e : CopyEntry) (s : EngineSpace) (off : Nat) (b : List Byte) : CopyWrite × Dev :=
  match s with
  | .virt a => d.copyWriteVirt c e (a + off) b
  | .scr a =>
    match (e.gid.bind fun g => d.group g).bind fun g => d.scratchAt g (a + off) b.length with
    | some p => (.ok, d.scratchWrite p.1 p.2 b)
    | none => (.wait, d)
  | .lease h o =>
    match d.leaseOf h with
    | some (die, n, _) => (.ok, d.onLease die n fun l => { l with data := putAll l.data (o + off) b })
    | none => (.bad 4, d)

/-- The bytes of a beat, in copy order. -/
def beatBytes (runs : List (Nat × List Byte)) : List Byte := runs.flatMap fun r => r.2

/-- Add bytes at an offset of a destination line to the runs of its beat. -/
def addRun (o : Nat) (b : List Byte) : List (Nat × List Byte) → List (Nat × List Byte)
  | [] => [(o, b)]
  | [(p, x)] => if p + x.length = o then [(p, x ++ b)] else [(p, x), (o, b)]
  | r :: rest => r :: addRun o b rest

/-- Send a gathered beat whose page is walked (R148): the bytes of one destination line. None when no message may be injected. -/
def Dev.sendBeat (d : Dev) (c : CoreRef) (e : CopyEntry) (va : Nat) (runs : List (Nat × List Byte)) : Option Dev :=
  let b := beatBytes runs
  match d.translate c e.tag va true false with
  | (.ok (.mem ⟨some pkg, lpa⟩ leaf _) _, d) =>
    if !d.mayInject c.die (e.job / 256) (e.job % 256) then none
    else
      let n := e.written.length
      let d := d.onCopy c e.id fun x =>
        { x with beat := none, written := x.written ++ [b], unanswered := x.unanswered + 1 }
      some (d.inject c.die ⟨6, e.job / 256, e.job % 256, leaf.peer, pkg, 0, lpa, b.length⟩ (.beat runs) (.copy c e.id n))
  | (.poison, d) => some (d.onCopy c e.id fun x => { x with beat := none, code := if x.code = 0 then 2 else x.code })
  | (_, d) => some (d.onCopy c e.id fun x => { x with beat := none, code := if x.code = 0 then 1 else x.code })

/-- Send the beat gathered so far, or go on waiting for its walk; none when nothing of it can happen now. -/
def Dev.flushBeat (d : Dev) (c : CoreRef) (e : CopyEntry) : Option Dev :=
  match e.beat with
  | none => some d
  | some (va, runs) =>
    match d.copyGate c e [va] with
    | .go d => d.sendBeat c e va runs
    | .wait d => some d
    | .stuck => none

/-- A command fails: it moves no more. -/
def Dev.failCopy (d : Dev) (c : CoreRef) (id code : Nat) : Dev :=
  d.onCopy c id fun x =>
    { x with code := if x.code = 0 then code else x.code, pos := x.op.total, beat := none, asked := none, lines := [] }

/-- An element of a command: where it is read, where it is written, its bytes (R375, R377, R379). -/
structure Element where
  src : EngineSpace
  srcOff : Nat
  dst : EngineSpace
  dstOff : Nat
  size : Nat
  fill : Option DWord
  deriving DecidableEq, Repr

/-- The element at a place in copy order. -/
def CopyOp.element (o : CopyOp) (p : Nat) : Option Element :=
  match o with
  | .copy _ _ _ dst src fill size x y _ sp spp dp dpp =>
    let i := p % x
    let j := p / x % y
    let k := p / (x * y)
    some ⟨src, (i + j * sp + k * spp) * size, dst, (i + j * dp + k * dpp) * size, size, fill⟩
  | .footprint scatter arr _ _ z side _ =>
    let off := p * 2 ^ z
    some (if scatter then ⟨side, off, arr, off, 2 ^ z, none⟩ else ⟨arr, off, side, off, 2 ^ z, none⟩)
  | _ => none

/-- The bytes an element of DFILL writes: the low bytes of the pattern, or it twice. -/
def fillBytes (v : DWord) (size : Nat) : List Byte := (natBytes v.toNat 8 ++ natBytes v.toNat 8).take size

/-- An element has been written: the position, and the bytes as written of a checked copy (R378). -/
def CopyEntry.moved (e : CopyEntry) (b : List Byte) : CopyEntry :=
  { e with pos := e.pos + 1, lines := [], walked := [], written := match e.op with
    | .copy true _ _ _ _ _ _ _ _ _ _ _ _ _ => e.written ++ [b]
    | _ => e.written }

/-- Whether an element goes to the destination line for which an entry gathers a beat; without a beat any does. -/
def CopyEntry.sameBeat (e : CopyEntry) (el : Element) : Bool :=
  match e.beat, el.dst with
  | some (line, _), .virt a => line == (a + el.dstOff) / 128 * 128
  | some _, _ => false
  | none, _ => true

/-- Move the next element of a command: none when it cannot be moved now. The runs of one destination line of another package go into
one beat: destination addresses rise in copy order, so they follow one another, and the beat of a line leaves before the next element
that lies elsewhere is moved (R148, R376). -/
def Dev.moveElement (d : Dev) (f : Fuses) (c : CoreRef) (id : Nat) : Option Dev :=
  match (d.core c).copy.find? fun e => e.id = id with
  | none => none
  | some e =>
    match (if e.pos < e.op.total then e.op.element e.pos else none) with
    | none => none
    | some el =>
      if !e.sameBeat el then d.flushBeat c e else
      let (x, d) := match el.fill with
        | some v => (CopyRead.ok (fillBytes v el.size), d)
        | none => d.copyRead f c e el.src el.srcOff el.size
      match x with
      | .wait => none
      | .walk => some d
      | .bad k => some (d.failCopy c id k)
      | .ask pa leaf va => d.copyAsk c e pa leaf va
      | .ok b =>
        match d.copyWrite c e el.dst el.dstOff b with
        | (.wait, _) => none
        | (.walk, d) => some d
        | (.bad k, d) => some (d.failCopy c id k)
        | (.ok, d) => some (d.onCopy c id fun x => x.moved b)
        | (.far, d) =>
          let va := match el.dst with
            | .virt a => a + el.dstOff
            | _ => 0
          let line := va / 128 * 128
          let runs := (e.beat.map fun x => x.2).getD []
          some (d.onCopy c id fun x =>
            { x with pos := x.pos + 1, lines := [], walked := [], beat := some (line, addRun (va - line) b runs) })

/-- Move up to a number of elements; none when not even one can be moved. -/
def Dev.moveMany (d : Dev) (f : Fuses) (c : CoreRef) (id : Nat) : Nat → Option Dev
  | 0 => none
  | n + 1 =>
    match d.moveElement f c id with
    | none => none
    | some d => some ((d.moveMany f c id n).getD d)

/-! ## Order of the queue (R133, R481) -/

/-- The physical pages, scratch of a group, or lease that a command writes. -/
inductive Written where
  | pages (l : List PAddr)
  | scratch (gid lo n : Nat)
  | lease (h : Word) (lo n : Nat)
  | none
  deriving DecidableEq, Repr

/-- Bytes from the destination's base that a command may write. -/
def CopyOp.reach : CopyOp → Nat
  | .copy _ _ _ _ _ _ size x y z _ _ dp dpp => extentOf size x y z dp dpp
  | .footprint _ _ _ count z _ tooBig => if tooBig then 0 else count * 2 ^ z
  | _ => 0

/-- The destination operand of a command. -/
def CopyOp.dest : CopyOp → Option EngineSpace
  | .copy _ _ _ dst _ _ _ _ _ _ _ _ _ _ => some dst
  | .footprint scatter arr _ _ _ side _ => some (if scatter then arr else side)
  | _ => none

/-- The source operand of a command and the bytes from its base that it may read. -/
def CopyOp.source : CopyOp → Option (EngineSpace × Nat)
  | .copy _ _ _ _ src fill size x y z sp spp _ _ => if fill.isNone then some (src, extentOf size x y z sp spp) else none
  | .footprint scatter arr _ count z side tooBig => some (if scatter then side else arr, if tooBig then 0 else count * 2 ^ z)
  | _ => none

/-- Where the bytes of an operand of a command lie. -/
def Dev.touches (d : Dev) (c : CoreRef) (e : CopyEntry) (s : Option (EngineSpace × Nat)) : Written :=
  match s with
  | some (.virt a, n) => .pages ((d.spanParts c e.tag a n).map Prod.fst)
  | some (.scr a, n) =>
    (match (e.gid.bind fun g => d.group g).bind fun g => d.scratchAt g a n with
     | some p => .scratch p.1 p.2 n
     | none => .none)
  | some (.lease h o, n) => .lease h o n
  | none => .none

/-- Where a command writes, and where it reads. -/
def Dev.writes (d : Dev) (c : CoreRef) (e : CopyEntry) : Written := d.touches c e (e.op.dest.map fun s => (s, e.op.reach))
def Dev.reads (d : Dev) (c : CoreRef) (e : CopyEntry) : Written := d.touches c e e.op.source

/-- Whether two commands may touch one location. -/
def Written.meets (a b : Written) : Bool :=
  match a, b with
  | .pages x, .pages y => x.any fun p => y.any fun q => p.pkg = q.pkg && p.lpa / 4096 == q.lpa / 4096
  | .scratch g x n, .scratch h y m => g == h && spansMeet [(x, n)] [(y, m)]
  | .lease g x n, .lease h y m => g = h && spansMeet [(x, n)] [(y, m)]
  | _, _ => false

/-- The entries of a queue before one. -/
def Core.before (k : Core) (id : Nat) : List CopyEntry := k.copy.takeWhile fun e => e.id ≠ id

/-- Whether an entry has started: fewer than 16 stand before it (R481). -/
def Core.started (k : Core) (id : Nat) : Bool := ((k.before id).filter fun e => !e.done).length < 16

/-- The page of the status word that a copy record's command writes at its end (R411). -/
def Dev.statusPage (d : Dev) (c : CoreRef) (e : CopyEntry) : Written :=
  match e.record with
  | some x => d.touches c e (some (.virt ((recD x.bytes 0).toNat + 24), 8))
  | none => .none

/-- Whether an entry has elements or beats outstanding. -/
def CopyEntry.moving (e : CopyEntry) : Bool :=
  e.pos < e.op.total || e.beat.isSome || e.unanswered ≠ 0 || match e.op with
    | .reloc _ => !e.done
    | _ => false

/-- Whether an earlier entry that is not done keeps one from moving elements: both may write one location, be it with a status word, or
one reads what the earlier one writes (R108 pair 6, R110, R133). What an earlier one still reads a later one may overwrite: the queue
orders only the writes of its entries (R467, R471 case b). -/
def Dev.mustWait (d : Dev) (c : CoreRef) (e : CopyEntry) : Bool :=
  ((d.core c).before e.id).any fun x =>
    (x.moving && match x.op, e.op with
      | .reloc _, _ => true
      | _, .reloc _ => true
      | _, _ => (d.writes c x).meets (d.writes c e) || (d.writes c x).meets (d.reads c e)) ||
    (!x.done && ((d.statusPage c x).meets (d.writes c e) || (d.statusPage c x).meets (d.reads c e)))

/-! ## Status, arrival, signal (R363, R377, R378) -/

/-- The status word (R363). -/
def statusWord (code : Nat) : Word :=
  BitVec.ofNat 32 (if code = 0 then 0
    else field 31 1 + field 8 (if code = 1 then causeXlate.toNat else if code = 2 then causePoison.toNat
      else if code = 3 then causeLost.toNat else 0) + code)

/-- One bit of CRC-32C, reflected. -/
def crcBit (c : Nat) : Nat := if c % 2 = 1 then Nat.xor (c / 2) 0x82F63B78 else c / 2

/-- CRC-32C over bytes, from a standard value (R378). -/
def crc32c (start : Word) (b : List Byte) : Word :=
  let step := fun (c : Nat) (x : Byte) => crcBit (crcBit (crcBit (crcBit (crcBit (crcBit (crcBit (crcBit (Nat.xor c x.toNat))))))))
  BitVec.ofNat 32 (Nat.xor (b.foldl step (Nat.xor start.toNat 0xFFFFFFFF)) 0xFFFFFFFF)

/-- The running value of a checked copy once its bytes are written. -/
def CopyEntry.runValue (e : CopyEntry) (t : Thread) : Word := crc32c (e.start.getD t.runCrc) e.written.flatten

/-- The code an entry ends with: a checksum that differs, then an uninitialised barrier (R363). -/
def Dev.endCode (d : Dev) (e : CopyEntry) : Nat :=
  let run := match e.op, e.thread.bind d.thread with
    | .copy true _ _ _ _ _ _ _ _ _ _ _ _ _, some t => some (e.runValue t)
    | _, _ => none
  let code := if e.code ≠ 0 then e.code
    else match run, e.expect with
      | some v, some x => if v ≠ x then 5 else 0
      | _, _ => 0
  let unready := match e.arrive, e.gid with
    | some b, some g => ((d.bar (.group g b)).map fun x => x.expected == 0).getD true
    | _, _ => false
  if code = 0 && unready then 6 else code

/-- Send the remote signal of an entry (R151, R357): by transfer inside the package, else as a message. -/
def Dev.sendCopySignal (d : Dev) (c : CoreRef) (e : CopyEntry) (v : DWord) : Option Dev :=
  let pkg := (BarHandle.ofWord v).pkg
  let mark := fun (d : Dev) => d.onCopy c e.id fun x => { x with sigSent := true, unanswered := x.unanswered + 1 }
  if pkg = d.pkgNum then some (mark { d with transfers := d.transfers ++ [.copySig v e.ctx c e.id] })
  else if d.mayInject c.die (e.job / 256) (e.job % 256) then
    some ((mark d).inject c.die ⟨5, e.job / 256, e.job % 256, e.ctx, pkg, 0, 0, 8⟩ (.signal v false 0) (.copySig c e.id))
  else none

/-- Where the destination span of a copy lies, for its arrival (R138). -/
def CopyEntry.span (e : CopyEntry) : Option Span :=
  match e.op.dest with
  | some (.virt a) => some ⟨BitVec.ofNat 64 a, e.op.reach, 0⟩
  | some (.scr a) => some ⟨BitVec.ofNat 64 a, e.op.reach, 1⟩
  | some (.lease _ o) => some ⟨BitVec.ofNat 64 o, e.op.reach, 2⟩
  | none => none

/-- Whether a command is a checked copy that goes on from the command before. -/
def CopyOp.continues : CopyOp → Bool
  | .copy true false _ _ _ _ _ _ _ _ _ _ _ _ => true
  | _ => false

/-- The running value of a checked copy is left to its party; of an orphaned one to the orphans that go on from it (R378). -/
def Dev.leaveRun (d : Dev) (c : CoreRef) (e : CopyEntry) (r : ThreadRef) (v : Word) : Dev :=
  if e.orphan then
    let next := fun (x : CopyEntry) =>
      if x.orphan && x.thread = some r && x.id != e.id && x.op.continues then { x with start := some v } else x
    d.onCore c fun k => { k with copy := k.copy.map next }
  else d.onThread r fun t => { t with runCrc := v }

/-- Write the register behind the status register: the running value, or the footprint's first element (R378, R379). -/
def Dev.writeBehind (d : Dev) (c : CoreRef) (e : CopyEntry) (code : Nat) : Dev :=
  match e.thread with
  | some r =>
    let put := fun (v : Word) (d : Dev) => if e.st.isSome then d.onThread r fun t => t.setS ((e.st.getD 0).toNat + 1) v else d
    (match e.op, d.thread r with
     | .copy true _ _ _ _ _ _ _ _ _ _ _ _ _, some t => (put (e.runValue t) d).leaveRun c e r (e.runValue t)
     | .footprint _ _ lo count _ _ _, _ => if code = 7 then d else put (BitVec.ofNat 32 (if count = 0 then 0 else lo)) d
     | _, _ => d)
  | none => d

/-- Whether a command writes the register behind the status register. -/
def CopyOp.twoRegs : CopyOp → Bool
  | .copy ck _ _ _ _ _ _ _ _ _ _ _ _ _ => ck
  | .footprint _ _ _ _ _ _ _ => true
  | _ => false

/-- Write the status register, or the status word of a copy record's descriptor, as a Dray write that has reached its home point: a
home point in hold holds it, and a running wave on it goes first (R96, R131). None while it has to wait. -/
def Dev.writeStatus (d : Dev) (c : CoreRef) (e : CopyEntry) (code : Nat) : Option Dev :=
  match e.thread with
  | some r => some (if e.st.isSome then d.onThread r fun t => t.setS (e.st.getD 0).toNat (statusWord code) else d)
  | none =>
    match e.record with
    | some x =>
      if e.wrote then some d
      else
        let va := (recD x.bytes 0).toNat + 24
        let b := natBytes (statusWord code).toNat 8
        (match d.translate c e.tag va true false with
         | (.ok (.mem ⟨none, lpa⟩ leaf _) _, d) =>
           let h : HeldItem := .write c e.id e.tag lpa leaf b
           if d.mustHold lpa h then
             some ((d.holdItem lpa h).onCopy c e.id fun x => { x with unanswered := x.unanswered + 1, wrote := true })
           else if d.waveHolds lpa 8 then none
           else some (d.writeHome lpa leaf none b)
         | (_, d) => some d)
    | none => some d

/-- An entry is performed: it leaves the queue and its flag. A copy record's entry stays until its record completes (R411). -/
def Dev.copyPerformed (d : Dev) (c : CoreRef) (e : CopyEntry) : Dev :=
  match e.thread with
  | some r =>
    let d := d.onCore c fun k => { k with copy := k.copy.filter fun x => x.id ≠ e.id }
    d.onThread r fun t => t.untagFlag e.flag
  | none => d.onCopy c e.id fun x => { x with done := true }

/-- The end of a command that moves bytes: its signal first, then its status, each register on its own, and its arrival (R377, R363,
R249; log 26). -/
def Dev.endCopy (d : Dev) (c : CoreRef) (e : CopyEntry) : Option Dev :=
  let code := if e.wrote && e.thread.isSome then e.code else d.endCode e
  match (if code = 0 && !e.sigSent then e.signal else none) with
  | some v => d.sendCopySignal c e v
  | none =>
    if e.thread.isSome && e.op.twoRegs && !e.wrote then
      some ((d.writeBehind c e code).onCopy c e.id fun x => { x with wrote := true, code := code })
    else
      match d.writeStatus c e code with
      | none => none
      | some d =>
        if ((d.core c).copy.find? fun x => x.id = e.id).any fun x => x.unanswered ≠ e.unanswered then some d
        else
          let d := match e.arrive, e.gid with
            | some b, some g => if code = 6 then d else (d.arrive (.group g b) ⟨none, e.span, false, 0⟩).getD d
            | _, _ => d
          some (d.copyPerformed c e)

/-- DSIG at the head of its queue (R380): it arrives and signals; a lost signal sets the loss bit. -/
def Dev.runSig (d : Dev) (c : CoreRef) (e : CopyEntry) : Option Dev :=
  let arrived := fun (d : Dev) => match e.arrive, e.gid with
    | some b, some g => (d.arrive (.group g b) Arrival.plain).getD d
    | _, _ => d
  match e.signal with
  | none => some ((arrived d).copyPerformed c e)
  | some v =>
    if !e.sigSent then (d.sendCopySignal c e v).map arrived
    else if e.unanswered ≠ 0 then none
    else
      let d := match e.thread with
        | some r => if e.code ≠ 0 then d.markLoss r else d
        | none => d
      some (d.copyPerformed c e)

/-- DLEASE when it is performed (R380); of a renewal `units` is the handle. An orphaned entry has no registers to write. -/
def Dev.runLease (d : Dev) (c : CoreRef) (e : CopyEntry) (renew : Bool) (reg : BitVec 5) (units dur : Word) (pd : BitVec 3)
    (mask : Word) : Dev :=
  match e.thread with
  | none => d
  | some r =>
    let inTime := Nat.ble 1 dur.toNat && Nat.ble dur.toNat 16777215
    let status := fun (ok : Bool) (d : Dev) => if e.orphan then d
      else d.onThread r fun t => t.mapLanes (isSeq r) mask fun _ l => l.setP pd ok
    let d :=
      if renew then
        match (if inTime then d.liveLease units c.die e.ctx else none) with
        | some (n, _) => status true (d.onLease c.die n fun l => { l with expiry := d.now + 1000 * dur.toNat })
        | none => status false d
      else
        match (if inTime && Nat.ble 1 units.toNat && Nat.ble units.toNat 64
          then d.grantLease c.die (((e.gid.bind d.group).map fun g => g.gang).getD 0) e.tag units.toNat dur.toNat else none) with
        | some (h, d) => status true (if e.orphan then d else d.onThread r fun t => t.setS reg.toNat h)
        | none => status false d
    d.copyPerformed c e

/-- DUNLEASE (R61, R380): it waits for the commands that name the handle. -/
def Dev.runUnlease (d : Dev) (c : CoreRef) (e : CopyEntry) (h : Word) : Option Dev :=
  let named := d.cores.any fun k => k.ref.die == c.die && k.copy.any fun x => x.id < e.id && !x.done && x.op.names h
  if named then none
  else
    let d := match d.liveLease h c.die e.ctx with
      | some (n, _) => d.freeLease c.die n
      | none => d
    some (d.copyPerformed c e)

/-! ## DRELOC (R381) -/

/-- One relocation record applied to the bytes, after the offset of the one before it; none when the record is invalid. -/
def applyReloc (delta : DWord) (b : List Byte) (last : Int) (rec : DWord) : Option (List Byte) :=
  let off := bits rec 31 0
  let ty := bits rec 63 60
  let word := fun (o : Nat) => bytesNat ((b.drop o).take 4)
  let hi := word (off + 4)
  let lo := word off
  if bits rec 59 32 ≠ 0 || (off : Int) ≤ last || 2 < ty || b.length < off + (if ty = 1 then 4 else 8) ||
      off % (if ty = 0 then 8 else 4) ≠ 0 then none
  else if ty = 0 then
    some (overlay b off (natBytes (BitVec.ofNat 64 (bytesNat ((b.drop off).take 8)) + delta).toNat 8))
  else if ty = 1 then some (overlay b off (natBytes (BitVec.ofNat 32 lo + delta.lo).toNat 4))
  else if lo / 2 ^ 24 ≠ 0x16 || hi / 2 ^ 24 ≠ 0x16 || bitOf lo 16 || !bitOf hi 16 then none
  else
    let v := BitVec.ofNat 32 (hi % 2 ^ 16 * 2 ^ 16 + lo % 2 ^ 16) + delta.lo
    some (overlay b off (natBytes (lo / 2 ^ 16 * 2 ^ 16 + v.toNat % 2 ^ 16) 4 ++
      natBytes (hi / 2 ^ 16 * 2 ^ 16 + v.toNat / 2 ^ 16) 4))

/-- The records applied in table order. -/
def applyRelocs (delta : DWord) : List Byte → Int → List DWord → Option (List Byte)
  | b, _, [] => some b
  | b, last, r :: rest => (applyReloc delta b last r).bind fun b => applyRelocs delta b (bits r 31 0) rest

/-- The 64-bit words of bytes. -/
def dwords (b : List Byte) : Nat → List DWord
  | 0 => []
  | n + 1 => bytesD (b.take 8) :: dwords (b.drop 8) n

/-- Read a span of virtual addresses for a command, a line at a time. -/
def Dev.copySpan (d : Dev) (f : Fuses) (c : CoreRef) (e : CopyEntry) : Nat → Nat → Nat → List Byte → CopyRead × Dev
  | 0, _, _, acc => (.ok acc, d)
  | fuel + 1, va, n, acc =>
    if n = 0 then (.ok acc, d)
    else
      let k := min n (128 - va % 128)
      match d.copyReadAt f c e va k with
      | (.ok b, d) => d.copySpan f c e fuel (va + k) (n - k) (acc ++ b)
      | (x, d) => (x, d)

/-- Write a span of virtual addresses for a command, a line at a time: the first failure ends it. -/
def Dev.copySpanWrite (d : Dev) (c : CoreRef) (e : CopyEntry) : Nat → Nat → List Byte → CopyWrite × Dev
  | 0, _, _ => (.ok, d)
  | fuel + 1, va, b =>
    if b.isEmpty then (.ok, d)
    else
      let k := min b.length (128 - va % 128)
      match d.copyWriteAt c e va (b.take k) with
      | (.ok, d) => d.copySpanWrite c e fuel (va + k) (b.drop k)
      | (.far, d) =>
        (match d.sendBeat c (((d.core c).copy.find? fun x => x.id = e.id).getD e) (va / 128 * 128) [(va % 128, b.take k)] with
         | some d => d.copySpanWrite c e fuel (va + k) (b.drop k)
         | none => (.wait, d))
      | (x, d) => (x, d)

/-- An address in each 4 KiB of a span; a length that no memory holds stands for its first page. -/
def spanPageList (va n : Nat) : List Nat :=
  if 2 ^ 32 < n then [va] else (upFrom (va / 4096) ((va + n + 4095) / 4096 - va / 4096)).map fun p => p * 4096

/-- DRELOC once its walks are done: descriptor, table and source are read, the records applied, the destination written. -/
def Dev.relocate (d : Dev) (f : Fuses) (c : CoreRef) (e : CopyEntry) (descriptor : Nat) : Option Dev :=
  let stop := fun (d : Dev) (x : CopyRead) => match x with
    | .bad k => some ((d.failCopy c e.id k).onCopy c e.id fun y => { y with pos := 1 })
    | .ask pa leaf va => d.copyAsk c e pa leaf va
    | _ => none
  match d.copySpan f c e 2 descriptor 48 [] with
  | (.ok h, d) =>
    let at_ := fun (o : Nat) => bytesNat ((h.drop o).take 8)
    let count := bytesNat ((h.drop 32).take 4)
    let len := at_ 16
    if len % 4 ≠ 0 || at_ 24 % 8 ≠ 0 || bytesNat ((h.drop 36).take 4) ≠ 0 then
      some ((d.failCopy c e.id 8).onCopy c e.id fun y => { y with pos := 1 })
    else
      (match d.copySpan f c e (count / 16 + 2) (at_ 24) (8 * count) [] with
       | (.ok table, d) =>
         (match d.copySpan f c e (len / 128 + 2) (at_ 0) len [] with
          | (.ok src, d) =>
            (match applyRelocs (BitVec.ofNat 64 (at_ 40)) src (-1) (dwords table count) with
             | none => some ((d.failCopy c e.id 8).onCopy c e.id fun y => { y with pos := 1 })
             | some b =>
               (match d.copySpanWrite c e (len / 128 + 2) (at_ 8) b with
                | (.ok, d) => some (d.onCopy c e.id fun y => { y with pos := 1 })
                | (.bad k, d) => some ((d.failCopy c e.id k).onCopy c e.id fun y => { y with pos := 1 })
                | _ => none))
          | (x, d) => stop d x)
       | (x, d) => stop d x)
  | (x, d) => stop d x

/-- DRELOC when it runs: the walks of its descriptor, then those of the spans that it names, come first (R77). -/
def Dev.runReloc (d : Dev) (f : Fuses) (c : CoreRef) (e : CopyEntry) (descriptor : Nat) : Option Dev :=
  match d.copyGate c e (spanPageList descriptor 48) with
  | .stuck => none
  | .wait d => some d
  | .go d =>
    match d.copySpan f c e 2 descriptor 48 [] with
    | (.ok h, d1) =>
      let at_ := fun (o : Nat) => bytesNat ((h.drop o).take 8)
      let vas := spanPageList (at_ 24) (8 * bytesNat ((h.drop 32).take 4)) ++ spanPageList (at_ 0) (at_ 16) ++
        spanPageList (at_ 8) (at_ 16)
      (match d1.copyGate c e vas with
       | .stuck => none
       | .wait d => some d
       | .go d => d.relocate f c e descriptor)
    | _ => d.relocate f c e descriptor

/-! ## Running -/

/-- A step of a copy queue entry: elements move; once none is left, every beat is answered and every earlier entry is
performed, the command ends (R133, R377, R481). -/
def Dev.runCopy (d : Dev) (f : Fuses) (c : CoreRef) (e : CopyEntry) (count : Option Nat) : Option Dev :=
  let head := ((d.core c).copy.find? fun x => !x.done).any fun x => x.id = e.id
  match e.op with
  | .lease renew reg units dur pd mask => if head then some (d.runLease c e renew reg units dur pd mask) else none
  | .unlease h => if head then d.runUnlease c e h else none
  | .sig => if head then d.runSig c e else none
  | .reloc a =>
    if e.pos = 0 then (if d.mustWait c e then none else d.runReloc f c e a)
    else if head && e.unanswered = 0 then d.endCopy c e
    else none
  | _ =>
    if e.pos < e.op.total then
      if d.mustWait c e then none else d.moveMany f c e.id (count.getD e.op.total)
    else if e.beat.isSome then d.flushBeat c e
    else if head && e.unanswered = 0 then d.endCopy c e
    else none

/-- COPY_COMMAND_RUN (R377, R481): an entry that has started moves up to a number of elements, or all it can, or ends. -/
def execCopyCommandRun (core : CoreRef) (entry : Nat) (count : Option Nat) (s : State) : Out :=
  happen s fun d =>
    if !d.clocked || count = some 0 then none
    else
      match (d.core core).copy.find? fun e => e.id = entry with
      | some e => if e.done || !(d.core core).started entry then none else d.runCopy s.fuses core e count
      | none => none

/-- FOOTPRINT_FLUSH (R69): a buffered entry is written 10 µs after it was made. -/
def execFootprintFlush (core : CoreRef) (index : Nat) (s : State) : Out :=
  happen s fun d =>
    match (d.core core).footprints[index]? with
    | some e => if e.2.2.2 + 10000 ≤ d.now then some (d.flushFootprint core index) else none
    | none => none

end Sys2Proof.Machine
end

