-- ==== Sys2Proof/Machine/Control.lean ====
section
/-! DEFINITION. Transfers of control (R297 to R303): BRA, BRP, XBR, JMPT, CALL, RET, BRX, EXIT, and YIELD and NOP. -/

namespace Sys2Proof.Machine

/-- The form of a transfer: `go` gives what the lanes keep and where the active lanes go. An ALLOT trap comes first. -/
def transferOp (s : State) (regs : List (BitVec 7)) (go : Thread → Clause → Thread × List Move) : Out :=
  runFor s fun r t d =>
    match d.allotTrap r regs with
    | some k => d.raise r k
    | none =>
      match t.clause with
      | none => d
      | some c => (d.onThread r fun _ => (go t c).1).transfer r (go t c).2

/-- The moves of the active lanes to the PCs a function gives. -/
def Clause.moves (c : Clause) (pc : Nat → DWord) (taken : Nat → Bool) : List Move := groupMoves (maskLanes c.mask) pc taken

/-- BRA (R298). -/
def execBra (offset : BitVec 24) (s : State) : Out :=
  transferOp s [] fun t c => (t, [⟨c.mask, c.target offset, true⟩])

/-- BRP (R298): the lanes whose predicate, negated with n, holds are taken. -/
def execBrp (n : BitVec 1) (p : BitVec 3) (offset : BitVec 20) (s : State) : Out :=
  transferOp s [] fun t c =>
    let taken := fun l => (t.lane l).pr p != (n = 1)
    (t, c.moves (fun l => if taken l then c.target offset else c.next) taken)

/-- The interval of an x register. -/
def XReg.ivl (x : XReg) : Ivl := ⟨x.lo.toInt, x.hi.toInt⟩

/-- XBR (R299): each lane's interval is refined on the side where its own comparison held. -/
def execXbr (x : BitVec 4) (c u : BitVec 1) (k : BitVec 8) (offset : BitVec 10) (s : State) : Out :=
  transferOp s [112 + x.setWidth 7] fun t cl =>
    let bound : Int := if u = 1 then (t.sreg (k.toNat % 32)).toInt else k.toInt
    let below := fun l => ((t.lane l).xr x.toNat).v.toInt < bound
    let taken := fun l => if c = 0 then below l else !below l
    let refine := fun n (l : Lane) =>
      let i := (l.xr x.toNat).ivl
      l.setX x.toNat (l.xr x.toNat).v (if below n then ivlBelow i bound else ivlFrom i bound)
    ({ t with lanes := mapIdx (fun n l => if cl.mask.getLsbD n then refine n l else l) 0 t.lanes },
     cl.moves (fun l => if taken l then cl.target offset else cl.next) taken)

/-- CALL (R301): the pair d receives the fall-through. -/
def execCall (d : BitVec 7) (target : BitVec 16) (s : State) : Out :=
  transferOp s [d, d + 1] fun t c =>
    (t.mapLanes false c.mask fun _ l => l.setPair d c.next, [⟨c.mask, c.target target, true⟩])

/-- CALL through a pair (R301): the target is read before the pair d is written. -/
def execCallIndirect (d a : BitVec 7) (s : State) : Out :=
  transferOp s [d, d + 1, a, a + 1] fun t c =>
    (t.mapLanes false c.mask fun _ l => l.setPair d c.next, c.moves (fun l => (t.lane l).pair a) fun _ => true)

/-- RET (R301). -/
def execRet (a : BitVec 7) (s : State) : Out :=
  transferOp s [a, a + 1] fun t c => (t, c.moves (fun l => (t.lane l).pair a) fun _ => true)

/-- BRX (R301). -/
def execBrx (a : BitVec 7) (offset : BitVec 16) (s : State) : Out :=
  transferOp s [a, a + 1] fun t c =>
    (t, c.moves (fun l => (t.lane l).pair a + BitVec.ofInt 64 (4 * offset.toInt)) fun _ => true)

/-- The replies of the lanes of a wave that exit: their g0, g1 (R178). -/
def Dev.noteReplies (d : Dev) (r : ThreadRef) (t : Thread) (mask : Word) : Dev :=
  d.onWave r fun w => { w with replies := w.replies ++ (maskLanes mask).map fun l => (l, (t.lane l).pair 0) }

/-- EXIT (R302): the taking-part lanes leave the frontier; the others fall through. -/
def execExit (g : Guard) (s : State) : Out :=
  runFor s fun r t d =>
    match t.clause with
    | none => d
    | some c => (d.noteReplies r t (t.taking g)).transfer r [⟨c.mask &&& ~~~(t.taking g), c.next, false⟩]

/-- YIELD (R303): the end of its clause acts as the yield hint does. -/
def execYield (s : State) : Out :=
  runFor s fun r _ d =>
    (d.onThread r fun t => { t with clause := t.clause.map fun c => { c with yield := true } }).retire r 1

/-- NOP (R303). -/
def execNop (s : State) : Out := runFor s fun r _ d => d.retire r 1

/-! ## JMPT (R300) -/

/-- The signed constant of JMPT; the accesses of the active lanes. -/
def Thread.tableLanes (t : Thread) (a x : BitVec 4) (c : BitVec 8) : List LaneAccess := t.arrayLanes a x c.toInt t.active

/-- The reads of the table elements hold issue; with none to read every lane falls through. -/
def Dev.jmptRead (d : Dev) (r : ThreadRef) (t : Thread) (ts : List (LaneAccess × Target)) (pins : List Nat) :
    Dev :=
  let o := { d.opFor r .jmpt .load none t.active with pins := pins, pieces := ts.map fun x => Piece.new x.1.lane x.2 8 }
  match t.clause with
  | none => d
  | some c =>
    if ts.isEmpty then d.transfer r [⟨c.mask, c.next, false⟩]
    else
      let (id, d) := d.launch o
      d.hold r (.op id)

/-- JMPT (R300): z must be 3; bounds check and stall as LDA's. -/
def execJmpt (a x : BitVec 4) (c : BitVec 8) (s : State) : Out :=
  runFor s fun r t d =>
    let arr := t.arr a
    let lanes := t.tableLanes a x c
    let elided := t.elided a x c.toInt
    match d.allotTrap r [112 + x.setWidth 7] with
    | some k => d.raise r k
    | none =>
      if arr.z ≠ 3 then d.raise r ⟨causeBounds, 0, ((lanes.head?.map fun l => l.addr)).getD 0, BitVec.ofNat 8 (lowest t.active)⟩
      else
        let d := d.count r (if elided then 7 else 6) 1
        if (d.waveOf r).isSome && a = 0 then
          match lanes.find? fun l => !l.inside with
          | some l => d.raise r (l.trap causeBounds 0)
          | none => d.jmptRead r t (lanes.map fun l => (l, Target.state l.addr.toNat)) []
        else
          match (if elided && arr.armed then d.pinned r a false lanes else none) with
          | some (ts, pins) => d.jmptRead r t ts pins
          | none => if lanes.isEmpty then d.jmptRead r t [] [] else d.stall r (addresses lanes)

/-- JMPT once its translations are done. -/
def Dev.jmptDone (d : Dev) (r : ThreadRef) (t : Thread) (a x : BitVec 4) (c : BitVec 8) : Option Dev :=
  match d.checkLanes r false false (t.tableLanes a x c) with
  | (.inr k, d) => some (d.raise r k)
  | (.inl ts, d) => some (d.jmptRead r t ts [])

/-- JMPT ends when every element is read: each lane goes to the address it read; a masked lane, or one whose remote read
was refused, falls through. -/
def Dev.jmptFinish (d : Dev) (o : Op) : Dev :=
  let d := d.dropOp o.id
  match (d.thread o.thread).bind fun t => t.clause with
  | none => d
  | some c =>
    let value := fun (l : Nat) => ((o.pieces.find? fun p => p.lane = l).bind fun p => p.value).map bytesD
    d.transfer o.thread (c.moves (fun l => (value l).getD c.next) fun l => (value l).isSome)

end Sys2Proof.Machine
end

