-- ==== Sys2Proof/Machine/Resume.lean ====
section
/-! DEFINITION. How long-latency instructions go on (R79, R247, R249): the end of a translation stall, the return of a
load's data, the acknowledgement of a store, the reply of an atomic. -/

namespace Sys2Proof.Machine

/-! ## TRANSLATION_DONE (R79) -/

/-- The part of an instruction behind its translation stall: none for an instruction that has no such part, and while
it has to wait for something else. -/
def Dev.afterTranslation (d : Dev) (f : Fuses) (r : ThreadRef) (t : Thread) (i : Instr) : Option Dev :=
  match i with
  | .ldg rd a ty prv ev fl g => d.ldgDone r t rd a ty prv ev fl g
  | .stg rd a ty prv ev fl g => d.stgDone r t rd a ty prv ev fl g
  | .xld x a imm fl g => d.xldDone r t x a imm fl g
  | .xst x a imm fl g => d.xstDone r t x a imm fl g
  | .lda rd arr x c fl g => d.arrayDone r t false rd arr x c fl g
  | .sta rd arr x c fl g => d.arrayDone r t true rd arr x c fl g
  | .atom rd a op ord fl g c dfmt sfmt scale => d.atomDone r t rd a op ord fl g c dfmt sfmt scale
  | .callm rd a pd ord fl g c sfmt scale => d.callmDone r t rd a pd ord fl g c sfmt scale
  | .bind pd o b n _ g => d.bindDone r t pd o b n g
  | .unbind pd b _ g => d.unbindDone r t pd b g
  | .acq rd a scope fl g => d.acqDone r t rd a scope fl g
  | .rel rd a _ fl g => d.relDone r t rd a fl g
  | .arm pd arr _ g => d.armDone r pd arr g
  | .ald arr k fl _ => d.aldDone r t arr k fl
  | .jmpt a x c => d.jmptDone r t a x c
  | .spawn pd a fl g => d.spawnDone r t pd a none fl g
  | .spawnAt pd a tt fl g => d.spawnDone r t pd a (some tt) fl g
  | .mldb w fmt sc src bm _ sparse sh => d.mldbDone f r t w fmt sc src bm sparse sh
  | .eret => some (d.returnTrap r)
  | _ => none

/-- The end of a stall that began at `start`: its cycles are counted (R398), and the party is no longer held. -/
def Dev.stallOver (d : Dev) (r : ThreadRef) (start : Nat) : Dev := (d.count r 5 (d.cycles - start)).hold r .none

/-- What the walker does for a thread that waits for addresses (R77, R78). -/
def Dev.gateOf (d : Dev) (r : ThreadRef) (vas : List Nat) : Gate := d.walkGate (.thread r) (d.coreOf r) (d.tagOf r) (fun _ => true) vas

/-- A trap whose frame has waited for its walks and its place goes on (R391). -/
def Dev.trapDone (d : Dev) (r : ThreadRef) (t : Thread) (start : Nat) (e : Entry) (f : TrapFrame) : Option Dev :=
  match d.groupOf r with
  | some g =>
    match d.gateOf r (frameChunks g t (lowest e.mask)) with
    | .go d => (d.count r 5 (d.cycles - start)).enterHandler r g t e f
    | .wait d => some d
    | .stuck => none
  | none => none

/-- TRANSLATION_DONE (R77 to R80): the walks and bitmap reads of a stalled instruction end, and waiting ones take their places; once
nothing is left to be read its translations are done: its checks are made, and it traps or goes on, at once or when what it sends may
leave. The cycles of the stall are counted (R398). A fetch and the frame of a trap wait for the walker in the same way (R391). -/
def execTranslationDone (r : ThreadRef) (s : State) : Out :=
  happen s fun d =>
    match d.thread r with
    | none => none
    | some t =>
      match t.wait, t.head with
      | .translation start vas, some (.ok i _) =>
        (match d.gateOf r vas with
         | .go d =>
           if d.mayIssue r t then
             some (((d.stallOver r start).afterTranslation s.fuses r t i).getD ((d.stallOver r start).hold r .launch))
           else none
         | .wait d => some d
         | .stuck => none)
      | .launch, some (.ok i _) => if d.mayIssue r t then (d.hold r .none).afterTranslation s.fuses r t i else none
      | .fetch va, _ =>
        (match d.gateOf r [va] with
         | .go d => some (d.hold r (.fetched va))
         | .wait d => some d
         | .stuck => none)
      | .trap start e f, _ => d.trapDone r t start e f
      | _, _ => none

/-! ## LOAD_DATA_RETURN (R247, R249) -/

/-- Whether an operation of a kind reads memory or scratch for its thread. -/
def OpKind.reads : OpKind → Bool
  | .load _ _ => true
  | .xload => true
  | .frag _ => true
  | .ald _ => true
  | .acq _ => true
  | .jmpt => true
  | .prefetch _ => true
  | .audit _ _ => true
  | _ => false

/-- The word of a loaded value that goes to one register: the part at its offset, or a short value extended (R333). -/
def loadedWord (size : Nat) (signed : Bool) (b : List Byte) (off : Nat) : Word :=
  if size = 1 then (if signed then ((b.getD 0 0).signExtend 32) else (b.getD 0 0).setWidth 32)
  else if size = 2 then
    (let h : BitVec 16 := BitVec.ofNat 16 (bytesNat b)
     if signed then h.signExtend 32 else h.setWidth 32)
  else BitVec.ofNat 32 (bytesNat ((b.drop off).take 4))

/-- Write one register of a piece: each register of a destination is written on its own (R249). -/
def Dev.writeRegister (d : Dev) (o : Op) (n : Nat) (p : Piece) (size : Nat) (signed : Bool) (b : List Byte) : Dev :=
  match p.regs with
  | [] => d.donePiece o.id n
  | (r, off) :: rest =>
    let d := d.onLane o.thread p.lane fun l => l.set r (loadedWord size signed b off)
    let d := d.onPiece o.id n fun p => { p with regs := rest }
    if rest.isEmpty then d.donePiece o.id n else d

/-- The x register that 16 bytes of an XLD give: their interval where the value lies in it, else top (R296). -/
def xregOf (b : List Byte) : XReg :=
  let v := BitVec.ofNat 32 (bytesNat (b.take 4))
  let lo := BitVec.ofNat 32 (bytesNat ((b.drop 4).take 4))
  let hi := BitVec.ofNat 32 (bytesNat ((b.drop 8).take 4))
  if lo.toInt ≤ v.toInt && v.toInt ≤ hi.toInt then ⟨v, lo, hi⟩ else { XReg.reset with v := v }

/-- Write the x register of a lane of an XLD once both its halves are read. -/
def Dev.writeXload (d : Dev) (o : Op) (lane : Nat) : Dev :=
  let mine := (upFrom 0 o.pieces.length).filter fun n => (o.pieces[n]?).any fun (p : Piece) => p.lane = lane
  let halves := mine.map fun n => (o.pieces[n]?).bind fun (p : Piece) => p.value
  if halves.all Option.isSome then
    let b := halves.flatMap fun h => h.getD []
    let put := fun (l : Lane) => { l with x := l.x.set (xNum o.dest) (xregOf b) }
    mine.foldl (fun d n => d.donePiece o.id n) (d.onLane o.thread lane put)
  else d

/-- Write what a performed read of a piece gives: its next register, its x register, its part of a fragment. -/
def Dev.writeLoaded (d : Dev) (o : Op) (n : Nat) (p : Piece) (b : List Byte) : Dev :=
  match o.kind with
  | .load size signed => d.writeRegister o n p size signed b
  | .xload => d.writeXload o p.lane
  | .frag form =>
    if o.pieces.all fun p => p.value.isSome then
      let rows := o.pieces.map fun p => (p.lane, p.value.getD [])
      d.writeRegister o n p 16 false (fragment form rows p.lane)
    else d
  | _ => d

/-! ## The copy of input tiles that lie in another package (R440) -/

/-- The copy of a chosen record's inputs goes on with the next part that lies in another package; its group, which waits for it,
starts after the last. -/
def Dev.auditCopy (d : Dev) (index : Nat) (g : Group) : List (Nat × Nat × Nat) → Dev
  | [] => d.onGroup g.gid fun g => { g with warps := g.warps.map fun w => match w.wait with
      | .op _ => { w with wait := .none }
      | _ => w }
  | (va, n, lpa) :: rest =>
    match d.sidePlace (mkTag g.ctx g.epoch) va false with
    | .inl (.mem pa leaf v) =>
      if pa.pkg.isNone then d.auditCopy index g rest
      else
        let p := Piece.new 0 (.mem pa leaf v) n
        let o := { d.opFor (.warp g.gid 0) (.audit index lpa) .prefetch none 0 with pieces := [p] }
        let (id, d) := d.addOp o
        let d := d.onGroup g.gid fun g => { g with warps := g.warps.map fun w => { w with wait := .op id } }
        { d with audits := d.audits.map fun a => if a.index = index then { a with left := rest } else a }
    | _ => d.auditCopy index g rest

/-- What is left to copy for an audit is copied. -/
def Dev.auditNext (d : Dev) (index : Nat) : Dev :=
  match d.audits.find? fun a => a.index = index with
  | some a => ((d.group a.gid).map fun g => d.auditCopy index g a.left).getD d
  | none => d

/-- A part of an input tile has come: it goes into the log. -/
def Dev.auditLine (d : Dev) (o : Op) (index lpa : Nat) : Dev :=
  let b := ((o.pieces.head?).bind fun p => p.value).getD []
  ((d.homeWrite lpa b).dropOp o.id).auditNext index

/-- What follows a performed read at once: a prefetch is done, and an instruction that holds issue ends with its last
read. -/
def Dev.afterRead (d : Dev) (id n : Nat) : Dev :=
  match d.op id with
  | none => d
  | some o =>
    let all := o.pieces.all fun p => p.done || p.value.isSome
    match o.kind with
    | .prefetch _ => if (o.pieces[n]?).any fun (p : Piece) => p.value.isSome then d.donePiece id n else d
    | .acq scope => if all then d.acqFinish o scope else d
    | .ald arr => if all then d.aldFinish o arr else d
    | .jmpt => if all then d.jmptFinish o else d
    | .audit index lpa => if all then d.auditLine o index lpa else d
    | _ => d

/-- Whether the values that a piece's registers need are all read. -/
def Op.written (o : Op) (p : Piece) : Bool :=
  match o.kind with
  | .load _ _ => p.value.isSome
  | .xload => o.pieces.all fun q => q.lane != p.lane || q.value.isSome
  | .frag _ => o.pieces.all fun q => q.value.isSome
  | _ => false

/-- Perform a piece's read when it is not performed yet; none when it is and its registers cannot be written. -/
def Dev.readFirst (d : Dev) (f : Fuses) (id n : Nat) : Option Dev :=
  match d.op id with
  | none => none
  | some o =>
    match o.pieces[n]? with
    | some p => if p.value.isSome && !p.done then (if o.written p then some d else none) else d.readPiece f id n
    | none => none

/-! ## STORE_ACK (R44, R125) -/

/-- STORE_ACK (R44, R125): a store reaches its home point in this package, is performed there and acknowledged; the message of one, or
of a method call, that waited for an earlier one of its die leaves for another package (R106). -/
def execStoreAck (op piece : Nat) (s : State) : Out :=
  happen s fun d =>
    match d.op op with
    | none => none
    | some o =>
      match o.kind with
      | .store => (d.writePiece op piece).orElse fun _ => d.leavePiece op piece
      | .rel => (d.writePiece op piece).orElse fun _ => (d.leavePiece op piece).map fun d => d.relSent op
      | .call _ _ => d.leavePiece op piece
      | _ => none

/-! ## ATOMIC_REPLY (R343) -/

/-- The first piece of an operation that satisfies a test. -/
def Op.pieceAt (o : Op) (f : Piece → Bool) : Option Nat :=
  (upFrom 0 o.pieces.length).find? fun n => (o.pieces[n]?).any f

/-- ATOMIC_REPLY (R128, R343): the next lane's atomic is performed at its home point, or leaves for another package, lanes in ascending
order; with `write` the old value of a performed one goes to the next of its registers. -/
def execAtomicReply (op : Nat) (how : Arrive) (s : State) : Out :=
  happen s fun d =>
    match d.op op with
    | none => none
    | some o =>
      match o.kind with
      | .atomic _ wide _ _ =>
        let perform := (o.pieceAt fun p => p.open_).bind fun n => (d.writePiece op n).orElse fun _ => d.leavePiece op n
        match how with
        | .fix => perform
        | .write =>
          match o.pieceAt fun p => !p.done && p.value.isSome with
          | some n => (o.pieces[n]?).map fun p => d.writeRegister o n p (if wide then 8 else 4) false (p.value.getD [])
          | none => perform
      | _ => none

end Sys2Proof.Machine
end

