-- ==== Sys2Proof/Machine/Receive.lean ====
section
/-! DEFINITION. Messages that arrive from other packages and the answers to those sent (R21, R22, R93, R97, R147 to R151,
R155 to R158, R160, R350, R480, R483). -/

namespace Sys2Proof.Machine

/-! ## What becomes of a message -/

/-- What handing a message to its unit answers: performed with what its acknowledgement carries, refused, retry, held at its
home point, taken in to be answered later, discarded without an answer, or it cannot be reached now. -/
inductive Got where
  | ack (p : Payload) (d : Dev)
  | refused (d : Dev)
  | retry (d : Dev)
  | held (d : Dev)
  | taken (d : Dev)
  | discarded (d : Dev)
  | wait

/-! ## Headers (R147) -/

/-- The first 8 bytes of a header. -/
def headerFirst (h : Header) : DWord :=
  BitVec.ofNat 64 (field 60 h.kind.toNat + field 48 h.srcCtx.toNat + field 40 h.job.toNat + field 28 h.tgtCtx.toNat +
    field 15 h.srcPkg.toNat + field 13 h.srcDie.toNat + h.dstPkg.toNat)

/-- Whether a receiver discards a message: a reserved kind, or a nonzero reserved bit. -/
def headerBad (h : Header) : Bool := 11 ≤ h.kind.toNat || h.reserved1 ≠ 0 || h.reserved2 ≠ 0

/-- The die whose interface receives a message: that of its home point, of the barrier or owner address in its payload, or of
the requester of a reply (R145, log 10). -/
def Dev.receivingDie (d : Dev) (m : Msg) : Nat :=
  match m.payload with
  | .signal v _ _ => (BarHandle.ofWord v).die
  | .podArrive _ => 0
  | .podInit _ _ => 0
  | .spawn _ owner => ownerDie owner.toNat
  | .reply dest _ _ => ((d.op dest.op).map fun o => o.core.die).getD 0
  | _ => ownerDie m.header.lpa.toNat

/-- Discard a message and record it (R147, R427). -/
def Dev.discard (d : Dev) (die : Nat) (h : Header) : Dev :=
  d.event (Event.of 11 0 0xFFFF (BitVec.ofNat 64 die) (headerFirst h) 0)

/-! ## What messages do -/

/-- Count a message as consumed at a die's interface (R153). -/
def Dev.consume (d : Dev) (die : Nat) (h : Header) : Dev := (d.countConsumed die h.srcCtx.toNat h.job.toNat).getD d

/-- Whether a consumption of a message's job has an entry, or can be given one (R156). -/
def Dev.mayConsume (d : Dev) (die : Nat) (h : Header) : Bool := (d.withJob die h.srcCtx.toNat h.job.toNat).isSome

/-- The device in which the job of a message has an entry at a die, where it can be given one. -/
def Dev.withEntry (d : Dev) (die : Nat) (h : Header) : Dev := (d.withJob die h.srcCtx.toNat h.job.toNat).getD d

/-- The page attributes of a peer's access at its home point: a message carries none, and fills nothing (log 10). -/
def peerLeaf : Leaf := ⟨4096, 1, 0b100000000#9, true, false, false, 0, 0, 0⟩

/-- The home points of a die that have checked an LPA against a valid context's export table keep its entries (R22). -/
def Dev.noteExports (d : Dev) (ctx lpa : Nat) : Dev := if d.ctxValid ctx then d.keepExports (dieOf lpa) (d.tag ctx) else d

/-- Whether the home point refuses an access of a target context to a line: one that a redirect leads to a poisoned frame among them
(R21, R22, R93, R98, R157). -/
def Dev.refuses (d : Dev) (h : Header) (write : Bool) : Bool :=
  !d.exported h.tgtCtx.toNat h.lpa.toNat write || d.poisoned h.lpa.toNat || d.poisoned (d.home h.lpa.toNat) || d.resetting h.tgtCtx.toNat

/-- Write the runs of a beat into a destination line; together they may cover it (R49, R148). -/
def Dev.writeRuns (d : Dev) (line : Nat) (runs : List (Nat × List Byte)) : Dev :=
  let d := runs.foldl (fun d r => d.writeHome (line + r.1) peerLeaf none r.2) d
  if runs.foldl (fun m r => m ||| lineBits r.1 r.2.length) 0 = 2 ^ 128 - 1 then d.lineWritten line else d

/-- Perform a store, beat or atomic at its home point: what its acknowledgement carries. -/
def Dev.performMsg (d : Dev) (m : Msg) : Payload × Dev :=
  let lpa := m.header.lpa.toNat
  match m.payload with
  | .bytes b => (if m.header.kind = 6 then .bytes b else .none, d.writeHome lpa peerLeaf none b)
  | .beat runs => (.bytes (runs.flatMap fun r => r.2), d.writeRuns (lpa / 128 * 128) runs)
  | .atomic wide _ b cmp =>
    let n := if wide then 8 else 4
    let old := bytesD (d.homeRead lpa n)
    let new := atomicNew m.header.operand.toNat wide old b cmp
    (.bytes (natBytes old.toNat n), d.writeHome lpa peerLeaf none (natBytes new.toNat n))
  | _ => (.none, d)

/-- The bytes that a message at an LPA may write: first and length. -/
def payloadSpan (lpa : Nat) : Payload → Nat × Nat
  | .bytes b => (lpa, b.length)
  | .beat _ => (lpa / 128 * 128, 128)
  | .atomic wide _ _ _ => (lpa, if wide then 8 else 4)
  | _ => (lpa, 0)

/-- A write of a peer at its home point: refused, held by a migration, behind a running wave, or performed (R21, R93, R97,
R131). An atomic that finds uncorrectable data poisons its frame (R92) and is refused. -/
def Dev.peerWrite (d : Dev) (m : Msg) : Got :=
  let lpa := m.header.lpa.toNat
  if headerBad m.header then .discarded (d.discard (d.receivingDie m) m.header)
  else
  let d := d.noteExports m.header.tgtCtx.toNat lpa
  if d.refuses m.header true then .refused d
  else if d.inHold lpa then
    match d.hold_ (dieOf (d.home lpa)) (.msg m) with
    | (true, d) => .held d
    | (false, d) => .retry d
  else if d.waveHolds (payloadSpan lpa m.payload).1 (payloadSpan lpa m.payload).2 then .wait
  else
    match m.payload with
    | .bytes _ => let (p, d) := d.performMsg m; .ack p d
    | .beat _ => let (p, d) := d.performMsg m; .ack p d
    | .atomic _ _ _ _ => if d.bad lpa then .refused (d.foundBad lpa) else let (p, d) := d.performMsg m; .ack p d
    | _ => .wait

/-- Perform a held message at the end of a migration, and acknowledge it (R96 step 5, R97). -/
def Dev.releaseMsg (d : Dev) (m : Msg) : Dev :=
  let k := d.receivingDie m
  let (p, d) := d.performMsg m
  (d.consume k m.header).answer k m 0 p

/-- Perform a held or resent write (R96 step 5, R97). -/
def Dev.releaseHeld (d : Dev) (h : HeldItem) : Dev :=
  match h with
  | .piece op n _ => d.releasePiece op n
  | .write c e _ lpa leaf b => (d.writeHome lpa leaf none b).onCopy c e fun x => { x with unanswered := x.unanswered - 1 }
  | .log _ _ lpa leaf b => d.storeHome lpa leaf none b
  | .msg m => d.releaseMsg m

/-- The bytes that a held or resent write may touch, from where its LPA leads. -/
def heldSpan (h : HeldItem) (at_ : Nat) : Nat × Nat :=
  match h with
  | .piece _ _ _ => (at_, 16)
  | .write _ _ _ _ _ b => (at_, b.length)
  | .log _ _ _ _ b => (at_, b.length)
  | .msg m => payloadSpan at_ m.payload

/-- A remote spawn (R386, R483): its owner address must be exported; its record is accepted as a counted one. -/
def Dev.peerSpawn (d : Dev) (m : Msg) : Got :=
  if headerBad m.header then .discarded (d.discard (d.receivingDie m) m.header)
  else
    match m.payload with
    | .spawn b owner =>
      let ctx := m.header.tgtCtx.toNat
      let d := d.noteExports ctx owner.toNat
      if !d.exported ctx owner.toNat false || d.poisoned owner.toNat then .refused d
      else
        let r := { Rec.entering b 0 ctx none (d.ctxEpoch ctx) (m.header.srcCtx.toNat * 256 + m.header.job.toNat) true none .remote
          with owner := owner.toNat, pinned := true }
        (match d.enterRec (dieOf owner.toNat) r with
         | some d => .ack .none ((d.countEntered (dieOf owner.toNat) r).getD d)
         | none => .refused d)
    | _ => .wait

/-- A remote signal: an arrival at a barrier register or a pod barrier, or a pod barrier's initialisation (R350, R480). -/
def Dev.peerSignal (d : Dev) (m : Msg) : Got :=
  let ctx := m.header.tgtCtx.toNat
  let answer := fun (x : Option Dev) => match x with
    | some d => Got.ack .none d
    | none => .refused d
  let here := d.ctxValid ctx && d.root ctx = d.pkgNum
  if headerBad m.header then .discarded (d.discard (d.receivingDie m) m.header)
  else
    match m.payload with
    | .signal v isRel scope => answer (d.arriveSignal v ctx isRel scope)
    | .podArrive n => answer (if here then d.arrive (.wide 4 0 ctx n) Arrival.plain else none)
    | .podInit n e => answer (if here && !d.barBusy (.wide 4 0 ctx n) then some (d.initBar (.wide 4 0 ctx n) e) else none)
    | _ => .wait

/-! ## Method calls and their replies (R169, R173, R182) -/

/-- The home core that serves an object (R169). -/
def homeCore (lpa : Nat) : CoreRef := ⟨dieOf lpa, true, lpa / 128 % 8⟩

/-- Whether the requester of a method call may still send: a call of this package whose operation has ended does not. -/
def Dev.calling (d : Dev) (who : Nat × Nat × Nat) : Bool := who.1 != d.pkgNum || (d.op who.2.2).isSome

/-- The order of the requests at a Wain: by the arrival of their call, then by their own (R174). -/
def Request.before (a b : Request) : Bool := decide (a.call < b.call) || (a.call == b.call && a.stamp.ble b.stamp)

/-- A Wain with the request of a party, arrived as number `t` with so many lanes of its call to come: it stands behind those of its
call, before any that has arrived between them (R174). -/
def Core.enters (k : Core) (q : Request) (who : Nat × Nat × Nat) (more t : Nat) : Core :=
  let call := ((k.opened.find? fun x => x.lpa == q.lpa && x.who == who).map fun x => x.first).getD t
  let rest := k.opened.filter fun x => !(x.lpa == q.lpa && x.who == who)
  { k with
    opened := if more = 0 then rest else ⟨q.lpa, who, call⟩ :: rest
    requests := sortBy Request.before (k.requests ++ [{ q with stamp := t, call := call }])
    starved := k.starved.filter fun x => x ≠ (q.ctx, who) }

/-- The requests at a Wain, those of its running waves among them. -/
def Core.calls (k : Core) : List Request := k.requests ++ k.waves.flatMap fun w => (w.map fun w => w.reqs).getD []

/-- Whether a Wain has room for a request of a context to an object (R173). -/
def Dev.wainRoom (d : Dev) (k : Core) (ctx lpa : Nat) : Bool :=
  let q := k.calls
  let objects := (q.map fun x => x.lpa).eraseDups
  decide (q.length < 4096) && (objects.contains lpa || decide (objects.length < 512)) &&
    !(1024 ≤ (q.filter fun x => x.ctx == ctx).length && k.starved.any fun x => x.1 != ctx && d.calling x.2)

/-- A request of a party, with so many lanes of its call to come, reaches the Wain that its object's home point leads to (R98): whether
it is queued; one that finds no room is to be sent again (R173). -/
def Dev.admitRequest (d : Dev) (q : Request) (who : Nat × Nat × Nat) (more : Nat) : Bool × Dev :=
  let q := { q with lpa := d.home q.lpa }
  let c := homeCore q.lpa
  if d.wainRoom (d.core c) q.ctx q.lpa then
    let (t, d) := d.bump
    (true, d.onCore c fun k => k.enters q who more t)
  else
    (false, d.onCore c fun k => { k with starved := if k.starved.contains (q.ctx, who) then k.starved else (q.ctx, who) :: k.starved })

/-- A call of another package that is not queued is over for its object's queue, and waits for no room (R173, R174). -/
def Dev.closeCall (d : Dev) (h : Header) : Dev :=
  let lpa := d.home h.lpa.toNat
  let its := fun (who : Nat × Nat × Nat) => who.1 == h.srcPkg.toNat && who.2.1 == h.srcDie.toNat
  d.onCore (homeCore lpa) fun k =>
    { k with
      opened := k.opened.filter fun x => !(x.lpa == lpa && its x.who)
      starved := k.starved.filter fun x => !(x.1 == h.tgtCtx.toNat && its x.2) }

/-- A method call of another package (R169, R173): queued at the home core, refused, or answered retry. -/
def Dev.peerCall (d : Dev) (m : Msg) : Got :=
  if headerBad m.header then .discarded ((d.discard (d.receivingDie m) m.header).closeCall m.header)
  else
    let d := d.noteExports m.header.tgtCtx.toNat m.header.lpa.toNat
    if d.refuses m.header true then .refused (d.closeCall m.header) else
    match m.payload with
    | .call sel arg dest more =>
      let q : Request :=
        { stamp := 0, call := 0, lpa := m.header.lpa.toNat, ctx := m.header.tgtCtx.toNat, sel := sel, arg := arg, dest := dest,
          msg := some m, key := (m.header.srcCtx.toNat, m.header.job.toNat), single := false, leaf := peerLeaf }
      (match d.admitRequest q (m.header.srcPkg.toNat, m.header.srcDie.toNat, dest.op) more with
       | (true, d) => .taken d
       | (false, d) => .retry d)
    | _ => .wait

/-- A method reply of another package (R182, R183): it is written to its lane, and consumed once its pair and its predicate are (R148);
one that finds its warp gone is discarded and consumed. -/
def Dev.peerReply (d : Dev) (m : Msg) : Got :=
  if headerBad m.header then .discarded (d.discard (d.receivingDie m) m.header)
  else
    match m.payload with
    | .reply dest value status => .taken (d.writeReply dest value status (some (d.receivingDie m, m)))
    | _ => .wait

/-- Hand a counted message to its unit (R148); one for a context that is being reset is refused (R434). -/
def Dev.handle (d : Dev) (m : Msg) : Got :=
  let k := m.header.kind.toNat
  if d.resetting m.header.tgtCtx.toNat && !headerBad m.header then .refused d
  else if k = 2 then d.peerCall m else if k = 3 then d.peerReply m else if k = 4 then d.peerSpawn m
  else if k = 5 then d.peerSignal m else d.peerWrite m

/-! ## The order of a flow (R149) -/

/-- The flow of a message has passed its sequence. -/
def Dev.passSeq (d : Dev) (h : Header) : Dev :=
  let f := d.flowIn h
  let f := { f with next := h.seq + 1, held := f.held.filter fun x => x.1.header.seq ≠ h.seq }
  d.setFlow (f.skip (f.abandoned.length + 1))

/-- Hand the next message of a flow to its unit, and answer it: the state, and whether the flow goes on. The job of one that is held or
taken in has its entry from then on (R155, R156). -/
def Dev.hand (d : Dev) (die : Msg → Nat) (m : Msg) : Option (Bool × Dev) :=
  let k := die m
  if !d.mayConsume k m.header then some (false, d.emit k (d.responseTo m 2 .none))
  else
    match d.handle m with
    | .ack p d => some (true, ((d.passSeq m.header).consume k m.header).answer k m 0 p)
    | .refused d => some (true, (d.passSeq m.header).answer k m 1 .none)
    | .retry d => some (false, d.emit k (d.responseTo m 2 .none))
    | .held d => some (true, ((d.withEntry k m.header).passSeq m.header).answer k m 3 .none)
    | .taken d => some (true, (d.withEntry k m.header).passSeq m.header)
    | .discarded d => some (true, (d.passSeq m.header).consume k m.header)
    | .wait => none

/-- Hand on the messages that were held ahead of a gap, as far as they come next. -/
def Dev.drain (d : Dev) (die : Msg → Nat) (h : Header) : Nat → Dev
  | 0 => d
  | n + 1 =>
    let f := d.flowIn h
    match f.held.find? fun m => m.1.header.seq = f.next with
    | none => d
    | some (m, _) =>
      match d.hand die m with
      | some (true, d) => d.drain die h n
      | some (false, d) =>
        let f := d.flowIn h
        d.setFlow { f with held := f.held.filter fun x => x.1.header.seq ≠ m.header.seq }
      | none => d

/-- A counted message arrives (R149): in its turn it is handed on, behind it is a duplicate that gets its first answer again,
ahead it is held or answered retry. -/
def Dev.arriveMsg (d : Dev) (die : Msg → Nat) (m : Msg) : Option Dev :=
  let f := d.flowIn m.header
  let ahead := (m.header.seq - f.next).toNat
  if !d.on then none
  else if !d.linkUp then some (d.emit (die m) (d.responseTo m 1 .none))
  else if f.abandoned.contains m.header.seq || 2 ^ 31 ≤ ahead then
    match f.answered.find? fun a => a.1 = m.header.seq with
    | some a => some (d.emit (die m) a.2)
    | none => some d
  else if ahead = 0 then
    match d.hand die m with
    | some (true, d) => some (d.drain die m.header (f.held.length + 1))
    | some (false, d) => some d
    | none => none
  else if f.held.any fun x => x.1.header.seq = m.header.seq then some d
  else if f.held.length < 256 then some (d.setFlow { f with held := f.held ++ [(m, d.tag m.header.srcCtx.toNat)] })
  else some (d.emit (die m) (d.responseTo m 2 .none))

/-- The meaning of a message that arrives: its kind is the event's, or a reserved one. -/
def msgEvent (kind : Nat) (m : Msg) (s : State) : Out :=
  happen s fun d => if m.header.kind.toNat = kind || 11 ≤ m.header.kind.toNat then d.arriveMsg d.receivingDie m else none

/-- REMOTE_STORE (R148, R21): a store of a peer is performed at its home point, or refused; a header is checked first. -/
def execRemoteStore (m : Msg) (s : State) : Out := msgEvent 0 m s

/-- REMOTE_ATOMIC (R148): its answer carries the old value. -/
def execRemoteAtomic (m : Msg) (s : State) : Out := msgEvent 1 m s

/-- COPY_BEAT (R148, R378): its answer carries the bytes as they were written. -/
def execCopyBeat (m : Msg) (s : State) : Out := msgEvent 6 m s

/-- REMOTE_SPAWN (R483). -/
def execRemoteSpawn (m : Msg) (s : State) : Out := msgEvent 4 m s

/-- REMOTE_SIGNAL (R350): operand 0. -/
def execRemoteSignal (m : Msg) (s : State) : Out :=
  if m.header.operand = 0 then msgEvent 5 m s else .fault .notEnabled

/-- REMOTE_POD_INIT (R480): operand 1. -/
def execRemotePodInit (m : Msg) (s : State) : Out :=
  if m.header.operand = 1 then msgEvent 5 m s else .fault .notEnabled

/-- REMOTE_LOAD (R21, R149): a read of a peer is checked against the export table and answered with its data, or refused. -/
def execRemoteLoad (m : Msg) (s : State) : Out :=
  happen s fun d =>
    let lpa := m.header.lpa.toNat
    match m.payload with
    | .read n =>
      if !d.on || m.header.kind ≠ 7 then none
      else if headerBad m.header then some (d.discard (ownerDie lpa) m.header)
      else
      let d := if d.linkUp then d.noteExports m.header.tgtCtx.toNat lpa else d
      if !d.linkUp || d.refuses m.header false then some (d.emit (ownerDie lpa) (d.responseTo m 1 (.loaded [])))
      else if d.bad lpa then some ((d.foundBad lpa).emit (ownerDie lpa) (d.responseTo m 1 (.loaded [])))
      else some (d.emit (dieOf lpa) (d.responseTo m 0 (.loaded (d.homeRead lpa n))))
    | _ => none

/-! ## Answers (R97, R150, R157, R158) -/

/-- The form of an answer's event: a response of the code; one with reserved bits set is discarded (R147). -/
def answerEvent (code : Nat) (m : Msg) (s : State) (f : Dev → Option Dev) : Out :=
  happen s fun d =>
    if !d.on || m.header.kind ≠ 7 || m.header.operand.toNat ≠ code then none
    else if headerBad m.header then some (d.discard m.header.srcDie.toNat m.header)
    else f d

/-- Change a kept message. -/
def Dev.onSent (d : Dev) (die : Nat) (x : Sent) (f : Sent → Sent) : Dev :=
  d.onDie die fun k => { k with sent := updBy (fun y => y.msg = x.msg) f k.sent }

/-- The data of a remote load or copy read has come (log 10: the answer's sequence names its operation or entry). -/
def Dev.loadArrived (d : Dev) (id : Nat) (b : List Byte) : Option Dev :=
  match d.op (id / 64) with
  | some _ => (d.readArrived (id / 64) (id % 64) b).map fun d => d.afterRead (id / 64) (id % 64)
  | none =>
    match d.cores.findSome? fun k => (k.copy.find? fun e => e.id = id / 64).map fun e => (k.ref, e) with
    | some (c, e) => d.copyArrived c e b
    | none => some d

/-- A remote load was refused (R21): its lane's destination stays and the loss bit is set; a prefetch, which takes no trap but at decode,
is dropped (R339); a copy fails with code 1. -/
def Dev.loadRefused (d : Dev) (id : Nat) : Dev :=
  match d.op (id / 64) with
  | some o =>
    let d := if o.access = .prefetch then d else d.markLoss o.thread
    (match o.kind with
     | .acq _ => (d.onPiece o.id (id % 64) fun p => { p with done := true }).afterRead o.id (id % 64)
     | .audit _ _ => (d.fixed o.id (id % 64) []).afterRead o.id (id % 64)
     | .ald _ => (d.onPiece o.id (id % 64) fun p => { p with done := true }).afterRead o.id (id % 64)
     | .jmpt => (d.onPiece o.id (id % 64) fun p => { p with done := true }).afterRead o.id (id % 64)
     | _ => d.donePiece o.id (id % 64))
  | none =>
    match d.cores.findSome? fun k => (k.copy.find? fun e => e.id = id / 64).map fun e => (k.ref, e) with
    | some (c, e) => (d.onCopy c e.id fun x => { x with asked := none }).failCopy c e.id 1
    | none => d

/-- An acknowledged phase notice is settled, and the next of its image leaves (R480). -/
def Dev.noticeAcked (d : Dev) (pkg ctx n expected : Nat) (phase : Bool) : Dev :=
  let mine := fun (x : Notice) => x.pkg == pkg && x.ctx == ctx && x.n == n
  match d.notices.find? mine with
  | some x =>
    if x.expected = expected && x.phase = phase then
      let d := { d with notices := d.notices.erase x }
      match d.notices.find? mine with
      | some y => ({ d with notices := updBy mine (fun z => { z with last := d.now }) d.notices }).emitNotice y
      | none => d
    else d
  | none => d

/-- ACK_RESPONSE (R150): it settles a counted message and returns its result, brings the data of a load, or settles a phase
notice. An acknowledgement that names nothing kept is ignored. -/
def execAckResponse (m : Msg) (s : State) : Out :=
  answerEvent 0 m s fun d =>
    match m.payload with
    | .loaded b => d.loadArrived m.header.seq.toNat b
    | .podNotice n e ph => some (d.noticeAcked m.header.srcPkg.toNat m.header.srcCtx.toNat n e ph)
    | p =>
      match d.sentFor m with
      | some x => some ((d.acked x.origin p).forget m.header.srcDie.toNat x)
      | none => some d

/-- REFUSED_RESPONSE (R157): the message is lost at once. -/
def execRefusedResponse (m : Msg) (s : State) : Out :=
  answerEvent 1 m s fun d =>
    match m.payload with
    | .loaded _ => some (d.loadRefused m.header.seq.toNat)
    | _ =>
      match d.sentFor m with
      | some x => some ((d.lostMsg m.header.srcDie.toNat x).forget m.header.srcDie.toNat x)
      | none => some d

/-- RETRY_RESPONSE (R97, R150): the wait starts again; the message is resent after 1 µs and stays unconsumed. -/
def execRetryResponse (m : Msg) (s : State) : Out :=
  answerEvent 2 m s fun d =>
    match d.sentFor m with
    | some x => some (d.onSent m.header.srcDie.toNat x fun y => { y with retry := true, resends := 0, last := d.now })
    | none => some d

/-- HELD_RESPONSE (R150): the wait starts again. -/
def execHeldResponse (m : Msg) (s : State) : Out :=
  answerEvent 3 m s fun d =>
    match d.sentFor m with
    | some x => some (d.onSent m.header.srcDie.toNat x fun y => { y with resends := 0, last := d.now })
    | none => some d

/-- A message in doubt turns out consumed: it is settled with no repair. The old value of an atomic did not come back, and what
its lane reads the spec does not give (log 3). -/
def Dev.settled (d : Dev) (o : Origin) : Dev :=
  match o with
  | .piece op n =>
    match d.op op with
    | some x =>
      (match x.kind with
       | .atomic _ _ _ _ => let (v, d) := d.fresh; d.acked o (.bytes (natBytes v.toNat 8))
       | _ => d.acked o .none)
    | none => d.donePiece op n
  | _ => d.acked o .none

/-- CONSUMED_RESPONSE (R157): the answer to a loss notice settles the message with no repair. -/
def execConsumedResponse (m : Msg) (s : State) : Out :=
  answerEvent 4 m s fun d =>
    match d.sentFor m with
    | some x => some ((d.settled x.origin).forget m.header.srcDie.toNat x)
    | none => some d

/-- ABANDONED_RESPONSE (R157): the answer to a loss notice makes the message lost. -/
def execAbandonedResponse (m : Msg) (s : State) : Out :=
  answerEvent 5 m s fun d =>
    match d.sentFor m with
    | some x => some ((d.lostMsg m.header.srcDie.toNat x).forget m.header.srcDie.toNat x)
    | none => some d

/-- PHASE_NOTICE (R480): the image of a pod barrier follows the root, its waiters are released, and the notice is
acknowledged; a package without a fixed number refuses it, and acts on nothing of it (R448, log 10). -/
def execPhaseNotice (m : Msg) (s : State) : Out :=
  answerEvent 6 m s fun d =>
    if !d.linkUp then some d else
    match m.payload with
    | .podNotice n e ph =>
      let ctx := m.header.tgtCtx.toNat
      let ref := BarRef.wide 4 0 ctx n
      match d.bar ref with
      | some b =>
        let x := { b with expected := e, phase := ph }
        let d := (d.setBar ref x).releaseWaiters ref (!ph) x
        some (d.emit 0 (d.responseTo m 0 m.payload))
      | none => none
    | _ => none

/-! ## Loss notices (R157) -/

/-- A kept message is looked for in the hold queues and the Wains of this package. -/
def sameMsg (a b : Header) : Bool := a.srcPkg = b.srcPkg && a.srcDie = b.srcDie && a.cls = b.cls && a.seq = b.seq

/-- Whether a running wave serves the request of a message. -/
def Dev.inWave (d : Dev) (h : Header) : Bool :=
  d.cores.any fun k => k.waves.any fun w => w.any fun w => w.reqs.any fun q => q.msg.any fun m => sameMsg m.header h

/-- Whether a reply that came in a message is still being written. -/
def Dev.inReply (d : Dev) (h : Header) : Bool :=
  d.transfers.any fun t => match t with
    | .reply _ _ _ (some (_, m)) => sameMsg m.header h
    | _ => false

/-- Whether a queued request is that of a message. -/
def Dev.inWain (d : Dev) (h : Header) : Bool :=
  d.cores.any fun k => k.requests.any fun q => q.msg.any fun m => sameMsg m.header h

/-- Take a message out of everything that holds it; a method call of its flow is open no longer (R174). -/
def Dev.dropMsg (d : Dev) (h : Header) : Dev :=
  let other := fun (m : Msg) => !sameMsg m.header h
  let d := (d.mapCores fun k => { k with requests := k.requests.filter fun q => q.msg.all other }).closeCall h
  d.mapDies fun k => { k with held := k.held.filter fun x => match x with
    | .msg m => other m
    | _ => true }

/-- LOSS_NOTICE (R157): consumed, or abandoned from now on. While the message's wave runs, or its reply is being written, the notice
waits. A package without a fixed number refuses it (R448). -/
def execLossNotice (m : Msg) (s : State) : Out :=
  happen s fun d =>
    if !d.on || m.header.kind ≠ 8 then none
    else if headerBad m.header then some (d.discard (d.receivingDie m) m.header)
    else
      let h := m.header
      let f := d.flowIn h
      let die := d.receivingDie m
      let first := ((f.answered.find? fun a => a.1 = h.seq).map fun a => a.2).map fun r => r.header.operand.toNat
      let behind : Bool := 2 ^ 31 ≤ (h.seq - f.next).toNat
      if !d.linkUp then some (d.emit die (d.responseTo m 1 .none))
      else if d.inWave h || d.inReply h then none
      else if f.abandoned.contains h.seq then some (d.emit die (d.responseTo m 5 .none))
      else if behind && !d.inWain h && (first = none || first = some 0) then some (d.emit die (d.responseTo m 4 .none))
      else
        let d := d.dropMsg h
        let r := d.responseTo m 5 .none
        let f := { f with
          abandoned := h.seq :: f.abandoned, held := f.held.filter fun x => x.1.header.seq ≠ h.seq
          answered := (h.seq, r) :: f.answered.filter fun a => a.1 ≠ h.seq }
        let d := (d.setFlow (f.skip (f.abandoned.length + 1))).emit die r
        some (d.drain d.receivingDie h (f.held.length + 1))

/-! ## Resends (R97, R150, R157, R480) -/

/-- FABCTL's resend limit, and its loss timeout in ns. -/
def Dev.resendLimit (d : Dev) : Nat := bits (d.reg .fabctl) 27 24
def Dev.lossTimeout (d : Dev) : Nat := 1000 * max 1 (bits (d.reg .fabctl) 43 28)

/-- Send a kept message again, on another working port of its interface where there is one, and keep the port it left by (R150). -/
def Dev.resend (d : Dev) (die : Nat) (x : Sent) (f : Sent → Sent) : Dev :=
  let (port, d) := d.emitBy die x.port x.msg
  d.onSent die x fun y => { f y with port := port }

/-- MESSAGE_RESEND (R150, R97): 100 µs without an answer, up to FABCTL's limit, or 1 µs after a retry answer; the resend
carries the same sequence and is not counted again. -/
def execMessageResend (die index : Nat) (s : State) : Out :=
  happen s fun d =>
    match (d.die die).sent[index]? with
    | none => none
    | some x =>
      if !d.on || x.doubt then none
      else if x.retry then
        (if d.now < x.last + 1000 then none else some (d.resend die x fun y => { y with retry := false, last := d.now }))
      else if d.now < x.last + 100000 || d.resendLimit ≤ x.resends then none
      else some (d.resend die x fun y => { y with resends := y.resends + 1, last := d.now })

/-- The loss notice of a message: it names the flow, the sequence and the job. -/
def Dev.emitLossNotice (d : Dev) (die : Nat) (x : Sent) : Dev :=
  d.emit die ⟨{ x.msg.header with kind := 8, len := 0 }, .none⟩

/-- MESSAGE_DOUBT (R157): the loss timeout passes after the last resend; the message enters doubt, counted, and a loss notice
names it. -/
def execMessageDoubt (die index : Nat) (s : State) : Out :=
  happen s fun d =>
    match (d.die die).sent[index]? with
    | none => none
    | some x =>
      if !d.on || x.doubt || x.retry || 64 ≤ (d.die die).doubts || x.resends < d.resendLimit || d.now < x.last + d.lossTimeout
      then none
      else
        let d := d.onSent die x fun y => { y with doubt := true, noticed := d.now }
        some ((d.onJob die x.key.1 x.key.2 fun j => { j with doubt := j.doubt + 1 }).emitLossNotice die x)

/-- LOSS_NOTICE_RESEND (R157): every 100 µs until it is answered. -/
def execLossNoticeResend (die index : Nat) (s : State) : Out :=
  happen s fun d =>
    match (d.die die).sent[index]? with
    | none => none
    | some x =>
      if !d.on || !x.doubt || d.now < x.noticed + 100000 then none
      else some ((d.onSent die x fun y => { y with noticed := d.now }).emitLossNotice die x)

/-- RETRY_RESEND (R97): a write of this package that was answered retry is resent after 1 µs, those of one die to one line in
their order; it is held, retried again, or performed when the hold has ended. -/
def execRetryResend (index : Nat) (s : State) : Out :=
  happen s fun d =>
    let all := d.dies.flatMap fun k => k.retried.map fun x => (k.idx, x)
    match all[index]? with
    | none => none
    | some (die, t, item) =>
      let key := d.heldKey item
      let earlier := (d.die die).retried.takeWhile fun x => x.2 ≠ item
      let span := heldSpan item key.2
      if d.now < t + 1000 || earlier.any fun x => (d.heldKey x.2).1 = key.1 && sameLine (d.heldKey x.2).2 key.2 then none
      else
        let taken := d.onDie die fun k => { k with retried := k.retried.filter fun x => x.2 ≠ item }
        if d.inHold key.2 then
          (if (d.die (dieOf key.2)).held.length < 64 then
             some (taken.onDie (dieOf key.2) fun k => { k with held := k.held ++ [item] })
           else some (d.onDie die fun k => { k with retried := k.retried.map fun x => if x.2 = item then (d.now, item) else x }))
        else if d.waveHolds span.1 span.2 then none
        else some (taken.releaseHeld item)

/-- PHASE_NOTICE_RESEND (R480): every 100 µs until the package acknowledges it. -/
def execPhaseNoticeResend (index : Nat) (s : State) : Out :=
  happen s fun d =>
    match d.notices[index]? with
    | none => none
    | some x =>
      if !d.on || d.now < x.last + 100000 || (d.notices.take index).any fun y => sameImage y x then none
      else some (({ d with notices := updAt d.notices index fun y => { y with last := d.now } }).emitNotice x)

/-! ## Traverse messages (R160) -/

/-- PROBE (R160, R147): die 0 reads the job's entries in all four interfaces and reports; the QUIETs of another package ask the root by
one too (R162, log 21). A package without a fixed number refuses a probe, and nothing answers it (R448, log 10). -/
def execProbe (m : Msg) (s : State) : Out :=
  happen s fun d =>
    if !d.on || m.header.kind ≠ 9 then none
    else if headerBad m.header then some (d.discard 0 m.header)
    else if !d.linkUp then some d
    else
      let ctx := m.header.srcCtx.toNat
      let job := m.header.job.toNat
      match m.payload with
      | .ask upTo ns => some (d.addAsk ⟨ctx, job, m.header.srcPkg.toNat, upTo, d.now + ns⟩)
      | _ =>
        let (x, d) := (d.spend 0 3).readJob ctx job m.header.operand.toNat
        some (d.sendPlain 0 ⟨10, ctx, job, ctx, m.header.srcPkg.toNat, m.header.operand.toNat, 0, 18⟩ m.header.seq
          (.report 1 x.injected x.consumed x.doubt x.activity x.lossy))

/-- REPORT (R160, R165, R147): a report of the running pass is added; at a package that is not the root one delivers the decision
of the job's traverse to the QUIETs that it covers, its operand the status, and clears the lossy bits that pass 2 has read when
some QUIET of the span was decided (R163, log 21). Reports carry no number of their traverse, so one of an abandoned pass with the
running pass's number is added like any other (DESIGN CHOICE, log 21). A package without a fixed number refuses a report, and acts on
nothing of it (R448, log 10). -/
def execReport (m : Msg) (s : State) : Out :=
  happen s fun d =>
    let ctx := m.header.srcCtx.toNat
    let job := m.header.job.toNat
    if !d.on || m.header.kind ≠ 10 then none
    else if headerBad m.header then some (d.discard 0 m.header)
    else if !d.linkUp then some d
    else
      match m.payload with
      | .decided upTo clear =>
        let d := d.deliverQuiet ctx job upTo.toNat m.header.operand.toNat
        some (if clear then d.clearRead ctx job else d)
      | .report n inj con doubt activity lossy =>
        if d.root ctx ≠ d.pkgNum then none
        else
          match d.traverses.find? fun t => t.ctx = ctx && t.job = job with
          | some t =>
            if t.pass = m.header.operand.toNat then
              some ((d.spend 0 3).putTraverse (t.add n ⟨inj, con, doubt, activity, lossy⟩))
            else some d
          | none => some d
      | _ => none

end Sys2Proof.Machine
end

