-- ==== Sys2Proof/Machine/Wain.lean ====
section
/-! DEFINITION. Combining at the home (R168 to R189): the arrival of requests and replies, the method table and the built-in
methods, forming a wave, its completion, its faults and the singleton re-runs. -/

namespace Sys2Proof.Machine

/-! ## Requests and replies inside the package (R169, R173, R182) -/

/-- The object of a lane of a method call, and its target context (R169, R170). -/
def Op.object (o : Op) (lane : Nat) : Option (Nat × Nat) :=
  (o.pieces.find? fun p => p.lane = lane).bind fun p => match p.target with
    | .mem pa leaf va => some (pa.lpa, if va / 2 ^ 54 = 1 then leaf.peer else tagCtx o.tag)
    | _ => none

/-- The lanes of an operation whose requests have still to reach one object, ascending. -/
def Dev.dueLanes (d : Dev) (o : Op) (lpa : Nat) : List Nat :=
  let ls := d.transfers.filterMap fun t => match t with
    | .request op lane _ => if op = o.id && ((o.object lane).any fun x => d.home x.1 = d.home lpa) then some lane else none
    | _ => none
  sortBy (fun (a b : Nat) => a.ble b) ls

/-- A lane's request, with so many to its object to come, reaches its Wain, and is queued or sent again after 1 µs (R173). A device
register's answer the spec does not give (log 18). -/
def Dev.requestLane (d : Dev) (o : Op) (lpa ctx : Nat) (lane more : Nat) : Dev :=
  let isIt := fun (t : Transfer) => match t with
    | .request op l _ => op == o.id && l == lane
    | _ => false
  let gone := { d with transfers := d.transfers.filter fun t => !isIt t }
  if isDevice lpa then let (v, d) := gone.fresh; d.writeReply ⟨o.id, lane⟩ v 0 none
  else
    let p := o.pieces.find? fun p => p.lane = lane
    let q : Request :=
      { stamp := 0, call := 0, lpa := lpa, ctx := ctx, sel := BitVec.ofNat 9 ((p.map fun p => p.cmp.toNat).getD 0),
        arg := bytesD ((p.map fun p => p.data).getD []), dest := ⟨o.id, lane⟩, msg := none, key := (o.job / 256, o.job % 256),
        single := false, leaf := ((p.bind fun p => p.target.leaf).getD peerLeaf) }
    match gone.admitRequest q (d.pkgNum, o.core.die, o.id) more with
    | (true, d) => d
    | (false, d) => { d with transfers := d.transfers ++ [.request o.id lane (d.now + 1000)] }

/-- METHOD_REQUEST (R133, R173, R174): the request of a lane reaches the Wain, the lanes of one instruction to one object in ascending
order, behind those of earlier calls of its queue; it is queued or answered retry. -/
def execMethodRequest (index : Nat) (s : State) : Out :=
  happen s fun d =>
    match d.transfers[index]? with
    | some (.request op lane due) =>
      if d.now < due then none
      else
        match d.op op with
        | none => some { d with transfers := d.transfers.eraseIdx index }
        | some o =>
          match o.object lane, o.pieces.find? fun p => p.lane = lane with
          | some (lpa, ctx), some p =>
            (match d.dueLanes o lpa with
             | l :: r => if l = lane && !d.callWaits o p then some (d.requestLane o lpa ctx l r.length) else none
             | [] => none)
          | _, _ => none
    | _ => none

/-- METHOD_CALL (R169): a method call of another package arrives at the home core. -/
def execMethodCall (m : Msg) (s : State) : Out := msgEvent 2 m s

/-- METHOD_REPLY (R182): a reply is written to its lane's destination and status predicate; inside the package it is a
transfer. -/
def execMethodReply (m : Option Msg) (index : Nat) (s : State) : Out :=
  match m with
  | some m => msgEvent 3 m s
  | none =>
    happen s fun d =>
      match d.transfers[index]? with
      | some (.reply dest value status msg) =>
        some (({ d with transfers := d.transfers.eraseIdx index }).writeReply dest value status msg)
      | _ => none

/-! ## Methods (R171, R172, R179) -/

/-- A method as its table entry gives it; a built-in one has no code, and needs nothing. -/
structure Method where
  entry : DWord
  gblk : Nat
  xq : Nat
  words : Nat
  limit : Nat
  scr : Nat
  data : DWord
  deriving DecidableEq, Repr

/-- The method a selector names in a context; none when it is not registered, its entry is bad, or the built-in code is
reserved (R172). A table LPA of 0 is taken as no table, so that every registered method is METHOD (DESIGN CHOICE, log 19). -/
def Dev.methodOf (d : Dev) (ctx : Nat) (sel : BitVec 9) : Option Method :=
  if sel.getLsbD 8 then (if sel.toNat % 256 ≤ 8 then some ⟨0, 0, 0, 1, 0, 0, 0⟩ else none)
  else
    let table := (d.ctxD ctx 40).toNat
    let a := table + 32 * (sel.toNat % 256)
    let w0 := d.homeD a
    let w1 := d.homeD (a + 8)
    let gblk := bits w1 63 60
    if table = 0 || bits w0 63 63 = 0 || bits w0 62 56 ≠ 0 || bits w0 1 0 ≠ 0 || bits w1 39 0 ≠ 0 || d.homeD (a + 24) ≠ 0 ||
      gblk = 0 || 14 < gblk || bits w1 53 46 = 0 || 32 < bits w1 45 40 then none
    else some ⟨BitVec.ofNat 64 (4 * bits w0 55 2), gblk, bits w1 59 58, bits w1 57 54 + 1, bits w1 53 46, bits w1 45 40,
      d.homeD (a + 16)⟩

/-- The next value of the object under a built-in method (R179). -/
def builtin (code : Nat) (v : Word) (a : DWord) : Word :=
  if code = 0 then v + a.lo
  else if code = 1 then (if a.lo.toInt < v.toInt then a.lo else v)
  else if code = 2 then (if v.toInt < a.lo.toInt then a.lo else v)
  else if code = 3 then v &&& a.lo
  else if code = 4 then v ||| a.lo
  else if code = 5 then v ^^^ a.lo
  else if code = 6 then a.lo
  else if code = 7 then (if v = a.lo then a.hi else v)
  else fAddPlain v a.lo

/-- The replies of a built-in wave and the final value, from a first value (R179). -/
def builtinRun (code : Nat) : Word → List DWord → List DWord × Word
  | v, [] => ([], v)
  | v, a :: r =>
    let (l, u) := builtinRun code (builtin code v a) r
    (v.setWidth 64 :: l, u)

/-! ## Answering requests (R182, R184) -/

/-- Whether the replies of some requests may be injected now. -/
def Dev.mayReply (d : Dev) (c : CoreRef) (qs : List Request) : Bool :=
  qs.all fun q => q.msg.isNone || d.mayInject c.die q.key.1 q.key.2

/-- Send a request's reply; a call of another package is consumed once its reply is injected (R154). -/
def Dev.sendReply (d : Dev) (c : CoreRef) (q : Request) (value : DWord) (status : Nat) : Dev :=
  match q.msg with
  | none => { d with transfers := d.transfers ++ [.reply q.dest value status none] }
  | some m =>
    let h := m.header
    let d := d.inject c.die ⟨3, q.key.1, q.key.2, h.srcCtx.toNat, h.srcPkg.toNat, status, h.lpa.toNat, 16⟩
      (.reply q.dest value status) .reply
    (d.consume c.die h).answer c.die m 0 .none

/-- Answer requests that get no wave, in arrival order (R168, R172, R179). -/
def Dev.answerAll (d : Dev) (c : CoreRef) (qs : List Request) (offset : Nat) (cause : BitVec 8) (status : Nat) : Option Dev :=
  if !d.mayReply c qs then none
  else
    let d := d.onCore c fun k => { k with requests := k.requests.filter fun q => !(qs.any fun x => x.stamp == q.stamp) }
    some (qs.foldl (fun d q => d.sendReply c q (errorWord offset cause status) status) d)

/-! ## Forming a wave (R175, R176) -/

/-- The free general blocks and index groups of a home core, and free KiB of its wave scratch (R192). -/
def Dev.waveFits (d : Dev) (c : CoreRef) (m : Method) : Bool :=
  let f := d.freePools c
  let scr := ((d.core c).waves.filterMap fun w => w).map fun w => w.scr
  m.gblk = 0 || (decide (m.gblk ≤ f.1) && decide (m.xq + 1 ≤ f.2.1) && decide (m.scr + scr.sum ≤ 128))

/-- The thread of a wave of `n` requests (R176). The rounding generators of its lanes the spec does not give (log 3). -/
def waveThread (slot free n : Nat) (sel : BitVec 9) (m : Method) (args : List DWord) : Thread :=
  let lane := fun (j : Nat) =>
    let a := args.getD j 0
    (⟨a.lo :: a.hi :: List.replicate 110 0, List.replicate 16 XReg.reset, 0, Config.freeValue (free + j)⟩ : Lane)
  { wid := 0, slot := slot % 4, lanes := (upFrom 0 32).map lane,
    s := [0, 0, BitVec.ofNat 32 n, sel.setWidth 32, m.data.lo, m.data.hi] ++ List.replicate 26 0,
    arrays := ⟨0, BitVec.ofNat 32 m.words, 3, true, false, true, true⟩ :: List.replicate 15 ArrReg.reset,
    frontier := [⟨m.entry, 0xFFFF, maskOf fun j => j < n, 0, m.entry⟩], loopCount := 0, clause := none,
    flags := List.replicate 12 0, unack := 0, loss := false, tvec := 0, tframe := 0, tcause := 0, pend := false,
    masked := false, handlers := [], wait := .none, trapped := none, seqFaults := [], runCrc := 0, frame := none,
    stamp := 0, freed := false, ended := false }

/-- The wave of some requests whose method is `m`: a built-in one is complete as it stands. -/
def Dev.newWave (d : Dev) (slot : Nat) (m : Method) (sel : BitVec 9) (lpa : Nat) (qs : List Request) : Wave :=
  let state := d.homeRead lpa (8 * m.words)
  let args := qs.map fun q => q.arg
  let t := waveThread slot d.free qs.length sel m args
  let w : Wave :=
    { thread := t, reqs := qs, sel := sel, entry := m.entry, buffer := state, words := m.words, scr := m.scr, gblk := m.gblk,
      xq := m.xq, scratch := [], replies := [], start := d.cycles, limit := m.limit, fault := none }
  if sel.getLsbD 8 then
    let (rs, v) := builtinRun (sel.toNat % 256) (BitVec.ofNat 32 (bytesNat (state.take 4))) args
    { w with
      thread := { t with frontier := [], ended := true }
      replies := mapIdx (fun j r => (j, r)) 0 rs
      buffer := natBytes v.toNat 4 ++ state.drop 4 }
  else w

/-- The requests of an object's queue that may be served now: behind a call some of whose lanes are still to come no other request
has its place yet (R174). -/
def Dev.servable (d : Dev) (c : CoreRef) (lpa : Nat) (queue : List Request) : List Request :=
  let opens := (d.core c).opened.filter fun x => x.lpa == lpa && d.calling x.who
  queue.filter fun q => opens.all fun x => decide (q.call ≤ x.first)

/-- The leading requests of an object's queue that one wave takes. -/
def leadingRun : List Request → List Request
  | [] => []
  | q :: r => if q.single then [q] else (q :: r.takeWhile fun x => x.sel = q.sel && x.ctx == q.ctx && !x.single).take 32

/-! ## The end of a wave (R178, R184, R185) -/

/-- Operations end without effect: what they would still write is dropped. -/
def Dev.killOps (d : Dev) (p : Op → Bool) : Dev :=
  (d.ops.filter p).foldl (fun d o => (d.freeFrames o).dropOp o.id) d

/-- A request stands again, by its arrival, in the queue of the home core that its object's home point leads to (R98, R185). -/
def Dev.requeue (d : Dev) (q : Request) : Dev :=
  let q := { q with lpa := d.home q.lpa }
  d.onCore (homeCore q.lpa) fun k => { k with requests := sortBy Request.before (q :: k.requests) }

/-- The object access of a wave at its home point, as the page's level selects (R47). -/
def Dev.objectUse (d : Dev) (q : Request) (dirty : Bool) : Dev :=
  d.l2Use q.lpa q.leaf.owner q.leaf.evict none (q.leaf.level ≠ 2) dirty

/-- A wave faults: it is discarded; several requests are to be run again one by one, a single one is answered. -/
def Dev.faultWave (d : Dev) (c : CoreRef) (slot : Nat) (w : Wave) (cause : BitVec 8) (offset : Nat) : Option Dev :=
  let gone := (d.killOps fun o => o.thread = .wave c slot).onCore c fun k => { k with waves := k.waves.set slot none }
  match w.reqs with
  | [q] => if d.mayReply c [q] then some (gone.sendReply c q (errorWord offset cause 1) 1) else none
  | qs => some (qs.foldl (fun d q => d.requeue { q with single := true }) gone)

/-- The offset of an entry from a wave's entry address, in words. -/
def Wave.offset (w : Wave) (pc : DWord) : Nat := min ((pc - w.entry).toNat / 4) 0xFFFF

/-- The line of the object of a method call of this package leaves the near caches of its issuer: a read that filled them since the
call issued may have been before the wave's write (R109). -/
def Dev.dropObject (d : Dev) (dest : ReplyTo) : Dev :=
  match (d.op dest.op).bind fun o => (upFrom 0 o.pieces.length).find? fun n => (o.pieces[n]?).any fun p => p.lane = dest.lane with
  | some n => d.dropNear dest.op n
  | none => d

/-- WAVE_COMPLETE (R178, R184, R185): every lane has exited, which none does past the time limit; the state is written as one
write, then the replies go out in lane order. A faulted wave is discarded. -/
def execWaveComplete (core : CoreRef) (slot : Nat) (s : State) : Out :=
  happen s fun d =>
    match (d.core core).waves.getD slot none with
    | none => none
    | some w =>
      match w.fault with
      | some (cause, offset) => d.faultWave core slot w cause offset
      | none =>
        if !w.thread.ended || d.ops.any fun o => o.thread = .wave core slot then none
        else if w.thread.loss then
          d.faultWave core slot w causeLost (w.offset ((w.thread.trapped.map fun e => e.pc).getD w.entry))
        else if !d.mayReply core w.reqs then none
        else
          match w.reqs with
          | [] => none
          | q :: _ =>
            let d := d.objectUse q true
            let d := d.homeWrite q.lpa (if w.sel.getLsbD 8 then w.buffer.take 4 else w.buffer)
            let d := w.reqs.foldl (fun d q => if q.msg.isNone then d.dropObject q.dest else d) d
            let d := d.onCore core fun k => { k with waves := k.waves.set slot none }
            let value := fun (j : Nat) => ((w.replies.find? fun x => x.1 = j).map fun x => x.2).getD 0
            some (foldIdx (fun j d q => d.sendReply core q (value j) 0) 0 d w.reqs)

/-- WAVE_TIME_LIMIT (R178, R182): some lane of the wave has not exited within its limit: a METHOD fault at the clause header of
the first entry of its frontier. -/
def execWaveTimeLimit (core : CoreRef) (slot : Nat) (s : State) : Out :=
  happen s fun d =>
    match (d.core core).waves.getD slot none with
    | none => none
    | some w =>
      let now := match w.thread.clause with
        | some c => insertEntry c.entry w.thread.frontier
        | none => w.thread.frontier
      let first := (now.head?.orElse fun _ => w.thread.trapped).map fun e => e.clause
      if w.fault.isSome || w.thread.ended || !d.timedOut w then none
      else d.faultWave core slot w causeMethod (w.offset (first.getD w.entry))

end Sys2Proof.Machine
end

