-- ==== Sys2Proof/Machine/Scheduler.lean ====
section
/-! DEFINITION. Dispatch (R407, R408, R411 to R416, R440): the checks of a record, the order in which ready records are taken,
the cores they are bound to, audit, and the event DISPATCH. -/

namespace Sys2Proof.Machine

/-! ## Queue slots (R404, R407) -/

/-- What a queue slot holds before anything is written to it. -/
def Slot.reset (q : Nat) : Slot := ⟨q, 0, 0, false, false, none, false, none, none, false, 0⟩

def Dev.slot (d : Dev) (q : Nat) : Slot := (d.slots.find? fun x => x.q = q).getD (Slot.reset q)

def Dev.onSlot (d : Dev) (q : Nat) (f : Slot → Slot) : Dev :=
  { d with slots := if d.slots.any fun x => x.q = q then updBy (fun x => x.q = q) f d.slots else d.slots ++ [f (Slot.reset q)] }

/-- The fields of a slot's registers. -/
def Dev.slotMapped (d : Dev) (q : Nat) : Bool := bits (d.reg (.qctl q)) 63 63 == 1
def Dev.slotSusp (d : Dev) (q : Nat) : Bool := bits (d.reg (.qctl q)) 62 62 == 1
def Dev.slotCtx (d : Dev) (q : Nat) : Nat := bits (d.reg (.qctl q)) 61 50
def Dev.setSusp (d : Dev) (q : Nat) (v : Bool) : Dev :=
  let n := (d.reg (.qctl q)).toNat
  d.setReg (.qctl q) (BitVec.ofNat 64 (n - n / 2 ^ 62 % 2 * 2 ^ 62 + v.toNat * 2 ^ 62))

/-- The place of a slot in the order of R408, smaller first; none while nothing of it may be dispatched (R407, R429, R483). -/
def Dev.slotOrder (d : Dev) (slot : Option Nat) : Option (Nat × Nat × Nat) :=
  match slot with
  | none => some (2, 0, 0)
  | some q =>
    if !d.slotMapped q || d.slotSusp q || (d.slot q).draining then none
    else if d.reg (.qperiod q) = 0 then some (1, 0, q)
    else if d.reg (.qbudget q) = 0 then none
    else some (0, (d.slot q).deadline, q)

/-- Lexicographic order of three numbers. -/
def order3 (a b : Nat × Nat × Nat) : Bool :=
  a.1.blt b.1 || (a.1 == b.1 && (a.2.1.blt b.2.1 || (a.2.1 == b.2.1 && a.2.2.ble b.2.2)))

/-- Of two records of a slot, the one taken first: the higher band, then the older (R408). -/
def Rec.before (a b : Rec) : Bool :=
  (recBand b.bytes).blt (recBand a.bytes) || (recBand a.bytes == recBand b.bytes && a.seq.ble b.seq)

/-- The record of each slot that is taken next from a pool, in the order of R408. -/
def Dev.heads (d : Dev) (die : Nat) : List Rec :=
  let pool := (d.die die).pool
  let slots := (pool.map fun r => r.slot).eraseDups.filterMap fun s => (d.slotOrder s).map fun o => (o, s)
  (sortBy (fun a b => order3 a.1 b.1) slots).filterMap fun p =>
    (sortBy Rec.before (pool.filter fun r => r.slot = p.2)).head?

/-! ## Tile lists (R414) -/

/-- The declared inputs, read-only ones among them, and outputs: base and length. -/
structure Tiles where
  inputs : List (Nat × Nat)
  outputs : List (Nat × Nat)
  deriving DecidableEq, Repr

/-- The tile list of a record, or the cause it is refused with (R42, R413, R414). -/
def Dev.tiles (d : Dev) (r : Rec) : Tiles ⊕ BitVec 8 :=
  let tag := mkTag r.ctx (recEpoch r.bytes)
  let a := (recD r.bytes 32).toNat
  if a = 0 then .inl ⟨[], []⟩
  else
    match d.sideRead tag 8 a 1 with
    | .inr c => .inr c
    | .inl h =>
      let n := bytesNat h
      if 16 < n then .inr causeIllegal
      else
        match (if 2 ^ 54 < a + 8 + 16 * n then .inr causeXlate else d.sideRead tag 8 (a + 8) (2 * n)) with
        | .inr c => .inr c
        | .inl b =>
          let es := (upFrom 0 n).map fun k => ((recD b (16 * k)).toNat, (recD b (16 * k + 8)).toNat)
          let tile := fun (e : Nat × Nat) => (e.1, e.2 % 2 ^ 32)
          if es.any fun e => 2 ^ 55 ≤ e.1 then .inr causeXlate
          else if es.any fun e => 8 ≤ e.2 / 2 ^ 32 then .inr causeIllegal
          else .inl ⟨(es.filter fun e => bitOf e.2 32 || bitOf e.2 34).map tile, (es.filter fun e => bitOf e.2 33).map tile⟩

/-! ## Copy records (R411) -/

/-- A copy record's command, its signal, the die it must be bound on. -/
structure CopyPlan where
  op : CopyOp
  signal : Option DWord
  die : Option Nat
  deriving DecidableEq, Repr

/-- The die of the lease that a command names. -/
def leaseDie (fill : Bool) (dk sk : BitVec 3) (dsp ssp : BitVec 2) (slot : Nat → DWord) : Option Nat :=
  if dsp = 2 then some (bits (slot dk.toNat) 31 30) else if ssp = 2 && !fill then some (bits (slot sk.toNat) 31 30) else none

/-- The command of a copy descriptor's words, or the cause it is refused with. -/
def Dev.planOf (d : Dev) (r : Rec) (slot : Nat → DWord) (fill : Bool) (dk sk : BitVec 3) (dsp ssp : BitVec 2) (st : BitVec 5)
    (sg : BitVec 1) (h : BitVec 3) (f : BitVec 1) (g : Guard) (sh : Shape) : CopyPlan ⊕ BitVec 8 :=
  let fields := [sh.sh0, sh.sh1, sh.sh2, sh.sh3, sh.sh4, sh.sh5, sh.sh6]
  let die := leaseDie fill dk sk dsp ssp slot
  if f ≠ 0 || g ≠ 0b0111 || st ≠ 0 || bitOf sh.sh7.value.toNat 3 || fields.any fun x => x.value = 0x7FF then .inr causeIllegal
  else
    match d.copyCommand none (die.getD 0) r.ctx false fill dk sk dsp ssp sh slot fun x => x.value.toNat with
    | .inr k => .inr k.cause
    | .inl op => .inl ⟨op, if sg = 1 then some (slot h.toNat) else none, die⟩

/-- The command that a copy record's descriptor holds, or the cause it is refused with. -/
def Dev.copyPlan (d : Dev) (r : Rec) : CopyPlan ⊕ BitVec 8 :=
  let e := (recD r.bytes 0).toNat
  if e % 64 ≠ 0 then .inr causeIllegal
  else
    match d.sideRead (mkTag r.ctx (recEpoch r.bytes)) 64 e 2 with
    | .inr c => .inr c
    | .inl b =>
      let words := (upFrom 0 5).map fun k => BitVec.ofNat 32 (bytesNat ((b.drop (4 * k)).take 4))
      let slot := fun (k : Nat) => recD b (32 + 8 * k)
      if bytesNat ((b.drop 20).take 4) ≠ 0 || bytesNat ((b.drop 96).take 32) ≠ 0 then .inr causeIllegal
      else
        match decode words with
        | .ok (.dcopy dk sk dsp ssp st sg h f g sh) _ => d.planOf r slot false dk sk dsp ssp st sg h f g sh
        | .ok (.dfill dk sk dsp ssp st sg h f g sh) _ => d.planOf r slot true dk sk dsp ssp st sg h f g sh
        | _ => .inr causeIllegal

/-! ## The checks before binding (R413) -/

/-- Reserved values of a record (R409, R411). -/
def Rec.illegal (r : Rec) : Bool :=
  let f := recFlags r.bytes
  bits f 60 60 != 0 || bits f 54 54 != 0 || bits f 20 0 != 0 || recPlace r.bytes == 3 || (4 : Nat).blt (recScope r.bytes) ||
    bytesNat ((r.bytes.drop 53).take 3) != 0 || (recCopy r.bytes && bits f 53 21 != 0)

/-- Whether a group record's allotment is out of range (R413). -/
def Dev.allotBad (d : Dev) (r : Rec) : Bool :=
  let b := r.bytes
  r.uBad || (!recCopy b && (recGblk b < 2 || 14 < recGblk b || recScr b < 1 || 24 < recScr b || 65536 < recPriv b ||
    256 < recWarps b * recGblk b || decide ((d.ctxD r.ctx 96).toNat < 4096 * privPages b)))

/-- The cause a record is refused with before binding; none when it passes every check, taken in the table's order (R413,
log 5). A record whose epoch is not its context's present one is refused as one of an invalid context (R401, log 23). -/
def Dev.recordBad (d : Dev) (r : Rec) : Option (BitVec 8) :=
  let b := r.bytes
  let at_ := fun (o : Nat) => (recD b o).toNat
  if ([0, 8, 24, 32].any fun o => 2 ^ 54 ≤ at_ o) || !d.ctxValid r.ctx || recEpoch b ≠ d.ctxEpoch r.ctx then some causeXlate
  else if at_ 0 % 4 ≠ 0 || at_ 24 % 16 ≠ 0 || at_ 32 % 8 ≠ 0 then some causeAlign
  else if r.illegal then some causeIllegal
  else if d.allotBad r then some causeAllot
  else
    match d.tiles r, (if recCopy b then d.copyPlan r else .inl ⟨.sig, none, none⟩) with
    | .inr c, _ => some c
    | _, .inr c => some c
    | _, _ => none

/-! ## Audit (R440) -/

/-- The next value of an audit generator: a 32-bit xorshift; its shifts the spec does not give (log 1). -/
def auditStep (v : Word) : Word :=
  let v := v ^^^ (v <<< 13)
  let v := v ^^^ (v >>> 17)
  v ^^^ (v <<< 5)

/-- The bytes of the output tiles; none when one cannot be read in this package. -/
def Dev.tileBytes (d : Dev) (tag : BitVec 16) : List (Nat × Nat) → Option (List (Nat × List Byte))
  | [] => some []
  | (a, n) :: r =>
    match d.sideRead tag 1 a n, d.tileBytes tag r with
    | .inl b, some l => some ((a, b) :: l)
    | _, _ => none

/-- Spans laid one after another from an address, each with its place: that at which it has the same offset in a line. -/
def layOut (base : Nat) : List (Nat × Nat) → List (Nat × Nat × Nat)
  | [] => []
  | (a, n) :: r =>
    let p := base + (a % 128 + 128 - base % 128) % 128
    (a, n, p) :: layOut (p + n) r

/-- The areas of an audit in the log: the copies of the inputs, and behind them the shadow areas of the outputs, in list order, and of
the private space (R440, R442; log 38). -/
def Audit.areas (a : Audit) : List (Nat × Nat × Nat) :=
  layOut a.base (a.inputs ++ a.outputs ++ [(a.priv, 4096 * privPages a.record.bytes)])

/-- The parts of a span that lie in one line each: addresses, lengths, and places from that of the span on. -/
def lineRuns (s : Nat × Nat × Nat) : List (Nat × Nat × Nat) :=
  let (a, n, p) := s
  (upFrom (a / 128) ((a + n + 127) / 128 - a / 128)).map fun l =>
    let lo := max a (l * 128)
    (lo, min (a + n) (l * 128 + 128) - lo, p + (lo - a))

/-- Copy parts of input tiles into the log; those in another package are left to be asked for. Of a part that cannot be read nothing is
copied: what the log holds there then R440 does not say, and the model leaves what it held (DESIGN CHOICE, log 38). -/
def Dev.logTiles (d : Dev) (tag : BitVec 16) : List (Nat × Nat × Nat) → Dev × List (Nat × Nat × Nat)
  | [] => (d, [])
  | (va, n, p) :: r =>
    match d.sidePlace tag va false with
    | .inl (.mem ⟨some _, _⟩ _ _) =>
      let (d, l) := d.logTiles tag r
      (d, (va, n, p) :: l)
    | .inl (.mem ⟨none, lpa⟩ _ _) =>
      (if !isDevice lpa && d.bad lpa then d.foundBad lpa else d.homeWrite p (d.homeRead lpa n)).logTiles tag r
    | _ => d.logTiles tag r

/-- The choice of a record for audit at binding: its inputs are copied into the log, behind which its replay has shadow areas for its
outputs and its private space (R440, R442). -/
def Dev.auditChoose (d : Dev) (die gid priv : Nat) (r : Rec) (t : Tiles) : Dev :=
  let ctl := d.reg .audctl
  let k := ((d.homeRead (bits (d.reg .audk) 42 12 * 4096 + r.ctx) 1).headD 0).toNat
  if bits ctl 63 63 = 0 || !recAudit r.bytes || 16 < k then d
  else
    let gen := auditStep (d.die die).auditGen
    let d := d.onDie die fun x => { x with auditGen := gen }
    let used := if d.audits.isEmpty then 0 else d.auditUsed
    let log := bits ctl 42 16 * 65536
    let a : Audit := ⟨d.nextId, log + used, gid, d.recKey r, priv, t.inputs, t.outputs, [], false, none, r, die⟩
    let stop := ((a.areas.getLast?).map fun x => x.2.2 + x.2.1).getD log - log
    if gen.toNat % 2 ^ k ≠ 0 || !d.hasBudget die 2 || t.outputs.isEmpty || 2 ^ bits ctl 4 0 * 65536 < stop then d
    else
      let (d, left) := d.logTiles (mkTag r.ctx (recEpoch r.bytes)) ((a.areas.take t.inputs.length).flatMap lineRuns)
      { d with nextId := d.nextId + 1, auditUsed := stop, audits := d.audits ++ [{ a with left := left }] }

/-! ## Binding (R205, R415, R416) -/

/-- The group-start acquire on a core (R141, R416). R141 tells of a record that declares input tiles and of one that declares no tiles;
one whose list holds output tiles alone makes the acquire of the latter, ACQ.ALL (DESIGN CHOICE, log 49). -/
def Dev.startAcquire (d : Dev) (c : CoreRef) (r : Rec) (t : Tiles) : Dev :=
  let (scope, wide) := (r.startScope (!t.inputs.isEmpty) c).getD (3, false)
  if t.inputs.isEmpty then d.acquireAll c r.ctx scope
  else t.inputs.foldl (fun d x => d.dropSpan c (mkTag r.ctx (recEpoch r.bytes)) x.1 x.2 (wide || wideScope scope)) d

/-- Take records out of a pool. -/
def Dev.unpool (d : Dev) (die : Nat) (rs : List Rec) : Dev :=
  d.onDie die fun k => { k with pool := k.pool.filter fun r => !(rs.any fun x => x.seq == r.seq) }

/-- Bind the records of a gang to cores, member by member; none when private space does not fit (R25, R205). -/
def Dev.bindMembers (d : Dev) (die gang size : Nat) : Nat → List (Rec × CoreRef) → Option Dev
  | _, [] => some d
  | m, (r, c) :: rest =>
    match d.privBase r.ctx r.bytes with
    | none => none
    | some (priv, d) =>
      let t := match d.tiles r with
        | .inl t => t
        | .inr _ => ⟨[], []⟩
      let (gid, d) := (d.nextId, { d with nextId := d.nextId + 1 })
      let d := (d.auditChoose c.die gid priv r t).startAcquire c r t
      let job := d.recKey r
      let d := ((d.addGroup r c gid gang m size priv).onGroup gid fun g => { g with job := job }).onGang gang fun g =>
        { g with members := g.members ++ [gid], recs := g.recs ++ [r] }
      let d := ((d.audits.find? fun a => a.gid = gid).map fun a => d.auditNext a.index).getD d
      d.bindMembers die gang size (m + 1) rest

/-- Bind a gang's records, taken from a pool, to cores. -/
def Dev.bindGang (d : Dev) (die from_ : Nat) (work : List (Rec × CoreRef)) : Option Dev :=
  let (id, d) := (d.nextId, { d with nextId := d.nextId + 1 })
  let (home, quad) := match work with
    | (_, c) :: _ => (c.die, c.idx / 4)
    | [] => (die, 0)
  let g : Gang :=
    { id := id, size := work.length, die := home, quad := quad, members := [], complete := [],
      bars := List.replicate 8 Barrier.reset, kills := maxOf (work.map fun x => x.1.kills), recs := [], save := none }
  let d := { d with gangs := d.gangs ++ [g] }
  (d.unpool from_ (work.map fun x => x.1)).bindMembers die id work.length 0 work

/-- The core a record of a gang of one is bound to (R415). -/
def Dev.chooseCore (d : Dev) (die : Nat) (r : Rec) (inputs : Bool) : Option CoreRef :=
  let place := recPlace r.bytes
  let ok := fun (c : CoreRef) => d.takes c r inputs
  let h : CoreRef := ⟨die, true, r.owner / 128 % 8⟩
  if place = 2 && ok h then some h
  else
    match d.fewest ((computeCores die).filter ok) with
    | some c => some c
    | none =>
      if place = 1 || (computeCores die).any fun c => d.admits c r.bytes then none
      else d.fewest ((homeCores die).filter ok)

/-- The ways to give `n` records distinct cores out of some. -/
def injections : Nat → List CoreRef → List (List CoreRef)
  | 0, _ => [[]]
  | n + 1, cs => cs.flatMap fun c => (injections n (cs.filter fun x => x ≠ c)).map fun l => c :: l

/-- Whether a quad holds a gang of two or more members (R206). -/
def Dev.quadTaken (d : Dev) (die quad : Nat) : Bool :=
  d.groups.any fun g => decide (2 ≤ g.gangSize) && g.core.die == die && !g.core.home && g.core.idx / 4 == quad

/-- Whether cores take the records of a gang together. -/
def Dev.gangFits (d : Dev) (work : List (Rec × CoreRef)) : Bool :=
  work.all (fun x => d.admits x.2 x.1.bytes && !d.hot x.2 && (x.1.startScope (match d.tiles x.1 with
    | .inl t => !t.inputs.isEmpty
    | .inr _ => false) x.2).isSome) &&
  (let d' := work.foldl (fun d (x : Rec × CoreRef) => d.addGroup x.1 x.2 0 0 0 1 0) d
   work.all fun (x : Rec × CoreRef) => d'.reserveLeft x.2.die x.1)

/-- Every way to place a gang's records on a die. -/
def Dev.gangPlaces (d : Dev) (die : Nat) (rs : List Rec) : List (List (Rec × CoreRef)) :=
  ((upFrom 0 16).filter fun q => !d.quadTaken die q).flatMap fun q =>
    ((injections rs.length ((upFrom (4 * q) 4).map fun n => ⟨die, false, n⟩)).map fun l => rs.zip l).filter d.gangFits

/-- Bind a copy record to the Dray of a compute core whose queue has room: that with the fewest resident warps, ties to the lower core
(R411, R415). -/
def Dev.bindCopy (d : Dev) (die from_ : Nat) (r : Rec) (p : CopyPlan) (t : Tiles) : Option Dev :=
  let ok := fun (c : CoreRef) => !d.hot c && decide (((d.core c).copy.filter fun e => !e.done).length < 16) &&
    (r.startScope (!t.inputs.isEmpty) c).isSome
  let cores := (computeCores (p.die.getD die)).filter ok
  match d.fewest cores with
  | none => none
  | some c =>
    let e : CopyEntry :=
      { id := 0, thread := none, gid := none, ctx := r.ctx, tag := mkTag r.ctx (recEpoch r.bytes), job := d.recKey r,
        flag := none, st := none, arrive := none, signal := p.signal, op := p.op, pos := 0, unanswered := 0, code := 0,
        done := false, sigSent := false, start := none, expect := none, asked := none, late := [], noRdc := [], noFill := false,
        lines := [], beat := none, cover := (0, 0), written := [], record := some r, began := d.now, walked := [], wrote := false, orphan := false }
    some (((d.unpool from_ [r]).startAcquire c r t).pushCopy c e)

/-- Whether a record may be stolen from its die (R411, R415). -/
def Dev.mayLeave (d : Dev) (r : Rec) : Bool :=
  !r.pinned && recPlace r.bytes != 2 && !(recCopy r.bytes && match d.copyPlan r with
    | .inl p => p.die.isSome
    | .inr _ => false)

/-- The records of a pool that form a record's unit, in order (R205). -/
def Dev.unitOf (d : Dev) (from_ : Nat) (r : Rec) : List Rec :=
  if r.uBad || r.uSize ≤ 1 then [r]
  else sortBy (fun (a b : Rec) => a.uIdx.ble b.uIdx) ((d.die from_).pool.filter fun x => x.unit == r.unit)

/-- What the checks of a record read: its tile list and, of a copy record, its descriptor. -/
def Dev.poisonChecked (d : Dev) (r : Rec) : Dev :=
  let tag := mkTag r.ctx (recEpoch r.bytes)
  let a := (recD r.bytes 32).toNat
  let d := if a = 0 then d else d.poisonRead tag a 264
  if recCopy r.bytes then d.poisonRead tag (recD r.bytes 0).toNat 128 else d

/-- Refuse records: each leaves the pool, with the cause (R413); uncorrectable data found by their checks poisons its frames (R92). -/
def Dev.refuseAll (d : Dev) (from_ : Nat) (rs : List Rec) (cause : BitVec 8) : Dev :=
  let d := if cause = causePoison then rs.foldl Dev.poisonChecked d else d
  rs.foldl (fun d r => d.refuse r.ctx (r.slot.getD 0xFFFF) cause r.addr) (d.unpool from_ rs)

/-- Take one record from a pool for a die: it, or its whole unit, is refused or bound; none when it fits no core. -/
def Dev.takeRec (d : Dev) (die from_ : Nat) (r : Rec) : Option Dev :=
  let rs := d.unitOf from_ r
  if !r.uBad && rs.length < r.uSize then none
  else
    match rs.findSome? d.recordBad with
    | some cause => some (d.refuseAll from_ rs cause)
    | none =>
      match rs, d.tiles r with
      | [x], .inl t =>
        if recCopy x.bytes then
          match d.copyPlan x with
          | .inl p => d.bindCopy die from_ x p t
          | .inr _ => none
        else (d.chooseCore die x (!t.inputs.isEmpty)).bind fun c => d.bindGang die from_ [(x, c)]
      | rs, _ =>
        let places := d.gangPlaces die rs
        if places.isEmpty then none
        else
          let (n, d) := d.choose places.length
          d.bindGang die from_ (places.getD n [])

/-- The other dies, the one with the most ready records first (R415). -/
def Dev.victims (d : Dev) (die : Nat) : List Nat :=
  let l := ((upFrom 0 4).filter fun k => k ≠ die).map fun k => (k, (d.die k).pool.length)
  (sortBy (fun (a b : Nat × Nat) => b.2.ble a.2) l).map fun p => p.1

/-- DISPATCH (R408, R415): the first record in order that a die's cores can take is bound or refused; a die whose pool holds no
ready record steals. -/
def execDispatch (die : Nat) (s : State) : Out :=
  happen s fun d =>
    if !d.clocked || 4 ≤ die then none
    else
      let own := d.heads die
      if own.isEmpty then
        (d.victims die).findSome? fun k =>
          (d.heads k).findSome? fun r => if (d.unitOf k r).all d.mayLeave then d.takeRec die k r else none
      else own.findSome? fun r => d.takeRec die die r

end Sys2Proof.Machine
end

