-- ==== Sys2Proof/Machine/Reset.lean ====
section
/-! DEFINITION. Ending work (R143, R183, R186, R434, R438, R439): discarding groups, the reset of a context and its background
sweep, the kill of a gang and its relaunch. -/

namespace Sys2Proof.Machine

/-! ## Discarding groups -/

/-- Whether a thread belongs to some groups: a warp, or a sequencer program of one. -/
def Dev.threadIn (d : Dev) (gids : List Nat) (r : ThreadRef) : Bool :=
  match r with
  | .warp gid _ => gids.contains gid
  | .seq c copy => ((d.core c).seq copy).any fun p => gids.contains p.gid
  | .wave _ _ => false

/-- What some groups hold of a core: queue entries, sequencer programs, the baton, pins. -/
def Core.without (k : Core) (gids : List Nat) : Core :=
  let away := fun (p : Option SeqProg) => p.filter fun p => !gids.contains p.gid
  { k with
    matrix := k.matrix.filter fun e => !gids.contains e.gid
    copy := k.copy.filter fun e => !(e.gid.any fun g => gids.contains g)
    msgs := k.msgs.filter fun e => !gids.contains e.gid
    matSeq := away k.matSeq
    copySeq := away k.copySeq
    baton := (match k.baton with
      | .warp g w => if gids.contains g then .free else .warp g w
      | .seq g => if gids.contains g then .free else .seq g
      | .free => .free)
    batonQueue := k.batonQueue.filter fun x => !gids.contains x.1
    owner := k.owner.filter fun g => !gids.contains g
    pins := (k.pins.map fun x => { x with users := x.users.filter fun u => !gids.contains u.1 }).filter fun x => !x.users.isEmpty }

/-- The transfers that some parties' operations still have under way. -/
def Transfer.of (t : Transfer) (mine : ThreadRef → Bool) (ops : List Nat) (entries : List Nat) : Bool :=
  match t with
  | .signal _ _ _ _ r _ _ => mine r
  | .copySig _ _ _ e => entries.contains e
  | .spawn _ _ op _ => ops.contains op
  | .request op _ _ => ops.contains op
  | .reply dest _ _ m => m.isNone && ops.contains dest.op

/-- Groups stop at once: their operations, engine entries and transfers end without effect, what they hold is released, they are
gone (R143, R183, R438). Bytes that a discarded store had put into the lines of its core's L1 and its die's RDC at issue stay there,
as long as the lines do: neither R143 and R438 nor R51 and R55 take them away (DESIGN CHOICE, log 46). -/
def Dev.dropGroups (d : Dev) (gids : List Nat) : Dev :=
  let mine := d.threadIn gids
  let ops := (d.ops.filter fun o => mine o.thread).map fun o => o.id
  let entries := d.cores.flatMap fun k => (k.copy.filter fun e => e.gid.any fun g => gids.contains g).map fun e => e.id
  let mineItem := fun (h : HeldItem) => match h with
    | .piece op _ _ => ops.contains op
    | .write _ e _ _ _ _ => entries.contains e
    | .log _ _ _ _ _ => false
    | .msg _ => false
  let d := { d with transfers := d.transfers.filter fun t => !t.of mine ops entries }
  let d := d.killOps fun o => ops.contains o.id
  let d := d.mapDies fun k =>
    { k with
      held := k.held.filter fun h => !mineItem h
      retried := k.retried.filter fun x => !mineItem x.2
      groupTable := k.groupTable.map fun x => if x.2.2.any fun g => gids.contains g then (x.1, x.2.1, none) else x }
  let d := d.mapCores fun k => k.without gids
  { d with groups := d.groups.filter fun g => !gids.contains g.gid }

/-! ## The reset of a context (R434) -/

/-- Requests and waves of a target context at a home core end (R186): requests of other packages are answered refused, those of
another context here get a status-3 reply. -/
def Dev.dropRequests (d : Dev) (c : CoreRef) (ctx : Nat) : Dev :=
  let k := d.core c
  let gone := k.calls.filter fun q => q.ctx == ctx
  let isWave := fun (w : Option Wave) => w.any fun w => w.reqs.any fun q => q.ctx == ctx
  let d := d.killOps fun o => match o.thread with
    | .wave c' n => c' = c && isWave (k.waves.getD n none)
    | _ => false
  let d := d.onCore c fun k =>
    { k with
      requests := k.requests.filter fun q => q.ctx != ctx
      waves := k.waves.map fun w => if isWave w then none else w
      starved := k.starved.filter fun x => x.1 != ctx }
  gone.foldl (fun d q => match q.msg with
    | some m => d.answer c.die m 1 .none
    | none => if (d.op q.dest.op).any fun o => tagCtx o.tag == ctx then d
      else { d with transfers := d.transfers ++ [.reply q.dest (errorWord 0 causeLost 3) 3 none] }) d

/-- Held writes of a context at a die's home points end: messages are answered refused (R97, R157). -/
def Dev.dropHeld (d : Dev) (die ctx : Nat) : Dev :=
  let isIts := fun (h : HeldItem) => match h with
    | .piece _ _ tag => tagCtx tag == ctx
    | .write _ _ tag _ _ _ => tagCtx tag == ctx
    | .log _ tag _ _ _ => tagCtx tag == ctx
    | .msg m => m.header.tgtCtx.toNat == ctx
  let gone := (d.die die).held.filter isIts
  let d := d.onDie die fun k =>
    { k with held := k.held.filter fun h => !isIts h, retried := k.retried.filter fun x => !isIts x.2 }
  gone.foldl (fun d h => match h with
    | .msg m => d.answer die m 1 .none
    | _ => d) d

/-- Replies of other packages to a context that are still to be written end: they are answered refused. -/
def Dev.dropReplies (d : Dev) (ctx : Nat) : Dev :=
  d.transfers.foldl (fun d t => match t with
    | .reply _ _ _ (some (die, m)) =>
      if m.header.tgtCtx.toNat = ctx then ({ d with transfers := d.transfers.filter fun x => x ≠ t }).answer die m 1 .none else d
    | _ => d) d

/-- Steps 2 and 3 of a reset: everything a context has on the package is discarded without save. A kept message stays until it is
answered, as its flow needs it (R149, R150); of one in doubt the doubt slot is freed, and its loss notices go on (log 50). -/
def Dev.discardCtx (d : Dev) (ctx : Nat) : Dev :=
  let imageGroups := (d.images.filter fun i => i.ctx == ctx).flatMap fun i => i.groups
  let mine := (d.groups.filter fun g => g.ctx == ctx) ++ imageGroups
  let gids := mine.map fun g => g.gid
  let d := d.dropGroups gids
  let noBatch := fun (q : Slot) => { q with batch := q.batch.filter fun b => b.ctx != ctx }
  let d := { d with
    gangs := d.gangs.filter fun g => !(mine.any fun x => x.gang == g.id)
    images := d.images.filter fun i => i.ctx != ctx
    audits := d.audits.filter fun a => a.record.ctx != ctx
    slots := d.slots.map noBatch
    wideBars := d.wideBars.filter fun x => x.2.2.1 != ctx
    traverses := d.traverses.filter fun t => t.ctx != ctx
    asks := d.asks.filter fun a => a.ctx != ctx
    between := d.between.filter fun j => j.1 != ctx
    periodic := d.periodic.filter fun j => j.1 != ctx
    notices := d.notices.filter fun n => n.ctx != ctx }
  let d := d.mapCores fun k => { k with copy := k.copy.filter fun e => e.ctx != ctx }
  let d := d.cores.foldl (fun d k => d.dropRequests k.ref ctx) d
  let d := (upFrom 0 4).foldl (fun d k => d.dropHeld k ctx) (d.dropReplies ctx)
  let d := d.mapDies fun k =>
    { k with
      pool := k.pool.filter fun r => r.ctx != ctx
      spill := k.spill.filter fun x => x.2.ctx != ctx
      batches := k.batches.filter fun b => b.ctx != ctx
      bars := k.bars.filter fun x => x.1 != ctx
      jobs := k.jobs.filter fun j => j.ctx != ctx
      sent := k.sent.map fun x => if x.doubt && x.key.1 == ctx then { x with origin := .gone } else x }
  (upFrom 0 4).foldl (fun d k => (upFrom 0 16).foldl (fun d n =>
    if ((d.die k).leases[n]?).any fun l => l.valid && tagCtx l.tag == ctx then d.endLease k n else d) d) d

/-- Step 1: every queue slot of a context, mapped or not, is suspended. -/
def Dev.suspendSlots (d : Dev) (ctx : Nat) : Dev :=
  (upFrom 0 1024).foldl (fun d q =>
    if d.slotCtx q == ctx then (d.setSusp q true).onSlot q fun x => { x with partSusp := false } else d) d

/-- A reset of a context begins, unless one is under way; one onto an epoch that is still being swept waits (R434). -/
def Dev.beginReset (d : Dev) (ctx reason : Nat) : Dev :=
  let old := d.ctxEpoch ctx
  if d.resetting ctx then d
  else if d.sweeps.any fun w => w.ctx == ctx && w.old = old + 1 then
    let d := d.suspendSlots ctx
    { d with waitingResets := d.waitingResets ++ [(ctx, reason)] }
  else
    let d := (d.suspendSlots ctx).discardCtx ctx
    { d with sweeps := d.sweeps ++ [⟨ctx, old, old + 1, reason, false⟩] }

/-- CONTEXT_RESET_COMPLETE (R434): what came meanwhile is discarded, the epoch is incremented, and an event of kind 7 is
written. -/
def execContextResetComplete (ctx : Nat) (s : State) : Out :=
  happen s fun d =>
    match d.sweeps.find? fun w => w.ctx == ctx && !w.announced with
    | none => none
    | some w =>
      let d := d.discardCtx ctx
      let ctl := (d.ctxD ctx 0).toNat
      let new := ctl - bits (d.ctxD ctx 0) 61 58 * 2 ^ 58 + w.new.toNat * 2 ^ 58
      let d := d.homeWrite (d.ctxEntry ctx) (natBytes new 8)
      let d := { d with sweeps := updBy (fun x => x = w) (fun x => { x with announced := true }) d.sweeps }
      some (d.event (Event.of 7 0 ctx (w.new.setWidth 64) (BitVec.ofNat 64 w.reason) 0))

/-- BACKGROUND_SWEEP_COMPLETE (R434 step 5): no entry with the old tag is left, and a reset that waited for it begins. -/
def execBackgroundSweepComplete (ctx : Nat) (s : State) : Out :=
  happen s fun d =>
    match d.sweeps.find? fun w => w.ctx == ctx && w.announced with
    | none => none
    | some w =>
      let tag := mkTag ctx w.old
      let d := d.dropPages (fun e => e.tag = tag) (fun e => e.tag = tag) fun e => e.tag = tag
      let d := d.mapCores fun k => { k with l1 := k.l1.filter fun l => l.tag ≠ tag }
      let d := d.mapDies fun k => { k with rdc := k.rdc.filter fun l => l.tag ≠ tag }
      let d := { d with sweeps := d.sweeps.erase w }
      match d.waitingResets.find? fun x => x.1 == ctx with
      | some x => some ({ d with waitingResets := d.waitingResets.erase x }.beginReset ctx x.2)
      | none => some d

/-! ## Reads, and uncorrectable data that a wave meets (R186) -/

/-- The LPA and the context of a read of a wave that would be served with uncorrectable data. -/
def Dev.waveReadsBad (d : Dev) (o : Op) (n : Nat) : Option (Nat × Nat) :=
  match o.thread, o.pieces[n]? with
  | .wave _ _, some p =>
    match p.target with
    | .mem pa leaf _ =>
      if p.open_ && !isDevice pa.lpa && !d.blocked o n && d.readsBad o pa (o.leafFor leaf) then some (pa.lpa, tagCtx o.tag) else none
    | _ => none
  | _, _ => none

/-- A wave meets uncorrectable data: the frame is poisoned, the error is reported as one of a wave's state (code 15) contained at the level
of its context, and the context is reset (R92, R186, R435, R437; log 51). -/
def Dev.waveMeets (d : Dev) (c : CoreRef) (ctx lpa : Nat) : Dev :=
  ((d.foundBad lpa).event ⟨10, 0, ctx, coreId c, 0xFFFF, 15, 3, BitVec.ofNat 64 lpa⟩).beginReset ctx 2

/-- LOAD_DATA_RETURN (R103, R247, R249): a read is performed, and with `write` the next register of its destination is
written; the flag's tag goes with the last. A wave that would consume uncorrectable data is ended with its context, the level of a
wave's state (R186, R437). -/
def execLoadDataReturn (op piece : Nat) (how : Arrive) (s : State) : Out :=
  happen s fun d =>
    match d.op op with
    | none => none
    | some o =>
      if !o.kind.reads then none
      else if let some (lpa, ctx) := d.waveReadsBad o piece then some (d.waveMeets o.core ctx lpa)
      else
        match how with
        | .fix => (d.readPiece s.fuses op piece).map fun d => d.afterRead op piece
        | .write =>
          (d.readFirst s.fuses op piece).map fun d =>
            let d := d.afterRead op piece
            match d.op op with
            | none => d
            | some o =>
              match o.pieces[piece]? with
              | some p =>
                (match p.value with
                 | some b => if p.done then d else d.writeLoaded o piece p b
                 | none => d)
              | none => d

/-! ## Forming a wave (R175, R176, R186) -/

/-- Serve the object of its oldest queued request in a free slot: answers without a wave, or a wave. None when the object has
a running wave, is held by a migration, or its needs do not fit. A state line that holds uncorrectable data is consumed by the wave's
state read: its frame is poisoned, and the context, the level of a wave's state buffer, is reset (R92, R186, R437). The error word of an
ALIGN reply has no faulting instruction whose offset it could give (R168): the offset is a free value (log 3). -/
def Dev.formObject (d : Dev) (c : CoreRef) (slot : Nat) (q : Request) : Option Dev :=
  let mine := fun (x : Request) => d.home x.lpa == d.home q.lpa
  let queue := (d.core c).requests.filter mine
  let run := leadingRun (d.servable c q.lpa queue)
  let running := d.cores.any fun k => k.waves.any fun w => w.any fun w => w.reqs.any mine
  if running || d.inHold q.lpa then none
  else if d.poisoned (d.home q.lpa) then d.answerAll c queue 0 causePoison 1
  else
    match run with
    | [] => none
    | q :: _ =>
    match d.methodOf q.ctx q.sel with
    | none => d.answerAll c run 0 causeMethod 2
    | some m =>
      if 128 < q.lpa % 128 + 8 * m.words then
        (let (v, d) := d.fresh
         d.answerAll c run (v.toNat % 65536) causeAlign 1)
      else if !d.waveFits c m then none
      else if d.bad q.lpa then some (d.waveMeets c q.ctx q.lpa)
      else
        let w := d.newWave slot m q.sel q.lpa run
        let d := (d.objectUse q false).onCore c fun k =>
          { k with
            waves := k.waves.set slot (some w)
            requests := k.requests.filter fun x => !(run.any fun y => y.stamp == x.stamp) }
        some { d with free := d.free + 32 }

/-- The first object of a list of requests, oldest first, that can be served. -/
def Dev.formFirst (d : Dev) (c : CoreRef) (slot : Nat) : List Request → List Nat → Option Dev
  | [], _ => none
  | q :: r, seen =>
    if seen.contains q.lpa then d.formFirst c slot r seen
    else
      match d.formObject c slot q with
      | some d => some d
      | none => d.formFirst c slot r (q.lpa :: seen)

/-- WAVE_FORM (R175): a free wave slot takes the oldest eligible object's leading requests of one selector. -/
def execWaveForm (core : CoreRef) (s : State) : Out :=
  happen s fun d =>
    match (upFrom 0 16).find? fun n => ((d.core core).waves.getD n none).isNone with
    | some slot => if d.clocked then d.formFirst core slot (d.core core).requests [] else none
    | none => none

/-! ## The kill of a gang (R438, R439) -/

/-- The records of a gang that are relaunched: at the head of their FIFO, with their sequence and counted mark; a member that
had completed does not complete its successor again. -/
def Dev.relaunch (d : Dev) (g : Gang) : Dev :=
  let again := mapIdx (fun m (r : Rec) =>
    { r with kills := g.kills + 1, repeated := r.repeated || (g.members[m]?).any fun gid => g.complete.contains gid }) 0 g.recs
  again.foldl (fun d r => d.onDie r.die fun k => { k with pool := r :: k.pool }) d

/-- The records of a gang that are not run again: counted ones are repaired as lost, unless they had completed (R154). -/
def Dev.discardRecs (d : Dev) (g : Gang) : Dev :=
  foldIdx (fun m d (r : Rec) =>
    if r.counted && !r.repeated && !((g.members[m]?).any fun gid => g.complete.contains gid) then
      d.countLost r.die (d.recKey r / 256) (d.recKey r % 256)
    else d) 0 d g.recs

/-- The records of a gang that ends without completing: they are relaunched, or discarded and the context reset (R439). -/
def Dev.endGang (d : Dev) (g : Gang) (mayRelaunch : Bool) : Dev :=
  let ctx := (g.recs.map fun r => r.ctx).headD 0
  let again := mayRelaunch && g.recs.all fun r => recIdem r.bytes
  if again then d.relaunch g else (d.discardRecs g).beginReset ctx 3

/-- A gang is killed (R438): its groups stop, its leases are released, an event of kind 8 is written; it is relaunched while
every record is idempotent and it was killed fewer than 3 times. -/
def Dev.killGang (d : Dev) (g : Gang) : Dev :=
  let gids := g.members
  let ctx := (g.recs.map fun r => r.ctx).headD 0
  let core := ((d.groups.find? fun x => x.gang == g.id).map fun x => coreId x.core).getD 0xFFFF
  let slot := ((g.recs.head?).bind fun r => r.slot).getD 0xFFFF
  let addr := (g.recs.map fun r => r.addr).headD 0
  let d := d.dropGroups gids
  let d := (upFrom 0 4).foldl (fun d k => (upFrom 0 16).foldl (fun d n =>
    if ((d.die k).leases[n]?).any fun l => l.valid && l.gang == g.id then d.endLease k n else d) d) d
  let d := { d with
    gangs := d.gangs.filter fun x => x.id ≠ g.id
    images := d.images.filter fun i => i.gang.id ≠ g.id
    audits := d.audits.filter fun a => !(a.signature.isNone && g.recs.contains a.record) }
  let again := decide (g.kills + 1 < 3) && g.recs.all fun r => recIdem r.bytes
  let d := d.event ⟨8, 0, ctx, core, slot, BitVec.ofNat 64 addr, BitVec.ofNat 64 again.toNat, BitVec.ofNat 64 (g.kills + 1)⟩
  d.endGang g again

end Sys2Proof.Machine
end

