-- ==== Sys2Proof/Machine/Complete.lean ====
section
/-! DEFINITION. The end of a group and of a copy record (R127, R141, R154, R410, R411, R441), batches of records that enter a
pool (R205, R406, R410), and the events GROUP_COMPLETE, COPY_RECORD_COMPLETE and SUCCESSOR_ENTRY. -/

namespace Sys2Proof.Machine

/-! ## Batches (R205) -/

/-- A batch after its next record. -/
def Batch.advance (b : Batch) : Batch :=
  { b with next := b.next + 64, left := b.left - 1, uIdx := if b.uIdx + 1 < b.uSize then b.uIdx + 1 else 0 }

/-- The unit that a batch's next record starts or continues, by its gang size (R205): one that the batch cuts short is bad, and a record
that disagrees spoils the unit that it continues. -/
def Dev.nextUnit (d : Dev) (b : Batch) (k : Nat) : Dev × Batch :=
  if b.uIdx = 0 then
    ({ d with nextId := d.nextId + 1 }, { b with unit := d.nextId + 1, uSize := k, uBad := decide (b.left < k) })
  else if k = b.uSize then (d, b)
  else (d.spoilUnit b.unit, { b with uBad := true })

/-- Enter the next record of a batch into a pool, read through that die's near cache (R47); none while there is no room. A record
that cannot be read is passed over with its cause: a unit of one where it would start a unit, and else it spoils the unit that it would
continue (log 29). -/
def Dev.enterNext (d : Dev) (die : Nat) (b : Batch) : Option (Dev × Batch) :=
  let tag := d.tag b.ctx
  let (read, d) := if 2 ^ 54 ≤ b.next then (Sum.inr causeXlate, d) else d.recordRead die tag b.next
  match read with
  | .inr c =>
    let (d, b) := d.nextUnit b (if b.uIdx = 0 then 1 else 0)
    some (d.refuse b.ctx (b.slot.getD 0xFFFF) c b.next, b.advance)
  | .inl bytes =>
    let (d, b) := d.nextUnit b (recGang bytes)
    let r := { Rec.entering bytes b.next b.ctx b.slot (d.ctxEpoch b.ctx) b.job false none b.producer with
      unit := b.unit, uIdx := b.uIdx, uSize := b.uSize, uBad := b.uBad }
    (d.enterPlaced die r).map fun d => (d, b.advance)

/-- Enter records of a batch as long as there is room: the state, what is left, whether any entered. -/
def Dev.enterMany (d : Dev) (die : Nat) (b : Batch) : Nat → Dev × Batch × Bool
  | 0 => (d, b, false)
  | n + 1 =>
    if b.left = 0 then (d, b, false)
    else
      match d.enterNext die b with
      | none => (d, b, false)
      | some (d, b) =>
        let (d, b, _) := d.enterMany die b n
        (d, b, true)

/-- Enter records of the first batch of some that finds room: those before it stay. -/
def Dev.enterFirst (d : Dev) (die : Nat) : List Batch → List Batch → Option Dev
  | _, [] => none
  | seen, b :: rest =>
    match d.enterMany die b b.left with
    | (d', b, true) => some (d'.onDie die fun k => { k with batches := seen ++ (if b.left = 0 then [] else [b]) ++ rest })
    | _ => d.enterFirst die (seen ++ [b]) rest

/-- SUCCESSOR_ENTRY (R410): records released by a counter block enter the pool of the completer's die. -/
def execSuccessorEntry (die : Nat) (s : State) : Out :=
  happen s fun d => d.enterFirst die [] (d.die die).batches

/-! ## Successors (R410) -/

/-- The completion of a record decrements its successor counter as one atomic at the block's home point: none while the block's line is
held. The read looks up and fills the near cache of the completer's die (R47), and takes its values from the home point, where the
decrement is one atomic (log 29). When the
count reaches 0 the successors are to enter the completer's die; a counter that is 0 or cannot be reached leaves its cause. -/
def Dev.decrement (d : Dev) (c : CoreRef) (r : Rec) : Option Dev :=
  let a := (recD r.bytes 24).toNat
  let slot := r.slot.getD 0xFFFF
  if a = 0 || r.repeated then some d
  else
    match d.sideTarget (mkTag r.ctx (recEpoch r.bytes)) a true with
    | .inr cause => some (d.refuse r.ctx slot cause a)
    | .inl t =>
      if d.placeWaits t 16 then none
      else
        let bad := match t with
          | .mem ⟨none, lpa⟩ _ _ => !isDevice lpa && d.bad lpa
          | _ => false
        match d.sideBytes t 16 with
        | none => some (d.refuse r.ctx slot causeXlate a)
        | some b =>
          if bad then some ((d.poisonRead (mkTag r.ctx (recEpoch r.bytes)) a 16).refuse r.ctx slot causePoison a) else
          let d := d.nearUse c.die (mkTag r.ctx (recEpoch r.bytes)) t 16
          let count := bytesNat (b.take 4)
          let n := bytesNat ((b.drop 4).take 3)
          let old := bytesNat ((b.drop 7).take 1)
          let scope := max (old % 8) (recScope r.bytes)
          let put := fun (k : Nat) => d.sideWrite t (natBytes k 4 ++ (b.drop 4).take 3 ++ natBytes (old / 8 * 8 + scope) 1)
          if count = 0 then some ((put 0).refuse r.ctx slot causeXlate a)
          else if count ≠ 1 || n = 0 then some (put (count - 1))
          else
            let new : Batch :=
              { next := (recD b 8).toNat, left := n, ctx := r.ctx, slot := r.slot, job := r.job, producer := .core c scope,
                unit := 0, uIdx := 0, uSize := 0, uBad := false }
            some ((put 0).onDie c.die fun k => { k with batches := k.batches ++ [new] })

/-- A record completes on a core (R141, R153): its counter, and its consumption when it is counted. -/
def Dev.completeRec (d : Dev) (c : CoreRef) (r : Rec) : Option Dev :=
  (d.decrement c r).bind fun d =>
    if r.counted && !r.repeated then d.countConsumed r.die (d.recKey r / 256) (d.recKey r % 256) else some d

/-! ## Audit signatures (R441) -/

/-- One bit, one byte and many of CRC-64/XZ, reflected. -/
def crc64Bit (c : Nat) : Nat := if c % 2 = 1 then Nat.xor (c / 2) 0xC96C5795D7870F42 else c / 2
def crc64 (b : List Byte) : DWord :=
  let step := fun (c : Nat) (x : Byte) =>
    crc64Bit (crc64Bit (crc64Bit (crc64Bit (crc64Bit (crc64Bit (crc64Bit (crc64Bit (Nat.xor c x.toNat))))))))
  BitVec.ofNat 64 (Nat.xor (b.foldl step 0xFFFFFFFFFFFFFFFF) 0xFFFFFFFFFFFFFFFF)

/-- The signature of a chosen record at its completion; one whose outputs cannot be read is dropped. -/
def Dev.sign (d : Dev) (r : Rec) : Dev :=
  let sign := fun (a : Audit) =>
    if a.record ≠ r || a.dropped then a
    else
      match d.tileBytes (mkTag r.ctx (recEpoch r.bytes)) a.outputs with
      | some l => { a with signature := some (crc64 (l.flatMap fun x => x.2)) }
      | none => { a with dropped := true }
  { d with audits := (d.audits.map sign).filter fun a => !(a.record = r && a.dropped) }

/-! ## The end of a group (R141) -/

/-- Whether nothing of a group is under way: its warps have ended, their counters are zero, its engine entries are performed,
its sequencer programs have ended. -/
def Dev.groupIdle (d : Dev) (g : Group) : Bool :=
  let k := d.core g.core
  !g.ended && (g.warps.all fun w => w.ended && w.frame.isNone && w.unack == 0) &&
    !(d.ops.any fun o => d.threadIn [g.gid] o.thread) &&
    !(k.matrix.any fun e => e.gid == g.gid) && !(k.copy.any fun e => e.gid = some g.gid) && !(k.msgs.any fun e => e.gid == g.gid) &&
    !([k.matSeq, k.copySeq].any fun p => p.any fun p => p.gid == g.gid && !p.ended)

/-- A store of an ended warp was lost: the warp takes LOST at the entry it ended with (R127, log 16). -/
def Dev.reviveLost (d : Dev) (g : Group) (w : Thread) : Dev :=
  let r := ThreadRef.warp g.gid w.wid
  let e := w.trapped.getD ⟨recD g.record.bytes 0, 0xFFFF, 1, 0, recD g.record.bytes 0⟩
  (d.onThread r fun t => { t with ended := false, loss := false, pend := false, frontier := [], clause := none }).trapWarp r e
    (.plain causeLost 0) false false

/-- Release what a group holds: pins, baton, queue places, sequencers, its group-table entry, its registers (R86, R208, R350). Its
scratch stays until the last member of its gang is done (R32); the buffered log entries of a context that leaves the core are written
(R69). -/
def Dev.releaseGroup (d : Dev) (g : Group) : Dev :=
  let d := if d.groups.any fun x => x.gid ≠ g.gid && x.core = g.core && x.ctx == g.ctx && !x.ended then d else d.flushCtx g.core g.ctx
  let d := d.onCore g.core fun k => k.without [g.gid]
  let d := d.mapDies fun k =>
    { k with groupTable := k.groupTable.map fun x => if x.2.2 = some g.gid then (x.1, x.2.1, none) else x }
  d.onGroup g.gid fun g => { g with ended := true }

/-- A member has completed; the gang is gone with its last one, and the scratch of all its members (R32, R190, R439). -/
def Dev.memberDone (d : Dev) (g : Group) : Dev :=
  let d := d.onGang g.gang fun q => { q with complete := g.gid :: q.complete }
  match d.gang g.gang with
  | some q =>
    if q.members.all fun m => q.complete.contains m then
      { d with groups := d.groups.filter fun x => x.gang ≠ q.id, gangs := d.gangs.filter fun x => x.id ≠ q.id }
    else d
  | none => { d with groups := d.groups.filter fun x => x.gid ≠ g.gid }

/-- GROUP_COMPLETE (R141): with nothing under way the record is signed, its successor counter is decremented, and its resources
are released. -/
def execGroupComplete (gid : Nat) (s : State) : Out :=
  happen s fun d =>
    match d.group gid with
    | none => none
    | some g =>
      if !d.groupIdle g then none
      else
        let lost := g.warps.filter fun w => w.loss
        if !lost.isEmpty then some (lost.foldl (fun d w => d.reviveLost g w) d)
        else ((d.sign g.record).completeRec g.core g.record).map fun d => (d.releaseGroup g).memberDone g

/-- COPY_RECORD_COMPLETE (R411): the command of a copy record is performed, and the record completes as a DONE would. -/
def execCopyRecordComplete (core : CoreRef) (entry : Nat) (s : State) : Out :=
  happen s fun d =>
    match (d.core core).copy.find? fun e => e.id = entry && e.done with
    | none => none
    | some e =>
      match e.record with
      | none => none
      | some r => (d.completeRec core r).map fun d => d.onCore core fun k => { k with copy := k.copy.filter fun x => x.id ≠ entry }

end Sys2Proof.Machine
end

