-- ==== Sys2Proof/Machine/Queue.lean ====
section
/-! DEFINITION. Queue slots (R403 to R407) and the register bus: writes on their way to their units, notifies, mapping,
launch descriptors, deadlines and overruns. -/

namespace Sys2Proof.Machine

/-! ## The register bus (R17, R444) -/

/-- The oldest register write has reached its unit: it leaves the bus and its store is acknowledged. -/
def Dev.busDone (d : Dev) (w : RegWrite) : Dev :=
  let d := { d with regBus := d.regBus.drop 1 }
  match w.piece with
  | some (op, n) => d.donePiece op n
  | none => d

/-- The form of an event that acts on the oldest register write: `act` answers none when the write is not of its kind or must
wait. -/
def onWrite (s : State) (act : RegWrite → Dev → Option Dev) : Out :=
  happen s fun d =>
    match d.regBus with
    | w :: _ => if d.on then (act w d).map fun d => d.busDone w else none
    | [] => none

/-! ## Notifies and mapping (R405) -/

/-- The tail index of a slot, its head, its ring size. -/
def Dev.tailOf (d : Dev) (q : Nat) : Nat := bits (d.reg (.qtail q)) 31 0
def Dev.headOf (d : Dev) (q : Nat) : Nat := bits (d.reg (.qhead q)) 31 0
def Dev.ringEntries (d : Dev) (q : Nat) : Nat := 2 ^ bits (d.reg (.qring q)) 4 0

/-- Take a tail index as accepted, or set bad when it names more than the ring holds. -/
def Dev.takeTail (d : Dev) (q tail : Nat) : Dev :=
  let old := (d.reg (.qtail q)).toNat
  if d.ringEntries q < (tail + 2 ^ 32 - d.headOf q) % 2 ^ 32 then
    d.setReg (.qtail q) (BitVec.ofNat 64 (2 ^ 32 + old % 2 ^ 32))
  else d.setReg (.qtail q) (BitVec.ofNat 64 (old / 2 ^ 32 * 2 ^ 32 + tail))

/-- Where a slot's tail word lies for its owning context, or the cause its access fails with: region 0 or 2 (R404). -/
def Dev.tailWord (d : Dev) (q : Nat) (write : Bool) : Target ⊕ BitVec 8 :=
  let a := (d.reg (.qtaila q)).toNat
  if a / 2 ^ 54 ≠ 0 && a / 2 ^ 54 ≠ 2 then .inr causeXlate else d.sideTarget (d.tag (d.slotCtx q)) a write

/-- The cause of a tail word that cannot be reached, for the fault record (R405). -/
def Dev.tailFault (d : Dev) (q : Nat) (cause : BitVec 8) : Dev :=
  let at_ := (d.reg (.qtaila q)).toNat
  (if cause = causePoison then d.poisonRead (d.tag (d.slotCtx q)) at_ 4 else d).refuse (d.slotCtx q) q cause at_

/-- QNOTIFY (R405): the tail is posted to the tail word, then taken while the slot is mapped. -/
def execQnotify (s : State) : Out :=
  onWrite s fun w d =>
    match w.reg with
    | .qnotify q =>
      let tail := bits w.value 31 0
      let take := fun (d : Dev) => if d.slotMapped q then d.takeTail q tail else d
      (match d.tailWord q true with
       | .inr c => some (take (d.tailFault q c))
       | .inl t => if d.placeWaits t 4 then none else some (take (d.sideWrite t (natBytes tail 4))))
    | _ => none

/-- Read the tail word: its value, or the state with the fault reported. -/
def Dev.readTail (d : Dev) (q : Nat) : Nat ⊕ Dev :=
  match d.tailWord q false with
  | .inr c => .inr (d.tailFault q c)
  | .inl t =>
    match d.sideBytes t 4 with
    | some b => .inl (bytesNat b)
    | none => .inr (d.tailFault q causeXlate)

/-- QCTL_MAP (R405, R407): map goes from 0 to 1: the tail word is read again, and a reservation starts its period. -/
def execQctlMap (s : State) : Out :=
  onWrite s fun w d =>
    match w.reg with
    | .qctl q =>
      if bits w.value 63 63 = 0 || d.slotMapped q then none
      else
        let d := d.storeReg (.qctl q) w.value
        let t := (d.reg (.qperiod q)).toNat
        let d := d.onSlot q fun x => { x with
          partSusp := false, overrun := false, charged := 0
          remain := if t = 0 then x.remain else (d.reg (.qbudget q)).toNat
          deadline := if t = 0 then x.deadline else d.now + 1000 * t }
        (match d.readTail q with
         | .inl v => some (d.takeTail q v)
         | .inr d => some d)
    | _ => none

/-- QCTL_UNMAP (R405): map goes from 1 to 0: the slot is closed, and records the tail word. -/
def execQctlUnmap (s : State) : Out :=
  onWrite s fun w d =>
    match w.reg with
    | .qctl q =>
      if bits w.value 63 63 = 1 || !d.slotMapped q then none
      else
        let record := fun (d : Dev) (v : Nat) =>
          d.setReg (.qtail q) (BitVec.ofNat 64 ((d.reg (.qtail q)).toNat / 2 ^ 32 * 2 ^ 32 + v))
        let d := match d.readTail q with
          | .inl v => record d v
          | .inr d => d
        some ((d.storeReg (.qctl q) w.value).onSlot q fun x => { x with partSusp := false })
    | _ => none

/-! ## Launch descriptors (R406) -/

/-- The batch a descriptor names, or the cause it is skipped with. -/
def Dev.descriptor (d : Dev) (q : Nat) : (Nat × Batch) ⊕ (Nat × BitVec 8) :=
  let ctx := d.slotCtx q
  let a := bits (d.reg (.qring q)) 55 12 * 4096 + 64 * (d.headOf q % d.ringEntries q)
  if 2 ^ 54 ≤ a then .inr (a, causeXlate)
  else
    match d.sideRead (d.tag ctx) 64 a 1 with
    | .inr c => .inr (a, c)
    | .inl b =>
      let first := (recD b 0).toNat
      let n := bytesNat ((b.drop 8).take 4)
      if n = 0 || 2 ^ 24 < n || bytesNat (b.drop 12) ≠ 0 || first % 64 ≠ 0 || 2 ^ 54 ≤ first then .inr (a, causeXlate)
      else
        .inl (a, { next := first, left := n, ctx := ctx, slot := some q, job := ctx * 256 + bits (d.reg (.qctl q)) 49 42,
                   producer := .queue, unit := 0, uIdx := 0, uSize := 0, uBad := false })

/-- QHEAD + 1. -/
def Dev.nextHead (d : Dev) (q : Nat) : Dev := d.setReg (.qhead q) (BitVec.ofNat 64 ((d.headOf q + 1) % 2 ^ 32))

/-- Enter a descriptor's records into the pool of die 0 as far as there is room; QHEAD goes on after the last. -/
def Dev.feed (d : Dev) (q : Nat) (b : Batch) : Bool × Dev :=
  let (d, b, moved) := d.enterMany 0 b b.left
  (moved, if b.left = 0 then (d.onSlot q fun x => { x with batch := none }).nextHead q else d.onSlot q fun x => { x with batch := some b })

/-- DESCRIPTOR_READ (R405, R406): the slot goes on with its descriptor, or reads the next one; a bad one is skipped. -/
def execDescriptorRead (slot : Nat) (s : State) : Out :=
  happen s fun d =>
    if !d.on || !d.slotMapped slot || d.tailOf slot = d.headOf slot then none
    else
      match (d.slot slot).batch with
      | some b => let (moved, d) := d.feed slot b; if moved then some d else none
      | none =>
        match d.descriptor slot with
        | .inr (a, c) =>
          let d := if c = causePoison then d.poisonRead (d.tag (d.slotCtx slot)) a 64 else d
          some ((d.refuse (d.slotCtx slot) slot c a).nextHead slot)
        | .inl (_, b) => some (d.feed slot b).2

/-! ## Budgets (R407) -/

/-- Resident groups that a slot feeds, and its copy records on a Dray. -/
def Dev.residents (d : Dev) (q : Nat) : Nat := (d.groups.filter fun g => !g.ended && g.record.slot = some q).length

/-- The groups fed by a slot that count as resident for its drain: those of a thermal migration among them (R443). -/
def Dev.undrained (d : Dev) (q : Nat) : Nat :=
  d.residents q + (((d.images.filter fun i => i.reason = 2 && i.restoring).flatMap fun i => i.groups).filter fun g =>
    !g.ended && g.record.slot = some q).length
def Dev.copying (d : Dev) (q : Nat) : Nat :=
  (d.cores.map fun k => (k.copy.filter fun e => !e.done && e.record.any fun r => r.slot = some q).length).sum

/-- Charge a slot with a reservation for some ns. -/
def Dev.chargeSlot (d : Dev) (ns : Nat) (x : Slot) : Slot :=
  if d.reg (.qperiod x.q) = 0 then x
  else
    let c := x.charged + ns * (d.residents x.q + d.copying x.q)
    { x with remain := x.remain - c / 1000, charged := c % 1000 }

/-- SLOT_DEADLINE (R407): a deadline passes: the budget is full again, the deadline moves on, a suspension for overrun ends. -/
def execSlotDeadline (slot : Nat) (s : State) : Out :=
  happen s fun d =>
    let t := (d.reg (.qperiod slot)).toNat
    let x := d.slot slot
    if !d.slotMapped slot || t = 0 || d.now < x.deadline then none
    else
      let d := if x.partSusp then d.setSusp slot false else d
      some (d.onSlot slot fun x => { x with
        remain := (d.reg (.qbudget slot)).toNat, deadline := x.deadline + 1000 * t, partSusp := false, overrun := false })

/-- OVERRUN (R407): the budget is spent while groups of the slot are resident: the slot is suspended, and the service core takes
OVERRUN. -/
def execOverrun (slot : Nat) (s : State) : Out :=
  happen s fun d =>
    let x := d.slot slot
    if d.reg (.qperiod slot) = 0 || x.remain ≠ 0 || x.overrun || d.residents slot = 0 then none
    else
      let d := (d.setSusp slot true).onSlot slot fun x => { x with
        overrun := true, partSusp := x.partSusp || !d.slotSusp slot }
      let d := { d with overruns := if d.overruns.contains slot then d.overruns else d.overruns ++ [slot] }
      some (d.event ⟨2, 0x40, d.slotCtx slot, 0xFFFF, slot, BitVec.ofNat 64 slot, 0, 0⟩)

end Sys2Proof.Machine
end

