-- ==== Sys2Proof/Machine/Image.lean ====
section
/-! DEFINITION. The save image (R88, R372, R432, R433): its bytes in an image slot, and the group, the sequencer programs, the matrix
entries and the weight slots that such bytes hold. What the image's layout has no place for stays in the `Image` record (log 11). -/

namespace Sys2Proof.Machine

/-! ## Long spans of bytes -/

/-- Consecutive pieces of `n` bytes. -/
def pieces (n : Nat) : Nat → List Byte → List (List Byte)
  | 0, _ => []
  | k + 1, b => b.take n :: pieces n k (b.drop n)

/-! ## Writing -/

/-- A thread stopped at its next instruction boundary: the entry of the clause in progress stands in the frontier (R246,
R431). -/
def Thread.stopFrontier (t : Thread) : List Entry :=
  match t.clause with
  | some c => insertEntry c.entry t.frontier
  | none => t.frontier

/-- The entry that resumes inside a clause. -/
def resumeEntry (f : List Entry) : Option Entry := f.find? fun e => e.pc ≠ e.clause

def Entry.bytes (e : Entry) : List Byte :=
  natBytes e.pc.toNat 8 ++ natBytes e.prio.toNat 2 ++ natBytes e.wait 2 ++ natBytes e.mask.toNat 4

def ArrReg.bytes (a : ArrReg) : List Byte :=
  natBytes a.base.toNat 8 ++ natBytes a.extent.toNat 4 ++ natBytes (a.z + 8 * a.trap.toNat + 16 * a.log.toNat + 32 * a.armed.toNat) 4

/-- A warp state record (R432). -/
def Thread.bytes (t : Thread) (baton : Bool) : List Byte :=
  let f := t.stopFrontier
  padTo 512 (f.flatMap Entry.bytes) ++ padTo 128 (t.s.flatMap fun w => natBytes w.toNat 4) ++
    padTo 32 (t.lanes.map fun l => l.p.setWidth 8) ++ padTo 256 (t.arrays.flatMap ArrReg.bytes) ++
    padTo 64 ((t.frame.map TrapFrame.bytes).getD []) ++ natBytes t.tvec.toNat 8 ++ natBytes t.tframe.toNat 4 ++
    natBytes t.tstat.toNat 4 ++ natBytes t.loopCount 1 ++ [BitVec.ofNat 8 t.loss.toNat, BitVec.ofNat 8 baton.toNat, 0] ++
    natBytes t.runCrc.toNat 4 ++ natBytes (((resumeEntry f).map fun e => e.clause.toNat).getD 0) 8

/-- A sequencer's part of an image: PC, s0 to s31, p0 to p6, pending flags, running CRC, running flag, one after another
(log 11). -/
def SeqProg.bytes (p : SeqProg) : List Byte :=
  let t := p.thread
  let pc := ((t.stopFrontier.head?).map fun e => e.pc.toNat).getD 0
  let pending := foldIdx (fun n (k : Nat) c => if c = 0 then k else k + 2 ^ n) 0 0 t.flags
  padTo 1024 (natBytes pc 8 ++ padTo 128 (t.s.flatMap fun w => natBytes w.toNat 4) ++ [((t.lane 0).p).setWidth 8] ++
    natBytes pending 2 ++ natBytes t.runCrc.toNat 4 ++ [BitVec.ofNat 8 (!p.ended).toNat])

/-- The words and operands of a queue entry or a weight slot, in 64 bytes. -/
def entryBytes (words operands : List Word) : List Byte := padTo 64 ((words ++ operands).flatMap fun w => natBytes w.toNat 4)

/-- The rows of a stopped MMA not yet done (R372). -/
def stoppedRows (q : List MatrixEntry) : Word :=
  match q with
  | e :: _ => match e.started, e.op with
    | true, .mma _ _ _ _ rows _ _ _ => maskOf fun l => rows.any fun r => r.1 == l
    | _, _ => 0
  | [] => 0

/-- The header of an image (R432). -/
def headerBytes (g : Group) (q : List MatrixEntry) (tiles : List Tile) (reason : Nat) : List Byte :=
  padTo 1024 (g.record.bytes ++ natBytes g.state.code 1 ++ natBytes g.gangSize 1 ++ natBytes g.member 1 ++
    natBytes g.warps.length 1 ++ natBytes (if g.state = .waiting then g.order else 0) 4 ++ natBytes (stoppedRows q).toNat 4 ++
    natBytes (foldIdx (fun n (k : Nat) (t : Tile) => if t.isInt then k + 2 ^ n else k) 0 0 tiles) 4 ++
    natBytes g.perfsel.toNat 8 ++ g.perf.flatMap (fun c => natBytes c.toNat 8) ++ natBytes reason 8)

/-- What an image holds of one member besides its group (R432). -/
structure Member where
  group : Group
  gangBars : List Barrier
  seqs : List (Bool × SeqProg)
  matrix : List MatrixEntry
  slots : List WSlot
  tiles : List Tile
  baton : Holder
  deriving DecidableEq, Repr

/-- The parts of an image slot and their offsets. -/
def Member.parts (m : Member) (reason : Nat) : List (Nat × List Byte) :=
  let g := m.group
  let b := g.record.bytes
  let gs := recGblk b * 8
  let xs := (recXq b + 1) * 4
  let held := match g.state with
    | .full => (gs, xs)
    | .tail => (8, 0)
    | _ => (16, 4)
  let seq := fun (copy : Bool) => ((m.seqs.find? fun p => p.1 = copy).map fun p => p.2.bytes).getD (List.replicate 1024 0)
  let hasBaton := fun (t : Thread) => m.baton = .warp g.gid t.wid
  [(0, headerBytes g m.matrix m.tiles reason), (0x400, g.warps.flatMap fun t => t.bytes (hasBaton t)),
   (0x8400, g.bars.flatMap Barrier.bytes), (0xA400, m.gangBars.flatMap Barrier.bytes),
   (0xB400, seq false ++ seq true), (0xC400, padTo 4096 (m.matrix.flatMap fun e => entryBytes e.words e.operands)),
   (0xD400, padTo 512 (m.slots.flatMap fun s => entryBytes s.words s.operands)),
   (0x10000, g.warps.flatMap fun t => t.lanes.flatMap fun l => natBytes l.gen.toNat 8),
   (0x20000, g.warps.flatMap fun t => (upFrom 0 gs).flatMap fun r => t.lanes.flatMap fun l =>
     natBytes (if r < held.1 then (l.g.getD r 0).toNat else 0) 4),
   (0x60000, g.warps.flatMap fun t => (upFrom 0 xs).flatMap fun i => t.lanes.flatMap fun l =>
     let x := if i < held.2 then l.x.getD i XReg.reset else XReg.reset
     natBytes x.v.toNat 4 ++ natBytes x.lo.toNat 4 ++ natBytes x.hi.toNat 4),
   (0x90000, cellsBytes (Config.scratchByte g.seed) g.scratch 0 g.scratchBytes),
   (0xF0000, m.tiles.flatMap fun t => (upFrom 0 32).flatMap fun i => (t.row i).flatMap fun v => natBytes v 12)]

/-- Write an image into its slot, at its home points (R98). -/
def Dev.writeImage (d : Dev) (slot : Nat) (m : Member) (reason : Nat) : Dev :=
  (m.parts reason).foldl (fun d p => d.homePut (d.imageBase slot + p.1) p.2) d

/-! ## Reading -/

/-- The frontier entries of a warp state record, in frontier order; `old` tells the clauses of other resume points (log 11). -/
def frontierOf (b : List Byte) (resume : DWord) (old : List Entry) : List Entry :=
  let es := (pieces 16 32 b).filterMap fun e =>
    let pc := recD e 0
    let mask := BitVec.ofNat 32 (bytesNat ((e.drop 12).take 4))
    let was := old.find? fun x => x.pc = pc && x.pc ≠ x.clause
    let clause := match was with
      | some x => if resumeEntry old = some x then resume else x.clause
      | none => pc
    if mask = 0 then none
    else some (⟨pc, BitVec.ofNat 16 (bytesNat ((e.drop 8).take 2)), mask, bytesNat ((e.drop 10).take 2), clause⟩ : Entry)
  es.foldl (fun f e => insertEntry e f) []

/-- The entry that the pending trap frame of a state record saves (R423, R426); none where the record holds no frame, or one without
lanes. -/
def pendingOf (b : List Byte) : Option Entry :=
  let f := (b.drop 0x3A0).take 64
  let mask : Word := BitVec.ofNat 32 (bytesNat ((f.drop 16).take 4))
  if mask = 0 then none
  else some ⟨recD f 0, BitVec.ofNat 16 (bytesNat ((f.drop 20).take 2)), mask, 0, if recD f 8 = 0 then recD f 0 else recD f 8⟩

/-- Whether the frontier of a state record can be restored: its masks are disjoint, and it is not empty without a pending frame
(R433). A warp that had ended has none. -/
def frontierOk (b : List Byte) (t : Thread) : Bool :=
  let masks := ((pieces 16 32 b).map fun e => bytesNat ((e.drop 12).take 4)).filter fun m => m ≠ 0
  t.ended || ((!masks.isEmpty || (pendingOf b).isSome) && (masks.foldl (fun (p : Bool × Nat) m =>
    (p.1 && Nat.land p.2 m == 0, Nat.lor p.2 m)) (true, 0)).1)

/-- An x register of an image: one outside its shadows gets the interval top (R433). -/
def xOf (b : List Byte) : XReg :=
  let w := fun (o : Nat) => (BitVec.ofNat 32 (bytesNat ((b.drop o).take 4)) : Word)
  if (w 4).toInt ≤ (w 0).toInt && (w 0).toInt ≤ (w 8).toInt then ⟨w 0, w 4, w 8⟩ else ⟨w 0, XReg.reset.lo, XReg.reset.hi⟩

/-- A lane from the rows of its warp: its general registers, index registers, generator, predicates. -/
def laneOf (l : Nat) (gs xs : List (List Byte)) (gens ps : List Byte) : Lane :=
  let g := gs.map fun r => (BitVec.ofNat 32 (bytesNat ((r.drop (4 * l)).take 4)) : Word)
  let x := xs.map fun r => xOf ((r.drop (12 * l)).take 12)
  ⟨(g ++ List.replicate (112 - g.length) 0).take 112, (x ++ List.replicate (16 - x.length) XReg.reset).take 16,
   (ps.getD l 0).setWidth 7, recD gens (8 * l)⟩

/-- An array register of an image, unarmed. -/
def arrOf (b : List Byte) : ArrReg :=
  let k := bytesNat ((b.drop 12).take 4)
  ⟨recD b 0, BitVec.ofNat 32 (bytesNat ((b.drop 8).take 4)), k % 8, bitOf k 3, bitOf k 4, false, false⟩

/-- The frontier of a state record: one that is empty is restored with the entry that the pending frame saves (DEDUCED, log 11). -/
def frontierAt (b : List Byte) (t : Thread) : List Entry :=
  match frontierOf b (recD b 0x3F8) t.stopFrontier with
  | [] => (pendingOf b).toList
  | f => f

/-- A warp as its state record holds it, on an issue slot; `t` is the warp as it was saved. -/
def warpOf (t : Thread) (slot : Nat) (b gens : List Byte) (gs xs : List (List Byte)) : Thread :=
  let word := fun (o : Nat) => (BitVec.ofNat 32 (bytesNat ((b.drop o).take 4)) : Word)
  let tstat := word 0x3EC
  { t with
    slot := slot, clause := none, wait := if t.wait = .halt then .halt else .none, frame := none
    lanes := (upFrom 0 32).map fun l => laneOf l gs xs gens (b.drop 0x280)
    s := (pieces 4 32 (b.drop 0x200)).map fun w => BitVec.ofNat 32 (bytesNat w)
    arrays := (pieces 16 16 (b.drop 0x2A0)).map arrOf
    frontier := if t.ended then [] else frontierAt b t
    tvec := recD b 0x3E0, tframe := word 0x3E8, tcause := tstat.extractLsb' 8 8, pend := tstat.getLsbD 1
    masked := tstat.getLsbD 0, loopCount := (b.getD 0x3F0 0).toNat, loss := b.getD 0x3F1 0 ≠ 0, runCrc := word 0x3F4 }

/-- The arrays that an image marks for arming (R88). -/
def rearmOf (b : List Byte) : List Nat :=
  (upFrom 0 16).filter fun k => bitOf (bytesNat ((b.drop (0x2A0 + 16 * k + 12)).take 4)) 5

/-- The allotment state of a code (R432). -/
def AllotState.ofCode (n : Nat) : AllotState :=
  if n = 1 then .waiting else if n = 2 then .full else if n = 3 then .tail else .prologue

/-- A group with what the header of its image holds (R432): the record's pool copy, the allotment state with the scratch that goes
with it. -/
def Group.headed (g : Group) (head : List Byte) : Group :=
  let state := AllotState.ofCode (head.getD 64 0).toNat
  let r := { g.record with bytes := head.take 64 }
  let scr := match state with
    | .prologue => 1
    | .waiting => 1
    | _ => recScr r.bytes
  { g with record := r, state := state, units := if state = g.state then g.units else scr }

/-- The holder of the baton that the state records of an image slot name: the first warp whose record says so, or the group's sequencer
program, for which the layout has no place (R432, log 11). -/
def Dev.batonOfImage (d : Dev) (at_ : Nat) (g : Group) (old : Holder) : Holder :=
  match g.warps.find? fun w => (d.homeSpan (at_ + 0x400 + 0x400 * w.wid + 0x3F2) 1).any fun b => b ≠ 0 with
  | some w => .warp g.gid w.wid
  | none => if old = .seq g.gid then old else .free

/-- An image with its groups and their batons as its bytes hold them. -/
def Dev.headed (d : Dev) (i : Image) : Image :=
  let at_ := fun (n : Nat) => d.imageBase (i.first + n)
  { i with
    groups := mapIdx (fun n (g : Group) => g.headed (d.homeSpan (at_ n) 128)) 0 i.groups
    baton := mapIdx (fun n (g : Group) =>
      (g.gid, d.batonOfImage (at_ n) g (((i.baton.find? fun p => p.1 = g.gid).map fun p => p.2).getD .free))) 0 i.groups }

/-- A group as an image slot holds it, on a core with issue slots for its warps. -/
def Dev.groupOfImage (d : Dev) (at_ : Nat) (g : Group) (c : CoreRef) (slots : List Nat) : Group :=
  let b := g.record.bytes
  let n := g.warps.length
  let gs := recGblk b * 8
  let xs := (recXq b + 1) * 4
  let recs := pieces 1024 n (d.homeSpan (at_ + 0x400) (1024 * n))
  let gens := pieces 256 n (d.homeSpan (at_ + 0x10000) (256 * n))
  let regs := pieces (128 * gs) n (d.homeSpan (at_ + 0x20000) (128 * gs * n))
  let idx := pieces (384 * xs) n (d.homeSpan (at_ + 0x60000) (384 * xs * n))
  let head := d.homeSpan at_ 128
  let old := pieces 512 16 (d.homeSpan (at_ + 0x8400) 8192)
  { g with
    core := c, started := d.now
    order := if g.state = .waiting then bytesNat ((head.drop 68).take 4) else g.order
    perfsel := BitVec.ofNat 32 (bytesNat ((head.drop 80).take 4)), perf := (upFrom 0 4).map fun k => recD head (88 + 8 * k)
    warps := mapIdx (fun w t => warpOf t (slots.getD w 0) (recs.getD w []) (gens.getD w []) (pieces 128 gs (regs.getD w []))
      (pieces 384 xs (idx.getD w []))) 0 g.warps
    bars := mapIdx (fun k x => Barrier.ofBytes (old.getD k []) x) 0 g.bars
    scratch := mapIdx (fun k x => (k, x)) 0 (d.homeSpan (at_ + 0x90000) g.scratchBytes) }

/-- The tiles that an image slot holds. -/
def Dev.tilesOfImage (d : Dev) (at_ : Nat) : List Tile :=
  let forms := (d.homeW (at_ + 76)).toNat
  mapIdx (fun n t => ⟨bitOf forms n, mapIdx (fun i r => (i, (pieces 12 128 r).map bytesNat)) 0 (pieces 1536 32 t)⟩) 0
    (pieces 49152 8 (d.homeSpan (at_ + 0xF0000) 393216))

/-! ## Reading entries, weight slots and sequencers (R366, R372, R432, R433) -/

/-- The value of a shape field of a record: that of a marker with no substitute stands among the operands. -/
def recField (f : ShapeField) (v : Word) : Nat := if f.value = 0x7FF then v.toNat else f.value.toNat

/-- The same of a field that counts units of 16 bytes. -/
def recUnit (f : ShapeField) (v : Word) : Nat := if f.value = 0x7FF then v.toNat else f.value.toNat * 16

/-- The signal of a record's shape field. -/
def recSignal (sh : Shape) : Option Nat := signalOf sh.sh6.value.toNat

/-- The rows of an MMA in lane mode: address and scales of each row of the mask, of `per` words each; those that the 64 bytes do not
hold are the saved ones. -/
def recRows (mask : Word) (per : Nat) (ops : List Word) (old : List ((Nat × Nat) × List Word)) : List ((Nat × Nat) × List Word) :=
  mapIdx (fun k l =>
    let w := (ops.drop (k * per)).take per
    if w.length = per then ((l, (w.getD 0 0).toNat), w.drop 1)
    else ((old.find? fun x => x.1.1 = l).getD ((l, 0), []))) 0 (maskLanes mask)

/-- The rows of an MMA with their scales. -/
def MatrixOp.rows : MatrixOp → List ((Nat × Nat) × List Word)
  | .mma _ _ _ _ rows _ scales _ => mapIdx (fun k r => (r, scales.getD k [])) 0 rows
  | _ => []

/-- The entry that the words and operands of a record name, and its signal; the bands of an MLDB are found when it is admitted
again. -/
def recordOp (words ops : List Word) (old : List ((Nat × Nat) × List Word)) : Option (MatrixOp × Option Nat) :=
  let v := fun (n : Nat) => ops.getD n 0
  match decode words with
  | .ok i _ =>
    match i with
    | .mldb w fmt _ _ _ sp sparse sh =>
      let space := fun (n : Nat) => if sp = 1 then EngineSpace.scr (v n).toNat else .virt ((v n).toNat + (v (n + 1)).toNat * 2 ^ 32)
      some (.mldb w.toNat fmt (v 0) (recField sh.sh1 (v 1)) [] [] (if sparse = 1 then some (space 5) else none) (space 3) []
        (recField sh.sh0 (v 2)), signalOf sh.sh2.value.toNat)
    | .mzero m isInt => some (.mzero m.toNat (isInt = 1), none)
    | .mma m w _ _ _ sh =>
      let fmt : BitVec 4 := sh.sh0.value.extractLsb' 0 4
      let n := (sh.sh0.value.extractLsb' 4 3).toNat + 1
      let rows := recRows (v 2) (if isNarrow fmt then n + 1 else 1) ((ops.drop 3).take 8) old
      some (.mma m.toNat w.toNat n fmt (rows.map Prod.fst) (16 * recField sh.sh1 (v 0))
        (if isNarrow fmt then rows.map Prod.snd else []) none, recSignal sh)
    | .mmaStr m w sh =>
      let fmt : BitVec 4 := sh.sh0.value.extractLsb' 0 4
      let at_ := fun (l : Nat) =>
        if sh.sh3.value = 0x7FF || sh.sh4.value = 0x7FF then ((old.find? fun x => x.1.1 = l).map fun x => x.1.2).getD 0
        else recUnit sh.sh3 0 + l * recField sh.sh4 0 * 16
      let rows := (maskLanes (if sh.sh2.value = 0x7FF then v 2 else sh.sh2.value.setWidth 32)).map fun l => (l, at_ l)
      some (.mma m.toNat w.toNat ((sh.sh0.value.extractLsb' 4 3).toNat + 1) fmt rows (16 * recField sh.sh1 (v 0)) []
        (if isNarrow fmt then some (recUnit sh.sh5 (v 1)) else none), recSignal sh)
    | .mrd m dfmt rnd sat ftz reg _ _ sh =>
      some (.mrd m.toNat dfmt rnd.toNat (sat = 1) (ftz = 1) (recField sh.sh1 (v 0)) (recField sh.sh2 (v 1)) (maskLanes (v 4))
        (if sh.sh0.value = 1 then none else some reg) (recUnit sh.sh3 (v 2))
        (if sh.sh4.value = 0x7FF then (v 3).toNat else 16 * sh.sh4.value.toNat) 0, recSignal sh)
    | .mamax m reg _ _ sh => some (.mamax m.toNat (recField sh.sh1 (v 0)) (recField sh.sh2 (v 1)) (maskLanes (v 2)) reg, none)
    | .msig b => some (.msig, some b.toNat)
    | .mseqEnd e b => some (.seqEnd, if e = 1 then some b.toNat else none)
    | _ => none
  | _ => none

/-- The words of a record and its operands behind them. -/
def recordWords (b : List Byte) : List Word × List Word :=
  let ws := (pieces 4 16 b).map fun w => (BitVec.ofNat 32 (bytesNat w) : Word)
  let n := opcodeLength (fld 24 8 (ws.headD 0))
  (ws.take n, ws.drop n)

/-- An entry as its record holds it: the saved one where the record is as it was written; else what the record names, admitted by the
saved entry's party. -/
def entryOfRecord (b : List Byte) (gid id : Nat) (old : Option MatrixEntry) : Option MatrixEntry :=
  if old.any fun e => entryBytes e.words e.operands = b then old
  else
    let (words, ops) := recordWords b
    if words.headD 0 = 0 then none
    else
      (recordOp words ops ((old.map fun e => e.op.rows).getD [])).map fun p =>
        { id := id, started := false, thread := (old.map fun e => e.thread).getD (.warp gid 0), gid := gid, flag := none, signal := p.2,
          op := p.1, words := words, operands := ops, orphan := old.any fun e => e.orphan }

/-- The entries of consecutive records, up to the first that names none. -/
def entriesOf (gid id : Nat) : List (List Byte) → List MatrixEntry → List MatrixEntry
  | [], _ => []
  | b :: r, old =>
    match entryOfRecord b gid id old.head? with
    | some e => e :: entriesOf gid (id + 1) r (old.drop 1)
    | none => []

/-- The first entry with the rows of the header's mask left, when that is not the mask that was saved (R372). -/
def stoppedAs (mask : Word) : List MatrixEntry → List MatrixEntry
  | e :: r =>
    if mask = stoppedRows (e :: r) then e :: r
    else
      match recordOp e.words e.operands e.op.rows with
      | some (.mma m w n fmt rows stride scales sbase, _) =>
        let left := (mapIdx (fun k x => (x, scales.getD k [])) 0 rows).filter fun x => mask = 0 || mask.getLsbD x.1.1
        let op := MatrixOp.mma m w n fmt (left.map Prod.fst) stride (if scales.isEmpty then [] else left.map Prod.snd) sbase
        { e with started := decide (mask ≠ 0), op := op } :: r
      | _ => e :: r
  | [] => []

/-- The matrix entries that an image slot holds. -/
def Dev.entriesOfImage (d : Dev) (at_ gid : Nat) (old : List MatrixEntry) : List MatrixEntry :=
  stoppedAs (d.homeW (at_ + 72)) (entriesOf gid d.nextId (pieces 64 64 (d.homeSpan (at_ + 0xC400) 4096)) old)

/-- A weight slot as its record holds it: the saved one where the record is as it was written. -/
def slotOfRecord (b : List Byte) (old : WSlot) : WSlot :=
  if entryBytes old.words old.operands = b then old
  else
    let (words, ops) := recordWords b
    match recordOp words ops [] with
    | some (.mldb _ fmt scaleB bands _ _ bm src _ pitch, _) =>
      { WSlot.reset with
        fmt := some fmt, scaleB := scaleB, bands := bands, admFmt := some fmt, admBands := bands, words := words, operands := ops
        src := some (src, bm, pitch) }
    | _ => WSlot.reset

/-- The weight slots that an image slot holds; none for a group that owned no matrix state. -/
def Dev.slotsOfImage (d : Dev) (at_ : Nat) (old : List WSlot) : List WSlot :=
  let bs := pieces 64 8 (d.homeSpan (at_ + 0xD400) 512)
  mapIdx (fun n x => slotOfRecord (bs.getD n []) x) 0 old

/-- A sequencer program as its part of an image holds it (log 11): the saved one where that is as it was written. A part that runs
where none was saved is a program of the first warp. -/
def seqOfImage (b : List Byte) (g : Group) (old : Option SeqProg) : Option SeqProg :=
  let running : Bool := b.getD 143 0 ≠ 0
  match old with
  | some p => if p.bytes = b then some p else some (change p running)
  | none => (g.warps.head?).bind fun t => if running then some (change ⟨seqThread t 0, g.gid, t.wid, false⟩ running) else none
where
  change (p : SeqProg) (running : Bool) : SeqProg :=
    let t := p.thread
    let pc := recD b 0
    let f := if (t.stopFrontier.head?).any fun e => e.pc = pc then t.stopFrontier else [⟨pc, 0xFFFF, 1, 0, pc⟩]
    { p with
      ended := !running
      thread := { t with
        frontier := if running then f else [], clause := none, wait := .none
        s := (pieces 4 32 (b.drop 8)).map fun w => BitVec.ofNat 32 (bytesNat w)
        lanes := t.lanes.map fun l => { l with p := (b.getD 136 0).setWidth 7 }
        runCrc := BitVec.ofNat 32 (bytesNat ((b.drop 139).take 4)) } }

/-- The sequencer programs that an image slot holds: whether the copy sequencer's, and the program. -/
def Dev.seqsOfImage (d : Dev) (at_ : Nat) (g : Group) (old : List (Bool × SeqProg)) : List (Bool × SeqProg) :=
  [false, true].filterMap fun copy =>
    (seqOfImage (d.homeSpan (at_ + 0xB400 + if copy then 1024 else 0) 1024) g
      ((old.find? fun p => p.1 = copy).map fun p => p.2)).map fun p => (copy, p)

end Sys2Proof.Machine
end

