-- ==== Sys2Proof/Machine/Save.lean ====
section
/-! DEFINITION. Drains, precise saves and restores (R142, R207, R366, R372, R382, R418, R426 to R433): their timers, the
PRECMD commands, SAVE_COMPLETE, RESTORE and THERMAL_MIGRATION. -/

namespace Sys2Proof.Machine

/-! ## Saving (R430, R431) -/

/-- Mark a gang for a save; one already marked keeps its reason, but a thermal migration gives way. -/
def Dev.markSave (d : Dev) (gang reason : Nat) : Dev :=
  d.onGang gang fun q => if q.save.isSome && q.save ≠ some 2 then q else { q with save := some reason }

/-- The gangs with a resident group of a context. -/
def Dev.gangsOf (d : Dev) (ctx : Nat) : List Nat :=
  ((d.groups.filter fun g => !g.ended && g.ctx == ctx).map fun g => g.gang).eraseDups

/-- Whether an image is that of a thermal migration under way. -/
def Image.moving (i : Image) : Bool := i.reason = 2 && i.restoring

/-- Mark every resident group of a context for a save (R428, R429); those in a thermal migration are resident (R443), and are
saved once they are restored. -/
def Dev.saveCtx (d : Dev) (ctx reason : Nat) : Dev :=
  let mark := fun (i : Image) => if i.ctx = ctx && i.moving then { i with gang := { i.gang with save := some reason } } else i
  (d.gangsOf ctx).foldl (fun d g => d.markSave g reason) { d with images := d.images.map mark }

/-- The contexts with a save unfinished that a timer may bound: gangs marked for one, and those that are when their thermal migration
ends; a thermal save itself has no timer (R443). -/
def Dev.unfinished (d : Dev) : List Nat :=
  ((d.gangs.filter fun q => q.save.isSome && q.save ≠ some 2).flatMap fun q => (d.groups.filter fun g => g.gang == q.id && !g.ended).map fun g => g.ctx) ++
    (d.images.filter fun i => i.moving && i.gang.save ≠ some 2).map fun i => i.ctx

/-- The save timer of a slot starts for a context that has groups to be saved; a timer of 0 is taken as 1 (R404, R429). -/
def Dev.startSaveTimer (d : Dev) (q ctx : Nat) : Dev :=
  let t := max 1 (bits (d.reg (.qtimer q)) 31 16)
  if d.unfinished.contains ctx then d.onSlot q fun x => { x with saveEnd := some (d.now + 1000 * t, ctx) } else d

/-- Whether an operation is the read of an ACQ, out of which a save takes its warp (R359, R431). -/
def Op.isAcq (o : Op) : Bool :=
  match o.kind with
  | .acq _ => true
  | _ => false

/-- Whether a trap of a thread still waits for its frame to be written (R391). -/
def Thread.entering (t : Thread) : Bool :=
  match t.wait with
  | .trap _ _ _ => true
  | _ => false

/-- Whether a gang's save may be completed: no warp has traps masked or is taking one, nothing of it is outstanding, no queued entry has tagged a flag,
the copy queue is drained, and no entry but an MMA is part done (R251, R372, R382, R430, R431). -/
def Dev.saveReady (d : Dev) (gs : List Group) : Bool :=
  let gids := gs.map fun g => g.gid
  (gs.all fun g => g.warps.all fun w => w.unack == 0 && !w.entering && (w.ended || !w.masked || w.frame.isSome)) &&
    !(d.ops.any fun o => d.threadIn gids o.thread && !o.isAcq) &&
    gs.all fun g =>
      let k := d.core g.core
      !(k.copy.any fun e => e.gid = some g.gid) && !(k.msgs.any fun e => e.gid == g.gid) &&
        !((k.matrix.filter fun e => e.gid == g.gid).any fun e => e.flag.isSome || e.started && match e.op with
          | .mma _ _ _ _ _ _ _ _ => false
          | _ => true)

/-- Whether a warp has arrived with an arrive-and-wait instruction and waits, or is released. -/
def Thread.arrived (t : Thread) : Bool :=
  let sync := match t.head with
    | some (.ok (.barSync _ _) _) => true
    | some (.ok (.barsSync _ _ _) _) => true
    | _ => false
  let waiting := match t.wait with
    | .barrier _ _ => true
    | .released _ _ _ => true
    | _ => false
  sync && waiting

/-- A thread taken out of what it waits for, with its PC at that instruction and its flags clear, that of an ACQ it is taken out of
included (R251, R431). A halted one stays halted, with its PC behind HALT (R399). -/
def Thread.kept (t : Thread) : Thread :=
  { t with frontier := t.stopFrontier, clause := none, flags := List.replicate 12 0, wait := if t.wait = .halt then .halt else .none }

/-- The same of a warp; only one that has arrived with an arrive-and-wait instruction stays arrived, with its PC behind it (R431,
log 11). -/
def Dev.keptWarp (d : Dev) (g : Group) (t : Thread) : Thread :=
  match t.arrived, t.head with
  | true, some (.ok _ n) =>
    { (((d.retire (.warp g.gid t.wid) n).thread (.warp g.gid t.wid)).getD t).kept with wait := t.wait }
  | _, _ => t.kept

/-- What the image of a group holds (R432). Its tiles and weight slots are those of its core when the matrix state is its own. -/
def Dev.memberOf (d : Dev) (g : Group) : Member :=
  let k := d.core g.core
  let own := k.owner = some g.gid
  let seq := fun (copy : Bool) => match k.seq copy with
    | some p => if p.gid = g.gid then [(copy, { p with thread := p.thread.kept })] else []
    | none => []
  { group := { g with warps := g.warps.map (d.keptWarp g) }
    gangBars := if g.member = 0 then ((d.gang g.gang).map fun q => q.bars).getD [] else []
    seqs := seq false ++ seq true
    matrix := k.matrix.filter fun e => e.gid == g.gid
    slots := if own then k.slots else []
    tiles := if own then k.tiles else []
    baton := match k.baton with
      | .warp x w => if x = g.gid then .warp x w else .free
      | .seq x => if x = g.gid then .seq x else .free
      | .free => .free }

/-- Whether an image slot is in use. -/
def Dev.slotUsed (d : Dev) (n : Nat) : Bool := d.images.any fun i => i.first ≤ n && n < i.first + i.groups.length

/-- The first slots of the runs of `n` free image slots. -/
def Dev.freeRunsOfSlots (d : Dev) (n : Nat) : List Nat :=
  (upFrom 0 (bits (d.reg .savepool) 63 48 + 1 - n)).filter fun f => (upFrom f n).all fun k => !d.slotUsed k

/-- The events of a completed save: kind 5, unless it is thermal, then kind 1 for each delivered trap (R426, R427). -/
def Dev.saveEvents (d : Dev) (i : Image) : Dev :=
  let slot := i.qslot.getD 0xFFFF
  let core := ((i.groups.head?).map fun g => coreId g.core).getD 0xFFFF
  let d := if i.reason = 2 then d
    else d.event ⟨5, 0, i.ctx, core, slot, BitVec.ofNat 64 i.first, BitVec.ofNat 64 i.groups.length, BitVec.ofNat 64 i.reason⟩
  foldIdx (fun n d (g : Group) => g.warps.foldl (fun d w => match w.frame with
    | some f => d.event ⟨1, f.cause.toNat, i.ctx, coreId g.core, slot, BitVec.ofNat 64 (i.first + n), f.pc, f.detail⟩
    | none => d) d) 0 d i.groups

/-- Save timers of contexts with nothing left to save stop. -/
def Dev.stopTimers (d : Dev) : Dev :=
  let left := d.unfinished
  { d with slots := d.slots.map fun x => { x with saveEnd := x.saveEnd.filter fun p => left.contains p.2 } }

/-- Whether a migration holds a part of a span of memory (R96). -/
def Dev.spanHeld (d : Dev) (a n : Nat) : Bool :=
  d.dies.any fun k => k.hold.any fun h => decide (h.1 < a + n) && decide (a < h.1 + h.2)

/-- SAVE_COMPLETE (R431): one image per member is written into consecutive free slots that no migration holds, of a member that has completed too, whose
scratch the gang still uses (R32, R207); the buffered log entries of the cores are written (R69), and everything the groups hold
is released; an image of a thermal migration is to be restored at once. -/
def execSaveComplete (gang : Nat) (s : State) : Out :=
  happen s fun d =>
    match d.gang gang with
    | none => none
    | some q =>
      match q.save with
      | none => none
      | some reason =>
        let gs := q.members.filterMap fun m => d.group m
        let free := (d.freeRunsOfSlots gs.length).filter fun n => !d.spanHeld (d.imageBase n) (2 ^ 21 * gs.length)
        if gs.isEmpty || !d.saveReady gs || free.isEmpty || gs.all fun g => g.warps.all fun w => w.ended then none
        else
          let (n, d) := d.choose free.length
          let first := free.getD n 0
          let ms := gs.map d.memberOf
          let i : Image :=
            { first := first, ctx := (gs.map fun g => g.ctx).headD 0, epoch := (gs.map fun g => g.epoch).headD 0, gang := q,
              groups := ms.map fun m => m.group, seqs := ms.flatMap fun m => m.seqs.map fun p => (m.group.gid, p.1, p.2),
              matrix := ms.map fun m => (m.group.gid, m.matrix), slots := ms.map fun m => (m.group.gid, m.slots),
              baton := ms.map fun m => (m.group.gid, m.baton), qslot := ((gs.head?).bind fun g => g.record.slot),
              reason := reason, restoring := decide (reason = 2) }
          let gids := gs.map fun g => g.gid
          let d := gs.foldl (fun d g => d.flushCtx g.core g.ctx) d
          let d := foldIdx (fun k d m => d.writeImage (first + k) m reason) 0 d ms
          let d := (d.killOps fun o => d.threadIn gids o.thread).mapCores fun k => k.without gids
          let gone := fun (g : Group) => g.gang == q.id
          let d := { d with
            groups := d.groups.filter fun g => !gone g
            gangs := d.gangs.filter fun x => x.id ≠ q.id
            images := d.images ++ [i] }
          some (d.stopTimers.saveEvents i)

/-! ## Drains and timers (R429) -/

/-- DRAIN_COMPLETE (R429): no group fed by the slot is resident, be it after the timer's saves (log 37); what the context has buffered
for its log is written (R69). -/
def execDrainComplete (slot : Nat) (s : State) : Out :=
  happen s fun d =>
    if (d.slot slot).drainEnd.isNone || d.undrained slot ≠ 0 then none
    else
      let ctx := d.slotCtx slot
      let d := d.cores.foldl (fun d k => d.flushCtx k.ref ctx) (d.onSlot slot fun x => { x with drainEnd := none })
      some (d.event ⟨6, 0, d.slotCtx slot, 0xFFFF, slot, BitVec.ofNat 64 slot, 0, 0⟩)

/-- DRAIN_TIMEOUT (R429): the drain timer expires first: the slot's context is saved, and the save timer starts. -/
def execDrainTimeout (slot : Nat) (s : State) : Out :=
  happen s fun d =>
    match (d.slot slot).drainEnd with
    | none => none
    | some t =>
      if (d.slot slot).expired || d.now < t || d.undrained slot = 0 then none
      else
        let ctx := d.slotCtx slot
        some (((d.onSlot slot fun x => { x with expired := true }).saveCtx ctx 1).startSaveTimer slot ctx)

/-- SAVE_TIMEOUT (R429): the save timer expires: with a save unfinished the context is reset. -/
def execSaveTimeout (slot : Nat) (s : State) : Out :=
  happen s fun d =>
    match (d.slot slot).saveEnd with
    | none => none
    | some (t, ctx) =>
      let stopped := d.onSlot slot fun x => { x with saveEnd := none }
      if d.now < t then none else some (if d.unfinished.contains ctx then stopped.beginReset ctx 1 else stopped)

/-! ## Placing a restored gang (R204, R205, R418, R433) -/

/-- Whether a core admits a saved group: its allotment as it was, and its matrix state and baton (R208, R209). -/
def Dev.admitsSaved (d : Dev) (c : CoreRef) (g : Group) (matrix baton : Bool) : Bool :=
  let f := d.freePools c
  let h := g.held
  let need := fun (x : Group) =>
    if !x.ended && (x.state = .prologue || x.state = .waiting) then needOf x.record.bytes else (0, 0, 0)
  let open_ := (d.groups.filter fun x => x.core = c && !x.ended).map need
  let live := (g.warps.filter fun w => !w.ended).length
  decide (live ≤ (d.freeEntries c).sum) && decide (h.1 ≤ f.1) && decide (h.2 ≤ f.2.1) && decide (g.units ≤ f.2.2) &&
    (need g :: open_).all (fun n => decide (n.1 ≤ f.1 - h.1) && decide (n.2.1 ≤ f.2.1 - h.2) && decide (n.2.2 ≤ f.2.2 - g.units)) &&
    (!c.home || (g.core.home && decide (recScr g.record.bytes ≤ 8))) &&
    (!matrix || !((d.core c).owner.any fun x => (d.group x).isSome)) && (!baton || (d.core c).baton = .free)

/-- Whether the sequencers and the matrix queue of a core have room for what a member brings (R211, R212). -/
def Dev.engineRoom (d : Dev) (i : Image) (g : Group) (c : CoreRef) : Bool :=
  let k := d.core c
  let entries := ((i.matrix.find? fun p => p.1 = g.gid).map fun p => p.2.length).getD 0
  decide (k.matrix.length + entries ≤ 64) &&
    (i.seqs.filter fun p => p.1 = g.gid).all fun p => (k.seq p.2.1).all fun x => x.ended

/-- Whether a core takes a member of an image. -/
def Dev.takesMember (d : Dev) (i : Image) (g : Group) (c : CoreRef) : Bool :=
  let matrix := i.slots.any fun p => p.1 == g.gid && !p.2.isEmpty
  let baton := i.baton.any fun p => p.1 == g.gid && p.2 != .free
  d.admitsSaved c g matrix baton && d.engineRoom i g c

/-- The temperature of a core. -/
def Dev.tempOf (d : Dev) (c : CoreRef) : Nat := ((d.coreTemp.find? fun p => p.1 = c).map fun p => p.2).getD 0

/-- The first of the least elements of a list under a measure. -/
def leastBy {α : Type} (f : α → Nat) : List α → Option α
  | [] => none
  | a :: r =>
    match leastBy f r with
    | some b => if f b < f a then some b else some a
    | none => some a

/-- The ways to place the members of an image on distinct cores of a quad. -/
def Dev.quadPlaces (d : Dev) (i : Image) (die quad : Nat) (ok : CoreRef → Bool) : List (List CoreRef) :=
  if d.quadTaken die quad then []
  else
    (injections i.groups.length ((upFrom (4 * quad) 4).map fun n => ⟨die, false, n⟩)).filter fun l =>
      l.all ok && (i.groups.zip l).all fun p => d.takesMember i p.1 p.2

/-- The core of a die for a saved group, as R415 chooses. -/
def Dev.saveCore (d : Dev) (i : Image) (g : Group) (die : Nat) : Option CoreRef :=
  let r := g.record
  let ok := fun (c : CoreRef) => d.takesMember i g c
  let h : CoreRef := ⟨die, true, r.owner / 128 % 8⟩
  if recPlace r.bytes = 2 && die = dieOf r.owner && ok h then some h
  else
    match d.fewest ((computeCores die).filter ok) with
    | some c => some c
    | none => d.fewest ((homeCores die).filter ok)

/-- Every die and every quad of the package. -/
def quads : List (Nat × Nat) := (upFrom 0 4).flatMap fun k => (upFrom 0 16).map fun q => (k, q)

/-- The cores an image is restored on: for a thermal migration the coolest cool one, or for a gang the quad whose hottest core is
the coolest (log 28); else a free choice among the dies, or quads, that have room. -/
def Dev.restorePlace (d : Dev) (i : Image) : Option (List CoreRef × Dev) :=
  let pick := fun (l : List (List CoreRef)) =>
    if l.isEmpty then none else let (n, d) := d.choose l.length; some (l.getD n [], d)
  if i.gang.size = 1 then
    match i.groups with
    | [g] =>
      if i.reason = 2 then
        (leastBy d.tempOf (((upFrom 0 4).flatMap computeCores).filter fun c => d.cool c && d.takesMember i g c)).map
          fun c => ([c], d)
      else pick (((upFrom 0 4).filterMap fun k => d.saveCore i g k).map fun c => [c])
    | _ => none
  else
    let heat := fun (q : Nat × Nat) => maxOf ((upFrom (4 * q.2) 4).map fun n => d.tempOf ⟨q.1, false, n⟩)
    if i.reason = 2 then
      ((leastBy heat (quads.filter fun q => !(d.quadPlaces i q.1 q.2 d.cool).isEmpty)).bind fun q =>
        (d.quadPlaces i q.1 q.2 d.cool).head?).map fun l => (l, d)
    else pick (quads.flatMap fun q => d.quadPlaces i q.1 q.2 fun _ => true)

/-! ## Restoring (R433) -/

/-- The issue slots of warps: those that live are placed in ascending number, the others keep none (R191). -/
def placeLive : List Thread → List Nat → List Nat
  | [], _ => []
  | t :: r, free =>
    if t.ended then 0 :: placeLive r free
    else mostFree free :: placeLive r (updAt free (mostFree free) fun k => k - 1)

/-- A thread of a saved group on its new core. -/
def movedTo (c : CoreRef) (r : ThreadRef) : ThreadRef :=
  match r with
  | .seq _ copy => .seq c copy
  | r => r

/-- Put one member of an image on a core: its group, tiles, weight slots without contents, entries, programs and baton (R433
steps 1, 3, 4), as the image's bytes hold them. A group that is restored with the baton and without matrix state finds the core's
empty, as one that takes the baton does (R209). -/
def Dev.putMember (d : Dev) (i : Image) (n : Nat) (g : Group) (c : CoreRef) : Dev :=
  let at_ := d.imageBase (i.first + n)
  let new := d.groupOfImage at_ g c (placeLive g.warps (d.freeEntries c))
  let tiles := d.tilesOfImage at_
  let slots := d.slotsOfImage at_ (((i.slots.find? fun p => p.1 = g.gid).map fun p => p.2).getD [])
  let saved := d.entriesOfImage at_ g.gid (((i.matrix.find? fun p => p.1 = g.gid).map fun p => p.2).getD [])
  let entries := saved.map fun (e : MatrixEntry) => { e with thread := movedTo c e.thread }
  let seqs := d.seqsOfImage at_ new ((i.seqs.filter fun p => p.1 = g.gid).map fun p => p.2)
  let d := { d with nextId := d.nextId + saved.length }
  let baton := ((i.baton.find? fun p => p.1 = g.gid).map fun p => p.2).getD .free
  let d := d.onCore c fun k =>
    let k := if !slots.isEmpty then { k with owner := some g.gid, tiles := tiles, slots := slots }
      else if baton = .free then k else k.owned g.gid
    { k with matrix := k.matrix ++ entries, baton := if baton = .free then k.baton else baton }
  let d := seqs.foldl (fun d p => (d.orphanSeq c p.1).onCore c fun k => k.setSeq p.1 (some p.2)) d
  { d with groups := d.groups ++ [new] }

/-- How a reload of a weight slot ends. -/
inductive Reload where
  | ok (d : Dev)
  | fails (cause : BitVec 8) (slot addr : Nat)
  | bad (lines : List Nat)
  deriving DecidableEq, Repr

/-- The translations of an MLDB's source on a core, or the cause that fails (R366). -/
def Dev.sourcePages (d : Dev) (c : CoreRef) (tag : BitVec 16) (fmt : BitVec 4) (nz : Nat) (src : EngineSpace) (pitch : Nat) :
    (List TlbEntry ⊕ (BitVec 8 × Nat)) × Dev :=
  match src with
  | .virt a =>
    match d.spanPages c tag (a + sourceSpan fmt pitch nz) (sourceSpan fmt pitch nz / 4096 + 2) a [] with
    | (.inl p, d) => (.inl p, d)
    | (.inr x, d) => (.inr ((spanTrap x).cause, a), d)
  | _ => (.inl [], d)

/-- The bytes of a bitmap read again, for a source of `bands` logical bands: none when it holds uncorrectable data. -/
def Dev.bitmapAgain (d : Dev) (f : Fuses) (c : CoreRef) (g : Group) (bands : Nat) (bm : Option EngineSpace) :
    (Option (List Byte × List TlbEntry) ⊕ (BitVec 8 × Nat)) × Dev :=
  let n := 2 * bands
  match bm with
  | some (.virt a) =>
    let tag := mkTag g.ctx g.epoch
    (match d.spanPages c tag (a + n) (n / 4096 + 2) a [] with
     | (.inr x, d) => (.inr ((spanTrap x).cause, a), d)
     | (.inl pages, d) =>
       let (x, d) := d.engineRead f c tag pages (n / 8 + 4) a n
       (.inl (if x.2 then some (x.1, pages) else none), d))
  | some (.scr a) =>
    (.inl (some (((d.scratchAt g a n).bind fun p => (d.group p.1).map fun k => k.scratchRead p.2 n).getD (List.replicate n 0), [])), d)
  | _ => (.inl (some ([], [])), d)

/-- What an MLDB that is admitted again finds (R366): its bitmap, its bands, the pages of its source and its bitmap; or the cause that fails. A bitmap
that has changed and names more than 16 nonzero bands loads the first 16 (log 51). -/
def Dev.mldbAgain (d : Dev) (f : Fuses) (c : CoreRef) (g : Group) (fmt : BitVec 4) (bands : Nat) (bm : Option EngineSpace)
    (src : EngineSpace) (pitch : Nat) : (Option (List Byte × List Nat × List TlbEntry) ⊕ (BitVec 8 × Nat)) × Dev :=
  match d.bitmapAgain f c g bands bm with
  | (.inr x, d) => (.inr x, d)
  | (.inl none, d) => (.inl none, d)
  | (.inl (some (bitmap, bp)), d) =>
    let map := (bandMap bm.isSome bitmap bands).take 16
    match d.sourcePages c (mkTag g.ctx g.epoch) fmt map.length src pitch with
    | (.inr x, d) => (.inr x, d)
    | (.inl pages, d) => (.inl (some (bitmap, map, pages ++ bp)), d)

/-- The bad lines of some virtual spans of a context, as the page tables map them. -/
def Dev.badIn (d : Dev) (tag : BitVec 16) (spans : List (Nat × Nat)) : List Nat :=
  (spans.flatMap fun p => (upFrom (p.1 / 128) ((p.1 + p.2 + 127) / 128 - p.1 / 128)).map fun n => n * 128).filterMap fun va =>
    match d.freshPage tag va with
    | .ok e => if d.bad (e.lpaAt va) then some (e.lpaAt va) else none
    | .bad _ => none

/-- The bad lines that an MLDB of some bands, or its bitmap, lies on. -/
def Dev.badSource (d : Dev) (g : Group) (fmt : BitVec 4) (bands nz : Nat) (bm : Option EngineSpace) (src : EngineSpace) (pitch : Nat) :
    List Nat :=
  let rows := match src with
    | .virt a => (upFrom 0 (8 * nz)).map fun r => (a + r * pitch * 16, elementBytes fmt 128)
    | _ => []
  let bits := match bm with
    | some (.virt a) => [(a, 2 * bands)]
    | _ => []
  d.badIn (mkTag g.ctx g.epoch) (rows ++ bits)

/-- Repeat the MLDB recorded for a weight slot (R366). -/
def Dev.reloadSlot (d : Dev) (f : Fuses) (c : CoreRef) (g : Group) (n : Nat) (x : WSlot) : Reload :=
  match x.src, x.fmt with
  | some (src, bm, pitch), some fmt =>
    let e : MatrixEntry := ⟨0, false, .warp g.gid 0, g.gid, none, none, .msig, x.words, x.operands, false⟩
    (match d.mldbAgain f c g fmt x.bands bm src pitch with
     | (.inr (cause, a), _) => .fails cause n a
     | (.inl none, d) => .bad (d.badSource g fmt x.bands 0 bm src pitch)
     | (.inl (some (bitmap, map, pages)), d) =>
       match d.loadSlot f c g e n fmt x.scaleB x.bands map bitmap bm src pages pitch with
       | some d => .ok d
       | none => .bad (d.badSource g fmt x.bands map.length none src pitch))
  | _, _ => .ok d

/-- Repeat the recorded MLDBs of a member's weight slots. -/
def Dev.reloadAll (d : Dev) (f : Fuses) (c : CoreRef) (g : Group) : Nat → List WSlot → Reload
  | _, [] => .ok d
  | n, x :: r =>
    match d.reloadSlot f c g n x with
    | .ok d => d.reloadAll f c g (n + 1) r
    | x => x

/-- Admit the saved MLDBs that have not started again: their bitmaps are read and their sources translated (R366). -/
def Dev.renewPages (d : Dev) (f : Fuses) (c : CoreRef) (g : Group) : List MatrixEntry → Reload
  | [] => .ok d
  | e :: r =>
    match e.op with
    | .mldb w fmt sb bands _ _ bm src _ pitch =>
      (match d.mldbAgain f c g fmt bands bm src pitch with
       | (.inr (cause, a), _) => .fails cause w a
       | (.inl none, d) => .bad (d.badSource g fmt bands 0 bm src pitch)
       | (.inl (some (bitmap, map, pages)), d) =>
         let op := MatrixOp.mldb w fmt sb bands map bitmap bm src pages pitch
         let admitted := fun (x : WSlot) => { x with admFmt := some fmt, admBands := bands, admMap := map }
         (d.onCore c fun k => { k with
           slots := updAt k.slots w admitted
           matrix := updBy (fun x => x.id = e.id) (fun x => { x with op := op }) k.matrix }).renewPages f c g r)
    | _ => d.renewPages f c g r

/-- Reload the matrix state of the members, each on its core; with a failure goes the member's number and core. -/
def Dev.reloadMembers (d : Dev) (f : Fuses) (n : Nat) : List (Group × CoreRef) → Reload × Nat × CoreRef
  | [] => (.ok d, n, ⟨0, false, 0⟩)
  | (g, c) :: r =>
    match d.group g.gid with
    | none => d.reloadMembers f (n + 1) r
    | some new =>
      let slots := if (d.core c).owner = some g.gid then (d.core c).slots else []
      match d.reloadAll f c new 0 slots with
      | .ok d =>
        (match d.renewPages f c new ((d.core c).matrix.filter fun e => e.gid == g.gid) with
         | .ok d => d.reloadMembers f (n + 1) r
         | x => (x, n, c))
      | x => (x, n, c)

/-- A warp that had arrived with an arrive-and-wait instruction waits on, or is released when the phase is over; then it fetches its
clause again (R246, log 11). -/
def Dev.resumeSync (d : Dev) (gid : Nat) (old : Thread) : Dev :=
  match old.wait with
  | .barrier ref ph =>
    let wait := match d.bar ref with
      | some b => if b.phase ≠ ph then Wait.released b.lastSpans b.lastWhole (max ref.scope b.lastSig) else .barrier ref ph
      | none => .none
    d.onThread (.warp gid old.wid) fun t => { t with wait := wait }
  | .released spans whole scope => d.onThread (.warp gid old.wid) fun t => { t with wait := .released spans whole scope }
  | _ => d

/-- Steps 2 and 5 for a member: its arrays are armed, ACQ.ALL is performed at the narrowest scope that contains the old core and
the new one, its warps go on (R88, R142). -/
def Dev.wakeMember (d : Dev) (i : Image) (n : Nat) (g : Group) (c : CoreRef) : Dev :=
  let at_ := d.imageBase (i.first + n)
  let d := (g.warps.filter fun w => !w.ended).foldl (fun d w =>
    (rearmOf (d.homeSpan (at_ + 0x400 + 0x400 * w.wid) 1024)).foldl (fun d k => (d.armArray (.warp g.gid w.wid) k).2) d) d
  (g.warps.foldl (fun d w => d.resumeSync g.gid w) d).acquireAll c g.ctx (narrowest g.core c)

/-- RESTORE (R366, R433): an image that waits is put back on cores with room; a weight source that fails stops it, one that holds
uncorrectable data kills the gang. -/
def execRestore (index : Nat) (s : State) : Out :=
  happen s fun d =>
    match d.images[index]? with
    | none => none
    | some saved =>
      let i := d.headed saved
      if !i.restoring || !d.clocked then none
      else
        match d.restorePlace i with
        | none => none
        | some (cores, d) =>
          let work := i.groups.zip cores
          let c := cores.headD ⟨0, false, 0⟩
          let bars := mapIdx (fun k b => Barrier.ofBytes (d.homeSpan (d.imageBase i.first + 0xA400 + 512 * k) 512) b) 0 i.gang.bars
          let whole := (i.groups.head?).any fun g => g.member == 0
          let gang := { i.gang with
            save := if i.gang.save = some i.reason then none else i.gang.save, die := c.die, quad := c.idx / 4
            bars := if whole then bars else i.gang.bars }
          let put := foldIdx (fun n d (p : Group × CoreRef) => d.putMember i n p.1 p.2) 0 { d with gangs := d.gangs ++ [gang] } work
          match put.reloadMembers s.fuses 0 work with
          | (.bad lines, _) => some ((lines.foldl Dev.foundBad d).killGang i.gang)
          | (.fails cause slot a, n, c) =>
            let stop := { saved with restoring := false }
            some ({ d with images := d.images.map fun x => if x = saved then stop else x }.event
              ⟨13, cause.toNat, i.ctx, coreId c, i.qslot.getD 0xFFFF, BitVec.ofNat 64 (i.first + n),
                BitVec.ofNat 64 (cause.toNat + 256 * slot), BitVec.ofNat 64 a⟩)
          | (.ok d, _) =>
            let d := foldIdx (fun n d (p : Group × CoreRef) => d.wakeMember i n p.1 p.2) 0 d work
            some { d with images := d.images.filter fun x => x ≠ saved }

/-! ## Thermal migration (R418) -/

/-- The image a gang would have, for asking which cores admit it. -/
def Dev.imageFor (d : Dev) (q : Gang) : Image :=
  let gs := q.members.filterMap fun m => d.group m
  let ms := gs.map d.memberOf
  { first := 0, ctx := 0, epoch := 0, gang := q, groups := gs
    seqs := ms.flatMap fun m => m.seqs.map fun p => (m.group.gid, p.1, p.2), matrix := ms.map fun m => (m.group.gid, m.matrix)
    slots := ms.map fun m => (m.group.gid, m.slots), baton := ms.map fun m => (m.group.gid, m.baton), qslot := none, reason := 2,
    restoring := true }

/-- The gangs of a die's hot compute cores that a migration may move (home cores are not migrated, R189): of each core the group
with the longest residency, once it is long enough and a cool place admits its gang. -/
def Dev.movable (d : Dev) (die : Nat) : List Nat :=
  let least := 1000000 * max 4 (bits (d.reg .thermctl) 31 16)
  ((computeCores die).filter d.hot).filterMap fun c =>
    match leastBy (fun (g : Group) => g.started) (d.groups.filter fun g => g.core = c && !g.ended) with
    | none => none
    | some g =>
      match d.gang g.gang with
      | some q =>
        if q.save.isNone && g.started + least ≤ d.now && (d.restorePlace (d.imageFor q)).isSome then some q.id else none
      | none => none

/-- THERMAL_MIGRATION (R418): at most one group of a die in 1 ms is saved, to be restored on a cool core. -/
def execThermalMigration (die : Nat) (s : State) : Out :=
  happen s fun d =>
    let l := d.movable die
    if l.isEmpty || d.now < (d.die die).lastMove + 1000000 then none
    else
      let (n, d) := d.choose l.length
      some ((d.markSave (l.getD n 0) 2).onDie die fun k => { k with lastMove := d.now })

/-! ## Commands (R428) -/

/-- The fields of a PRECMD write. -/
def cmdOp (v : DWord) : Nat := bits v 63 60
def cmdImage (v : DWord) : Nat := bits v 59 44
def cmdCtx (v : DWord) : Nat := bits v 43 32
def cmdSlot (v : DWord) : Nat := bits v 9 0

/-- Report a command's result in PRESTAT. -/
def Dev.prestat (d : Dev) (result : Nat) : Dev := d.setReg .prestat (BitVec.ofNat 64 (field 60 result))

/-- The form of a command (R428): the one that is being accepted, or else the oldest register write when that is PRECMD with the op, is
accepted or refused, and PRESTAT holds the result. -/
def precmdOp (s : State) (op : Nat) (act : DWord → Dev → Nat × Dev) : Out :=
  match s.dev.precmd with
  | some v =>
    happen s fun d =>
      if cmdOp v = op then let (r, d) := act v { d with precmd := none }; some (d.prestat r) else none
  | none =>
    onWrite s fun w d =>
      if w.reg = .precmd && cmdOp w.value = op then let (r, d) := act w.value d; some (d.prestat r) else none

/-- PRECMD_DRAIN (R429): dispatch from a slot stops and its drain timer starts. -/
def execPrecmdDrain (s : State) : Out :=
  precmdOp s 1 fun v d =>
    let q := cmdSlot v
    let t := max 1 (bits (d.reg (.qtimer q)) 15 0)
    (1, d.onSlot q fun x => { x with draining := true, drainEnd := some (d.now + 1000 * t), expired := false })

/-- PRECMD_SAVE (R428): every resident group of the context is marked for a save. -/
def execPrecmdSave (s : State) : Out :=
  precmdOp s 2 fun v d => (1, (d.saveCtx (cmdCtx v) 0).startSaveTimer (cmdSlot v) (cmdCtx v))

/-- PRECMD_RESET (R434). -/
def execPrecmdReset (s : State) : Out := precmdOp s 3 fun v d => (1, d.beginReset (cmdCtx v) 0)

/-- Whether every frontier of an image can be restored (R433). -/
def Dev.imageOk (d : Dev) (i : Image) : Bool :=
  (foldIdx (fun n (ok : Bool) (g : Group) => ok && g.warps.all fun w =>
    frontierOk (d.homeSpan (d.imageBase (i.first + n) + 0x400 + 0x400 * w.wid) 1024) w) 0 true i.groups)

/-- PRECMD_RESTORE (R433): the image is checked and waits for room, or the command is refused. -/
def execPrecmdRestore (s : State) : Out :=
  precmdOp s 4 fun v d =>
    match d.images.find? fun i => i.first = cmdImage v && !i.restoring with
    | some i =>
      if d.imageOk i then
        let go := { i with restoring := true }
        (1, { d with images := d.images.map fun x => if x = i then go else x })
      else (2, d)
    | none => (2, d)

/-- PRECMD_RELEASE (R428, R439): the images of a gang are discarded, as by a kill without relaunch. -/
def execPrecmdRelease (s : State) : Out :=
  precmdOp s 5 fun v d =>
    match d.images.find? fun i => i.first = cmdImage v with
    | some i =>
      let d := d.dropGroups (i.groups.map fun (g : Group) => g.gid)
      let d := { d with images := d.images.filter fun x => x ≠ i }
      (1, d.endGang i.gang false)
    | none => (2, d)

/-- PRECMD_END_DRAIN (R428): dispatch from a slot resumes. -/
def execPrecmdEndDrain (s : State) : Out :=
  precmdOp s 6 fun v d => (1, d.onSlot (cmdSlot v) fun x => { x with draining := false, drainEnd := none })

end Sys2Proof.Machine
end

