-- ==== Sys2Proof/Machine/Migration.lean ====
section
/-! DEFINITION. Poison and migration by command (R92 to R100): POISONCMD, MIGCMD, a patrol scrub's finding, and the end of a
migration. -/

namespace Sys2Proof.Machine

/-! ## Poison by command and by scrub (R92, R94, R419) -/

/-- The frame a POISONCMD write names. -/
def poisonFrame (v : DWord) : Nat := bits v 42 12 * 4096

/-- POISONCMD_SET (R92, R94): the frame is poisoned, within the poison budget and once the accesses through its pins are
complete; a frame that does not lie on the die leaves everything as it is. -/
def execPoisoncmdSet (s : State) : Out :=
  onWrite s fun w d =>
    match w.reg with
    | .poisoncmd die =>
      let a := poisonFrame w.value
      if bits w.value 63 62 ≠ 2 then none
      else if !backed a || dieOf a ≠ die then some d
      else if !d.hasBudget die 5 || d.pinsBusy (TlbEntry.mapsSpan d a 4096) then none
      else some ((d.spend die 5).setPoison a)
    | _ => none

/-- POISONCMD_CLEAR (R94). -/
def execPoisoncmdClear (s : State) : Out :=
  onWrite s fun w d =>
    match w.reg with
    | .poisoncmd die =>
      let a := poisonFrame w.value
      if bits w.value 63 62 ≠ 1 then none
      else if !backed a || dieOf a ≠ die then some d
      else if !d.hasBudget die 5 then none
      else some ((d.spend die 5).clearPoison a)
    | _ => none

/-- SCRUB_READ (R92, R419): a patrol read finds a line uncorrectable, and its frame is poisoned. -/
def execScrubRead (lpa : Nat) (s : State) : Out :=
  happen s fun d =>
    if !d.on || !backed lpa || !d.badLines.contains (lpa / 128) || !d.hasBudget (dieOf lpa) 1 then none
    else some (((d.spend (dieOf lpa) 1).spend (dieOf lpa) 5).setPoison lpa)

/-! ## Migration (R95 to R100) -/

/-- MIGSTAT after an operation. -/
def Dev.migstat (d : Dev) (die : Nat) (busy : Bool) (result : Nat) : Dev :=
  d.setReg (.migstat die) (BitVec.ofNat 64 (field 63 busy.toNat + field 60 result))

/-- A leaf entry in memory. -/
def Dev.leafAt (d : Dev) (pte : Nat) : DWord := bytesD (d.homeRead pte 8)

/-- The addresses in a span that memory lists, each page read where its home point leads. -/
def Dev.listed (d : Dev) (lpa n : Nat) : List Nat :=
  (upFrom 0 (n / 4096)).flatMap fun p =>
    let at_ := d.home (lpa + 4096 * p)
    ((d.mem.dropWhile fun c => c.1 < at_).takeWhile fun c => c.1 < at_ + 4096).map fun c => lpa + 4096 * p + (c.1 - at_)

/-- The tables that the entries of a table of so many bytes point to (R73, R74). -/
def Dev.tablesUnder (d : Dev) (n table : Nat) : List Nat :=
  (((d.listed table n).map fun a => a / 16 * 16).eraseDups.filter fun a => bits (d.homeD a) 63 62 = 2).map fun a =>
    bits (d.homeD a) 43 0 * 4096

/-- The root tables of region 0 of the contexts whose entries are valid (R72, R401). -/
def Dev.roots (d : Dev) : List Nat :=
  let base := d.ctxEntry 0
  ((((d.listed base (4096 * 128)).map fun a => (a - base) / 128).eraseDups.filter d.ctxValid).map fun c => (d.ctxD c 8).toNat).filter
    fun a => a ≠ 0

/-- The size of the page that the leaf entry at an LPA maps: that of the level of the table it lies in (R73); none when no table of
region 0 holds it. -/
def Dev.leafSize (d : Dev) (pte : Nat) : Option Nat :=
  let holds := fun (t : Nat) => decide (t ≤ pte) && decide (pte < t + 8192)
  let three := (d.roots.flatMap (d.tablesUnder 0x80000)).eraseDups
  if three.any holds then some 0x40000000
  else
    let two := (three.flatMap (d.tablesUnder 8192)).eraseDups
    if two.any holds then some 0x200000
    else if (two.flatMap (d.tablesUnder 8192)).any holds then some 4096 else none

/-- Whether the operands of a migration are invalid (R95, R100); further checks in log 31. -/
def Dev.migrationBad (d : Dev) (die src dst size pte : Nat) : Bool :=
  let w := d.leafAt pte
  let l := leafOf w 0
  d.leafSize pte ≠ some size || !backed pte || bits w 63 62 ≠ 3 || l.kind ≠ 0 || l.frame * 4096 ≠ src ||
    src % size ≠ 0 || dst % size ≠ 0 || (l.inter && size ≠ 4096) || !backed src || dieOf src ≠ die ||
    !backed dst || isLpddr src ≠ isLpddr dst ||
    (upFrom 0 (size / 4096)).any fun n => d.poisoned (dst + 4096 * n)

/-- The shootdown of a page (R96 steps 2 and 4): translations, its poison-cache entries, its cached lines, and its pins, as soon as the
accesses that use them are complete (R87). -/
def Dev.shootPage (d : Dev) (m : Migration) : Dev :=
  let chunk := fun (e : PoisonEntry) => e.die = dieOf m.src && decide (frameIndex m.src / 512 ≤ e.chunk) &&
    decide (e.chunk ≤ frameIndex (m.src + m.size - 1) / 512)
  ((d.dropEntries (TlbEntry.mapsSpan d m.src m.size) chunk fun e => e.lpa = m.pte).revokeSpan m.src m.size).purge m.src m.size

/-- Write the mig bit and the frame of a leaf entry. -/
def Dev.writeLeaf (d : Dev) (pte : Nat) (mig : Bool) (frame : Nat) : Dev :=
  let w := (d.leafAt pte).toNat
  let low := w / 2 ^ 49 * 2 ^ 49 + field 48 mig.toNat + w % 2 ^ 48 / 2 ^ 44 * 2 ^ 44 + frame
  d.homeWrite pte (natBytes low 8)

/-- The form of a migration command: refused busy, invalid or for a full redirect table, with nothing else changed; else the
source enters hold, the entry gets its mig bit, and the page is shot down. -/
def migrateOp (s : State) (op size : Nat) : Out :=
  onWrite s fun w d =>
    match w.reg with
    | .migcmd die =>
      if bits w.value 63 63 = 0 || bits w.value 62 61 ≠ op then none
      else
        let src := bits w.value 42 12 * 4096
        let m : Migration := ⟨src, bits (d.reg (.migdst die)) 42 12 * 4096, size, bits (d.reg (.migpte die)) 42 4 * 16⟩
        if (d.die die).migration.isSome then some (d.migstat die true 5)
        else if d.migrationBad die src m.dst size m.pte then some (d.migstat die false 4)
        else if 4096 ≤ (d.die die).redirects.length then some (d.migstat die false 3)
        else
          let d := (d.storeReg (.migcmd die) w.value).onDie die fun k =>
            { k with hold := (src, size) :: k.hold, migration := some m }
          some (((d.writeLeaf m.pte true (src / 4096)).shootPage m).migstat die true 0)
    | _ => none

/-- MIGCMD_MIGRATE_4K, MIGCMD_MIGRATE_2M (R96 steps 1 and 2). -/
def execMigcmdMigrate4k (s : State) : Out := migrateOp s 0 4096
def execMigcmdMigrate2m (s : State) : Out := migrateOp s 1 0x200000

/-- MIGCMD_REMOVE_REDIRECT (R98): the redirect of the source goes; one that does not exist is an invalid operand. -/
def execMigcmdRemoveRedirect (s : State) : Out :=
  onWrite s fun w d =>
    match w.reg with
    | .migcmd die =>
      let src := bits w.value 42 12 * 4096
      if bits w.value 63 63 = 0 || bits w.value 62 61 ≠ 2 then none
      else if (d.die die).migration.isSome then some (d.migstat die true 5)
      else if !((d.die die).redirects.any fun r => r.1 == src) then some (d.migstat die false 4)
      else
        let d := (d.storeReg (.migcmd die) w.value).onDie die fun k =>
          { k with redirects := k.redirects.filter fun r => r.1 != src }
        some (d.migstat die false 1)
    | _ => none

/-- Memory with `n` bytes from `src` copied to `dst`. -/
def memCopy (m : List Host.Cell) (src dst n : Nat) : List Host.Cell :=
  let cells := (m.dropWhile fun c => c.1 < src).takeWhile fun c => c.1 < src + n
  (m.takeWhile fun c => c.1 < dst) ++ (cells.map fun c => (c.1 - src + dst, c.2)) ++ m.dropWhile fun c => c.1 < dst + n

/-- Copy a page, uncorrectable lines with it; the frames to be poisoned at the source and at the destination (R92, R96 step 3,
R99). -/
def Dev.copyPage (d : Dev) (m : Migration) : List Nat × Dev :=
  let badFrame := fun (n : Nat) => d.badLines.any fun x => x / 32 == m.src / 4096 + n
  let frames := (upFrom 0 (m.size / 4096)).filter fun n => badFrame n || d.poisoned (m.src + 4096 * n)
  let moved := (d.badLines.filter fun x => m.src / 128 ≤ x && x < (m.src + m.size) / 128).map fun x => x - m.src / 128 + m.dst / 128
  let stay := d.badLines.filter fun x => !(m.dst / 128 ≤ x && x < (m.dst + m.size) / 128)
  (frames, { d with mem := memCopy d.mem m.src m.dst m.size, badLines := moved ++ stay })

/-- Whether a running wave holds a byte that a held write of a die writes: it is performed after the wave (R131, R188). -/
def Dev.heldByWave (d : Dev) (die : Nat) : Bool :=
  (d.die die).held.any fun h => let s := heldSpan h (d.heldKey h).2; d.waveHolds s.1 s.2

/-- The queued method requests of a span go to the queues that its home points now lead to (R98, R99). -/
def Dev.moveRequests (d : Dev) (lpa n : Nat) : Dev :=
  let there := fun (q : Request) => decide (lpa ≤ q.lpa) && decide (q.lpa < lpa + n)
  let moved := d.cores.flatMap fun k => k.requests.filter there
  moved.foldl Dev.requeue (d.mapCores fun k => { k with requests := k.requests.filter fun q => !there q })

/-- MIGRATION_COMPLETE (R96 steps 3 to 5): once the pins of the page are revoked and no wave runs on what the held writes write, the
page is copied, the entry names the destination, the redirect stands, the held writes are applied in arrival order, and the service
core takes MIGRATE. -/
def execMigrationComplete (die : Nat) (s : State) : Out :=
  happen s fun d =>
    match (d.die die).migration with
    | none => none
    | some m =>
      if !d.on || d.emergency.isSome || !d.hasBudget die 4 || d.revoking m.src m.size ||
        d.pinsBusy (TlbEntry.mapsSpan d m.src m.size) || d.heldByWave die then none
      else
        let (frames, d) := (d.spend die 4).copyPage m
        let poison := fun (d : Dev) (a : Nat) => (d.spend (dieOf a) 5).setPoison a
        let d := frames.foldl (fun d n => poison (poison d (m.src + 4096 * n)) (m.dst + 4096 * n)) d
        let d := (d.writeLeaf m.pte false (m.dst / 4096)).shootPage m
        let held := (d.die die).held
        let d := d.onDie die fun k =>
          { k with
            redirects := (m.src, m.dst, m.size) :: k.redirects
            hold := k.hold.filter fun h => h ≠ (m.src, m.size)
            held := []
            migration := none }
        let d := held.foldl Dev.releaseHeld (d.moveRequests m.src m.size)
        let d := d.migstat die false (if frames.isEmpty then 1 else 2)
        some (d.event (Event.of 3 0x41 0xFFFF (BitVec.ofNat 64 die) (d.reg (.migstat die)) (BitVec.ofNat 64 m.src)))

/-- A running migration is abandoned (R100): the engine leaves hold, clears mig and installs no redirect. -/
def Dev.abandonMigration (d : Dev) (die : Nat) : Dev :=
  match (d.die die).migration with
  | none => d
  | some m =>
    let d := d.writeLeaf m.pte false (m.src / 4096)
    (d.onDie die fun k => { k with hold := k.hold.filter fun h => h ≠ (m.src, m.size), migration := none }).migstat die false 6

end Sys2Proof.Machine
end

