-- ==== Sys2Proof/Machine/Containment.lean ====
section
/-! DEFINITION. Containment (R435 to R442): the level of an error, what it ends, corrected errors, the kill of a gang that
consumes uncorrectable data, and the replays of audited records. -/

namespace Sys2Proof.Machine

/-! ## Consumed data (R438) -/

/-- The LPA at which a piece of an operation would be served with uncorrectable data: a load by its home point, when no near cache
holds the line, an atomic by its home point. -/
def Dev.badPiece (d : Dev) (o : Op) (p : Piece) : Option Nat :=
  match p.target with
  | .mem pa leaf _ =>
    if p.open_ && !isDevice pa.lpa &&
        ((o.access = .load && d.readsBad o pa (o.leafFor leaf)) || (o.access = .atomic && pa.pkg.isNone && d.bad pa.lpa)) then some pa.lpa
    else none
  | _ => none

/-- What an MLDB in the queue or at its admission would read from memory (R365). -/
def Dev.badWeights (d : Dev) (g : Group) : List Nat :=
  let tag := mkTag g.ctx g.epoch
  let queued := match (d.core g.core).matrix.head? with
    | some e => if e.gid ≠ g.gid then [] else match e.op with
      | .mldb _ fmt _ bands map _ _ src _ pitch => d.badSource g fmt bands map.length none src pitch
      | _ => []
    | none => []
  let admitted := g.warps.flatMap fun w => match w.wait.walks || w.wait = .launch, w.head with
    | true, some (.ok (.mldb _ _ _ _ bm 0 1 sh) _) => d.badIn tag [((w.kpair bm.toNat).toNat, 2 * w.shape sh.sh1)]
    | _, _ => []
  queued ++ admitted

/-- The uncorrectable data that a gang consumes: by loads and atomics of its threads, and by its MLDBs. -/
def Dev.consumed (d : Dev) (q : Gang) : List Nat :=
  ((d.ops.filter fun o => d.threadIn q.members o.thread).flatMap fun o => o.pieces.filterMap (d.badPiece o)) ++
    (q.members.filterMap d.group).flatMap d.badWeights

/-- GANG_KILL (R438): a gang that consumes uncorrectable data is killed; the reads have poisoned the frames (R92). -/
def execGangKill (gang : Nat) (s : State) : Out :=
  happen s fun d =>
    match d.gang gang with
    | none => none
    | some q =>
      let l := d.consumed q
      if l.isEmpty then none else some ((l.foldl Dev.foundBad d).killGang q)

/-! ## Levels (R435 to R437) -/

/-- The level of an error in an entry, and the shared level, of a structure. An error of the compression map poisons the frame
and contains nothing: its level is reported as that of an entry (log 30). -/
def entryLevel (code : Nat) : Nat :=
  if code ≤ 3 then 2 else if code = 5 || code = 8 || code = 12 then 1 else if code = 18 then 5 else if code = 19 then 6 else 3
def sharedLevel (code : Nat) : Nat := if code ≤ 7 || code = 15 then 4 else if code = 19 then 6 else 5

/-- The level at which an error is contained (R436). -/
def siteLevel (x : ErrorSite) : Nat := if x.shared then sharedLevel x.code else entryLevel x.code

/-- Reset some contexts for containment. -/
def Dev.resetAll (d : Dev) (l : List Nat) : Dev := l.eraseDups.foldl (fun d c => d.beginReset c 2) d

/-- The context of a tag, when the tag is its present one. -/
def Dev.liveTag (d : Dev) (t : BitVec 16) : Option Nat := if d.tag (tagCtx t) = t then some (tagCtx t) else none

/-- The contexts with state on a core: its groups, and the requests and waves of a home core (log 30). -/
def Dev.contextsOn (d : Dev) (c : CoreRef) : List Nat :=
  ((d.groups.filter fun g => g.core = c && !g.ended).map fun g => g.ctx) ++ (d.core c).calls.map fun q => q.ctx

/-- The contexts with any state on a die (log 30). -/
def Dev.contextsOf (d : Dev) (die : Nat) : List Nat :=
  let k := d.die die
  let here := d.cores.filter fun c => c.ref.die == die
  let lines := (here.flatMap fun c => c.l1) ++ k.l2 ++ k.rdc
  let tags := (lines.map fun l => l.tag) ++ (here.flatMap fun c => c.tlb.map fun e => e.tag) ++ (k.tlb.map fun p => p.2.tag) ++
    (k.walk.map fun e => e.tag) ++ (k.poison.map fun p => p.2.tag) ++ (here.flatMap fun c => c.poison.map fun e => e.tag) ++
    (here.flatMap fun c => c.pins.map fun p => p.entry.tag) ++ (k.exports.map fun e => e.1) ++
    (k.walks.map fun w => w.tag) ++ (k.leases.filter fun l => l.valid).map fun l => l.tag
  let held := k.held.filterMap fun h => match h with
    | .piece _ _ t => some (tagCtx t)
    | .write _ _ t _ _ _ => some (tagCtx t)
    | .log _ t _ _ _ => some (tagCtx t)
    | .msg m => some m.header.tgtCtx.toNat
  let wide := if die = 0 then d.wideBars.map fun x => x.2.2.1 else []
  ((d.groups.filter fun g => g.core.die == die && !g.ended).map fun g => g.ctx) ++ (here.flatMap fun c => c.calls.map fun q => q.ctx) ++
    (here.flatMap fun c => c.copy.map fun e => e.ctx) ++ (k.pool.map fun r => r.ctx) ++ (k.spill.map fun x => x.2.ctx) ++
    (k.batches.map fun b => b.ctx) ++ (k.jobs.map fun j => j.ctx) ++ (k.sent.map fun x => x.key.1) ++ (k.bars.map fun x => x.1) ++
    held ++ wide ++ tags.filterMap d.liveTag

/-- Discard a translation or poison-cache entry of a core or of a die (R101): one that maps the site's address, in this package's
memory, or, in regions 1 and 2, as a pod-global or host physical address. -/
def Dev.discardEntry (d : Dev) (x : ErrorSite) : Dev :=
  let target := fun (e : TlbEntry) => decide (e.leaf.frame * 4096 ≤ x.lpa) && decide (x.lpa < e.leaf.frame * 4096 + e.size)
  let keepT := fun (e : TlbEntry) => !(e.tag = x.tag && (e.mapsSpan d x.lpa 1 || (e.va / 2 ^ 54 != 0 && target e)))
  let keepP := fun (e : PoisonEntry) => !(e.tag = x.tag && e.die = dieOf x.lpa && e.chunk = frameIndex x.lpa / 512)
  if x.code = 5 then
    match x.core with
    | some c => d.onCore c fun k => { k with tlb := k.tlb.filter keepT, poison := k.poison.filter keepP }
    | none => d
  else if x.code = 8 then
    d.onDie x.die fun k =>
      { k with
        tlb := k.tlb.filter fun e => keepT e.2
        poison := k.poison.filter fun e => keepP e.2
        walk := k.walk.filter fun e => !(e.tag = x.tag && e.lpa = x.lpa) }
  else d.setPoison x.lpa

/-- A core is initialised again: its cycle count starts anew (R397). -/
def Dev.renewCore (d : Dev) (c : CoreRef) : Dev := d.setCore { Core.reset c with cycles := d.cycles }

/-- A die's structures are initialised again. What belongs to its ports, its clock and its flows with other packages stays
(log 30). -/
def Dev.renewDie (d : Dev) (n : Nat) : Dev :=
  let d := (d.cores.filter fun k => k.ref.die == n).foldl (fun d k => d.renewCore k.ref) (d.abandonMigration n)
  let d := if n = 0 then { d with wideBars := [] } else d
  d.onDie n fun k =>
    { Die.reset n with
      entrySeq := k.entrySeq, flowsOut := k.flowsOut, flowsIn := k.flowsIn, ports := k.ports, auditGen := k.auditGen, budgets := k.budgets,
      throttled := k.throttled, hotStacks := k.hotStacks, lastMove := k.lastMove }

/-! ## Starts (R445, R446) -/

/-- A package at the first step of a start: nothing of the last run is left but memory, when it was retained, what lies outside
the package, and the counters of free values and numbers. -/
def Dev.cleared (d : Dev) (keepMem : Bool) : Dev :=
  { Dev.reset with
    mem := if keepMem then d.mem else [], badLines := if keepMem then d.badLines else [], hostMem := d.hostMem,
    hostNotices := d.hostNotices, hostReply := d.hostReply, coreTemp := d.coreTemp, stackTemp := d.stackTemp, watts := d.watts,
    free := d.free, nextId := d.nextId, tick := d.tick }

/-- The step at which a start fails, drawn from a free value: 0 when it succeeds (log 3). -/
def Dev.startFails (d : Dev) : Nat × Dev := (Config.failedStep d.free % 9, { d with free := d.free + 1 })

/-- A package after a step of a start has failed: memory is as it was when step 5 was not reached, and then what a retention record
says stays too; device registers keep their values, which the last step would reset; `warmfail` counts on (log 52). -/
def Dev.failedAt (d : Dev) (step : Nat) (keepMem retain : Bool) : Dev :=
  { d.cleared keepMem with regs := d.regs, retain := retain, warmFail := d.warmFail, boot := 2, bootError := step }

/-- A load that ran when a start began is answered ABORTED (R451, R454). -/
def Dev.abortLoad (d : Dev) (old : Dev) : Dev := if old.loading.isSome then d.setReg .loadstat 8 else d

/-- A cold start (R445, R446): it leaves the package ready, or failed with the step's number. Memory is cleared at step 5, and with it
the retention record. -/
def Dev.coldStart (d : Dev) : Dev :=
  Dev.abortLoad (old := d) <|
  let (step, d) := d.startFails
  if step = 0 then d.cleared false else d.failedAt step (decide (step < 5)) (d.retain && decide (step < 5))

/-- One run of the steps of a warm start (R445, R446): whether it succeeds. Steps 4 and 5 are skipped while the retention record
is valid, and cannot fail then; step 4 clears the record, so that it holds for a later run only when this one failed before. -/
def Dev.warmRun (d : Dev) : Bool × Dev :=
  let (step, d) := d.startFails
  if step = 0 || (d.retain && (step == 4 || step == 5)) then (true, { d.cleared d.retain with warmKind := true })
  else
    let d := d.failedAt step (d.retain || decide (step < 5)) (d.retain && decide (step < 4))
    (false, { d with warmFail := d.warmFail + 1 })

/-- A warm start (R445, R446): a run that fails begins again; once two in a row have failed, before it or in it, the start is cold. -/
def Dev.warmStart (d : Dev) : Dev :=
  Dev.abortLoad (old := d) <|
  if 2 ≤ d.warmFail then d.coldStart
  else
    match d.warmRun with
    | (true, d) => d
    | (false, d) =>
      if 2 ≤ d.warmFail then d.coldStart
      else
        match d.warmRun with
        | (true, d) => d
        | (false, d) => d.coldStart

/-- Whether a wave of the site's context runs on its core: its registers and scratch belong to no gang, and what is in them is contained
as a wave's state is (R186, R437; log 51). -/
def Dev.waveAt (d : Dev) (x : ErrorSite) : Bool :=
  x.core.any fun c => (d.core c).waves.any fun w => w.any fun w => w.reqs.any fun q => q.ctx == tagCtx x.tag

/-- UNCORRECTABLE_ERROR (R435 to R437): the error is reported, and contained at its level; an entry of the gang level that neither a gang
nor a wave holds is only reported. An L2 line that is dirty poisons its
frame as well; an error of the migration engine or the redirect table abandons a running migration. In an emergency stop the clocks have
stopped, and nothing but the next start, a cold one, follows (R453). -/
def execUncorrectableError (site : ErrorSite) (s : State) : Out :=
  happen s fun d =>
    let gang := site.gang.bind d.gang
    let level := if siteLevel site = 2 && gang.isNone && d.waveAt site then 3 else siteLevel site
    if !d.on || d.emergency.isSome || site.code = 0 || 19 < site.code || 4 ≤ site.die || (level = 4 && site.core.isNone) ||
      (site.code = 5 && site.core.isNone) then none
    else
      let dirty := site.code = 9 && (d.die site.die).l2.any fun l => l.dirty && l.pa = ⟨none, site.lpa / 128 * 128⟩
      let ctx := match level with
        | 1 => tagCtx site.tag
        | 2 => match gang with
          | some q => ((q.recs.head?).map Rec.ctx).getD 0xFFFF
          | none => tagCtx site.tag
        | 3 => tagCtx site.tag
        | _ => 0xFFFF
      let core := (site.core.map coreId).getD 0xFFFF
      let d := d.event ⟨10, 0, ctx, core, 0xFFFF, BitVec.ofNat 64 site.code, BitVec.ofNat 64 level, BitVec.ofNat 64 site.lpa⟩
      let d := if dirty then d.setPoison site.lpa else d
      match level with
      | 1 => some (d.discardEntry site)
      | 2 => some (match gang with
        | some q => d.killGang q
        | none => d)
      | 3 => some (d.resetAll (d.liveTag site.tag).toList)
      | 4 => some (match site.core with
        | some c => (d.resetAll (d.contextsOn c)).renewCore c
        | none => d)
      | 5 => some ((d.resetAll (d.contextsOf site.die)).renewDie site.die)
      | _ => some d.warmStart

/-- CORRECTED_SOFT_ERROR (R435): counted per structure, reported at most once per ms per structure. -/
def execCorrectedSoftError (code : Nat) (s : State) : Out :=
  happen s fun d =>
    if !d.on || code = 0 || 19 < code then none
    else
      let old := d.softErrors.find? fun x => x.1 == code
      let n := (old.map fun x => x.2.1).getD 0 + 1
      let report := match old with
        | some x => decide (x.2.2 + 1000000 ≤ d.now)
        | none => true
      let last := if report then d.now else (old.map fun x => x.2.2).getD 0
      let d := { d with softErrors := (code, n, last) :: d.softErrors.filter fun x => x.1 != code }
      some (if report then d.event (Event.of 10 0 0xFFFF (BitVec.ofNat 64 code) 0 0) else d)

/-! ## Replay (R442) -/

/-- What the replay of a chosen record may reach (R442). -/
def Audit.shadow (a : Audit) : Shadow :=
  let behind := a.areas.drop a.inputs.length
  { inputs := a.areas.take a.inputs.length, outputs := behind.take a.outputs.length,
    priv := (behind.getLast?).getD (a.priv, 0, a.base), ended := false }

/-- Whether a register is of a queue slot. -/
def Reg.ofSlot : Reg → Bool
  | .qctl _ => true
  | _ => false

/-- The record of a replay, charged to no slot, counted nowhere and decrementing no counter (R442). -/
def Audit.again (a : Audit) : Rec := { a.record with slot := none, counted := false, repeated := true, job := a.job }

/-- The group of a replay at its start on a core: fresh scratch and registers, its own number, job key and private space (R442). -/
def Audit.group (a : Audit) (d : Dev) (c : CoreRef) : Group :=
  let r := a.again
  { newGroup a.gid r c a.gid r.uIdx (max 1 r.uSize) (placeWarps (recWarps r.bytes) (List.replicate 4 8)) a.priv d.now
      (d.ctxD r.ctx 80) with job := a.job }

/-- What a replay sees of the package: its memory and registers as they are, the logged inputs in the place of the declared input tiles
(`Dev.shadow`), a group of the record on a core with nothing else, and no queue slot (R442, log 38). -/
def Dev.replayDev (d : Dev) (a : Audit) (c : CoreRef) : Dev :=
  let g := a.group d c
  let gang : Gang :=
    { id := a.gid, size := g.gangSize, die := c.die, quad := c.idx / 4,
      members := (upFrom 0 g.gangSize).map fun n => if n = g.member then a.gid else a.gid + 1 + n, complete := [],
      bars := List.replicate 8 Barrier.reset, kills := 0, recs := [a.again], save := none }
  { Dev.reset with
    mem := d.mem, hostMem := d.hostMem, badLines := d.badLines, regs := d.regs.filter fun x => !x.1.ofSlot,
    dies := d.dies.map fun k => { Die.reset k.idx with redirects := k.redirects },
    groups := [g], gangs := [gang], now := d.now, cycles := d.cycles, tick := d.tick, free := d.free, nextId := d.nextId,
    shadow := some a.shadow }

/-- Whether a replay has ended as inconclusive: something ended it, its group is gone, or a store of it was lost (R442). -/
def Replay.inconclusive (p : Replay) (a : Audit) : Bool :=
  (p.dev.shadow.all fun w => w.ended) ||
    (match p.dev.group a.gid with
     | none => true
     | some g => p.dev.groupIdle g && g.warps.any fun w => w.loss)

/-- Whether a replay has run its record to the end. -/
def Replay.finished (p : Replay) (a : Audit) : Bool := (p.dev.group a.gid).any p.dev.groupIdle

/-- The signature of a replay's outputs, in list order (R441, R442). -/
def Replay.signature (p : Replay) (a : Audit) : DWord :=
  crc64 (a.shadow.outputs.flatMap fun o => p.dev.homeRead o.2.2 o.2.1)

/-- The event of an audit, on a device that keeps it no longer (R427). -/
def Dev.auditEnds (d : Dev) (a : Audit) (kind cause : Nat) (v w : DWord) : Dev :=
  let d := { d with audits := d.audits.filter fun x => x.index ≠ a.index }
  d.event ⟨kind, cause, a.record.ctx, 0xFFFF, a.record.slot.getD 0xFFFF, BitVec.ofNat 64 a.record.addr, v, w⟩

/-- AUDIT_REPLAY (R442): a record that has its signature begins its replay on the given compute core of another die whose budget
allows it; with no such die it is skipped, not replayed (R419). A replay that has ended is inconclusive, or its signature is compared: one
that differs raises AUDIT. -/
def execAuditReplay (index : Nat) (core : CoreRef) (s : State) : Out :=
  match s.dev.audits.find? fun a => a.index = index with
  | none => .fault .notEnabled
  | some a =>
    match a.signature, s.replays.find? fun p => p.index = index with
    | none, _ => .fault .notEnabled
    | some sig, some p =>
      let s' := { s with replays := s.replays.filter fun p => p.index ≠ index }
      if p.inconclusive a then .next { s' with dev := s.dev.auditEnds a 12 0 0 0 }
      else if !p.finished a then .fault .notEnabled
      else if p.signature a = sig then
        .next { s' with dev := { s.dev with audits := s.dev.audits.filter fun x => x.index ≠ index } }
      else .next { s' with dev := s.dev.auditEnds a 4 0x42 sig (p.signature a) }
    | some _, none =>
      let dies := (upFrom 0 4).filter fun k => k != a.die && s.dev.hasBudget k 2
      if !s.dev.clocked then .fault .notEnabled
      else if dies.isEmpty then .next { s with dev := { s.dev with audits := s.dev.audits.filter fun x => x.index ≠ index } }
      else if !(dies.flatMap computeCores).contains core then .fault .notEnabled
      else
        let d := s.dev.spend core.die 2
        .next { s with dev := d, replays := s.replays ++ [⟨index, core.die, d.replayDev a core⟩] }

end Sys2Proof.Machine
end

