-- ==== Sys2Proof/Machine/Power.lean ====
section
/-! DEFINITION. Starting, stopping, temperature and power (R145, R445, R446, R452, R453). Clock changes alter only timing. -/

namespace Sys2Proof.Machine

/-- POWER_ON (R445): the module powers up and runs a cold start. -/
def execPowerOn (s : State) : Out := happen s fun d => if d.on then none else some { d.coldStart with on := true }

/-- A package without power, or whose clocks have all stopped (R452): no state is left. -/
def Dev.dead (d : Dev) : Dev := { d.cleared false with on := false, boot := 0 }

/-- POWER_OFF (R452). -/
def execPowerOff (s : State) : Out := happen s fun d => if d.on then some d.dead else none

/-- The form of BOOTCMD's operations. -/
def bootOp (s : State) (op : Nat) (f : Dev → Dev) : Out :=
  onWrite s fun w d => if w.reg = .bootcmd && bits w.value 63 62 = op then some (f d) else none

/-- BOOTCMD_WARM_START, BOOTCMD_COLD_START (R445). -/
def execBootcmdWarmStart (s : State) : Out := bootOp s 1 Dev.warmStart
def execBootcmdColdStart (s : State) : Out := bootOp s 2 Dev.coldStart

/-- What stays of a package that no start has begun again: the count of failed warm starts, which only a successful start clears
(R446), the kind of the last start, and the package's number with its lock, which only a start clears (R448). -/
def Dev.halted (d : Dev) (keepMem : Bool) : Dev :=
  { d.cleared keepMem with warmFail := d.warmFail, warmKind := d.warmKind, regs := d.regs.filter fun p => p.1 = .pkgcfg }

/-- BOOTCMD_SHUTDOWN (R445): memory keeps its contents and the retention record is valid; nothing runs until the next start
(log 32). -/
def execBootcmdShutdown (s : State) : Out :=
  bootOp s 3 fun d => { d.halted true with boot := 0, retain := true }

/-- The temperature of a memory stack, and the die it stands on (R63). -/
def Dev.stackOf (d : Dev) (k : Nat) : Nat := ((d.stackTemp.find? fun p => p.1 = k).map fun p => p.2).getD 0

/-- Whether a core of a die, or of any, is at a temperature or above. -/
def Dev.anyCore (d : Dev) (die : Option Nat) (t : Nat) : Bool :=
  d.coreTemp.any fun p => (die.all fun k => p.1.die == k) && decide (t ≤ p.2)

/-- POWER_CAP (R453): the average exceeds the cap, and the clock is lowered by another sixteenth. -/
def execPowerCap (s : State) : Out :=
  happen s fun d =>
    if d.clocked && decide (bits (d.reg .pwrctl) 11 0 < d.watts) && decide (d.capped < 15) then some { d with capped := d.capped + 1 }
    else none

/-- DIE_THROTTLE (R453): a core of a die is at 105 °C or above. -/
def execDieThrottle (die : Nat) (s : State) : Out :=
  happen s fun d =>
    if d.clocked && decide (die < 4) && !(d.die die).throttled && d.anyCore (some die) 105 then
      some (d.onDie die fun k => { k with throttled := true })
    else none

/-- POWER_STATE_NORMAL (R453): the average is below the cap, or every core of a throttled die is below THERMCTL.hot. -/
def execPowerStateNormal (die : Option Nat) (s : State) : Out :=
  happen s fun d =>
    match die with
    | none => if d.clocked && d.capped ≠ 0 && decide (d.watts < bits (d.reg .pwrctl) 11 0) then some { d with capped := 0 } else none
    | some k =>
      if d.clocked && (d.die k).throttled && !d.anyCore (some k) (bits (d.reg .thermctl) 15 8) then
        some (d.onDie k fun x => { x with throttled := false })
      else none

/-- EMERGENCY_STOP (R453): a core at 120 °C or a stack at 105 °C stops every arithmetic clock; every context is lost, and the
host gets a notice that carries PWRSTAT. -/
def execEmergencyStop (s : State) : Out :=
  happen s fun d =>
    if !d.on || d.emergency.isSome || !(d.anyCore none 120 || d.stackTemp.any fun p => decide (105 ≤ p.2)) then none
    else
      let e := { d.halted true with boot := 3, emergency := some d.now, now := d.now }
      some { e with hostNotices := e.hostNotices ++ [e.readReg 0 0 .pwrstat] }

/-- EMERGENCY_STOP_COMPLETE (R453): 10 ms later every clock stops. -/
def execEmergencyStopComplete (s : State) : Out :=
  happen s fun d =>
    match d.emergency with
    | some t => if t + 10000000 ≤ d.now then some d.dead else none
    | none => none

/-- MEMORY_THERMAL_STATE (R453): a stack at 95 °C or above; three stacks stand on a die. -/
def execMemoryThermalState (stack : Nat) (s : State) : Out :=
  happen s fun d =>
    if d.on && decide (stack < 12) && decide (95 ≤ d.stackOf stack) && !(d.die (stack / 3)).hotStacks.contains stack then
      some (d.onDie (stack / 3) fun k => { k with hotStacks := stack :: k.hotStacks })
    else none

/-- MEMORY_THERMAL_STATE_EXIT (R453). -/
def execMemoryThermalStateExit (stack : Nat) (s : State) : Out :=
  happen s fun d =>
    if d.on && decide (d.stackOf stack < 95) && (d.die (stack / 3)).hotStacks.contains stack then
      some (d.onDie (stack / 3) fun k => { k with hotStacks := k.hotStacks.filter fun n => n != stack })
    else none

/-- WORKING_PORT_CHANGE (R145): a port of a die stops or resumes working. -/
def execWorkingPortChange (port : Nat) (up : Bool) (s : State) : Out :=
  happen s fun d =>
    match (upFrom 0 4).find? fun k => (diePorts k).contains port with
    | none => none
    | some k =>
      if !d.on || (d.die k).ports.contains port = up then none
      else some (d.onDie k fun x => { x with ports := if up then port :: x.ports else x.ports.filter fun n => n != port })

end Sys2Proof.Machine
end

