-- ==== Sys2Proof/Machine/HostLink.lean ====
section
/-! DEFINITION. What the host and the supervisor reach (R6, R17, R61, R166, R402 to R405, R425, R444, R447 to R451): the
apertures, the code loader, the fuses, the package number, and writes of device registers. -/

namespace Sys2Proof.Machine

/-! ## Lines of a span -/

/-- The parts of a span of bytes that lie in one line each. -/
def lineParts : Nat → Nat → List Byte → List (Nat × List Byte)
  | 0, _, _ => []
  | fuel + 1, a, b =>
    if b.isEmpty then [] else (a, b.take (128 - a % 128)) :: lineParts fuel (a + (128 - a % 128)) (b.drop (128 - a % 128))

/-- Write a span of memory at the home points of its lines. -/
def Dev.writeSpan (d : Dev) (lpa : Nat) (b : List Byte) : Dev :=
  (lineParts b.length lpa b).foldl (fun d p => d.writeHome p.1 peerLeaf none p.2) d

/-- Read a span of memory at the home points of its lines. -/
def Dev.readSpan (d : Dev) (lpa n : Nat) : List Byte :=
  (lineParts n lpa (List.replicate n 0)).flatMap fun p => d.homeRead p.1 p.2.length

/-! ## The apertures (R444) -/

/-- LPA of aperture 1; none while STAGEBASE names no LPDDR of die 0 (R447, log 33). -/
def Dev.stage (d : Dev) : Option Nat :=
  let a := bits (d.reg .stagebase) 42 30 * 2 ^ 30
  if isLpddr a && dieOf a == 0 then some a else none

/-- Whether the management window is open (R444 to R446): a start that failed before its step 6 has not opened it. -/
def Dev.windowOpen (d : Dev) : Bool := d.boot < 2 || (d.boot == 2 && decide (6 < d.bootError))

/-- Whether a register answers the host while the window is not open: BOOTSTAT and PWRSTAT are read after an emergency stop (R453);
before a start has opened the window nothing answers (R444, log 33). -/
def Dev.answersClosed (d : Dev) (r : Reg) (write : Bool) : Bool := d.boot = 3 && !write && (r = .bootstat || r = .pwrstat)

/-- A host access to aperture 0: the answer, none for an error response. -/
def Dev.manage (d : Dev) (f : Fuses) (offset : Nat) (a : HostAccess) : Option (List Byte) × Dev :=
  let lpa := 0x40000000000 + offset
  let write := match a with
    | .write _ => true
    | .read _ => false
  if 0x100000000 ≤ offset || !(d.windowOpen || (regAt lpa).any fun r => d.answersClosed r write) then (none, d)
  else
    match a with
    | .read n => let (b, d) := d.deviceRead f lpa n; (some b, d)
    | .write b =>
      match regAt lpa with
      | none => (some [], d)
      | some r =>
        let (v, d) := if b.length = 8 then (bytesD b, d) else d.fresh
        (some [], { d with regBus := d.regBus ++ [⟨r, v, none⟩] })

/-- A host access to aperture 1: none while a home point makes it wait. -/
def Dev.staging (d : Dev) (offset : Nat) (a : HostAccess) : Option (Option (List Byte) × Dev) :=
  let n := match a with
    | .read n => n
    | .write b => b.length
  match d.stage with
  | none => some (none, d)
  | some base =>
    let lpa := base + offset
    if 2 ^ 30 < offset + n || !d.windowOpen || d.boot == 0 then some (none, d)
    else
      match a with
      | .read n =>
        let bad := ((lineParts n lpa (List.replicate n 0)).map fun p => p.1).filter d.bad
        if bad.isEmpty then some (some (d.readSpan lpa n), d) else some (none, bad.foldl Dev.foundBad d)
      | .write b =>
        if (lineParts b.length lpa b).any fun p => d.inHold p.1 || d.waveHolds p.1 p.2.length then none
        else some (some [], d.writeSpan lpa b)

/-- HOST_APERTURE_ACCESS (R444): the host reads or writes through an aperture; before the window opens it gets an error
response and nothing changes. -/
def execHostApertureAccess (aperture offset : Nat) (access : HostAccess) (s : State) : Out :=
  happen s fun d =>
    let put := fun (p : Option (List Byte) × Dev) => { p.2 with hostReply := p.1 }
    if !d.on then none
    else if aperture = 0 then some (put (d.manage s.fuses offset access))
    else if aperture = 1 then (d.staging offset access).map put
    else none

/-! ## Fuses and the package number (R447, R448) -/

/-- A FUSECMD write: the version counter is raised to a higher value while raises are left, and key slots are revoked. -/
def Fuses.burn (f : Fuses) (v : DWord) : Fuses :=
  let new := BitVec.ofNat 16 (bits v 15 0)
  let f := if bits v 63 63 = 1 && decide (f.secver.toNat < new.toNat) && decide (f.raises < 255) then
      { f with secver := new, raises := f.raises + 1 } else f
  { f with revoked := f.revoked ||| BitVec.ofNat 4 (bits v 19 16) }

/-- The form of the fuse commands. -/
def fuseOp (s : State) (p : DWord → Bool) : Out :=
  match s.dev.regBus with
  | w :: _ =>
    match onWrite s fun w d => if w.reg = .fusecmd && p w.value then some d else none with
    | .next t => .next { t with fuses := s.fuses.burn w.value }
    | o => o
  | [] => .fault .notEnabled

/-- FUSECMD_RAISE, FUSECMD_REVOKE (R447). -/
def execFusecmdRaise (s : State) : Out := fuseOp s fun v => bits v 63 63 = 1
def execFusecmdRevoke (s : State) : Out := fuseOp s fun v => bits v 63 63 = 0 && bits v 19 16 ≠ 0

/-- PKGCFG_WRITE (R448): ignored while the number is locked. -/
def execPkgcfgWrite (s : State) : Out :=
  onWrite s fun w d =>
    if w.reg ≠ .pkgcfg then none else if d.pkgLocked then some d else some (d.storeReg .pkgcfg w.value)

/-! ## Code objects (R449 to R451) -/

/-- The entry `i` of an object. -/
structure CodeEntry where
  generation : Nat
  stepping : Nat
  allotment : Nat
  segment : Nat
  length : Nat
  table : Nat
  count : Nat
  deriving DecidableEq, Repr

/-- A number in some bytes. -/
def numAt (b : List Byte) (o n : Nat) : Nat := bytesNat ((b.drop o).take n)

def codeEntry (b : List Byte) (i : Nat) : CodeEntry :=
  let o := 32 + 32 * i
  ⟨numAt b o 1, numAt b (o + 1) 1, numAt b (o + 4) 4, numAt b (o + 8) 8, numAt b (o + 16) 8, numAt b (o + 24) 4, numAt b (o + 28) 4⟩

/-- The words of some bytes, as they are fetched. -/
def codeWords (b : List Byte) : Nat → List Word
  | 0 => []
  | n + 1 => BitVec.ofNat 32 (numAt b 0 4) :: codeWords (b.drop 4) n

/-- Whether the words at the head of a list are an instruction with an experimental opcode (R262). -/
def isExperimental (ws : List Word) : Bool :=
  match decode ws with
  | .ok i _ => i.opcode.any fun op => [0x30#8, 0x4C#8, 0x58#8, 0x77#8, 0xC6#8, 0xD8#8].contains op
  | _ => false

/-- Whether some words of a segment are an instruction with an experimental opcode. -/
def anyExperimental : List Word → Bool
  | [] => false
  | w :: r => isExperimental (w :: r) || anyExperimental r

/-- Whether an object's bytes break the format (R449, R450). A segment that holds no instruction with an experimental opcode breaks no
rule; of one that does hold such words, an object does not say whether they are code or data, and the answer is free (log 3). -/
def formatBad (b : List Byte) : Bool :=
  let len := numAt b 8 4
  let n := numAt b 12 1
  b.take 4 ≠ [0x4A, 0x4F, 0x46, 0x31] || numAt b 4 2 ≠ 1 || len % 8 ≠ 0 || len < 32 + 32 * n + 128 || n < 1 || 8 < n ||
    3 < numAt b 13 1 || numAt b 14 2 ≠ 0 || numAt b 16 8 % 4096 ≠ 0 || numAt b 24 8 ≠ 0 || numAt b (len - 14) 14 ≠ 0 ||
    b.length ≠ len || (upFrom 0 n).any fun i =>
      let e := codeEntry b i
      let seg := (b.drop e.segment).take e.length
      e.stepping = 0 && anyExperimental (codeWords seg (seg.length / 4)) && Config.holdsExperimental seg

/-- Whether the spans of a chosen entry break what DRELOC asks of them (R381), or leave the object: the spec gives no result for it, and
the model answers BAD_FORMAT (log 34). -/
def CodeEntry.bad (e : CodeEntry) (len : Nat) : Bool :=
  len < e.segment + e.length + 128 || len < e.table + 8 * e.count + 128 || e.length % 4 ≠ 0 || e.table % 8 ≠ 0

/-- Whether an allotment fits a compute core (R201, R401). -/
def CodeEntry.fits (e : CodeEntry) : Bool :=
  let warps := e.allotment / 2 ^ 24 % 32 + 1
  let blocks := e.allotment / 2 ^ 20 % 16
  let index := e.allotment / 2 ^ 18 % 4 + 1
  decide (warps * blocks ≤ 256) && decide (warps * index ≤ 128) && decide (e.allotment / 2 ^ 13 % 32 ≤ 24)

/-- The entry of the highest generation among some, ties to the lower index. -/
def bestEntry (b : List Byte) : List Nat → Option Nat
  | [] => none
  | i :: r =>
    match bestEntry b r with
    | some k => if (codeEntry b k).generation ≤ (codeEntry b i).generation then some i else some k
    | none => some i

/-- Whether an object's signature is good: the trailer's 114 bytes sign what stands before it, under the key whose hash the slot's fuse
holds (R449). -/
def Fuses.signed (f : Fuses) (slot : Nat) (b : List Byte) : Bool :=
  Config.signatureGood (f.keys.getD slot 0) (b.take (b.length - 128)) ((b.drop (b.length - 128)).take 114)

/-- What a load answers: the result code, the entry, the segment with its relocations applied. -/
def loadObject (f : Fuses) (verified : List (List Byte × Nat)) (va : Nat) (b : List Byte) : Nat × Nat × Option (List Byte) :=
  let slot := numAt b 13 1
  let version := numAt b 6 2
  if formatBad b then (2, 0, none)
  else if f.revoked.getLsbD slot || !(verified.contains (b, version) || f.signed slot b) then (3, 0, none)
  else if version < f.secver.toNat then (4, 0, none)
  else
    let e := (upFrom 0 (numAt b 12 1)).filter fun i => (codeEntry b i).generation ≤ 0x60 && (codeEntry b i).stepping ≤ 1
    match bestEntry b (e.filter fun i => (codeEntry b i).fits) with
    | none => (if e.isEmpty then 5 else 6, 0, none)
    | some i =>
      let c := codeEntry b i
      let delta := BitVec.ofNat 64 va - BitVec.ofNat 64 (numAt b 16 8)
      if c.bad b.length then (2, 0, none) else
      match applyRelocs delta ((b.drop c.segment).take c.length) (-1) (dwords (b.drop c.table) c.count) with
      | some x => (1, i, some x)
      | none => (7, i, none)

/-- A load (R450): the object at obj is verified, an entry is chosen, and its segment is relocated to dst; LOADSTAT.entry names the
entry of a load that succeeds. An object that does not lie in aperture 1 is of a bad format (log 34). A destination that no memory stands
behind takes no byte, and the result is a free value: the spec names no code for it (log 34). -/
def Dev.load (d : Dev) (f : Fuses) (v : DWord) : Dev :=
  let obj := bits v 42 3 * 8
  let len := bytesNat (d.readSpan (obj + 8) 4)
  let inStage := d.stage.any fun a => decide (a ≤ obj) && decide (obj + max len 160 ≤ a + 2 ^ 30)
  let b := if inStage then d.readSpan obj len else []
  let (code, entry, seg) := loadObject f d.verified (bits (d.reg .loadva) 55 12 * 4096) b
  let dst := bits (d.reg .loaddst) 42 12 * 4096
  let done := fun (d : Dev) (entry code : Nat) => d.setReg .loadstat (BitVec.ofNat 64 (field 8 entry + code))
  let old := bits (d.reg .loadstat) 10 8
  match seg with
  | none => done d old code
  | some x =>
    let v := (b, numAt b 6 2)
    let d := { d with verified := if d.verified.contains v then d.verified else v :: d.verified }
    if (lineParts x.length dst x).all fun p => backed p.1 then done (d.writeSpan dst x) entry code
    else let (r, d) := d.fresh; done d old (bits r 7 0)

/-- LOADCMD_START (R447, R450): the load that runs ends with its result; or, when none runs, the load that the oldest register write
starts does. -/
def execLoadcmdStart (s : State) : Out :=
  match s.dev.loading with
  | some v => happen s fun d => some ({ d with loading := none }.load s.fuses v)
  | none =>
    onWrite s fun w d => if w.reg ≠ .loadcmd || bits w.value 63 63 = 0 then none
      else some ((d.storeReg .loadcmd w.value).load s.fuses w.value)

/-! ## Writes of device registers (R6, R61, R166, R402, R404, R425, R447) -/

/-- LSECTL_REVOKE (R61, R62): the named lease ends at once, like an expiry; a free one leaves everything as it is. -/
def execLsectlRevoke (s : State) : Out :=
  onWrite s fun w d =>
    match w.reg with
    | .lsectl die => if bits w.value 31 31 = 1 then some (d.endLease die (bits w.value 3 0)) else none
    | _ => none

/-- FABJSTAT_LOSSY_CLEAR (R166): the lossy bit of the selected entry is cleared, and nothing else of it changes. -/
def execFabjstatLossyClear (s : State) : Out :=
  onWrite s fun w d =>
    match w.reg with
    | .fabjstat die =>
      if bits w.value 61 61 = 0 then none
      else
        let sel := d.reg (.fabjsel die)
        let isIt := fun (j : JobEntry) => j.ctx == bits sel 19 8 && j.job == bits sel 7 0
        some (d.onDie die fun k => { k with jobs := updBy isIt (fun j => { j with lossy := false }) k.jobs })
    | _ => none

/-- SVCTAIL_WRITE (R427). -/
def execSvctailWrite (s : State) : Out :=
  onWrite s fun w d => if w.reg = .svctail then some (d.svctailWrite w.value) else none

/-- What a write of a register does that has no event of its own; none for the others. A PRECMD write or a start of a load may be taken
in by it too: the command is then being accepted, or the load runs, and the command's event ends that; a PRECMD write that finds one
being accepted is refused with result 3 (R428), a start that finds a load running waits (log 34). -/
def Dev.plainWrite (d : Dev) (r : Reg) (v : DWord) : Option Dev :=
  let store := some (d.storeReg r v)
  match r with
  | .lsectl _ => if bits v 31 31 = 1 then none else some d
  | .poisoncmd _ => if bits v 63 62 = 1 || bits v 63 62 = 2 then none else some d
  | .migcmd _ => if bits v 62 61 = 3 then some d else if bits v 63 63 = 1 then none else store
  | .fabjstat _ => if bits v 61 61 = 1 then none else some d
  | .qnotify _ => none
  | .qctl q =>
    if (bits v 63 63 == 1) != d.slotMapped q then none else store.map fun d => d.onSlot q fun x => { x with partSusp := false }
  | .qhead q => store.map fun d => d.onSlot q fun x => { x with batch := none }
  | .qtail q =>
    some (if bits v 32 32 = 1 then d.setReg r (BitVec.ofNat 64 (d.tailOf q)) else d)
  | .overstat => some (if bits v 63 63 = 1 then { d with overruns := d.overruns.drop 1 } else d)
  | .svcring => store.map fun d => d.flushEvents d.events
  | .svctail => none
  | .savepool => if d.images.isEmpty && d.audits.isEmpty then store else some d
  | .audctl => if d.images.isEmpty && d.audits.isEmpty then store else some d
  | .precmd =>
    some (if cmdOp v = 0 then d else if d.precmd.isSome then d.prestat 3 else if 7 ≤ cmdOp v then d.prestat 2
      else { d with precmd := some v })
  | .bootcmd => if bits v 63 62 = 0 then some d else none
  | .stagebase =>
    let a := bits v 42 30 * 2 ^ 30
    if isLpddr a && dieOf a == 0 then store else some d
  | .fusecmd => if bits v 63 63 = 1 || bits v 19 16 ≠ 0 then none else some d
  | .loadcmd => if bits v 63 63 = 0 then store else if d.loading.isSome then none else
      some { d.storeReg .loadcmd v with loading := some v }
  | .pkgcfg => none
  | _ => store

/-- REGISTER_WRITE (R6): a write of a register, or of a value, that has no behaviour of its own. -/
def execRegisterWrite (s : State) : Out := onWrite s fun w d => d.plainWrite w.reg w.value

end Sys2Proof.Machine
end

