-- ==== Sys2Proof/Machine/Index.lean ====
section
/-! DEFINITION. The index instructions (R289 to R295) on x registers and their intervals; XLD and XST stand with the
memory instructions. -/

namespace Sys2Proof.Machine

/-- The 7-bit field of an x register number. -/
def xField (n : BitVec 4) : BitVec 7 := BitVec.ofNat 7 (112 + n.toNat)

/-- The third operand of the index form (R289): an x register in bits 7:4 of the word (bits 3:0 of the field), or an 11-bit
signed immediate. -/
def indexOperand (l : Lane) (i : BitVec 1) (b : BitVec 11) : Word × Ivl :=
  if i = 1 then (b.signExtend 32, ivlConst b.toInt)
  else (l.get (xField (b.extractLsb' 0 4)), l.ivl (xField (b.extractLsb' 0 4)))

/-- The third operand of XSHL and XSHR: an amount in bits 4:0 of the field, or an x register (R289). -/
def amountOperand (l : Lane) (i : BitVec 1) (b : BitVec 11) : Word × Ivl :=
  if i = 1 then ((b.extractLsb' 0 5).setWidth 32, ivlConst (b.extractLsb' 0 5).toNat)
  else (l.get (xField (b.extractLsb' 0 4)), l.ivl (xField (b.extractLsb' 0 4)))

/-- The index form (R289): the value as the integer instruction computes it, the interval by R275. -/
def index3 (s : State) (d a : BitVec 4) (i : BitVec 1) (b : BitVec 11) (g : Guard)
    (opd : Lane → BitVec 1 → BitVec 11 → Word × Ivl) (f : Word → Word → Word) (v : Ivl → Ivl → Ivl) : Out :=
  lanesOp s 1 ([xField d, xField a] ++ if i = 1 then [] else [xField (b.extractLsb' 0 4)]) g fun _ _ l =>
    let o := opd l i b
    l.setX d.toNat (f (l.get (xField a)) o.1) (v (l.ivl (xField a)) o.2)

/-- XADD (R289). -/
def execXadd (d a : BitVec 4) (i : BitVec 1) (b : BitVec 11) (g : Guard) (s : State) : Out :=
  index3 s d a i b g indexOperand (· + ·) ivlAdd

/-- XSUB (R289). -/
def execXsub (d a : BitVec 4) (i : BitVec 1) (b : BitVec 11) (g : Guard) (s : State) : Out :=
  index3 s d a i b g indexOperand (· - ·) ivlSub

/-- XMUL (R289). -/
def execXmul (d a : BitVec 4) (i : BitVec 1) (b : BitVec 11) (g : Guard) (s : State) : Out :=
  index3 s d a i b g indexOperand (· * ·) ivlMul

/-- XSHL (R289). -/
def execXshl (d a : BitVec 4) (i : BitVec 1) (b : BitVec 11) (g : Guard) (s : State) : Out :=
  index3 s d a i b g amountOperand shl32 ivlShl

/-- XSHR (R289). -/
def execXshr (d a : BitVec 4) (i : BitVec 1) (b : BitVec 11) (g : Guard) (s : State) : Out :=
  index3 s d a i b g amountOperand sar32 ivlSar

/-- XMIN (R289). -/
def execXmin (d a : BitVec 4) (i : BitVec 1) (b : BitVec 11) (g : Guard) (s : State) : Out :=
  index3 s d a i b g indexOperand smin ivlMin

/-- XMAX (R289). -/
def execXmax (d a : BitVec 4) (i : BitVec 1) (b : BitVec 11) (g : Guard) (s : State) : Out :=
  index3 s d a i b g indexOperand smax ivlMax

/-- XAND (R289). -/
def execXand (d a : BitVec 4) (i : BitVec 1) (b : BitVec 11) (g : Guard) (s : State) : Out :=
  index3 s d a i b g indexOperand (· &&& ·) ivlAnd

/-- XMOV (R290): the value and both shadows. -/
def execXmov (d a g : BitVec 4) (s : State) : Out :=
  lanesOp s 1 [xField d, xField a] g fun _ _ l => { l with x := l.x.set d.toNat (l.xr a.toNat) }

/-- The bounds L and H in a uniform pair, signed (R291). -/
def Thread.bounds (t : Thread) (k : BitVec 4) : Ivl := ⟨(t.sreg (2 * k.toNat)).toInt, (t.sreg (2 * k.toNat + 1)).toInt⟩

/-- XSET (R291): m = 1 is `.trap`, whose failing lane takes XRANGE and no lane is performed; m = 0 is `.mask`, which writes
the predicate. -/
def execXset (d : BitVec 4) (a : BitVec 7) (k : BitVec 4) (m : BitVec 1) (p : BitVec 3) (g : Guard) (s : State) : Out :=
  runFor s fun r t dev =>
    let i := t.bounds k
    let failing := maskOf fun n => (t.taking g).getLsbD n && !ivlHas i ((t.lane n).get a)
    match dev.allotTrap r [xField d, a] with
    | some e => dev.raise r e
    | none =>
      if m = 1 && failing ≠ 0 then dev.raise r ⟨causeXrange, 0, 0, BitVec.ofNat 8 (lowest failing)⟩
      else (dev.onThread r fun t' => t'.mapLanes (isSeq r) (t.taking g) fun _ l =>
        let ok := ivlHas i (l.get a)
        let l' := if ok then l.setX d.toNat (l.get a) i else l
        if m = 0 then l'.setP p (!ok) else l').retire r 1

/-- XCLAMP (R292). -/
def execXclamp (d : BitVec 4) (a : BitVec 7) (k g : BitVec 4) (s : State) : Out :=
  lanesOp s 1 [xField d, a] g fun t _ l =>
    let i := t.bounds k
    if i.lo ≤ i.hi then l.setX d.toNat (BitVec.ofInt 32 (min (max (l.get a).toInt i.lo) i.hi)) i
    else l.setX d.toNat (l.get a) ivlTop

/-- XFROM (R293). -/
def execXfrom (d : BitVec 4) (a : BitVec 7) (t : BitVec 3) (g : Guard) (s : State) : Out :=
  lanesOp s 1 [xField d, a] g fun _ _ l =>
    let v := l.get a
    if t = 0 then l.setX d.toNat v ivlTop
    else if t = 1 then l.setX d.toNat ((v.extractLsb' 0 16).signExtend 32) ⟨-32768, 32767⟩
    else if t = 2 then l.setX d.toNat ((v.extractLsb' 0 16).setWidth 32) ⟨0, 65535⟩
    else if t = 3 then l.setX d.toNat ((v.extractLsb' 0 8).signExtend 32) ⟨-128, 127⟩
    else l.setX d.toNat ((v.extractLsb' 0 8).setWidth 32) ⟨0, 255⟩

/-- XRD (R294): the lo or the hi shadow. -/
def execXrd (d : BitVec 7) (a : BitVec 4) (h : BitVec 1) (g : Guard) (s : State) : Out :=
  lanesOp s 1 [d, xField a] g fun _ _ l => l.set d (if h = 1 then (l.xr a.toNat).hi else (l.xr a.toNat).lo)

/-- XWIDEN (R295): the interval becomes [L, H] when it lies inside, else top; the value stays. -/
def execXwiden (d k g : BitVec 4) (s : State) : Out :=
  lanesOp s 1 [xField d] g fun t _ l =>
    let i := t.bounds k
    let o := l.ivl (xField d)
    l.setX d.toNat (l.xr d.toNat).v (if i.lo ≤ i.hi ∧ i.lo ≤ o.lo ∧ o.hi ≤ i.hi then i else ivlTop)

end Sys2Proof.Machine
end

