-- ==== Sys2Proof/Machine/Approx.lean ====
section
/-! DEFINITION. The special functions of R314 to R316 that are approximations. The spec gives each a bound about the
exact value; the result is a free candidate (`Config.special`, log 3) when it lies within the bound, and otherwise the
nearest value to an approximation computed here in fixed point with 192 fraction bits. The exact cases of R315 and the
special inputs of R316 are given as stated. -/

namespace Sys2Proof.Machine

/-- One in fixed point. -/
def one192 : Nat := 2 ^ 192

/-- ln 2, π, log2 e and 2/√π with 320 fraction bits. -/
def ln2Fix : Nat := 0xb17217f7d1cf79abc9e3b39803f2f6af40f343267298b62d8a0d175b8baafa2be7b876206debac98
def piFix : Nat := 0x3243f6a8885a308d313198a2e03707344a4093822299f31d0082efa98ec4e6c89452821e638d01377
def log2eFix : Nat := 0x171547652b82fe1777d0ffda0d23a7d11d6aef551bad2b4b1164a2cd9a342648fbc3887eeaa2ed9ac
def twoOverSqrtPiFix : Nat := 0x120dd750429b6d11ae3a914fed7fd8688281341d7587cea2e7342b06199cc416180eb39f0b24e1e22

/-- The terms t^k / k! for k above `k`, given the term of `k`: `n` of them. -/
def expTerms (t : Nat) : Nat → Nat → Nat → Nat
  | 0, _, _ => 0
  | n + 1, k, term =>
    let next := term * t / (one192 * (k + 1))
    next + expTerms t n (k + 1) next

/-- 2^f for f in [0, 1), both with 192 fraction bits. -/
def exp2Fix (f : Nat) : Nat := one192 + expTerms (f * ln2Fix / 2 ^ 320) 60 0 one192

/-- The terms z^(2i+1)/(2i+1), given z^(2i+1). -/
def atanhTerms (z2 : Nat) : Nat → Nat → Nat → Nat
  | 0, _, _ => 0
  | n + 1, k, p => p / k + atanhTerms z2 n (k + 2) (p * z2 / one192)

/-- log2 r for r in [1, 2) given as num/den. -/
def log2Fix (num den : Nat) : Nat :=
  let z := (num - den) * one192 / (num + den)
  2 * atanhTerms (z * z / one192) 60 1 z * log2eFix / 2 ^ 320

/-- The alternating terms of sine (k odd) and cosine (k even) after the term of `k`. -/
def trigTerms (r2 : Nat) : Nat → Nat → Int → Int
  | 0, _, _ => 0
  | n + 1, k, term =>
    let next := -(term * r2 / ((one192 : Int) * ((k + 1) * (k + 2))))
    next + trigTerms r2 n (k + 2) next

/-- Sine and cosine of r, |r| ≤ 1, with 192 fraction bits. -/
def sinFix (r : Int) : Int := r + trigTerms (r.natAbs * r.natAbs / one192) 30 1 r
def cosFix (r : Int) : Int := one192 + trigTerms (r.natAbs * r.natAbs / one192) 30 0 one192

/-- The terms (-1)^n x^(2n+1) / (n! (2n+1)), given (-1)^n x^(2n+1) / n!. -/
def erfTerms (x2 : Nat) : Nat → Nat → Int → Int
  | 0, _, _ => 0
  | k + 1, n, p => p / ((2 * n + 1 : Nat) : Int) + erfTerms x2 k (n + 1) (-(p * x2 / ((one192 * (n + 1) : Nat) : Int)))

/-- m × 2^e with 192 fraction bits, truncated. -/
def toFix (m : Nat) (e : Int) : Nat := if 0 ≤ e + 192 then m * 2 ^ (e + 192).toNat else m / 2 ^ (-(e + 192)).toNat

/-- The candidate if it lies within `bm` × 2^`be` of the approximation (less a margin for the approximation's own
error), else the nearest binary32 to the approximation. A subnormal result becomes a zero when `ftz`. -/
def withinBound (fn : Nat) (a : Word) (ftz neg : Bool) (m : Nat) (e : Int) (bm : Nat) (be : Int) : Nat :=
  let cand := (Config.special fn a).toNat
  let best := fp32.roundMag rndNear 0 false ftz neg m e true
  match fp32.decode cand with
  | .num cn cm ce =>
    let lo := min (min ce (e - 40)) be
    let gap := (scaled cn cm ce lo - scaled neg m e lo).natAbs
    if gap + (scaled false m (e - 40) lo).natAbs ≤ (scaled false bm be lo).natAbs then
      (if ftz && fp32.subnormal cand then fp32.pack cn 0 0 else cand)
    else best
  | _ => best

/-- The exponent of the exact result that m × 2^e approximates: one less than the approximation's own where that is a power of two
and the exact result lies `below` it. -/
def exactExp (m : Nat) (e : Int) (below : Bool) : Int :=
  (bitLen m : Int) + e - (if below && m = 2 ^ (bitLen m - 1) then 2 else 1)

/-- A bound of `k` units in the last place at the exact result, which m × 2^e approximates (R315). -/
def withinUlp (fn : Nat) (a : Word) (ftz neg : Bool) (m : Nat) (e : Int) (k : Nat) (below : Bool) : Nat :=
  withinBound fn a ftz neg m e k (max (exactExp m e below) (-126) - 23)

/-- EX2 (R314 to R316). -/
def fEx2 (ftz : Bool) (a : Word) : Nat :=
  match fp32.decodeFtz ftz a.toNat with
  | .nan => fp32.nan
  | .inf neg => if neg then 0 else fp32.infBits false false
  | .num neg m e =>
    if m = 0 then fp32.round 0 0 false ftz (.num false 1 0)
    else if !neg && (128 ≤ m * 2 ^ e.toNat / 2 ^ (-e).toNat : Bool) then fp32.infBits false false
    else if neg && (150 * 2 ^ (-e).toNat ≤ m * 2 ^ e.toNat : Bool) then 0
    else
      let x := m * 2 ^ e.toNat
      let d := 2 ^ (-e).toNat
      let n : Int := if neg then -((x + d - 1) / d : Nat) else (x / d : Nat)
      let rest : Nat := if neg then (x + d - 1) / d * d - x else x % d
      if rest = 0 then fp32.round 0 0 false ftz (.num false 1 n)
      else withinUlp 0 a ftz false (exp2Fix (rest * one192 / d)) (n - 192) 2 false

/-- LG2 (R314 to R316). -/
def fLg2 (ftz : Bool) (a : Word) : Nat :=
  match fp32.decodeFtz ftz a.toNat with
  | .nan => fp32.nan
  | .inf neg => if neg then fp32.nan else fp32.infBits false false
  | .num neg m e =>
    if m = 0 then fp32.infBits false true
    else if neg then fp32.nan
    else
      let k : Int := (bitLen m : Int) - 1 + e
      let p := 2 ^ (bitLen m - 1)
      if m = p then fp32.round 0 0 false ftz (.ofInt false k 0)
      else
        let y : Int := k * one192 + log2Fix m p
        let neg := decide (y < 0)
        if k = 0 ∨ k = -1 then withinBound 1 a ftz neg y.natAbs (-192) 1 (-22)
        else withinUlp 1 a ftz neg y.natAbs (-192) 2 false

/-- RSQ (R314 to R316). -/
def fRsq (ftz : Bool) (a : Word) : Nat :=
  match fp32.decodeFtz ftz a.toNat with
  | .nan => fp32.nan
  | .inf neg => if neg then fp32.nan else 0
  | .num neg m e =>
    if m = 0 then fp32.infBits false neg
    else if neg then fp32.nan
    else
      let m2 := if e % 2 = 0 then m else 2 * m
      let e2 := if e % 2 = 0 then e else e - 1
      let q := 2 ^ 240 / m2
      let r := isqrt 121 q
      if r * r * m2 = 2 ^ 240 then fp32.round 0 0 false ftz (.num false r (-120 - e2 / 2))
      else withinUlp 2 a ftz false r (-120 - e2 / 2) 1 false

/-- SIN and COS (R314 to R316). -/
def fTrig (isCos ftz : Bool) (a : Word) : Nat :=
  match fp32.decodeFtz ftz a.toNat with
  | .nan => fp32.nan
  | .inf _ => fp32.nan
  | .num neg m e =>
    if m = 0 then (if isCos then fp32.round 0 0 false ftz (.num false 1 0) else fp32.pack neg 0 0)
    else
      let x := if 0 ≤ e + 320 then m * 2 ^ (e + 320).toNat else m / 2 ^ (-(e + 320)).toNat
      let q := (2 * x + piFix / 2) / piFix
      let r : Int := ((x : Int) - ((q * piFix / 2 : Nat) : Int)) / (2 ^ 128 : Nat)
      let s := sinFix r
      let c := cosFix r
      let v := if isCos then
          (if q % 4 = 0 then c else if q % 4 = 1 then -s else if q % 4 = 2 then -c else s)
        else
          (if q % 4 = 0 then s else if q % 4 = 1 then c else if q % 4 = 2 then -s else -c)
      let v := if neg && !isCos then -v else v
      let fn := if isCos then 4 else 3
      let sg := decide (v < 0)
      if 2 * piFix < x then withinBound fn a ftz sg v.natAbs (-192) 1 (-22)
      else if v.natAbs < 2 ^ 172 then withinBound fn a ftz sg v.natAbs (-192) 1 (-24)
      else withinUlp fn a ftz sg v.natAbs (-192) 2 true

/-- The magnitude of tanh at m × 2^e below 9, as significand and exponent. -/
def tanhMag (m : Nat) (e : Int) : Nat × Int :=
  if (bitLen m : Int) + e ≤ -13 then
    -- x (1 - x² / 3), the next term being below 2^-52 of it
    (m * (3 * 2 ^ 128 - toFix (m * m) (2 * e - 64)) / 3, e - 128)
  else
    let t := 2 * toFix m e * log2eFix / 2 ^ 320
    let y := exp2Fix (t % one192) * 2 ^ (t / one192)
    ((y - one192) * one192 / (y + one192), -192)

/-- The magnitude of erf at m × 2^e below 4. -/
def erfMag (m : Nat) (e : Int) : Nat × Int :=
  if (bitLen m : Int) + e ≤ -13 then
    (m * (3 * 2 ^ 128 - toFix (m * m) (2 * e - 64)) / 3 * twoOverSqrtPiFix, e - 448)
  else
    let x := toFix m e
    ((erfTerms (x * x / one192) 160 0 x).toNat * twoOverSqrtPiFix / 2 ^ 320, -192)

/-- TANH and ERF (R314 to R316). -/
def fSigmoid (isErf ftz : Bool) (a : Word) : Nat :=
  match fp32.decodeFtz ftz a.toNat with
  | .nan => fp32.nan
  | .inf neg => fp32.round 0 0 false ftz (.num neg 1 0)
  | .num neg m e =>
    if m = 0 then fp32.pack neg 0 0
    else
      let bound := if isErf then 4 else 9
      if bound * 2 ^ (-e).toNat ≤ m * 2 ^ e.toNat then fp32.round 0 0 false ftz (.num neg 1 0)
      else
        let y := if isErf then erfMag m e else tanhMag m e
        withinUlp (if isErf then 6 else 5) a ftz neg y.1 y.2 2 (!isErf && (bitLen m : Int) + e ≤ -13)

end Sys2Proof.Machine
end

