-- ==== Sys2Proof/Machine/Vector.lean ====
section
/-! DEFINITION. The vector, conversion and cross-lane instructions (R305 to R327). A destination is a g register, so no
interval changes (R305). -/

namespace Sys2Proof.Machine

/-- The random bits of one rounded result and the lane with its generator advanced: only under rounding code 4 (R226). -/
def draw (rnd : BitVec 3) (l : Lane) : Nat × Lane :=
  if rnd = 4 then (genBits (genNext l.gen), { l with gen := genNext l.gen }) else (0, l)

/-- A result rounded once: `f` takes the rounding mode and the random bits (R221, R226). -/
def rounded (rnd : BitVec 3) (l : Lane) (f : Nat → Nat → Nat) : Word × Lane :=
  let q := draw rnd l
  (BitVec.ofNat 32 (f rnd.toNat q.1), q.2)

/-- FP32 arithmetic (R307): registers a and b, one rounding. -/
def float2 (s : State) (d a b : BitVec 7) (g rnd : BitVec 3) (f : Nat → Nat → Nat → Nat → Nat) : Out :=
  lanesOp s 2 [d, a, b] (shortGuard g) fun _ _ l =>
    let q := rounded rnd l fun mode rb => f mode rb (l.get a).toNat (l.get b).toNat
    q.2.set d q.1

/-- FADD (R307). -/
def execFadd (d a b : BitVec 7) (g rnd : BitVec 3) (sat ftz : BitVec 1) (s : State) : Out :=
  float2 s d a b g rnd fun mode rb x y => fAdd fp32 mode rb (sat = 1) (ftz = 1) x y

/-- FSUB (R307). -/
def execFsub (d a b : BitVec 7) (g rnd : BitVec 3) (sat ftz : BitVec 1) (s : State) : Out :=
  float2 s d a b g rnd fun mode rb x y => fSub fp32 mode rb (sat = 1) (ftz = 1) x y

/-- FMUL (R307). -/
def execFmul (d a b : BitVec 7) (g rnd : BitVec 3) (sat ftz : BitVec 1) (s : State) : Out :=
  float2 s d a b g rnd fun mode rb x y => fMul fp32 mode rb (sat = 1) (ftz = 1) x y

/-- FFMA (R307): one rounding. -/
def execFfma (d a b : BitVec 7) (g : BitVec 3) (c : BitVec 7) (rnd : BitVec 3) (sat ftz : BitVec 1) (s : State) : Out :=
  lanesOp s 2 [d, a, b, c] (shortGuard g) fun _ _ l =>
    let q := rounded rnd l fun mode rb =>
      fFma fp32 mode rb (sat = 1) (ftz = 1) (l.get a).toNat (l.get b).toNat (l.get c).toNat
    q.2.set d q.1

/-- FMIN (R308). -/
def execFmin (d a b : BitVec 7) (g : BitVec 3) (s : State) : Out :=
  lanesOp s 1 [d, a, b] (shortGuard g) fun _ _ l => l.set d (fMinMax false (l.get a) (l.get b))

/-- FMAX (R308). -/
def execFmax (d a b : BitVec 7) (g : BitVec 3) (s : State) : Out :=
  lanesOp s 1 [d, a, b] (shortGuard g) fun _ _ l => l.set d (fMinMax true (l.get a) (l.get b))

/-- FABS (R309). -/
def execFabs (d a : BitVec 7) (g : Guard) (s : State) : Out := lane1 s d a g (· &&& 0x7FFFFFFF)

/-- FNEG (R309). -/
def execFneg (d a : BitVec 7) (g : Guard) (s : State) : Out := lane1 s d a g (· ^^^ 0x80000000)

/-- FABS.H2 (R309). -/
def execFabsH2 (d a : BitVec 7) (g : Guard) (s : State) : Out := lane1 s d a g (· &&& 0x7FFF7FFF)

/-- FNEG.H2 (R309). -/
def execFnegH2 (d a : BitVec 7) (g : Guard) (s : State) : Out := lane1 s d a g (· ^^^ 0x80008000)

/-- FSET (R310). -/
def execFset (pd : BitVec 3) (a b : BitVec 7) (cond : BitVec 3) (g : Guard) (s : State) : Out :=
  lanesOp s 1 [a, b] g fun _ _ l => l.setP pd (fCompare cond (l.get a) (l.get b))

/-- FCLASS (R311): of a binary32, or of element 0 of a packed half format. -/
def execFclass (d a : BitVec 7) (op : BitVec 2) (g : Guard) (s : State) : Out :=
  lane1 s d a g fun v =>
    BitVec.ofNat 32 (if op = 0 then fClass fp32 v.toNat
      else if op = 1 then fClass fp16 (v.toNat % 2 ^ 16) else fClass bf16 (v.toNat % 2 ^ 16))

/-- The element format of the packed halves: 9 is FP16, 10 is BF16 (R312). -/
def halfFormat (sfmt : BitVec 4) : FFmt := if sfmt = 9 then fp16 else bf16

/-- A half of a register (R217). -/
def half (v : Word) (i : Nat) : Nat := v.toNat / 2 ^ (16 * i) % 2 ^ 16

/-- The packed halves (R312): element 0, then element 1, each rounded once. -/
def halves (s : State) (d : BitVec 7) (regs : List (BitVec 7)) (g rnd : BitVec 3)
    (f : Lane → Nat → Nat → Nat → Nat) : Out :=
  lanesOp s 2 (d :: regs) (shortGuard g) fun _ _ l =>
    let p := draw rnd l
    let q := draw rnd p.2
    q.2.set d (BitVec.ofNat 32 (f l 0 rnd.toNat p.1 + 2 ^ 16 * f l 1 rnd.toNat q.1))

/-- HADD2 (R312). -/
def execHadd2 (d a b : BitVec 7) (g rnd : BitVec 3) (sat ftz : BitVec 1) (sfmt : BitVec 4) (s : State) : Out :=
  halves s d [a, b] g rnd fun l i mode rb =>
    fAdd (halfFormat sfmt) mode rb (sat = 1) (ftz = 1) (half (l.get a) i) (half (l.get b) i)

/-- HMUL2 (R312). -/
def execHmul2 (d a b : BitVec 7) (g rnd : BitVec 3) (sat ftz : BitVec 1) (sfmt : BitVec 4) (s : State) : Out :=
  halves s d [a, b] g rnd fun l i mode rb =>
    fMul (halfFormat sfmt) mode rb (sat = 1) (ftz = 1) (half (l.get a) i) (half (l.get b) i)

/-- HFMA2 (R312). -/
def execHfma2 (d a b : BitVec 7) (g : BitVec 3) (c : BitVec 7) (rnd : BitVec 3) (sat ftz : BitVec 1)
    (sfmt : BitVec 4) (s : State) : Out :=
  halves s d [a, b, c] g rnd fun l i mode rb =>
    fFma (halfFormat sfmt) mode rb (sat = 1) (ftz = 1) (half (l.get a) i) (half (l.get b) i) (half (l.get c) i)

/-- FDOT2 (R313). -/
def execFdot2 (d a b : BitVec 7) (g : BitVec 3) (c : BitVec 7) (rnd : BitVec 3) (sat ftz : BitVec 1)
    (sfmt : BitVec 4) (s : State) : Out :=
  lanesOp s 2 [d, a, b, c] (shortGuard g) fun _ _ l =>
    let q := rounded rnd l fun mode rb =>
      fDot2 (halfFormat sfmt) mode rb (sat = 1) (ftz = 1) (l.get a).toNat (l.get b).toNat (l.get c).toNat
    q.2.set d q.1

/-! ## Special functions (R314 to R316) -/

/-- The special-function form. -/
def special1 (s : State) (d a : BitVec 7) (rnd : BitVec 3) (g : Guard) (f : Nat → Nat → Word → Nat) : Out :=
  lanesOp s 1 [d, a] g fun _ _ l =>
    let q := rounded rnd l fun mode rb => f mode rb (l.get a)
    q.2.set d q.1

/-- EX2 (R314 to R316). -/
def execEx2 (d a : BitVec 7) (rnd : BitVec 3) (ftz : BitVec 1) (g : Guard) (s : State) : Out :=
  special1 s d a rnd g fun _ _ x => fEx2 (ftz = 1) x

/-- LG2 (R314 to R316). -/
def execLg2 (d a : BitVec 7) (rnd : BitVec 3) (ftz : BitVec 1) (g : Guard) (s : State) : Out :=
  special1 s d a rnd g fun _ _ x => fLg2 (ftz = 1) x

/-- RCP (R314 to R316). -/
def execRcp (d a : BitVec 7) (rnd : BitVec 3) (ftz : BitVec 1) (g : Guard) (s : State) : Out :=
  special1 s d a rnd g fun mode rb x => fRcp mode rb (ftz = 1) x.toNat

/-- RSQ (R314 to R316). -/
def execRsq (d a : BitVec 7) (rnd : BitVec 3) (ftz : BitVec 1) (g : Guard) (s : State) : Out :=
  special1 s d a rnd g fun _ _ x => fRsq (ftz = 1) x

/-- SQRT (R314 to R316). -/
def execSqrt (d a : BitVec 7) (rnd : BitVec 3) (ftz : BitVec 1) (g : Guard) (s : State) : Out :=
  special1 s d a rnd g fun mode rb x => fSqrt mode rb (ftz = 1) x.toNat

/-- SIN (R314 to R316). -/
def execSin (d a : BitVec 7) (rnd : BitVec 3) (ftz : BitVec 1) (g : Guard) (s : State) : Out :=
  special1 s d a rnd g fun _ _ x => fTrig false (ftz = 1) x

/-- COS (R314 to R316). -/
def execCos (d a : BitVec 7) (rnd : BitVec 3) (ftz : BitVec 1) (g : Guard) (s : State) : Out :=
  special1 s d a rnd g fun _ _ x => fTrig true (ftz = 1) x

/-- TANH (R314 to R316). -/
def execTanh (d a : BitVec 7) (rnd : BitVec 3) (ftz : BitVec 1) (g : Guard) (s : State) : Out :=
  special1 s d a rnd g fun _ _ x => fSigmoid false (ftz = 1) x

/-- ERF (R314 to R316). -/
def execErf (d a : BitVec 7) (rnd : BitVec 3) (ftz : BitVec 1) (g : Guard) (s : State) : Out :=
  special1 s d a rnd g fun _ _ x => fSigmoid true (ftz = 1) x

/-! ## Conversion (R317 to R321) -/

/-- The scale of a conversion: the register named when sc = 1. -/
def scaleOf (sc : BitVec 1) (scale : BitVec 7) (l : Lane) : Option Word := if sc = 1 then some (l.get scale) else none

/-- The registers of a CVT operand: a pair for INT64 (R216, R317). -/
def cvtRegs (r : BitVec 7) (fmt : BitVec 4) : List (BitVec 7) := if fmt = 3 then [r, r + 1] else [r]

/-- CVT (R317). -/
def execCvt (d a : BitVec 7) (sc : BitVec 1) (g : Guard) (rnd : BitVec 3) (sat ftz : BitVec 1) (dfmt sfmt : BitVec 4)
    (scale : BitVec 7) (s : State) : Out :=
  lanesOp s 2 (cvtRegs d dfmt ++ cvtRegs a sfmt ++ if sc = 1 then [scale] else []) g fun _ _ l =>
    let q := draw rnd l
    let k := if sfmt = 3 then (l.pair a).toNat else (l.get a).toNat
    let v := convert dfmt sfmt rnd.toNat q.1 (sat = 1) (ftz = 1) (scaleOf sc scale l) k
    if dfmt = 3 then q.2.setPair d (BitVec.ofNat 64 v) else q.2.set d (BitVec.ofNat 32 v)

/-- Elements of a narrow format per register, and their width in bits (R217, R319). -/
def packCount (fmt : BitVec 4) : Nat := if fmt = 9 || fmt = 10 then 2 else if fmt = 14 then 8 else 4
def packBits (fmt : BitVec 4) : Nat := 32 / packCount fmt

/-- The elements of a PACK from element `i` on, ascending, the generator advancing once per element (R319). -/
def packFrom (l : Lane) (a : BitVec 7) (rnd : BitVec 3) (sat ftz : Bool) (dfmt : BitVec 4) (scale : Option Word) :
    Nat → Nat → Lane → Nat × Lane
  | 0, _, cur => (0, cur)
  | n + 1, i, cur =>
    let q := draw rnd cur
    let v := convert dfmt 8 rnd.toNat q.1 sat ftz scale (l.get (a + BitVec.ofNat 7 i)).toNat
    let rest := packFrom l a rnd sat ftz dfmt scale n (i + 1) q.2
    (v * 2 ^ (packBits dfmt * i) + rest.1, rest.2)

/-- PACK (R319). -/
def execPack (d a : BitVec 7) (sc : BitVec 1) (g : Guard) (rnd : BitVec 3) (sat ftz : BitVec 1) (dfmt _sfmt : BitVec 4)
    (scale : BitVec 7) (s : State) : Out :=
  lanesOp s 2 ([d] ++ regRun a (packCount dfmt) ++ if sc = 1 then [scale] else []) g fun _ _ l =>
    let q := packFrom l a rnd (sat = 1) (ftz = 1) dfmt (scaleOf sc scale l) (packCount dfmt) 0 l
    q.2.set d (BitVec.ofNat 32 q.1)

/-- The elements of an UNPACK from element `i` on (R319): the sources are those of the lane before the instruction. -/
def unpackFrom (v : Word) (d : BitVec 7) (rnd : BitVec 3) (sat ftz : Bool) (sfmt : BitVec 4) (scale : Option Word) :
    Nat → Nat → Lane → Lane
  | 0, _, cur => cur
  | n + 1, i, cur =>
    let q := draw rnd cur
    let k := v.toNat / 2 ^ (packBits sfmt * i) % 2 ^ packBits sfmt
    let r := convert 8 sfmt rnd.toNat q.1 sat ftz scale k
    unpackFrom v d rnd sat ftz sfmt scale n (i + 1) (q.2.set (d + BitVec.ofNat 7 i) (BitVec.ofNat 32 r))

/-- UNPACK (R319). -/
def execUnpack (d a : BitVec 7) (sc : BitVec 1) (g : Guard) (rnd : BitVec 3) (sat ftz : BitVec 1) (_dfmt sfmt : BitVec 4)
    (scale : BitVec 7) (s : State) : Out :=
  lanesOp s 2 (regRun d (packCount sfmt) ++ [a] ++ if sc = 1 then [scale] else []) g fun _ _ l =>
    unpackFrom (l.get a) d rnd (sat = 1) (ftz = 1) sfmt (scaleOf sc scale l) (packCount sfmt) 0 l

/-- The absolute values of a register's elements as binary32 bits (R320). -/
def absElements (fmt : BitVec 2) (v : Word) : List Nat :=
  let f : BitVec 4 := if fmt = 1 then 9 else 10
  (if fmt = 0 then [v.toNat]
   else [half v 0, half v 1].map fun k => convert 8 f rndNear 0 false false none k).map fun k => k % 2 ^ 31

/-- The greatest of nonnegative binary32 values; any NaN gives the canonical NaN (R320). -/
def absMax (l : List Nat) : Nat :=
  if l.any fun k => (fp32.decode k).isNan then fp32.nan else l.foldl max 0

/-- AMAX (R320): over the lane's elements, or with w = 1 over those of every taking-part lane. -/
def execAmax (d a : BitVec 7) (fmt : BitVec 2) (w : BitVec 1) (g : Guard) (s : State) : Out :=
  lanesOp s 1 [d, a] g fun t _ l =>
    l.set d (BitVec.ofNat 32 (absMax (if w = 1 then
        (maskLanes (t.taking g)).flatMap fun n => absElements fmt ((t.lane n).get a)
      else absElements fmt (l.get a))))

/-- SEED (R321): zero writes the constant of R227. -/
def execSeed (a : BitVec 7) (u : BitVec 1) (g : Guard) (s : State) : Out :=
  lanesOp s 1 (if u = 1 then [] else [a, a + 1]) g fun t _ l =>
    let v := if u = 1 then t.spair (uniNum a) else l.pair a
    { l with gen := if v = 0 then 0x9E3779B97F4A7C15 else v }

/-- CVT8 (R318): unguarded. -/
def execCvt8 (d a b : BitVec 7) (rnd : BitVec 3) (sat ftz : BitVec 1) (dfmt : BitVec 4) (s : State) : Out :=
  lanesOp s 2 [d, a, b] unguarded fun _ _ l =>
    let q := rounded rnd l fun mode rb => convert8 dfmt mode rb (sat = 1) (ftz = 1) (l.get a) (l.get b)
    q.2.set d q.1

/-! ## Between lanes (R322 to R327) -/

/-- The value a shuffle brings from lane `j`: its own where that lane is not active (R322). -/
def shuffled (t : Thread) (a : BitVec 7) (l : Lane) (j : Int) : Word :=
  if 0 ≤ j ∧ j ≤ 31 ∧ t.active.getLsbD j.toNat then (t.lane j.toNat).get a else l.get a

/-- SHFL (R322): unguarded. -/
def execShfl (d a : BitVec 7) (mode : BitVec 2) (i : BitVec 1) (b : BitVec 7) (s : State) : Out :=
  lanesOp s 1 ([d, a] ++ if i = 1 then [] else [b]) unguarded fun t n l =>
    let k := if i = 1 then (b.extractLsb' 0 5).toNat else (l.get b).toNat
    l.set d (shuffled t a l
      (if mode = 0 then (k : Int) else if mode = 1 then (n : Int) - k else if mode = 2 then (n : Int) + k
       else ((n ^^^ k : Nat) : Int)))

/-- SHFLI (R322): SHFL `.idx` with an immediate lane. -/
def execShfli (d a : BitVec 7) (lane : BitVec 5) (s : State) : Out :=
  lanesOp s 1 [d, a] unguarded fun t _ l => l.set d (shuffled t a l lane.toNat)

/-- Byte `k` of the result of PERMB (R323): the sources are the bytes of a, then those of the old d. -/
def permByte (a d b : Word) (k : Nat) : Nat :=
  let sel := b.toNat / 2 ^ (4 * k) % 16
  if 8 ≤ sel then 0 else (d ++ a).toNat / 2 ^ (8 * sel) % 256

/-- PERMB (R323): unguarded. -/
def execPermb (d a b : BitVec 7) (s : State) : Out :=
  lanesOp s 1 [d, a, b] unguarded fun _ _ l =>
    let f := permByte (l.get a) (l.get d) (l.get b)
    l.set d (BitVec.ofNat 32 (f 0 + 2 ^ 8 * f 1 + 2 ^ 16 * f 2 + 2 ^ 24 * f 3))

/-- The taking-part lanes in which a predicate, inverted when n = 1, holds (R324). -/
def voters (t : Thread) (g : Guard) (ps : BitVec 3) (n : BitVec 1) : Word :=
  maskOf fun l => (t.taking g).getLsbD l && ((t.lane l).pr ps != (n == 1))

/-- VOTE.all (R324). -/
def execVoteAll (ps : BitVec 3) (n : BitVec 1) (pd : BitVec 3) (g : Guard) (s : State) : Out :=
  lanesOp s 1 [] g fun t _ l => l.setP pd (voters t g ps n == t.taking g)

/-- VOTE.any (R324). -/
def execVoteAny (ps : BitVec 3) (n : BitVec 1) (pd : BitVec 3) (g : Guard) (s : State) : Out :=
  lanesOp s 1 [] g fun t _ l => l.setP pd (voters t g ps n != 0)

/-- VOTE.ballot (R324). -/
def execVoteBallot (d : BitVec 7) (ps : BitVec 3) (n : BitVec 1) (g : Guard) (s : State) : Out :=
  lanesOp s 1 [d] g fun t _ l => l.set d (voters t g ps n)

/-- The taking-part lanes whose a equals a value (R325). -/
def sameAs (t : Thread) (g : Guard) (a : BitVec 7) (v : Word) : Word :=
  maskOf fun n => (t.taking g).getLsbD n && (t.lane n).get a == v

/-- MATCH.any (R325): pd is true when the mask has more than one bit. -/
def execMatchAny (d a : BitVec 7) (pd : BitVec 3) (g : Guard) (s : State) : Out :=
  lanesOp s 1 [d, a] g fun t _ l =>
    let m := sameAs t g a (l.get a)
    (l.set d m).setP pd (m &&& (m - 1) != 0)

/-- MATCH.all (R325). -/
def execMatchAll (d a : BitVec 7) (pd : BitVec 3) (g : Guard) (s : State) : Out :=
  lanesOp s 1 [d, a] g fun t _ l =>
    let all := sameAs t g a (l.get a) == t.taking g
    (l.set d (if all then t.taking g else 0)).setP pd all

/-- The operations of REDG and SCANG (R326). -/
def reduceOp (op : BitVec 4) (a b : Word) : Word :=
  if op.toNat < 6 then intReduce op.toNat a b
  else if op = 6 then fAddPlain a b
  else if op = 7 then fMinMax false a b
  else fMinMax true a b

/-- One level of the reduction tree: a node with one absent child passes the other on (R237). -/
def treeLevel (f : Word → Word → Word) : List (Option Word) → List (Option Word)
  | a :: b :: r => (match a, b with
      | some x, some y => some (f x y)
      | some x, none => some x
      | none, y => y) :: treeLevel f r
  | l => l

/-- The root of the tree over 32 lanes (R237). -/
def treeRoot (f : Word → Word → Word) (l : List (Option Word)) : Option Word :=
  ((treeLevel f (treeLevel f (treeLevel f (treeLevel f (treeLevel f l))))).head?).join

/-- REDG (R326, R237). -/
def execRedg (d a : BitVec 7) (op g : BitVec 4) (s : State) : Out :=
  lanesOp s 1 [d, a] g fun t _ l =>
    l.set d ((treeRoot (reduceOp op) ((upFrom 0 32).map fun n =>
      if (t.taking g).getLsbD n then some ((t.lane n).get a) else none)).getD 0)

/-- The identity of an operation (R327). -/
def reduceIdentity (op : BitVec 4) : Word :=
  if op = 1 then 0x7FFFFFFF else if op = 2 then 0x80000000 else if op = 3 then 0xFFFFFFFF
  else if op = 7 then 0x7F800000 else if op = 8 then 0xFF800000 else 0

/-- A fold over values in order, without an identity (R238). -/
def foldFirst (f : Word → Word → Word) : List Word → Option Word
  | [] => none
  | v :: r => some (r.foldl f v)

/-- SCANG (R327): x = 1 is exclusive, k = 1 keyed by the old d. -/
def execScang (d a : BitVec 7) (op : BitVec 4) (x k : BitVec 1) (g : Guard) (s : State) : Out :=
  lanesOp s 1 [d, a] g fun t n l =>
    let js := (maskLanes (t.taking g)).filter fun j =>
      (if x = 1 then decide (j < n) else decide (j ≤ n)) && (k = 0 || (t.lane j).get d == l.get d)
    l.set d ((foldFirst (reduceOp op) (js.map fun j => (t.lane j).get a)).getD (reduceIdentity op))

end Sys2Proof.Machine
end

