-- ==== Sys2Proof/Machine/Dispatch.lean ====
section
/-! DEFINITION. The meaning of every operation: one arm for each constructor of Instr. -/

namespace Sys2Proof.Machine

/-- Execute one operation. An instruction acts for the thread marked as issuing; an event for the entities it names. -/
def exec (i : Instr) (s : State) : Host.Outcome State Fault Refusal :=
  match i with
  | .iadd d a b g => Sys2Proof.Machine.execIadd d a b g s
  | .isub d a b g => Sys2Proof.Machine.execIsub d a b g s
  | .imul d a b g => Sys2Proof.Machine.execImul d a b g s
  | .imulhi d a b g => Sys2Proof.Machine.execImulhi d a b g s
  | .imad d a b g c rnd => Sys2Proof.Machine.execImad d a b g c rnd s
  | .imin d a b g => Sys2Proof.Machine.execImin d a b g s
  | .imax d a b g => Sys2Proof.Machine.execImax d a b g s
  | .iabs d a g => Sys2Proof.Machine.execIabs d a g s
  | .ineg d a g => Sys2Proof.Machine.execIneg d a g s
  | .and d a b g => Sys2Proof.Machine.execAnd d a b g s
  | .or d a b g => Sys2Proof.Machine.execOr d a b g s
  | .xor d a b g => Sys2Proof.Machine.execXor d a b g s
  | .not d a g => Sys2Proof.Machine.execNot d a g s
  | .shl d a b g => Sys2Proof.Machine.execShl d a b g s
  | .shr d a b g => Sys2Proof.Machine.execShr d a b g s
  | .sar d a b g => Sys2Proof.Machine.execSar d a b g s
  | .rot d a b g => Sys2Proof.Machine.execRot d a b g s
  | .bfe d a b g => Sys2Proof.Machine.execBfe d a b g s
  | .bfi d a b c rnd => Sys2Proof.Machine.execBfi d a b c rnd s
  | .popc d a g => Sys2Proof.Machine.execPopc d a g s
  | .clz d a g => Sys2Proof.Machine.execClz d a g s
  | .brev d a g => Sys2Proof.Machine.execBrev d a g s
  | .iset pd a b cond g => Sys2Proof.Machine.execIset pd a b cond g s
  | .sel d a b p => Sys2Proof.Machine.execSel d a b p s
  | .mov d a mode g => Sys2Proof.Machine.execMov d a mode g s
  | .movi d imm => Sys2Proof.Machine.execMovi d imm s
  | .moviHi d imm => Sys2Proof.Machine.execMoviHi d imm s
  | .movs d num u g => Sys2Proof.Machine.execMovs d num u g s
  | .blend d a b g c rnd opx opy na nb nc => Sys2Proof.Machine.execBlend d a b g c rnd opx opy na nb nc s
  | .idivStep d a b g => Sys2Proof.Machine.execIdivStep d a b g s
  | .imulw d a b g rnd => Sys2Proof.Machine.execImulw d a b g rnd s
  | .xadd d a im b g => Sys2Proof.Machine.execXadd d a im b g s
  | .xsub d a im b g => Sys2Proof.Machine.execXsub d a im b g s
  | .xmul d a im b g => Sys2Proof.Machine.execXmul d a im b g s
  | .xshl d a im b g => Sys2Proof.Machine.execXshl d a im b g s
  | .xshr d a im b g => Sys2Proof.Machine.execXshr d a im b g s
  | .xmin d a im b g => Sys2Proof.Machine.execXmin d a im b g s
  | .xmax d a im b g => Sys2Proof.Machine.execXmax d a im b g s
  | .xand d a im b g => Sys2Proof.Machine.execXand d a im b g s
  | .xmov d a g => Sys2Proof.Machine.execXmov d a g s
  | .xset d a k m p g => Sys2Proof.Machine.execXset d a k m p g s
  | .xfrom d a t g => Sys2Proof.Machine.execXfrom d a t g s
  | .xrd d a h g => Sys2Proof.Machine.execXrd d a h g s
  | .xwiden d k g => Sys2Proof.Machine.execXwiden d k g s
  | .xld x a imm f g => Sys2Proof.Machine.execXld x a imm f g s
  | .xst x a imm f g => Sys2Proof.Machine.execXst x a imm f g s
  | .xclamp d a k g => Sys2Proof.Machine.execXclamp d a k g s
  | .fadd d a b g rnd sat ftz => Sys2Proof.Machine.execFadd d a b g rnd sat ftz s
  | .fsub d a b g rnd sat ftz => Sys2Proof.Machine.execFsub d a b g rnd sat ftz s
  | .fmul d a b g rnd sat ftz => Sys2Proof.Machine.execFmul d a b g rnd sat ftz s
  | .ffma d a b g c rnd sat ftz => Sys2Proof.Machine.execFfma d a b g c rnd sat ftz s
  | .fmin d a b g => Sys2Proof.Machine.execFmin d a b g s
  | .fmax d a b g => Sys2Proof.Machine.execFmax d a b g s
  | .fabs d a g => Sys2Proof.Machine.execFabs d a g s
  | .fneg d a g => Sys2Proof.Machine.execFneg d a g s
  | .fabsH2 d a g => Sys2Proof.Machine.execFabsH2 d a g s
  | .fnegH2 d a g => Sys2Proof.Machine.execFnegH2 d a g s
  | .fset pd a b cond g => Sys2Proof.Machine.execFset pd a b cond g s
  | .fclass d a op g => Sys2Proof.Machine.execFclass d a op g s
  | .hadd2 d a b g rnd sat ftz sfmt => Sys2Proof.Machine.execHadd2 d a b g rnd sat ftz sfmt s
  | .hmul2 d a b g rnd sat ftz sfmt => Sys2Proof.Machine.execHmul2 d a b g rnd sat ftz sfmt s
  | .hfma2 d a b g c rnd sat ftz sfmt => Sys2Proof.Machine.execHfma2 d a b g c rnd sat ftz sfmt s
  | .fdot2 d a b g c rnd sat ftz sfmt => Sys2Proof.Machine.execFdot2 d a b g c rnd sat ftz sfmt s
  | .ex2 d a rnd ftz g => Sys2Proof.Machine.execEx2 d a rnd ftz g s
  | .lg2 d a rnd ftz g => Sys2Proof.Machine.execLg2 d a rnd ftz g s
  | .rcp d a rnd ftz g => Sys2Proof.Machine.execRcp d a rnd ftz g s
  | .rsq d a rnd ftz g => Sys2Proof.Machine.execRsq d a rnd ftz g s
  | .sqrt d a rnd ftz g => Sys2Proof.Machine.execSqrt d a rnd ftz g s
  | .sin d a rnd ftz g => Sys2Proof.Machine.execSin d a rnd ftz g s
  | .cos d a rnd ftz g => Sys2Proof.Machine.execCos d a rnd ftz g s
  | .tanh d a rnd ftz g => Sys2Proof.Machine.execTanh d a rnd ftz g s
  | .erf d a rnd ftz g => Sys2Proof.Machine.execErf d a rnd ftz g s
  | .cvt d a sc g rnd sat ftz dfmt sfmt scale => Sys2Proof.Machine.execCvt d a sc g rnd sat ftz dfmt sfmt scale s
  | .pack d a sc g rnd sat ftz dfmt sfmt scale => Sys2Proof.Machine.execPack d a sc g rnd sat ftz dfmt sfmt scale s
  | .unpack d a sc g rnd sat ftz dfmt sfmt scale => Sys2Proof.Machine.execUnpack d a sc g rnd sat ftz dfmt sfmt scale s
  | .amax d a fmt w g => Sys2Proof.Machine.execAmax d a fmt w g s
  | .seed a u g => Sys2Proof.Machine.execSeed a u g s
  | .cvt8 d a b rnd sat ftz dfmt => Sys2Proof.Machine.execCvt8 d a b rnd sat ftz dfmt s
  | .shfl d a mode im b => Sys2Proof.Machine.execShfl d a mode im b s
  | .voteAll ps n pd g => Sys2Proof.Machine.execVoteAll ps n pd g s
  | .voteAny ps n pd g => Sys2Proof.Machine.execVoteAny ps n pd g s
  | .voteBallot d ps n g => Sys2Proof.Machine.execVoteBallot d ps n g s
  | .matchAny d a pd g => Sys2Proof.Machine.execMatchAny d a pd g s
  | .matchAll d a pd g => Sys2Proof.Machine.execMatchAll d a pd g s
  | .redg d a op g => Sys2Proof.Machine.execRedg d a op g s
  | .scang d a op x k g => Sys2Proof.Machine.execScang d a op x k g s
  | .ldfrag d a f g => Sys2Proof.Machine.execLdfrag d a f g s
  | .ldfragTB8 d a f g => Sys2Proof.Machine.execLdfragTB8 d a f g s
  | .ldfragTB16 d a f g => Sys2Proof.Machine.execLdfragTB16 d a f g s
  | .shfli d a lane => Sys2Proof.Machine.execShfli d a lane s
  | .permb d a b => Sys2Proof.Machine.execPermb d a b s
  | .ldg d a ty prv ev f g => Sys2Proof.Machine.execLdg d a ty prv ev f g s
  | .stg d a ty prv ev f g => Sys2Proof.Machine.execStg d a ty prv ev f g s
  | .lda d arr x c f g => Sys2Proof.Machine.execLda d arr x c f g s
  | .sta d arr x c f g => Sys2Proof.Machine.execSta d arr x c f g s
  | .lds d a ty f g => Sys2Proof.Machine.execLds d a ty f g s
  | .sts d a ty f g => Sys2Proof.Machine.execSts d a ty f g s
  | .prf a nc ev f g => Sys2Proof.Machine.execPrf a nc ev f g s
  | .arm pd arr f g => Sys2Proof.Machine.execArm pd arr f g s
  | .disarm arr f g => Sys2Proof.Machine.execDisarm arr f g s
  | .ald arr k f g => Sys2Proof.Machine.execAld arr k f g s
  | .atom d a op ord f g c dfmt sfmt scale => Sys2Proof.Machine.execAtom d a op ord f g c dfmt sfmt scale s
  | .callm d a pd ord f g c sfmt scale => Sys2Proof.Machine.execCallm d a pd ord f g c sfmt scale s
  | .bind pd o b n f g => Sys2Proof.Machine.execBind pd o b n f g s
  | .unbind pd b f g => Sys2Proof.Machine.execUnbind pd b f g s
  | .acq d a scope f g => Sys2Proof.Machine.execAcq d a scope f g s
  | .acqAll scope f g => Sys2Proof.Machine.execAcqAll scope f g s
  | .rel d a scope f g => Sys2Proof.Machine.execRel d a scope f g s
  | .relAll scope f g => Sys2Proof.Machine.execRelAll scope f g s
  | .fence scope f g => Sys2Proof.Machine.execFence scope f g s
  | .qfence msg copy mat f g => Sys2Proof.Machine.execQfence msg copy mat f g s
  | .bra offset => Sys2Proof.Machine.execBra offset s
  | .brp n p offset => Sys2Proof.Machine.execBrp n p offset s
  | .xbr x c u k offset => Sys2Proof.Machine.execXbr x c u k offset s
  | .jmpt a x c => Sys2Proof.Machine.execJmpt a x c s
  | .call d target => Sys2Proof.Machine.execCall d target s
  | .callIndirect d a => Sys2Proof.Machine.execCallIndirect d a s
  | .ret a => Sys2Proof.Machine.execRet a s
  | .exit g => Sys2Proof.Machine.execExit g s
  | .brx a offset => Sys2Proof.Machine.execBrx a offset s
  | .barInit b e h g => Sys2Proof.Machine.execBarInit b e h g s
  | .barArr b g => Sys2Proof.Machine.execBarArr b g s
  | .barWait b u v g => Sys2Proof.Machine.execBarWait b u v g s
  | .barSync b g => Sys2Proof.Machine.execBarSync b g s
  | .barsInit scope n v g => Sys2Proof.Machine.execBarsInit scope n v g s
  | .barsArr scope n g => Sys2Proof.Machine.execBarsArr scope n g s
  | .barsWait scope n u v g => Sys2Proof.Machine.execBarsWait scope n u v g s
  | .barsSync scope n g => Sys2Proof.Machine.execBarsSync scope n g s
  | .fork e offset => Sys2Proof.Machine.execFork e offset s
  | .rndv e => Sys2Proof.Machine.execRndv e s
  | .batonPass u w => Sys2Proof.Machine.execBatonPass u w s
  | .quiet d t f g => Sys2Proof.Machine.execQuiet d t f g s
  | .signal h scope rel g => Sys2Proof.Machine.execSignal h scope rel g s
  | .mldb w fmt sc src bm sp sparse sh => Sys2Proof.Machine.execMldb w fmt sc src bm sp sparse sh s
  | .mzero m isInt => Sys2Proof.Machine.execMzero m isInt s
  | .mma m w a sa g sh => Sys2Proof.Machine.execMma m w a sa g sh s
  | .mmaStr m w sh => Sys2Proof.Machine.execMmaStr m w sh s
  | .mrd m dfmt rnd sat ftz d f g sh => Sys2Proof.Machine.execMrd m dfmt rnd sat ftz d f g sh s
  | .msig b => Sys2Proof.Machine.execMsig b s
  | .mseqEnd e b => Sys2Proof.Machine.execMseqEnd e b s
  | .mamax m d f g sh => Sys2Proof.Machine.execMamax m d f g sh s
  | .dcopy dk sk dsp ssp st sg h f g sh => Sys2Proof.Machine.execDcopy dk sk dsp ssp st sg h f g sh s
  | .dcopyCk dk sk dsp ssp st sg h f g sh => Sys2Proof.Machine.execDcopyCk dk sk dsp ssp st sg h f g sh s
  | .dfill dk sk dsp ssp st sg h f g sh => Sys2Proof.Machine.execDfill dk sk dsp ssp st sg h f g sh s
  | .dgather k arr sp st sg h f g sh => Sys2Proof.Machine.execDgather k arr sp st sg h f g sh s
  | .dscat k arr sp st sg h f g sh => Sys2Proof.Machine.execDscat k arr sp st sg h f g sh s
  | .dlease d sz du pd f g => Sys2Proof.Machine.execDlease d sz du pd f g s
  | .dleaseRenew d du pd f g => Sys2Proof.Machine.execDleaseRenew d du pd f g s
  | .dunlease h f g => Sys2Proof.Machine.execDunlease h f g s
  | .dsig b arr sg h f g => Sys2Proof.Machine.execDsig b arr sg h f g s
  | .dreloc k st f g => Sys2Proof.Machine.execDreloc k st f g s
  | .spawn pd a f g => Sys2Proof.Machine.execSpawn pd a f g s
  | .spawnAt pd a t f g => Sys2Proof.Machine.execSpawnAt pd a t f g s
  | .csrr d csr g => Sys2Proof.Machine.execCsrr d csr g s
  | .csrw a csr g => Sys2Proof.Machine.execCsrw a csr g s
  | .trap cause code g => Sys2Proof.Machine.execTrap cause code g s
  | .tlbiRange k c n g => Sys2Proof.Machine.execTlbiRange k c n g s
  | .tlbiCtx c g => Sys2Proof.Machine.execTlbiCtx c g s
  | .tlbiPkg g => Sys2Proof.Machine.execTlbiPkg g s
  | .clock d g => Sys2Proof.Machine.execClock d g s
  | .clockNs d g => Sys2Proof.Machine.execClockNs d g s
  | .perf d n g => Sys2Proof.Machine.execPerf d n g s
  | .clauseIssue core slot => Sys2Proof.Machine.execClauseIssue core slot s
  | .frontierWaitLimit core slot => Sys2Proof.Machine.execFrontierWaitLimit core slot s
  | .loopLimit core slot => Sys2Proof.Machine.execLoopLimit core slot s
  | .translationDone t => Sys2Proof.Machine.execTranslationDone t s
  | .loadDataReturn op piece how => Sys2Proof.Machine.execLoadDataReturn op piece how s
  | .storeAck op piece => Sys2Proof.Machine.execStoreAck op piece s
  | .atomicReply op how => Sys2Proof.Machine.execAtomicReply op how s
  | .allocGrant core => Sys2Proof.Machine.execAllocGrant core s
  | .dispatch die => Sys2Proof.Machine.execDispatch die s
  | .groupComplete gid => Sys2Proof.Machine.execGroupComplete gid s
  | .successorEntry die => Sys2Proof.Machine.execSuccessorEntry die s
  | .descriptorRead slot => Sys2Proof.Machine.execDescriptorRead slot s
  | .spillReturn die => Sys2Proof.Machine.execSpillReturn die s
  | .copyCommandRun core entry count => Sys2Proof.Machine.execCopyCommandRun core entry count s
  | .copyRecordComplete core entry => Sys2Proof.Machine.execCopyRecordComplete core entry s
  | .matrixEntryRun core rows => Sys2Proof.Machine.execMatrixEntryRun core rows s
  | .waveForm core => Sys2Proof.Machine.execWaveForm core s
  | .waveComplete core slot => Sys2Proof.Machine.execWaveComplete core slot s
  | .waveTimeLimit core slot => Sys2Proof.Machine.execWaveTimeLimit core slot s
  | .methodRequest index => Sys2Proof.Machine.execMethodRequest index s
  | .methodCall m => Sys2Proof.Machine.execMethodCall m s
  | .methodReply m index => Sys2Proof.Machine.execMethodReply m index s
  | .remoteStore m => Sys2Proof.Machine.execRemoteStore m s
  | .remoteAtomic m => Sys2Proof.Machine.execRemoteAtomic m s
  | .remoteSpawn m => Sys2Proof.Machine.execRemoteSpawn m s
  | .remoteSignal m => Sys2Proof.Machine.execRemoteSignal m s
  | .remotePodInit m => Sys2Proof.Machine.execRemotePodInit m s
  | .copyBeat m => Sys2Proof.Machine.execCopyBeat m s
  | .remoteLoad m => Sys2Proof.Machine.execRemoteLoad m s
  | .ackResponse m => Sys2Proof.Machine.execAckResponse m s
  | .refusedResponse m => Sys2Proof.Machine.execRefusedResponse m s
  | .retryResponse m => Sys2Proof.Machine.execRetryResponse m s
  | .heldResponse m => Sys2Proof.Machine.execHeldResponse m s
  | .consumedResponse m => Sys2Proof.Machine.execConsumedResponse m s
  | .abandonedResponse m => Sys2Proof.Machine.execAbandonedResponse m s
  | .phaseNotice m => Sys2Proof.Machine.execPhaseNotice m s
  | .lossNotice m => Sys2Proof.Machine.execLossNotice m s
  | .probe m => Sys2Proof.Machine.execProbe m s
  | .report m => Sys2Proof.Machine.execReport m s
  | .traversePassTimeout ctx job => Sys2Proof.Machine.execTraversePassTimeout ctx job s
  | .quietTimeout t => Sys2Proof.Machine.execQuietTimeout t s
  | .messageResend die index => Sys2Proof.Machine.execMessageResend die index s
  | .messageDoubt die index => Sys2Proof.Machine.execMessageDoubt die index s
  | .lossNoticeResend die index => Sys2Proof.Machine.execLossNoticeResend die index s
  | .retryResend index => Sys2Proof.Machine.execRetryResend index s
  | .phaseNoticeResend index => Sys2Proof.Machine.execPhaseNoticeResend index s
  | .leaseExpiry die lease => Sys2Proof.Machine.execLeaseExpiry die lease s
  | .footprintFlush core index => Sys2Proof.Machine.execFootprintFlush core index s
  | .slotDeadline slot => Sys2Proof.Machine.execSlotDeadline slot s
  | .overrun slot => Sys2Proof.Machine.execOverrun slot s
  | .drainTimeout slot => Sys2Proof.Machine.execDrainTimeout slot s
  | .saveTimeout slot => Sys2Proof.Machine.execSaveTimeout slot s
  | .drainComplete slot => Sys2Proof.Machine.execDrainComplete slot s
  | .saveComplete gang => Sys2Proof.Machine.execSaveComplete gang s
  | .restore index => Sys2Proof.Machine.execRestore index s
  | .thermalMigration die => Sys2Proof.Machine.execThermalMigration die s
  | .activityPeriod die activity => Sys2Proof.Machine.execActivityPeriod die activity s
  | .scrubRead lpa => Sys2Proof.Machine.execScrubRead lpa s
  | .migrationComplete die => Sys2Proof.Machine.execMigrationComplete die s
  | .uncorrectableError site => Sys2Proof.Machine.execUncorrectableError site s
  | .gangKill gang => Sys2Proof.Machine.execGangKill gang s
  | .auditReplay index core => Sys2Proof.Machine.execAuditReplay index core s
  | .dieThrottle die => Sys2Proof.Machine.execDieThrottle die s
  | .memoryThermalState stack => Sys2Proof.Machine.execMemoryThermalState stack s
  | .hostApertureAccess aperture offset access => Sys2Proof.Machine.execHostApertureAccess aperture offset access s
  | .workingPortChange port up => Sys2Proof.Machine.execWorkingPortChange port up s
  | .powerStateNormal die => Sys2Proof.Machine.execPowerStateNormal die s
  | .memoryThermalStateExit stack => Sys2Proof.Machine.execMemoryThermalStateExit stack s
  | .contextResetComplete ctx => Sys2Proof.Machine.execContextResetComplete ctx s
  | .backgroundSweepComplete ctx => Sys2Proof.Machine.execBackgroundSweepComplete ctx s
  | .correctedSoftError code => Sys2Proof.Machine.execCorrectedSoftError code s
  | .sequencerIssue core copy => Sys2Proof.Machine.execSequencerIssue core copy s
  | .signalBaseDieTransfer index => Sys2Proof.Machine.execSignalBaseDieTransfer index s
  | .spawnBaseDieTransfer index => Sys2Proof.Machine.execSpawnBaseDieTransfer index s
  | .yield => Sys2Proof.Machine.execYield s
  | .nop => Sys2Proof.Machine.execNop s
  | .batonTake => Sys2Proof.Machine.execBatonTake s
  | .batonPassNone => Sys2Proof.Machine.execBatonPassNone s
  | .done => Sys2Proof.Machine.execDone s
  | .alloc => Sys2Proof.Machine.execAlloc s
  | .free => Sys2Proof.Machine.execFree s
  | .eret => Sys2Proof.Machine.execEret s
  | .tmask => Sys2Proof.Machine.execTmask s
  | .tunmask => Sys2Proof.Machine.execTunmask s
  | .l1inv => Sys2Proof.Machine.execL1inv s
  | .halt => Sys2Proof.Machine.execHalt s
  | .traversePeriodic => Sys2Proof.Machine.execTraversePeriodic s
  | .powerOn => Sys2Proof.Machine.execPowerOn s
  | .powerCap => Sys2Proof.Machine.execPowerCap s
  | .emergencyStop => Sys2Proof.Machine.execEmergencyStop s
  | .emergencyStopComplete => Sys2Proof.Machine.execEmergencyStopComplete s
  | .qnotify => Sys2Proof.Machine.execQnotify s
  | .qctlMap => Sys2Proof.Machine.execQctlMap s
  | .qctlUnmap => Sys2Proof.Machine.execQctlUnmap s
  | .lsectlRevoke => Sys2Proof.Machine.execLsectlRevoke s
  | .poisoncmdSet => Sys2Proof.Machine.execPoisoncmdSet s
  | .poisoncmdClear => Sys2Proof.Machine.execPoisoncmdClear s
  | .migcmdMigrate4k => Sys2Proof.Machine.execMigcmdMigrate4k s
  | .migcmdMigrate2m => Sys2Proof.Machine.execMigcmdMigrate2m s
  | .migcmdRemoveRedirect => Sys2Proof.Machine.execMigcmdRemoveRedirect s
  | .fabjstatLossyClear => Sys2Proof.Machine.execFabjstatLossyClear s
  | .precmdDrain => Sys2Proof.Machine.execPrecmdDrain s
  | .precmdSave => Sys2Proof.Machine.execPrecmdSave s
  | .precmdReset => Sys2Proof.Machine.execPrecmdReset s
  | .precmdRestore => Sys2Proof.Machine.execPrecmdRestore s
  | .precmdRelease => Sys2Proof.Machine.execPrecmdRelease s
  | .precmdEndDrain => Sys2Proof.Machine.execPrecmdEndDrain s
  | .bootcmdWarmStart => Sys2Proof.Machine.execBootcmdWarmStart s
  | .bootcmdColdStart => Sys2Proof.Machine.execBootcmdColdStart s
  | .bootcmdShutdown => Sys2Proof.Machine.execBootcmdShutdown s
  | .fusecmdRaise => Sys2Proof.Machine.execFusecmdRaise s
  | .fusecmdRevoke => Sys2Proof.Machine.execFusecmdRevoke s
  | .loadcmdStart => Sys2Proof.Machine.execLoadcmdStart s
  | .pkgcfgWrite => Sys2Proof.Machine.execPkgcfgWrite s
  | .registerWrite => Sys2Proof.Machine.execRegisterWrite s
  | .powerOff => Sys2Proof.Machine.execPowerOff s
  | .svctailWrite => Sys2Proof.Machine.execSvctailWrite s

end Sys2Proof.Machine
end

