-- ==== Sys2Proof/Machine/Agenda.lean ====
section
/-! DEFINITION. What happens next (log 4): the agenda's acts, the issue of a thread's next instruction, the passing of time,
and the order in which the machine goes on by itself when the agenda is empty. -/

namespace Sys2Proof.Machine

/-- Time passes: a package without power counts nothing (R452); the slots with a reservation are charged (R407). Revocations of pins
that no access keeps waiting are made (R87), and traverses that waiting QUIETs ask for start (R161). -/
def Dev.elapse (d : Dev) (ns cycles : Nat) : Dev :=
  if d.on then
    let d := { d with now := d.now + ns, cycles := d.cycles + cycles, slots := d.slots.map (d.chargeSlot ns) }
    d.settleRevokes.startAsked
  else d

/-- The state with its device changed. -/
def State.onDev (s : State) (f : Dev → Dev) : State := { s with dev := f s.dev }

/-- Issue the next instruction of a thread: it is decoded and executed with the thread as the issuing party. A thread that
cannot issue lets the cycle pass. -/
def issue (r : ThreadRef) (s : State) : Out :=
  match s.dev.thread r with
  | none => .next s
  | some t =>
    if s.dev.canStep r t then
      let s := s.onDev fun d => { d.takeSlot r with issuer := some r }
      match t.head with
      | some (.ok i _) => exec i s
      | some (.bad b) => runFor s fun r _ d => d.raise r (trapFetch b)
      | _ => runFor s fun r _ d => d.raise r trapIllegal
    else .next s

/-- An event that cannot happen lets the cycle pass. -/
def orPass (o : Out) (s : State) : Out :=
  match o with
  | .next t => .next t
  | _ => .next s

/-- Put a number into a list of pairs under its key. -/
def putKey {α : Type} [DecidableEq α] (k : α) (v : Nat) (l : List (α × Nat)) : List (α × Nat) :=
  (k, v) :: l.filter fun p => p.1 ≠ k

/-! ## The events that may happen -/

/-- Every thread: warps, waves, sequencer programs. -/
def Dev.threads (d : Dev) : List (ThreadRef × Thread) :=
  (d.groups.flatMap fun g => g.warps.map fun w => (ThreadRef.warp g.gid w.wid, w)) ++
  (d.cores.flatMap fun k =>
    (foldIdx (fun n (l : List (ThreadRef × Thread)) (w : Option Wave) => match w with
      | some w => l ++ [(ThreadRef.wave k.ref n, w.thread)]
      | none => l) 0 [] k.waves) ++
    (match k.matSeq with | some p => [(ThreadRef.seq k.ref false, p.thread)] | none => []) ++
    (match k.copySeq with | some p => [(ThreadRef.seq k.ref true, p.thread)] | none => []))

/-- The events that act on the oldest register write (R17, R444). -/
def registerEvents : List Instr :=
  [.qnotify, .qctlMap, .qctlUnmap, .lsectlRevoke, .poisoncmdSet, .poisoncmdClear, .migcmdMigrate4k, .migcmdMigrate2m,
   .migcmdRemoveRedirect, .fabjstatLossyClear, .precmdDrain, .precmdSave, .precmdReset, .precmdRestore, .precmdRelease,
   .precmdEndDrain, .bootcmdWarmStart, .bootcmdColdStart, .bootcmdShutdown, .fusecmdRaise, .fusecmdRevoke, .loadcmdStart,
   .pkgcfgWrite, .svctailWrite, .registerWrite]

/-- The events of memory operations. -/
def Dev.opEvents (d : Dev) : List Instr :=
  d.ops.flatMap fun o =>
    Instr.atomicReply o.id .write :: (upFrom 0 o.pieces.length).flatMap fun n =>
      [Instr.storeAck o.id n, Instr.loadDataReturn o.id n .write]

/-- The events of a core. -/
def coreEvents (k : Core) : List Instr :=
  let logs := (upFrom 0 k.footprints.length).map fun n => Instr.footprintFlush k.ref n
  let units := [Instr.matrixEntryRun k.ref none, Instr.sequencerIssue k.ref false, Instr.sequencerIssue k.ref true,
    Instr.allocGrant k.ref, Instr.waveForm k.ref]
  let copies := k.copy.flatMap fun e => [Instr.copyCommandRun k.ref e.id none, Instr.copyRecordComplete k.ref e.id]
  let waves := (upFrom 0 16).flatMap fun n => [Instr.waveComplete k.ref n, Instr.waveTimeLimit k.ref n]
  List.flatten [logs, units, copies, waves, (upFrom 0 4).map fun n => Instr.clauseIssue k.ref n]

/-- The cores that hold groups or state. -/
def Dev.usedCores (d : Dev) : List Core :=
  d.cores ++ ((d.groups.filter fun g => !(d.cores.any fun k => k.ref = g.core)).map fun g => Core.reset g.core)

/-- The events that a time brings at a die: budget periods, leases, resends. -/
def timedAt (d : Dev) (k : Die) : List Instr :=
  let periods := (upFrom 0 6).filterMap fun n => if d.spent k.idx n = 0 then none else some (Instr.activityPeriod k.idx n)
  let leases := (upFrom 0 k.leases.length).map fun n => Instr.leaseExpiry k.idx n
  let sent := (upFrom 0 k.sent.length).flatMap fun n =>
    [Instr.messageResend k.idx n, Instr.messageDoubt k.idx n, Instr.lossNoticeResend k.idx n]
  List.flatten [periods, leases, sent]

/-- The events that a time brings: budget periods, traverses, timeouts, resends. -/
def Dev.timedEvents (d : Dev) : List Instr :=
  let quiets := d.threads.map fun p => Instr.quietTimeout p.1
  let passes := d.traverses.map fun t => Instr.traversePassTimeout t.ctx t.job
  let notices := (upFrom 0 d.notices.length).map fun n => Instr.phaseNoticeResend n
  List.flatten [quiets, passes, [Instr.traversePeriodic], notices, d.dies.flatMap (timedAt d)]

/-- The events of dies, slots, groups, gangs, contexts. -/
def Dev.packageEvents (d : Dev) : List Instr :=
  let transfers := (upFrom 0 d.transfers.length).flatMap fun n =>
    [Instr.methodRequest n, Instr.methodReply none n, Instr.signalBaseDieTransfer n, Instr.spawnBaseDieTransfer n]
  let groups := d.groups.map fun g => Instr.groupComplete g.gid
  let gangs := d.gangs.flatMap fun g => [Instr.saveComplete g.id, Instr.gangKill g.id]
  let dies := (upFrom 0 4).flatMap fun n =>
    [Instr.successorEntry n, Instr.spillReturn n, Instr.dispatch n, Instr.migrationComplete n, Instr.thermalMigration n]
  let slots := d.slots.flatMap fun q =>
    [Instr.descriptorRead q.q, Instr.slotDeadline q.q, Instr.overrun q.q, Instr.drainComplete q.q, Instr.drainTimeout q.q,
     Instr.saveTimeout q.q]
  let mapped := (upFrom 0 1024).filterMap fun q =>
    if d.slotMapped q && !(d.slots.any fun x => x.q = q) then some (Instr.descriptorRead q) else none
  let images := (upFrom 0 d.images.length).map fun n => Instr.restore n
  let sweeps := d.sweeps.flatMap fun w => [Instr.contextResetComplete w.ctx, Instr.backgroundSweepComplete w.ctx]
  let retries := (upFrom 0 (d.dies.map fun k => k.retried.length).sum).map fun n => Instr.retryResend n
  let audits := d.audits.flatMap fun a => (upFrom 0 4).map fun n => Instr.auditReplay a.index ⟨n, false, 0⟩
  List.flatten [transfers, groups, gangs, dies, slots, mapped, images, sweeps, retries, audits, d.timedEvents]

/-- The events that the machine looks through when it goes on by itself. -/
def Dev.openEvents (d : Dev) : List Instr :=
  (if d.regBus.isEmpty && d.precmd.isNone && d.loading.isNone then [] else registerEvents) ++
    ((d.threads.filter fun p => p.2.wait.walks || p.2.wait = .launch).map
      fun p => .translationDone p.1) ++ d.opEvents ++ d.packageEvents ++ d.usedCores.flatMap coreEvents

/-! ## Acts -/

/-- The events that a replay's acts may be: those that the machine looks through when it goes on by itself. -/
def Dev.takesEvent (d : Dev) (i : Instr) : Bool := i.isEvent && d.openEvents.contains i

/-- Whether an act may happen inside a replay: its threads issue, its units go on, its time passes. -/
def Dev.takesAct (d : Dev) : Act → Bool
  | .event i => d.takesEvent i
  | .issue _ => true
  | .elapse _ _ => true
  | _ => false

/-- The device after a replay on a die has been busy from one time to another: each µs is charged to the die's budget (R419). -/
def Dev.chargeReplay (d : Dev) (die before after : Nat) : Dev :=
  (upFrom 0 (after / 1000 - before / 1000)).foldl (fun d _ => d.spend die 2) d

/-- A running replay goes on by `f`, apart from the package (R442): it shares its free values and the charge of its time. One that has
ended goes on no more. -/
def runReplay (index : Nat) (f : State → Out) (s : State) : State :=
  match s.replays.find? fun p => p.index = index, s.dev.audits.find? fun a => a.index = index with
  | some p, some a =>
    if p.inconclusive a || p.finished a then s
    else
      match f { agenda := [], fuses := s.fuses, dev := { p.dev with free := s.dev.free }, replays := [] } with
      | .next t =>
        { s with
          dev := { s.dev.chargeReplay p.die p.dev.now t.dev.now with free := t.dev.free },
          replays := s.replays.map fun x => if x.index = index then { x with dev := t.dev } else x }
      | _ => s
  | _, _ => s

/-- The replays of audits that are still kept: a reset of their context, or a start, ends the others. -/
def State.tidy (s : State) : State :=
  { s with replays := s.replays.filter fun p => s.dev.audits.any fun a => a.index = p.index && a.signature.isSome }

/-- Perform one act of the agenda. -/
def act (a : Act) (s : State) : Out :=
  match a with
  | .replay index a =>
    .next (runReplay index (fun t => if t.dev.takesAct a then act a t else .next t) s)
  | .event i => if i.isEvent then orPass (exec i s) s else .next s
  | .issue r => issue r s
  | .elapse ns cycles => .next (s.onDev fun d => d.elapse ns cycles)
  | .hostMem a b => .next (s.onDev fun d => { d with hostMem := memWrite d.hostMem a b })
  | .coreTemp c t => .next (s.onDev fun d => { d with coreTemp := putKey c t d.coreTemp })
  | .stackTemp k t => .next (s.onDev fun d => { d with stackTemp := putKey k t d.stackTemp })
  | .watts w => .next (s.onDev fun d => { d with watts := w })
  | .wire => .next (s.onDev fun d => { d with wire := d.wire.drop 1 })
  | .badLine n bad => .next (s.onDev fun d =>
      { d with badLines := if bad then n :: d.badLines.filter (· ≠ n) else d.badLines.filter (· ≠ n) })

/-! ## Going on by itself -/

/-- The first of some events that can happen. -/
def firstEvent (s : State) : List Instr → Option State
  | [] => none
  | i :: r =>
    match exec i s with
    | .next t => some t
    | _ => firstEvent s r

/-- A list turned round by a number of places. -/
def turned {α : Type} (n : Nat) (l : List α) : List α :=
  let k := n % (l.length + 1)
  l.drop k ++ l.take k

/-- The first thread that can issue with a clause in progress and no wait. -/
def goOn (s : State) : Option Out :=
  match s.dev.threads.filter fun p => s.dev.canStep p.1 p.2 && p.2.wait = .none with
  | (r, _) :: _ => some (issue r s)
  | [] => none

/-- A waiting thread looks again whether it can go on: each in its turn, which the access counter gives. -/
def lookAgain (s : State) : Option Out :=
  let (tick, d) := s.dev.bump
  match turned tick (s.dev.threads.filter fun p => s.dev.canStep p.1 p.2) with
  | (r, _) :: _ => some (issue r { s with dev := d })
  | [] => none

/-- The machine goes on by itself while a ns passes: a clause in progress, then the first event that can happen in a fixed
order, then a waiting thread looks again; else a microsecond passes. Every eighth time the events come first, from a place of
their order that moves on, and every eighth time the waiting threads. -/
def goAlone (s : State) : Out :=
  let s := s.onDev fun d => d.elapse 1 2
  let turn := s.dev.cycles / 3
  let event := fun n (s : State) => (firstEvent s (turned n s.dev.openEvents)).map fun (t : State) => Host.Outcome.next t
  let out :=
    (if turn % 8 = 0 then event (turn / 8 * 31) s else if turn % 8 = 4 then lookAgain s else none) <|>
      goOn s <|> event 0 s
  let later := s.onDev fun d => d.elapse 1000 2600
  out.getD ((lookAgain later).getD (.next later))

/-- The machine goes on by itself; while a replay runs, it and the package take turns (R442). -/
def auto (s : State) : Out :=
  match s.replays with
  | p :: _ => if s.dev.cycles % 2 = 0 then goAlone s else .next (runReplay p.index goAlone s)
  | [] => goAlone s

/-- A group of one warp on core 0 of die 0, with all registers and 24 units of scratch, that has an instruction's words as its
clause in progress (log 4). -/
def probeGroup (gid : Nat) (ws : List Word) : Group :=
  let b := List.replicate 40 0 ++ natBytes (field 43 14 + field 41 3 + field 36 24) 8 ++ List.replicate 16 0
  let n := opcodeLength (fld 24 8 (ws.headD 0))
  let clause : Clause := ⟨0x1000, ⟨1, 0, 0, 0, 15, false, false⟩, ws.take n, 0x1004, 0x1004 + BitVec.ofNat 64 (4 * n),
    0xFFFFFFFF, 0xFFFF, 0, true, false, false⟩
  let g := newGroup gid (Rec.entering b 0 0 none 0 0 false none .queue) ⟨0, false, 0⟩ gid 0 1 [0] 0 0 0
  { g with
    state := .full, units := 24, warps := g.warps.map fun (w : Thread) => { w with frontier := [], clause := some clause } }

end Sys2Proof.Machine
end

