-- ==== Sys2Proof/Machine/Step.lean ====
section
/-! DEFINITION. The step of the machine, and the placing of one instruction where the next step issues it. -/

namespace Sys2Proof.Machine

/-- One step: a cycle passes and the head of the agenda happens, or, with an empty agenda, the machine goes on by itself
(log 4). -/
def step (s : State) : Host.Outcome State Fault Refusal :=
  let s := (s.onDev fun d => d.elapse 0 1).tidy
  match s.agenda with
  | a :: rest => act a { s with agenda := rest }
  | [] => auto s

/-- The state with an instruction placed as the next one a warp issues: a group of one warp whose clause in progress it is,
and the issue of that warp at the head of the agenda. -/
def State.withFetchWord (s : State) (nbits w : Nat) : State :=
  let gid := s.dev.nextId
  let gang : Gang :=
    { id := gid, size := 1, die := 0, quad := 0, members := [gid], complete := [], bars := [], kills := 0, recs := [],
      save := none }
  let d := { s.dev with
    nextId := gid + 1, groups := s.dev.groups ++ [probeGroup gid (tableWords nbits w)], gangs := s.dev.gangs ++ [gang] }
  { s with agenda := .issue (.warp gid 0) :: s.agenda, dev := d }

end Sys2Proof.Machine
end

