-- ==== Sys2Proof/Safety.lean ====
section
/-! DEFINITION. What counts as a safe run, and the terms the statements use: a party that issues, fields within its allotment,
the state an instruction of a shape leaves, and what a step must keep. -/

namespace Sys2Proof.Machine

/-! ## Safe runs -/

/-- A run of some steps is safe when no step of it stops: it reaches a state. -/
def SafeRun (n : Nat) (s : State) : Prop := ∃ s', Host.Core.run core n s = .next s'

/-! ## Parties that issue -/

/-- `t` is the thread of the party `r`, and `r` is the one that issues. -/
def Issues (s : State) (r : ThreadRef) (t : Thread) : Prop := s.dev.issuer = some r ∧ s.dev.thread r = some t

/-- Every register field named lies within the party's allotment (R203). -/
def Allotted (s : State) (r : ThreadRef) (regs : List (BitVec 7)) : Prop := s.dev.allotTrap r regs = none

/-- A flag select's flag can take one more operation (R247). -/
def FlagFree (t : Thread) (f : BitVec 1) : Prop := t.flagFull (t.flagOf f) = false

/-! ## Translation stalls (R77, R79) -/

/-- The addresses that a thread in a translation stall waits for. -/
def Thread.stalledFor (t : Thread) : List Nat :=
  match t.wait with
  | .translation _ vas => vas
  | _ => []

/-- The device when a party that waits for some addresses has met the walker. -/
def Dev.passed (d : Dev) (r : ThreadRef) (vas : List Nat) : Dev :=
  match d.gateOf r vas with
  | .go d => d
  | .wait d => d
  | .stuck => d

/-- The party `r`, of thread `t`, has stalled since `start` in the instruction `i`, and nothing is left to be read for it: every walk
and bitmap read that it waits for can end now. -/
structure Stalled (s : State) (r : ThreadRef) (t : Thread) (start : Nat) (i : Instr) (len : Nat) : Prop where
  thread : s.dev.thread r = some t
  wait : t.wait = .translation start t.stalledFor
  head : t.head = some (.ok i len)
  gate : s.dev.gateOf r t.stalledFor = .go (s.dev.passed r t.stalledFor)
  issues : (s.dev.passed r t.stalledFor).mayIssue r t = true

/-- The device at the end of a stall that began at `start`: the party's walks ended, the cycles counted, the party no longer held. -/
def Dev.translated (d : Dev) (r : ThreadRef) (start : Nat) : Dev :=
  (d.passed r (((d.thread r).map Thread.stalledFor).getD [])).stallOver r start

/-- The state with its party's instruction in a translation stall for some accesses (R79). -/
def State.stalls (s : State) (r : ThreadRef) (l : List LaneAccess) : State := { s with dev := s.dev.stall r (addresses l) }

/-! ## What instructions leave -/

/-- The state after an instruction of `len` words that changes the lanes of a mask: the lanes, then the next instruction. -/
def State.afterLanes (s : State) (r : ThreadRef) (m : Word) (len : Nat) (f : Nat → Lane → Lane) : State :=
  { s with dev := (s.dev.onThread r fun t => t.mapLanes (isSeq r) m f).retire r len }

/-- The state after an instruction of `len` words that changes its thread as a whole. -/
def State.afterThread (s : State) (r : ThreadRef) (len : Nat) (f : Thread → Thread) : State :=
  { s with dev := (s.dev.onThread r f).retire r len }

/-- The state after a transfer of control (R297): the lanes go where the moves say. -/
def State.afterTransfer (s : State) (r : ThreadRef) (f : Thread → Thread) (moves : List Move) : State :=
  { s with dev := (s.dev.onThread r f).transfer r moves }

/-- The state with its party's instruction held. -/
def State.held (s : State) (r : ThreadRef) (w : Wait) : State := { s with dev := s.dev.hold r w }

/-- The state in which the instruction in progress has trapped (R391). -/
def State.trapped (s : State) (r : ThreadRef) (k : TrapInfo) : State := { s with dev := s.dev.raise r k }

/-- The state with another device. -/
def State.withDev (s : State) (d : Dev) : State := { s with dev := d }

/-! ## What every step keeps -/

/-- The fuses of a part: at most 255 raises, each of which raised the version by at least 1 (R447). -/
def Fuses.Legal (f : Fuses) : Prop := f.raises ≤ 255 ∧ f.raises ≤ f.secver.toNat

/-- Fuses after others: the version and the raises have not fallen, no revoked slot has come back, the keys are the same (R447, R449). -/
def Fuses.AtLeast (f old : Fuses) : Prop :=
  old.secver.toNat ≤ f.secver.toNat ∧ old.raises ≤ f.raises ∧ old.revoked &&& f.revoked = old.revoked ∧ f.keys = old.keys

/-- The devices of a state: the package, and what each running replay has of it (R442). -/
def State.devices (s : State) : List Dev := s.dev :: s.replays.map Replay.dev

/-- Both memories of a device in their one canonical form. -/
def Dev.Canonical (d : Dev) : Prop := Memory.wf d.mem = true ∧ Memory.wf d.hostMem = true

/-- Frontier order, with one entry at each PC (R195). -/
def InOrder (f : List Entry) : Prop := f.Pairwise fun a b => a.before b = true ∧ a.pc ≠ b.pc

/-- The frontier of every thread of a device in order, and of the sequencer programs that its images hold. -/
def Dev.FrontiersInOrder (d : Dev) : Prop :=
  (∀ p ∈ d.threads, InOrder p.2.frontier) ∧ ∀ i ∈ d.images, ∀ q ∈ i.seqs, InOrder q.2.2.thread.frontier

end Sys2Proof.Machine
end

