-- ==== Sys2Proof/Certificates/Slice0/Obligations.lean ====
section
/-! DEFINITION. The statements for the provers, by subject. Each docstring names the rules of spec/ it formalises. -/

section

open Sys2Proof Sys2Proof.Machine

/-! ## Register instructions: what they write -/

/-- R278, R275: every instruction of the three-register form writes, in each taking-part lane, the value the table gives, an x
destination with the interval the operation gives, and goes on. -/
def Obligations.IntegerThreeRegister : Prop :=
  ∀ (s : State) (r : ThreadRef) (t : Thread) (d a b : BitVec 7) (g : BitVec 3), Issues s r t → Allotted s r [d, a, b] →
    let gives := fun (f : Word → Word → Word) (i : Ivl → Ivl → Ivl) => (Host.Outcome.next
      (s.afterLanes r (t.taking (shortGuard g)) 1 fun _ l => l.setI d (f (l.get a) (l.get b)) (i (l.ivl a) (l.ivl b))) : Out)
    let top := fun (_ _ : Ivl) => ivlTop
    exec (.iadd d a b g) s = gives (fun x y => x + y) ivlAdd ∧
    exec (.isub d a b g) s = gives (fun x y => x - y) ivlSub ∧
    exec (.imul d a b g) s = gives (fun x y => x * y) ivlMul ∧
    exec (.imulhi d a b g) s = gives (fun x y => BitVec.ofInt 32 ((x.toInt * y.toInt) / 2 ^ 32)) top ∧
    exec (.imin d a b g) s = gives (fun x y => if y.slt x then y else x) ivlMin ∧
    exec (.imax d a b g) s = gives (fun x y => if y.slt x then x else y) ivlMax ∧
    exec (.and d a b g) s = gives (fun x y => x &&& y) ivlAnd ∧
    exec (.or d a b g) s = gives (fun x y => x ||| y) top ∧
    exec (.xor d a b g) s = gives (fun x y => x ^^^ y) top ∧
    exec (.shl d a b g) s = gives (fun x y => if 32 ≤ y.toNat then 0 else x <<< y) ivlShl ∧
    exec (.shr d a b g) s = gives (fun x y => if 32 ≤ y.toNat then 0 else x >>> y) ivlShr ∧
    exec (.sar d a b g) s = gives (fun x y => if 32 ≤ y.toNat then (if x.msb then 0xFFFFFFFF else 0) else x.sshiftRight y.toNat) ivlSar ∧
    exec (.rot d a b g) s = gives (fun x y => (x <<< (y.toNat % 32)) ||| (x >>> (32 - y.toNat % 32))) top

/-- R279 to R283, R275: the other integer arithmetic, with its result in each taking-part lane; an x destination gets interval
top. BFE and BFI read the field specification of R280. -/
def Obligations.IntegerFormulas : Prop :=
  ∀ (s : State) (r : ThreadRef) (t : Thread) (d a b c : BitVec 7) (sg rnd : BitVec 3) (g : Guard) (opx opy : BitVec 2)
    (na nb nc : BitVec 1), Issues s r t → Allotted s r [d, a, b, c] →
    let gives := fun (g : Guard) (n : Nat) (f : Lane → Word) =>
      (Host.Outcome.next (s.afterLanes r (t.taking g) n fun _ l => l.set d (f l)) : Out)
    let pos := fun (x : Word) => x.toNat % 32
    let width := fun (x : Word) => min (min (x.toNat / 2 ^ 8 % 64) 32) (32 - pos x)
    let mask := fun (x : Word) => BitVec.ofNat 32 ((2 ^ width x - 1) * 2 ^ pos x)
    let inv := fun (n : BitVec 1) (x : Word) => if n = 1 then ~~~x else x
    exec (.imad d a b sg c rnd) s = gives (shortGuard sg) 2 (fun l => l.get a * l.get b + l.get c) ∧
    exec (.bfe d a b sg) s = gives (shortGuard sg) 1 (fun l =>
      let x := (l.get a).toNat / 2 ^ pos (l.get b) % 2 ^ width (l.get b)
      if width (l.get b) = 0 then 0
      else if (l.get b).getLsbD 16 ∧ 2 ^ (width (l.get b) - 1) ≤ x then BitVec.ofInt 32 ((x : Int) - 2 ^ width (l.get b))
      else BitVec.ofNat 32 x) ∧
    exec (.bfi d a b c rnd) s = gives unguarded 2 (fun l =>
      (l.get c &&& ~~~(mask (l.get b))) ||| ((l.get a <<< pos (l.get b)) &&& mask (l.get b))) ∧
    exec (.blend d a b sg c rnd opx opy na nb nc) s = gives (shortGuard sg) 2 (fun l =>
      let x := inv na (l.get a)
      let y := inv nb (l.get b)
      let z := inv nc (l.get c)
      let m := if opx = 0 then x &&& y else if opx = 1 then x ||| y else if opx = 2 then x ^^^ y else y
      if opy = 0 then m &&& z else if opy = 1 then m ||| z else if opy = 2 then m ^^^ z else (m &&& z) ||| (x &&& ~~~z)) ∧
    exec (.iabs d a g) s = gives g 1 (fun l => if (l.get a).msb then -(l.get a) else l.get a) ∧
    exec (.ineg d a g) s = gives g 1 (fun l => -(l.get a)) ∧
    exec (.not d a g) s = gives g 1 (fun l => 0xFFFFFFFF ^^^ l.get a) ∧
    exec (.popc d a g) s = gives g 1 (fun l => BitVec.ofNat 32 ((List.range 32).filter fun n => (l.get a).getLsbD n).length) ∧
    exec (.clz d a g) s = gives g 1 (fun l => if l.get a = 0 then 32 else BitVec.ofNat 32 (31 - (l.get a).toNat.log2)) ∧
    exec (.brev d a g) s = gives g 1 (fun l => (l.get a).reverse)

/-- R279: IMULW writes the 64-bit signed product to the pair d, its low word to d. R281: IDIV.step shifts the pair's quotient and
remainder words left by one and subtracts the divisor where it fits. R281: 32 steps from the dividend and a zero remainder
leave the unsigned quotient and remainder; with a zero divisor they leave all ones and the dividend. -/
def Obligations.PairArithmetic : Prop :=
  (∀ (s : State) (r : ThreadRef) (t : Thread) (d a b : BitVec 7) (g rnd : BitVec 3), Issues s r t →
    (Allotted s r [d, d + 1, a, b] → exec (.imulw d a b g rnd) s = .next (s.afterLanes r (t.taking (shortGuard g)) 2 fun _ l =>
      let p : DWord := (l.get a).signExtend 64 * (l.get b).signExtend 64
      (l.set d (p.setWidth 32)).set (d + 1) ((p >>> 32).setWidth 32))) ∧
    (Allotted s r [d, d + 1, a, a + 1, b] → exec (.idivStep d a b g) s = .next (s.afterLanes r (t.taking (shortGuard g)) 1 fun _ l =>
      let m : BitVec 33 := l.get (a + 1) ++ (l.get a).extractLsb' 31 1
      let b33 : BitVec 33 := (l.get b).setWidth 33
      let q := l.get a <<< 1
      if b33 ≤ m then (l.set d (q ||| 1)).set (d + 1) ((m - b33).setWidth 32)
      else (l.set d q).set (d + 1) (m.setWidth 32)))) ∧
  (∀ (q b : Word),
    let step := fun (p : Word × Word) => divStep p.1 p.2 b
    let run := (List.range 32).foldl (fun p _ => step p) (q, 0)
    run = if b = 0 then (0xFFFFFFFF, q) else (q / b, q % b))

/-- R284 to R287: comparison, selection, moves and immediates. ISET writes a predicate and no register; SEL and MOVI are
unguarded; MOV's modes 2 and 3 write a uniform register when some lane takes part. -/
def Obligations.CompareSelectMove : Prop :=
  ∀ (s : State) (r : ThreadRef) (t : Thread) (pd cond p : BitVec 3) (d a b : BitVec 7) (g : Guard) (imm : BitVec 16),
    Issues s r t →
    (Allotted s r [a, b] → exec (.iset pd a b cond g) s = .next (s.afterLanes r (t.taking g) 1 fun _ l =>
      let x := l.get a
      let y := l.get b
      l.setP pd (match cond.toNat with
        | 0 => x == y
        | 1 => x != y
        | 2 => x.slt y
        | 3 => x.sle y
        | 4 => y.slt x
        | 5 => y.sle x
        | 6 => x.ult y
        | _ => y.ule x)) ∧
      exec (.iset 7 a b cond g) s = .next (s.afterLanes r (t.taking g) 1 fun _ l => l)) ∧
    (Allotted s r [d, a, b] →
      exec (.sel d a b 7) s = .next (s.afterLanes r (t.taking unguarded) 1 fun _ l => l.set d (l.get a)) ∧
      exec (.sel d a b p) s = .next (s.afterLanes r (t.taking unguarded) 1 fun _ l => l.set d (if l.pr p then l.get a else l.get b))) ∧
    (Allotted s r [d, a] →
      exec (.mov d a 0 g) s = .next (s.afterLanes r (t.taking g) 1 fun _ l => l.setI d (l.get a) (l.ivl a))) ∧
    (Allotted s r [d] →
      exec (.mov d a 1 g) s = .next (s.afterLanes r (t.taking g) 1 fun _ l => l.set d (t.sreg (a.toNat % 32)))) ∧
    (Allotted s r [a] → exec (.mov d a 2 g) s = .next (s.afterThread r 1 fun _ =>
      if t.taking g = 0 then t else t.setS (d.toNat % 32) ((t.lane (lowest (t.taking g))).get a))) ∧
    exec (.mov d a 3 g) s = .next (s.afterThread r 1 fun _ =>
      if t.taking g = 0 then t else t.setS (d.toNat % 32) (t.sreg (a.toNat % 32))) ∧
    (Allotted s r [d] →
      exec (.movi d imm) s = .next (s.afterLanes r (t.taking unguarded) 1 fun _ l =>
        l.setI d (imm.signExtend 32) ⟨imm.toInt, imm.toInt⟩) ∧
      exec (.moviHi d imm) s = .next (s.afterLanes r (t.taking unguarded) 1 fun _ l =>
        l.set d (((imm.setWidth 32) <<< 16) ||| (l.get d &&& 0xFFFF))))

/-- R288, R194, R25: MOVS in a warp of a group `gr` writes the special register of each taking-part lane with the table's
interval, or with u = 1 a uniform register when some lane takes part. -/
def Obligations.SpecialRegisters : Prop :=
  ∀ (s : State) (gid wid : Nat) (t : Thread) (gr : Group) (d : BitVec 7) (num : BitVec 8) (g : Guard),
    Issues s (.warp gid wid) t → s.dev.group gid = some gr → num.toNat < 12 →
    let value := fun (lane : Nat) => BitVec.ofNat 32 ([lane, wid, gr.warps.length, if gr.gangSize = 1 then 0 else gr.member,
      gr.gangSize, gr.core.die * 128 + (if gr.core.home then 64 else 0) + gr.core.idx, gr.ctx, gr.job % 256, s.dev.pkgNum,
      t.unack, gr.privBase % 2 ^ 32, gr.privBase / 2 ^ 32].getD num.toNat 0)
    let ivl := [⟨0, 31⟩, ⟨0, 31⟩, ⟨1, 32⟩, ⟨0, 3⟩, ⟨1, 4⟩, ivlTop, ⟨0, 4095⟩, ⟨0, 255⟩, ⟨0, 8191⟩, ⟨0, 1023⟩].getD num.toNat ivlTop
    (Allotted s (.warp gid wid) [d] →
      exec (.movs d num 0 g) s = .next (s.afterLanes (.warp gid wid) (t.taking g) 1 fun n l => l.setI d (value n) ivl)) ∧
    exec (.movs d num 1 g) s = .next (s.afterThread (.warp gid wid) 1 fun t =>
      if t.taking g = 0 then t else t.setS (d.toNat % 32) (value 0))

/-- R289, R275: the index form writes the value as the integer instruction computes it, with the interval of its operation; the
third operand is an x register, or with i = 1 the signed immediate, or an amount in its five low bits. -/
def Obligations.IndexArithmetic : Prop :=
  ∀ (s : State) (r : ThreadRef) (t : Thread) (d a : BitVec 4) (i : BitVec 1) (b : BitVec 11) (g : Guard), Issues s r t →
    Allotted s r ([xField d, xField a] ++ if i = 1 then [] else [xField (b.extractLsb' 0 4)]) →
    let ivlOf := fun (x : XReg) => (⟨x.lo.toInt, x.hi.toInt⟩ : Ivl)
    let opd := fun (l : Lane) => if i = 1 then (b.signExtend 32, (⟨b.toInt, b.toInt⟩ : Ivl))
      else ((l.xr (b.toNat % 16)).v, ivlOf (l.xr (b.toNat % 16)))
    let amount := fun (l : Lane) => if i = 1 then (BitVec.ofNat 32 (b.toNat % 32), ivlConst ((b.toNat % 32 : Nat) : Int))
      else ((l.xr (b.toNat % 16)).v, ivlOf (l.xr (b.toNat % 16)))
    let gives := fun (o : Lane → Word × Ivl) (f : Word → Word → Word) (v : Ivl → Ivl → Ivl) => (Host.Outcome.next
      (s.afterLanes r (t.taking g) 1 fun _ l =>
        l.setX d.toNat (f (l.xr a.toNat).v (o l).1) (v (ivlOf (l.xr a.toNat)) (o l).2)) : Out)
    exec (.xadd d a i b g) s = gives opd (fun x y => x + y) ivlAdd ∧
    exec (.xsub d a i b g) s = gives opd (fun x y => x - y) ivlSub ∧
    exec (.xmul d a i b g) s = gives opd (fun x y => x * y) ivlMul ∧
    exec (.xshl d a i b g) s = gives amount (fun x y => if 32 ≤ y.toNat then 0 else x <<< y) ivlShl ∧
    exec (.xshr d a i b g) s = gives amount (fun x y => if 32 ≤ y.toNat then (if x.msb then 0xFFFFFFFF else 0) else x.sshiftRight y.toNat) ivlSar ∧
    exec (.xmin d a i b g) s = gives opd (fun x y => if y.slt x then y else x) ivlMin ∧
    exec (.xmax d a i b g) s = gives opd (fun x y => if y.slt x then x else y) ivlMax ∧
    exec (.xand d a i b g) s = gives opd (fun x y => x &&& y) ivlAnd

/-- R290 to R295: index moves and assertions. XSET completes in `.mask` mode always, and in `.trap` mode when every taking-part
lane keeps the bounds; with a lane that does not, `.trap` mode takes XRANGE at the lowest such lane and performs no lane. -/
def Obligations.IndexMoves : Prop :=
  ∀ (s : State) (r : ThreadRef) (t : Thread) (d a : BitVec 4) (src : BitVec 7) (k : BitVec 4) (p ty : BitVec 3) (h : BitVec 1)
    (g : Guard), Issues s r t → Allotted s r [xField d, xField a, src] → ty.toNat < 5 →
    let lo := (t.sreg (2 * k.toNat)).toInt
    let hi := (t.sreg (2 * k.toNat + 1)).toInt
    let ok := fun (l : Lane) => decide (lo ≤ (l.get src).toInt) && decide ((l.get src).toInt ≤ hi)
    let failing := maskOf fun n => (t.taking g).getLsbD n && !ok (t.lane n)
    exec (.xmov d a g) s = .next (s.afterLanes r (t.taking g) 1 fun _ l => { l with x := l.x.set d.toNat (l.xr a.toNat) }) ∧
    exec (.xset d src k 0 p g) s = .next (s.afterLanes r (t.taking g) 1 fun _ l =>
      (if ok l then l.setX d.toNat (l.get src) ⟨lo, hi⟩ else l).setP p (!ok l)) ∧
    (failing = 0 → exec (.xset d src k 1 p g) s = .next (s.afterLanes r (t.taking g) 1 fun _ l =>
      if ok l then l.setX d.toNat (l.get src) ⟨lo, hi⟩ else l)) ∧
    (failing ≠ 0 → exec (.xset d src k 1 p g) s = .next (s.trapped r ⟨causeXrange, 0, 0, BitVec.ofNat 8 (lowest failing)⟩)) ∧
    exec (.xclamp d src k g) s = .next (s.afterLanes r (t.taking g) 1 fun _ l =>
      if lo ≤ hi then l.setX d.toNat (BitVec.ofInt 32 (min (max (l.get src).toInt lo) hi)) ⟨lo, hi⟩
      else l.setX d.toNat (l.get src) ivlTop) ∧
    exec (.xfrom d src ty g) s = .next (s.afterLanes r (t.taking g) 1 fun _ l =>
      let v := l.get src
      match ty.toNat with
      | 0 => l.setX d.toNat v ivlTop
      | 1 => l.setX d.toNat ((v.setWidth 16).signExtend 32) ⟨-32768, 32767⟩
      | 2 => l.setX d.toNat ((v.setWidth 16).setWidth 32) ⟨0, 65535⟩
      | 3 => l.setX d.toNat ((v.setWidth 8).signExtend 32) ⟨-128, 127⟩
      | _ => l.setX d.toNat ((v.setWidth 8).setWidth 32) ⟨0, 255⟩) ∧
    exec (.xrd src a h g) s = .next (s.afterLanes r (t.taking g) 1 fun _ l =>
      l.set src (if h = 1 then (l.xr a.toNat).hi else (l.xr a.toNat).lo)) ∧
    exec (.xwiden d k g) s = .next (s.afterLanes r (t.taking g) 1 fun _ l =>
      let x := l.xr d.toNat
      l.setX d.toNat x.v (if lo ≤ x.lo.toInt ∧ x.hi.toInt ≤ hi ∧ lo ≤ hi then ⟨lo, hi⟩ else ivlTop))

/-- R274, R275: each rule of intervals keeps the interval invariant: where the operands' values lie in their intervals, and
these within the signed 32-bit range, the result's value lies in the interval written. -/
def Obligations.IntervalsAreSound : Prop :=
  ∀ (x y : Word) (i j : Ivl), ivlHas i x = true → ivlHas j y = true → ivlTop.lo ≤ i.lo → i.hi ≤ ivlTop.hi → ivlTop.lo ≤ j.lo →
    j.hi ≤ ivlTop.hi →
    ivlHas (ivlAdd i j) (x + y) = true ∧ ivlHas (ivlSub i j) (x - y) = true ∧ ivlHas (ivlMul i j) (x * y) = true ∧
    ivlHas (ivlShl i j) (shl32 x y) = true ∧ ivlHas (ivlShr i j) (shr32 x y) = true ∧ ivlHas (ivlSar i j) (sar32 x y) = true ∧
    ivlHas (ivlMin i j) (smin x y) = true ∧ ivlHas (ivlMax i j) (smax x y) = true ∧ ivlHas (ivlAnd i j) (x &&& y) = true

/-- R307, R221, R226: FADD, FSUB, FMUL and FFMA write the exact result of their operands rounded once, in each taking-part lane;
under rounding code 4 the lane's generator advances once and gives the random bits. R311 to R313: classification of a half format's
element 0, packed-half arithmetic on both elements, each rounded once in element order, and the two-way dot product. -/
def Obligations.FloatArithmetic : Prop :=
  (∀ (s : State) (r : ThreadRef) (t : Thread) (d a b c : BitVec 7) (g rnd : BitVec 3) (sat ftz : BitVec 1), Issues s r t →
    Allotted s r [d, a, b, c] →
    let value := fun (x : Word) => fp32.decodeFtz (ftz = 1) x.toNat
    let down : Bool := rnd = 3
    let gives := fun (f : Lane → FVal) => (Host.Outcome.next (s.afterLanes r (t.taking (shortGuard g)) 2 fun _ l =>
      let gen := genNext l.gen
      let bits := fun (rb : Nat) => BitVec.ofNat 32 (fp32.round rnd.toNat rb (sat = 1) (ftz = 1) (f l))
      if rnd = 4 then ({ l with gen := gen } : Lane).set d (bits (genBits gen)) else l.set d (bits 0)) : Out)
    exec (.fadd d a b g rnd sat ftz) s = gives (fun l => (value (l.get a)).add down (value (l.get b))) ∧
    exec (.fsub d a b g rnd sat ftz) s = gives (fun l => (value (l.get a)).add down (value (l.get b)).neg) ∧
    exec (.fmul d a b g rnd sat ftz) s = gives (fun l => (value (l.get a)).mul (value (l.get b))) ∧
    exec (.ffma d a b g c rnd sat ftz) s =
      gives (fun l => ((value (l.get a)).mul (value (l.get b))).add down (value (l.get c)))) ∧
  (∀ (s : State) (r : ThreadRef) (t : Thread) (d a b c : BitVec 7) (sg rnd : BitVec 3) (g : Guard) (sat ftz : BitVec 1)
    (sfmt : BitVec 4), Issues s r t → Allotted s r [d, a, b, c] → sfmt = 9 ∨ sfmt = 10 →
    let fmt := if sfmt = 9 then fp16 else bf16
    let element := fun (x : Word) (i : Nat) => x.toNat / 2 ^ (16 * i) % 2 ^ 16
    let value := fun (x : Word) (i : Nat) => fmt.decodeFtz (ftz = 1) (element x i)
    let down : Bool := rnd = 3
    let gives := fun (f : Lane → Nat → FVal) => (Host.Outcome.next (s.afterLanes r (t.taking (shortGuard sg)) 2 fun _ l =>
      let bits := fun (rb i : Nat) => fmt.round rnd.toNat rb (sat = 1) (ftz = 1) (f l i)
      let word := fun (x y : Nat) => BitVec.ofNat 32 (x + 2 ^ 16 * y)
      let g1 := genNext l.gen
      let g2 := genNext g1
      if rnd = 4 then ({ l with gen := g2 } : Lane).set d (word (bits (genBits g1) 0) (bits (genBits g2) 1))
      else l.set d (word (bits 0 0) (bits 0 1))) : Out)
    exec (.hadd2 d a b sg rnd sat ftz sfmt) s = gives (fun l i => (value (l.get a) i).add down (value (l.get b) i)) ∧
    exec (.hmul2 d a b sg rnd sat ftz sfmt) s = gives (fun l i => (value (l.get a) i).mul (value (l.get b) i)) ∧
    exec (.hfma2 d a b sg c rnd sat ftz sfmt) s =
      gives (fun l i => ((value (l.get a) i).mul (value (l.get b) i)).add down (value (l.get c) i)) ∧
    exec (.fdot2 d a b sg c rnd sat ftz sfmt) s = .next (s.afterLanes r (t.taking (shortGuard sg)) 2 fun _ l =>
      let f := fun (rb : Nat) => BitVec.ofNat 32 (fDot2 fmt rnd.toNat rb (sat = 1) (ftz = 1) (l.get a).toNat (l.get b).toNat (l.get c).toNat)
      if rnd = 4 then ({ l with gen := genNext l.gen } : Lane).set d (f (genBits (genNext l.gen))) else l.set d (f 0)) ∧
    exec (.fclass d a 1 g) s = .next (s.afterLanes r (t.taking g) 1 fun _ l =>
      l.set d (BitVec.ofNat 32 (fClass fp16 (element (l.get a) 0)))) ∧
    exec (.fclass d a 2 g) s = .next (s.afterLanes r (t.taking g) 1 fun _ l =>
      l.set d (BitVec.ofNat 32 (fClass bf16 (element (l.get a) 0)))))

/-- R308 to R311: minimum and maximum, the sign instructions, comparison and classification of binary32 values, said of their
bits: the order of finite values and infinities is that of the magnitude bits with the sign, −0 below +0 for FMIN and FMAX
only. R307: a NaN operand gives the canonical NaN, and so do ∞ − ∞, 0 × ∞ and, in FFMA, an infinite product with an infinity
of the other sign, under every rounding, saturation and flush setting. -/
def Obligations.FloatComparison : Prop :=
  (∀ (s : State) (r : ThreadRef) (t : Thread) (d a b : BitVec 7) (sg pd cond : BitVec 3) (g : Guard), Issues s r t →
    Allotted s r [d, a, b] →
    let mag := fun (x : Word) => (x.toNat % 2 ^ 31 : Nat)
    let nan := fun (x : Word) => decide (0x7F800000 < mag x)
    let key := fun (x : Word) => if x.msb then -(mag x : Int) else (mag x : Int)
    let key0 := fun (x : Word) => if x.msb then -(mag x : Int) - 1 else (mag x : Int)
    let pick := fun (less : Bool) (x y : Word) =>
      if nan x && nan y then 0x7FC00000 else if nan x then y else if nan y then x
      else if (if less then key0 x ≤ key0 y else key0 y ≤ key0 x) then x else y
    let goes := fun (g : Guard) (f : Lane → Word) => (Host.Outcome.next (s.afterLanes r (t.taking g) 1 fun _ l => l.set d (f l)) : Out)
    exec (.fmin d a b sg) s = goes (shortGuard sg) (fun l => pick true (l.get a) (l.get b)) ∧
    exec (.fmax d a b sg) s = goes (shortGuard sg) (fun l => pick false (l.get a) (l.get b)) ∧
    exec (.fabs d a g) s = goes g (fun l => l.get a &&& 0x7FFFFFFF) ∧
    exec (.fneg d a g) s = goes g (fun l => l.get a ^^^ 0x80000000) ∧
    exec (.fabsH2 d a g) s = goes g (fun l => l.get a &&& 0x7FFF7FFF) ∧
    exec (.fnegH2 d a g) s = goes g (fun l => l.get a ^^^ 0x80008000) ∧
    exec (.fset pd a b cond g) s = .next (s.afterLanes r (t.taking g) 1 fun _ l =>
      let x := l.get a
      let y := l.get b
      let some_ := nan x || nan y
      l.setP pd (match cond.toNat with
        | 0 => !some_ && decide (key x = key y)
        | 1 => some_ || decide (key x ≠ key y)
        | 2 => !some_ && decide (key x < key y)
        | 3 => !some_ && decide (key x ≤ key y)
        | 4 => !some_ && decide (key y < key x)
        | 5 => !some_ && decide (key y ≤ key x)
        | 6 => !some_
        | _ => some_)) ∧
    exec (.fset 7 a b cond g) s = .next (s.afterLanes r (t.taking g) 1 fun _ l => l) ∧
    exec (.fclass d a 0 g) s = goes g (fun l =>
      let x := l.get a
      let e := mag x / 2 ^ 23
      let m := mag x % 2 ^ 23
      let size := if e = 255 then (if m = 0 then 0 else 9) else if e ≠ 0 then 1 else if m ≠ 0 then 2 else 3
      BitVec.ofNat 32 (if size = 9 then 2 ^ 8 else if x.msb then 2 ^ size else 2 ^ (7 - size)))) ∧
  (∀ (mode rb : Nat) (sat ftz : Bool) (a b c : Word),
    let nan := fun (x : Word) => 0x7F800000 < x.toNat % 2 ^ 31
    let canon := 0x7FC00000
    (nan a ∨ nan b → fAdd fp32 mode rb sat ftz a.toNat b.toNat = canon ∧ fSub fp32 mode rb sat ftz a.toNat b.toNat = canon ∧
      fMul fp32 mode rb sat ftz a.toNat b.toNat = canon) ∧
    (nan a ∨ nan b ∨ nan c → fFma fp32 mode rb sat ftz a.toNat b.toNat c.toNat = canon) ∧
    fAdd fp32 mode rb sat ftz 0x7F800000 0xFF800000 = canon ∧ fSub fp32 mode rb sat ftz 0x7F800000 0x7F800000 = canon ∧
    (a.toNat % 2 ^ 31 = 0 → fMul fp32 mode rb sat ftz a.toNat 0x7F800000 = canon ∧
      fMul fp32 mode rb sat ftz 0xFF800000 a.toNat = canon) ∧
    (a.toNat % 2 ^ 31 = 0x7F800000 → b.toNat % 2 ^ 31 = 0x7F800000 → c.toNat % 2 ^ 31 = 0x7F800000 →
      (a.msb != b.msb) ≠ c.msb → fFma fp32 mode rb sat ftz a.toNat b.toNat c.toNat = canon))

/-- R314 to R316: every special function writes its result in each taking-part lane, rounded once; code 4 advances the lane's
generator. The values of EX2, LG2, RSQ, SIN, COS, TANH and ERF within the rules' bounds are free (log 3). -/
def Obligations.SpecialFunctions : Prop :=
  ∀ (s : State) (r : ThreadRef) (t : Thread) (d a : BitVec 7) (rnd : BitVec 3) (ftz : BitVec 1) (g : Guard), Issues s r t →
    Allotted s r [d, a] →
    let gives := fun (f : Nat → Word → Nat) => (Host.Outcome.next (s.afterLanes r (t.taking g) 1 fun _ l =>
      if rnd = 4 then ({ l with gen := genNext l.gen } : Lane).set d (BitVec.ofNat 32 (f (genBits (genNext l.gen)) (l.get a)))
      else l.set d (BitVec.ofNat 32 (f 0 (l.get a)))) : Out)
    exec (.ex2 d a rnd ftz g) s = gives (fun _ x => fEx2 (ftz = 1) x) ∧
    exec (.lg2 d a rnd ftz g) s = gives (fun _ x => fLg2 (ftz = 1) x) ∧
    exec (.rcp d a rnd ftz g) s = gives (fun rb x => fRcp rnd.toNat rb (ftz = 1) x.toNat) ∧
    exec (.rsq d a rnd ftz g) s = gives (fun _ x => fRsq (ftz = 1) x) ∧
    exec (.sqrt d a rnd ftz g) s = gives (fun rb x => fSqrt rnd.toNat rb (ftz = 1) x.toNat) ∧
    exec (.sin d a rnd ftz g) s = gives (fun _ x => fTrig false (ftz = 1) x) ∧
    exec (.cos d a rnd ftz g) s = gives (fun _ x => fTrig true (ftz = 1) x) ∧
    exec (.tanh d a rnd ftz g) s = gives (fun _ x => fSigmoid false (ftz = 1) x) ∧
    exec (.erf d a rnd ftz g) s = gives (fun _ x => fSigmoid true (ftz = 1) x)

/-- R317 to R321, R226: conversions write their destination, a pair for INT64; PACK and UNPACK go through their elements in
ascending order; AMAX takes the greatest magnitude of the lane's elements, or of every taking-part lane's; SEED sets the
generator, zero replaced by the constant of R227. -/
def Obligations.Conversions : Prop :=
  ∀ (s : State) (r : ThreadRef) (t : Thread) (d a b scale : BitVec 7) (sc sat ftz w u : BitVec 1) (g : Guard) (rnd : BitVec 3)
    (dfmt sfmt : BitVec 4) (fmt : BitVec 2), Issues s r t →
    let scales := if sc = 1 then [scale] else []
    let k := fun (l : Lane) => if sc = 1 then some (l.get scale) else none
    let bits := fun (l : Lane) => if rnd = 4 then genBits (genNext l.gen) else 0
    let next := fun (l : Lane) => if rnd = 4 then ({ l with gen := genNext l.gen } : Lane) else l
    let source := fun (l : Lane) => if sfmt = 3 then (l.pair a).toNat else (l.get a).toNat
    (Allotted s r (cvtRegs d dfmt ++ cvtRegs a sfmt ++ scales) → exec (.cvt d a sc g rnd sat ftz dfmt sfmt scale) s = .next (s.afterLanes r (t.taking g) 2 fun _ l =>
      let v := convert dfmt sfmt rnd.toNat (bits l) (sat = 1) (ftz = 1) (k l) (source l)
      if dfmt = 3 then (next l).setPair d (BitVec.ofNat 64 v) else (next l).set d (BitVec.ofNat 32 v))) ∧
    (Allotted s r [d, a, b] → exec (.cvt8 d a b rnd sat ftz dfmt) s = .next (s.afterLanes r (t.taking unguarded) 2 fun _ l =>
      (next l).set d (BitVec.ofNat 32 (convert8 dfmt rnd.toNat (bits l) (sat = 1) (ftz = 1) (l.get a) (l.get b))))) ∧
    (Allotted s r ([d] ++ regRun a (packCount dfmt) ++ scales) → exec (.pack d a sc g rnd sat ftz dfmt sfmt scale) s = .next (s.afterLanes r (t.taking g) 2 fun _ l =>
      let q := packFrom l a rnd (sat = 1) (ftz = 1) dfmt (k l) (packCount dfmt) 0 l
      q.2.set d (BitVec.ofNat 32 q.1))) ∧
    (Allotted s r (regRun d (packCount sfmt) ++ [a] ++ scales) → exec (.unpack d a sc g rnd sat ftz dfmt sfmt scale) s = .next (s.afterLanes r (t.taking g) 2 fun _ l =>
      unpackFrom (l.get a) d rnd (sat = 1) (ftz = 1) sfmt (k l) (packCount sfmt) 0 l)) ∧
    (Allotted s r [d, a] → exec (.amax d a fmt w g) s = .next (s.afterLanes r (t.taking g) 1 fun _ l =>
      l.set d (BitVec.ofNat 32 (absMax (if w = 1 then
          (maskLanes (t.taking g)).flatMap fun n => absElements fmt ((t.lane n).get a)
        else absElements fmt (l.get a)))))) ∧
    (Allotted s r (if u = 1 then [] else [a, a + 1]) → exec (.seed a u g) s = .next (s.afterLanes r (t.taking g) 1 fun _ l =>
      let v := if u = 1 then t.spair (a.toNat % 32) else l.pair a
      { l with gen := if v = 0 then 0x9E3779B97F4A7C15 else v }))

/-- R322 to R327, R237, R238: the cross-lane instructions see the active lanes of the issuing entry, votes and matches the
taking-part ones; SHFL from a lane that is not active gives the lane's own value. -/
def Obligations.CrossLane : Prop :=
  ∀ (s : State) (r : ThreadRef) (t : Thread) (d a b : BitVec 7) (i x k n : BitVec 1) (lane : BitVec 5) (ps pd : BitVec 3)
    (op : BitVec 4) (g : Guard), Issues s r t → Allotted s r ([d, a] ++ if i = 1 then [] else [b]) →
    let from_ := fun (l : Lane) (j : Int) =>
      if 0 ≤ j ∧ j < 32 ∧ t.active.getLsbD j.toNat = true then (t.lane j.toNat).get a else l.get a
    let amount := fun (l : Lane) => if i = 1 then b.toNat % 32 else (l.get b).toNat
    let shfl := fun (f : Nat → Nat → Int) => (Host.Outcome.next (s.afterLanes r (t.taking unguarded) 1 fun n l =>
      l.set d (from_ l (f n (amount l)))) : Out)
    let yes := maskOf fun j => (t.taking g).getLsbD j && ((t.lane j).pr ps != (n == 1))
    let same := fun (v : Word) => maskOf fun j => (t.taking g).getLsbD j && (t.lane j).get a == v
    exec (.shfl d a 0 i b) s = shfl (fun _ q => (q : Int)) ∧
    exec (.shfl d a 1 i b) s = shfl (fun m q => (m : Int) - q) ∧
    exec (.shfl d a 2 i b) s = shfl (fun m q => (m : Int) + q) ∧
    exec (.shfl d a 3 i b) s = shfl (fun m q => ((Nat.xor m q : Nat) : Int)) ∧
    exec (.shfli d a lane) s = .next (s.afterLanes r (t.taking unguarded) 1 fun _ l => l.set d (from_ l lane.toNat)) ∧
    (i = 0 → exec (.permb d a b) s = .next (s.afterLanes r (t.taking unguarded) 1 fun _ l =>
      let byte := fun (q : Nat) =>
        let sel := (l.get b).toNat / 2 ^ (4 * q) % 16
        if 8 ≤ sel then 0
        else if 4 ≤ sel then (l.get d).toNat / 2 ^ (8 * (sel - 4)) % 256 else (l.get a).toNat / 2 ^ (8 * sel) % 256
      l.set d (BitVec.ofNat 32 (byte 0 + 2 ^ 8 * byte 1 + 2 ^ 16 * byte 2 + 2 ^ 24 * byte 3)))) ∧
    exec (.voteAll ps n pd g) s = .next (s.afterLanes r (t.taking g) 1 fun _ l => l.setP pd (decide (yes = t.taking g))) ∧
    exec (.voteAny ps n pd g) s = .next (s.afterLanes r (t.taking g) 1 fun _ l => l.setP pd (decide (yes ≠ 0))) ∧
    exec (.voteBallot d ps n g) s = .next (s.afterLanes r (t.taking g) 1 fun _ l => l.set d yes) ∧
    exec (.matchAny d a pd g) s = .next (s.afterLanes r (t.taking g) 1 fun _ l =>
      (l.set d (same (l.get a))).setP pd (decide (1 < (maskLanes (same (l.get a))).length))) ∧
    exec (.matchAll d a pd g) s = .next (s.afterLanes r (t.taking g) 1 fun _ l =>
      let all := decide (same (l.get a) = t.taking g)
      (l.set d (if all then t.taking g else 0)).setP pd all) ∧
    exec (.redg d a op g) s = .next (s.afterLanes r (t.taking g) 1 fun _ l =>
      l.set d ((treeRoot (reduceOp op) ((List.range 32).map fun j =>
        if (t.taking g).getLsbD j then some ((t.lane j).get a) else none)).getD 0)) ∧
    exec (.scang d a op x k g) s = .next (s.afterLanes r (t.taking g) 1 fun m l =>
      let before := (List.range 32).filter fun j => (t.taking g).getLsbD j && (if x = 1 then decide (j < m) else decide (j ≤ m)) &&
        (k = 0 || (t.lane j).get d == l.get d)
      l.set d (match before.map fun j => (t.lane j).get a with
        | [] => reduceIdentity op
        | v :: vs => vs.foldl (reduceOp op) v))

/-- R272, R193, R274, R226: the frame of the register instructions, each with its destinations, the register fields it names, its
predicate, its guard, and whether it draws from the lane's generator. In each taking-part lane only the destinations and that
predicate change, and the generator where the instruction draws; in the other lanes nothing. Uniform registers, array registers, the
trap state, every byte of memory, host memory and scratch, every other thread and every device register stay. XSET in its `.trap`
mode has this frame where every taking-part lane keeps the bounds. -/
def Obligations.RegisterFrame : Prop :=
  ∀ (s s' : State) (gid wid : Nat) (t : Thread) (gr : Group) (i : Instr) (dests named : List (BitVec 7)) (pd : BitVec 3) (g : Guard)
    (draws : Bool) (d a b c : BitVec 7) (sg rnd cond : BitVec 3) (xd xa k op sfmt dfmt : BitVec 4) (imm : BitVec 16)
    (xi sat ftz sc u h : BitVec 1) (xb : BitVec 11) (opx opy fmt mode : BitVec 2) (na nb nc : BitVec 1) (lane : BitVec 5)
    (num : BitVec 8),
    let three := fun (i : Instr) => (i, [d], [d, a, b], (7 : BitVec 3), shortGuard sg, false)
    let two := fun (i : Instr) => (i, [d], [d, a], (7 : BitVec 3), g, false)
    let index := fun (i : Instr) =>
      (i, [xField xd], [xField xd, xField xa] ++ (if xi = 1 then [] else [xField (xb.extractLsb' 0 4)]), (7 : BitVec 3), g, false)
    let move := fun (i : Instr) (p : BitVec 3) => (i, [xField xd], [xField xd, a], p, g, false)
    let float := fun (i : Instr) (more : List (BitVec 7)) => (i, [d], [d, a, b] ++ more, (7 : BitVec 3), shortGuard sg, rnd == 4)
    let special := fun (i : Instr) => (i, [d], [d, a], (7 : BitVec 3), g, rnd == 4)
    let converts := fun (i : Instr) (dests named : List (BitVec 7)) =>
      (i, dests, dests ++ named ++ (if sc = 1 then [c] else []), (7 : BitVec 3), g, rnd == 4)
    let votes := fun (i : Instr) => (i, ([] : List (BitVec 7)), ([] : List (BitVec 7)), pd, g, false)
    (i, dests, named, pd, g, draws) ∈ [
      three (.iadd d a b sg), three (.isub d a b sg), three (.imul d a b sg), three (.imulhi d a b sg), three (.imin d a b sg),
      three (.imax d a b sg), three (.and d a b sg), three (.or d a b sg), three (.xor d a b sg), three (.shl d a b sg),
      three (.shr d a b sg), three (.sar d a b sg), three (.rot d a b sg), three (.bfe d a b sg), three (.fmin d a b sg),
      three (.fmax d a b sg), (.imad d a b sg c rnd, [d], [d, a, b, c], 7, shortGuard sg, false),
      (.bfi d a b c rnd, [d], [d, a, b, c], 7, unguarded, false),
      (.blend d a b sg c rnd opx opy na nb nc, [d], [d, a, b, c], 7, shortGuard sg, false),
      (.imulw d a b sg rnd, [d, d + 1], [d, d + 1, a, b], 7, shortGuard sg, false),
      (.idivStep d a b sg, [d, d + 1], [d, d + 1, a, a + 1, b], 7, shortGuard sg, false)] ++ [
      two (.iabs d a g), two (.ineg d a g), two (.not d a g), two (.popc d a g), two (.clz d a g), two (.brev d a g),
      two (.mov d a 0 g), two (.fabs d a g), two (.fneg d a g), two (.fabsH2 d a g), two (.fnegH2 d a g), two (.fclass d a mode g),
      (.iset pd a b cond g, [], [a, b], pd, g, false), (.fset pd a b cond g, [], [a, b], pd, g, false),
      (.sel d a b cond, [d], [d, a, b], 7, unguarded, false), (.mov d a 1 g, [d], [d], 7, g, false),
      (.movi d imm, [d], [d], 7, unguarded, false), (.moviHi d imm, [d], [d], 7, unguarded, false),
      (.movs d num 0 g, [d], [d], 7, g, false)] ++ [
      index (.xadd xd xa xi xb g), index (.xsub xd xa xi xb g), index (.xmul xd xa xi xb g), index (.xshl xd xa xi xb g),
      index (.xshr xd xa xi xb g), index (.xmin xd xa xi xb g), index (.xmax xd xa xi xb g), index (.xand xd xa xi xb g),
      index (.xmov xd xa g), move (.xset xd a k 0 pd g) pd, move (.xset xd a k 1 pd g) 7, move (.xclamp xd a k g) 7,
      move (.xfrom xd a cond g) 7, (.xrd d xa h g, [d], [d, xField xa], 7, g, false),
      (.xwiden xd k g, [xField xd], [xField xd], 7, g, false)] ++ [
      float (.fadd d a b sg rnd sat ftz) [], float (.fsub d a b sg rnd sat ftz) [], float (.fmul d a b sg rnd sat ftz) [],
      float (.ffma d a b sg c rnd sat ftz) [c], float (.hadd2 d a b sg rnd sat ftz sfmt) [], float (.hmul2 d a b sg rnd sat ftz sfmt) [],
      float (.hfma2 d a b sg c rnd sat ftz sfmt) [c], float (.fdot2 d a b sg c rnd sat ftz sfmt) [c], special (.ex2 d a rnd ftz g),
      special (.lg2 d a rnd ftz g), special (.rcp d a rnd ftz g), special (.rsq d a rnd ftz g), special (.sqrt d a rnd ftz g),
      special (.sin d a rnd ftz g), special (.cos d a rnd ftz g), special (.tanh d a rnd ftz g), special (.erf d a rnd ftz g),
      converts (.cvt d a sc g rnd sat ftz dfmt sfmt c) (cvtRegs d dfmt) (cvtRegs a sfmt),
      converts (.pack d a sc g rnd sat ftz dfmt sfmt c) [d] (regRun a (packCount dfmt)),
      converts (.unpack d a sc g rnd sat ftz dfmt sfmt c) (regRun d (packCount sfmt)) [a],
      (.cvt8 d a b rnd sat ftz dfmt, [d], [d, a, b], 7, unguarded, rnd == 4), (.amax d a fmt u g, [d], [d, a], 7, g, false),
      (.seed a u g, [], if u = 1 then [] else [a, a + 1], 7, g, true)] ++ [
      (.shfl d a mode xi b, [d], [d, a] ++ (if xi = 1 then [] else [b]), 7, unguarded, false),
      (.shfli d a lane, [d], [d, a], 7, unguarded, false), (.permb d a b, [d], [d, a, b], 7, unguarded, false),
      votes (.voteAll cond h pd g), votes (.voteAny cond h pd g), (.voteBallot d cond h g, [d], [d], 7, g, false),
      (.matchAny d a pd g, [d], [d, a], pd, g, false), (.matchAll d a pd g, [d], [d, a], pd, g, false),
      (.redg d a op g, [d], [d, a], 7, g, false), (.scang d a op h u g, [d], [d, a], 7, g, false)] →
    Issues s (.warp gid wid) t → s.dev.group gid = some gr → Allotted s (.warp gid wid) named →
    (i = .xset xd a k 1 pd g → ∀ n, (t.taking g).getLsbD n = true →
      (t.sreg (2 * k.toNat)).toInt ≤ ((t.lane n).get a).toInt ∧ ((t.lane n).get a).toInt ≤ (t.sreg (2 * k.toNat + 1)).toInt) →
    (∀ q, t.clause = some q → q.mask ≠ 0) → exec i s = .next s' →
    (∃ t', s'.dev.thread (.warp gid wid) = some t' ∧ t'.lanes.length = t.lanes.length ∧
      (∀ n : Nat, t.taking g &&& (1#32 <<< n) = 0 → t'.lanes[n]? = t.lanes[n]?) ∧
      (∀ (n : Nat) (l l' : Lane), t.lanes[n]? = some l → t'.lanes[n]? = some l' →
        (∀ q, q ∉ dests → l'.get q = l.get q ∧ l'.ivl q = l.ivl q) ∧ (∀ q, q ≠ pd → l'.pr q = l.pr q) ∧
        (draws = false → l'.gen = l.gen)) ∧
      t'.s = t.s ∧ t'.arrays = t.arrays ∧ t'.flags = t.flags ∧ t'.unack = t.unack ∧ t'.loss = t.loss ∧ t'.tvec = t.tvec ∧
      t'.tframe = t.tframe ∧ t'.tcause = t.tcause ∧ t'.masked = t.masked ∧ t'.pend = t.pend) ∧
    (∀ r, r ≠ .warp gid wid → s'.dev.thread r = s.dev.thread r) ∧
    (∀ x, memGet s'.dev.mem x = memGet s.dev.mem x) ∧ (∀ x, memGet s'.dev.hostMem x = memGet s.dev.hostMem x) ∧
    (∀ n, (s'.dev.group n).map (fun q => q.scratch) = (s.dev.group n).map fun q => q.scratch) ∧
    (∀ q, s'.dev.reg q = s.dev.reg q) ∧ s'.dev.ops = s.dev.ops ∧ s'.fuses = s.fuses ∧ s'.agenda = s.agenda

/-! ## Control -/

/-- R297 to R303: the transfers send the active lanes where their rules say and end the clause; EXIT takes the taking-part lanes
out of the frontier; YIELD marks its clause; NOP does nothing but go on. Offsets count words from the clause's address. R299: XBR
compares each active lane's index value, signed, with the bound and refines its interval on the side where the comparison held. -/
def Obligations.ControlTransfers : Prop :=
  (∀ (s : State) (r : ThreadRef) (t : Thread) (q : Clause) (d a : BitVec 7) (o24 : BitVec 24) (o20 : BitVec 20) (o16 : BitVec 16)
    (n : BitVec 1) (p : BitVec 3) (g : Guard), Issues s r t → t.clause = some q → Allotted s r [d, d + 1, a, a + 1] →
    let at_ := fun {k : Nat} (o : BitVec k) => q.addr + BitVec.ofInt 64 (4 * o.toInt)
    let go := fun (f : Thread → Thread) (m : List Move) => (Host.Outcome.next (s.afterTransfer r f m) : Out)
    let each := fun (pc : Nat → DWord) (taken : Nat → Bool) => groupMoves (maskLanes q.mask) pc taken
    let link := fun (_ : Thread) => t.mapLanes false q.mask fun _ l => (l.set d (q.next.setWidth 32)).set (d + 1) ((q.next >>> 32).setWidth 32)
    let taken := fun (l : Nat) => if n = 1 then !(t.lane l).pr p else (t.lane l).pr p
    exec (.bra o24) s = go (fun _ => t) [⟨q.mask, at_ o24, true⟩] ∧
    exec (.brp n p o20) s = go (fun _ => t) (each (fun l => if taken l then at_ o20 else q.next) taken) ∧
    exec (.call d o16) s = go link [⟨q.mask, at_ o16, true⟩] ∧
    exec (.callIndirect d a) s = go link (each (fun l => (t.lane l).pair a) fun _ => true) ∧
    exec (.ret a) s = go (fun _ => t) (each (fun l => (t.lane l).pair a) fun _ => true) ∧
    exec (.brx a o16) s = go (fun _ => t) (each (fun l => (t.lane l).pair a + BitVec.ofInt 64 (4 * o16.toInt)) fun _ => true) ∧
    exec (.exit g) s = .next (s.withDev ((s.dev.noteReplies r t (t.taking g)).transfer r [⟨q.mask &&& ~~~(t.taking g), q.next, false⟩])) ∧
    exec .yield s = .next (s.afterThread r 1 fun t => { t with clause := t.clause.map fun c => { c with yield := true } }) ∧
    exec .nop s = .next (s.withDev (s.dev.retire r 1))) ∧
  (∀ (s : State) (r : ThreadRef) (t : Thread) (q : Clause) (x : BitVec 4) (c u : BitVec 1) (k : BitVec 8) (o : BitVec 10),
    Issues s r t → t.clause = some q → Allotted s r [112 + x.setWidth 7] →
    let bound : Int := if u = 1 then (t.sreg (k.toNat % 32)).toInt else k.toInt
    let below := fun (l : Nat) => decide (((t.lane l).xr x.toNat).v.toInt < bound)
    let taken := fun (l : Nat) => if c = 0 then below l else !below l
    let refined := fun (n : Nat) (l : Lane) =>
      let y := l.xr x.toNat
      l.setX x.toNat y.v (if below n then ⟨y.lo.toInt, min y.hi.toInt (bound - 1)⟩ else ⟨max y.lo.toInt bound, y.hi.toInt⟩)
    exec (.xbr x c u k o) s = .next (s.afterTransfer r
      (fun _ => { t with lanes := mapIdx (fun n l => if q.mask.getLsbD n then refined n l else l) 0 t.lanes })
      (groupMoves (maskLanes q.mask) (fun l => if taken l then q.addr + BitVec.ofInt 64 (4 * o.toInt) else q.next) taken)))

/-- R195, R197: inserting an entry keeps a frontier in frontier order with one entry at each PC; the entry at the inserted PC
holds the lanes of both, the greater of the two priorities and the greater of the two wait counts, and every other entry stays. -/
def Obligations.FrontierInsertion : Prop :=
  ∀ (f : List Entry) (e : Entry),
    f.Pairwise (fun x y => x.before y = true ∧ x.pc ≠ y.pc) →
    let old := f.find? fun y => y.pc = e.pc
    (insertEntry e f).Pairwise (fun x y => x.before y = true ∧ x.pc ≠ y.pc) ∧
    (∀ x, x.pc ≠ e.pc → (x ∈ insertEntry e f ↔ x ∈ f)) ∧
    (∃ x ∈ insertEntry e f, x.pc = e.pc ∧ x.mask = (old.map fun y => y.mask).getD 0 ||| e.mask ∧
      x.prio.toNat = max ((old.map fun y => y.prio.toNat).getD 0) e.prio.toNat ∧
      x.wait = max ((old.map fun y => y.wait).getD 0) e.wait)

/-- R199: the progress rule. An entry that has waited 992 clauses or more issues before every other; else the first entry
issues, unless the loop count is 64 and there is a second one, which then issues and resets the count. -/
def Obligations.ProgressRule : Prop :=
  ∀ (e : Entry) (rest : List Entry) (n : Nat) (q : Choice), chooseEntry (e :: rest) n = some q →
    q.entry ∈ e :: rest ∧
    ((∃ x ∈ e :: rest, 992 ≤ x.wait) → 992 ≤ q.entry.wait ∧ (∀ x ∈ e :: rest, x.wait ≤ q.entry.wait) ∧ q.byLoop = false) ∧
    ((∀ x ∈ e :: rest, x.wait < 992) →
      (n = 64 → ∀ e2 r2, rest = e2 :: r2 → q.entry = e2 ∧ q.loopCount = 0 ∧ q.byLoop = true) ∧
      (n ≠ 64 ∨ rest = [] → q.entry = e ∧ q.loopCount = n ∧ q.byLoop = false))

/-- R195, R196, R297, R302: after a transfer of a warp whose moves leave it some lane, its frontier is the old one with each
move's lanes inserted at their PC with the clause's priority, or the priority of the block header there; no clause is in
progress, and memory, registers and every other thread's state stay. -/
def Obligations.TransferEffect : Prop :=
  ∀ (s : State) (gid wid : Nat) (t : Thread) (gr : Group) (q : Clause) (ms : List Move),
    s.dev.thread (.warp gid wid) = some t → s.dev.group gid = some gr → t.clause = some q → (∃ m ∈ ms, m.mask ≠ 0) →
    let s' := s.afterTransfer (.warp gid wid) (fun t => t) ms
    ∃ t', s'.dev.thread (.warp gid wid) = some t' ∧
      t'.frontier = ms.foldl (fun f m => if m.mask = 0 then f
        else insertEntry ⟨m.pc, ((s.dev.count (.warp gid wid) 2 1).headerPriority (.warp gid wid) m.pc).getD q.prio, m.mask, q.wait, m.pc⟩ f)
        t.frontier ∧
      t'.clause = none ∧ t'.wait = .none ∧ t'.lanes = t.lanes ∧ t'.s = t.s ∧ t'.masked = t.masked ∧ t'.ended = t.ended ∧
      (∀ r, r ≠ .warp gid wid → s'.dev.thread r = s.dev.thread r) ∧
      (∀ x, memGet s'.dev.mem x = memGet s.dev.mem x) ∧ (∀ x, s'.dev.reg x = s.dev.reg x) ∧ s'.dev.ops = s.dev.ops

/-! ## Exceptions -/

/-- R391, R423, R26: a trap of a warp whose traps are unmasked, with a handler and room for an aligned frame that the page tables
let it write, writes the 64 bytes of the frame into the private space of the entry's lowest lane, masks traps, records the cause,
suspends the other entries and issues one entry at TVEC with priority 0xFFFF and the trapped entry's mask. A loss still to be taken
is held from then on (R393); a trap ends a replay (R442). The frame's flags say whether the trap is precise (bit 0), whether it is a
fault of a sequencer program raised through RNDV (bit 1), and whether it stopped inside its clause (bit 2): a trap of the instruction
is precise; LOST, which a release takes, is not, and it clears the loss bit and what was held; RNDV raises the first fault that its
program left, with the cause, detail and PC of that fault. -/
def Obligations.TrapEntry : Prop :=
  ∀ (s : State) (gid wid : Nat) (base : Dev) (t0 t : Thread) (gr : Group) (q : Clause) (k : TrapInfo)
    (tgs : List (Nat × Target × TlbEntry)) (d1 : Dev),
    let r := ThreadRef.warp gid wid
    s.dev.thread r = some t0 → t0.clause = some q → s.dev.group gid = some gr →
    base.thread r = some t → base.group gid = some gr → t.clause = some q → t.masked = false → t.tvec ≠ 0 →
    t.tframe.toNat + 64 ≤ gr.priv → t.tframe.toNat % 16 = 0 →
    let lane := lowest q.mask
    let at_ := fun (o : Nat) => gr.privBase + wid * 32 * gr.priv + (t.tframe.toNat + o) / 16 * 512 + lane * 16 + (t.tframe.toNat + o) % 16
    let chunks := [at_ 0, at_ 16, at_ 32, at_ 48]
    base.endReplay.needsOf r chunks = [] →
    base.endReplay.translateAll gr.core (mkTag gr.ctx gr.epoch) true chunks = (.inl tgs, d1) →
    (∀ x ∈ tgs, d1.placeWaits x.2.1 16 = false) →
    let frame := fun (k : TrapInfo) (kind : Nat) => natBytes q.pc.toNat 8 ++ natBytes q.addr.toNat 8 ++ natBytes q.mask.toNat 4 ++
      natBytes q.prio.toNat 2 ++ [k.cause, BitVec.ofNat 8 (kind + if q.pc = q.addr then 0 else 4)] ++ natBytes k.detail.toNat 8 ++
      natBytes k.address.toNat 8 ++ [k.lane] ++ List.replicate 23 0
    let entered := fun (k : TrapInfo) (kind : Nat) =>
      s.withDev ((d1.writeChunks gr.core (mkTag gr.ctx gr.epoch) tgs (frame k kind)).onThread r fun t =>
        { t with frontier := [⟨t.tvec, 0xFFFF, q.mask, 0, t.tvec⟩], clause := none, wait := .none, masked := true,
                 pend := t.pend || t.loss, tcause := k.cause,
                 handlers := ⟨t.frontier, ⟨q.pc, q.prio, q.mask, q.wait, q.addr⟩⟩ :: t.handlers, trapped := none, ended := false })
    (base = s.dev → s.trapped r k = entered k 1) ∧
    (base = s.dev.onThread r (fun t => { t with loss := false, pend := false }) →
      s.withDev (s.dev.raiseLost r) = entered ⟨causeLost, 0, 0, 0xFF⟩ 0) ∧
    (∀ (e : BitVec 1) (x : Bool × TrapFrame), s.dev.issuer = some r →
      let copy := decide (e = 1)
      let mine := ((s.dev.core gr.core).seq copy).any fun p => p.gid = gid && p.forker = wid
      (mine = true → (((s.dev.core gr.core).seq copy).any fun p => !p.ended) = false ∧ s.dev.seqPending gr.core copy = false) →
      s.dev.orphans gr.core copy r = false → t0.seqFaults.find? (fun x => x.1 = copy) = some x →
      base = (if mine then s.dev.onCore gr.core fun k => k.setSeq copy none else s.dev).onThread r
        (fun t => { t with seqFaults := t.seqFaults.filter fun y => y ≠ x }) →
      exec (.rndv e) s = .next (entered ⟨x.2.cause, x.2.detail, x.2.pc, 0xFF⟩ 3))

/-- R391, R426: a trap of a warp whose traps are masked, or without a handler, or whose frame does not fit or cannot be written (its
translation, permission or poison check fails), stops the warp at the trapped instruction, keeps the frame in the warp's state, leaves
TSTAT.cause as it was, and marks its gang for a save that stops for the supervisor. `d` is the device once the frame was translated. -/
def Obligations.TrapDelivery : Prop :=
  ∀ (s : State) (gid wid : Nat) (t : Thread) (gr : Group) (q : Clause) (k : TrapInfo) (d : Dev),
    let r := ThreadRef.warp gid wid
    s.dev.thread r = some t → s.dev.group gid = some gr → t.clause = some q →
    let chunks := frameChunks gr t (lowest q.mask)
    (d = s.dev ∧ (t.masked = true ∨ t.tvec = 0 ∨ gr.priv < t.tframe.toNat + 64 ∨ t.tframe.toNat % 16 ≠ 0)) ∨
      (t.masked = false ∧ t.tvec ≠ 0 ∧ t.tframe.toNat + 64 ≤ gr.priv ∧ t.tframe.toNat % 16 = 0 ∧
        s.dev.endReplay.needsOf r chunks = [] ∧ d.thread r = some t ∧ d.group gid = some gr ∧
        ∃ x, s.dev.endReplay.translateAll gr.core (mkTag gr.ctx gr.epoch) true chunks = (.inr x, d)) →
    let s' := s.trapped r k
    (∃ t' f, s'.dev.thread r = some t' ∧ t'.frame = some f ∧ f.cause = k.cause ∧ f.detail = k.detail ∧ f.address = k.address ∧
      f.lane = k.lane ∧ f.pc = q.pc ∧ f.clause = q.addr ∧ f.mask = q.mask ∧ t'.tcause = t.tcause ∧ t'.clause = none ∧
      t'.frontier = insertEntry ⟨q.pc, q.prio, q.mask, q.wait, q.addr⟩ t.frontier ∧ t'.masked = t.masked ∧ t'.lanes = t.lanes) ∧
    (∀ x, d.gang gr.gang = some x → s'.dev.gang gr.gang = some { x with save := some (x.save.getD 3) }) ∧
    (∀ x, memGet s'.dev.mem x = memGet d.mem x) ∧ (∀ x, x ≠ r → s'.dev.thread x = d.thread x)

/-- R203, R201, R202: an instruction of a warp that names a register outside the allotment of its group's state takes ALLOT, its
detail the first such field, and performs no lane: two blocks and one index group before the grant, the record's numbers while
full, one block and no index register in the tail. -/
def Obligations.AllotmentTrap : Prop :=
  ∀ (s : State) (gid wid : Nat) (t : Thread) (gr : Group) (d a b c : BitVec 7) (sg rnd : BitVec 3) (g : Guard) (f sat ftz : BitVec 1)
    (ty : BitVec 3) (csr : BitVec 12) (bad : BitVec 7),
    let r := ThreadRef.warp gid wid
    Issues s r t → s.dev.group gid = some gr →
    let lim := match gr.state with
      | .full => (8 * recGblk gr.record.bytes, 4 * (recXq gr.record.bytes + 1))
      | .tail => (8, 0)
      | .prologue => (16, 4)
      | .waiting => (16, 4)
    let out := fun (x : BitVec 7) => if x.toNat < 112 then decide (lim.1 ≤ x.toNat) else decide (lim.2 ≤ x.toNat - 112)
    let traps := s.trapped r ⟨causeAllot, bad.setWidth 64, 0, 0xFF⟩
    ([d, a, b].find? out = some bad → exec (.iadd d a b sg) s = .next traps ∧ exec (.fmin d a b sg) s = .next traps ∧
      exec (.permb d a b) s = .next traps) ∧
    ([d, a, b, c].find? out = some bad → exec (.imad d a b sg c rnd) s = .next traps ∧
      exec (.ffma d a b sg c rnd sat ftz) s = .next traps) ∧
    ([d].find? out = some bad → exec (.movi d 0) s = .next traps ∧ exec (.csrr d csr g) s = .next traps) ∧
    ([a, a + 1].find? out = some bad → exec (.ret a) s = .next traps) ∧
    (ty = 0 → [d, a].find? out = some bad → exec (.lds d a ty f g) s = .next traps ∧ exec (.sts d a ty f g) s = .next traps)

/-! ## System instructions -/

/-- R390, R398: CSRR and CSRW read and write the registers of the warp's table; bits 1:0 of TVEC.lo do not change, and counters of
the group are read by PERF; PERFSEL.S and counters 4 to 7 need a supervisor context. A write takes the value of the lowest
taking-part lane. -/
def Obligations.ControlRegisters : Prop :=
  ∀ (s : State) (gid wid : Nat) (t : Thread) (gr : Group) (d a : BitVec 7) (n : BitVec 3) (g : Guard),
    let r := ThreadRef.warp gid wid
    Issues s r t → s.dev.group gid = some gr → Allotted s r [d, a] → t.taking g ≠ 0 →
    let goes := fun (v : Word) => (Host.Outcome.next (s.withDev ((s.dev.onThread r fun t =>
      t.mapLanes false (t.taking g) fun _ l => l.set d v).retire r 1)) : Out)
    let v := (t.lane (lowest (t.taking g))).get a
    let thread := fun (f : Thread → Thread) => (Host.Outcome.next (s.afterThread r 1 f) : Out)
    exec (.csrr d 0 g) s = goes (t.tvec.setWidth 32) ∧
    exec (.csrr d 1 g) s = goes ((t.tvec >>> 32).setWidth 32) ∧
    exec (.csrr d 2 g) s = goes (BitVec.ofNat 32 (256 * t.tcause.toNat + 2 * t.pend.toNat + t.masked.toNat)) ∧
    exec (.csrr d 3 g) s = goes t.tframe ∧
    exec (.csrr d 0x10 g) s = goes (match gr.state with | .prologue => 0 | .waiting => 1 | .full => 2 | .tail => 3) ∧
    (∀ q x, gr.record.slot = some q → s.dev.slots.find? (fun y => y.q = q) = some x →
      exec (.csrr d 0x11 g) s = goes (BitVec.ofNat 32 (min x.remain 0xFFFFFFFF))) ∧
    exec (.csrr d 0x20 g) s = goes gr.perfsel ∧
    (s.dev.isSuper r = true → exec (.csrr d 0x800 g) s = goes (s.dev.core gr.core).perfselS) ∧
    exec (.csrw a 0 g) s = thread (fun t => { t with tvec := t.tvec.extractLsb' 32 32 ++ ((v &&& 0xFFFFFFFC) ||| (t.tvec.setWidth 32 &&& 3)) }) ∧
    exec (.csrw a 1 g) s = thread (fun t => { t with tvec := v ++ t.tvec.setWidth 32 }) ∧
    exec (.csrw a 3 g) s = thread (fun t => { t with tframe := v }) ∧
    exec (.csrw a 0x20 g) s = .next (s.withDev ((s.dev.onGroup gr.gid fun x => { x with perfsel := v }).retire r 1)) ∧
    (s.dev.isSuper r = true →
      exec (.csrw a 0x800 g) s = .next (s.withDev ((s.dev.onCore gr.core fun k => { k with perfselS := v }).retire r 1))) ∧
    (n.toNat < 4 → Allotted s r [d + 1] → exec (.perf d n g) s = .next (s.withDev ((s.dev.onThread r fun t => t.mapLanes false (t.taking g) fun _ l =>
      l.setPair d (gr.perf.getD n.toNat 0)).retire r 1))) ∧
    (4 ≤ n.toNat → s.dev.isSuper r = true → Allotted s r [d + 1] → exec (.perf d n g) s = .next (s.withDev ((s.dev.onThread r fun t =>
      t.mapLanes false (t.taking g) fun _ l => l.setPair d ((s.dev.core gr.core).perfS.getD (n.toNat - 4) 0)).retire r 1)))

/-- R397, R393, R395, R399: CLOCK and CLOCK.NS write one value into the pair of every taking-part lane; TMASK and TUNMASK set and
clear the mask, TMASK keeping a loss still to be taken in TSTAT.pend; L1INV drops the context's lines from its core's L1 and
forbids fills in flight; HALT in a supervisor context goes on and then is not eligible. R394: TRAP raises the named cause at
itself, its code in bits 11:0 of the detail under bit 63, where some lane takes part and the cause is not the service core's or
the context is a supervisor's; without a taking-part lane it only goes on. -/
def Obligations.SystemInstructions : Prop :=
  (∀ (s : State) (r : ThreadRef) (t : Thread) (d : BitVec 7) (g : Guard), Issues s r t → Allotted s r [d, d + 1] →
    let pair := fun (v : Nat) => (Host.Outcome.next (s.afterThread r 1 fun _ =>
      t.mapLanes false (t.taking g) fun _ l => l.setPair d (BitVec.ofNat 64 v)) : Out)
    let its := fun (l : Line) => tagCtx l.tag != s.dev.ctxOf r
    exec (.clock d g) s = pair (s.dev.cycles - (s.dev.core (s.dev.coreOf r)).cycles) ∧
    exec (.clockNs d g) s = pair s.dev.now ∧
    exec .tmask s = .next (s.afterThread r 1 fun t => { t with masked := true, pend := t.pend || t.loss }) ∧
    exec .tunmask s = .next (s.afterThread r 1 fun t => { t with masked := false }) ∧
    exec .l1inv s = .next (s.withDev (((s.dev.dropL1 (s.dev.coreOf r) its).forbidFills (s.dev.coreOf r) (s.dev.ctxOf r) 0 none).retire r 1)) ∧
    (s.dev.isSuper r = true → exec .halt s = .next (s.withDev ((s.dev.retire r 1).hold r .halt)))) ∧
  (∀ (s : State) (r : ThreadRef) (t : Thread) (cause : BitVec 8) (code : BitVec 12) (g : Guard), Issues s r t →
    (t.taking g ≠ 0 → cause.toNat < 0x40 ∨ s.dev.isSuper r = true →
      exec (.trap cause code g) s = .next (s.trapped r ⟨cause, BitVec.ofNat 64 (2 ^ 63 + code.toNat), 0, 0xFF⟩)) ∧
    (t.taking g = 0 → exec (.trap cause code g) s = .next (s.withDev (s.dev.retire r 1))))

/-- R396, R22, R51, R87: TLBI.RANGE, TLBI.CTX and TLBI.PKG complete. In a supervisor context, and no access using a pin of an
entry they name, each goes on with the entries it names gone from every translation structure of the package: RANGE those of the
context that overlap its pages (none when it counts none), CTX those of the context with its cached export entries, PKG all.
Without a taking-part lane each only goes on; while an access uses such a pin it holds issue. -/
def Obligations.TranslationShootdown : Prop :=
  ∀ (s : State) (r : ThreadRef) (t : Thread) (k : BitVec 3) (c n : BitVec 5) (g : Guard), Issues s r t →
    let ctx := (t.sreg c.toNat).toNat % 4096
    let lo := (t.spair (2 * k.toNat)).toNat
    let len := 4096 * (t.sreg n.toNat).toNat
    let range : TlbiSpan := ⟨fun x e => x == ctx && decide (0 < len) && decide (e.1 < lo + len) && decide (lo < e.1 + e.2), fun _ => false⟩
    let ofCtx : TlbiSpan := ⟨fun x _ => x == ctx, fun x => x == ctx⟩
    let all : TlbiSpan := ⟨fun _ _ => true, fun _ => true⟩
    let names := fun (q : TlbiSpan) (e : TlbEntry) => q.page (tagCtx e.tag) (e.va, e.size)
    let after := fun (q : TlbiSpan) => s.withDev ((s.dev.shootdown (names q) (s.dev.tlbiPoison q)
      (fun e => q.page (tagCtx e.tag) (e.va, e.span)) (fun e => q.page (tagCtx e.tag) e.page) q.exports).retire r 1)
    (t.taking g ≠ 0 → s.dev.isSuper r = true →
      (s.dev.pinsBusy (names range) = false → exec (.tlbiRange k c n g) s = .next (after range)) ∧
      (s.dev.pinsBusy (names ofCtx) = false → exec (.tlbiCtx c g) s = .next (after ofCtx)) ∧
      (s.dev.pinsBusy (names all) = false → exec (.tlbiPkg g) s = .next (after all)) ∧
      (s.dev.pinsBusy (names range) = true → exec (.tlbiRange k c n g) s = .next (s.held r .retry)) ∧
      (s.dev.pinsBusy (names ofCtx) = true → exec (.tlbiCtx c g) s = .next (s.held r .retry)) ∧
      (s.dev.pinsBusy (names all) = true → exec (.tlbiPkg g) s = .next (s.held r .retry))) ∧
    (t.taking g = 0 → exec (.tlbiRange k c n g) s = .next (s.withDev (s.dev.retire r 1)) ∧
      exec (.tlbiCtx c g) s = .next (s.withDev (s.dev.retire r 1)) ∧ exec (.tlbiPkg g) s = .next (s.withDev (s.dev.retire r 1)))

/-- R383, R390, R394, R396, R398, R399, R381, R422: what belongs to a supervisor context takes PRIV in a tenant context, with
none of its effect. -/
def Obligations.PrivilegeTrap : Prop :=
  ∀ (s : State) (gid wid : Nat) (t : Thread) (gr : Group) (d : BitVec 7) (n st : BitVec 5) (k : BitVec 3) (g : Guard)
    (csr code : BitVec 12) (cause : BitVec 8) (f : BitVec 1) (m : BitVec 3),
    let r := ThreadRef.warp gid wid
    Issues s r t → s.dev.group gid = some gr → s.dev.isSuper r = false → Allotted s r [d] → t.taking g ≠ 0 →
    FlagFree t f → 0x800 ≤ csr.toNat → 0x40 ≤ cause.toNat → 4 ≤ m.toNat →
    let traps := (Host.Outcome.next (s.trapped r ⟨causePriv, 0, 0, 0xFF⟩) : Out)
    exec (.csrr d csr g) s = traps ∧ exec (.csrw d csr g) s = traps ∧
    (Allotted s r [d + 1] → exec (.perf d m g) s = traps) ∧
    exec (.trap cause code g) s = traps ∧ exec .halt s = traps ∧ exec (.tlbiRange k n st g) s = traps ∧
    exec (.tlbiCtx n g) s = traps ∧ exec (.tlbiPkg g) s = traps ∧ exec (.dreloc k st f g) s = traps

/-- R392, R423, R79: ERET of a handler stalls for the translations of its frame that it misses. With them, or once they are done, and
where the frame can be read, it puts the trapped entry back at the PC its frame holds, with its own priority and those of its lanes that
the handler's entry still has, brings back the entries that were suspended when this handler was entered, and unmasks traps; a handler
in which this one was entered goes on. R392 does not say which clause a changed PC belongs to, nor what becomes of lanes that left the
handler: the clause (`d2.inClause`) and the mask (`e.mask &&& q.mask`) are the model's choice (log 15). -/
def Obligations.ReturnFromTrap : Prop :=
  ∀ (s : State) (gid wid : Nat) (d0 : Dev) (t : Thread) (gr : Group) (q : Clause) (h : Handled) (hs : List Handled)
    (tgs : List (Nat × Target × TlbEntry)) (d1 d2 : Dev) (b : List Byte),
    let r := ThreadRef.warp gid wid
    d0.thread r = some t → d0.group gid = some gr → t.clause = some q → t.handlers = h :: hs →
    t.tframe.toNat + 64 ≤ gr.priv → t.tframe.toNat % 16 = 0 →
    let chunks := frameChunks gr t (lowest q.mask)
    (Issues s r t → d0 = s.dev → s.dev.needsOf r chunks ≠ [] → exec .eret s = .next (s.withDev (s.dev.stall r chunks))) ∧
    (d0.translateAll gr.core (mkTag gr.ctx gr.epoch) false chunks = (.inl tgs, d1) →
    d1.readChunks gr.core (mkTag gr.ctx gr.epoch) tgs = (b, d2) →
    let e := h.entry
    let pc := BitVec.ofNat 64 (bytesNat (b.take 8))
    let clause := if pc = e.pc || d2.inClause r e.clause pc then e.clause else pc
    let f := h.suspended.foldl (fun f x => insertEntry x f) t.frontier
    let f' := if e.mask &&& q.mask = 0 then f else insertEntry ⟨pc, e.prio, e.mask &&& q.mask, e.wait, clause⟩ f
    let d3 := d2.count r 2 1
    d3.thread r = some t → f' ≠ [] →
    let back := s.withDev (d3.onThread r fun t => { t with frontier := f', clause := none, wait := .none, handlers := hs, masked := false })
    (Issues s r t → d0 = s.dev → s.dev.needsOf r chunks = [] → exec .eret s = .next back) ∧
    (∀ t0 start len, Stalled s r t0 start .eret len → d0 = s.dev.translated r start → exec (.translationDone r) s = .next back))

/-- R201 to R204, R388, R389: ALLOC in the prologue makes the group wait in order; the grant makes the oldest waiting group full
when its need fits; ALLOC while full goes on and in the tail takes ALLOT; FREE of the last live warp moves the group to the tail,
disarms its arrays, frees its baton, be it a warp's or the sequencer program's, and goes on. -/
def Obligations.Allotment : Prop :=
  ∀ (s : State) (gid wid : Nat) (t : Thread) (gr : Group),
    let r := ThreadRef.warp gid wid
    Issues s r t → s.dev.group gid = some gr →
    (gr.state = .prologue → exec .alloc s = .next (s.withDev
      (({ s.dev with tick := s.dev.tick + 1 }.onGroup gr.gid fun x => { x with state := .waiting, order := s.dev.tick }).hold r .alloc))) ∧
    (gr.state = .full → exec .alloc s = .next (s.withDev (s.dev.retire r 1))) ∧
    (gr.state = .tail → exec .alloc s = .next (s.trapped r ⟨causeAllot, 0, 0, 0xFF⟩)) ∧
    (gr.state = .tail → exec .free s = .next (s.withDev (s.dev.retire r 1))) ∧
    (gr.state ≠ .tail → (∀ w ∈ gr.warps, w.wid ≠ wid → w.freed = true ∨ w.ended = true) →
      (gr.warps.filter fun w => w.wid = wid).length = 1 →
      let d := s.dev.onThread r fun t => { t with freed := true }
      d.dropsPending gr = false → exec .free s = .next (s.withDev
        ((((d.unpinGroup gr.core gr.gid).onGroup gr.gid fun x =>
          { x with state := .tail, warps := x.warps.map fun w =>
              { w with arrays := w.arrays.map fun a => { a with armed := false, armedW := false } } }).onCore gr.core fun k =>
          { k with baton := match k.baton with
            | .warp n w => if n = gr.gid then .free else .warp n w
            | .seq n => if n = gr.gid then .free else .seq n
            | .free => .free }).retire r 1))) ∧
    (∀ c w ws, s.dev.waiting c = w :: ws →
      (needOf w.record.bytes).1 ≤ (s.dev.freePools c).1 → (needOf w.record.bytes).2.1 ≤ (s.dev.freePools c).2.1 →
      (needOf w.record.bytes).2.2 ≤ (s.dev.freePools c).2.2 →
      exec (.allocGrant c) s = .next (s.withDev
        (s.dev.onGroup w.gid fun x => { x with state := .full, units := recScr w.record.bytes })))

/-! ## Memory -/

/-- R77, R79, R333, R334, R296, R247: LDG, STG, XLD and XST with a taking-part lane, room in their flag and, for a store, in the
unacknowledged-store counter stall for the translations of their lanes' addresses; without a taking-part lane they go on. While a
stalled party still needs a walk or a bitmap read, the walker goes on and the party waits. When nothing is left to be read and every lane passes its checks, a load's
reads or a store's writes are outstanding, the flag is tagged, the store counted, and the warp goes on. -/
def Obligations.GlobalAndPrivateAccess : Prop :=
  ∀ (s : State) (r : ThreadRef) (t : Thread) (d a : BitVec 7) (ga : BitVec 6) (x : BitVec 4) (imm : BitVec 8) (ty : BitVec 3)
    (prv f : BitVec 1) (ev : BitVec 2) (g : Guard),
    let size := typeSize ty
    (Issues s r t → FlagFree t f → Allotted s r (operandRegs d size ++ globalRegs ga prv ++ [112 + x.setWidth 7, a]) →
      let goes := fun (l : List LaneAccess) => if t.taking g = 0 then s.withDev (s.dev.retire r 1) else s.stalls r l
      let global := goes (s.dev.globalLanes r t ga ty prv g)
      let index := goes (s.dev.xLanes r t a imm g)
      exec (.ldg d ga ty prv ev f g) s = .next global ∧ exec (.xld x a imm f g) s = .next index ∧
      (t.unack < 1023 → exec (.stg d ga ty prv ev f g) s = .next global ∧ exec (.xst x a imm f g) s = .next index)) ∧
    (∀ (n start : Nat) (vas : List Nat) (i : Instr) (d1 : Dev), s.dev.thread r = some t → t.wait = .translation start vas →
      t.head = some (.ok i n) → s.dev.gateOf r vas = .wait d1 → exec (.translationDone r) s = .next (s.withDev d1)) ∧
    (∀ (n start : Nat) (i : Instr) (ts : List (LaneAccess × Target)) (d1 : Dev), Stalled s r t start i n →
      let d0 := s.dev.translated r start
      let op := fun (k : OpKind) (w : AccessKind) => d1.opFor r k w (t.flagOf f) (t.taking g)
      let goes := fun (o : Op) => exec (.translationDone r) s = .next (s.withDev ((d1.launch o).2.retire r 1))
      (i = .ldg d ga ty prv ev f g → d0.checkLanes r false false (d0.globalLanes r t ga ty prv g) = (.inl ts, d1) →
        goes { op (.load size (typeSigned ty)) .load with
          hint := hintOf ev, dest := d, pieces := ts.flatMap fun y => loadPieces y.1.lane y.2 size d }) ∧
      (i = .stg d ga ty prv ev f g → d0.checkLanes r true false (d0.globalLanes r t ga ty prv g) = (.inl ts, d1) →
        let o := { op .store .store with
          hint := hintOf ev, counted := true
          pieces := ts.flatMap fun y => storePieces y.1.lane y.2 ((t.lane y.1.lane).bytes d size) }
        d1.mayLaunch o = true → goes o) ∧
      (i = .xld x a imm f g → d0.checkLanes r false false (d0.xLanes r t a imm g) = (.inl ts, d1) →
        goes { op .xload .load with
          dest := 112 + x.setWidth 7, pieces := ts.flatMap fun y => [Piece.new y.1.lane y.2 8, Piece.new y.1.lane (y.2.plus 8) 8] }) ∧
      (i = .xst x a imm f g → d0.checkLanes r true false (d0.xLanes r t a imm g) = (.inl ts, d1) →
        let o := { op .store .store with
          counted := true, pieces := ts.flatMap fun y =>
            let v := (t.lane y.1.lane).xr x.toNat
            storePieces y.1.lane y.2 (natBytes v.v.toNat 4 ++ natBytes v.lo.toNat 4 ++ natBytes v.hi.toNat 4 ++ [0, 0, 0, 0]) }
        d1.mayLaunch o = true → goes o))

/-- R80: the one trap of an access whose lanes fail is the first of BOUNDS, ALIGN, XLATE and POISON that some lane fails, at the
lowest such lane in the order given; no access of the instruction is performed. -/
def Obligations.AccessChecks : Prop :=
  ∀ (d : Dev) (r : ThreadRef) (write noHost : Bool) (l : List LaneAccess),
    (∀ a, l.find? (fun x => !x.inside) = some a →
      d.checkLanes r write noHost l = (.inr ⟨causeBounds, 0, a.addr, BitVec.ofNat 8 a.lane⟩, d)) ∧
    ((∀ x ∈ l, x.inside = true) → ∀ a, l.find? (fun x => x.addr.toNat % x.size ≠ 0) = some a →
      d.checkLanes r write noHost l = (.inr ⟨causeAlign, 0, a.addr, BitVec.ofNat 8 a.lane⟩, d)) ∧
    ((∀ x ∈ l, x.inside = true) → (∀ x ∈ l, x.addr.toNat % x.size = 0) →
      ∀ xs d1, d.xlateLanes r write l = (xs, d1) →
        (∀ a sub, xs.find? (fun x => match x.2 with | .xlate _ => true | _ => false) = some (a, .xlate sub) →
          d.checkLanes r write noHost l = (.inr ⟨causeXlate, BitVec.ofNat 64 sub, a.addr, BitVec.ofNat 8 a.lane⟩, d1)) ∧
        (∀ a, (∀ x ∈ xs, ∀ sub, x.2 ≠ .xlate sub) → xs.find? (fun x => match x.2 with | .poison => true | _ => false) = some (a, .poison) →
          d.checkLanes r write noHost l = (.inr ⟨causePoison, 0, a.addr, BitVec.ofNat 8 a.lane⟩, d1)) ∧
        (noHost = false → (∀ x ∈ xs, ∃ tg e, x.2 = .ok tg e) → ∃ ts, d.checkLanes r write noHost l = (.inl ts, d1) ∧
          ts.map (fun y => y.1) = xs.map fun x => x.1))

/-- R336, R337, R83, R84, R67, R86: LDA and STA of a register that fits the element size with a taking-part lane: with a pinned
translation for every lane of an elided, armed access they are performed at once, else they stall; once translated and checked
they are performed, the pinned pages in use until they are. Without a taking-part lane its footprint is logged and it goes on. In
`.mask` mode p6 says which taking-part lanes were out of bounds, and those lanes of a load receive zeros: the load's operation holds zero
bytes for their registers, and the register that such bytes give is 0. -/
def Obligations.ArrayAccess : Prop :=
  ∀ (s : State) (r : ThreadRef) (t : Thread) (d : BitVec 7) (arr x c : BitVec 4) (f : BitVec 1) (g : Guard) (store : Bool),
    let i := if store then Instr.sta d arr x c f g else .lda d arr x c f g
    let a := t.arr arr
    let logged := fun (dev : Dev) =>
      if a.log then dev.logFootprint (dev.coreOf r) (dev.tagOf r) (if store then 1 else 0) (a.footprint (t.indexIvl x c.toInt)) else dev
    let noted := fun (dev : Dev) => logged (dev.count r (if t.elided arr x c.toInt then 7 else 6) 1)
    let lanes := t.arrayLanes arr x c.toInt (t.taking g)
    let quick := if t.elided arr x c.toInt && (if store then a.armedW else a.armed) then
      s.dev.pinned r arr store lanes else none
    (Issues s r t → FlagFree t f → Allotted s r (arrayRegs t d arr x) → arrayFits a.z d = true → (store = true → t.unack < 1023) →
      (t.taking g = 0 → exec i s = .next (s.withDev ((logged s.dev).retire r 1))) ∧
      (t.taking g ≠ 0 → s.dev.waveA0 r arr = false →
        (quick = none → exec i s = .next (s.withDev ((noted s.dev).stall r (addresses lanes)))) ∧
        (∀ ts pins d2, quick = some (ts, pins) → (noted s.dev).arrayFinish r t store d arr x c.toInt f (t.taking g) ts pins = some d2 →
          exec i s = .next (s.withDev d2)))) ∧
    (∀ n start ts d1 d2, Stalled s r t start i n → (s.dev.translated r start).checkLanes r store false lanes = (.inl ts, d1) →
      d1.arrayFinish r t store d arr x c.toInt f (t.taking g) ts [] = some d2 → exec (.translationDone r) s = .next (s.withDev d2)) ∧
    (let t' := t.maskStatus arr (t.taking g) (t.outLanes arr x c.toInt (t.taking g))
     a.trap = false → ∀ n l l', t.lanes[n]? = some l → t'.lanes[n]? = some l' → n < 32 → (t.taking g).getLsbD n = true →
      t.lane n = l → l'.pr 6 = decide (t.elemIndex n x c.toInt < 0 ∨ (a.extent.toNat : Int) ≤ t.elemIndex n x c.toInt)) ∧
    (∀ (dev : Dev) ts pins (d2 : Dev), a.trap = false → store = false → dev.arrayFinish r t false d arr x c.toInt f (t.taking g) ts pins = some d2 →
      (∀ o : Op, o ∈ dev.ops → o.id ≠ dev.nextId) → t.outLanes arr x c.toInt (t.taking g) ≠ [] →
      ∃ o, d2.op dev.nextId = some o ∧ ∀ n ∈ t.outLanes arr x c.toInt (t.taking g), ∃ p ∈ o.pieces,
        p.lane = n ∧ p.done = false ∧ p.value = some (List.replicate (2 ^ a.z) 0) ∧ p.regs = regParts d (2 ^ a.z)) ∧
    (∀ size off, loadedWord size false (List.replicate size 0) off = 0)

/-- R338, R328 to R330: scratch accesses whose lanes lie in the party's scratch, aligned, issue at once: the reads or writes are
outstanding and the warp goes on; the fragment loads read the 16-byte rows of the taking-part lanes. R339: PRF requests the
lines of the lanes that pass their checks and never traps: with an address register outside the allotment it requests none. The
request of a lane is translated when it meets the walker: it goes on to the line of a place that can be prefetched, and a lane whose
translation fails, or that names another place, ends without a request. -/
def Obligations.ScratchAndPrefetch : Prop :=
  ∀ (s : State) (r : ThreadRef) (t : Thread) (d a : BitVec 7) (pa : BitVec 6) (ty : BitVec 3) (nc f : BitVec 1) (ev : BitVec 2)
    (g : Guard) (ts : List (LaneAccess × Target)), Issues s r t → FlagFree t f →
    let size := typeSize ty
    let op := fun (k : OpKind) (w : AccessKind) => s.dev.opFor r k w (t.flagOf f) (t.taking g)
    let goes := fun (i : Instr) (free : Nat) (o : Op) =>
      exec i s = .next (s.withDev (((s.dev.count r 9 (bankDepth ts - free)).launch o).2.retire r 1))
    let row := { op (.frag 0) .load with
      dest := d, pieces := ts.map fun x => { Piece.new x.1.lane x.2 16 with regs := regParts d 16 } }
    (Allotted s r (operandRegs d size ++ [a]) → s.dev.scratchLanes r (t.scratchAddrs a size g) = .inl ts →
      goes (.lds d a ty f g) 1 { op (.load size (typeSigned ty)) .load with
        dest := d, pieces := ts.flatMap fun x => loadPieces x.1.lane x.2 size d } ∧
      goes (.sts d a ty f g) 1 { op .store .store with
        pieces := ts.flatMap fun x => storePieces x.1.lane x.2 ((t.lane x.1.lane).bytes d size) }) ∧
    (Allotted s r (regRun d 4 ++ [a]) → s.dev.scratchLanes r (t.scratchAddrs a 16 g) = .inl ts →
      goes (.ldfrag d a f g) 4 row ∧ goes (.ldfragTB8 d a f g) 4 { row with kind := .frag 1 } ∧
      goes (.ldfragTB16 d a f g) 4 { row with kind := .frag 2 }) ∧
    exec (.prf pa nc ev f g) s = .next (s.withDev ((s.dev.launch { op (.prefetch (nc = 1)) .prefetch with
      hint := hintOf ev
      pieces := (if (s.dev.allotTrap r (addrRegs pa)).isSome then [] else maskLanes (t.taking g)).map fun l =>
        Piece.new l (.virt (t.addr l pa).toNat) 1 }).2.retire r 1)) ∧
    (∀ (id n va : Nat) (o : Op) (p : Piece) (d0 d1 : Dev) (x : XlateOut), s.dev.op id = some o → o.pieces[n]? = some p → o.id = id →
      o.kind = .prefetch (nc = 1) → p.target = .virt va → p.done = false → p.value = none → s.dev.blocked o n = false →
      s.dev.walkGate (.piece id n) o.core o.tag (fun _ => p.sent) [va] = .go d0 →
      (if p.sent then d0 else d0.countTlbMiss o.thread va).translate o.core o.tag va false false = (x, d1) →
      let arrives := fun (d : Dev) => exec (.loadDataReturn id n .fix) s = .next (s.withDev (d.afterRead id n))
      (∀ tg e, x = .ok tg e → (if prefetchable tg then arrives (d1.onPiece id n fun p => { p with target := tg, sent := false })
        else arrives (d1.fixed id n []))) ∧
      ((∀ tg e, x ≠ .ok tg e) → arrives (d1.fixed id n [])))

/-- R79, R134, R342 to R346, R340, R341, R300: the other instructions that translate stall once they may: an atomic, method call or REL
with a release waits for the warp's stores and loads first, a method call for what keeps its message from admission, and JMPT needs
8-byte elements. R79, R343 to R347, R116, R118, R115,
R85, R82, R300: what those instructions do once their translations are done and their checks pass: the atomics, requests or
reads are outstanding; ACQ, ALD and JMPT hold issue until theirs are performed, REL until its messages have left; BIND, UNBIND and ARM
write their predicate. An ordered ATOM at an address that is no multiple of 8 takes ALIGN (the model's reading, log 48), and UNBIND
translates the object that its binding names (the model's reading, log 53). -/
def Obligations.SyncStalls : Prop :=
  (∀ (s : State) (r : ThreadRef) (t : Thread) (d c scale : BitVec 7) (a tt : BitVec 6) (op : BitVec 4) (ord : BitVec 2) (f : BitVec 1)
    (g : Guard) (dfmt sfmt arr x k o b : BitVec 4) (pd scope : BitVec 3) (n : BitVec 5) (imm : BitVec 8), Issues s r t → FlagFree t f →
    Allotted s r (addrRegs a ++ addrRegs tt ++ [112 + x.setWidth 7]) →
    t.taking g ≠ 0 → (ord.getLsbD 1 = true → s.dev.releaseReady r t = true ∧ t.loss = false) →
    s.dev.waveA0 r arr = false →
    let stalls := fun (i : Instr) (vas : List Nat) => exec i s = .next (s.withDev (s.dev.stall r vas))
    let points := fun (n : Nat) => addresses (t.pointLanes a n (t.taking g))
    let objects := addresses (t.objectLanes a (t.taking g))
    let spawns := fun (x : Option (BitVec 6)) =>
      let ls := spawnLanes (t.taking g) a x
      addresses (t.spawnRecs ls a ++ t.spawnTargets ls x)
    let size := if dfmt = 3 then 8 else 4
    (t.unack < 1023 → Allotted s r (operandRegs d size ++ operandRegs c size ++ if op = 7 then operandRegs scale size else []) →
      stalls (.atom d a op ord f g c dfmt sfmt scale) (points size)) ∧
    (Allotted s r (regRun d 2 ++ regRun c 2 ++ [scale]) → s.dev.admissionWaits r = false →
      stalls (.callm d a pd ord f g c sfmt scale) (points 8)) ∧
    (Allotted s r (regRun d 2) → stalls (.acq d a scope f g) objects) ∧
    (Allotted s r (regRun d 2) → s.dev.releaseReady r t = true → t.loss = false → stalls (.rel d a scope f g) objects) ∧
    stalls (.bind pd o b n f g) [(t.kpair o.toNat).toNat] ∧
    stalls (.arm pd arr f g) (t.arrays.getD arr.toNat ArrReg.reset).pages ∧ stalls (.ald arr k f g) [(t.kpair k.toNat).toNat] ∧
    (t.wait ≠ .retry → stalls (.spawn pd a f g) (spawns none) ∧ stalls (.spawnAt pd a tt f g) (spawns (some tt))) ∧
    ((t.arr arr).z = 3 → t.arrayLanes arr x imm.toInt t.active ≠ [] →
      (t.elided arr x imm.toInt = false ∨ (t.arr arr).armed = false) →
      exec (.jmpt arr x imm) s = .next (s.withDev ((s.dev.count r (if t.elided arr x imm.toInt then 7 else 6) 1).stall r
        (addresses (t.arrayLanes arr x imm.toInt t.active)))))) ∧
  (∀ (s : State) (r : ThreadRef) (t : Thread) (d c scale : BitVec 7) (a : BitVec 6) (op : BitVec 4) (ord : BitVec 2) (f : BitVec 1)
    (g : Guard) (dfmt sfmt arr x k o b : BitVec 4) (pd scope : BitVec 3) (n : BitVec 5) (imm : BitVec 8) (i : Instr) (len start : Nat)
    (ts : List (LaneAccess × Target)) (d1 d2 : Dev), Stalled s r t start i len →
    let d0 := s.dev.translated r start
    let goes := fun (x : Dev) => exec (.translationDone r) s = .next (s.withDev x)
    let size := if dfmt = 3 then 8 else 4
    let lanes := fun (n : Nat) => (maskLanes (t.taking g)).map fun l => (⟨l, t.addr l a, true, n⟩ : LaneAccess)
    (i = .atom d a op ord f g c dfmt sfmt scale → ord ≠ 0 → ∀ l, (lanes size).find? (fun l => l.addr.toNat % 8 ≠ 0) = some l →
      goes (d0.raise r ⟨causeAlign, 0, l.addr, BitVec.ofNat 8 l.lane⟩)) ∧
    (i = .atom d a op ord f g c dfmt sfmt scale → (ord ≠ 0 → ∀ l ∈ lanes size, l.addr.toNat % 8 = 0) →
      d0.checkLanes r true (!(op = 0 || op = 6 || op = 7)) (lanes size) = (.inl ts, d1) →
      let o := { d1.opFor r (.atomic op.toNat (dfmt = 3) (dfmt = 8) (ordAcq ord sfmt)) .atomic (t.flagOf f) (t.taking g) with
        dest := d, counted := true, pieces := ts.map fun y =>
          { Piece.new y.1.lane y.2 size with
            regs := regParts d size, data := (t.lane y.1.lane).bytes c size
            cmp := if op = 7 then bytesD ((t.lane y.1.lane).bytes scale size) else 0 } }
      d1.mayLaunch o = true → goes (((d1.launch o).2.dropAudit r).retire r 2)) ∧
    (i = .callm d a pd ord f g c sfmt scale → d0.callmDone r t d a pd ord f g c sfmt scale = some d2 → goes d2) ∧
    (i = .acq d a scope f g → d0.checkLanes r false true (t.objectLanes a (t.taking g)) = (.inl ts, d1) →
      let o := { d1.opFor r (.acq scope.toNat) .load (t.flagOf f) (t.taking g) with
        dest := d, pieces := ts.map fun y => Piece.new y.1.lane y.2 8 }
      goes ((d1.launch o).2.hold r (.op (d1.launch o).1))) ∧
    (i = .rel d a scope f g → d0.checkLanes r true true (t.objectLanes a (t.taking g)) = (.inl ts, d1) →
      let o := { d1.opFor r .rel .store (t.flagOf f) (t.taking g) with
        counted := true, pieces := ts.map fun y => { Piece.new y.1.lane y.2 8 with data := (t.lane y.1.lane).bytes d 8 } }
      d1.mayLaunch o = true → goes (if ((d1.launch o).2.op (d1.launch o).1).any Op.unsent then (d1.launch o).2.hold r (.op (d1.launch o).1)
        else (d1.launch o).2.retire r 1)) ∧
    (i = .unbind pd b f g → ∀ x, (d0.bindings (d0.ctxOf r)).find? (fun y => (bindingSpan y.2.2).1 = (t.kpair b.toNat).toNat) = some x →
      let object := 8 * (x.2.1.toNat / 8 % 2 ^ 53)
      ∀ q d1, d0.xlate r object false = (q, d1) →
        (∀ k, q = .xlate k → goes (d1.raise r ⟨causeXlate, BitVec.ofNat 64 k, BitVec.ofNat 64 object, 0xFF⟩)) ∧
        (q = .poison → goes (d1.raise r ⟨causePoison, 0, BitVec.ofNat 64 object, 0xFF⟩)) ∧
        (∀ tg e, q = .ok tg e → goes (((d1.homeWrite ((d1.ctxD (d1.ctxOf r) 32).toNat + 16 * x.1) (natBytes (x.2.1.toNat % 2 ^ 63) 8)).onThread r
          fun t => t.mapLanes false (t.taking g) fun _ l => l.setP pd true).retire r 1))) ∧
    (i = .bind pd o b n f g → (t.kpair o.toNat).toNat % 8 = 0 → (t.kpair b.toNat).toNat % 4096 = 0 →
      (t.kpair o.toNat).toNat / 2 ^ 54 < 2 → (t.kpair b.toNat).toNat / 2 ^ 54 < 2 →
      ∀ tg e, d0.xlate r (t.kpair o.toNat).toNat false = (.ok tg e, d1) →
      let q := d1.bindRegion (d1.coreOf r) (d1.tagOf r) (t.kpair o.toNat).toNat (t.kpair b.toNat).toNat (t.sreg n.toNat).toNat
      goes ((q.2.onThread r fun t => t.mapLanes false (t.taking g) fun _ l => l.setP pd q.1).retire r 1)) ∧
    (i = .arm pd arr f g → ∀ ok, d0.armArray r arr.toNat = (.inl ok, d1) →
      goes ((d1.onThread r fun t => t.mapLanes false (t.taking g) fun _ l => l.setP pd ok).retire r 1)) ∧
    (i = .ald arr k f g → d0.checkLanes r false false [⟨0, t.kpair k.toNat, true, 16⟩] = (.inl ts, d1) →
      let o := { d1.opFor r (.ald arr.toNat) .load (t.flagOf f) 1 with
        pieces := ts.flatMap fun y => [Piece.new 0 y.2 8, Piece.new 0 (y.2.plus 8) 8] }
      goes ((d1.launch o).2.hold r (.op (d1.launch o).1))) ∧
    (i = .jmpt arr x imm → d0.checkLanes r false false (t.arrayLanes arr x imm.toInt t.active) = (.inl ts, d1) → ts ≠ [] →
      t.clause ≠ none →
      let o := { d1.opFor r .jmpt .load none t.active with pieces := ts.map fun y => Piece.new y.1.lane y.2 8 }
      goes ((d1.launch o).2.hold r (.op (d1.launch o).1))))

/-- R385, R386, R127, R134: SPAWN and SPAWN.AT once translated, when every record address is aligned to 64 bytes in region 0 and the
records can be read, wait as a release. With the loss bit set they then take LOST; else, when the targets pass their checks, and for a
target of another package a message may be admitted and injected, each record enters a pool or goes on its way with its lane's
predicate, and the warp goes on. One that waits goes on without another stall while its translations are held. -/
def Obligations.Spawning : Prop :=
  ∀ (s : State) (r : ThreadRef) (t : Thread) (gr : Group) (pd : BitVec 3) (a tt : BitVec 6) (f : BitVec 1) (g : Guard) (at_ : Bool)
    (len start : Nat) (d0 : Dev) (rs ts : List (LaneAccess × Target)) (d1 d2 d3 : Dev),
    let i := if at_ then Instr.spawnAt pd a tt f g else .spawn pd a f g
    let mask := t.taking g
    let ls := if !uniAddr a || (at_ && !uniAddr tt) then maskLanes mask else [lowest mask]
    let vas := ls.map (fun l => (t.addr l a).toNat) ++ if at_ then ls.map fun l => (t.addr l tt).toNat else []
    let goes := fun (x : Dev) =>
      (Stalled s r t start i len → d0 = s.dev.translated r start → exec (.translationDone r) s = .next (s.withDev x)) ∧
      (Issues s r t → Allotted s r (addrRegs a ++ if at_ then addrRegs tt else []) → FlagFree t f → mask ≠ 0 → t.wait = .retry →
        s.dev.needsOf r vas = [] → d0 = s.dev → exec i s = .next (s.withDev x))
    d0.groupOf r = some gr →
    (∀ l ∈ ls, (t.addr l a).toNat % 64 = 0 ∧ (t.addr l a).toNat < 2 ^ 54) →
    d0.checkLanes r false false (ls.map fun l => ⟨l, t.addr l a, true, 64⟩) = (.inl rs, d1) →
    (d1.releaseReady r t = false → goes (d1.hold r .retry)) ∧
    (d1.releaseReady r t = true → t.loss = true → goes (d1.raiseLost r)) ∧
    (d1.releaseReady r t = true → t.loss = false →
    d1.checkLanes r false true (if at_ then ls.map fun l => ⟨l, t.addr l tt, true, 1⟩ else []) = (.inl ts, d2) →
    let remote := ts.any fun x => x.2.remote
    let mayGo := !d2.admissionWaits r && d2.mayInject gr.core.die (gr.job / 256) gr.jobNum
    let o := { d2.opFor r .spawn .engine (t.flagOf f) mask with pred := pd, pieces := ls.map fun l => Piece.new l (.state 0) 0 }
    let q := (d2.dropAudit r).addOp o
    let work := rs.map fun x => (x.1.lane, x.2, ((ts.find? fun y => y.1.lane = x.1.lane).map fun y => y.2).getD (.state 0))
    (remote = true → mayGo = false → goes (d2.hold r .retry)) ∧
    (remote = false ∨ mayGo = true → q.2.spawnAll r gr { o with id := q.1 } work = some d3 → goes (d3.retire r 1)))

/-- R103, R247, R249: the events of outstanding operations. A load's read is performed and its registers written one at a time;
a store reaches its home point and is acknowledged; an atomic's lanes are performed in ascending order, and the old value goes to
the lane. -/
def Obligations.OperationEvents : Prop :=
  ∀ (s : State) (id n : Nat) (o : Op) (p : Piece) (d1 : Dev), s.dev.op id = some o → o.pieces[n]? = some p →
    (∀ size signed b q off rest, o.kind = .load size signed → o.id = id → p.value = some b → p.done = false → p.regs = (q, off) :: rest →
      s.dev.waveReadsBad o n = none →
      let d2 := (s.dev.onLane o.thread p.lane fun l => l.set q (loadedWord size signed b off)).onPiece id n fun x => { x with regs := rest }
      exec (.loadDataReturn id n .write) s = .next (s.withDev (if rest = [] then d2.donePiece id n else d2))) ∧
    (o.kind.reads = true → s.dev.waveReadsBad o n = none → s.dev.readPiece s.fuses id n = some d1 →
      exec (.loadDataReturn id n .fix) s = .next (s.withDev (d1.afterRead id n))) ∧
    (o.kind = .store ∨ o.kind = .rel → s.dev.writePiece id n = some d1 → exec (.storeAck id n) s = .next (s.withDev d1)) ∧
    (∀ k w fl acq, o.kind = .atomic k w fl acq → o.pieceAt (fun x => x.open_) = some n →
      s.dev.writePiece id n = some d1 → exec (.atomicReply id .fix) s = .next (s.withDev d1)) ∧
    (∀ k w fl acq, o.kind = .atomic k w fl acq → o.pieceAt (fun x => !x.done && x.value.isSome) = some n →
      exec (.atomicReply id .write) s =
        .next (s.withDev (s.dev.writeRegister o n p (if w then 8 else 4) false (p.value.getD []))))

/-- R44, R106, R107: a store to ordinary memory of this package that finds no migration, no wave and no uncorrectable data in its
way writes its data at its line's home and no other byte of memory. R216: byte order. Reading back `n` bytes written at an
address gives those bytes, a byte outside them reads as before, and the value of the low `n` bytes of a number is the number
modulo 256 to the n. -/
def Obligations.StoreFrame : Prop :=
  (∀ (d d' : Dev) (lpa : Nat) (leaf : Leaf) (b : List Byte) (k : Nat), Memory.wf d.mem = true →
    d' = d.storeHome lpa leaf none b →
    ((k < d.home lpa ∨ d.home lpa + b.length ≤ k) → memGet d'.mem k = memGet d.mem k) ∧
    memRead d'.mem (d.home lpa) b.length = b) ∧
  (∀ (m : List Host.Cell) (a k v : Nat) (b : List Byte), Memory.wf m = true →
    memRead (memWrite m a b) a b.length = b ∧ ((k < a ∨ a + b.length ≤ k) → memGet (memWrite m a b) k = memGet m k) ∧
    bytesNat (natBytes v k) = v % 256 ^ k ∧ (natBytes v k).length = k)

/-! ## Synchronization -/

/-- R117 to R119, R348, R135, R345, R86, R387: the synchronization instructions that act at once. An acquire of a scope
drops what an earlier value could be read from and goes on; a release or a fence waits for the warp's stores and loads; QFENCE
holds issue while an entry of the named queues is ahead of it; UNBIND of a base without a binding answers false, else it stalls for its
object (the model's reading, log 53); DISARM releases the pins of an
array register; DONE waits as a release, releases its warp's pins and ends its clause's lanes. -/
def Obligations.SyncAtOnce : Prop :=
  ∀ (s : State) (r : ThreadRef) (t : Thread) (gr : Group) (q : Clause) (scope pd : BitVec 3) (arr b : BitVec 4)
    (msg copy mat f : BitVec 1) (g : Guard), Issues s r t → s.dev.groupOf r = some gr → t.clause = some q → FlagFree t f →
    t.taking g ≠ 0 → s.dev.waveA0 r arr = false → (∀ n, t.wait ≠ .fence n) →
    let goes := fun (i : Instr) (d : Dev) => exec i s = .next (s.withDev d)
    let acquired := s.dev.acquireAll (s.dev.coreOf r) (s.dev.ctxOf r) scope.toNat
    let ahead := s.dev.queued gr.core gr.gid s.dev.nextId (msg = 1) (copy = 1) (mat = 1)
    let base := (t.kpair b.toNat).toNat
    let unbound := (s.dev.bindings (s.dev.ctxOf r)).find? fun x => (bindingSpan x.2.2).1 = base
    goes (.acqAll scope f g) (acquired.retire r 1) ∧
    (t.unack = 0 → s.dev.loadsPending r = false → t.loss = false →
      goes (.relAll scope f g) (s.dev.retire r 1) ∧ goes (.fence scope f g) (acquired.retire r 1) ∧
      goes .done (((s.dev.count r 2 1).disarmWarp r).endThread r q.entry)) ∧
    (t.unack ≠ 0 ∨ s.dev.loadsPending r = true →
      goes (.relAll scope f g) (s.dev.hold r .retry) ∧ goes (.fence scope f g) (s.dev.hold r .retry) ∧ goes .done (s.dev.hold r .retry)) ∧
    (t.unack = 0 → s.dev.loadsPending r = false → t.loss = true →
      goes (.relAll scope f g) (s.dev.raiseLost r) ∧ goes (.fence scope f g) (s.dev.raiseLost r) ∧ goes .done (s.dev.raiseLost r)) ∧
    goes (.qfence msg copy mat f g) (if ahead then s.dev.hold r (.fence s.dev.nextId) else s.dev.retire r 1) ∧
    (base / 2 ^ 54 ≠ 2 →
      (unbound = none → goes (.unbind pd b f g)
        ((s.dev.onThread r fun t => t.mapLanes false (t.taking g) fun _ l => l.setP pd false).retire r 1)) ∧
      (∀ x, unbound = some x → goes (.unbind pd b f g) (s.dev.stall r [8 * (x.2.1.toNat / 8 % 2 ^ 53)]))) ∧
    goes (.disarm arr f g) ((s.dev.disarm r arr.toNat).retire r 1)

/-- R349: an arrival at an initialised barrier adds 1 to its count; the arrival that makes it the expected number completes the
phase: the count is 0 and the phase is the other one, and every warp that waited on the old phase is released and no other one
changes. At an uninitialised barrier there is no arrival. -/
def Obligations.BarrierArrival : Prop :=
  ∀ (d d' : Dev) (gid n : Nat) (gr : Group) (b : Barrier) (a : Arrival), d.group gid = some gr → n < gr.bars.length →
    d.bar (.group gid n) = some b →
    (b.expected = 0 → d.arrive (.group gid n) a = none) ∧
    (d.arrive (.group gid n) a = some d' → b.count < b.expected →
      (b.count + 1 < b.expected → ∃ x, d'.bar (.group gid n) = some x ∧ x.count = b.count + 1 ∧ x.phase = b.phase ∧
        x.expected = b.expected ∧ ∀ r, (d'.thread r).map (fun t => t.wait) = (d.thread r).map fun t => t.wait) ∧
      (b.count + 1 = b.expected → ∃ x, d'.bar (.group gid n) = some x ∧ x.count = 0 ∧ x.phase = !b.phase ∧
        x.expected = b.expected ∧
        ∀ g w t, d.thread (.warp g w) = some t → ∃ t', d'.thread (.warp g w) = some t' ∧
          (t.wait = .barrier (.group gid n) b.phase → ∃ sp wh sc, t'.wait = .released sp wh sc) ∧
          (t.wait ≠ .barrier (.group gid n) b.phase → t'.wait = t.wait) ∧ t'.lanes = t.lanes ∧ t'.frontier = t.frontier))

/-- R351 to R353: BAR.INIT and BARS.INIT initialise a barrier that is not busy; BAR.ARR and BARS.ARR arrive once the warp's
stores and loads are done; BAR.WAIT and BARS.WAIT end at once when the barrier is past the phase, else they wait; BAR.SYNC and
BARS.SYNC arrive and then wait for the next phase. R480: at a `.pod` barrier whose root is another package, the initialisation and the
arrival go to the root as counted messages, and wait while none may be injected; WAIT and SYNC go by the phase of the image here. -/
def Obligations.BarrierInstructions : Prop :=
  ∀ (s : State) (gid wid : Nat) (t : Thread) (gr : Group) (b : BitVec 4) (e h v : BitVec 5) (scope n : BitVec 3) (u : BitVec 1)
    (g : Guard) (x y : Barrier) (ref : BarRef) (entry : Nat) (gen : BitVec 16) (d1 : Dev),
    let r := ThreadRef.warp gid wid
    Issues s r t → s.dev.group gid = some gr → t.taking g ≠ 0 → wideBar gr scope n = some ref →
    let own := BarRef.group gr.gid b.toNat
    s.dev.bar own = some x → s.dev.bar ref = some y →
    let goes := fun (i : Instr) (d : Dev) => exec i s = .next (s.withDev d)
    let expected := (t.sreg e.toNat).toNat
    let ph := if u = 1 then (t.sreg v.toNat).getLsbD 0 else v.getLsbD 0
    let clear := t.unack = 0 ∧ s.dev.loadsPending r = false ∧ t.loss = false
    let fresh := t.wait = .none ∨ t.wait = .retry
    let mine := { Arrival.plain with member := some wid }
    let widest := if scope = 1 then 1023 else 2 ^ 24 - 1
    let past := fun (d : Dev) (z : Barrier) (k : BarRef) => d.endWait r (max k.scope z.lastSig) z.lastSpans z.lastWhole
    let here := s.dev.podRemote gr scope = false
    let free := s.dev.mayInject gr.core.die (gr.job / 256) gr.jobNum = true
    let sent := fun (operand : Nat) (p : Payload) =>
      s.dev.inject gr.core.die ⟨5, gr.job / 256, gr.jobNum, gr.ctx, s.dev.root gr.ctx, operand, 0, 8⟩ p (.bar r)
    (1 ≤ expected → expected ≤ 1023 → s.dev.barBusy own = false →
      (s.dev.die (s.dev.entryDie gr)).groupTable.find? (fun z => z.2.2 = some gr.gid) = some (entry, gen, some gr.gid) →
      goes (.barInit b e h g) (((s.dev.initBar own expected).onThread r fun t =>
        (t.setS h.toNat (BarHandle.mk s.dev.pkgNum (s.dev.entryDie gr) entry b.toNat gen).word.lo).setS (h.toNat + 1)
          (BarHandle.mk s.dev.pkgNum (s.dev.entryDie gr) entry b.toNat gen).word.hi).retire r 1)) ∧
    (here → 1 ≤ expected → expected ≤ widest → s.dev.barBusy ref = false →
      goes (.barsInit scope n e g) ((s.dev.initBar ref expected).retire r 1)) ∧
    (clear → s.dev.arrive own mine = some d1 → goes (.barArr b g) (d1.retire r 1)) ∧
    (here → clear → s.dev.arrive ref Arrival.plain = some d1 → goes (.barsArr scope n g) (d1.retire r 1)) ∧
    (fresh → x.phase ≠ ph → goes (.barWait b u v g) (past s.dev x own)) ∧
    (fresh → x.phase = ph → goes (.barWait b u v g) (s.dev.hold r (.barrier own ph))) ∧
    (fresh → y.phase ≠ ph → goes (.barsWait scope n u v g) (past s.dev y ref)) ∧
    (fresh → y.phase = ph → goes (.barsWait scope n u v g) (s.dev.hold r (.barrier ref ph))) ∧
    (∀ z, fresh → clear → s.dev.arrive own mine = some d1 → d1.bar own = some z →
      goes (.barSync b g) (if z.phase ≠ x.phase then past d1 z own else d1.hold r (.barrier own x.phase))) ∧
    (∀ z, here → fresh → clear → s.dev.arrive ref Arrival.plain = some d1 → d1.bar ref = some z →
      goes (.barsSync scope n g) (if z.phase ≠ y.phase then past d1 z ref else d1.hold r (.barrier ref y.phase))) ∧
    (¬here → 1 ≤ expected → expected ≤ 2 ^ 24 - 1 →
      goes (.barsInit scope n e g) (if free then (sent 1 (.podInit n.toNat expected)).retire r 1 else s.dev.hold r .retry)) ∧
    (¬here → clear → goes (.barsArr scope n g) (if free then (sent 0 (.podArrive n.toNat)).retire r 1 else s.dev.hold r .retry)) ∧
    (∀ z, ¬here → fresh → clear → (sent 0 (.podArrive n.toNat)).bar ref = some z →
      goes (.barsSync scope n g) (if free then (if z.phase ≠ y.phase then past (sent 0 (.podArrive n.toNat)) z ref
        else (sent 0 (.podArrive n.toNat)).hold r (.barrier ref y.phase)) else s.dev.hold r (.arriving y.phase))) ∧
    (∀ sp wh sc, t.wait = .released sp wh sc →
      goes (.barWait b u v g) (s.dev.endWait r sc sp wh) ∧ goes (.barSync b g) (s.dev.endWait r sc sp wh) ∧
      goes (.barsWait scope n u v g) (s.dev.endWait r sc sp wh) ∧ goes (.barsSync scope n g) (s.dev.endWait r sc sp wh))

/-- R208, R211, R212, R354, R355: FORK of an idle sequencer gives it a program with the warp's uniform registers at the target,
and a fork of the matrix sequencer passes the baton to it, while entries of an ended program go on as the forking warp's; RNDV goes on
once the program the warp forked and its entries have ended; BATON.TAKE goes on with a free baton that no one waits for before, else it waits; the holder passes or frees it. -/
def Obligations.SequencersAndBaton : Prop :=
  ∀ (s : State) (gid wid : Nat) (t : Thread) (gr : Group) (q : Clause) (e u : BitVec 1) (o : BitVec 20) (w : BitVec 5),
    let r := ThreadRef.warp gid wid
    Issues s r t → s.dev.group gid = some gr → t.clause = some q →
    let goes := fun (i : Instr) (d : Dev) => exec i s = .next (s.withDev d)
    let k := s.dev.core gr.core
    let copy := decide (e = 1)
    let prog := k.seq copy
    let holds := k.baton = .warp gr.gid wid
    let target := q.addr + BitVec.ofInt 64 (4 * o.toInt)
    let n := if u = 1 then (t.sreg w.toNat).toNat else w.toNat
    (prog.any (fun p => !p.ended) = false → (e = 1 ∨ holds) →
      goes (.fork e o) (((s.dev.orphanSeq gr.core copy).onCore gr.core fun k =>
        let k := k.setSeq copy (some ⟨seqThread t target, gr.gid, wid, false⟩)
        if copy then k else { k with baton := .seq gr.gid }).retire r 1)) ∧
    (prog.any (fun p => !p.ended) = true → (e = 1 ∨ holds) → goes (.fork e o) (s.dev.hold r .retry)) ∧
    (e = 0 → ¬ holds → goes (.fork e o) (s.dev.raise r (.plain causeBaton 0))) ∧
    (prog = none → s.dev.orphans gr.core copy r = false → t.seqFaults = [] → goes (.rndv e) (s.dev.retire r 1)) ∧
    (∀ p, prog = some p → ¬(p.gid = gr.gid ∧ p.forker = wid) → s.dev.orphans gr.core copy r = false → t.seqFaults = [] →
      goes (.rndv e) (s.dev.retire r 1)) ∧
    (s.dev.orphans gr.core copy r = true → goes (.rndv e) (s.dev.hold r .retry)) ∧
    (∀ p, prog = some p → p.gid = gr.gid → p.forker = wid → p.ended = true → s.dev.seqPending gr.core copy = false →
      s.dev.orphans gr.core copy r = false → t.seqFaults = [] → goes (.rndv e) ((s.dev.onCore gr.core fun k => k.setSeq copy none).retire r 1)) ∧
    (∀ p, prog = some p → p.gid = gr.gid → p.forker = wid → (p.ended = false ∨ s.dev.seqPending gr.core copy = true) →
      goes (.rndv e) (s.dev.hold r .retry)) ∧
    (holds ∨ (k.baton = .free ∧ (k.batonQueue = [] ∨ k.batonQueue.head? = some (gr.gid, wid))) →
      goes .batonTake ((s.dev.onCore gr.core fun k =>
        { k with baton := .warp gr.gid wid, batonQueue := k.batonQueue.filter fun x => x ≠ (gr.gid, wid),
                 owner := if k.owner = some gr.gid then k.owner else none }).retire r 1)) ∧
    (¬ holds → (k.baton ≠ .free ∨ (k.batonQueue.head?.any fun x => x ≠ (gr.gid, wid)) = true) →
      goes .batonTake ((s.dev.onCore gr.core fun k =>
        { k with batonQueue := if k.batonQueue.contains (gr.gid, wid) then k.batonQueue else k.batonQueue ++ [(gr.gid, wid)] }).hold r
          .baton)) ∧
    (holds → n < gr.warps.length →
      goes (.batonPass u w) ((s.dev.onCore gr.core fun k =>
        { k with baton := .warp gr.gid n, batonQueue := k.batonQueue.filter fun x => x ≠ (gr.gid, n) }).retire r 1)) ∧
    (holds → goes .batonPassNone ((s.dev.onCore gr.core fun k => { k with baton := .free }).retire r 1)) ∧
    (¬ holds → goes .batonPassNone (s.dev.raise r (.plain causeBaton 0)) ∧ goes (.batonPass u w) (s.dev.raise r (.plain causeBaton 0)))

/-- R162, R163, R134, R356, R357, R382: QUIET takes its place, asks for a traverse of its job and waits with its deadline; a
decision writes its status and the timeout writes 2, or with a zero operand takes QUIETTO. SIGNAL to a group of this package, with
nothing of the warp's that an entry waits for, enters the message queue and the base die, where it arrives at the barrier its
handle names; a spawn that crosses the base die enters the pool there. -/
def Obligations.QuietAndSignal : Prop :=
  ∀ (s : State) (gid wid : Nat) (t : Thread) (gr : Group) (d : BitVec 7) (tm : BitVec 5) (f rel : BitVec 1) (h : BitVec 4)
    (scope : BitVec 3) (g : Guard) (start dl index : Nat) (d1 : Dev) (ctx : Nat) (c : CoreRef)
    (e : Nat) (rf : ThreadRef) (v : DWord) (sr : Bool) (sc : Nat),
    let r := ThreadRef.warp gid wid
    s.dev.thread r = some t → s.dev.group gid = some gr → t.taking g ≠ 0 →
    let goes := fun (i : Instr) (d : Dev) => exec i s = .next (s.withDev d)
    let done := fun (n : Nat) => s.dev.quietEnd r d (t.taking g) n
    let us := (t.sreg tm.toNat).toNat
    let hv := t.kpair h.toNat
    let sent := fun (x : Dev) => { x with transfers := x.transfers ++ [Transfer.signal hv gr.ctx gr.core s.dev.nextId r (rel = 1) scope.toNat] }
    let dropped := { s.dev with transfers := s.dev.transfers.eraseIdx index }
    (s.dev.issuer = some r → Allotted s r [d] → FlagFree t f →
      (t.wait = .none →
        let placed := s.dev.bump
        let deadline := placed.2.quietDeadline us
        goes (.quiet d tm f g) (((placed.2.dropAudit r).hold r (.quiet placed.1 deadline none)).demandTraverse gr.ctx gr.jobNum
          placed.1 deadline)) ∧
      (∀ n, t.wait = .quiet start dl (some n) → goes (.quiet d tm f g) (done n)) ∧
      ((BarHandle.ofWord hv).pkg = s.dev.pkgNum → s.dev.admissionWaits r = false →
        (rel = 1 → ((s.dev.core gr.core).msgs.any fun m => m.thread = r) = false ∧ s.dev.releaseReady r t = true ∧ t.loss = false) →
        goes (.signal h scope rel g) (((sent ({ s.dev with nextId := s.dev.nextId + 1 }.onCore gr.core fun (k : Core) =>
          { k with msgs := k.msgs ++ [(⟨s.dev.nextId, r, gr.gid, .signal hv scope.toNat (rel = 1), true, false⟩ : MsgEntry)] })).dropAudit r).retire r 1))) ∧
    (t.wait = .quiet start dl none → t.head = some (.ok (.quiet d tm f g) 1) → dl ≤ s.dev.now →
      (us ≠ 0 → goes (.quietTimeout r) (done 2)) ∧
      (us = 0 → goes (.quietTimeout r) (s.dev.raise r (.plain causeQuietTo 0)))) ∧
    (s.dev.transfers[index]? = some (.signal v ctx c e rf sr sc) →
      (s.dev.arriveSignal v ctx sr sc = some d1 →
        goes (.signalBaseDieTransfer index) ({ d1 with transfers := d1.transfers.eraseIdx index }.msgDone c fun x => x.id = e)) ∧
      (s.dev.arriveSignal v ctx sr sc = none →
        goes (.signalBaseDieTransfer index) ((dropped.markLoss rf).msgDone c fun x => x.id = e))) ∧
    (∀ die x op lane, s.dev.transfers[index]? = some (.spawn x die op lane) →
      (dropped.enterRec die x = none → goes (.spawnBaseDieTransfer index) (dropped.spawnEnd op lane false)) ∧
      (∀ d2 d3, dropped.enterRec die x = some d2 → d2.countEntered die x = some d3 →
        goes (.spawnBaseDieTransfer index) (d3.spawnEnd op lane true)))

/-! ## Massif -/

/-- R208, R209, R360 to R374: with the baton, room in the queue and no other group's entry in it, and nothing of the warp's that an
entry waits for, a matrix instruction that passes its checks is admitted: its entry goes to the end of the queue, its flag is
tagged, and the warp goes on. MLDB from memory stalls for its translations first. That an admission waits while the queue holds 64
entries (`matrix.length < 64`) is the model's choice: the spec gives the queue no depth (log 25). -/
def Obligations.MatrixAdmission : Prop :=
  ∀ (s : State) (r : ThreadRef) (t : Thread) (gr : Group) (m w a3 b3 rnd : BitVec 3) (a sa dd : BitVec 7) (b dfmt fmt : BitVec 4)
    (e isInt sat ftz f sp sparse : BitVec 1) (sc : BitVec 5) (g : Guard) (sh : Shape), Issues s r t →
    s.dev.groupOf r = some gr → (s.dev.core gr.core).baton = holderOf r gr →
    ((s.dev.core gr.core).owner = some gr.gid ∨ (s.dev.core gr.core).matrix = []) →
    (s.dev.core gr.core).matrix.length < 64 → s.dev.admissionWaits r = false → FlagFree t f →
    let d := s.dev.onCore gr.core fun k => k.owned gr.gid
    let k := d.core gr.core
    let put := fun (x : Dev) (flag signal : Option Nat) (len : Nat) (v : List Word) (op : MatrixOp) =>
      let words := t.substituteAll op.unitFields ((t.clause.map fun c => c.words.take len).getD [])
      ((({ x with nextId := x.nextId + 1 }.onCore gr.core fun (k : Core) =>
        { k with matrix := k.matrix ++ [(⟨x.nextId, false, r, gr.gid, flag, signal, op, words, v, false⟩ : MatrixEntry)] }).onThread r
        fun t => t.tagFlag flag).retire r len)
    let goes := fun (i : Instr) (x : Dev) => exec i s = .next (s.withDev x)
    let ok := fun (n : Option Nat) => ∀ i, n = some i → (gr.bars.getD i Barrier.reset).expected ≠ 0
    let sig := signalOf sh.sh6.value.toNat
    goes (.mzero m isInt) (put d none none 1 [] (.mzero m.toNat (isInt = 1))) ∧
    (ok (some b.toNat) → goes (.msig b) (put d none (some b.toNat) 1 [] .msig)) ∧
    (let end_ := if e = 1 then some b.toNat else none
     ok end_ → goes (.mseqEnd e b) ((put d none end_ 1 [] .seqEnd).onThread r fun t =>
       if t.wait = .none then { t with frontier := [], clause := none, wait := .op 0 } else t)) ∧
    (let c0 := t.shape sh.sh1
     let cols := t.shape sh.sh2
     let lanes := maskLanes (t.taking g)
     1 ≤ cols → c0 + cols ≤ 128 →
     (t.taking g ≠ 0 → Allotted s r [dd] → goes (.mamax m dd f g sh) (put d (t.flagOf f) none 5
       [BitVec.ofNat 32 c0, BitVec.ofNat 32 cols, t.taking g] (.mamax m.toNat c0 cols lanes dd))) ∧
     (t.taking g ≠ 0 → (isSeq r = true ∨ t.shape sh.sh5 = 0) → ok sig → (k.tileInt m.toNat = true ∨ dfmt ≠ 2) →
       let lanes := if isSeq r then maskLanes (BitVec.ofNat 32 (t.shape sh.sh5)) else lanes
       let size := cols * mrdBytes dfmt
       let base := t.unitAddr sh.sh3
       let pitch := t.shape sh.sh4 * 16
       let op := fun (goes : Option (BitVec 7)) => MatrixOp.mrd m.toNat dfmt rnd.toNat (sat = 1) (ftz = 1) c0 cols lanes goes base pitch 0
       let v := [BitVec.ofNat 32 c0, BitVec.ofNat 32 cols, BitVec.ofNat 32 base, BitVec.ofNat 32 pitch, maskOf fun l => lanes.contains l]
       (sh.sh0.value = 1 → size ≤ pitch → base % mrdBytes dfmt = 0 → (∀ i ∈ lanes, gr.ownSpan (base + i * pitch) size = true) →
         goes (.mrd m dfmt rnd sat ftz dd f g sh) (put d (t.flagOf f) sig 5 v (op none))) ∧
       (sh.sh0.value ≠ 1 → size % 4 = 0 → size ≤ 64 → dd.toNat + size / 4 ≤ 112 → Allotted s r [dd] →
         d.allotTrap r (regRun dd (size / 4)) = none →
         goes (.mrd m dfmt rnd sat ftz dd f g sh) (put d (t.flagOf f) sig 5 v (op (some dd)))))) ∧
    (let fm := sh.sh0.value.extractLsb' 0 4
     let n := (sh.sh0.value.extractLsb' 4 3).toNat + 1
     let slots := (k.slots.drop w.toNat).take n
     let stride := t.shape sh.sh1
     let segs := slots.map fun x => elementBytes fm (8 * x.admBands)
     let sbase := t.unitAddr sh.sh5
     let rowOk := fun (row : Nat × Nat) => row.2 % 16 = 0 ∧ ∀ j < n, gr.ownSpan (row.2 + 16 * stride * j) (segs.getD j 0) = true
     let v := fun (rows : List (Nat × Nat)) (scales : List (List Word)) =>
       [BitVec.ofNat 32 stride, BitVec.ofNat 32 sbase, maskOf fun l => rows.any fun x => x.1 == l] ++
         foldIdx (fun k (l : List Word) x => l ++ BitVec.ofNat 32 x.2 :: scales.getD k []) 0 [] rows
     w.toNat + n ≤ 8 → formatsAgree fm slots (k.tileInt m.toNat) = true → ok sig → (∀ x ∈ segs.take (n - 1), x ≤ 16 * stride) →
     (let rows := (maskLanes (t.taking g)).map fun l => (l, ((t.lane l).get a).toNat)
      t.taking g ≠ 0 → (∀ x ∈ rows, rowOk x) →
      (Machine.isNarrow fm = false → sa = 0 → Allotted s r [a] →
        goes (.mma m w a sa g sh) (put d none sig 5 (v rows []) (.mma m.toNat w.toNat n fm rows (16 * stride) [] none))) ∧
      (Machine.isNarrow fm = true → sa.toNat + n ≤ 112 → Allotted s r (a :: regRun sa n) →
        let scales := rows.map fun x => (upFrom 0 n).map fun j => (t.lane x.1).get (sa + BitVec.ofNat 7 j)
        goes (.mma m w a sa g sh) (put d none sig 5 (v rows scales) (.mma m.toNat w.toNat n fm rows (16 * stride) scales none)))) ∧
     (let rows := (maskLanes (BitVec.ofNat 32 (t.shape sh.sh2))).map fun i => (i, t.unitAddr sh.sh3 + i * (t.shape sh.sh4 * 16))
      (∀ x ∈ rows, rowOk x) →
      sbase % 16 = 0 → (∀ x ∈ rows, ∀ j < n, gr.ownSpan (sbase + 32 * x.1 + 4 * j) 4 = true) →
      goes (.mmaStr m w sh) (put d none sig 5 (v rows []) (.mma m.toNat w.toNat n fm rows (16 * stride) []
        (if Machine.isNarrow fm then some sbase else none))))) ∧
    (let src := t.kpair a3.toNat
     let bm := t.kpair b3.toNat
     let src := if sp = 1 then src.lo.toNat else src.toNat
     let bm := if sp = 1 then bm.lo.toNat else bm.toNat
     let pitch := t.shape sh.sh0
     let bands := t.shape sh.sh1
     let scale := t.sreg sc.toNat
     let sg := signalOf sh.sh2.value.toNat
     src % 16 = 0 → (sparse = 1 → bm % 16 = 0) → 1 ≤ bands → bands ≤ 64 → (sparse = 0 → bands = 16) →
     elementBytes fmt 128 ≤ pitch * 16 → ok sg →
     (sp = 0 → goes (.mldb w fmt sc a3 b3 sp sparse sh)
       (d.stall r (mldbPages fmt src pitch (min 16 bands) ++ if sparse = 1 then [bm, bm + 2 * bands - 1] else []))) ∧
     (sp = 1 → ∀ map bits, d.mldbScratch gr fmt src bm (sparse = 1) bands pitch = some (map, bits) →
       goes (.mldb w fmt sc a3 b3 sp sparse sh) (put
         (d.onCore gr.core fun (k : Core) => { k with slots := updAt k.slots w.toNat fun x =>
           { x with admFmt := some fmt, admBands := bands, admMap := map } }) none sg 5
         ([scale, BitVec.ofNat 32 bands, BitVec.ofNat 32 pitch] ++ (EngineSpace.scr src).words ++
           if sparse = 1 then (EngineSpace.scr bm).words else [])
         (.mldb w.toNat fmt scale bands map bits (if sparse = 1 then some (.scr bm) else none) (.scr src) [] pitch))))

/-- R133, R249, R366, R367, R370, R373, R374: Massif performs the entry at the head of its queue; MMA, MRD and MAMAX may be
performed some rows at a time, and an MRD to registers one register at a time. An entry of a replaced program writes no register.
Each row of an MMA passes through its K blocks in ascending order, and an I8 block adds the exact products of the slot's bands to
the element modulo 2^96. A performed entry leaves the queue, untags its flag and arrives at its barrier. -/
def Obligations.MatrixEntryRun : Prop :=
  (∀ (s : State) (c : CoreRef) (e : MatrixEntry) (g : Group) (rest : List MatrixEntry) (n : Option Nat), s.dev.clocked = true →
    (s.dev.core c).matrix = e :: rest → s.dev.group e.gid = some g →
    let tile := fun (m : Nat) => (s.dev.core c).tiles.getD m Tile.reset
    let goes := fun (d : Dev) => exec (.matrixEntryRun c n) s = .next (s.withDev d)
    let keep := fun (op : MatrixOp) (d : Dev) => d.onCore c fun (k : Core) =>
      { k with matrix := updBy (fun x => x.id = e.id) (fun x => { x with op := op, started := true }) k.matrix }
    let part := fun {α : Type} (l : List α) => (n.getD l.length).min l.length
    (e.op = .msig → goes (s.dev.matrixDone c e)) ∧
    (e.op = .seqEnd → e.orphan = false → goes ((s.dev.matrixDone c e).seqEnd c false none)) ∧
    (∀ m i, e.op = .mzero m i → goes ((s.dev.onCore c fun (k : Core) =>
      { k with tiles := updAt k.tiles m fun _ => { Tile.reset with isInt := i } }).matrixDone c e)) ∧
    (∀ w fmt sb bands map bits bm src pages pitch d1, e.op = .mldb w fmt sb bands map bits bm src pages pitch →
      s.dev.loadSlot s.fuses c g e w fmt sb bands map bits bm src pages pitch = some d1 → goes (d1.matrixDone c e)) ∧
    (∀ m w k fmt rows stride scales sbase, e.op = .mma m w k fmt rows stride scales sbase → n ≠ some 0 →
      let slots := ((s.dev.core c).slots.drop w).take k
      let scale := fun (x i j : Nat) => match sbase with
        | some b => BitVec.ofNat 32 (bytesNat (g.scratchRead (b + 32 * i + 4 * j) 4))
        | none => (scales.getD x []).getD j 0
      let after := foldIdx (fun x t row => mmaRow g slots fmt stride t row (scale x row.1)) 0 (tile m) (rows.take (part rows))
      let d := (s.dev.onCore c fun (k : Core) => { k with tiles := updAt k.tiles m fun _ => after }).count e.thread 8
        (part rows * planes fmt * (if slots.any fun x => !x.map.isEmpty then 1 else 0))
      goes (if part rows = rows.length then d.matrixDone c e
        else keep (.mma m w k fmt (rows.drop (part rows)) stride (scales.drop (part rows)) sbase) d)) ∧
    (∀ m df rnd sat ftz c0 cols lanes dest base pitch wrote, e.op = .mrd m df rnd sat ftz c0 cols lanes dest base pitch wrote →
      let row := fun (i : Nat) => rowBytes (tile m) df rnd sat ftz c0 cols i
      let rest := fun (l : List Nat) (k : Nat) => keep (.mrd m df rnd sat ftz c0 cols l dest base pitch k)
      (n ≠ some 0 →
        let d := foldIdx (fun k (d : Dev) i => d.writeRow e i (row i) dest (base + i * pitch) (if k = 0 then wrote else 0) 16) 0 s.dev
          (lanes.take (part lanes))
        goes (if part lanes = lanes.length then d.matrixDone c e else rest (lanes.drop (part lanes)) 0 d)) ∧
      (n = some 0 → dest ≠ none → ∀ i l, lanes = i :: l →
        let d := s.dev.writeRow e i (row i) dest 0 wrote 1
        goes (if wrote + 1 < ((row i).length + 3) / 4 then rest lanes (wrote + 1) d
          else if l = [] then d.matrixDone c e else rest l 0 d))) ∧
    (∀ m c0 cols lanes reg, e.op = .mamax m c0 cols lanes reg → n ≠ some 0 →
      let d := (lanes.take (part lanes)).foldl (fun (d : Dev) i =>
        if e.orphan then d else d.onLane e.thread i fun l => l.set reg (rowMax (tile m) c0 cols i)) s.dev
      goes (if part lanes = lanes.length then d.matrixDone c e
        else keep (.mamax m c0 cols (lanes.drop (part lanes)) reg) d))) ∧
  (∀ (a : List Byte) (sl : WSlot) (sc : Word) (col c : Nat), sl.fmt = some 0 →
    let product := fun (phys b t : Nat) =>
      (a.getD (8 * b + t) 0).toInt * (BitVec.ofNat 8 ((sl.data.getD (8 * phys + t) []).getD col 0)).toInt
    let sum := (foldIdx (fun phys (v : Int) b => v + ((upFrom 0 8).map fun t => product phys b t).sum) 0 0 sl.map)
    BitVec.ofNat 96 (afterBlock 0 a sl sc col c) = BitVec.ofNat 96 c + BitVec.ofInt 96 sum)

/-! ## Copies -/

/-- R134, R375 to R381: with a taking-part lane, room in its flag, and nothing of the warp's that an entry waits for, a copy
instruction that passes its checks puts one entry at the end of its core's queue, tags its flag, and goes on. -/
def Obligations.CopyAdmission : Prop :=
  ∀ (s : State) (r : ThreadRef) (t : Thread) (gr : Group) (dk sk h pd : BitVec 3) (dsp ssp sp : BitVec 2) (st d sz du : BitVec 5)
    (sg f arr : BitVec 1) (b ar : BitVec 4) (g : Guard) (sh : Shape), Issues s r t → s.dev.groupOf r = some gr → t.taking g ≠ 0 →
    FlagFree t f → s.dev.admissionWaits r = false →
    let goes := fun (i : Instr) (len : Nat) (x : Dev) (op : CopyOp) (e : CopyEntry → CopyEntry) => exec i s = .next (s.withDev
      ((({ x with nextId := x.nextId + 1 }.onCore gr.core fun (k : Core) =>
        { k with copy := k.copy ++ [{ e (x.copyEntry r gr (t.flagOf f) op) with id := x.nextId }] }).onThread r
        fun t => t.tagFlag (t.flagOf f)).retire r len))
    let v := sh.sh7.value.toNat
    let handle := if sg = 1 then some (t.kpair (8 + h.toNat)) else none
    let ends := fun (e : CopyEntry) => { e with
      st := some st, signal := handle, arrive := if v / 8 % 2 = 1 then some (v / 16 % 16) else none }
    let copies := fun (i : Instr) (ck fill : Bool) => ∀ op,
      s.dev.copyCommand (some gr) gr.core.die gr.ctx ck fill dk sk dsp ssp sh t.kpair t.shape = .inl op →
      goes i 5 s.dev op fun e => { ends e with
        start := if ck = true ∧ v / 256 % 2 = 1 then some (t.sreg (st.toNat + 1)) else none
        expect := if ck = true ∧ v / 512 % 2 = 1 then some (t.sreg (st.toNat + 2)) else none }
    copies (.dcopy dk sk dsp ssp st sg h f g sh) false false ∧ copies (.dcopyCk dk sk dsp ssp st sg h f g sh) true false ∧
    copies (.dfill dk sk dsp ssp st sg h f g sh) false true ∧
    (let x : BitVec 4 := sh.sh0.value.extractLsb' 0 4
     let a := t.arr ar
     let i := t.takingIvl x (sh.sh1.value.toNat - 1024) (t.taking g)
     let e : Int := a.extent.toNat
     let j := if i = ivlTop then (⟨0, e - 1⟩ : Ivl) else ivlMeet i ⟨0, e - 1⟩
     let lo := if j.hi < j.lo then 0 else j.lo.toNat
     let count := (j.hi - j.lo + 1).toNat
     let n := count * 2 ^ a.z
     let base := a.base.toNat + lo * 2 ^ a.z
     let side := spaceOf sp (t.kpair dk.toNat)
     Allotted s r [112 + x.setWidth 7] → st.toNat ≤ 30 → a.base.toNat / 2 ^ 54 ≠ 2 → n ≤ 2 ^ 31 → count ≤ t.shape sh.sh2 →
     (∀ y, side = .virt y → spansMeet [(base, n)] [(y, n)] = false) →
     s.dev.operandBad (some gr) gr.core.die gr.ctx side n (2 ^ a.z) = [] →
     let noted := fun (scatter : Bool) => if a.log then
       s.dev.logFootprint gr.core (s.dev.tagOf r) (if scatter then 3 else 2) (if count = 0 then none else some (base, n)) else s.dev
     ((noted false).admissionWaits r = false → goes (.dgather dk ar sp st sg h f g sh) 5 (noted false) (.footprint false (.virt base) lo count a.z side false)
       (fun e => { ends e with code := 0 })) ∧
     ((noted true).admissionWaits r = false → goes (.dscat dk ar sp st sg h f g sh) 5 (noted true) (.footprint true (.virt base) lo count a.z side false)
       (fun e => { ends e with code := 0 }))) ∧
    goes (.dlease d sz du pd f g) 1 s.dev (.lease false d (t.sreg sz.toNat) (t.sreg du.toNat) pd (t.taking g)) (fun e => e) ∧
    goes (.dleaseRenew d du pd f g) 1 s.dev (.lease true d (t.sreg d.toNat) (t.sreg du.toNat) pd (t.taking g)) (fun e => e) ∧
    (((t.sreg d.toNat).extractLsb' 30 2).toNat = gr.core.die → (t.sreg d.toNat).extractLsb' 16 10 = 0 →
      goes (.dunlease d f g) 1 s.dev (.unlease (t.sreg d.toNat)) fun e => e) ∧
    ((arr = 1 → (gr.bars.getD b.toNat Barrier.reset).expected ≠ 0) →
      goes (.dsig b arr sg h f g) 1 s.dev .sig fun e => { e with arrive := if arr = 1 then some b.toNat else none, signal := handle }) ∧
    (s.dev.isSuper r = true → (t.kpair dk.toNat).toNat % 16 = 0 →
      goes (.dreloc dk st f g) 1 s.dev (.reloc (t.kpair dk.toNat).toNat) fun e => { e with st := some st })

/-- R61, R69, R133, R363, R377, R380, R411, R481: a started command moves its elements in order; one whose elements are moved and
whose writes are answered ends once every earlier entry is performed; leases are granted, renewed and freed in queue order. A copy
record's command that is performed completes its record, an expired lease ends, and a footprint entry is written after 10 µs. A
status word is 0, or has bit 31, the cause of codes 1 to 3 in bits 15:8, and the code. -/
def Obligations.CopyEvents : Prop :=
  (∀ (s : State) (c : CoreRef) (e : CopyEntry) (n : Nat) (d1 : Dev), s.dev.clocked = true →
    (s.dev.core c).copy.find? (fun x => x.id = e.id) = some e → e.done = false → (s.dev.core c).started e.id = true →
    let goes := fun (n : Option Nat) (d : Dev) => exec (.copyCommandRun c e.id n) s = .next (s.withDev d)
    let first := (s.dev.core c).copy.find? (fun x => !x.done) = some e
    (∀ a b f1 f2 dst src fill size x y z p1 p2 p3 p4, e.op = .copy a f1 f2 dst src fill size x y z p1 p2 p3 p4 → b = x * y * z →
      (e.pos < b → s.dev.mustWait c e = false → s.dev.moveMany s.fuses c e.id n = some d1 → 0 < n → goes (some n) d1) ∧
      (b ≤ e.pos → e.beat = none → first → e.unanswered = 0 → s.dev.endCopy c e = some d1 → goes none d1) ∧
      (b ≤ e.pos → e.beat ≠ none → s.dev.flushBeat c e = some d1 → goes none d1)) ∧
    (∀ sc a lo k z side big, e.op = .footprint sc a lo k z side big → big = false →
      (e.pos < k → s.dev.mustWait c e = false → s.dev.moveMany s.fuses c e.id n = some d1 → 0 < n → goes (some n) d1) ∧
      (k ≤ e.pos → e.beat = none → first → e.unanswered = 0 → s.dev.endCopy c e = some d1 → goes none d1)) ∧
    (∀ renew reg units dur pd mask, e.op = .lease renew reg units dur pd mask → first →
      goes none (s.dev.runLease c e renew reg units dur pd mask)) ∧
    (∀ h, e.op = .unlease h → first → s.dev.runUnlease c e h = some d1 → goes none d1) ∧
    (e.op = .sig → first → s.dev.runSig c e = some d1 → goes none d1) ∧
    (∀ a, e.op = .reloc a → (e.pos = 0 → s.dev.mustWait c e = false → s.dev.runReloc s.fuses c e a = some d1 → goes none d1) ∧
      (e.pos ≠ 0 → first → e.unanswered = 0 → s.dev.endCopy c e = some d1 → goes none d1))) ∧
  (∀ (s : State) (c : CoreRef) (e : CopyEntry) (x : Rec) (d1 : Dev), (s.dev.core c).copy.find? (fun y => y.id = e.id && y.done) = some e →
    e.record = some x → s.dev.completeRec c x = some d1 →
    exec (.copyRecordComplete c e.id) s =
      .next (s.withDev (d1.onCore c fun (k : Core) => { k with copy := k.copy.filter fun y => y.id ≠ e.id }))) ∧
  (∀ (s : State) (die n : Nat) (l : Lease), (s.dev.die die).leases[n]? = some l → l.valid = true → l.expiry ≤ s.dev.now →
    exec (.leaseExpiry die n) s = .next (s.withDev (s.dev.endLease die n))) ∧
  (∀ (s : State) (c : CoreRef) (n : Nat) (e : DWord × DWord × Nat × Nat), (s.dev.core c).footprints[n]? = some e → e.2.2.2 + 10000 ≤ s.dev.now →
    exec (.footprintFlush c n) s = .next (s.withDev (s.dev.flushFootprint c n))) ∧
  (∀ code, code < 256 → statusWord code = if code = 0 then 0 else if code = 1 then 0x80000000 + BitVec.ofNat 32 (256 * causeXlate.toNat + code)
    else if code = 2 then 0x80000000 + BitVec.ofNat 32 (256 * causePoison.toNat + code)
    else if code = 3 then 0x80000000 + BitVec.ofNat 32 (256 * causeLost.toNat + code) else 0x80000000 + BitVec.ofNat 32 code)

/-! ## Issue and scheduling -/

/-- R92, R141, R405 to R407, R408 to R412, R415: the scheduler's events. The first record in order that can be taken is; a
released batch enters a pool, and a spilled record does, as the spill region holds it; a descriptor is fed or refused; a group
with nothing under way completes its record and gives its resources back; a notify posts its tail; a slot is mapped, closed,
refilled at its deadline and suspended when its budget is spent. R199, R200, R211: an issue slot starts a clause of the warp it
chooses, which then has the slot, named by the event that says why; a sequencer starts the next clause of its program while it is
eligible. -/
def Obligations.SchedulingEvents : Prop :=
  (∀ (s : State) (die q gid : Nat) (rec : Rec) (d1 : Dev) (g : Group) (w : RegWrite) (ws : List RegWrite),
    let goes := fun (i : Instr) (d : Dev) => exec i s = .next (s.withDev d)
    let period := (s.dev.reg (.qperiod q)).toNat
    (∀ pre post, s.dev.clocked = true → die < 4 → s.dev.heads die = pre ++ rec :: post →
      (∀ x ∈ pre, s.dev.takeRec die die x = none) → s.dev.takeRec die die rec = some d1 → goes (.dispatch die) d1) ∧
    (s.dev.enterFirst die [] (s.dev.die die).batches = some d1 → goes (.successorEntry die) d1) ∧
    (∀ place, s.dev.returning die = some (place, rec) → goes (.spillReturn die) (s.dev.onDie die fun (k : Die) =>
      { k with pool := k.pool ++ [rec.fromSpill (s.dev.homeRead (s.dev.spillAt die rec.ctx place) 128)]
               spill := k.spill.erase (place, rec) })) ∧
    (s.dev.on = true → s.dev.slotMapped q = true → s.dev.tailOf q ≠ s.dev.headOf q → (s.dev.slot q).batch = none →
      (∀ a c, s.dev.descriptor q = .inr (a, c) → goes (.descriptorRead q)
        (((if c = causePoison then s.dev.poisonRead (s.dev.tag (s.dev.slotCtx q)) a 64 else s.dev).refuse (s.dev.slotCtx q) q c a).nextHead q)) ∧
      (∀ a b, s.dev.descriptor q = .inl (a, b) → goes (.descriptorRead q) (s.dev.feed q b).2)) ∧
    (s.dev.group gid = some g → s.dev.groupIdle g = true → (∀ x ∈ g.warps, x.loss = false) →
      (s.dev.sign g.record).completeRec g.core g.record = some d1 → goes (.groupComplete gid) ((d1.releaseGroup g).memberDone g)) ∧
    (s.dev.slotMapped q = true → period ≠ 0 → (s.dev.slot q).deadline ≤ s.dev.now →
      goes (.slotDeadline q) ((if (s.dev.slot q).partSusp then s.dev.setSusp q false else s.dev).onSlot q fun (x : Slot) => { x with
        remain := (s.dev.reg (.qbudget q)).toNat, deadline := x.deadline + 1000 * period, partSusp := false, overrun := false })) ∧
    (period ≠ 0 → (s.dev.slot q).remain = 0 → (s.dev.slot q).overrun = false → s.dev.residents q ≠ 0 →
      let d := (s.dev.setSusp q true).onSlot q fun (x : Slot) => { x with
        overrun := true, partSusp := x.partSusp || !s.dev.slotSusp q }
      let d := { d with overruns := if d.overruns.contains q then d.overruns else d.overruns ++ [q] }
      goes (.overrun q) (d.event ⟨2, 0x40, d.slotCtx q, 0xFFFF, q, BitVec.ofNat 64 q, 0, 0⟩)) ∧
    (s.dev.regBus = w :: ws → s.dev.on = true →
      let wrote := fun (i : Instr) (d : Dev) => goes i (d.busDone w)
      let tail := bits w.value 31 0
      (w.reg = .qnotify q → ∀ at_, s.dev.tailWord q true = .inl at_ → s.dev.placeWaits at_ 4 = false →
        (s.dev.sideWrite at_ (natBytes tail 4)).slotMapped q = true →
        wrote .qnotify ((s.dev.sideWrite at_ (natBytes tail 4)).takeTail q tail)) ∧
      (w.reg = .qctl q → bits w.value 63 63 = 1 → s.dev.slotMapped q = false →
        let d := (s.dev.storeReg (.qctl q) w.value).onSlot q fun (x : Slot) => { x with
          partSusp := false, overrun := false, charged := 0
          remain := if ((s.dev.storeReg (.qctl q) w.value).reg (.qperiod q)).toNat = 0 then x.remain
            else ((s.dev.storeReg (.qctl q) w.value).reg (.qbudget q)).toNat
          deadline := if ((s.dev.storeReg (.qctl q) w.value).reg (.qperiod q)).toNat = 0 then x.deadline
            else (s.dev.storeReg (.qctl q) w.value).now + 1000 * ((s.dev.storeReg (.qctl q) w.value).reg (.qperiod q)).toNat }
        ∀ v, d.readTail q = .inl v → wrote .qctlMap (d.takeTail q v)) ∧
      (w.reg = .qctl q → bits w.value 63 63 = 0 → s.dev.slotMapped q = true → ∀ v, s.dev.readTail q = .inl v →
        wrote .qctlUnmap (((s.dev.setReg (.qtail q) (BitVec.ofNat 64 ((s.dev.reg (.qtail q)).toNat / 2 ^ 32 * 2 ^ 32 + v))).storeReg
          (.qctl q) w.value).onSlot q fun (x : Slot) => { x with partSusp := false })))) ∧
  (∀ (s : State) (c : CoreRef) (slot : Nat) (copy : Bool) (r : ThreadRef) (t : Thread) (d1 : Dev),
    let goes := fun (i : Instr) => exec i s = .next (s.withDev d1)
    (s.dev.slotChoice c slot = some (r, t) → (s.dev.takeSlot r).startClause r = some d1 →
      goes (.clauseIssue c slot) ∧
      ((∃ e ∈ t.frontier, 992 ≤ e.wait) → goes (.frontierWaitLimit c slot)) ∧
      (∀ e1 e2 rest, t.frontier = e1 :: e2 :: rest → t.loopCount = 64 → (∀ e ∈ t.frontier, e.wait < 992) → goes (.loopLimit c slot))) ∧
    (s.dev.thread (.seq c copy) = some t → t.ended = false → s.dev.eligible (.seq c copy) t = true →
      s.dev.startClause (.seq c copy) = some d1 → goes (.sequencerIssue c copy)))

/-! ## Messages and combining -/

/-- R147 to R149, R155 to R157, R160, R21, R22, R92, R434, R480, R483: a counted message whose sequence is the next of its flow is
handed to its unit and answered, and the flow goes on; a duplicate gets its first answer again and nothing else changes; a reserved
kind or bit discards it; one for a context that is being reset is refused. Before the package's number is fixed everything is refused
(R448). The home point's cached export entries are asked for a write or a load. A store that may be performed writes its home. Loads
are answered at once, a notice of the root moves a pod barrier's image, and a loss notice of a message that has not been consumed
abandons it. The model's choices, not the spec's: that a discarded message passes its flow's sequence and counts as consumed (log 35);
that a probe, report or notice refused before the number is fixed gets no answer, and that a report counts 18 bytes (log 10); the
message by which another package asks for a traverse, the one that brings it the decision, and which reports count to a pass (log 21). -/
def Obligations.MessagesArrive : Prop :=
  ∀ (s : State) (m : Msg), s.dev.on = true →
    let h := m.header
    let die := s.dev.receivingDie m
    let f := s.dev.flowIn h
    let goes := fun (i : Instr) (d : Dev) => exec i s = .next (s.withDev d)
    let is := fun (i : Instr) => (h.kind = 0 ∧ i = .remoteStore m) ∨ (h.kind = 1 ∧ i = .remoteAtomic m) ∨ (h.kind = 2 ∧ i = .methodCall m) ∨
      (h.kind = 3 ∧ i = .methodReply (some m) 0) ∨ (h.kind = 4 ∧ i = .remoteSpawn m) ∨ (h.kind = 6 ∧ i = .copyBeat m) ∨
      (h.kind = 5 ∧ h.operand = 0 ∧ i = .remoteSignal m) ∨ (h.kind = 5 ∧ h.operand = 1 ∧ i = .remotePodInit m)
    let read := fun (d : Dev) (n : Nat) (code : Nat) (b : List Byte) => goes (.remoteLoad m) (d.emit n (d.responseTo m code (.loaded b)))
    let lpa := h.lpa.toNat
    let asked := s.dev.noteExports h.tgtCtx.toNat lpa
    (∀ i, is i → s.dev.linkUp = true → f.abandoned.contains h.seq = false →
      (h.seq = f.next → s.dev.mayConsume die h = true →
        let after := fun (d : Dev) => goes i (d.drain s.dev.receivingDie h (f.held.length + 1))
        (∀ p d1, s.dev.handle m = .ack p d1 → after (((d1.passSeq h).consume die h).answer die m 0 p)) ∧
        (∀ d1, s.dev.handle m = .refused d1 → after ((d1.passSeq h).answer die m 1 .none)) ∧
        (∀ d1, s.dev.handle m = .held d1 → after (((d1.withEntry die h).passSeq h).answer die m 3 .none)) ∧
        (∀ d1, s.dev.handle m = .taken d1 → after ((d1.withEntry die h).passSeq h)) ∧
        (∀ d1, s.dev.handle m = .discarded d1 → after ((d1.passSeq h).consume die h)) ∧
        (∀ d1, s.dev.handle m = .retry d1 → goes i (d1.emit die (d1.responseTo m 2 .none)))) ∧
      (∀ a, 2 ^ 31 ≤ (h.seq - f.next).toNat → f.answered.find? (fun a => a.1 = h.seq) = some a → goes i (s.dev.emit die a.2))) ∧
    (∀ i, is i → s.dev.linkUp = false → goes i (s.dev.emit die (s.dev.responseTo m 1 .none))) ∧
    (headerBad h = false → s.dev.linkUp = false →
      (h.kind = 9 → goes (.probe m) s.dev) ∧ (h.kind = 10 → goes (.report m) s.dev) ∧
      (h.kind = 7 → h.operand = 6 → goes (.phaseNotice m) s.dev) ∧
      (h.kind = 8 → goes (.lossNotice m) (s.dev.emit die (s.dev.responseTo m 1 .none)))) ∧
    (11 ≤ h.kind.toNat ∨ h.reserved1 ≠ 0 ∨ h.reserved2 ≠ 0 →
      s.dev.handle m = .discarded (if h.kind = 2 then (s.dev.discard die h).closeCall h else s.dev.discard die h)) ∧
    (headerBad h = false → s.dev.resetting h.tgtCtx.toNat = true → s.dev.handle m = .refused s.dev) ∧
    (headerBad h = false → s.dev.resetting h.tgtCtx.toNat = false →
      (h.kind = 0 → asked.refuses h true = false → asked.inHold lpa = false →
        ∀ b, m.payload = .bytes b → asked.waveHolds lpa b.length = false →
        s.dev.handle m = .ack .none (asked.writeHome lpa peerLeaf none b)) ∧
      (h.kind = 0 ∨ h.kind = 1 ∨ h.kind = 6 → asked.refuses h true = true → s.dev.handle m = .refused asked)) ∧
    (∀ n, h.kind = 7 → headerBad h = false → m.payload = .read n →
      (s.dev.linkUp = false → read s.dev (ownerDie lpa) 1 []) ∧
      (s.dev.linkUp = true → asked.refuses h false = true → read asked (ownerDie lpa) 1 []) ∧
      (s.dev.linkUp = true → asked.refuses h false = false → asked.bad lpa = true →
        goes (.remoteLoad m) ((asked.foundBad lpa).emit (ownerDie lpa) (asked.responseTo m 1 (.loaded [])))) ∧
      (s.dev.linkUp = true → asked.refuses h false = false → asked.bad lpa = false →
        read asked (dieOf lpa) 0 (asked.homeRead lpa n))) ∧
    (∀ n e ph b, h.kind = 7 → h.operand = 6 → headerBad h = false → s.dev.linkUp = true → m.payload = .podNotice n e ph →
      let ref := BarRef.wide 4 0 h.tgtCtx.toNat n
      s.dev.bar ref = some b →
      let d := (s.dev.setBar ref { b with expected := e, phase := ph }).releaseWaiters ref (!ph) { b with expected := e, phase := ph }
      goes (.phaseNotice m) (d.emit 0 (d.responseTo m 0 m.payload))) ∧
    (h.kind = 8 → headerBad h = false → s.dev.linkUp = true → s.dev.inWave h = false → s.dev.inReply h = false →
      (f.abandoned.contains h.seq = true → goes (.lossNotice m) (s.dev.emit die (s.dev.responseTo m 5 .none))) ∧
      (f.abandoned.contains h.seq = false → 2 ^ 31 ≤ (h.seq - f.next).toNat → s.dev.inWain h = false →
        f.answered.find? (fun a => a.1 = h.seq) = none → goes (.lossNotice m) (s.dev.emit die (s.dev.responseTo m 4 .none))) ∧
      (f.abandoned.contains h.seq = false → (h.seq - f.next).toNat < 2 ^ 31 →
        let d := s.dev.dropMsg h
        let r := d.responseTo m 5 .none
        let f' := { f with
          abandoned := h.seq :: f.abandoned, held := f.held.filter fun x => x.1.header.seq ≠ h.seq
          answered := (h.seq, r) :: f.answered.filter fun a => a.1 ≠ h.seq }
        let d := (d.setFlow (f'.skip (f'.abandoned.length + 1))).emit die r
        goes (.lossNotice m) (d.drain d.receivingDie h (f'.held.length + 1)))) ∧
    (∀ upTo ns, h.kind = 9 → headerBad h = false → s.dev.linkUp = true → m.payload = .ask upTo ns →
      goes (.probe m) (s.dev.addAsk ⟨h.srcCtx.toNat, h.job.toNat, h.srcPkg.toNat, upTo, s.dev.now + ns⟩)) ∧
    (h.kind = 9 → headerBad h = false → s.dev.linkUp = true → (∀ upTo ns, m.payload ≠ .ask upTo ns) →
      let q := (s.dev.spend 0 3).readJob h.srcCtx.toNat h.job.toNat h.operand.toNat
      goes (.probe m) (q.2.sendPlain 0 ⟨10, h.srcCtx.toNat, h.job.toNat, h.srcCtx.toNat, h.srcPkg.toNat, h.operand.toNat, 0, 18⟩
        h.seq (.report 1 q.1.injected q.1.consumed q.1.doubt q.1.activity q.1.lossy))) ∧
    (∀ n inj con doubt act lossy t, h.kind = 10 → headerBad h = false → s.dev.linkUp = true → m.payload = .report n inj con doubt act lossy →
      s.dev.root h.srcCtx.toNat = s.dev.pkgNum →
      s.dev.traverses.find? (fun t => t.ctx = h.srcCtx.toNat && t.job = h.job.toNat) = some t → t.pass = h.operand.toNat →
      goes (.report m) ((s.dev.spend 0 3).putTraverse (t.add n ⟨inj, con, doubt, act, lossy⟩))) ∧
    (∀ upTo clear, h.kind = 10 → headerBad h = false → s.dev.linkUp = true → m.payload = .decided upTo clear →
      let d := s.dev.deliverQuiet h.srcCtx.toNat h.job.toNat upTo.toNat h.operand.toNat
      goes (.report m) (if clear = true then d.clearRead h.srcCtx.toNat h.job.toNat else d))

/-- R150, R157, R97, R160, R162, R419, R480: what the answers to a kept message do with it, and what a message, a loss notice, a
write answered retry, a phase notice, a traverse and an activity period do when their time has come. The model's choices, not the
spec's: that the loss timeout counts from the last resend (log 35), and the messages by which a package tells the roots of its jobs of
them at the periodic traverse (log 21). -/
def Obligations.AnswersAndTimers : Prop :=
  ∀ (s : State) (m : Msg) (die n ctx job : Nat) (x : Sent), s.dev.on = true →
    let h := m.header
    let goes := fun (i : Instr) (d : Dev) => exec i s = .next (s.withDev d)
    let k := h.srcDie.toNat
    let is := fun (code : Nat) => h.kind = 7 ∧ h.operand.toNat = code ∧ headerBad h = false ∧ s.dev.sentFor m = some x ∧ m.payload = .none
    let now := s.dev.now
    (is 0 → goes (.ackResponse m) ((s.dev.acked x.origin .none).forget k x)) ∧
    (is 1 → goes (.refusedResponse m) ((s.dev.lostMsg k x).forget k x)) ∧
    (is 2 → goes (.retryResponse m) (s.dev.onSent k x fun (y : Sent) => { y with retry := true, resends := 0, last := now })) ∧
    (is 3 → goes (.heldResponse m) (s.dev.onSent k x fun (y : Sent) => { y with resends := 0, last := now })) ∧
    (is 4 → goes (.consumedResponse m) ((s.dev.settled x.origin).forget k x)) ∧
    (is 5 → goes (.abandonedResponse m) ((s.dev.lostMsg k x).forget k x)) ∧
    ((s.dev.die die).sent[n]? = some x →
      (x.doubt = false → x.retry = true → x.last + 1000 ≤ now →
        goes (.messageResend die n) (s.dev.resend die x fun (y : Sent) => { y with retry := false, last := now })) ∧
      (x.doubt = false → x.retry = false → x.last + 100000 ≤ now → x.resends < s.dev.resendLimit →
        goes (.messageResend die n) (s.dev.resend die x fun (y : Sent) => { y with resends := y.resends + 1, last := now })) ∧
      (x.doubt = false → x.retry = false → (s.dev.die die).doubts < 64 → s.dev.resendLimit ≤ x.resends →
        x.last + s.dev.lossTimeout ≤ now → goes (.messageDoubt die n)
          (((s.dev.onSent die x fun (y : Sent) => { y with doubt := true, noticed := now }).onJob die x.key.1 x.key.2
            fun (j : JobEntry) => { j with doubt := j.doubt + 1 }).emitLossNotice die x)) ∧
      (x.doubt = true → x.noticed + 100000 ≤ now → goes (.lossNoticeResend die n)
        ((s.dev.onSent die x fun (y : Sent) => { y with noticed := now }).emitLossNotice die x))) ∧
    (∀ t op p w, (s.dev.dies.flatMap fun (k : Die) => k.retried.map fun x => (k.idx, x))[n]? = some (die, t, .piece op p w) →
      let key := s.dev.heldKey (.piece op p w)
      t + 1000 ≤ now → s.dev.inHold key.2 = false → s.dev.waveHolds key.2 16 = false →
      (∀ y ∈ (s.dev.die die).retried.takeWhile (fun y => y.2 ≠ .piece op p w),
        ¬ ((s.dev.heldKey y.2).1 = key.1 ∧ sameLine (s.dev.heldKey y.2).2 key.2 = true)) →
      goes (.retryResend n) ((s.dev.onDie die fun (k : Die) => { k with retried := k.retried.filter fun y => y.2 ≠ .piece op p w }).releasePiece
        op p)) ∧
    (∀ y, s.dev.notices[n]? = some y → y.last + 100000 ≤ now → (∀ z ∈ s.dev.notices.take n, sameImage z y = false) →
      goes (.phaseNoticeResend n) ({ s.dev with notices := updAt s.dev.notices n fun z => { z with last := now } }.emitNotice y)) ∧
    (∀ t, s.dev.traverses.find? (fun t => t.ctx = ctx && t.job = job) = some t → t.passStart + 50000 ≤ now →
      let q := (s.dev.dropTraverse ctx job).startPass t 1
      goes (.traversePassTimeout ctx job) (q.2.putTraverse q.1)) ∧
    (let period := bits (s.dev.reg .fabctl) 11 0
     period ≠ 0 → s.dev.lastPeriodic + period * 1000 ≤ now →
      let told := (s.dev.entryJobs.filter fun j => s.dev.root j.1 ≠ s.dev.pkgNum).foldl (fun d j =>
        d.sendPlain 0 ⟨9, j.1, j.2, j.1, d.root j.1, 0, 0, 16⟩ 0 (.ask 0 0))
        { s.dev with lastPeriodic := now, asks := s.dev.asks.filter fun a => a.upTo ≠ 0 }
      goes .traversePeriodic (s.dev.activeJobs.foldl Dev.startPeriodic told)) ∧
    (∀ b, die < 4 → (s.dev.die die).budgets[n]? = some b → b.since + 1000 * max 1 (bits (s.dev.reg (.abud die n)) 43 32) ≤ now →
      goes (.activityPeriod die n) (s.dev.onDie die fun (k : Die) =>
        { k with budgets := k.budgets.set n ⟨0, 0, b.deferred + s.dev.waitingUnits die n, now⟩ }))

/-- R168 to R189: a request of this package that finds room in its Wain is queued; a free wave slot takes the leading requests of
the first object that can be served; a wave all of whose lanes have exited writes its state as one write and sends its replies
in lane order; one over its limit faults. A built-in method replies with the old value, request by request. R170, R175: the
requests one wave takes are the leading ones of its object's queue, in arrival order, at most 32, all of one selector and one
context, and one alone where it is to be run again by itself. -/
def Obligations.Combining : Prop :=
  ((∀ (s : State) (c : CoreRef) (n op lane due : Nat) (o : Op) (lpa ctx : Nat) (d1 : Dev) (w : Wave) (q : Request) (qs : List Request),
    let goes := fun (i : Instr) (d : Dev) => exec i s = .next (s.withDev d)
    (∀ p more, s.dev.transfers[n]? = some (.request op lane due) → due ≤ s.dev.now → s.dev.op op = some o →
      o.object lane = some (lpa, ctx) → o.pieces.find? (fun p => p.lane = lane) = some p → s.dev.callWaits o p = false →
      s.dev.dueLanes o lpa = lane :: more →
      goes (.methodRequest n) (s.dev.requestLane o lpa ctx lane more.length)) ∧
    (∀ dest v st m, s.dev.transfers[n]? = some (.reply dest v st m) →
      goes (.methodReply none n) ({ s.dev with transfers := s.dev.transfers.eraseIdx n }.writeReply dest v st m)) ∧
    (∀ slot, s.dev.clocked = true → (upFrom 0 16).find? (fun k => ((s.dev.core c).waves.getD k none).isNone) = some slot →
      s.dev.formFirst c slot (s.dev.core c).requests [] = some d1 → goes (.waveForm c) d1) ∧
    ((s.dev.core c).waves.getD n none = some w → w.fault = none →
      (w.thread.ended = true → (∀ x ∈ s.dev.ops, x.thread ≠ .wave c n) → w.thread.loss = false →
        w.reqs = q :: qs → s.dev.mayReply c w.reqs = true →
        let value := fun (j : Nat) => ((w.replies.find? fun x => x.1 = j).map fun x => x.2).getD 0
        let d := (s.dev.objectUse q true).homeWrite q.lpa
          (if w.sel.getLsbD 8 then w.buffer.take 4 else w.buffer)
        let d := w.reqs.foldl (fun d q => if q.msg.isNone then d.dropObject q.dest else d) d
        goes (.waveComplete c n) (foldIdx (fun j d q => d.sendReply c q (value j) 0) 0
          (d.onCore c fun (k : Core) => { k with waves := k.waves.set n none }) w.reqs)) ∧
      (w.limit ≠ 0 → w.start + 1024 * w.limit ≤ s.dev.cycles → w.thread.ended = false →
        ∀ e r, (w.thread.clause.elim w.thread.frontier fun x => insertEntry x.entry w.thread.frontier) = e :: r →
        s.dev.faultWave c n w causeMethod (w.offset e.clause) = some d1 → goes (.waveTimeLimit c n) d1))) ∧
  (∀ (code : Nat) (v : Word) (args : List DWord),
    (builtinRun code v args).1.length = args.length ∧
    (builtinRun code v args).2 = args.foldl (builtin code) v ∧
    (∀ n, n < args.length →
      (builtinRun code v args).1[n]? = some (((args.take n).foldl (builtin code) v).setWidth 64)))) ∧
  (∀ (l : List Request), leadingRun l <+: l ∧ (leadingRun l).length ≤ 32 ∧ (l ≠ [] → leadingRun l ≠ []) ∧
    (∀ q ∈ leadingRun l, ∀ x ∈ leadingRun l, q.sel = x.sel ∧ q.ctx = x.ctx) ∧
    (∀ q ∈ leadingRun l, q.single = true → leadingRun l = [q]))

/-! ## Pre-emption, containment, power and the host -/

/-- R428, R429, R431, R433, R434, R443, R418: drains, saves, resets and restores. A drain stops dispatch from its slot for its
time; the timers save and then, with a save unfinished, reset the context; a save that is ready writes its images, where no
migration holds their slots; an image that waits is put back on its cores; and each PRECMD command reports its result. The model's
choices, not the spec's: that a command is accepted at its write or at a later step (log 42), and that the drain's event 6 comes after
the timer's saves and names the slot's context (log 37). -/
def Obligations.Preemption : Prop :=
  ∀ (s : State) (q gang die n : Nat),
    let goes := fun (i : Instr) (d : Dev) => exec i s = .next (s.withDev d)
    let slot := s.dev.slot q
    let ctx := s.dev.slotCtx q
    (∀ t, slot.drainEnd = some t → slot.expired = false → t ≤ s.dev.now → s.dev.undrained q ≠ 0 →
      goes (.drainTimeout q) (((s.dev.onSlot q fun (x : Slot) => { x with expired := true }).saveCtx ctx 1).startSaveTimer q ctx)) ∧
    (∀ t c, slot.saveEnd = some (t, c) → t ≤ s.dev.now →
      let stopped := s.dev.onSlot q fun (x : Slot) => { x with saveEnd := none }
      goes (.saveTimeout q) (if s.dev.unfinished.contains c = true then stopped.beginReset c 1 else stopped)) ∧
    (slot.drainEnd ≠ none → s.dev.undrained q = 0 →
      let d := s.dev.cores.foldl (fun d k => d.flushCtx k.ref ctx) (s.dev.onSlot q fun (x : Slot) => { x with drainEnd := none })
      goes (.drainComplete q) (d.event ⟨6, 0, d.slotCtx q, 0xFFFF, q, BitVec.ofNat 64 q, 0, 0⟩)) ∧
    (∀ (k : Gang) (reason : Nat), s.dev.gang gang = some k → k.save = some reason →
      let gs := k.members.filterMap fun m => s.dev.group m
      let free := (s.dev.freeRunsOfSlots gs.length).filter fun n => !s.dev.spanHeld (s.dev.imageBase n) (2 ^ 21 * gs.length)
      gs ≠ [] → s.dev.saveReady gs = true → free ≠ [] → (∃ g ∈ gs, ∃ x ∈ g.warps, x.ended = false) →
      ∃ (i : Image) (d : Dev), goes (.saveComplete gang) d ∧ i.gang = k ∧ i.reason = reason ∧ i.restoring = decide (reason = 2) ∧
        (i.groups.map fun g => g.gid) = (gs.map fun g => g.gid) ∧ i.first ∈ free ∧ i ∈ d.images ∧
        ∀ g ∈ d.groups, g.gang ≠ k.id) ∧
    (∀ (saved : Image) (cores : List CoreRef) (d1 d2 : Dev) (k : Nat) (at_ : CoreRef), s.dev.images[n]? = some saved →
      let i := s.dev.headed saved
      i.restoring = true → s.dev.clocked = true → s.dev.restorePlace i = some (cores, d1) →
      let work := i.groups.zip cores
      let bars := mapIdx (fun k b => Barrier.ofBytes (d1.homeSpan (d1.imageBase i.first + 0xA400 + 512 * k) 512) b) 0 i.gang.bars
      let c := cores.headD ⟨0, false, 0⟩
      let back := { i.gang with
        save := if i.gang.save = some i.reason then none else i.gang.save, die := c.die, quad := c.idx / 4
        bars := if (i.groups.head?).any (fun (g : Group) => g.member == 0) then bars else i.gang.bars }
      (foldIdx (fun n (d : Dev) (p : Group × CoreRef) => d.putMember i n p.1 p.2) 0 { d1 with gangs := d1.gangs ++ [back] } work).reloadMembers
        s.fuses 0 work = (.ok d2, k, at_) →
      let d := foldIdx (fun n (d : Dev) (p : Group × CoreRef) => d.wakeMember i n p.1 p.2) 0 d2 work
      goes (.restore n) { d with images := d.images.filter fun x => x ≠ saved }) ∧
    (s.dev.movable die ≠ [] → (s.dev.die die).lastMove + 1000000 ≤ s.dev.now →
      let c := s.dev.choose (s.dev.movable die).length
      goes (.thermalMigration die) ((c.2.markSave ((s.dev.movable die).getD c.1 0) 2).onDie die fun (k : Die) =>
        { k with lastMove := c.2.now })) ∧
    (let done := fun (i : Instr) (op result : Nat) (p : DWord → Prop) (f : DWord → Dev → Dev) =>
        let reported := fun (d : Dev) => d.setReg .prestat (BitVec.ofNat 64 (result * 2 ^ 60))
        (∀ (w : RegWrite) (ws : List RegWrite), s.dev.regBus = w :: ws → s.dev.on = true → s.dev.precmd = none → w.reg = .precmd →
          cmdOp w.value = op → p w.value → goes i ((reported (f w.value s.dev)).busDone w)) ∧
        (∀ v, s.dev.precmd = some v → cmdOp v = op → p v → goes i (reported (f v { s.dev with precmd := none })))
      let saved := fun (v : DWord) => s.dev.images.find? fun i => i.first = cmdImage v && !i.restoring
      done .precmdDrain 1 1 (fun _ => True) (fun v d => d.onSlot (cmdSlot v) fun (x : Slot) => { x with
        draining := true, drainEnd := some (d.now + 1000 * max 1 (bits (d.reg (.qtimer (cmdSlot v))) 15 0)), expired := false }) ∧
      done .precmdSave 2 1 (fun _ => True) (fun v d => (d.saveCtx (cmdCtx v) 0).startSaveTimer (cmdSlot v) (cmdCtx v)) ∧
      done .precmdReset 3 1 (fun _ => True) (fun v d => d.beginReset (cmdCtx v) 0) ∧
      done .precmdRestore 4 2 (fun v => saved v = none) (fun _ d => d) ∧
      (∀ i, done .precmdRestore 4 2 (fun v => saved v = some i ∧ s.dev.imageOk i = false) fun _ d => d) ∧
      (∀ i, done .precmdRestore 4 1 (fun v => saved v = some i ∧ s.dev.imageOk i = true) fun _ d =>
        { d with images := d.images.map fun x => if x = i then { i with restoring := true } else x }) ∧
      (∀ i, done .precmdRelease 5 1 (fun v => s.dev.images.find? (fun i => i.first = cmdImage v) = some i) fun _ d =>
        let d := d.dropGroups (i.groups.map fun (g : Group) => g.gid)
        { d with images := d.images.filter fun x => x ≠ i }.endGang i.gang false) ∧
      done .precmdEndDrain 6 1 (fun _ => True) fun v d =>
        d.onSlot (cmdSlot v) fun (x : Slot) => { x with draining := false, drainEnd := none })

/-- R92, R419, R434 to R439, R442: an uncorrectable error is reported and contained at its level; a corrected one is counted and
reported at most once per ms; a gang that consumed uncorrectable data is killed; a record that has its signature is replayed on a
compute core of another die with budget, and skipped where none has any; a replay that ended with another signature raises AUDIT,
one that something ended is inconclusive. A reset's completion raises its context's epoch and its sweep removes the old one's entries.
In an emergency stop no error starts the package (R453). The model's choices, not the spec's: that the replay runs on a copy of the
package (log 38); the context field 0xFFFF of the kind 10 events of the core, die and package levels and of corrected errors (log 24);
which contexts have state on a core or a die, and what a die keeps (`contextsOn`, `contextsOf`, `renewDie`; log 30); that an error in
the registers or the scratch of a wave is contained as one of its state (log 51). -/
def Obligations.Containment : Prop :=
  ∀ (s : State) (site : ErrorSite) (core : CoreRef) (code ctx idx lpa gang : Nat), s.dev.on = true →
    let goes := fun (i : Instr) (d : Dev) => exec i s = .next (s.withDev d)
    let level := fun (l c : Nat) => (fun (d : Dev) => if site.code = 9 ∧ (∃ l ∈ (s.dev.die site.die).l2,
      l.dirty = true ∧ l.pa = ⟨none, site.lpa / 128 * 128⟩) then d.setPoison site.lpa else d) <| s.dev.event ⟨10, 0, c, (site.core.map coreId).getD 0xFFFF, 0xFFFF, BitVec.ofNat 64 site.code,
      BitVec.ofNat 64 l, BitVec.ofNat 64 site.lpa⟩
    let report := fun (c : Nat) => level (siteLevel site) c
    (s.dev.emergency = none → 1 ≤ site.code → site.code ≤ 19 → site.die < 4 → (site.code = 5 → site.core ≠ none) →
      (siteLevel site = 1 → goes (.uncorrectableError site) ((report (tagCtx site.tag)).discardEntry site)) ∧
      (∀ k, siteLevel site = 2 → site.gang.bind s.dev.gang = some k →
        goes (.uncorrectableError site) ((report (((k.recs.head?).map Rec.ctx).getD 0xFFFF)).killGang k)) ∧
      (siteLevel site = 2 → site.gang.bind s.dev.gang = none → s.dev.waveAt site = true → let d := level 3 (tagCtx site.tag)
        goes (.uncorrectableError site) (d.resetAll (d.liveTag site.tag).toList)) ∧
      (siteLevel site = 2 → site.gang.bind s.dev.gang = none → s.dev.waveAt site = false →
        goes (.uncorrectableError site) (report (tagCtx site.tag))) ∧
      (siteLevel site = 3 → let d := report (tagCtx site.tag)
        goes (.uncorrectableError site) (d.resetAll (d.liveTag site.tag).toList)) ∧
      (∀ c, siteLevel site = 4 → site.core = some c → let d := report 0xFFFF
        goes (.uncorrectableError site) ((d.resetAll (d.contextsOn c)).renewCore c)) ∧
      (siteLevel site = 5 → let d := report 0xFFFF
        goes (.uncorrectableError site) ((d.resetAll (d.contextsOf site.die)).renewDie site.die)) ∧
      (siteLevel site = 6 → goes (.uncorrectableError site) (report 0xFFFF).warmStart)) ∧
    (1 ≤ code → code ≤ 19 →
      let old := s.dev.softErrors.find? fun x => x.1 == code
      let noted := fun (last : Nat) => { s.dev with
        softErrors := (code, (old.map fun x => x.2.1).getD 0 + 1, last) :: s.dev.softErrors.filter fun x => x.1 != code }
      (∀ x, old = some x → s.dev.now < x.2.2 + 1000000 → goes (.correctedSoftError code) (noted x.2.2)) ∧
      ((∀ x, old = some x → x.2.2 + 1000000 ≤ s.dev.now) →
        goes (.correctedSoftError code) ((noted s.dev.now).event (Event.of 10 0 0xFFFF (BitVec.ofNat 64 code) 0 0)))) ∧
    (∀ k, s.dev.gang gang = some k → s.dev.consumed k ≠ [] →
      goes (.gangKill gang) (((s.dev.consumed k).foldl Dev.foundBad s.dev).killGang k)) ∧
    (∀ (a : Audit) (sig : DWord), s.dev.audits.find? (fun a => a.index = idx) = some a → a.signature = some sig →
      let dies := (upFrom 0 4).filter fun k => k != a.die && s.dev.hasBudget k 2
      let kept := { s.dev with audits := s.dev.audits.filter fun x => x.index ≠ idx }
      let event := fun (kind cause : Nat) (v w : DWord) =>
        kept.event ⟨kind, cause, a.record.ctx, 0xFFFF, a.record.slot.getD 0xFFFF, BitVec.ofNat 64 a.record.addr, v, w⟩
      let gives := fun (t : State) => exec (.auditReplay idx core) s = .next t
      (s.replays.find? (fun p => p.index = idx) = none → s.dev.clocked = true →
        (dies = [] → gives (s.withDev kept)) ∧
        (core ∈ dies.flatMap computeCores →
          let d := s.dev.spend core.die 2
          gives { s with dev := d, replays := s.replays ++ [⟨idx, core.die, d.replayDev a core⟩] })) ∧
      (∀ p, s.replays.find? (fun p => p.index = idx) = some p →
        let ends := fun (d : Dev) => gives { s with dev := d, replays := s.replays.filter fun p => p.index ≠ idx }
        (p.inconclusive a = true → ends (event 12 0 0 0)) ∧
        (p.inconclusive a = false → p.finished a = true → p.signature a = sig → ends kept) ∧
        (p.inconclusive a = false → p.finished a = true → p.signature a ≠ sig → ends (event 4 0x42 sig (p.signature a))))) ∧
    (∀ w, s.dev.sweeps.find? (fun w => w.ctx == ctx && !w.announced) = some w →
      let d := s.dev.discardCtx ctx
      let ctl := d.ctxD ctx 0
      let d := d.homeWrite (d.ctxEntry ctx) (natBytes (ctl.toNat - bits ctl 61 58 * 2 ^ 58 + w.new.toNat * 2 ^ 58) 8)
      goes (.contextResetComplete ctx) ({ d with sweeps := updBy (fun x => x = w) (fun x => { x with announced := true }) d.sweeps }.event
        (Event.of 7 0 ctx (w.new.setWidth 64) (BitVec.ofNat 64 w.reason) 0))) ∧
    (∀ w, s.dev.sweeps.find? (fun w => w.ctx == ctx && w.announced) = some w →
      let tag := mkTag ctx w.old
      let d := ((s.dev.dropPages (fun e => e.tag = tag) (fun e => e.tag = tag) fun e => e.tag = tag).mapCores fun (k : Core) =>
        { k with l1 := k.l1.filter fun l => l.tag ≠ tag }).mapDies fun (k : Die) => { k with rdc := k.rdc.filter fun l => l.tag ≠ tag }
      let d := { d with sweeps := d.sweeps.erase w }
      d.waitingResets.find? (fun x => x.1 == ctx) = none → goes (.backgroundSweepComplete ctx) d) ∧
    (backed lpa = true → s.dev.badLines.contains (lpa / 128) = true → s.dev.hasBudget (dieOf lpa) 1 = true →
      goes (.scrubRead lpa) (((s.dev.spend (dieOf lpa) 1).spend (dieOf lpa) 5).setPoison lpa))

/-- R145, R445, R452, R453: power and clocks. A module without power starts cold; power off loses everything; the package at its cap
lowers its clock by a sixteenth at a time; a die at 105 °C throttles; 120 °C, or a stack at 105 °C, is an emergency stop, whose end
10 ms later is as if power were off; the boot commands start and shut down; a load that ran when a start began is answered ABORTED
(R451). A shutdown and an emergency stop keep what only a start clears: the count of failed warm starts (R446), and the package's
number with its lock (R448). The model's choices, not the spec's: that after a shutdown `boot` reads 0 and all else but memory is
cleared (log 32); that the cap lowers the clock by single steps up to 15, and that stack `k` stands on die `k / 3` (log 36). -/
def Obligations.PowerAndBoot : Prop :=
  ∀ (s : State) (die stack port : Nat) (w : RegWrite) (ws : List RegWrite),
    let goes := fun (i : Instr) (d : Dev) => exec i s = .next (s.withDev d)
    let d := s.dev
    let cap := bits (d.reg .pwrctl) 11 0
    (d.on = false → goes .powerOn { d.coldStart with on := true }) ∧
    (d.loading ≠ none → d.coldStart.reg .loadstat = 8 ∧ d.warmStart.reg .loadstat = 8) ∧
    (d.on = true → goes .powerOff { d.cleared false with on := false, boot := 0 }) ∧
    (d.clocked = true → cap < d.watts → d.capped < 15 → goes .powerCap { d with capped := d.capped + 1 }) ∧
    (d.clocked = true → d.watts < cap → d.capped ≠ 0 → goes (.powerStateNormal none) { d with capped := 0 }) ∧
    (d.clocked = true → die < 4 → (d.die die).throttled = false → d.anyCore (some die) 105 = true →
      goes (.dieThrottle die) (d.onDie die fun (k : Die) => { k with throttled := true })) ∧
    (d.clocked = true → (d.die die).throttled = true → d.anyCore (some die) (bits (d.reg .thermctl) 15 8) = false →
      goes (.powerStateNormal (some die)) (d.onDie die fun (k : Die) => { k with throttled := false })) ∧
    (d.on = true → stack < 12 → 95 ≤ d.stackOf stack → (d.die (stack / 3)).hotStacks.contains stack = false →
      goes (.memoryThermalState stack) (d.onDie (stack / 3) fun (k : Die) => { k with hotStacks := stack :: k.hotStacks })) ∧
    (d.on = true → d.stackOf stack < 95 → (d.die (stack / 3)).hotStacks.contains stack = true →
      goes (.memoryThermalStateExit stack) (d.onDie (stack / 3) fun (k : Die) => { k with hotStacks := k.hotStacks.filter fun n => n != stack })) ∧
    (d.on = true → d.emergency = none → (d.anyCore none 120 = true ∨ ∃ p ∈ d.stackTemp, 105 ≤ p.2) →
      let e := { d.halted true with boot := 3, emergency := some d.now, now := d.now }
      goes .emergencyStop { e with hostNotices := e.hostNotices ++ [e.readReg 0 0 .pwrstat] }) ∧
    (∀ t, d.emergency = some t → t + 10000000 ≤ d.now →
      goes .emergencyStopComplete { d.cleared false with on := false, boot := 0 }) ∧
    (d.on = true → die < 4 → (upFrom 0 4).find? (fun k => (diePorts k).contains port) = some die →
      ((d.die die).ports.contains port = true →
        goes (.workingPortChange port false) (d.onDie die fun (k : Die) => { k with ports := k.ports.filter fun n => n != port })) ∧
      ((d.die die).ports.contains port = false →
        goes (.workingPortChange port true) (d.onDie die fun (k : Die) => { k with ports := port :: k.ports }))) ∧
    (d.regBus = w :: ws → d.on = true → w.reg = .bootcmd →
      (bits w.value 63 62 = 1 → goes .bootcmdWarmStart (d.warmStart.busDone w)) ∧
      (bits w.value 63 62 = 2 → goes .bootcmdColdStart (d.coldStart.busDone w)) ∧
      (bits w.value 63 62 = 3 → goes .bootcmdShutdown
        ({ d.halted true with boot := 0, retain := true }.busDone w)))

/-- R6, R61, R87, R92, R94, R96, R98, R166, R427, R444, R447, R448, R450: accesses of the host and writes of the device registers,
each acting on the oldest write and leaving the bus: leases are revoked, frames poisoned and cleared, pages migrated with a busy
result while one runs and once no access uses their pins, redirects removed, a load started or ended, lossy bits cleared, the
fuses burned, the package number kept once it is locked. The model's choices, not the spec's: the context 0xFFFF of the MIGRATE event
(log 24), and, taken by name, what `migrationBad` (log 31), `manage` (log 33) and `clearPoison` (log 45) settle; that a failing load
keeps LOADSTAT's entry, and how an object's spans are checked (log 34). -/
def Obligations.HostAndRegisters : Prop :=
  ∀ (s : State) (die o : Nat) (acc : HostAccess) (w : RegWrite) (ws : List RegWrite), s.dev.on = true →
    let goes := fun (i : Instr) (d : Dev) => exec i s = .next (s.withDev d)
    let d := s.dev
    (let p := d.manage s.fuses o acc
     goes (.hostApertureAccess 0 o acc) { p.2 with hostReply := p.1 }) ∧
    (∀ p, d.staging o acc = some p → goes (.hostApertureAccess 1 o acc) { p.2 with hostReply := p.1 }) ∧
    (∀ m, (d.die die).migration = some m → d.emergency = none → d.hasBudget die 4 = true → d.revoking m.src m.size = false →
      d.pinsBusy (TlbEntry.mapsSpan d m.src m.size) = false → d.heldByWave die = false →
      let p := (d.spend die 4).copyPage m
      let poison := fun (d : Dev) (a : Nat) => (d.spend (dieOf a) 5).setPoison a
      let e := p.1.foldl (fun d n => poison (poison d (m.src + 4096 * n)) (m.dst + 4096 * n)) p.2
      let e := (e.writeLeaf m.pte false (m.dst / 4096)).shootPage m
      let after := ((e.die die).held.foldl Dev.releaseHeld ((e.onDie die fun (k : Die) => { k with
        redirects := (m.src, m.dst, m.size) :: k.redirects, hold := k.hold.filter fun h => h ≠ (m.src, m.size)
        held := [], migration := none }).moveRequests m.src m.size)).migstat die false (if p.1.isEmpty then 1 else 2)
      goes (.migrationComplete die) (after.event
        (Event.of 3 0x41 0xFFFF (BitVec.ofNat 64 die) (after.reg (.migstat die)) (BitVec.ofNat 64 m.src)))) ∧
    (∀ v, d.loading = some v → goes .loadcmdStart ({ d with loading := none }.load s.fuses v)) ∧
    (d.regBus = w :: ws →
      let v := w.value
      let wrote := fun (i : Instr) (x : Dev) => goes i (x.busDone w)
      let a := poisonFrame v
      let src := bits v 42 12 * 4096
      let m := fun (size : Nat) => (⟨src, bits (d.reg (.migdst die)) 42 12 * 4096, size, bits (d.reg (.migpte die)) 42 4 * 16⟩ : Migration)
      let migrate := fun (i : Instr) (size : Nat) =>
        ((d.die die).migration ≠ none → wrote i (d.migstat die true 5)) ∧
        ((d.die die).migration = none → d.migrationBad die src (m size).dst size (m size).pte = true → wrote i (d.migstat die false 4)) ∧
        ((d.die die).migration = none → d.migrationBad die src (m size).dst size (m size).pte = false → (d.die die).redirects.length < 4096 →
          let e := (d.storeReg (.migcmd die) v).onDie die fun (k : Die) => { k with hold := (src, size) :: k.hold, migration := some (m size) }
          wrote i (((e.writeLeaf (m size).pte true (src / 4096)).shootPage (m size)).migstat die true 0))
      (w.reg = .lsectl die → bits v 31 31 = 1 → wrote .lsectlRevoke (d.endLease die (bits v 3 0))) ∧
      (w.reg = .poisoncmd die → backed a = true → dieOf a = die → d.hasBudget die 5 = true →
        (bits v 63 62 = 2 → d.pinsBusy (TlbEntry.mapsSpan d a 4096) = false → wrote .poisoncmdSet ((d.spend die 5).setPoison a)) ∧
        (bits v 63 62 = 1 → wrote .poisoncmdClear ((d.spend die 5).clearPoison a))) ∧
      (w.reg = .migcmd die → bits v 63 63 = 1 →
        (bits v 62 61 = 0 → migrate .migcmdMigrate4k 4096) ∧ (bits v 62 61 = 1 → migrate .migcmdMigrate2m 0x200000) ∧
        (bits v 62 61 = 2 → (d.die die).migration = none → (d.die die).redirects.any (fun r => r.1 == src) = true →
          wrote .migcmdRemoveRedirect (((d.storeReg (.migcmd die) v).onDie die fun (k : Die) =>
            { k with redirects := k.redirects.filter fun r => r.1 != src }).migstat die false 1))) ∧
      (w.reg = .fabjstat die → bits v 61 61 = 1 →
        let sel := d.reg (.fabjsel die)
        wrote .fabjstatLossyClear (d.onDie die fun (k : Die) => { k with
          jobs := updBy (fun (j : JobEntry) => j.ctx == bits sel 19 8 && j.job == bits sel 7 0) (fun j => { j with lossy := false }) k.jobs })) ∧
      (w.reg = .svctail → wrote .svctailWrite (d.svctailWrite v)) ∧
      (w.reg = .pkgcfg → wrote .pkgcfgWrite (if d.pkgLocked then d else d.storeReg .pkgcfg v)) ∧
      (w.reg = .fusecmd →
        let burned := fun (i : Instr) => exec i s = .next { s with fuses := s.fuses.burn v, dev := d.busDone w }
        (bits v 63 63 = 1 → burned .fusecmdRaise) ∧ (bits v 63 63 = 0 → bits v 19 16 ≠ 0 → burned .fusecmdRevoke)) ∧
      (w.reg = .loadcmd → bits v 63 63 = 1 → d.loading = none →
        let e := d.storeReg .loadcmd v
        let obj := bits v 42 3 * 8
        let len := bytesNat (e.readSpan (obj + 8) 4)
        let b := e.readSpan obj len
        let dst := bits (e.reg .loaddst) 42 12 * 4096
        ∀ at_ code entry seg, e.stage = some at_ → at_ ≤ obj → obj + max len 160 ≤ at_ + 2 ^ 30 →
          loadObject s.fuses e.verified (bits (e.reg .loadva) 55 12 * 4096) b = (code, entry, seg) →
          (seg = none → wrote .loadcmdStart (e.setReg .loadstat (BitVec.ofNat 64 (bits (e.reg .loadstat) 10 8 * 2 ^ 8 + code)))) ∧
          ∀ x, seg = some x → (∀ p ∈ lineParts x.length dst x, backed p.1 = true) →
          let f := { e with verified :=
            if e.verified.contains (b, numAt b 6 2) then e.verified else (b, numAt b 6 2) :: e.verified }
          wrote .loadcmdStart ((f.writeSpan dst x).setReg .loadstat (BitVec.ofNat 64 (entry * 2 ^ 8 + code)))) ∧
      (∀ x, d.plainWrite w.reg v = some x → wrote .registerWrite x))

/-! ## The whole machine -/

/-- R445, R62, R94, R404, R425, R427, R447: the machine right after reset. Memory, the registers' own values, the groups, the
operations and the queues are empty; the fuses have not been raised or revoked; no slot is mapped. Each device register reads the
value its rule gives: the caps, the timers, the budgets and the periods theirs, BOOTSTAT ready, every other register zero, but for
those that the fuses and the refresh budget give. Every memory is in its canonical form and every frontier in order. Time starting at
0 and the fuses being unburned are the model's own (logs 1 and 4). -/
def Obligations.ResetState : Prop :=
  let d := State.reset.dev
  State.reset.agenda = [] ∧ State.reset.replays = [] ∧ d.mem = [] ∧ Memory.wf d.mem = true ∧ Memory.wf d.hostMem = true ∧ d.groups = [] ∧ d.gangs = [] ∧
  d.ops = [] ∧ d.cores = [] ∧ d.regBus = [] ∧ d.images = [] ∧ d.on = true ∧ d.boot = 1 ∧ State.reset.fuses.Legal ∧
  State.reset.fuses = ⟨0, 0, 0, [0, 0, 0, 0]⟩ ∧ (∀ x ∈ State.reset.devices, x.Canonical ∧ x.FrontiersInOrder) ∧ d.now = 0 ∧ d.cycles = 0 ∧ (∀ a, memGet d.mem a = 0) ∧ (∀ q, q < 1024 → d.slotMapped q = false) ∧
  (∀ die, die < 4 → (d.die die).leases.length = 16 ∧ ∀ l ∈ (d.die die).leases, l.valid = false) ∧ (∀ c, (d.core c).baton = .free) ∧
  (∀ (v : BitVec 16) (k : BitVec 4) (die q : Nat),
    let reads := fun (r : Reg) (n : Nat) => d.readReg v k r = BitVec.ofNat 64 n
    reads (.leasecap die) 384 ∧ reads (.qtimer q) (50 * 2 ^ 16 + 200) ∧ reads .pwrctl 2600 ∧
    reads .fabctl (5000 * 2 ^ 28 + 3 * 2 ^ 24 + 1000 * 2 ^ 12 + 20) ∧ reads .thermctl (4 * 2 ^ 16 + 95 * 2 ^ 8 + 80) ∧
    (∀ p ∈ [(1, 20), (2, 50), (3, 20), (4, 100), (5, 10)], reads (.abud die p.1) (1000 * 2 ^ 32 + p.2 * 2 ^ 16)) ∧
    reads .bootstat 1 ∧ reads .secver v.toNat ∧ reads .keystat k.toNat ∧
    ∀ r, (∀ x y, r ≠ .leasecap x ∧ r ≠ .qtimer x ∧ r ≠ .abud x y) → r ≠ .pwrctl → r ≠ .fabctl → r ≠ .thermctl → r ≠ .bootstat →
      r ≠ .secver → r ≠ .keystat → reads r 0)

/-- R246, R252: when a thread may step and the words of its clause in progress decode to an instruction, a step whose agenda
issues the thread is the meaning of that instruction, with the thread as the issuing party and as the one its slot issues, after one
cycle has passed. Issuing by an
agenda is the model's own (log 4). R263, R252: the probe's placement. The words placed by `withFetchWord` are the instruction
that the next step runs. -/
def Obligations.StepRunsDecoded : Prop :=
  (∀ (s : State) (r : ThreadRef) (rest : List Act) (t : Thread) (q : Clause) (i : Instr) (n : Nat),
    s.agenda = .issue r :: rest →
    let s' := (s.onDev fun d => d.elapse 0 1).tidy
    s'.dev.thread r = some t → t.clause = some q → decode q.words = .ok i n → s'.dev.canStep r t = true →
    step s = exec i { s' with agenda := rest, dev := { s'.dev.takeSlot r with issuer := some r } }) ∧
  (∀ (nbits w : Nat) (i : Instr), decodeTableWord nbits w = some i →
    ∃ s t n, Issues s (.warp 0 0) t ∧ t.head = some (.ok i n) ∧ step (State.reset.withFetchWord nbits w) = exec i s)

/-- R252 to R261: words written out from the pictures of the encodings decode to the instructions they stand for. -/
def Obligations.DecodedWords : Prop :=
  decode [0b00000000_0000011_0000001_0000010_111#32] = .ok (.iadd 3 1 2 7) 1 ∧
  decode [0b00100000_0001_0010_1_00000000011_0111#32] = .ok (.xadd 1 2 1 3 7) 1 ∧
  decode [0b01000000_0000101_0000110_0000111_111#32, 0b0000000_001_0_0_0000000000_00000_00000#32] = .ok (.fadd 5 6 7 7 1 0 0) 2 ∧
  decode [0b10100000_111111111111111111111110#32] = .ok (.bra (-2)) 1 ∧
  decode [0b11110000_0000110_000000000010_0_0111#32] = .ok (.csrr 6 2 7) 1 ∧
  decode [0b11100010_000000000000000000000000#32] = .ok .done 1 ∧
  decode [0b11110011_000000000000000000000000#32] = .ok .eret 1 ∧
  decode [0b11000001_101_0_00000000000000000000#32] = .ok (.mzero 5 0) 1 ∧
  decode [0b11010101_00011_00000000000000_1_0111#32] = .ok (.dunlease 3 1 7) 1 ∧
  decode [0b00000000_0000011_0000001_0000010_111#32, 0xFFFFFFFF#32] = .ok (.iadd 3 1 2 7) 1 ∧
  (∃ b, decode [0xFF000000#32] = .bad b ∧ b.subcode = 0) ∧
  (∃ b, decode [0b11100010_000000000000000000000001#32] = .bad b ∧ b.subcode = 1)

/-- R252 to R263: the encodings drop no bit. Whatever words follow, the words of a well-formed instruction decode to it, with every
operand, and only they do. -/
def Obligations.DecodeEncode : Prop :=
  (∀ (i : Instr) (rest : List Word), i.wf = true → i.isEvent = false → decode (encode i ++ rest) = .ok i (encode i).length) ∧
  (∀ (ws : List Word) (i : Instr) (n : Nat), decode ws = .ok i n →
    i.wf = true ∧ i.isEvent = false ∧ ws.take n = encode i ∧ n = (encode i).length)

/-- Every state steps to a state: no instruction and no event stops the machine, in a state that a run reaches or in any other. That
an event which cannot happen lets the cycle pass is the model's own (log 4). -/
def Obligations.StepAlwaysNext : Prop := ∀ s : State, ∃ s', step s = .next s'

/-- R447, R449: every step keeps legal fuses legal, never lowers the version or brings a revoked key slot back, and keeps the keys'
hashes. -/
def Obligations.FusesKept : Prop :=
  ∀ s s' : State, step s = .next s' → s'.fuses.AtLeast s.fuses ∧ (s.fuses.Legal → s'.fuses.Legal)

/-- Every step keeps the memories of the package, of its host and of its replays in their canonical form, in which no address is listed
twice and equal memories are equal data: whatever an instruction or an event writes, it writes as the one operation on memory does. -/
def Obligations.MemoryKept : Prop :=
  ∀ s s' : State, step s = .next s' → (∀ d ∈ s.devices, d.Canonical) → ∀ d ∈ s'.devices, d.Canonical

/-- R195: every step keeps every frontier in frontier order, with one entry at each PC: whatever a branch, a trap, a return, a kill or
a restore does to the entries of a warp, a wave or a sequencer program. -/
def Obligations.FrontierOrderKept : Prop :=
  ∀ s s' : State, step s = .next s' → (∀ d ∈ s.devices, d.FrontiersInOrder) → ∀ d ∈ s'.devices, d.FrontiersInOrder

end
end

