-- ==== Sys2Proof/Laws/Encoding.lean ====
section
/-! SUPPORT. Fields of packed words, and when words decode to an instruction. -/

namespace Sys2Proof

/-- A field that lies within the lowest packed one. -/
theorem fld_pack_in {lo n k : Nat} (v : BitVec k) (r : List ((n : Nat) × BitVec n)) (h : lo + n ≤ k) (h' : k ≤ 32) :
    fld lo n (pack (⟨k, v⟩ :: r)) = v.extractLsb' lo n := by
  ext i hi
  have l : lo + i < k := by omega
  have l2 : lo + i < 32 := by omega
  simp [fld, pack, BitVec.getElem_extractLsb', l, l2]

/-- A field above the lowest packed one lies in the others. -/
theorem fld_pack_skip {lo n k : Nat} (v : BitVec k) (r : List ((n : Nat) × BitVec n)) (h : k ≤ lo) (h' : lo + n ≤ 32) :
    fld lo n (pack (⟨k, v⟩ :: r)) = fld (lo - k) n (pack r) := by
  ext i hi
  have e : lo + i - k = lo - k + i := by omega
  have l : ¬ lo + i < k := by omega
  have l2 : lo + i < 32 := by omega
  have l3 : v.getLsbD (lo + i) = false := BitVec.getLsbD_of_ge v (lo + i) (by omega)
  simp only [fld, pack, BitVec.getElem_extractLsb', BitVec.getLsbD_or, BitVec.getLsbD_setWidth, BitVec.getLsbD_shiftLeft]
  simp [e, l, l2, l3]

/-- The opcode of a word whose highest field it is. -/
theorem fld_word_opcode (op : BitVec 8) (r : List ((n : Nat) × BitVec n)) (h : (r.map fun x => x.1).sum = 24) :
    fld 24 8 (word (⟨8, op⟩ :: r)) = op := by
  have skip : ∀ (l : List ((n : Nat) × BitVec n)) (k : Nat), (l.map fun x => x.1).sum + k ≤ 24 →
      fld ((l.map fun x => x.1).sum + k) 8 (pack (l ++ [⟨8, op⟩])) = fld k 8 (pack [⟨8, op⟩]) := by
    intro l
    induction l with
    | nil => intro k _; simp
    | cons a l ih =>
      intro k hk
      obtain ⟨n, v⟩ := a
      simp only [List.map_cons, List.sum_cons, List.cons_append] at hk ⊢
      rw [fld_pack_skip v _ (by omega) (by omega)]
      have e : n + (l.map fun x => x.1).sum + k - n = (l.map fun x => x.1).sum + k := by omega
      rw [e]
      exact ih k (by omega)
  have hr : ((r.reverse).map fun x => x.1).sum = 24 := by simpa [List.map_reverse, List.sum_reverse] using h
  have := skip r.reverse 0 (by omega)
  rw [hr] at this
  rw [word, List.reverse_cons, this, fld_pack_in op [] (by omega) (by omega)]
  simp

/-- Words decode to an instruction when its opcode is assigned, the words are all there, the candidate is the instruction and
its own encoding, and its fields pass their checks. -/
theorem decode_ok {w : Word} {rest : List Word} {i : Instr} (ha : opcodeAssigned (fld 24 8 w) = true)
    (hn : opcodeLength (fld 24 8 w) ≤ rest.length + 1)
    (hc : candidate w (wordAt rest 0) (.ofWords (wordAt rest 0) (wordAt rest 1) (wordAt rest 2) (wordAt rest 3)) = some i)
    (he : encode i = (w :: rest).take (opcodeLength (fld 24 8 w))) (hk : i.check = none) :
    decode (w :: rest) = .ok i (opcodeLength (fld 24 8 w)) := by
  simp [decode, ha, hc, he, hk, Nat.not_lt.mpr hn]

/-- What decoding to an instruction says: the words are its encoding and its fields pass their checks. -/
theorem of_decode_ok {ws : List Word} {i : Instr} {n : Nat} (h : decode ws = .ok i n) : encode i = ws.take n ∧ i.check = none := by
  unfold decode at h
  split at h
  · cases h
  · dsimp only at h
    split at h
    · cases h
    · split at h
      · cases h
      · split at h
        · cases h
        · split at h
          · cases h
          · rename_i _ _ _ hc
            split at h
            · cases h
            · cases h
              exact ⟨by simpa using hc, ‹_›⟩

end Sys2Proof
end

