-- ==== Sys2Proof/Laws/Memory.lean ====
section
/-! SUPPORT. Memory's canonical form (`Memory.wf`): every operation that writes memory keeps it, and the memory of the
machine after reset has it; what a byte reads as after one byte is written. -/

namespace Sys2Proof.Machine

/-! ## The form as a property of lists -/

/-- The canonical form: every cell at or above the bound and off the unlisted value, the addresses rising. -/
theorem cellsFrom_iff (m : List Host.Cell) (lo : Nat) :
    cellsFrom lo m = true ↔ (∀ c ∈ m, lo ≤ c.1 ∧ c.2 ≠ unlisted) ∧ m.Pairwise fun c e => c.1 < e.1 := by
  induction m generalizing lo with
  | nil => simp [cellsFrom]
  | cons c r ih =>
    obtain ⟨a, b⟩ := c
    simp only [cellsFrom, Bool.and_eq_true, decide_eq_true_eq, ih, List.mem_cons, forall_eq_or_imp, List.pairwise_cons]
    constructor
    · rintro ⟨⟨h1, h2⟩, h3, h4⟩
      exact ⟨⟨⟨h1, h2⟩, fun c hc => ⟨by have := (h3 c hc).1; omega, (h3 c hc).2⟩⟩, fun c hc => by have := (h3 c hc).1; omega, h4⟩
    · rintro ⟨⟨⟨h1, h2⟩, h3⟩, h4, h5⟩
      exact ⟨⟨h1, h2⟩, fun c hc => ⟨h4 c hc, (h3 c hc).2⟩, h5⟩

/-- Canonical memory: no cell holds the unlisted value, and the addresses rise. -/
theorem wf_iff (m : List Host.Cell) :
    Memory.wf m = true ↔ (∀ c ∈ m, c.2 ≠ unlisted) ∧ m.Pairwise fun c e => c.1 < e.1 := by
  simp [Memory.wf, cellsFrom_iff]

/-! ## Pieces of sorted lists -/

/-- The cells that a sorted list keeps from a bound on lie at or above it. -/
theorem le_of_mem_dropWhile {m : List Host.Cell} (h : m.Pairwise fun c e => c.1 < e.1) (k : Nat) :
    ∀ c ∈ m.dropWhile (fun c => c.1 < k), k ≤ c.1 := by
  induction m with
  | nil => simp
  | cons a r ih =>
    rw [List.pairwise_cons] at h
    intro c hc
    by_cases hk : a.1 < k
    · rw [List.dropWhile_cons_of_pos (by simpa using hk)] at hc
      exact ih h.2 c hc
    · rw [List.dropWhile_cons_of_neg (by simpa using hk)] at hc
      rcases List.mem_cons.mp hc with rfl | hc
      · omega
      · have := h.1 c hc; omega

/-- The cells that a list takes below a bound lie below it. -/
theorem lt_of_mem_takeWhile (m : List Host.Cell) (k : Nat) : ∀ c ∈ m.takeWhile (fun c => c.1 < k), c.1 < k := by
  induction m with
  | nil => simp
  | cons a r ih =>
    intro c hc
    by_cases hk : a.1 < k
    · rw [List.takeWhile_cons_of_pos (by simpa using hk)] at hc
      rcases List.mem_cons.mp hc with rfl | hc
      · exact hk
      · exact ih c hc
    · rw [List.takeWhile_cons_of_neg (by simpa using hk)] at hc
      simp at hc

/-- A canonical list with the cells of a range replaced by canonical cells within the range. -/
theorem wf_splice {m l : List Host.Cell} {a e : Nat} (h : Memory.wf m = true) (hl : Memory.wf l = true)
    (hr : ∀ c ∈ l, a ≤ c.1 ∧ c.1 < e) (hae : a ≤ e) :
    Memory.wf ((m.takeWhile fun c => c.1 < a) ++ l ++ m.dropWhile fun c => c.1 < e) = true := by
  rw [wf_iff] at *
  have ht := lt_of_mem_takeWhile m a
  have hd := le_of_mem_dropWhile h.2 e
  refine ⟨fun c hc => ?_, ?_⟩
  · rcases List.mem_append.mp hc with hc | hc
    · rcases List.mem_append.mp hc with hc | hc
      · exact h.1 c ((List.takeWhile_sublist _).subset hc)
      · exact hl.1 c hc
    · exact h.1 c ((List.dropWhile_sublist _).subset hc)
  · refine List.pairwise_append.mpr ⟨List.pairwise_append.mpr ⟨h.2.sublist (List.takeWhile_sublist _), hl.2, ?_⟩,
      h.2.sublist (List.dropWhile_sublist _), ?_⟩
    · intro x hx y hy
      have := ht x hx; have := (hr y hy).1; omega
    · intro x hx y hy
      have := hd y hy
      rcases List.mem_append.mp hx with hx | hx
      · have := ht x hx; omega
      · have := (hr x hx).2; omega

/-- The cells of bytes are canonical. -/
theorem blockCells_mem (a : Nat) (b : List Byte) :
    ∀ c ∈ blockCells a b, (a ≤ c.1 ∧ c.1 < a + b.length) ∧ c.2 ≠ unlisted := by
  induction b generalizing a with
  | nil => simp [blockCells]
  | cons x r ih =>
    intro c hc
    by_cases hx : x = unlisted
    · rw [blockCells, if_pos hx] at hc
      have := ih (a + 1) c hc
      exact ⟨⟨by omega, by simp only [List.length_cons]; omega⟩, this.2⟩
    · rw [blockCells, if_neg hx] at hc
      rcases List.mem_cons.mp hc with rfl | hc
      · exact ⟨⟨Nat.le_refl a, by simp⟩, hx⟩
      · have := ih (a + 1) c hc
        exact ⟨⟨by omega, by simp only [List.length_cons]; omega⟩, this.2⟩

theorem blockCells_wf (a : Nat) (b : List Byte) : Memory.wf (blockCells a b) = true := by
  rw [wf_iff]
  refine ⟨fun c hc => (blockCells_mem a b c hc).2, ?_⟩
  induction b generalizing a with
  | nil => simp [blockCells]
  | cons x r ih =>
    rw [blockCells]
    split
    · exact ih (a + 1)
    · refine List.pairwise_cons.mpr ⟨fun c hc => ?_, ih (a + 1)⟩
      have := (blockCells_mem (a + 1) r c hc).1
      show a < c.1
      omega

/-! ## Every operation keeps the form -/

/-- Writing bytes keeps the canonical form. -/
theorem memWrite_wf {m : List Host.Cell} (h : Memory.wf m = true) (a : Nat) (b : List Byte) : Memory.wf (memWrite m a b) = true :=
  wf_splice h (blockCells_wf a b) (fun c hc => (blockCells_mem a b c hc).1) (Nat.le_add_right a _)

theorem cellPut_mem {m : List Host.Cell} {k : Nat} {b : Byte} : ∀ c ∈ cellPut m k b, c = (k, b) ∨ c ∈ m := by
  induction m with
  | nil => simp [cellPut]
  | cons a r ih =>
    intro c hc
    simp only [cellPut] at hc
    split at hc
    · rcases List.mem_cons.mp hc with h | h
      · exact .inl h
      · exact .inr h
    · split at hc
      · rcases List.mem_cons.mp hc with h | h
        · exact .inl h
        · exact .inr (List.mem_cons_of_mem _ h)
      · rcases List.mem_cons.mp hc with h | h
        · exact .inr (by simp [h])
        · exact (ih c h).imp_right (List.mem_cons_of_mem _)

/-- Writing a cell keeps a list sorted. -/
theorem cellPut_sorted {m : List Host.Cell} (h : m.Pairwise fun c e => c.1 < e.1) (k : Nat) (b : Byte) :
    (cellPut m k b).Pairwise fun c e => c.1 < e.1 := by
  induction m with
  | nil => simp [cellPut]
  | cons a r ih =>
    have h' := List.pairwise_cons.mp h
    simp only [cellPut]
    split
    · refine List.pairwise_cons.mpr ⟨fun c hc => ?_, h⟩
      rcases List.mem_cons.mp hc with rfl | hc
      · assumption
      · have := h'.1 c hc; show k < c.1; omega
    · split
      · refine List.pairwise_cons.mpr ⟨fun c hc => ?_, h'.2⟩
        have := h'.1 c hc; show k < c.1; omega
      · refine List.pairwise_cons.mpr ⟨fun c hc => ?_, ih h'.2⟩
        rcases cellPut_mem c hc with rfl | hc
        · show a.1 < k; omega
        · exact h'.1 c hc

theorem cellPut_wf {m : List Host.Cell} (h : Memory.wf m = true) {k : Nat} {b : Byte} (hb : b ≠ unlisted) :
    Memory.wf (cellPut m k b) = true := by
  rw [wf_iff] at *
  refine ⟨fun c hc => ?_, cellPut_sorted h.2 k b⟩
  rcases cellPut_mem c hc with rfl | hc
  · exact hb
  · exact h.1 c hc

theorem cellDrop_sublist (m : List Host.Cell) (k : Nat) : (cellDrop m k).Sublist m := by
  induction m with
  | nil => simp [cellDrop]
  | cons a r ih =>
    simp only [cellDrop]
    split
    · exact List.Sublist.refl _
    · split
      · exact List.sublist_cons_self _ _
      · exact ih.cons_cons _

theorem wf_sublist {l m : List Host.Cell} (h : l.Sublist m) (hm : Memory.wf m = true) : Memory.wf l = true := by
  rw [wf_iff] at *
  exact ⟨fun c hc => hm.1 c (h.subset hc), hm.2.sublist h⟩

theorem cellDrop_wf {m : List Host.Cell} (h : Memory.wf m = true) (k : Nat) : Memory.wf (cellDrop m k) = true :=
  wf_sublist (cellDrop_sublist m k) h

/-- Writing one byte keeps the canonical form. -/
theorem memPut_wf {m : List Host.Cell} (h : Memory.wf m = true) (k : Nat) (b : Byte) : Memory.wf (memPut m k b) = true := by
  rw [memPut]
  split
  · exact cellDrop_wf h k
  · exact cellPut_wf h ‹_›

/-- Setting a bit of a map keeps the canonical form. -/
theorem mapPut_wf {m : List Host.Cell} (h : Memory.wf m = true) (base n : Nat) (v : Bool) : Memory.wf (mapPut m base n v) = true :=
  memPut_wf h _ _

/-- Copying a page keeps the canonical form. -/
theorem memCopy_wf {m : List Host.Cell} (h : Memory.wf m = true) (src dst n : Nat) : Memory.wf (memCopy m src dst n) = true := by
  have hs := (wf_iff m).mp h
  have hsub : ((m.dropWhile fun c => c.1 < src).takeWhile fun c => c.1 < src + n).Sublist m :=
    (List.takeWhile_sublist _).trans (List.dropWhile_sublist _)
  have hlo : ∀ c ∈ (m.dropWhile fun c => c.1 < src).takeWhile fun c => c.1 < src + n, src ≤ c.1 ∧ c.1 < src + n := fun c hc =>
    ⟨le_of_mem_dropWhile hs.2 src c ((List.takeWhile_sublist _).subset hc), lt_of_mem_takeWhile _ _ c hc⟩
  refine wf_splice h ((wf_iff _).mpr ⟨?_, ?_⟩) ?_ (Nat.le_add_right dst n)
  · intro c hc
    obtain ⟨x, hx, rfl⟩ := List.mem_map.mp hc
    exact hs.1 x (hsub.subset hx)
  · refine List.pairwise_map.mpr (List.Pairwise.imp_of_mem (fun {a b} ha hb hab => ?_) (hs.2.sublist hsub))
    have := hlo a ha; have := hlo b hb
    show a.1 - src + dst < b.1 - src + dst
    omega
  · intro c hc
    obtain ⟨x, hx, rfl⟩ := List.mem_map.mp hc
    have := hlo x hx
    show dst ≤ x.1 - src + dst ∧ x.1 - src + dst < dst + n
    omega

/-- The memory and the host memory after reset are canonical. -/
theorem reset_mem_wf : Memory.wf State.reset.dev.mem = true ∧ Memory.wf State.reset.dev.hostMem = true := ⟨rfl, rfl⟩

/-! ## Reading one byte after writing one -/

theorem cellGet_below {d : Byte} {m : List Host.Cell} {k : Nat} (h : ∀ c ∈ m, k < c.1) : cellGet d m k = d := by
  cases m with
  | nil => rfl
  | cons a r => simp [cellGet, h a (List.mem_cons_self ..)]

/-- What a cell list reads as after one cell is written. -/
theorem cellGet_cellPut (d : Byte) {m : List Host.Cell} (h : m.Pairwise fun c e => c.1 < e.1) (k j : Nat) (b : Byte) :
    cellGet d (cellPut m k b) j = if j = k then b else cellGet d m j := by
  induction m with
  | nil =>
    simp only [cellPut, cellGet]
    by_cases hj : j < k
    · rw [if_pos hj, if_neg (by omega)]
    · simp [hj]
  | cons a r ih =>
    have h' := List.pairwise_cons.mp h
    obtain ⟨a1, a2⟩ := a
    simp only [cellPut]
    split
    · simp only [cellGet]
      by_cases h1 : j < k
      · rw [if_pos h1, if_neg (by omega), if_pos (by omega)]
      · by_cases h2 : j = k
        · simp [h2]
        · simp [h1, h2]
    · split
      · subst k
        simp only [cellGet]
        by_cases h1 : j < a1
        · rw [if_pos h1, if_neg (by omega), if_pos h1]
        · by_cases h2 : j = a1
          · simp [h2]
          · simp [h1, h2]
      · simp only [cellGet]
        rw [ih h'.2]
        by_cases h1 : j < a1
        · rw [if_pos h1, if_pos h1, if_neg (by omega)]
        · by_cases h2 : j = a1
          · rw [if_neg h1, if_pos h2, if_neg (by omega), if_neg h1, if_pos h2]
          · rw [if_neg h1, if_neg h2, if_neg h1, if_neg h2]

/-- What a cell list reads as after one cell is taken out. -/
theorem cellGet_cellDrop (d : Byte) {m : List Host.Cell} (h : m.Pairwise fun c e => c.1 < e.1) (k j : Nat) :
    cellGet d (cellDrop m k) j = if j = k then d else cellGet d m j := by
  induction m with
  | nil => simp [cellDrop, cellGet]
  | cons a r ih =>
    have h' := List.pairwise_cons.mp h
    obtain ⟨a1, a2⟩ := a
    simp only [cellDrop]
    split
    · by_cases hj : j = k
      · rw [if_pos hj]
        simp only [cellGet]
        rw [if_pos (by omega)]
      · rw [if_neg hj]
    · split
      · subst k
        by_cases h1 : j < a1
        · rw [cellGet_below fun c hc => by have := h'.1 c hc; simp only at this; omega, if_neg (by omega)]
          simp [cellGet, h1]
        · by_cases h2 : j = a1
          · rw [if_pos h2, h2]
            exact cellGet_below fun c hc => h'.1 c hc
          · rw [if_neg h2]
            simp [cellGet, h1, h2]
      · simp only [cellGet]
        rw [ih h'.2]
        by_cases h1 : j < a1
        · rw [if_pos h1, if_pos h1, if_neg (by omega)]
        · by_cases h2 : j = a1
          · rw [if_neg h1, if_pos h2, if_neg (by omega), if_neg h1, if_pos h2]
          · rw [if_neg h1, if_neg h2, if_neg h1, if_neg h2]

/-- A byte reads as written, and every other byte as before. -/
theorem memGet_memPut {m : List Host.Cell} (h : Memory.wf m = true) (k j : Nat) (b : Byte) :
    memGet (memPut m k b) j = if j = k then b else memGet m j := by
  have hs := ((wf_iff m).mp h).2
  rw [memPut]
  split
  · rw [memGet, cellGet_cellDrop _ hs, memGet]
    split
    · exact ‹b = unlisted›.symm
    · rfl
  · rw [memGet, cellGet_cellPut _ hs, memGet]

end Sys2Proof.Machine
end

