-- ==== Sys2Proof/Laws/State.lean ====
section
/-! SUPPORT. What each change of the state leaves, field by field, and what the named places read as after a change. -/

namespace Sys2Proof.Machine

/-! ## Changes of the device, field by field -/

section onDie
variable (d : Dev) (n : Nat) (f : Die → Die)
@[simp] theorem Dev.onDie_mem : (d.onDie n f).mem = d.mem := rfl
@[simp] theorem Dev.onDie_hostMem : (d.onDie n f).hostMem = d.hostMem := rfl
@[simp] theorem Dev.onDie_badLines : (d.onDie n f).badLines = d.badLines := rfl
@[simp] theorem Dev.onDie_regs : (d.onDie n f).regs = d.regs := rfl
@[simp] theorem Dev.onDie_regBus : (d.onDie n f).regBus = d.regBus := rfl
@[simp] theorem Dev.onDie_precmd : (d.onDie n f).precmd = d.precmd := rfl
@[simp] theorem Dev.onDie_loading : (d.onDie n f).loading = d.loading := rfl
@[simp] theorem Dev.onDie_cores : (d.onDie n f).cores = d.cores := rfl
@[simp] theorem Dev.onDie_groups : (d.onDie n f).groups = d.groups := rfl
@[simp] theorem Dev.onDie_gangs : (d.onDie n f).gangs = d.gangs := rfl
@[simp] theorem Dev.onDie_slots : (d.onDie n f).slots = d.slots := rfl
@[simp] theorem Dev.onDie_ops : (d.onDie n f).ops = d.ops := rfl
@[simp] theorem Dev.onDie_pinRevokes : (d.onDie n f).pinRevokes = d.pinRevokes := rfl
@[simp] theorem Dev.onDie_transfers : (d.onDie n f).transfers = d.transfers := rfl
@[simp] theorem Dev.onDie_events : (d.onDie n f).events = d.events := rfl
@[simp] theorem Dev.onDie_dropped : (d.onDie n f).dropped = d.dropped := rfl
@[simp] theorem Dev.onDie_overruns : (d.onDie n f).overruns = d.overruns := rfl
@[simp] theorem Dev.onDie_images : (d.onDie n f).images = d.images := rfl
@[simp] theorem Dev.onDie_wideBars : (d.onDie n f).wideBars = d.wideBars := rfl
@[simp] theorem Dev.onDie_notices : (d.onDie n f).notices = d.notices := rfl
@[simp] theorem Dev.onDie_traverses : (d.onDie n f).traverses = d.traverses := rfl
@[simp] theorem Dev.onDie_asks : (d.onDie n f).asks = d.asks := rfl
@[simp] theorem Dev.onDie_between : (d.onDie n f).between = d.between := rfl
@[simp] theorem Dev.onDie_periodic : (d.onDie n f).periodic = d.periodic := rfl
@[simp] theorem Dev.onDie_lastPeriodic : (d.onDie n f).lastPeriodic = d.lastPeriodic := rfl
@[simp] theorem Dev.onDie_sweeps : (d.onDie n f).sweeps = d.sweeps := rfl
@[simp] theorem Dev.onDie_waitingResets : (d.onDie n f).waitingResets = d.waitingResets := rfl
@[simp] theorem Dev.onDie_audits : (d.onDie n f).audits = d.audits := rfl
@[simp] theorem Dev.onDie_auditUsed : (d.onDie n f).auditUsed = d.auditUsed := rfl
@[simp] theorem Dev.onDie_shadow : (d.onDie n f).shadow = d.shadow := rfl
@[simp] theorem Dev.onDie_verified : (d.onDie n f).verified = d.verified := rfl
@[simp] theorem Dev.onDie_boot : (d.onDie n f).boot = d.boot := rfl
@[simp] theorem Dev.onDie_on : (d.onDie n f).on = d.on := rfl
@[simp] theorem Dev.onDie_retain : (d.onDie n f).retain = d.retain := rfl
@[simp] theorem Dev.onDie_warmFail : (d.onDie n f).warmFail = d.warmFail := rfl
@[simp] theorem Dev.onDie_warmKind : (d.onDie n f).warmKind = d.warmKind := rfl
@[simp] theorem Dev.onDie_bootError : (d.onDie n f).bootError = d.bootError := rfl
@[simp] theorem Dev.onDie_emergency : (d.onDie n f).emergency = d.emergency := rfl
@[simp] theorem Dev.onDie_capped : (d.onDie n f).capped = d.capped := rfl
@[simp] theorem Dev.onDie_now : (d.onDie n f).now = d.now := rfl
@[simp] theorem Dev.onDie_coreTemp : (d.onDie n f).coreTemp = d.coreTemp := rfl
@[simp] theorem Dev.onDie_stackTemp : (d.onDie n f).stackTemp = d.stackTemp := rfl
@[simp] theorem Dev.onDie_watts : (d.onDie n f).watts = d.watts := rfl
@[simp] theorem Dev.onDie_softErrors : (d.onDie n f).softErrors = d.softErrors := rfl
@[simp] theorem Dev.onDie_wire : (d.onDie n f).wire = d.wire := rfl
@[simp] theorem Dev.onDie_hostNotices : (d.onDie n f).hostNotices = d.hostNotices := rfl
@[simp] theorem Dev.onDie_hostReply : (d.onDie n f).hostReply = d.hostReply := rfl
@[simp] theorem Dev.onDie_issuer : (d.onDie n f).issuer = d.issuer := rfl
@[simp] theorem Dev.onDie_free : (d.onDie n f).free = d.free := rfl
@[simp] theorem Dev.onDie_nextId : (d.onDie n f).nextId = d.nextId := rfl
@[simp] theorem Dev.onDie_tick : (d.onDie n f).tick = d.tick := rfl
@[simp] theorem Dev.onDie_cycles : (d.onDie n f).cycles = d.cycles := rfl
end onDie

section mapDies
variable (d : Dev) (f : Die → Die)
@[simp] theorem Dev.mapDies_mem : (d.mapDies f).mem = d.mem := rfl
@[simp] theorem Dev.mapDies_hostMem : (d.mapDies f).hostMem = d.hostMem := rfl
@[simp] theorem Dev.mapDies_badLines : (d.mapDies f).badLines = d.badLines := rfl
@[simp] theorem Dev.mapDies_regs : (d.mapDies f).regs = d.regs := rfl
@[simp] theorem Dev.mapDies_regBus : (d.mapDies f).regBus = d.regBus := rfl
@[simp] theorem Dev.mapDies_precmd : (d.mapDies f).precmd = d.precmd := rfl
@[simp] theorem Dev.mapDies_loading : (d.mapDies f).loading = d.loading := rfl
@[simp] theorem Dev.mapDies_cores : (d.mapDies f).cores = d.cores := rfl
@[simp] theorem Dev.mapDies_groups : (d.mapDies f).groups = d.groups := rfl
@[simp] theorem Dev.mapDies_gangs : (d.mapDies f).gangs = d.gangs := rfl
@[simp] theorem Dev.mapDies_slots : (d.mapDies f).slots = d.slots := rfl
@[simp] theorem Dev.mapDies_ops : (d.mapDies f).ops = d.ops := rfl
@[simp] theorem Dev.mapDies_pinRevokes : (d.mapDies f).pinRevokes = d.pinRevokes := rfl
@[simp] theorem Dev.mapDies_transfers : (d.mapDies f).transfers = d.transfers := rfl
@[simp] theorem Dev.mapDies_events : (d.mapDies f).events = d.events := rfl
@[simp] theorem Dev.mapDies_dropped : (d.mapDies f).dropped = d.dropped := rfl
@[simp] theorem Dev.mapDies_overruns : (d.mapDies f).overruns = d.overruns := rfl
@[simp] theorem Dev.mapDies_images : (d.mapDies f).images = d.images := rfl
@[simp] theorem Dev.mapDies_wideBars : (d.mapDies f).wideBars = d.wideBars := rfl
@[simp] theorem Dev.mapDies_notices : (d.mapDies f).notices = d.notices := rfl
@[simp] theorem Dev.mapDies_traverses : (d.mapDies f).traverses = d.traverses := rfl
@[simp] theorem Dev.mapDies_asks : (d.mapDies f).asks = d.asks := rfl
@[simp] theorem Dev.mapDies_between : (d.mapDies f).between = d.between := rfl
@[simp] theorem Dev.mapDies_periodic : (d.mapDies f).periodic = d.periodic := rfl
@[simp] theorem Dev.mapDies_lastPeriodic : (d.mapDies f).lastPeriodic = d.lastPeriodic := rfl
@[simp] theorem Dev.mapDies_sweeps : (d.mapDies f).sweeps = d.sweeps := rfl
@[simp] theorem Dev.mapDies_waitingResets : (d.mapDies f).waitingResets = d.waitingResets := rfl
@[simp] theorem Dev.mapDies_audits : (d.mapDies f).audits = d.audits := rfl
@[simp] theorem Dev.mapDies_auditUsed : (d.mapDies f).auditUsed = d.auditUsed := rfl
@[simp] theorem Dev.mapDies_shadow : (d.mapDies f).shadow = d.shadow := rfl
@[simp] theorem Dev.mapDies_verified : (d.mapDies f).verified = d.verified := rfl
@[simp] theorem Dev.mapDies_boot : (d.mapDies f).boot = d.boot := rfl
@[simp] theorem Dev.mapDies_on : (d.mapDies f).on = d.on := rfl
@[simp] theorem Dev.mapDies_retain : (d.mapDies f).retain = d.retain := rfl
@[simp] theorem Dev.mapDies_warmFail : (d.mapDies f).warmFail = d.warmFail := rfl
@[simp] theorem Dev.mapDies_warmKind : (d.mapDies f).warmKind = d.warmKind := rfl
@[simp] theorem Dev.mapDies_bootError : (d.mapDies f).bootError = d.bootError := rfl
@[simp] theorem Dev.mapDies_emergency : (d.mapDies f).emergency = d.emergency := rfl
@[simp] theorem Dev.mapDies_capped : (d.mapDies f).capped = d.capped := rfl
@[simp] theorem Dev.mapDies_now : (d.mapDies f).now = d.now := rfl
@[simp] theorem Dev.mapDies_coreTemp : (d.mapDies f).coreTemp = d.coreTemp := rfl
@[simp] theorem Dev.mapDies_stackTemp : (d.mapDies f).stackTemp = d.stackTemp := rfl
@[simp] theorem Dev.mapDies_watts : (d.mapDies f).watts = d.watts := rfl
@[simp] theorem Dev.mapDies_softErrors : (d.mapDies f).softErrors = d.softErrors := rfl
@[simp] theorem Dev.mapDies_wire : (d.mapDies f).wire = d.wire := rfl
@[simp] theorem Dev.mapDies_hostNotices : (d.mapDies f).hostNotices = d.hostNotices := rfl
@[simp] theorem Dev.mapDies_hostReply : (d.mapDies f).hostReply = d.hostReply := rfl
@[simp] theorem Dev.mapDies_issuer : (d.mapDies f).issuer = d.issuer := rfl
@[simp] theorem Dev.mapDies_free : (d.mapDies f).free = d.free := rfl
@[simp] theorem Dev.mapDies_nextId : (d.mapDies f).nextId = d.nextId := rfl
@[simp] theorem Dev.mapDies_tick : (d.mapDies f).tick = d.tick := rfl
@[simp] theorem Dev.mapDies_cycles : (d.mapDies f).cycles = d.cycles := rfl
end mapDies

section mapCores
variable (d : Dev) (f : Core → Core)
@[simp] theorem Dev.mapCores_mem : (d.mapCores f).mem = d.mem := rfl
@[simp] theorem Dev.mapCores_hostMem : (d.mapCores f).hostMem = d.hostMem := rfl
@[simp] theorem Dev.mapCores_badLines : (d.mapCores f).badLines = d.badLines := rfl
@[simp] theorem Dev.mapCores_regs : (d.mapCores f).regs = d.regs := rfl
@[simp] theorem Dev.mapCores_regBus : (d.mapCores f).regBus = d.regBus := rfl
@[simp] theorem Dev.mapCores_precmd : (d.mapCores f).precmd = d.precmd := rfl
@[simp] theorem Dev.mapCores_loading : (d.mapCores f).loading = d.loading := rfl
@[simp] theorem Dev.mapCores_dies : (d.mapCores f).dies = d.dies := rfl
@[simp] theorem Dev.mapCores_groups : (d.mapCores f).groups = d.groups := rfl
@[simp] theorem Dev.mapCores_gangs : (d.mapCores f).gangs = d.gangs := rfl
@[simp] theorem Dev.mapCores_slots : (d.mapCores f).slots = d.slots := rfl
@[simp] theorem Dev.mapCores_ops : (d.mapCores f).ops = d.ops := rfl
@[simp] theorem Dev.mapCores_pinRevokes : (d.mapCores f).pinRevokes = d.pinRevokes := rfl
@[simp] theorem Dev.mapCores_transfers : (d.mapCores f).transfers = d.transfers := rfl
@[simp] theorem Dev.mapCores_events : (d.mapCores f).events = d.events := rfl
@[simp] theorem Dev.mapCores_dropped : (d.mapCores f).dropped = d.dropped := rfl
@[simp] theorem Dev.mapCores_overruns : (d.mapCores f).overruns = d.overruns := rfl
@[simp] theorem Dev.mapCores_images : (d.mapCores f).images = d.images := rfl
@[simp] theorem Dev.mapCores_wideBars : (d.mapCores f).wideBars = d.wideBars := rfl
@[simp] theorem Dev.mapCores_notices : (d.mapCores f).notices = d.notices := rfl
@[simp] theorem Dev.mapCores_traverses : (d.mapCores f).traverses = d.traverses := rfl
@[simp] theorem Dev.mapCores_asks : (d.mapCores f).asks = d.asks := rfl
@[simp] theorem Dev.mapCores_between : (d.mapCores f).between = d.between := rfl
@[simp] theorem Dev.mapCores_periodic : (d.mapCores f).periodic = d.periodic := rfl
@[simp] theorem Dev.mapCores_lastPeriodic : (d.mapCores f).lastPeriodic = d.lastPeriodic := rfl
@[simp] theorem Dev.mapCores_sweeps : (d.mapCores f).sweeps = d.sweeps := rfl
@[simp] theorem Dev.mapCores_waitingResets : (d.mapCores f).waitingResets = d.waitingResets := rfl
@[simp] theorem Dev.mapCores_audits : (d.mapCores f).audits = d.audits := rfl
@[simp] theorem Dev.mapCores_auditUsed : (d.mapCores f).auditUsed = d.auditUsed := rfl
@[simp] theorem Dev.mapCores_shadow : (d.mapCores f).shadow = d.shadow := rfl
@[simp] theorem Dev.mapCores_verified : (d.mapCores f).verified = d.verified := rfl
@[simp] theorem Dev.mapCores_boot : (d.mapCores f).boot = d.boot := rfl
@[simp] theorem Dev.mapCores_on : (d.mapCores f).on = d.on := rfl
@[simp] theorem Dev.mapCores_retain : (d.mapCores f).retain = d.retain := rfl
@[simp] theorem Dev.mapCores_warmFail : (d.mapCores f).warmFail = d.warmFail := rfl
@[simp] theorem Dev.mapCores_warmKind : (d.mapCores f).warmKind = d.warmKind := rfl
@[simp] theorem Dev.mapCores_bootError : (d.mapCores f).bootError = d.bootError := rfl
@[simp] theorem Dev.mapCores_emergency : (d.mapCores f).emergency = d.emergency := rfl
@[simp] theorem Dev.mapCores_capped : (d.mapCores f).capped = d.capped := rfl
@[simp] theorem Dev.mapCores_now : (d.mapCores f).now = d.now := rfl
@[simp] theorem Dev.mapCores_coreTemp : (d.mapCores f).coreTemp = d.coreTemp := rfl
@[simp] theorem Dev.mapCores_stackTemp : (d.mapCores f).stackTemp = d.stackTemp := rfl
@[simp] theorem Dev.mapCores_watts : (d.mapCores f).watts = d.watts := rfl
@[simp] theorem Dev.mapCores_softErrors : (d.mapCores f).softErrors = d.softErrors := rfl
@[simp] theorem Dev.mapCores_wire : (d.mapCores f).wire = d.wire := rfl
@[simp] theorem Dev.mapCores_hostNotices : (d.mapCores f).hostNotices = d.hostNotices := rfl
@[simp] theorem Dev.mapCores_hostReply : (d.mapCores f).hostReply = d.hostReply := rfl
@[simp] theorem Dev.mapCores_issuer : (d.mapCores f).issuer = d.issuer := rfl
@[simp] theorem Dev.mapCores_free : (d.mapCores f).free = d.free := rfl
@[simp] theorem Dev.mapCores_nextId : (d.mapCores f).nextId = d.nextId := rfl
@[simp] theorem Dev.mapCores_tick : (d.mapCores f).tick = d.tick := rfl
@[simp] theorem Dev.mapCores_cycles : (d.mapCores f).cycles = d.cycles := rfl
end mapCores

section setCore
variable (d : Dev) (k : Core)
@[simp] theorem Dev.setCore_mem : (d.setCore k).mem = d.mem := rfl
@[simp] theorem Dev.setCore_hostMem : (d.setCore k).hostMem = d.hostMem := rfl
@[simp] theorem Dev.setCore_badLines : (d.setCore k).badLines = d.badLines := rfl
@[simp] theorem Dev.setCore_regs : (d.setCore k).regs = d.regs := rfl
@[simp] theorem Dev.setCore_regBus : (d.setCore k).regBus = d.regBus := rfl
@[simp] theorem Dev.setCore_precmd : (d.setCore k).precmd = d.precmd := rfl
@[simp] theorem Dev.setCore_loading : (d.setCore k).loading = d.loading := rfl
@[simp] theorem Dev.setCore_dies : (d.setCore k).dies = d.dies := rfl
@[simp] theorem Dev.setCore_groups : (d.setCore k).groups = d.groups := rfl
@[simp] theorem Dev.setCore_gangs : (d.setCore k).gangs = d.gangs := rfl
@[simp] theorem Dev.setCore_slots : (d.setCore k).slots = d.slots := rfl
@[simp] theorem Dev.setCore_ops : (d.setCore k).ops = d.ops := rfl
@[simp] theorem Dev.setCore_pinRevokes : (d.setCore k).pinRevokes = d.pinRevokes := rfl
@[simp] theorem Dev.setCore_transfers : (d.setCore k).transfers = d.transfers := rfl
@[simp] theorem Dev.setCore_events : (d.setCore k).events = d.events := rfl
@[simp] theorem Dev.setCore_dropped : (d.setCore k).dropped = d.dropped := rfl
@[simp] theorem Dev.setCore_overruns : (d.setCore k).overruns = d.overruns := rfl
@[simp] theorem Dev.setCore_images : (d.setCore k).images = d.images := rfl
@[simp] theorem Dev.setCore_wideBars : (d.setCore k).wideBars = d.wideBars := rfl
@[simp] theorem Dev.setCore_notices : (d.setCore k).notices = d.notices := rfl
@[simp] theorem Dev.setCore_traverses : (d.setCore k).traverses = d.traverses := rfl
@[simp] theorem Dev.setCore_asks : (d.setCore k).asks = d.asks := rfl
@[simp] theorem Dev.setCore_between : (d.setCore k).between = d.between := rfl
@[simp] theorem Dev.setCore_periodic : (d.setCore k).periodic = d.periodic := rfl
@[simp] theorem Dev.setCore_lastPeriodic : (d.setCore k).lastPeriodic = d.lastPeriodic := rfl
@[simp] theorem Dev.setCore_sweeps : (d.setCore k).sweeps = d.sweeps := rfl
@[simp] theorem Dev.setCore_waitingResets : (d.setCore k).waitingResets = d.waitingResets := rfl
@[simp] theorem Dev.setCore_audits : (d.setCore k).audits = d.audits := rfl
@[simp] theorem Dev.setCore_auditUsed : (d.setCore k).auditUsed = d.auditUsed := rfl
@[simp] theorem Dev.setCore_shadow : (d.setCore k).shadow = d.shadow := rfl
@[simp] theorem Dev.setCore_verified : (d.setCore k).verified = d.verified := rfl
@[simp] theorem Dev.setCore_boot : (d.setCore k).boot = d.boot := rfl
@[simp] theorem Dev.setCore_on : (d.setCore k).on = d.on := rfl
@[simp] theorem Dev.setCore_retain : (d.setCore k).retain = d.retain := rfl
@[simp] theorem Dev.setCore_warmFail : (d.setCore k).warmFail = d.warmFail := rfl
@[simp] theorem Dev.setCore_warmKind : (d.setCore k).warmKind = d.warmKind := rfl
@[simp] theorem Dev.setCore_bootError : (d.setCore k).bootError = d.bootError := rfl
@[simp] theorem Dev.setCore_emergency : (d.setCore k).emergency = d.emergency := rfl
@[simp] theorem Dev.setCore_capped : (d.setCore k).capped = d.capped := rfl
@[simp] theorem Dev.setCore_now : (d.setCore k).now = d.now := rfl
@[simp] theorem Dev.setCore_coreTemp : (d.setCore k).coreTemp = d.coreTemp := rfl
@[simp] theorem Dev.setCore_stackTemp : (d.setCore k).stackTemp = d.stackTemp := rfl
@[simp] theorem Dev.setCore_watts : (d.setCore k).watts = d.watts := rfl
@[simp] theorem Dev.setCore_softErrors : (d.setCore k).softErrors = d.softErrors := rfl
@[simp] theorem Dev.setCore_wire : (d.setCore k).wire = d.wire := rfl
@[simp] theorem Dev.setCore_hostNotices : (d.setCore k).hostNotices = d.hostNotices := rfl
@[simp] theorem Dev.setCore_hostReply : (d.setCore k).hostReply = d.hostReply := rfl
@[simp] theorem Dev.setCore_issuer : (d.setCore k).issuer = d.issuer := rfl
@[simp] theorem Dev.setCore_free : (d.setCore k).free = d.free := rfl
@[simp] theorem Dev.setCore_nextId : (d.setCore k).nextId = d.nextId := rfl
@[simp] theorem Dev.setCore_tick : (d.setCore k).tick = d.tick := rfl
@[simp] theorem Dev.setCore_cycles : (d.setCore k).cycles = d.cycles := rfl
end setCore

section onCore
variable (d : Dev) (c : CoreRef) (f : Core → Core)
@[simp] theorem Dev.onCore_mem : (d.onCore c f).mem = d.mem := rfl
@[simp] theorem Dev.onCore_hostMem : (d.onCore c f).hostMem = d.hostMem := rfl
@[simp] theorem Dev.onCore_badLines : (d.onCore c f).badLines = d.badLines := rfl
@[simp] theorem Dev.onCore_regs : (d.onCore c f).regs = d.regs := rfl
@[simp] theorem Dev.onCore_regBus : (d.onCore c f).regBus = d.regBus := rfl
@[simp] theorem Dev.onCore_precmd : (d.onCore c f).precmd = d.precmd := rfl
@[simp] theorem Dev.onCore_loading : (d.onCore c f).loading = d.loading := rfl
@[simp] theorem Dev.onCore_dies : (d.onCore c f).dies = d.dies := rfl
@[simp] theorem Dev.onCore_groups : (d.onCore c f).groups = d.groups := rfl
@[simp] theorem Dev.onCore_gangs : (d.onCore c f).gangs = d.gangs := rfl
@[simp] theorem Dev.onCore_slots : (d.onCore c f).slots = d.slots := rfl
@[simp] theorem Dev.onCore_ops : (d.onCore c f).ops = d.ops := rfl
@[simp] theorem Dev.onCore_pinRevokes : (d.onCore c f).pinRevokes = d.pinRevokes := rfl
@[simp] theorem Dev.onCore_transfers : (d.onCore c f).transfers = d.transfers := rfl
@[simp] theorem Dev.onCore_events : (d.onCore c f).events = d.events := rfl
@[simp] theorem Dev.onCore_dropped : (d.onCore c f).dropped = d.dropped := rfl
@[simp] theorem Dev.onCore_overruns : (d.onCore c f).overruns = d.overruns := rfl
@[simp] theorem Dev.onCore_images : (d.onCore c f).images = d.images := rfl
@[simp] theorem Dev.onCore_wideBars : (d.onCore c f).wideBars = d.wideBars := rfl
@[simp] theorem Dev.onCore_notices : (d.onCore c f).notices = d.notices := rfl
@[simp] theorem Dev.onCore_traverses : (d.onCore c f).traverses = d.traverses := rfl
@[simp] theorem Dev.onCore_asks : (d.onCore c f).asks = d.asks := rfl
@[simp] theorem Dev.onCore_between : (d.onCore c f).between = d.between := rfl
@[simp] theorem Dev.onCore_periodic : (d.onCore c f).periodic = d.periodic := rfl
@[simp] theorem Dev.onCore_lastPeriodic : (d.onCore c f).lastPeriodic = d.lastPeriodic := rfl
@[simp] theorem Dev.onCore_sweeps : (d.onCore c f).sweeps = d.sweeps := rfl
@[simp] theorem Dev.onCore_waitingResets : (d.onCore c f).waitingResets = d.waitingResets := rfl
@[simp] theorem Dev.onCore_audits : (d.onCore c f).audits = d.audits := rfl
@[simp] theorem Dev.onCore_auditUsed : (d.onCore c f).auditUsed = d.auditUsed := rfl
@[simp] theorem Dev.onCore_shadow : (d.onCore c f).shadow = d.shadow := rfl
@[simp] theorem Dev.onCore_verified : (d.onCore c f).verified = d.verified := rfl
@[simp] theorem Dev.onCore_boot : (d.onCore c f).boot = d.boot := rfl
@[simp] theorem Dev.onCore_on : (d.onCore c f).on = d.on := rfl
@[simp] theorem Dev.onCore_retain : (d.onCore c f).retain = d.retain := rfl
@[simp] theorem Dev.onCore_warmFail : (d.onCore c f).warmFail = d.warmFail := rfl
@[simp] theorem Dev.onCore_warmKind : (d.onCore c f).warmKind = d.warmKind := rfl
@[simp] theorem Dev.onCore_bootError : (d.onCore c f).bootError = d.bootError := rfl
@[simp] theorem Dev.onCore_emergency : (d.onCore c f).emergency = d.emergency := rfl
@[simp] theorem Dev.onCore_capped : (d.onCore c f).capped = d.capped := rfl
@[simp] theorem Dev.onCore_now : (d.onCore c f).now = d.now := rfl
@[simp] theorem Dev.onCore_coreTemp : (d.onCore c f).coreTemp = d.coreTemp := rfl
@[simp] theorem Dev.onCore_stackTemp : (d.onCore c f).stackTemp = d.stackTemp := rfl
@[simp] theorem Dev.onCore_watts : (d.onCore c f).watts = d.watts := rfl
@[simp] theorem Dev.onCore_softErrors : (d.onCore c f).softErrors = d.softErrors := rfl
@[simp] theorem Dev.onCore_wire : (d.onCore c f).wire = d.wire := rfl
@[simp] theorem Dev.onCore_hostNotices : (d.onCore c f).hostNotices = d.hostNotices := rfl
@[simp] theorem Dev.onCore_hostReply : (d.onCore c f).hostReply = d.hostReply := rfl
@[simp] theorem Dev.onCore_issuer : (d.onCore c f).issuer = d.issuer := rfl
@[simp] theorem Dev.onCore_free : (d.onCore c f).free = d.free := rfl
@[simp] theorem Dev.onCore_nextId : (d.onCore c f).nextId = d.nextId := rfl
@[simp] theorem Dev.onCore_tick : (d.onCore c f).tick = d.tick := rfl
@[simp] theorem Dev.onCore_cycles : (d.onCore c f).cycles = d.cycles := rfl
end onCore

section onGroup
variable (d : Dev) (n : Nat) (f : Group → Group)
@[simp] theorem Dev.onGroup_mem : (d.onGroup n f).mem = d.mem := rfl
@[simp] theorem Dev.onGroup_hostMem : (d.onGroup n f).hostMem = d.hostMem := rfl
@[simp] theorem Dev.onGroup_badLines : (d.onGroup n f).badLines = d.badLines := rfl
@[simp] theorem Dev.onGroup_regs : (d.onGroup n f).regs = d.regs := rfl
@[simp] theorem Dev.onGroup_regBus : (d.onGroup n f).regBus = d.regBus := rfl
@[simp] theorem Dev.onGroup_precmd : (d.onGroup n f).precmd = d.precmd := rfl
@[simp] theorem Dev.onGroup_loading : (d.onGroup n f).loading = d.loading := rfl
@[simp] theorem Dev.onGroup_cores : (d.onGroup n f).cores = d.cores := rfl
@[simp] theorem Dev.onGroup_dies : (d.onGroup n f).dies = d.dies := rfl
@[simp] theorem Dev.onGroup_gangs : (d.onGroup n f).gangs = d.gangs := rfl
@[simp] theorem Dev.onGroup_slots : (d.onGroup n f).slots = d.slots := rfl
@[simp] theorem Dev.onGroup_ops : (d.onGroup n f).ops = d.ops := rfl
@[simp] theorem Dev.onGroup_pinRevokes : (d.onGroup n f).pinRevokes = d.pinRevokes := rfl
@[simp] theorem Dev.onGroup_transfers : (d.onGroup n f).transfers = d.transfers := rfl
@[simp] theorem Dev.onGroup_events : (d.onGroup n f).events = d.events := rfl
@[simp] theorem Dev.onGroup_dropped : (d.onGroup n f).dropped = d.dropped := rfl
@[simp] theorem Dev.onGroup_overruns : (d.onGroup n f).overruns = d.overruns := rfl
@[simp] theorem Dev.onGroup_images : (d.onGroup n f).images = d.images := rfl
@[simp] theorem Dev.onGroup_wideBars : (d.onGroup n f).wideBars = d.wideBars := rfl
@[simp] theorem Dev.onGroup_notices : (d.onGroup n f).notices = d.notices := rfl
@[simp] theorem Dev.onGroup_traverses : (d.onGroup n f).traverses = d.traverses := rfl
@[simp] theorem Dev.onGroup_asks : (d.onGroup n f).asks = d.asks := rfl
@[simp] theorem Dev.onGroup_between : (d.onGroup n f).between = d.between := rfl
@[simp] theorem Dev.onGroup_periodic : (d.onGroup n f).periodic = d.periodic := rfl
@[simp] theorem Dev.onGroup_lastPeriodic : (d.onGroup n f).lastPeriodic = d.lastPeriodic := rfl
@[simp] theorem Dev.onGroup_sweeps : (d.onGroup n f).sweeps = d.sweeps := rfl
@[simp] theorem Dev.onGroup_waitingResets : (d.onGroup n f).waitingResets = d.waitingResets := rfl
@[simp] theorem Dev.onGroup_audits : (d.onGroup n f).audits = d.audits := rfl
@[simp] theorem Dev.onGroup_auditUsed : (d.onGroup n f).auditUsed = d.auditUsed := rfl
@[simp] theorem Dev.onGroup_shadow : (d.onGroup n f).shadow = d.shadow := rfl
@[simp] theorem Dev.onGroup_verified : (d.onGroup n f).verified = d.verified := rfl
@[simp] theorem Dev.onGroup_boot : (d.onGroup n f).boot = d.boot := rfl
@[simp] theorem Dev.onGroup_on : (d.onGroup n f).on = d.on := rfl
@[simp] theorem Dev.onGroup_retain : (d.onGroup n f).retain = d.retain := rfl
@[simp] theorem Dev.onGroup_warmFail : (d.onGroup n f).warmFail = d.warmFail := rfl
@[simp] theorem Dev.onGroup_warmKind : (d.onGroup n f).warmKind = d.warmKind := rfl
@[simp] theorem Dev.onGroup_bootError : (d.onGroup n f).bootError = d.bootError := rfl
@[simp] theorem Dev.onGroup_emergency : (d.onGroup n f).emergency = d.emergency := rfl
@[simp] theorem Dev.onGroup_capped : (d.onGroup n f).capped = d.capped := rfl
@[simp] theorem Dev.onGroup_now : (d.onGroup n f).now = d.now := rfl
@[simp] theorem Dev.onGroup_coreTemp : (d.onGroup n f).coreTemp = d.coreTemp := rfl
@[simp] theorem Dev.onGroup_stackTemp : (d.onGroup n f).stackTemp = d.stackTemp := rfl
@[simp] theorem Dev.onGroup_watts : (d.onGroup n f).watts = d.watts := rfl
@[simp] theorem Dev.onGroup_softErrors : (d.onGroup n f).softErrors = d.softErrors := rfl
@[simp] theorem Dev.onGroup_wire : (d.onGroup n f).wire = d.wire := rfl
@[simp] theorem Dev.onGroup_hostNotices : (d.onGroup n f).hostNotices = d.hostNotices := rfl
@[simp] theorem Dev.onGroup_hostReply : (d.onGroup n f).hostReply = d.hostReply := rfl
@[simp] theorem Dev.onGroup_issuer : (d.onGroup n f).issuer = d.issuer := rfl
@[simp] theorem Dev.onGroup_free : (d.onGroup n f).free = d.free := rfl
@[simp] theorem Dev.onGroup_nextId : (d.onGroup n f).nextId = d.nextId := rfl
@[simp] theorem Dev.onGroup_tick : (d.onGroup n f).tick = d.tick := rfl
@[simp] theorem Dev.onGroup_cycles : (d.onGroup n f).cycles = d.cycles := rfl
end onGroup

section onGang
variable (d : Dev) (n : Nat) (f : Gang → Gang)
@[simp] theorem Dev.onGang_mem : (d.onGang n f).mem = d.mem := rfl
@[simp] theorem Dev.onGang_hostMem : (d.onGang n f).hostMem = d.hostMem := rfl
@[simp] theorem Dev.onGang_badLines : (d.onGang n f).badLines = d.badLines := rfl
@[simp] theorem Dev.onGang_regs : (d.onGang n f).regs = d.regs := rfl
@[simp] theorem Dev.onGang_regBus : (d.onGang n f).regBus = d.regBus := rfl
@[simp] theorem Dev.onGang_precmd : (d.onGang n f).precmd = d.precmd := rfl
@[simp] theorem Dev.onGang_loading : (d.onGang n f).loading = d.loading := rfl
@[simp] theorem Dev.onGang_cores : (d.onGang n f).cores = d.cores := rfl
@[simp] theorem Dev.onGang_dies : (d.onGang n f).dies = d.dies := rfl
@[simp] theorem Dev.onGang_groups : (d.onGang n f).groups = d.groups := rfl
@[simp] theorem Dev.onGang_slots : (d.onGang n f).slots = d.slots := rfl
@[simp] theorem Dev.onGang_ops : (d.onGang n f).ops = d.ops := rfl
@[simp] theorem Dev.onGang_pinRevokes : (d.onGang n f).pinRevokes = d.pinRevokes := rfl
@[simp] theorem Dev.onGang_transfers : (d.onGang n f).transfers = d.transfers := rfl
@[simp] theorem Dev.onGang_events : (d.onGang n f).events = d.events := rfl
@[simp] theorem Dev.onGang_dropped : (d.onGang n f).dropped = d.dropped := rfl
@[simp] theorem Dev.onGang_overruns : (d.onGang n f).overruns = d.overruns := rfl
@[simp] theorem Dev.onGang_images : (d.onGang n f).images = d.images := rfl
@[simp] theorem Dev.onGang_wideBars : (d.onGang n f).wideBars = d.wideBars := rfl
@[simp] theorem Dev.onGang_notices : (d.onGang n f).notices = d.notices := rfl
@[simp] theorem Dev.onGang_traverses : (d.onGang n f).traverses = d.traverses := rfl
@[simp] theorem Dev.onGang_asks : (d.onGang n f).asks = d.asks := rfl
@[simp] theorem Dev.onGang_between : (d.onGang n f).between = d.between := rfl
@[simp] theorem Dev.onGang_periodic : (d.onGang n f).periodic = d.periodic := rfl
@[simp] theorem Dev.onGang_lastPeriodic : (d.onGang n f).lastPeriodic = d.lastPeriodic := rfl
@[simp] theorem Dev.onGang_sweeps : (d.onGang n f).sweeps = d.sweeps := rfl
@[simp] theorem Dev.onGang_waitingResets : (d.onGang n f).waitingResets = d.waitingResets := rfl
@[simp] theorem Dev.onGang_audits : (d.onGang n f).audits = d.audits := rfl
@[simp] theorem Dev.onGang_auditUsed : (d.onGang n f).auditUsed = d.auditUsed := rfl
@[simp] theorem Dev.onGang_shadow : (d.onGang n f).shadow = d.shadow := rfl
@[simp] theorem Dev.onGang_verified : (d.onGang n f).verified = d.verified := rfl
@[simp] theorem Dev.onGang_boot : (d.onGang n f).boot = d.boot := rfl
@[simp] theorem Dev.onGang_on : (d.onGang n f).on = d.on := rfl
@[simp] theorem Dev.onGang_retain : (d.onGang n f).retain = d.retain := rfl
@[simp] theorem Dev.onGang_warmFail : (d.onGang n f).warmFail = d.warmFail := rfl
@[simp] theorem Dev.onGang_warmKind : (d.onGang n f).warmKind = d.warmKind := rfl
@[simp] theorem Dev.onGang_bootError : (d.onGang n f).bootError = d.bootError := rfl
@[simp] theorem Dev.onGang_emergency : (d.onGang n f).emergency = d.emergency := rfl
@[simp] theorem Dev.onGang_capped : (d.onGang n f).capped = d.capped := rfl
@[simp] theorem Dev.onGang_now : (d.onGang n f).now = d.now := rfl
@[simp] theorem Dev.onGang_coreTemp : (d.onGang n f).coreTemp = d.coreTemp := rfl
@[simp] theorem Dev.onGang_stackTemp : (d.onGang n f).stackTemp = d.stackTemp := rfl
@[simp] theorem Dev.onGang_watts : (d.onGang n f).watts = d.watts := rfl
@[simp] theorem Dev.onGang_softErrors : (d.onGang n f).softErrors = d.softErrors := rfl
@[simp] theorem Dev.onGang_wire : (d.onGang n f).wire = d.wire := rfl
@[simp] theorem Dev.onGang_hostNotices : (d.onGang n f).hostNotices = d.hostNotices := rfl
@[simp] theorem Dev.onGang_hostReply : (d.onGang n f).hostReply = d.hostReply := rfl
@[simp] theorem Dev.onGang_issuer : (d.onGang n f).issuer = d.issuer := rfl
@[simp] theorem Dev.onGang_free : (d.onGang n f).free = d.free := rfl
@[simp] theorem Dev.onGang_nextId : (d.onGang n f).nextId = d.nextId := rfl
@[simp] theorem Dev.onGang_tick : (d.onGang n f).tick = d.tick := rfl
@[simp] theorem Dev.onGang_cycles : (d.onGang n f).cycles = d.cycles := rfl
end onGang

section onOp
variable (d : Dev) (n : Nat) (f : Op → Op)
@[simp] theorem Dev.onOp_mem : (d.onOp n f).mem = d.mem := rfl
@[simp] theorem Dev.onOp_hostMem : (d.onOp n f).hostMem = d.hostMem := rfl
@[simp] theorem Dev.onOp_badLines : (d.onOp n f).badLines = d.badLines := rfl
@[simp] theorem Dev.onOp_regs : (d.onOp n f).regs = d.regs := rfl
@[simp] theorem Dev.onOp_regBus : (d.onOp n f).regBus = d.regBus := rfl
@[simp] theorem Dev.onOp_precmd : (d.onOp n f).precmd = d.precmd := rfl
@[simp] theorem Dev.onOp_loading : (d.onOp n f).loading = d.loading := rfl
@[simp] theorem Dev.onOp_cores : (d.onOp n f).cores = d.cores := rfl
@[simp] theorem Dev.onOp_dies : (d.onOp n f).dies = d.dies := rfl
@[simp] theorem Dev.onOp_groups : (d.onOp n f).groups = d.groups := rfl
@[simp] theorem Dev.onOp_gangs : (d.onOp n f).gangs = d.gangs := rfl
@[simp] theorem Dev.onOp_slots : (d.onOp n f).slots = d.slots := rfl
@[simp] theorem Dev.onOp_transfers : (d.onOp n f).transfers = d.transfers := rfl
@[simp] theorem Dev.onOp_events : (d.onOp n f).events = d.events := rfl
@[simp] theorem Dev.onOp_dropped : (d.onOp n f).dropped = d.dropped := rfl
@[simp] theorem Dev.onOp_overruns : (d.onOp n f).overruns = d.overruns := rfl
@[simp] theorem Dev.onOp_images : (d.onOp n f).images = d.images := rfl
@[simp] theorem Dev.onOp_wideBars : (d.onOp n f).wideBars = d.wideBars := rfl
@[simp] theorem Dev.onOp_notices : (d.onOp n f).notices = d.notices := rfl
@[simp] theorem Dev.onOp_traverses : (d.onOp n f).traverses = d.traverses := rfl
@[simp] theorem Dev.onOp_asks : (d.onOp n f).asks = d.asks := rfl
@[simp] theorem Dev.onOp_between : (d.onOp n f).between = d.between := rfl
@[simp] theorem Dev.onOp_periodic : (d.onOp n f).periodic = d.periodic := rfl
@[simp] theorem Dev.onOp_lastPeriodic : (d.onOp n f).lastPeriodic = d.lastPeriodic := rfl
@[simp] theorem Dev.onOp_sweeps : (d.onOp n f).sweeps = d.sweeps := rfl
@[simp] theorem Dev.onOp_waitingResets : (d.onOp n f).waitingResets = d.waitingResets := rfl
@[simp] theorem Dev.onOp_audits : (d.onOp n f).audits = d.audits := rfl
@[simp] theorem Dev.onOp_auditUsed : (d.onOp n f).auditUsed = d.auditUsed := rfl
@[simp] theorem Dev.onOp_shadow : (d.onOp n f).shadow = d.shadow := rfl
@[simp] theorem Dev.onOp_verified : (d.onOp n f).verified = d.verified := rfl
@[simp] theorem Dev.onOp_boot : (d.onOp n f).boot = d.boot := rfl
@[simp] theorem Dev.onOp_on : (d.onOp n f).on = d.on := rfl
@[simp] theorem Dev.onOp_retain : (d.onOp n f).retain = d.retain := rfl
@[simp] theorem Dev.onOp_warmFail : (d.onOp n f).warmFail = d.warmFail := rfl
@[simp] theorem Dev.onOp_warmKind : (d.onOp n f).warmKind = d.warmKind := rfl
@[simp] theorem Dev.onOp_bootError : (d.onOp n f).bootError = d.bootError := rfl
@[simp] theorem Dev.onOp_emergency : (d.onOp n f).emergency = d.emergency := rfl
@[simp] theorem Dev.onOp_capped : (d.onOp n f).capped = d.capped := rfl
@[simp] theorem Dev.onOp_now : (d.onOp n f).now = d.now := rfl
@[simp] theorem Dev.onOp_coreTemp : (d.onOp n f).coreTemp = d.coreTemp := rfl
@[simp] theorem Dev.onOp_stackTemp : (d.onOp n f).stackTemp = d.stackTemp := rfl
@[simp] theorem Dev.onOp_watts : (d.onOp n f).watts = d.watts := rfl
@[simp] theorem Dev.onOp_softErrors : (d.onOp n f).softErrors = d.softErrors := rfl
@[simp] theorem Dev.onOp_wire : (d.onOp n f).wire = d.wire := rfl
@[simp] theorem Dev.onOp_hostNotices : (d.onOp n f).hostNotices = d.hostNotices := rfl
@[simp] theorem Dev.onOp_hostReply : (d.onOp n f).hostReply = d.hostReply := rfl
@[simp] theorem Dev.onOp_issuer : (d.onOp n f).issuer = d.issuer := rfl
@[simp] theorem Dev.onOp_free : (d.onOp n f).free = d.free := rfl
@[simp] theorem Dev.onOp_nextId : (d.onOp n f).nextId = d.nextId := rfl
@[simp] theorem Dev.onOp_tick : (d.onOp n f).tick = d.tick := rfl
@[simp] theorem Dev.onOp_cycles : (d.onOp n f).cycles = d.cycles := rfl
end onOp

section setReg
variable (d : Dev) (r : Reg) (v : DWord)
@[simp] theorem Dev.setReg_mem : (d.setReg r v).mem = d.mem := rfl
@[simp] theorem Dev.setReg_hostMem : (d.setReg r v).hostMem = d.hostMem := rfl
@[simp] theorem Dev.setReg_badLines : (d.setReg r v).badLines = d.badLines := rfl
@[simp] theorem Dev.setReg_regBus : (d.setReg r v).regBus = d.regBus := rfl
@[simp] theorem Dev.setReg_precmd : (d.setReg r v).precmd = d.precmd := rfl
@[simp] theorem Dev.setReg_loading : (d.setReg r v).loading = d.loading := rfl
@[simp] theorem Dev.setReg_cores : (d.setReg r v).cores = d.cores := rfl
@[simp] theorem Dev.setReg_dies : (d.setReg r v).dies = d.dies := rfl
@[simp] theorem Dev.setReg_groups : (d.setReg r v).groups = d.groups := rfl
@[simp] theorem Dev.setReg_gangs : (d.setReg r v).gangs = d.gangs := rfl
@[simp] theorem Dev.setReg_slots : (d.setReg r v).slots = d.slots := rfl
@[simp] theorem Dev.setReg_ops : (d.setReg r v).ops = d.ops := rfl
@[simp] theorem Dev.setReg_pinRevokes : (d.setReg r v).pinRevokes = d.pinRevokes := rfl
@[simp] theorem Dev.setReg_transfers : (d.setReg r v).transfers = d.transfers := rfl
@[simp] theorem Dev.setReg_events : (d.setReg r v).events = d.events := rfl
@[simp] theorem Dev.setReg_dropped : (d.setReg r v).dropped = d.dropped := rfl
@[simp] theorem Dev.setReg_overruns : (d.setReg r v).overruns = d.overruns := rfl
@[simp] theorem Dev.setReg_images : (d.setReg r v).images = d.images := rfl
@[simp] theorem Dev.setReg_wideBars : (d.setReg r v).wideBars = d.wideBars := rfl
@[simp] theorem Dev.setReg_notices : (d.setReg r v).notices = d.notices := rfl
@[simp] theorem Dev.setReg_traverses : (d.setReg r v).traverses = d.traverses := rfl
@[simp] theorem Dev.setReg_asks : (d.setReg r v).asks = d.asks := rfl
@[simp] theorem Dev.setReg_between : (d.setReg r v).between = d.between := rfl
@[simp] theorem Dev.setReg_periodic : (d.setReg r v).periodic = d.periodic := rfl
@[simp] theorem Dev.setReg_lastPeriodic : (d.setReg r v).lastPeriodic = d.lastPeriodic := rfl
@[simp] theorem Dev.setReg_sweeps : (d.setReg r v).sweeps = d.sweeps := rfl
@[simp] theorem Dev.setReg_waitingResets : (d.setReg r v).waitingResets = d.waitingResets := rfl
@[simp] theorem Dev.setReg_audits : (d.setReg r v).audits = d.audits := rfl
@[simp] theorem Dev.setReg_auditUsed : (d.setReg r v).auditUsed = d.auditUsed := rfl
@[simp] theorem Dev.setReg_shadow : (d.setReg r v).shadow = d.shadow := rfl
@[simp] theorem Dev.setReg_verified : (d.setReg r v).verified = d.verified := rfl
@[simp] theorem Dev.setReg_boot : (d.setReg r v).boot = d.boot := rfl
@[simp] theorem Dev.setReg_on : (d.setReg r v).on = d.on := rfl
@[simp] theorem Dev.setReg_retain : (d.setReg r v).retain = d.retain := rfl
@[simp] theorem Dev.setReg_warmFail : (d.setReg r v).warmFail = d.warmFail := rfl
@[simp] theorem Dev.setReg_warmKind : (d.setReg r v).warmKind = d.warmKind := rfl
@[simp] theorem Dev.setReg_bootError : (d.setReg r v).bootError = d.bootError := rfl
@[simp] theorem Dev.setReg_emergency : (d.setReg r v).emergency = d.emergency := rfl
@[simp] theorem Dev.setReg_capped : (d.setReg r v).capped = d.capped := rfl
@[simp] theorem Dev.setReg_now : (d.setReg r v).now = d.now := rfl
@[simp] theorem Dev.setReg_coreTemp : (d.setReg r v).coreTemp = d.coreTemp := rfl
@[simp] theorem Dev.setReg_stackTemp : (d.setReg r v).stackTemp = d.stackTemp := rfl
@[simp] theorem Dev.setReg_watts : (d.setReg r v).watts = d.watts := rfl
@[simp] theorem Dev.setReg_softErrors : (d.setReg r v).softErrors = d.softErrors := rfl
@[simp] theorem Dev.setReg_wire : (d.setReg r v).wire = d.wire := rfl
@[simp] theorem Dev.setReg_hostNotices : (d.setReg r v).hostNotices = d.hostNotices := rfl
@[simp] theorem Dev.setReg_hostReply : (d.setReg r v).hostReply = d.hostReply := rfl
@[simp] theorem Dev.setReg_issuer : (d.setReg r v).issuer = d.issuer := rfl
@[simp] theorem Dev.setReg_free : (d.setReg r v).free = d.free := rfl
@[simp] theorem Dev.setReg_nextId : (d.setReg r v).nextId = d.nextId := rfl
@[simp] theorem Dev.setReg_tick : (d.setReg r v).tick = d.tick := rfl
@[simp] theorem Dev.setReg_cycles : (d.setReg r v).cycles = d.cycles := rfl
end setReg

section fresh
variable (d : Dev)
@[simp] theorem Dev.fresh_mem : d.fresh.2.mem = d.mem := rfl
@[simp] theorem Dev.fresh_hostMem : d.fresh.2.hostMem = d.hostMem := rfl
@[simp] theorem Dev.fresh_badLines : d.fresh.2.badLines = d.badLines := rfl
@[simp] theorem Dev.fresh_regs : d.fresh.2.regs = d.regs := rfl
@[simp] theorem Dev.fresh_regBus : d.fresh.2.regBus = d.regBus := rfl
@[simp] theorem Dev.fresh_precmd : d.fresh.2.precmd = d.precmd := rfl
@[simp] theorem Dev.fresh_loading : d.fresh.2.loading = d.loading := rfl
@[simp] theorem Dev.fresh_cores : d.fresh.2.cores = d.cores := rfl
@[simp] theorem Dev.fresh_dies : d.fresh.2.dies = d.dies := rfl
@[simp] theorem Dev.fresh_groups : d.fresh.2.groups = d.groups := rfl
@[simp] theorem Dev.fresh_gangs : d.fresh.2.gangs = d.gangs := rfl
@[simp] theorem Dev.fresh_slots : d.fresh.2.slots = d.slots := rfl
@[simp] theorem Dev.fresh_ops : d.fresh.2.ops = d.ops := rfl
@[simp] theorem Dev.fresh_pinRevokes : d.fresh.2.pinRevokes = d.pinRevokes := rfl
@[simp] theorem Dev.fresh_transfers : d.fresh.2.transfers = d.transfers := rfl
@[simp] theorem Dev.fresh_events : d.fresh.2.events = d.events := rfl
@[simp] theorem Dev.fresh_dropped : d.fresh.2.dropped = d.dropped := rfl
@[simp] theorem Dev.fresh_overruns : d.fresh.2.overruns = d.overruns := rfl
@[simp] theorem Dev.fresh_images : d.fresh.2.images = d.images := rfl
@[simp] theorem Dev.fresh_wideBars : d.fresh.2.wideBars = d.wideBars := rfl
@[simp] theorem Dev.fresh_notices : d.fresh.2.notices = d.notices := rfl
@[simp] theorem Dev.fresh_traverses : d.fresh.2.traverses = d.traverses := rfl
@[simp] theorem Dev.fresh_asks : d.fresh.2.asks = d.asks := rfl
@[simp] theorem Dev.fresh_between : d.fresh.2.between = d.between := rfl
@[simp] theorem Dev.fresh_periodic : d.fresh.2.periodic = d.periodic := rfl
@[simp] theorem Dev.fresh_lastPeriodic : d.fresh.2.lastPeriodic = d.lastPeriodic := rfl
@[simp] theorem Dev.fresh_sweeps : d.fresh.2.sweeps = d.sweeps := rfl
@[simp] theorem Dev.fresh_waitingResets : d.fresh.2.waitingResets = d.waitingResets := rfl
@[simp] theorem Dev.fresh_audits : d.fresh.2.audits = d.audits := rfl
@[simp] theorem Dev.fresh_auditUsed : d.fresh.2.auditUsed = d.auditUsed := rfl
@[simp] theorem Dev.fresh_shadow : d.fresh.2.shadow = d.shadow := rfl
@[simp] theorem Dev.fresh_verified : d.fresh.2.verified = d.verified := rfl
@[simp] theorem Dev.fresh_boot : d.fresh.2.boot = d.boot := rfl
@[simp] theorem Dev.fresh_on : d.fresh.2.on = d.on := rfl
@[simp] theorem Dev.fresh_retain : d.fresh.2.retain = d.retain := rfl
@[simp] theorem Dev.fresh_warmFail : d.fresh.2.warmFail = d.warmFail := rfl
@[simp] theorem Dev.fresh_warmKind : d.fresh.2.warmKind = d.warmKind := rfl
@[simp] theorem Dev.fresh_bootError : d.fresh.2.bootError = d.bootError := rfl
@[simp] theorem Dev.fresh_emergency : d.fresh.2.emergency = d.emergency := rfl
@[simp] theorem Dev.fresh_capped : d.fresh.2.capped = d.capped := rfl
@[simp] theorem Dev.fresh_now : d.fresh.2.now = d.now := rfl
@[simp] theorem Dev.fresh_coreTemp : d.fresh.2.coreTemp = d.coreTemp := rfl
@[simp] theorem Dev.fresh_stackTemp : d.fresh.2.stackTemp = d.stackTemp := rfl
@[simp] theorem Dev.fresh_watts : d.fresh.2.watts = d.watts := rfl
@[simp] theorem Dev.fresh_softErrors : d.fresh.2.softErrors = d.softErrors := rfl
@[simp] theorem Dev.fresh_wire : d.fresh.2.wire = d.wire := rfl
@[simp] theorem Dev.fresh_hostNotices : d.fresh.2.hostNotices = d.hostNotices := rfl
@[simp] theorem Dev.fresh_hostReply : d.fresh.2.hostReply = d.hostReply := rfl
@[simp] theorem Dev.fresh_issuer : d.fresh.2.issuer = d.issuer := rfl
@[simp] theorem Dev.fresh_nextId : d.fresh.2.nextId = d.nextId := rfl
@[simp] theorem Dev.fresh_tick : d.fresh.2.tick = d.tick := rfl
@[simp] theorem Dev.fresh_cycles : d.fresh.2.cycles = d.cycles := rfl
end fresh

section choose
variable (d : Dev) (n : Nat)
@[simp] theorem Dev.choose_mem : (d.choose n).2.mem = d.mem := rfl
@[simp] theorem Dev.choose_hostMem : (d.choose n).2.hostMem = d.hostMem := rfl
@[simp] theorem Dev.choose_badLines : (d.choose n).2.badLines = d.badLines := rfl
@[simp] theorem Dev.choose_regs : (d.choose n).2.regs = d.regs := rfl
@[simp] theorem Dev.choose_regBus : (d.choose n).2.regBus = d.regBus := rfl
@[simp] theorem Dev.choose_precmd : (d.choose n).2.precmd = d.precmd := rfl
@[simp] theorem Dev.choose_loading : (d.choose n).2.loading = d.loading := rfl
@[simp] theorem Dev.choose_cores : (d.choose n).2.cores = d.cores := rfl
@[simp] theorem Dev.choose_dies : (d.choose n).2.dies = d.dies := rfl
@[simp] theorem Dev.choose_groups : (d.choose n).2.groups = d.groups := rfl
@[simp] theorem Dev.choose_gangs : (d.choose n).2.gangs = d.gangs := rfl
@[simp] theorem Dev.choose_slots : (d.choose n).2.slots = d.slots := rfl
@[simp] theorem Dev.choose_ops : (d.choose n).2.ops = d.ops := rfl
@[simp] theorem Dev.choose_pinRevokes : (d.choose n).2.pinRevokes = d.pinRevokes := rfl
@[simp] theorem Dev.choose_transfers : (d.choose n).2.transfers = d.transfers := rfl
@[simp] theorem Dev.choose_events : (d.choose n).2.events = d.events := rfl
@[simp] theorem Dev.choose_dropped : (d.choose n).2.dropped = d.dropped := rfl
@[simp] theorem Dev.choose_overruns : (d.choose n).2.overruns = d.overruns := rfl
@[simp] theorem Dev.choose_images : (d.choose n).2.images = d.images := rfl
@[simp] theorem Dev.choose_wideBars : (d.choose n).2.wideBars = d.wideBars := rfl
@[simp] theorem Dev.choose_notices : (d.choose n).2.notices = d.notices := rfl
@[simp] theorem Dev.choose_traverses : (d.choose n).2.traverses = d.traverses := rfl
@[simp] theorem Dev.choose_asks : (d.choose n).2.asks = d.asks := rfl
@[simp] theorem Dev.choose_between : (d.choose n).2.between = d.between := rfl
@[simp] theorem Dev.choose_periodic : (d.choose n).2.periodic = d.periodic := rfl
@[simp] theorem Dev.choose_lastPeriodic : (d.choose n).2.lastPeriodic = d.lastPeriodic := rfl
@[simp] theorem Dev.choose_sweeps : (d.choose n).2.sweeps = d.sweeps := rfl
@[simp] theorem Dev.choose_waitingResets : (d.choose n).2.waitingResets = d.waitingResets := rfl
@[simp] theorem Dev.choose_audits : (d.choose n).2.audits = d.audits := rfl
@[simp] theorem Dev.choose_auditUsed : (d.choose n).2.auditUsed = d.auditUsed := rfl
@[simp] theorem Dev.choose_shadow : (d.choose n).2.shadow = d.shadow := rfl
@[simp] theorem Dev.choose_verified : (d.choose n).2.verified = d.verified := rfl
@[simp] theorem Dev.choose_boot : (d.choose n).2.boot = d.boot := rfl
@[simp] theorem Dev.choose_on : (d.choose n).2.on = d.on := rfl
@[simp] theorem Dev.choose_retain : (d.choose n).2.retain = d.retain := rfl
@[simp] theorem Dev.choose_warmFail : (d.choose n).2.warmFail = d.warmFail := rfl
@[simp] theorem Dev.choose_warmKind : (d.choose n).2.warmKind = d.warmKind := rfl
@[simp] theorem Dev.choose_bootError : (d.choose n).2.bootError = d.bootError := rfl
@[simp] theorem Dev.choose_emergency : (d.choose n).2.emergency = d.emergency := rfl
@[simp] theorem Dev.choose_capped : (d.choose n).2.capped = d.capped := rfl
@[simp] theorem Dev.choose_now : (d.choose n).2.now = d.now := rfl
@[simp] theorem Dev.choose_coreTemp : (d.choose n).2.coreTemp = d.coreTemp := rfl
@[simp] theorem Dev.choose_stackTemp : (d.choose n).2.stackTemp = d.stackTemp := rfl
@[simp] theorem Dev.choose_watts : (d.choose n).2.watts = d.watts := rfl
@[simp] theorem Dev.choose_softErrors : (d.choose n).2.softErrors = d.softErrors := rfl
@[simp] theorem Dev.choose_wire : (d.choose n).2.wire = d.wire := rfl
@[simp] theorem Dev.choose_hostNotices : (d.choose n).2.hostNotices = d.hostNotices := rfl
@[simp] theorem Dev.choose_hostReply : (d.choose n).2.hostReply = d.hostReply := rfl
@[simp] theorem Dev.choose_issuer : (d.choose n).2.issuer = d.issuer := rfl
@[simp] theorem Dev.choose_nextId : (d.choose n).2.nextId = d.nextId := rfl
@[simp] theorem Dev.choose_tick : (d.choose n).2.tick = d.tick := rfl
@[simp] theorem Dev.choose_cycles : (d.choose n).2.cycles = d.cycles := rfl
end choose

section bump
variable (d : Dev)
@[simp] theorem Dev.bump_mem : d.bump.2.mem = d.mem := rfl
@[simp] theorem Dev.bump_hostMem : d.bump.2.hostMem = d.hostMem := rfl
@[simp] theorem Dev.bump_badLines : d.bump.2.badLines = d.badLines := rfl
@[simp] theorem Dev.bump_regs : d.bump.2.regs = d.regs := rfl
@[simp] theorem Dev.bump_regBus : d.bump.2.regBus = d.regBus := rfl
@[simp] theorem Dev.bump_precmd : d.bump.2.precmd = d.precmd := rfl
@[simp] theorem Dev.bump_loading : d.bump.2.loading = d.loading := rfl
@[simp] theorem Dev.bump_cores : d.bump.2.cores = d.cores := rfl
@[simp] theorem Dev.bump_dies : d.bump.2.dies = d.dies := rfl
@[simp] theorem Dev.bump_groups : d.bump.2.groups = d.groups := rfl
@[simp] theorem Dev.bump_gangs : d.bump.2.gangs = d.gangs := rfl
@[simp] theorem Dev.bump_slots : d.bump.2.slots = d.slots := rfl
@[simp] theorem Dev.bump_ops : d.bump.2.ops = d.ops := rfl
@[simp] theorem Dev.bump_pinRevokes : d.bump.2.pinRevokes = d.pinRevokes := rfl
@[simp] theorem Dev.bump_transfers : d.bump.2.transfers = d.transfers := rfl
@[simp] theorem Dev.bump_events : d.bump.2.events = d.events := rfl
@[simp] theorem Dev.bump_dropped : d.bump.2.dropped = d.dropped := rfl
@[simp] theorem Dev.bump_overruns : d.bump.2.overruns = d.overruns := rfl
@[simp] theorem Dev.bump_images : d.bump.2.images = d.images := rfl
@[simp] theorem Dev.bump_wideBars : d.bump.2.wideBars = d.wideBars := rfl
@[simp] theorem Dev.bump_notices : d.bump.2.notices = d.notices := rfl
@[simp] theorem Dev.bump_traverses : d.bump.2.traverses = d.traverses := rfl
@[simp] theorem Dev.bump_asks : d.bump.2.asks = d.asks := rfl
@[simp] theorem Dev.bump_between : d.bump.2.between = d.between := rfl
@[simp] theorem Dev.bump_periodic : d.bump.2.periodic = d.periodic := rfl
@[simp] theorem Dev.bump_lastPeriodic : d.bump.2.lastPeriodic = d.lastPeriodic := rfl
@[simp] theorem Dev.bump_sweeps : d.bump.2.sweeps = d.sweeps := rfl
@[simp] theorem Dev.bump_waitingResets : d.bump.2.waitingResets = d.waitingResets := rfl
@[simp] theorem Dev.bump_audits : d.bump.2.audits = d.audits := rfl
@[simp] theorem Dev.bump_auditUsed : d.bump.2.auditUsed = d.auditUsed := rfl
@[simp] theorem Dev.bump_shadow : d.bump.2.shadow = d.shadow := rfl
@[simp] theorem Dev.bump_verified : d.bump.2.verified = d.verified := rfl
@[simp] theorem Dev.bump_boot : d.bump.2.boot = d.boot := rfl
@[simp] theorem Dev.bump_on : d.bump.2.on = d.on := rfl
@[simp] theorem Dev.bump_retain : d.bump.2.retain = d.retain := rfl
@[simp] theorem Dev.bump_warmFail : d.bump.2.warmFail = d.warmFail := rfl
@[simp] theorem Dev.bump_warmKind : d.bump.2.warmKind = d.warmKind := rfl
@[simp] theorem Dev.bump_bootError : d.bump.2.bootError = d.bootError := rfl
@[simp] theorem Dev.bump_emergency : d.bump.2.emergency = d.emergency := rfl
@[simp] theorem Dev.bump_capped : d.bump.2.capped = d.capped := rfl
@[simp] theorem Dev.bump_now : d.bump.2.now = d.now := rfl
@[simp] theorem Dev.bump_coreTemp : d.bump.2.coreTemp = d.coreTemp := rfl
@[simp] theorem Dev.bump_stackTemp : d.bump.2.stackTemp = d.stackTemp := rfl
@[simp] theorem Dev.bump_watts : d.bump.2.watts = d.watts := rfl
@[simp] theorem Dev.bump_softErrors : d.bump.2.softErrors = d.softErrors := rfl
@[simp] theorem Dev.bump_wire : d.bump.2.wire = d.wire := rfl
@[simp] theorem Dev.bump_hostNotices : d.bump.2.hostNotices = d.hostNotices := rfl
@[simp] theorem Dev.bump_hostReply : d.bump.2.hostReply = d.hostReply := rfl
@[simp] theorem Dev.bump_issuer : d.bump.2.issuer = d.issuer := rfl
@[simp] theorem Dev.bump_free : d.bump.2.free = d.free := rfl
@[simp] theorem Dev.bump_nextId : d.bump.2.nextId = d.nextId := rfl
@[simp] theorem Dev.bump_cycles : d.bump.2.cycles = d.cycles := rfl
end bump

section onThread
variable (d : Dev) (r : ThreadRef) (f : Thread → Thread)
@[simp] theorem Dev.onThread_mem : (d.onThread r f).mem = d.mem := by rcases r with _ | ⟨_, _ | _⟩ | _ <;> rfl
@[simp] theorem Dev.onThread_hostMem : (d.onThread r f).hostMem = d.hostMem := by rcases r with _ | ⟨_, _ | _⟩ | _ <;> rfl
@[simp] theorem Dev.onThread_badLines : (d.onThread r f).badLines = d.badLines := by rcases r with _ | ⟨_, _ | _⟩ | _ <;> rfl
@[simp] theorem Dev.onThread_regs : (d.onThread r f).regs = d.regs := by rcases r with _ | ⟨_, _ | _⟩ | _ <;> rfl
@[simp] theorem Dev.onThread_regBus : (d.onThread r f).regBus = d.regBus := by rcases r with _ | ⟨_, _ | _⟩ | _ <;> rfl
@[simp] theorem Dev.onThread_precmd : (d.onThread r f).precmd = d.precmd := by rcases r with _ | ⟨_, _ | _⟩ | _ <;> rfl
@[simp] theorem Dev.onThread_loading : (d.onThread r f).loading = d.loading := by rcases r with _ | ⟨_, _ | _⟩ | _ <;> rfl
@[simp] theorem Dev.onThread_dies : (d.onThread r f).dies = d.dies := by rcases r with _ | ⟨_, _ | _⟩ | _ <;> rfl
@[simp] theorem Dev.onThread_gangs : (d.onThread r f).gangs = d.gangs := by rcases r with _ | ⟨_, _ | _⟩ | _ <;> rfl
@[simp] theorem Dev.onThread_slots : (d.onThread r f).slots = d.slots := by rcases r with _ | ⟨_, _ | _⟩ | _ <;> rfl
@[simp] theorem Dev.onThread_ops : (d.onThread r f).ops = d.ops := by rcases r with _ | ⟨_, _ | _⟩ | _ <;> rfl
@[simp] theorem Dev.onThread_pinRevokes : (d.onThread r f).pinRevokes = d.pinRevokes := by rcases r with _ | ⟨_, _ | _⟩ | _ <;> rfl
@[simp] theorem Dev.onThread_transfers : (d.onThread r f).transfers = d.transfers := by rcases r with _ | ⟨_, _ | _⟩ | _ <;> rfl
@[simp] theorem Dev.onThread_events : (d.onThread r f).events = d.events := by rcases r with _ | ⟨_, _ | _⟩ | _ <;> rfl
@[simp] theorem Dev.onThread_dropped : (d.onThread r f).dropped = d.dropped := by rcases r with _ | ⟨_, _ | _⟩ | _ <;> rfl
@[simp] theorem Dev.onThread_overruns : (d.onThread r f).overruns = d.overruns := by rcases r with _ | ⟨_, _ | _⟩ | _ <;> rfl
@[simp] theorem Dev.onThread_images : (d.onThread r f).images = d.images := by rcases r with _ | ⟨_, _ | _⟩ | _ <;> rfl
@[simp] theorem Dev.onThread_wideBars : (d.onThread r f).wideBars = d.wideBars := by rcases r with _ | ⟨_, _ | _⟩ | _ <;> rfl
@[simp] theorem Dev.onThread_notices : (d.onThread r f).notices = d.notices := by rcases r with _ | ⟨_, _ | _⟩ | _ <;> rfl
@[simp] theorem Dev.onThread_traverses : (d.onThread r f).traverses = d.traverses := by rcases r with _ | ⟨_, _ | _⟩ | _ <;> rfl
@[simp] theorem Dev.onThread_asks : (d.onThread r f).asks = d.asks := by rcases r with _ | ⟨_, _ | _⟩ | _ <;> rfl
@[simp] theorem Dev.onThread_between : (d.onThread r f).between = d.between := by rcases r with _ | ⟨_, _ | _⟩ | _ <;> rfl
@[simp] theorem Dev.onThread_periodic : (d.onThread r f).periodic = d.periodic := by rcases r with _ | ⟨_, _ | _⟩ | _ <;> rfl
@[simp] theorem Dev.onThread_lastPeriodic : (d.onThread r f).lastPeriodic = d.lastPeriodic := by rcases r with _ | ⟨_, _ | _⟩ | _ <;> rfl
@[simp] theorem Dev.onThread_sweeps : (d.onThread r f).sweeps = d.sweeps := by rcases r with _ | ⟨_, _ | _⟩ | _ <;> rfl
@[simp] theorem Dev.onThread_waitingResets : (d.onThread r f).waitingResets = d.waitingResets := by rcases r with _ | ⟨_, _ | _⟩ | _ <;> rfl
@[simp] theorem Dev.onThread_audits : (d.onThread r f).audits = d.audits := by rcases r with _ | ⟨_, _ | _⟩ | _ <;> rfl
@[simp] theorem Dev.onThread_auditUsed : (d.onThread r f).auditUsed = d.auditUsed := by rcases r with _ | ⟨_, _ | _⟩ | _ <;> rfl
@[simp] theorem Dev.onThread_shadow : (d.onThread r f).shadow = d.shadow := by rcases r with _ | ⟨_, _ | _⟩ | _ <;> rfl
@[simp] theorem Dev.onThread_verified : (d.onThread r f).verified = d.verified := by rcases r with _ | ⟨_, _ | _⟩ | _ <;> rfl
@[simp] theorem Dev.onThread_boot : (d.onThread r f).boot = d.boot := by rcases r with _ | ⟨_, _ | _⟩ | _ <;> rfl
@[simp] theorem Dev.onThread_on : (d.onThread r f).on = d.on := by rcases r with _ | ⟨_, _ | _⟩ | _ <;> rfl
@[simp] theorem Dev.onThread_retain : (d.onThread r f).retain = d.retain := by rcases r with _ | ⟨_, _ | _⟩ | _ <;> rfl
@[simp] theorem Dev.onThread_warmFail : (d.onThread r f).warmFail = d.warmFail := by rcases r with _ | ⟨_, _ | _⟩ | _ <;> rfl
@[simp] theorem Dev.onThread_warmKind : (d.onThread r f).warmKind = d.warmKind := by rcases r with _ | ⟨_, _ | _⟩ | _ <;> rfl
@[simp] theorem Dev.onThread_bootError : (d.onThread r f).bootError = d.bootError := by rcases r with _ | ⟨_, _ | _⟩ | _ <;> rfl
@[simp] theorem Dev.onThread_emergency : (d.onThread r f).emergency = d.emergency := by rcases r with _ | ⟨_, _ | _⟩ | _ <;> rfl
@[simp] theorem Dev.onThread_capped : (d.onThread r f).capped = d.capped := by rcases r with _ | ⟨_, _ | _⟩ | _ <;> rfl
@[simp] theorem Dev.onThread_now : (d.onThread r f).now = d.now := by rcases r with _ | ⟨_, _ | _⟩ | _ <;> rfl
@[simp] theorem Dev.onThread_coreTemp : (d.onThread r f).coreTemp = d.coreTemp := by rcases r with _ | ⟨_, _ | _⟩ | _ <;> rfl
@[simp] theorem Dev.onThread_stackTemp : (d.onThread r f).stackTemp = d.stackTemp := by rcases r with _ | ⟨_, _ | _⟩ | _ <;> rfl
@[simp] theorem Dev.onThread_watts : (d.onThread r f).watts = d.watts := by rcases r with _ | ⟨_, _ | _⟩ | _ <;> rfl
@[simp] theorem Dev.onThread_softErrors : (d.onThread r f).softErrors = d.softErrors := by rcases r with _ | ⟨_, _ | _⟩ | _ <;> rfl
@[simp] theorem Dev.onThread_wire : (d.onThread r f).wire = d.wire := by rcases r with _ | ⟨_, _ | _⟩ | _ <;> rfl
@[simp] theorem Dev.onThread_hostNotices : (d.onThread r f).hostNotices = d.hostNotices := by rcases r with _ | ⟨_, _ | _⟩ | _ <;> rfl
@[simp] theorem Dev.onThread_hostReply : (d.onThread r f).hostReply = d.hostReply := by rcases r with _ | ⟨_, _ | _⟩ | _ <;> rfl
@[simp] theorem Dev.onThread_issuer : (d.onThread r f).issuer = d.issuer := by rcases r with _ | ⟨_, _ | _⟩ | _ <;> rfl
@[simp] theorem Dev.onThread_free : (d.onThread r f).free = d.free := by rcases r with _ | ⟨_, _ | _⟩ | _ <;> rfl
@[simp] theorem Dev.onThread_nextId : (d.onThread r f).nextId = d.nextId := by rcases r with _ | ⟨_, _ | _⟩ | _ <;> rfl
@[simp] theorem Dev.onThread_tick : (d.onThread r f).tick = d.tick := by rcases r with _ | ⟨_, _ | _⟩ | _ <;> rfl
@[simp] theorem Dev.onThread_cycles : (d.onThread r f).cycles = d.cycles := by rcases r with _ | ⟨_, _ | _⟩ | _ <;> rfl
end onThread

/-! ## Changes of the state -/

section withDev
variable (s : State) (d : Dev)
@[simp] theorem State.withDev_agenda : ({ s with dev := d } : State).agenda = s.agenda := rfl
@[simp] theorem State.withDev_fuses : ({ s with dev := d } : State).fuses = s.fuses := rfl
@[simp] theorem State.withDev_replays : ({ s with dev := d } : State).replays = s.replays := rfl
@[simp] theorem State.withDev_dev : ({ s with dev := d } : State).dev = d := rfl
end withDev

section onDev
variable (s : State) (f : Dev → Dev)
@[simp] theorem State.onDev_agenda : (s.onDev f).agenda = s.agenda := rfl
@[simp] theorem State.onDev_fuses : (s.onDev f).fuses = s.fuses := rfl
@[simp] theorem State.onDev_replays : (s.onDev f).replays = s.replays := rfl
@[simp] theorem State.onDev_dev : (s.onDev f).dev = f s.dev := rfl
end onDev

/-! ## Changes of a thread -/

section setS
variable (t : Thread) (n : Nat) (v : Word)
@[simp] theorem Thread.setS_wid : (t.setS n v).wid = t.wid := rfl
@[simp] theorem Thread.setS_slot : (t.setS n v).slot = t.slot := rfl
@[simp] theorem Thread.setS_lanes : (t.setS n v).lanes = t.lanes := rfl
@[simp] theorem Thread.setS_arrays : (t.setS n v).arrays = t.arrays := rfl
@[simp] theorem Thread.setS_frontier : (t.setS n v).frontier = t.frontier := rfl
@[simp] theorem Thread.setS_loopCount : (t.setS n v).loopCount = t.loopCount := rfl
@[simp] theorem Thread.setS_clause : (t.setS n v).clause = t.clause := rfl
@[simp] theorem Thread.setS_flags : (t.setS n v).flags = t.flags := rfl
@[simp] theorem Thread.setS_unack : (t.setS n v).unack = t.unack := rfl
@[simp] theorem Thread.setS_loss : (t.setS n v).loss = t.loss := rfl
@[simp] theorem Thread.setS_tvec : (t.setS n v).tvec = t.tvec := rfl
@[simp] theorem Thread.setS_tframe : (t.setS n v).tframe = t.tframe := rfl
@[simp] theorem Thread.setS_tcause : (t.setS n v).tcause = t.tcause := rfl
@[simp] theorem Thread.setS_pend : (t.setS n v).pend = t.pend := rfl
@[simp] theorem Thread.setS_masked : (t.setS n v).masked = t.masked := rfl
@[simp] theorem Thread.setS_handlers : (t.setS n v).handlers = t.handlers := rfl
@[simp] theorem Thread.setS_wait : (t.setS n v).wait = t.wait := rfl
@[simp] theorem Thread.setS_trapped : (t.setS n v).trapped = t.trapped := rfl
@[simp] theorem Thread.setS_seqFaults : (t.setS n v).seqFaults = t.seqFaults := rfl
@[simp] theorem Thread.setS_runCrc : (t.setS n v).runCrc = t.runCrc := rfl
@[simp] theorem Thread.setS_frame : (t.setS n v).frame = t.frame := rfl
@[simp] theorem Thread.setS_stamp : (t.setS n v).stamp = t.stamp := rfl
@[simp] theorem Thread.setS_freed : (t.setS n v).freed = t.freed := rfl
@[simp] theorem Thread.setS_ended : (t.setS n v).ended = t.ended := rfl
end setS

section mapLanes
variable (t : Thread) (q : Bool) (m : Word) (f : Nat → Lane → Lane)
@[simp] theorem Thread.mapLanes_wid : (t.mapLanes q m f).wid = t.wid := by unfold Thread.mapLanes; split <;> (try split) <;> rfl
@[simp] theorem Thread.mapLanes_slot : (t.mapLanes q m f).slot = t.slot := by unfold Thread.mapLanes; split <;> (try split) <;> rfl
@[simp] theorem Thread.mapLanes_arrays : (t.mapLanes q m f).arrays = t.arrays := by unfold Thread.mapLanes; split <;> (try split) <;> rfl
@[simp] theorem Thread.mapLanes_frontier : (t.mapLanes q m f).frontier = t.frontier := by unfold Thread.mapLanes; split <;> (try split) <;> rfl
@[simp] theorem Thread.mapLanes_loopCount : (t.mapLanes q m f).loopCount = t.loopCount := by unfold Thread.mapLanes; split <;> (try split) <;> rfl
@[simp] theorem Thread.mapLanes_clause : (t.mapLanes q m f).clause = t.clause := by unfold Thread.mapLanes; split <;> (try split) <;> rfl
@[simp] theorem Thread.mapLanes_flags : (t.mapLanes q m f).flags = t.flags := by unfold Thread.mapLanes; split <;> (try split) <;> rfl
@[simp] theorem Thread.mapLanes_unack : (t.mapLanes q m f).unack = t.unack := by unfold Thread.mapLanes; split <;> (try split) <;> rfl
@[simp] theorem Thread.mapLanes_loss : (t.mapLanes q m f).loss = t.loss := by unfold Thread.mapLanes; split <;> (try split) <;> rfl
@[simp] theorem Thread.mapLanes_tvec : (t.mapLanes q m f).tvec = t.tvec := by unfold Thread.mapLanes; split <;> (try split) <;> rfl
@[simp] theorem Thread.mapLanes_tframe : (t.mapLanes q m f).tframe = t.tframe := by unfold Thread.mapLanes; split <;> (try split) <;> rfl
@[simp] theorem Thread.mapLanes_tcause : (t.mapLanes q m f).tcause = t.tcause := by unfold Thread.mapLanes; split <;> (try split) <;> rfl
@[simp] theorem Thread.mapLanes_pend : (t.mapLanes q m f).pend = t.pend := by unfold Thread.mapLanes; split <;> (try split) <;> rfl
@[simp] theorem Thread.mapLanes_masked : (t.mapLanes q m f).masked = t.masked := by unfold Thread.mapLanes; split <;> (try split) <;> rfl
@[simp] theorem Thread.mapLanes_handlers : (t.mapLanes q m f).handlers = t.handlers := by unfold Thread.mapLanes; split <;> (try split) <;> rfl
@[simp] theorem Thread.mapLanes_wait : (t.mapLanes q m f).wait = t.wait := by unfold Thread.mapLanes; split <;> (try split) <;> rfl
@[simp] theorem Thread.mapLanes_trapped : (t.mapLanes q m f).trapped = t.trapped := by unfold Thread.mapLanes; split <;> (try split) <;> rfl
@[simp] theorem Thread.mapLanes_seqFaults : (t.mapLanes q m f).seqFaults = t.seqFaults := by unfold Thread.mapLanes; split <;> (try split) <;> rfl
@[simp] theorem Thread.mapLanes_runCrc : (t.mapLanes q m f).runCrc = t.runCrc := by unfold Thread.mapLanes; split <;> (try split) <;> rfl
@[simp] theorem Thread.mapLanes_frame : (t.mapLanes q m f).frame = t.frame := by unfold Thread.mapLanes; split <;> (try split) <;> rfl
@[simp] theorem Thread.mapLanes_stamp : (t.mapLanes q m f).stamp = t.stamp := by unfold Thread.mapLanes; split <;> (try split) <;> rfl
@[simp] theorem Thread.mapLanes_freed : (t.mapLanes q m f).freed = t.freed := by unfold Thread.mapLanes; split <;> (try split) <;> rfl
@[simp] theorem Thread.mapLanes_ended : (t.mapLanes q m f).ended = t.ended := by unfold Thread.mapLanes; split <;> (try split) <;> rfl
@[simp] theorem Thread.mapLanes_warp_s : (t.mapLanes false m f).s = t.s := rfl
@[simp] theorem Thread.mapLanes_warp_lanes :
    (t.mapLanes false m f).lanes = mapIdx (fun n l => if m.getLsbD n then f n l else l) 0 t.lanes := rfl
end mapLanes

/-! ## Changes of a lane -/

section lane
variable (l : Lane) (r : BitVec 7) (p : BitVec 3) (n : Nat) (v : Word) (i : Ivl) (b : Bool)
@[simp] theorem Lane.setX_g : (l.setX n v i).g = l.g := rfl
@[simp] theorem Lane.setX_p : (l.setX n v i).p = l.p := rfl
@[simp] theorem Lane.setX_gen : (l.setX n v i).gen = l.gen := rfl
@[simp] theorem Lane.setI_p : (l.setI r v i).p = l.p := by unfold Lane.setI; split <;> rfl
@[simp] theorem Lane.set_p : (l.set r v).p = l.p := by simp [Lane.set]
@[simp] theorem Lane.setI_gen : (l.setI r v i).gen = l.gen := by unfold Lane.setI; split <;> rfl
@[simp] theorem Lane.set_gen : (l.set r v).gen = l.gen := by simp [Lane.set]
@[simp] theorem Lane.setP_g : (l.setP p b).g = l.g := by unfold Lane.setP; split <;> rfl
@[simp] theorem Lane.setP_x : (l.setP p b).x = l.x := by unfold Lane.setP; split <;> rfl
@[simp] theorem Lane.setP_gen : (l.setP p b).gen = l.gen := by unfold Lane.setP; split <;> rfl
@[simp] theorem Lane.setP_get : (l.setP p b).get r = l.get r := by simp [Lane.get, Lane.xr]
@[simp] theorem Lane.setP_ivl : (l.setP p b).ivl r = l.ivl r := by simp [Lane.ivl, Lane.xr]
@[simp] theorem Lane.set_pr : (l.set r v).pr p = l.pr p := by simp [Lane.pr]
@[simp] theorem Lane.setI_pr : (l.setI r v i).pr p = l.pr p := by simp [Lane.pr]
@[simp] theorem Lane.setX_pr : (l.setX n v i).pr p = l.pr p := by simp [Lane.pr]
end lane

/-- A write of a register leaves every other one. -/
theorem Lane.setI_get_ne {l : Lane} {r q : BitVec 7} (h : q ≠ r) (v : Word) (i : Ivl) : (l.setI r v i).get q = l.get q := by
  have hn : q.toNat ≠ r.toNat := fun e => h (BitVec.eq_of_toNat_eq e)
  unfold Lane.setI Lane.get Lane.xr Lane.setX isX xNum
  by_cases hr : 112 ≤ r.toNat <;> by_cases hq : 112 ≤ q.toNat <;> simp [hr, hq]
  · rw [List.getElem?_set_ne (by omega)]
  · rw [List.getElem?_set_ne (Ne.symm hn)]

/-- A written register of the lane reads as written. -/
theorem Lane.setI_get {l : Lane} (r : BitVec 7) (v : Word) (i : Ivl) (hg : l.g.length = 112) (hx : l.x.length = 16) :
    (l.setI r v i).get r = v := by
  have := r.isLt
  unfold Lane.setI Lane.get Lane.xr Lane.setX isX xNum
  by_cases hr : 112 ≤ r.toNat
  · simp [hr, List.getD_eq_getElem?_getD, List.getElem?_set_self (show r.toNat - 112 < l.x.length by omega)]
  · simp [hr, List.getD_eq_getElem?_getD, List.getElem?_set_self (show r.toNat < l.g.length by omega)]

/-! ## The named places -/

/-- What a key names after the element at a key has changed, when the change keeps keys. -/
theorem find?_updBy {α κ : Type} [DecidableEq κ] (key : α → κ) {f : α → α} (hf : ∀ a, key (f a) = key a) (k j : κ) (l : List α) :
    (updBy (fun a => key a = k) f l).find? (fun a => key a = j) =
      if j = k then (l.find? fun a => key a = j).map f else l.find? fun a => key a = j := by
  induction l with
  | nil => simp [updBy]
  | cons a r ih =>
    simp only [updBy]
    by_cases ha : key a = k
    · by_cases hj : j = k
      · simp [ha, hj, hf]
      · have : ¬ k = j := fun h => hj h.symm
        simp [ha, hf, hj, this]
    · by_cases hj : key a = j
      · have : ¬ j = k := fun h => ha (hj.trans h)
        simp [hj, this]
      · simp [ha, hj, ih]

theorem group_onGroup (d : Dev) {f : Group → Group} (hf : ∀ g, (f g).gid = g.gid) (n m : Nat) :
    (d.onGroup n f).group m = if m = n then (d.group m).map f else d.group m :=
  find?_updBy (fun g : Group => g.gid) hf n m d.groups

theorem gang_onGang (d : Dev) {f : Gang → Gang} (hf : ∀ g, (f g).id = g.id) (n m : Nat) :
    (d.onGang n f).gang m = if m = n then (d.gang m).map f else d.gang m :=
  find?_updBy (fun g : Gang => g.id) hf n m d.gangs

theorem op_onOp (d : Dev) {f : Op → Op} (hf : ∀ o, (f o).id = o.id) (n m : Nat) :
    (d.onOp n f).op m = if m = n then (d.op m).map f else d.op m :=
  find?_updBy (fun o : Op => o.id) hf n m d.ops

theorem getElem?_updAt {α : Type} (l : List α) (n m : Nat) (f : α → α) :
    (updAt l n f)[m]? = if m = n then l[m]?.map f else l[m]? := by
  induction l generalizing n m with
  | nil => simp [updAt]
  | cons a r ih => cases n <;> cases m <;> simp [updAt, ih]

@[simp] theorem Dev.core_onGroup (d : Dev) (n : Nat) (f : Group → Group) (c : CoreRef) : (d.onGroup n f).core c = d.core c := rfl
@[simp] theorem Dev.group_onCore (d : Dev) (c : CoreRef) (f : Core → Core) (n : Nat) : (d.onCore c f).group n = d.group n := rfl

/-- A core is named by its reference. -/
theorem core_ref (d : Dev) (c : CoreRef) : (d.core c).ref = c := by
  unfold Dev.core
  cases h : d.cores.find? fun k => k.ref = c with
  | none => rfl
  | some k => simpa using List.find?_some h

theorem find?_putCore (k : Core) (c : CoreRef) (l : List Core) :
    (putCore k l).find? (fun x => x.ref = c) = if c = k.ref then some k else l.find? fun x => x.ref = c := by
  induction l with
  | nil =>
    by_cases h : c = k.ref
    · simp [putCore, h]
    · simp [putCore, h, Ne.symm h]
  | cons a r ih =>
    simp only [putCore]
    by_cases ha : a.ref = k.ref
    · by_cases h : c = k.ref
      · simp [ha, h]
      · have : ¬ k.ref = c := fun e => h e.symm
        simp [ha, h, this]
    · by_cases hc : a.ref = c
      · have : ¬ c = k.ref := fun e => ha (hc.trans e)
        simp [hc, this]
      · simp [ha, hc, ih]

/-- What a core is after a core was replaced. -/
theorem core_setCore (d : Dev) (k : Core) (c : CoreRef) : (d.setCore k).core c = if c = k.ref then k else d.core c := by
  unfold Dev.core Dev.setCore
  simp only [find?_putCore]
  split <;> simp

/-- What a core is after a core was changed. -/
theorem core_onCore (d : Dev) {f : Core → Core} (hf : ∀ k, (f k).ref = k.ref) (c e : CoreRef) :
    (d.onCore c f).core e = if e = c then f (d.core c) else d.core e := by
  rw [Dev.onCore, core_setCore, hf, core_ref]

/-- A thread after it was changed. -/
theorem thread_onThread (d : Dev) {f : Thread → Thread} (hf : ∀ t, (f t).wid = t.wid) (r : ThreadRef) :
    (d.onThread r f).thread r = (d.thread r).map f := by
  rcases r with ⟨gid, wid⟩ | ⟨c, _ | _⟩ | ⟨c, slot⟩ <;> simp only [Dev.onThread, Dev.thread]
  · rw [group_onGroup, if_pos rfl]
    · cases h : d.group gid with
      | none => rfl
      | some g =>
        show (updBy (fun w => w.wid = wid) f g.warps).find? (fun w => w.wid = wid) = _
        rw [find?_updBy (fun w : Thread => w.wid) hf, if_pos rfl]
        rfl
    · exact fun _ => rfl
  · rw [core_onCore, if_pos rfl]
    · cases (d.core c).matSeq <;> simp
    · exact fun _ => rfl
  · rw [core_onCore, if_pos rfl]
    · cases (d.core c).copySeq <;> simp
    · exact fun _ => rfl
  · rw [core_onCore, if_pos rfl]
    · simp only [List.getD_eq_getElem?_getD, getElem?_updAt, if_pos]
      cases h : (d.core c).waves[slot]? with
      | none => rfl
      | some w => cases w <;> rfl
    · exact fun _ => rfl

/-- Every other thread after a thread was changed. -/
theorem thread_onThread_ne (d : Dev) {f : Thread → Thread} (hf : ∀ t, (f t).wid = t.wid) {r q : ThreadRef} (h : q ≠ r) :
    (d.onThread r f).thread q = d.thread q := by
  rcases r with ⟨gid, wid⟩ | ⟨c, _ | _⟩ | ⟨c, slot⟩ <;> rcases q with ⟨gid', wid'⟩ | ⟨c', _ | _⟩ | ⟨c', slot'⟩ <;>
    simp only [Dev.onThread, Dev.thread, Dev.core_onGroup, Dev.group_onCore] <;>
    first
      | rw [group_onGroup]
      | rw [core_onCore]
  all_goals try exact fun _ => rfl
  · split
    · subst gid'
      have hw : ¬ wid' = wid := fun e => h (by rw [e])
      cases d.group gid with
      | none => rfl
      | some g =>
        show (updBy (fun w => w.wid = wid) f g.warps).find? (fun w => w.wid = wid') = _
        rw [find?_updBy (fun w : Thread => w.wid) hf, if_neg hw]
        rfl
    · rfl
  all_goals by_cases hc : c' = c
  all_goals simp only [hc, if_true, if_false]
  all_goals subst hc
  all_goals first | rfl | exact absurd rfl h | skip
  have hs : ¬ slot' = slot := fun e => h (by rw [e])
  simp only [List.getD_eq_getElem?_getD, getElem?_updAt, if_neg hs]

end Sys2Proof.Machine
end

