-- ==== Sys2Proof/Laws/Ops.lean ====
section
/-! SUPPORT. Everything each shared form of a meaning can do, said once: the forms of instructions, the forms of events, the
allotment check, and the issue of an instruction. -/

namespace Sys2Proof.Machine

/-! ## Instructions -/

/-- An instruction acts for the party that issues it. -/
theorem runFor_issues {s : State} {r : ThreadRef} {t : Thread} (h : Issues s r t) (f : ThreadRef → Thread → Dev → Dev) :
    runFor s f = .next (s.withDev (f r t s.dev)) := by
  simp [runFor, h.1, h.2, State.withDev]

/-- What a form that acts for the issuing party can answer. -/
theorem runFor_cases {s : State} {f : ThreadRef → Thread → Dev → Dev} {o : Out} (h : runFor s f = o) :
    (∃ r t, Issues s r t ∧ o = .next (s.withDev (f r t s.dev))) ∨ o = .fault .noIssuer := by
  subst h
  unfold runFor
  split
  · exact .inr rfl
  · rename_i r hr
    split
    · exact .inr rfl
    · rename_i t ht
      exact .inl ⟨r, t, ⟨hr, ht⟩, rfl⟩

/-- The fields of a list lie in the allotment exactly when each does. -/
theorem allotted_iff (s : State) (r : ThreadRef) (regs : List (BitVec 7)) :
    Allotted s r regs ↔ ∀ q ∈ regs, Allotted s r [q] := by
  simp only [Allotted, Dev.allotTrap, outside, Option.map_eq_none_iff, List.find?_eq_none, List.mem_singleton, forall_eq]

/-- Fewer fields lie in the allotment too. -/
theorem allotted_sub {s : State} {r : ThreadRef} {l m : List (BitVec 7)} (h : Allotted s r m) (hl : ∀ q ∈ l, q ∈ m) : Allotted s r l :=
  (allotted_iff s r l).mpr fun q hq => (allotted_iff s r m).mp h q (hl q hq)

/-- No field lies in any allotment. -/
theorem allotted_nil (s : State) (r : ThreadRef) : Allotted s r [] := rfl

/-- A register instruction within its allotment. -/
theorem lanesOp_allotted {s : State} {r : ThreadRef} {t : Thread} (h : Issues s r t) {regs : List (BitVec 7)}
    (ha : Allotted s r regs) (len : Nat) (g : Guard) (f : Thread → Nat → Lane → Lane) :
    lanesOp s len regs g f = .next (s.afterLanes r (t.taking g) len (f t)) := by
  rw [lanesOp, runFor_issues h]
  simp only [show s.dev.allotTrap r regs = none from ha]
  rfl

/-- A register instruction with a field outside the allotment. -/
theorem lanesOp_trap {s : State} {r : ThreadRef} {t : Thread} (h : Issues s r t) {regs : List (BitVec 7)} {k : TrapInfo}
    (ha : s.dev.allotTrap r regs = some k) (len : Nat) (g : Guard) (f : Thread → Nat → Lane → Lane) :
    lanesOp s len regs g f = .next (s.trapped r k) := by
  rw [lanesOp, runFor_issues h]
  simp only [ha]
  rfl

/-- An instruction that changes its thread, within its allotment. -/
theorem threadOp_allotted {s : State} {r : ThreadRef} {t : Thread} (h : Issues s r t) {regs : List (BitVec 7)}
    (ha : Allotted s r regs) (len : Nat) (f : Dev → ThreadRef → Thread → Thread) :
    threadOp s len regs f = .next (s.afterThread r len fun _ => f s.dev r t) := by
  rw [threadOp, runFor_issues h]
  simp only [show s.dev.allotTrap r regs = none from ha]
  rfl

/-- A transfer within its allotment. -/
theorem transferOp_allotted {s : State} {r : ThreadRef} {t : Thread} {q : Clause} (h : Issues s r t) (hq : t.clause = some q)
    {regs : List (BitVec 7)} (ha : Allotted s r regs) (go : Thread → Clause → Thread × List Move) :
    transferOp s regs go = .next (s.afterTransfer r (fun _ => (go t q).1) (go t q).2) := by
  rw [transferOp, runFor_issues h]
  simp only [show s.dev.allotTrap r regs = none from ha, hq]
  rfl

/-- A long-latency instruction within its allotment with room in its flag. -/
theorem longOp_free {s : State} {r : ThreadRef} {t : Thread} (h : Issues s r t) {regs : List (BitVec 7)} (ha : Allotted s r regs)
    {f : BitVec 1} (hf : FlagFree t f) (act : ThreadRef → Thread → Option Nat → Dev → Dev) :
    longOp s regs f act = .next (s.withDev (act r t (t.flagOf f) s.dev)) := by
  rw [longOp, longOpBy, runFor_issues h]
  simp only [show s.dev.allotTrap r regs = none from ha, show t.flagFull (t.flagOf f) = false from hf]
  rfl

/-- A long-latency instruction whose flag has no room waits. -/
theorem longOp_full {s : State} {r : ThreadRef} {t : Thread} (h : Issues s r t) {regs : List (BitVec 7)} (ha : Allotted s r regs)
    {f : BitVec 1} (hf : ¬ FlagFree t f) (act : ThreadRef → Thread → Option Nat → Dev → Dev) :
    longOp s regs f act = .next (s.held r .retry) := by
  have hf' : t.flagFull (t.flagOf f) = true := by simpa [FlagFree] using hf
  rw [longOp, longOpBy, runFor_issues h]
  simp only [show s.dev.allotTrap r regs = none from ha, hf']
  rfl

/-- A class-5 instruction of a group's party with a taking-part lane. -/
theorem warpOp_taking {s : State} {r : ThreadRef} {t : Thread} {gr : Group} (h : Issues s r t) (hg : s.dev.groupOf r = some gr)
    {g : Guard} (ht : t.taking g ≠ 0) (act : ThreadRef → Thread → Group → Dev → Dev) :
    warpOp s g act = .next (s.withDev (act r t gr s.dev)) := by
  rw [warpOp, runFor_issues h]
  simp only [hg, if_neg ht]

/-- A class-5 instruction without a taking-part lane only goes on. -/
theorem warpOp_none {s : State} {r : ThreadRef} {t : Thread} (h : Issues s r t) {g : Guard} (ht : t.taking g = 0)
    (act : ThreadRef → Thread → Group → Dev → Dev) : warpOp s g act = .next (s.withDev (s.dev.retire r 1)) := by
  rw [warpOp, runFor_issues h]
  simp only [if_pos ht]

/-! ## Events -/

/-- An event that can happen. -/
theorem happen_some {s : State} {f : Dev → Option Dev} {d : Dev} (h : f s.dev = some d) : happen s f = .next (s.withDev d) := by
  simp [happen, h, State.withDev]

/-- What an event can answer. -/
theorem happen_cases {s : State} {f : Dev → Option Dev} {o : Out} (h : happen s f = o) :
    (∃ d, f s.dev = some d ∧ o = .next (s.withDev d)) ∨ (f s.dev = none ∧ o = .fault .notEnabled) := by
  subst h
  unfold happen
  split
  · rename_i d hd
    exact .inl ⟨d, hd, rfl⟩
  · exact .inr ⟨‹_›, rfl⟩

/-- An event that acts on the oldest register write. -/
theorem onWrite_some {s : State} {w : RegWrite} {ws : List RegWrite} (hw : s.dev.regBus = w :: ws) (ho : s.dev.on = true)
    {act : RegWrite → Dev → Option Dev} {d : Dev} (h : act w s.dev = some d) : onWrite s act = .next (s.withDev (d.busDone w)) := by
  rw [onWrite]
  exact happen_some (by simp [hw, ho, h])

/-- The fuses change in the fuse commands only: elsewhere an event leaves them. -/
theorem happen_fuses {s t : State} {f : Dev → Option Dev} (h : happen s f = .next t) : t.fuses = s.fuses ∧ t.agenda = s.agenda := by
  rcases happen_cases h with ⟨d, _, e⟩ | ⟨_, e⟩
  · cases e; exact ⟨rfl, rfl⟩
  · cases e

theorem runFor_fuses {s t : State} {f : ThreadRef → Thread → Dev → Dev} (h : runFor s f = .next t) :
    t.fuses = s.fuses ∧ t.agenda = s.agenda := by
  rcases runFor_cases h with ⟨r, t', _, e⟩ | e
  · cases e; exact ⟨rfl, rfl⟩
  · cases e

/-! ## Going on -/

/-- Within a clause, an instruction that is not the last moves the clause on and counts itself. -/
theorem retire_inside {d : Dev} {r : ThreadRef} {t : Thread} {q : Clause} (ht : d.thread r = some t) (hq : t.clause = some q)
    {len : Nat} (hl : len < q.words.length) :
    d.retire r len = (d.count r 2 1).onThread r fun t =>
      { t with wait := .none, clause := some { q with words := q.words.drop len, pc := q.pc + BitVec.ofNat 64 (4 * len) } } := by
  simp [Dev.retire, ht, hq, Nat.not_le.mpr hl]

/-- The last instruction of a clause ends it: its lanes go on at the next block. -/
theorem retire_last {d : Dev} {r : ThreadRef} {t : Thread} {q : Clause} (ht : d.thread r = some t) (hq : t.clause = some q)
    {len : Nat} (hl : q.words.length ≤ len) : d.retire r len = (d.count r 2 1).endClause r [⟨q.mask, q.next, false⟩] := by
  simp [Dev.retire, ht, hq, hl]

/-- A party that has no clause in progress does not go on. -/
theorem retire_none {d : Dev} {r : ThreadRef} (h : (d.thread r).bind (fun t => t.clause) = none) (len : Nat) : d.retire r len = d := by
  simp [Dev.retire, h]

/-- An event of the agenda never stops the machine. -/
theorem orPass_next (o : Out) (s : State) : ∃ t, orPass o s = .next t := by
  unfold orPass
  split
  · exact ⟨_, rfl⟩
  · exact ⟨_, rfl⟩

end Sys2Proof.Machine
end

