-- ==== Sys2Proof/Laws/PerInstr.lean ====
section
/-! SUPPORT. For every instruction that is not an event: its encoding begins with a word whose opcode is assigned, and has as
many words as that opcode's instructions (R252, R260, R261). -/

namespace Sys2Proof.Laws.Opcode

/-- The first word's opcode is assigned and gives the encoding's length. -/
def Statement (i : Instr) : Prop :=
  i.isEvent = false → ∃ w ws, encode i = w :: ws ∧ opcodeAssigned (fld 24 8 w) = true ∧ opcodeLength (fld 24 8 w) = ws.length + 1

/-- An encoding of one word with this opcode. -/
theorem one {i : Instr} {op : BitVec 8} {r : List ((n : Nat) × BitVec n)} (he : encode i = [word (⟨8, op⟩ :: r)])
    (h : (r.map fun x => x.1).sum = 24) (ha : opcodeAssigned op = true) (hl : opcodeLength op = 1) : Statement i := fun _ =>
  ⟨_, _, he, by rw [fld_word_opcode _ _ h, ha], by rw [fld_word_opcode _ _ h, hl]; rfl⟩

/-- An encoding with this opcode and further words. -/
theorem more {i : Instr} {op : BitVec 8} {r : List ((n : Nat) × BitVec n)} {ws : List Word}
    (he : encode i = word (⟨8, op⟩ :: r) :: ws) (h : (r.map fun x => x.1).sum = 24) (ha : opcodeAssigned op = true)
    (hl : opcodeLength op = ws.length + 1) : Statement i := fun _ =>
  ⟨_, _, he, by rw [fld_word_opcode _ _ h, ha], by rw [fld_word_opcode _ _ h, hl]⟩

theorem iadd (d a b : BitVec 7) (g : BitVec 3) : Statement (.iadd d a b g) := one rfl rfl rfl rfl
theorem isub (d a b : BitVec 7) (g : BitVec 3) : Statement (.isub d a b g) := one rfl rfl rfl rfl
theorem imul (d a b : BitVec 7) (g : BitVec 3) : Statement (.imul d a b g) := one rfl rfl rfl rfl
theorem imulhi (d a b : BitVec 7) (g : BitVec 3) : Statement (.imulhi d a b g) := one rfl rfl rfl rfl
theorem imad (d a b : BitVec 7) (g : BitVec 3) (c : BitVec 7) (rnd : BitVec 3) : Statement (.imad d a b g c rnd) := more rfl rfl rfl rfl
theorem imin (d a b : BitVec 7) (g : BitVec 3) : Statement (.imin d a b g) := one rfl rfl rfl rfl
theorem imax (d a b : BitVec 7) (g : BitVec 3) : Statement (.imax d a b g) := one rfl rfl rfl rfl
theorem iabs (d a : BitVec 7) (g : Guard) : Statement (.iabs d a g) := one rfl rfl rfl rfl
theorem ineg (d a : BitVec 7) (g : Guard) : Statement (.ineg d a g) := one rfl rfl rfl rfl
theorem and (d a b : BitVec 7) (g : BitVec 3) : Statement (.and d a b g) := one rfl rfl rfl rfl
theorem or (d a b : BitVec 7) (g : BitVec 3) : Statement (.or d a b g) := one rfl rfl rfl rfl
theorem xor (d a b : BitVec 7) (g : BitVec 3) : Statement (.xor d a b g) := one rfl rfl rfl rfl
theorem not (d a : BitVec 7) (g : Guard) : Statement (.not d a g) := one rfl rfl rfl rfl
theorem shl (d a b : BitVec 7) (g : BitVec 3) : Statement (.shl d a b g) := one rfl rfl rfl rfl
theorem shr (d a b : BitVec 7) (g : BitVec 3) : Statement (.shr d a b g) := one rfl rfl rfl rfl
theorem sar (d a b : BitVec 7) (g : BitVec 3) : Statement (.sar d a b g) := one rfl rfl rfl rfl
theorem rot (d a b : BitVec 7) (g : BitVec 3) : Statement (.rot d a b g) := one rfl rfl rfl rfl
theorem bfe (d a b : BitVec 7) (g : BitVec 3) : Statement (.bfe d a b g) := one rfl rfl rfl rfl
theorem bfi (d a b c : BitVec 7) (rnd : BitVec 3) : Statement (.bfi d a b c rnd) := more rfl rfl rfl rfl
theorem popc (d a : BitVec 7) (g : Guard) : Statement (.popc d a g) := one rfl rfl rfl rfl
theorem clz (d a : BitVec 7) (g : Guard) : Statement (.clz d a g) := one rfl rfl rfl rfl
theorem brev (d a : BitVec 7) (g : Guard) : Statement (.brev d a g) := one rfl rfl rfl rfl
theorem iset (pd : BitVec 3) (a b : BitVec 7) (cond : BitVec 3) (g : Guard) : Statement (.iset pd a b cond g) := one rfl rfl rfl rfl
theorem sel (d a b : BitVec 7) (p : BitVec 3) : Statement (.sel d a b p) := one rfl rfl rfl rfl
theorem mov (d a : BitVec 7) (mode : BitVec 2) (g : Guard) : Statement (.mov d a mode g) := one rfl rfl rfl rfl
theorem movi (d : BitVec 7) (imm : BitVec 16) : Statement (.movi d imm) := one rfl rfl rfl rfl
theorem moviHi (d : BitVec 7) (imm : BitVec 16) : Statement (.moviHi d imm) := one rfl rfl rfl rfl
theorem movs (d : BitVec 7) (num : BitVec 8) (u : BitVec 1) (g : Guard) : Statement (.movs d num u g) := one rfl rfl rfl rfl
theorem blend (d a b : BitVec 7) (g : BitVec 3) (c : BitVec 7) (rnd : BitVec 3) (opx opy : BitVec 2) (na nb nc : BitVec 1) : Statement (.blend d a b g c rnd opx opy na nb nc) := more rfl rfl rfl rfl
theorem idivStep (d a b : BitVec 7) (g : BitVec 3) : Statement (.idivStep d a b g) := one rfl rfl rfl rfl
theorem imulw (d a b : BitVec 7) (g rnd : BitVec 3) : Statement (.imulw d a b g rnd) := more rfl rfl rfl rfl
theorem xadd (d a : BitVec 4) (i : BitVec 1) (b : BitVec 11) (g : Guard) : Statement (.xadd d a i b g) := one rfl rfl rfl rfl
theorem xsub (d a : BitVec 4) (i : BitVec 1) (b : BitVec 11) (g : Guard) : Statement (.xsub d a i b g) := one rfl rfl rfl rfl
theorem xmul (d a : BitVec 4) (i : BitVec 1) (b : BitVec 11) (g : Guard) : Statement (.xmul d a i b g) := one rfl rfl rfl rfl
theorem xshl (d a : BitVec 4) (i : BitVec 1) (b : BitVec 11) (g : Guard) : Statement (.xshl d a i b g) := one rfl rfl rfl rfl
theorem xshr (d a : BitVec 4) (i : BitVec 1) (b : BitVec 11) (g : Guard) : Statement (.xshr d a i b g) := one rfl rfl rfl rfl
theorem xmin (d a : BitVec 4) (i : BitVec 1) (b : BitVec 11) (g : Guard) : Statement (.xmin d a i b g) := one rfl rfl rfl rfl
theorem xmax (d a : BitVec 4) (i : BitVec 1) (b : BitVec 11) (g : Guard) : Statement (.xmax d a i b g) := one rfl rfl rfl rfl
theorem xand (d a : BitVec 4) (i : BitVec 1) (b : BitVec 11) (g : Guard) : Statement (.xand d a i b g) := one rfl rfl rfl rfl
theorem xmov (d a g : BitVec 4) : Statement (.xmov d a g) := one rfl rfl rfl rfl
theorem xset (d : BitVec 4) (a : BitVec 7) (k : BitVec 4) (m : BitVec 1) (p : BitVec 3) (g : Guard) : Statement (.xset d a k m p g) := one rfl rfl rfl rfl
theorem xfrom (d : BitVec 4) (a : BitVec 7) (t : BitVec 3) (g : Guard) : Statement (.xfrom d a t g) := one rfl rfl rfl rfl
theorem xrd (d : BitVec 7) (a : BitVec 4) (h : BitVec 1) (g : Guard) : Statement (.xrd d a h g) := one rfl rfl rfl rfl
theorem xwiden (d k g : BitVec 4) : Statement (.xwiden d k g) := one rfl rfl rfl rfl
theorem xld (x : BitVec 4) (a : BitVec 7) (imm : BitVec 8) (f : BitVec 1) (g : Guard) : Statement (.xld x a imm f g) := one rfl rfl rfl rfl
theorem xst (x : BitVec 4) (a : BitVec 7) (imm : BitVec 8) (f : BitVec 1) (g : Guard) : Statement (.xst x a imm f g) := one rfl rfl rfl rfl
theorem xclamp (d : BitVec 4) (a : BitVec 7) (k g : BitVec 4) : Statement (.xclamp d a k g) := one rfl rfl rfl rfl
theorem fadd (d a b : BitVec 7) (g rnd : BitVec 3) (sat ftz : BitVec 1) : Statement (.fadd d a b g rnd sat ftz) := more rfl rfl rfl rfl
theorem fsub (d a b : BitVec 7) (g rnd : BitVec 3) (sat ftz : BitVec 1) : Statement (.fsub d a b g rnd sat ftz) := more rfl rfl rfl rfl
theorem fmul (d a b : BitVec 7) (g rnd : BitVec 3) (sat ftz : BitVec 1) : Statement (.fmul d a b g rnd sat ftz) := more rfl rfl rfl rfl
theorem ffma (d a b : BitVec 7) (g : BitVec 3) (c : BitVec 7) (rnd : BitVec 3) (sat ftz : BitVec 1) : Statement (.ffma d a b g c rnd sat ftz) := more rfl rfl rfl rfl
theorem fmin (d a b : BitVec 7) (g : BitVec 3) : Statement (.fmin d a b g) := one rfl rfl rfl rfl
theorem fmax (d a b : BitVec 7) (g : BitVec 3) : Statement (.fmax d a b g) := one rfl rfl rfl rfl
theorem fabs (d a : BitVec 7) (g : Guard) : Statement (.fabs d a g) := one rfl rfl rfl rfl
theorem fneg (d a : BitVec 7) (g : Guard) : Statement (.fneg d a g) := one rfl rfl rfl rfl
theorem fabsH2 (d a : BitVec 7) (g : Guard) : Statement (.fabsH2 d a g) := one rfl rfl rfl rfl
theorem fnegH2 (d a : BitVec 7) (g : Guard) : Statement (.fnegH2 d a g) := one rfl rfl rfl rfl
theorem fset (pd : BitVec 3) (a b : BitVec 7) (cond : BitVec 3) (g : Guard) : Statement (.fset pd a b cond g) := one rfl rfl rfl rfl
theorem fclass (d a : BitVec 7) (op : BitVec 2) (g : Guard) : Statement (.fclass d a op g) := one rfl rfl rfl rfl
theorem hadd2 (d a b : BitVec 7) (g rnd : BitVec 3) (sat ftz : BitVec 1) (sfmt : BitVec 4) : Statement (.hadd2 d a b g rnd sat ftz sfmt) := more rfl rfl rfl rfl
theorem hmul2 (d a b : BitVec 7) (g rnd : BitVec 3) (sat ftz : BitVec 1) (sfmt : BitVec 4) : Statement (.hmul2 d a b g rnd sat ftz sfmt) := more rfl rfl rfl rfl
theorem hfma2 (d a b : BitVec 7) (g : BitVec 3) (c : BitVec 7) (rnd : BitVec 3) (sat ftz : BitVec 1) (sfmt : BitVec 4) : Statement (.hfma2 d a b g c rnd sat ftz sfmt) := more rfl rfl rfl rfl
theorem fdot2 (d a b : BitVec 7) (g : BitVec 3) (c : BitVec 7) (rnd : BitVec 3) (sat ftz : BitVec 1) (sfmt : BitVec 4) : Statement (.fdot2 d a b g c rnd sat ftz sfmt) := more rfl rfl rfl rfl
theorem ex2 (d a : BitVec 7) (rnd : BitVec 3) (ftz : BitVec 1) (g : Guard) : Statement (.ex2 d a rnd ftz g) := one rfl rfl rfl rfl
theorem lg2 (d a : BitVec 7) (rnd : BitVec 3) (ftz : BitVec 1) (g : Guard) : Statement (.lg2 d a rnd ftz g) := one rfl rfl rfl rfl
theorem rcp (d a : BitVec 7) (rnd : BitVec 3) (ftz : BitVec 1) (g : Guard) : Statement (.rcp d a rnd ftz g) := one rfl rfl rfl rfl
theorem rsq (d a : BitVec 7) (rnd : BitVec 3) (ftz : BitVec 1) (g : Guard) : Statement (.rsq d a rnd ftz g) := one rfl rfl rfl rfl
theorem sqrt (d a : BitVec 7) (rnd : BitVec 3) (ftz : BitVec 1) (g : Guard) : Statement (.sqrt d a rnd ftz g) := one rfl rfl rfl rfl
theorem sin (d a : BitVec 7) (rnd : BitVec 3) (ftz : BitVec 1) (g : Guard) : Statement (.sin d a rnd ftz g) := one rfl rfl rfl rfl
theorem cos (d a : BitVec 7) (rnd : BitVec 3) (ftz : BitVec 1) (g : Guard) : Statement (.cos d a rnd ftz g) := one rfl rfl rfl rfl
theorem tanh (d a : BitVec 7) (rnd : BitVec 3) (ftz : BitVec 1) (g : Guard) : Statement (.tanh d a rnd ftz g) := one rfl rfl rfl rfl
theorem erf (d a : BitVec 7) (rnd : BitVec 3) (ftz : BitVec 1) (g : Guard) : Statement (.erf d a rnd ftz g) := one rfl rfl rfl rfl
theorem cvt (d a : BitVec 7) (sc : BitVec 1) (g : Guard) (rnd : BitVec 3) (sat ftz : BitVec 1) (dfmt sfmt : BitVec 4) (scale : BitVec 7) : Statement (.cvt d a sc g rnd sat ftz dfmt sfmt scale) := more rfl rfl rfl rfl
theorem pack (d a : BitVec 7) (sc : BitVec 1) (g : Guard) (rnd : BitVec 3) (sat ftz : BitVec 1) (dfmt sfmt : BitVec 4) (scale : BitVec 7) : Statement (.pack d a sc g rnd sat ftz dfmt sfmt scale) := more rfl rfl rfl rfl
theorem unpack (d a : BitVec 7) (sc : BitVec 1) (g : Guard) (rnd : BitVec 3) (sat ftz : BitVec 1) (dfmt sfmt : BitVec 4) (scale : BitVec 7) : Statement (.unpack d a sc g rnd sat ftz dfmt sfmt scale) := more rfl rfl rfl rfl
theorem amax (d a : BitVec 7) (fmt : BitVec 2) (w : BitVec 1) (g : Guard) : Statement (.amax d a fmt w g) := one rfl rfl rfl rfl
theorem seed (a : BitVec 7) (u : BitVec 1) (g : Guard) : Statement (.seed a u g) := one rfl rfl rfl rfl
theorem cvt8 (d a b : BitVec 7) (rnd : BitVec 3) (sat ftz : BitVec 1) (dfmt : BitVec 4) : Statement (.cvt8 d a b rnd sat ftz dfmt) := more rfl rfl rfl rfl
theorem shfl (d a : BitVec 7) (mode : BitVec 2) (i : BitVec 1) (b : BitVec 7) : Statement (.shfl d a mode i b) := one rfl rfl rfl rfl
theorem voteAll (ps : BitVec 3) (n : BitVec 1) (pd : BitVec 3) (g : Guard) : Statement (.voteAll ps n pd g) := one rfl rfl rfl rfl
theorem voteAny (ps : BitVec 3) (n : BitVec 1) (pd : BitVec 3) (g : Guard) : Statement (.voteAny ps n pd g) := one rfl rfl rfl rfl
theorem voteBallot (d : BitVec 7) (ps : BitVec 3) (n : BitVec 1) (g : Guard) : Statement (.voteBallot d ps n g) := one rfl rfl rfl rfl
theorem matchAny (d a : BitVec 7) (pd : BitVec 3) (g : Guard) : Statement (.matchAny d a pd g) := one rfl rfl rfl rfl
theorem matchAll (d a : BitVec 7) (pd : BitVec 3) (g : Guard) : Statement (.matchAll d a pd g) := one rfl rfl rfl rfl
theorem redg (d a : BitVec 7) (op g : BitVec 4) : Statement (.redg d a op g) := one rfl rfl rfl rfl
theorem scang (d a : BitVec 7) (op : BitVec 4) (x k : BitVec 1) (g : Guard) : Statement (.scang d a op x k g) := one rfl rfl rfl rfl
theorem ldfrag (d a : BitVec 7) (f : BitVec 1) (g : Guard) : Statement (.ldfrag d a f g) := one rfl rfl rfl rfl
theorem ldfragTB8 (d a : BitVec 7) (f : BitVec 1) (g : Guard) : Statement (.ldfragTB8 d a f g) := one rfl rfl rfl rfl
theorem ldfragTB16 (d a : BitVec 7) (f : BitVec 1) (g : Guard) : Statement (.ldfragTB16 d a f g) := one rfl rfl rfl rfl
theorem shfli (d a : BitVec 7) (lane : BitVec 5) : Statement (.shfli d a lane) := one rfl rfl rfl rfl
theorem permb (d a b : BitVec 7) : Statement (.permb d a b) := one rfl rfl rfl rfl
theorem ldg (d : BitVec 7) (a : BitVec 6) (ty : BitVec 3) (prv : BitVec 1) (ev : BitVec 2) (f : BitVec 1) (g : Guard) : Statement (.ldg d a ty prv ev f g) := one rfl rfl rfl rfl
theorem stg (d : BitVec 7) (a : BitVec 6) (ty : BitVec 3) (prv : BitVec 1) (ev : BitVec 2) (f : BitVec 1) (g : Guard) : Statement (.stg d a ty prv ev f g) := one rfl rfl rfl rfl
theorem lda (d : BitVec 7) (arr x c : BitVec 4) (f : BitVec 1) (g : Guard) : Statement (.lda d arr x c f g) := one rfl rfl rfl rfl
theorem sta (d : BitVec 7) (arr x c : BitVec 4) (f : BitVec 1) (g : Guard) : Statement (.sta d arr x c f g) := one rfl rfl rfl rfl
theorem lds (d a : BitVec 7) (ty : BitVec 3) (f : BitVec 1) (g : Guard) : Statement (.lds d a ty f g) := one rfl rfl rfl rfl
theorem sts (d a : BitVec 7) (ty : BitVec 3) (f : BitVec 1) (g : Guard) : Statement (.sts d a ty f g) := one rfl rfl rfl rfl
theorem prf (a : BitVec 6) (nc : BitVec 1) (ev : BitVec 2) (f : BitVec 1) (g : Guard) : Statement (.prf a nc ev f g) := one rfl rfl rfl rfl
theorem arm (pd : BitVec 3) (arr : BitVec 4) (f : BitVec 1) (g : Guard) : Statement (.arm pd arr f g) := one rfl rfl rfl rfl
theorem disarm (arr : BitVec 4) (f : BitVec 1) (g : Guard) : Statement (.disarm arr f g) := one rfl rfl rfl rfl
theorem ald (arr k : BitVec 4) (f : BitVec 1) (g : Guard) : Statement (.ald arr k f g) := one rfl rfl rfl rfl
theorem atom (d : BitVec 7) (a : BitVec 6) (op : BitVec 4) (ord : BitVec 2) (f : BitVec 1) (g : Guard) (c : BitVec 7) (dfmt sfmt : BitVec 4) (scale : BitVec 7) : Statement (.atom d a op ord f g c dfmt sfmt scale) := more rfl rfl rfl rfl
theorem callm (d : BitVec 7) (a : BitVec 6) (pd : BitVec 3) (ord : BitVec 2) (f : BitVec 1) (g : Guard) (c : BitVec 7) (sfmt : BitVec 4) (scale : BitVec 7) : Statement (.callm d a pd ord f g c sfmt scale) := more rfl rfl rfl rfl
theorem bind (pd : BitVec 3) (o b : BitVec 4) (n : BitVec 5) (f : BitVec 1) (g : Guard) : Statement (.bind pd o b n f g) := one rfl rfl rfl rfl
theorem unbind (pd : BitVec 3) (b : BitVec 4) (f : BitVec 1) (g : Guard) : Statement (.unbind pd b f g) := one rfl rfl rfl rfl
theorem acq (d : BitVec 7) (a : BitVec 6) (scope : BitVec 3) (f : BitVec 1) (g : Guard) : Statement (.acq d a scope f g) := one rfl rfl rfl rfl
theorem acqAll (scope : BitVec 3) (f : BitVec 1) (g : Guard) : Statement (.acqAll scope f g) := one rfl rfl rfl rfl
theorem rel (d : BitVec 7) (a : BitVec 6) (scope : BitVec 3) (f : BitVec 1) (g : Guard) : Statement (.rel d a scope f g) := one rfl rfl rfl rfl
theorem relAll (scope : BitVec 3) (f : BitVec 1) (g : Guard) : Statement (.relAll scope f g) := one rfl rfl rfl rfl
theorem fence (scope : BitVec 3) (f : BitVec 1) (g : Guard) : Statement (.fence scope f g) := one rfl rfl rfl rfl
theorem qfence (msg copy mat f : BitVec 1) (g : Guard) : Statement (.qfence msg copy mat f g) := one rfl rfl rfl rfl
theorem bra (offset : BitVec 24) : Statement (.bra offset) := one rfl rfl rfl rfl
theorem brp (n : BitVec 1) (p : BitVec 3) (offset : BitVec 20) : Statement (.brp n p offset) := one rfl rfl rfl rfl
theorem xbr (x : BitVec 4) (c u : BitVec 1) (k : BitVec 8) (offset : BitVec 10) : Statement (.xbr x c u k offset) := one rfl rfl rfl rfl
theorem jmpt (a x : BitVec 4) (c : BitVec 8) : Statement (.jmpt a x c) := one rfl rfl rfl rfl
theorem call (d : BitVec 7) (target : BitVec 16) : Statement (.call d target) := one rfl rfl rfl rfl
theorem callIndirect (d a : BitVec 7) : Statement (.callIndirect d a) := one rfl rfl rfl rfl
theorem ret (a : BitVec 7) : Statement (.ret a) := one rfl rfl rfl rfl
theorem exit (g : Guard) : Statement (.exit g) := one rfl rfl rfl rfl
theorem yield : Statement (.yield) := one rfl rfl rfl rfl
theorem nop : Statement (.nop) := one rfl rfl rfl rfl
theorem brx (a : BitVec 7) (offset : BitVec 16) : Statement (.brx a offset) := one rfl rfl rfl rfl
theorem barInit (b : BitVec 4) (e h : BitVec 5) (g : Guard) : Statement (.barInit b e h g) := one rfl rfl rfl rfl
theorem barArr (b g : BitVec 4) : Statement (.barArr b g) := one rfl rfl rfl rfl
theorem barWait (b : BitVec 4) (u : BitVec 1) (v : BitVec 5) (g : Guard) : Statement (.barWait b u v g) := one rfl rfl rfl rfl
theorem barSync (b g : BitVec 4) : Statement (.barSync b g) := one rfl rfl rfl rfl
theorem barsInit (scope n : BitVec 3) (v : BitVec 5) (g : Guard) : Statement (.barsInit scope n v g) := one rfl rfl rfl rfl
theorem barsArr (scope n : BitVec 3) (g : Guard) : Statement (.barsArr scope n g) := one rfl rfl rfl rfl
theorem barsWait (scope n : BitVec 3) (u : BitVec 1) (v : BitVec 5) (g : Guard) : Statement (.barsWait scope n u v g) := one rfl rfl rfl rfl
theorem barsSync (scope n : BitVec 3) (g : Guard) : Statement (.barsSync scope n g) := one rfl rfl rfl rfl
theorem fork (e : BitVec 1) (offset : BitVec 20) : Statement (.fork e offset) := one rfl rfl rfl rfl
theorem rndv (e : BitVec 1) : Statement (.rndv e) := one rfl rfl rfl rfl
theorem batonTake : Statement (.batonTake) := one rfl rfl rfl rfl
theorem batonPass (u : BitVec 1) (w : BitVec 5) : Statement (.batonPass u w) := one rfl rfl rfl rfl
theorem batonPassNone : Statement (.batonPassNone) := one rfl rfl rfl rfl
theorem quiet (d : BitVec 7) (t : BitVec 5) (f : BitVec 1) (g : Guard) : Statement (.quiet d t f g) := one rfl rfl rfl rfl
theorem signal (h : BitVec 4) (scope : BitVec 3) (rel : BitVec 1) (g : Guard) : Statement (.signal h scope rel g) := one rfl rfl rfl rfl
theorem mldb (w : BitVec 3) (fmt : BitVec 4) (sc : BitVec 5) (src bm : BitVec 3) (sp sparse : BitVec 1) (sh : Shape) : Statement (.mldb w fmt sc src bm sp sparse sh) := more rfl rfl rfl rfl
theorem mzero (m : BitVec 3) (isInt : BitVec 1) : Statement (.mzero m isInt) := one rfl rfl rfl rfl
theorem mma (m w : BitVec 3) (a sa : BitVec 7) (g : Guard) (sh : Shape) : Statement (.mma m w a sa g sh) := more rfl rfl rfl rfl
theorem mmaStr (m w : BitVec 3) (sh : Shape) : Statement (.mmaStr m w sh) := more rfl rfl rfl rfl
theorem mrd (m : BitVec 3) (dfmt : BitVec 4) (rnd : BitVec 3) (sat ftz : BitVec 1) (d : BitVec 7) (f : BitVec 1) (g : Guard) (sh : Shape) : Statement (.mrd m dfmt rnd sat ftz d f g sh) := more rfl rfl rfl rfl
theorem msig (b : BitVec 4) : Statement (.msig b) := one rfl rfl rfl rfl
theorem mseqEnd (e : BitVec 1) (b : BitVec 4) : Statement (.mseqEnd e b) := one rfl rfl rfl rfl
theorem mamax (m : BitVec 3) (d : BitVec 7) (f : BitVec 1) (g : Guard) (sh : Shape) : Statement (.mamax m d f g sh) := more rfl rfl rfl rfl
theorem dcopy (dk sk : BitVec 3) (dsp ssp : BitVec 2) (st : BitVec 5) (sg : BitVec 1) (h : BitVec 3) (f : BitVec 1) (g : Guard) (sh : Shape) : Statement (.dcopy dk sk dsp ssp st sg h f g sh) := more rfl rfl rfl rfl
theorem dcopyCk (dk sk : BitVec 3) (dsp ssp : BitVec 2) (st : BitVec 5) (sg : BitVec 1) (h : BitVec 3) (f : BitVec 1) (g : Guard) (sh : Shape) : Statement (.dcopyCk dk sk dsp ssp st sg h f g sh) := more rfl rfl rfl rfl
theorem dfill (dk sk : BitVec 3) (dsp ssp : BitVec 2) (st : BitVec 5) (sg : BitVec 1) (h : BitVec 3) (f : BitVec 1) (g : Guard) (sh : Shape) : Statement (.dfill dk sk dsp ssp st sg h f g sh) := more rfl rfl rfl rfl
theorem dgather (k : BitVec 3) (arr : BitVec 4) (sp : BitVec 2) (st : BitVec 5) (sg : BitVec 1) (h : BitVec 3) (f : BitVec 1) (g : Guard) (sh : Shape) : Statement (.dgather k arr sp st sg h f g sh) := more rfl rfl rfl rfl
theorem dscat (k : BitVec 3) (arr : BitVec 4) (sp : BitVec 2) (st : BitVec 5) (sg : BitVec 1) (h : BitVec 3) (f : BitVec 1) (g : Guard) (sh : Shape) : Statement (.dscat k arr sp st sg h f g sh) := more rfl rfl rfl rfl
theorem dlease (d sz du : BitVec 5) (pd : BitVec 3) (f : BitVec 1) (g : Guard) : Statement (.dlease d sz du pd f g) := one rfl rfl rfl rfl
theorem dleaseRenew (d du : BitVec 5) (pd : BitVec 3) (f : BitVec 1) (g : Guard) : Statement (.dleaseRenew d du pd f g) := one rfl rfl rfl rfl
theorem dunlease (h : BitVec 5) (f : BitVec 1) (g : Guard) : Statement (.dunlease h f g) := one rfl rfl rfl rfl
theorem dsig (b : BitVec 4) (arr sg : BitVec 1) (h : BitVec 3) (f : BitVec 1) (g : Guard) : Statement (.dsig b arr sg h f g) := one rfl rfl rfl rfl
theorem dreloc (k : BitVec 3) (st : BitVec 5) (f : BitVec 1) (g : Guard) : Statement (.dreloc k st f g) := one rfl rfl rfl rfl
theorem spawn (pd : BitVec 3) (a : BitVec 6) (f : BitVec 1) (g : Guard) : Statement (.spawn pd a f g) := one rfl rfl rfl rfl
theorem spawnAt (pd : BitVec 3) (a t : BitVec 6) (f : BitVec 1) (g : Guard) : Statement (.spawnAt pd a t f g) := one rfl rfl rfl rfl
theorem done : Statement (.done) := one rfl rfl rfl rfl
theorem alloc : Statement (.alloc) := one rfl rfl rfl rfl
theorem free : Statement (.free) := one rfl rfl rfl rfl
theorem csrr (d : BitVec 7) (csr : BitVec 12) (g : Guard) : Statement (.csrr d csr g) := one rfl rfl rfl rfl
theorem csrw (a : BitVec 7) (csr : BitVec 12) (g : Guard) : Statement (.csrw a csr g) := one rfl rfl rfl rfl
theorem trap (cause : BitVec 8) (code : BitVec 12) (g : Guard) : Statement (.trap cause code g) := one rfl rfl rfl rfl
theorem eret : Statement (.eret) := one rfl rfl rfl rfl
theorem tmask : Statement (.tmask) := one rfl rfl rfl rfl
theorem tunmask : Statement (.tunmask) := one rfl rfl rfl rfl
theorem l1inv : Statement (.l1inv) := one rfl rfl rfl rfl
theorem tlbiRange (k : BitVec 3) (c n : BitVec 5) (g : Guard) : Statement (.tlbiRange k c n g) := one rfl rfl rfl rfl
theorem tlbiCtx (c : BitVec 5) (g : Guard) : Statement (.tlbiCtx c g) := one rfl rfl rfl rfl
theorem tlbiPkg (g : Guard) : Statement (.tlbiPkg g) := one rfl rfl rfl rfl
theorem clock (d : BitVec 7) (g : Guard) : Statement (.clock d g) := one rfl rfl rfl rfl
theorem clockNs (d : BitVec 7) (g : Guard) : Statement (.clockNs d g) := one rfl rfl rfl rfl
theorem perf (d : BitVec 7) (n : BitVec 3) (g : Guard) : Statement (.perf d n g) := one rfl rfl rfl rfl
theorem halt : Statement (.halt) := one rfl rfl rfl rfl
theorem clauseIssue (core : CoreRef) (slot : Nat) : Statement (.clauseIssue core slot) := fun h => by cases h
theorem frontierWaitLimit (core : CoreRef) (slot : Nat) : Statement (.frontierWaitLimit core slot) := fun h => by cases h
theorem loopLimit (core : CoreRef) (slot : Nat) : Statement (.loopLimit core slot) := fun h => by cases h
theorem translationDone (t : ThreadRef) : Statement (.translationDone t) := fun h => by cases h
theorem loadDataReturn (op piece : Nat) (how : Arrive) : Statement (.loadDataReturn op piece how) := fun h => by cases h
theorem storeAck (op piece : Nat) : Statement (.storeAck op piece) := fun h => by cases h
theorem atomicReply (op : Nat) (how : Arrive) : Statement (.atomicReply op how) := fun h => by cases h
theorem allocGrant (core : CoreRef) : Statement (.allocGrant core) := fun h => by cases h
theorem dispatch (die : Nat) : Statement (.dispatch die) := fun h => by cases h
theorem groupComplete (gid : Nat) : Statement (.groupComplete gid) := fun h => by cases h
theorem successorEntry (die : Nat) : Statement (.successorEntry die) := fun h => by cases h
theorem descriptorRead (slot : Nat) : Statement (.descriptorRead slot) := fun h => by cases h
theorem spillReturn (die : Nat) : Statement (.spillReturn die) := fun h => by cases h
theorem copyCommandRun (core : CoreRef) (entry : Nat) (count : Option Nat) : Statement (.copyCommandRun core entry count) := fun h => by cases h
theorem copyRecordComplete (core : CoreRef) (entry : Nat) : Statement (.copyRecordComplete core entry) := fun h => by cases h
theorem matrixEntryRun (core : CoreRef) (rows : Option Nat) : Statement (.matrixEntryRun core rows) := fun h => by cases h
theorem waveForm (core : CoreRef) : Statement (.waveForm core) := fun h => by cases h
theorem waveComplete (core : CoreRef) (slot : Nat) : Statement (.waveComplete core slot) := fun h => by cases h
theorem waveTimeLimit (core : CoreRef) (slot : Nat) : Statement (.waveTimeLimit core slot) := fun h => by cases h
theorem methodRequest (index : Nat) : Statement (.methodRequest index) := fun h => by cases h
theorem methodCall (m : Msg) : Statement (.methodCall m) := fun h => by cases h
theorem methodReply (m : Option Msg) (index : Nat) : Statement (.methodReply m index) := fun h => by cases h
theorem remoteStore (m : Msg) : Statement (.remoteStore m) := fun h => by cases h
theorem remoteAtomic (m : Msg) : Statement (.remoteAtomic m) := fun h => by cases h
theorem remoteSpawn (m : Msg) : Statement (.remoteSpawn m) := fun h => by cases h
theorem remoteSignal (m : Msg) : Statement (.remoteSignal m) := fun h => by cases h
theorem remotePodInit (m : Msg) : Statement (.remotePodInit m) := fun h => by cases h
theorem copyBeat (m : Msg) : Statement (.copyBeat m) := fun h => by cases h
theorem remoteLoad (m : Msg) : Statement (.remoteLoad m) := fun h => by cases h
theorem ackResponse (m : Msg) : Statement (.ackResponse m) := fun h => by cases h
theorem refusedResponse (m : Msg) : Statement (.refusedResponse m) := fun h => by cases h
theorem retryResponse (m : Msg) : Statement (.retryResponse m) := fun h => by cases h
theorem heldResponse (m : Msg) : Statement (.heldResponse m) := fun h => by cases h
theorem consumedResponse (m : Msg) : Statement (.consumedResponse m) := fun h => by cases h
theorem abandonedResponse (m : Msg) : Statement (.abandonedResponse m) := fun h => by cases h
theorem phaseNotice (m : Msg) : Statement (.phaseNotice m) := fun h => by cases h
theorem lossNotice (m : Msg) : Statement (.lossNotice m) := fun h => by cases h
theorem probe (m : Msg) : Statement (.probe m) := fun h => by cases h
theorem report (m : Msg) : Statement (.report m) := fun h => by cases h
theorem traversePeriodic : Statement (.traversePeriodic) := fun h => by cases h
theorem traversePassTimeout (ctx job : Nat) : Statement (.traversePassTimeout ctx job) := fun h => by cases h
theorem quietTimeout (t : ThreadRef) : Statement (.quietTimeout t) := fun h => by cases h
theorem messageResend (die index : Nat) : Statement (.messageResend die index) := fun h => by cases h
theorem messageDoubt (die index : Nat) : Statement (.messageDoubt die index) := fun h => by cases h
theorem lossNoticeResend (die index : Nat) : Statement (.lossNoticeResend die index) := fun h => by cases h
theorem retryResend (index : Nat) : Statement (.retryResend index) := fun h => by cases h
theorem phaseNoticeResend (index : Nat) : Statement (.phaseNoticeResend index) := fun h => by cases h
theorem leaseExpiry (die lease : Nat) : Statement (.leaseExpiry die lease) := fun h => by cases h
theorem footprintFlush (core : CoreRef) (index : Nat) : Statement (.footprintFlush core index) := fun h => by cases h
theorem slotDeadline (slot : Nat) : Statement (.slotDeadline slot) := fun h => by cases h
theorem overrun (slot : Nat) : Statement (.overrun slot) := fun h => by cases h
theorem drainTimeout (slot : Nat) : Statement (.drainTimeout slot) := fun h => by cases h
theorem saveTimeout (slot : Nat) : Statement (.saveTimeout slot) := fun h => by cases h
theorem drainComplete (slot : Nat) : Statement (.drainComplete slot) := fun h => by cases h
theorem saveComplete (gang : Nat) : Statement (.saveComplete gang) := fun h => by cases h
theorem restore (index : Nat) : Statement (.restore index) := fun h => by cases h
theorem thermalMigration (die : Nat) : Statement (.thermalMigration die) := fun h => by cases h
theorem activityPeriod (die activity : Nat) : Statement (.activityPeriod die activity) := fun h => by cases h
theorem scrubRead (lpa : Nat) : Statement (.scrubRead lpa) := fun h => by cases h
theorem migrationComplete (die : Nat) : Statement (.migrationComplete die) := fun h => by cases h
theorem uncorrectableError (site : ErrorSite) : Statement (.uncorrectableError site) := fun h => by cases h
theorem gangKill (gang : Nat) : Statement (.gangKill gang) := fun h => by cases h
theorem auditReplay (index : Nat) (core : CoreRef) : Statement (.auditReplay index core) := fun h => by cases h
theorem powerOn : Statement (.powerOn) := fun h => by cases h
theorem powerCap : Statement (.powerCap) := fun h => by cases h
theorem dieThrottle (die : Nat) : Statement (.dieThrottle die) := fun h => by cases h
theorem emergencyStop : Statement (.emergencyStop) := fun h => by cases h
theorem emergencyStopComplete : Statement (.emergencyStopComplete) := fun h => by cases h
theorem memoryThermalState (stack : Nat) : Statement (.memoryThermalState stack) := fun h => by cases h
theorem hostApertureAccess (aperture offset : Nat) (access : HostAccess) : Statement (.hostApertureAccess aperture offset access) := fun h => by cases h
theorem qnotify : Statement (.qnotify) := fun h => by cases h
theorem qctlMap : Statement (.qctlMap) := fun h => by cases h
theorem qctlUnmap : Statement (.qctlUnmap) := fun h => by cases h
theorem lsectlRevoke : Statement (.lsectlRevoke) := fun h => by cases h
theorem poisoncmdSet : Statement (.poisoncmdSet) := fun h => by cases h
theorem poisoncmdClear : Statement (.poisoncmdClear) := fun h => by cases h
theorem migcmdMigrate4k : Statement (.migcmdMigrate4k) := fun h => by cases h
theorem migcmdMigrate2m : Statement (.migcmdMigrate2m) := fun h => by cases h
theorem migcmdRemoveRedirect : Statement (.migcmdRemoveRedirect) := fun h => by cases h
theorem fabjstatLossyClear : Statement (.fabjstatLossyClear) := fun h => by cases h
theorem precmdDrain : Statement (.precmdDrain) := fun h => by cases h
theorem precmdSave : Statement (.precmdSave) := fun h => by cases h
theorem precmdReset : Statement (.precmdReset) := fun h => by cases h
theorem precmdRestore : Statement (.precmdRestore) := fun h => by cases h
theorem precmdRelease : Statement (.precmdRelease) := fun h => by cases h
theorem precmdEndDrain : Statement (.precmdEndDrain) := fun h => by cases h
theorem bootcmdWarmStart : Statement (.bootcmdWarmStart) := fun h => by cases h
theorem bootcmdColdStart : Statement (.bootcmdColdStart) := fun h => by cases h
theorem bootcmdShutdown : Statement (.bootcmdShutdown) := fun h => by cases h
theorem fusecmdRaise : Statement (.fusecmdRaise) := fun h => by cases h
theorem fusecmdRevoke : Statement (.fusecmdRevoke) := fun h => by cases h
theorem loadcmdStart : Statement (.loadcmdStart) := fun h => by cases h
theorem pkgcfgWrite : Statement (.pkgcfgWrite) := fun h => by cases h
theorem registerWrite : Statement (.registerWrite) := fun h => by cases h
theorem powerOff : Statement (.powerOff) := fun h => by cases h
theorem workingPortChange (port : Nat) (up : Bool) : Statement (.workingPortChange port up) := fun h => by cases h
theorem powerStateNormal (die : Option Nat) : Statement (.powerStateNormal die) := fun h => by cases h
theorem memoryThermalStateExit (stack : Nat) : Statement (.memoryThermalStateExit stack) := fun h => by cases h
theorem contextResetComplete (ctx : Nat) : Statement (.contextResetComplete ctx) := fun h => by cases h
theorem backgroundSweepComplete (ctx : Nat) : Statement (.backgroundSweepComplete ctx) := fun h => by cases h
theorem correctedSoftError (code : Nat) : Statement (.correctedSoftError code) := fun h => by cases h
theorem svctailWrite : Statement (.svctailWrite) := fun h => by cases h
theorem sequencerIssue (core : CoreRef) (copy : Bool) : Statement (.sequencerIssue core copy) := fun h => by cases h
theorem signalBaseDieTransfer (index : Nat) : Statement (.signalBaseDieTransfer index) := fun h => by cases h
theorem spawnBaseDieTransfer (index : Nat) : Statement (.spawnBaseDieTransfer index) := fun h => by cases h

end Sys2Proof.Laws.Opcode
end

