-- ==== Sys2Proof/Tests/Slice0.lean ====
section
/-! SUPPORT. Tests: what well-formedness refuses, words written out from the encodings, single steps with results worked out
from the spec, and for every statement with hypotheses a state and operands that meet them. -/

namespace Sys2Proof.Tests

set_option Elab.async false

open Sys2Proof Sys2Proof.Machine

/-! ## A small machine -/

/-- A page of 2 MiB at virtual address 0 of context 0, that may be written and fetched, at LPA 0x200000. -/
def page : TlbEntry := ⟨0, 0x200000, ⟨0x200000, 0, 0, true, true, false, 512, 0, 0⟩, 0, true, []⟩

/-- A device with one warp that has the given words as its clause in progress, lanes 0 and 2 active, its thread, group and core
changed. -/
def dev (ws : List Word) (f : Thread → Thread) (h : Group → Group) (k : Core → Core) : Dev :=
  let g := probeGroup 0 ws
  { Dev.reset with
    groups := [h { g with warps := g.warps.map fun t => f { t with clause := t.clause.map fun c => { c with mask := 5 } } }], gangs := [⟨0, 1, 0, 0, [0], [], [], 0, [], none⟩], nextId := 1,
    cores := [k { Core.reset ⟨0, false, 0⟩ with tlb := [page] }], issuer := some (.warp 0 0) }

/-- The warp of that device, and its core. -/
def w0 : ThreadRef := .warp 0 0
def c0 : CoreRef := ⟨0, false, 0⟩

/-- The state with a device. -/
def st (d : Dev) : State := { State.reset with dev := d }

/-- The warp with nothing changed. -/
def plain (ws : List Word) : State := st (dev ws id id id)

/-- A device whose context table marks context 0 a supervisor's. -/
def sup (d : Dev) : Dev := { d with regs := (.ctxbase, 0x80000) :: d.regs, mem := [(0x80007, 0xC0)] }

/-! ## Witnesses: register instructions -/

theorem witness_IntegerThreeRegister : ∃ s r t d a b, Issues s r t ∧ Allotted s r [d, a, b] :=
  ⟨plain [], w0, _, 1, 2, 111, ⟨rfl, rfl⟩, rfl⟩
theorem witness_IntegerFormulas : ∃ s r t d a b c, Issues s r t ∧ Allotted s r [d, a, b, c] :=
  ⟨plain [], w0, _, 1, 2, 111, 127, ⟨rfl, rfl⟩, rfl⟩
theorem witness_PairArithmetic : ∃ (s : State) (r : ThreadRef) (t : Thread) (d a b : BitVec 7), Issues s r t ∧
    Allotted s r [d, d + 1, a, b] ∧ Allotted s r [d, d + 1, a, a + 1, b] :=
  ⟨plain [], w0, _, 110, 2, 111, ⟨rfl, rfl⟩, rfl, rfl⟩
theorem witness_CompareSelectMove : ∃ s r t d a b, Issues s r t ∧ Allotted s r [a, b] ∧ Allotted s r [d, a, b] ∧
    Allotted s r [d, a] ∧ Allotted s r [d] ∧ Allotted s r [a] :=
  ⟨plain [], w0, _, 1, 2, 111, ⟨rfl, rfl⟩, rfl, rfl, rfl, rfl, rfl⟩
theorem witness_SpecialRegisters : ∃ (s : State) (t : Thread) (gr : Group) (d : BitVec 7) (num : BitVec 8),
    Issues s (.warp 0 0) t ∧ s.dev.group 0 = some gr ∧ num.toNat < 12 ∧ Allotted s (.warp 0 0) [d] :=
  ⟨plain [], _, _, 5, 11, ⟨rfl, rfl⟩, rfl, by decide, rfl⟩
theorem witness_IndexArithmetic_register : ∃ (s : State) (r : ThreadRef) (t : Thread) (d a : BitVec 4) (b : BitVec 11), Issues s r t ∧
    Allotted s r ([xField d, xField a] ++ if (0 : BitVec 1) = 1 then [] else [xField (b.extractLsb' 0 4)]) :=
  ⟨plain [], w0, _, 1, 2, 15, ⟨rfl, rfl⟩, rfl⟩
theorem witness_IndexArithmetic_immediate : ∃ (s : State) (r : ThreadRef) (t : Thread) (d a : BitVec 4), Issues s r t ∧
    Allotted s r ([xField d, xField a] ++ if (1 : BitVec 1) = 1 then [] else [xField ((1023 : BitVec 11).extractLsb' 0 4)]) :=
  ⟨plain [], w0, _, 1, 2, ⟨rfl, rfl⟩, rfl⟩

/-- The lanes that XSET of g3 in s0, s1 fails. -/
def outOfSet (t : Thread) : Word :=
  maskOf fun n => (t.taking 7).getLsbD n && !(decide ((t.sreg 0).toInt ≤ ((t.lane n).get 3).toInt) &&
    decide (((t.lane n).get 3).toInt ≤ (t.sreg 1).toInt))
theorem witness_IndexMoves_holds : ∃ (s : State) (r : ThreadRef) (t : Thread) (d a : BitVec 4), Issues s r t ∧
    Allotted s r [xField d, xField a, 3] ∧ (4 : BitVec 3).toNat < 5 ∧ outOfSet t = 0 :=
  ⟨plain [], w0, _, 1, 2, ⟨rfl, rfl⟩, rfl, by decide, by decide +kernel⟩
theorem witness_IndexMoves_fails : ∃ (s : State) (r : ThreadRef) (t : Thread) (d a : BitVec 4), Issues s r t ∧
    Allotted s r [xField d, xField a, 3] ∧ (0 : BitVec 3).toNat < 5 ∧ outOfSet t ≠ 0 :=
  ⟨st (dev [] (fun t => t.setS 0 1) id id), w0, _, 1, 2, ⟨rfl, rfl⟩, rfl, by decide, by decide +kernel⟩
theorem witness_IntervalsAreSound : ∃ (x y : Word) (i j : Ivl), ivlHas i x = true ∧ ivlHas j y = true ∧ ivlTop.lo ≤ i.lo ∧
    i.hi ≤ ivlTop.hi ∧ ivlTop.lo ≤ j.lo ∧ j.hi ≤ ivlTop.hi :=
  ⟨0xFFFFFFFF, 0x7FFFFFFF, ⟨-1, 5⟩, ivlTop, by decide, by decide, by decide, by decide, by decide, by decide⟩
theorem witness_FloatArithmetic : ∃ s r t d a b c, Issues s r t ∧ Allotted s r [d, a, b, c] :=
  ⟨plain [], w0, _, 1, 2, 111, 127, ⟨rfl, rfl⟩, rfl⟩
theorem witness_FloatComparison : ∃ s r t d a b, Issues s r t ∧ Allotted s r [d, a, b] :=
  ⟨plain [], w0, _, 1, 2, 111, ⟨rfl, rfl⟩, rfl⟩
theorem witness_FloatComparison_nan : ∃ a b c : Word, 0x7F800000 < a.toNat % 2 ^ 31 ∧ b.toNat % 2 ^ 31 = 0x7F800000 ∧ c.toNat % 2 ^ 31 = 0 :=
  ⟨0x7F800001, 0xFF800000, 0x80000000, by decide⟩
theorem witness_FloatComparison_infinite : ∃ a b c : Word, a.toNat % 2 ^ 31 = 0x7F800000 ∧ b.toNat % 2 ^ 31 = 0x7F800000 ∧
    c.toNat % 2 ^ 31 = 0x7F800000 ∧ (a.msb != b.msb) ≠ c.msb := ⟨0x7F800000, 0x7F800000, 0xFF800000, by decide⟩
theorem witness_FloatArithmetic_halves : ∃ (s : State) (r : ThreadRef) (t : Thread) (d a b c : BitVec 7) (f : BitVec 4), Issues s r t ∧
    Allotted s r [d, a, b, c] ∧ (f = 9 ∨ f = 10) := ⟨plain [], w0, _, 1, 2, 3, 4, 9, ⟨rfl, rfl⟩, rfl, .inl rfl⟩
theorem witness_SpecialFunctions : ∃ s r t d a, Issues s r t ∧ Allotted s r [d, a] := ⟨plain [], w0, _, 1, 2, ⟨rfl, rfl⟩, rfl⟩
theorem witness_Conversions : ∃ (s : State) (r : ThreadRef) (t : Thread) (d a b scale : BitVec 7) (dfmt sfmt : BitVec 4), Issues s r t ∧
    Allotted s r (cvtRegs d dfmt ++ cvtRegs a sfmt ++ [scale]) ∧ Allotted s r [d, a, b] ∧
    Allotted s r ([d] ++ regRun a (packCount dfmt) ++ [scale]) ∧ Allotted s r (regRun d (packCount sfmt) ++ [a] ++ [scale]) ∧
    Allotted s r [d, a] ∧ Allotted s r [a, a + 1] :=
  ⟨plain [], w0, _, 110, 2, 3, 4, 3, 9, ⟨rfl, rfl⟩, rfl, rfl, rfl, rfl, rfl, rfl⟩
theorem witness_CrossLane : ∃ s r t d a b, Issues s r t ∧ Allotted s r ([d, a] ++ [b]) := ⟨plain [], w0, _, 1, 2, 3, ⟨rfl, rfl⟩, rfl⟩
theorem witness_RegisterFrame : ∃ (s s' : State) (t : Thread) (gr : Group), Issues s (.warp 0 0) t ∧ s.dev.group 0 = some gr ∧
    Allotted s (.warp 0 0) ([5, 6] ++ [5, 2, 3, 4, xField 1, xField 2] ++ [xField 3]) ∧ Allotted s (.warp 0 0) [2 + 1] ∧
    (∀ q, t.clause = some q → q.mask ≠ 0) ∧ exec (.idivStep 5 2 3 7) s = .next s' := by
  refine ⟨plain [], _, _, _, ⟨rfl, rfl⟩, rfl, rfl, rfl, fun q h => ?_, rfl⟩
  cases h
  decide
/-- XSET in its `.trap` mode, of g3 in s0 to s1, both 0; and a draw of the generator. -/
theorem witness_RegisterFrame_xset : ∃ (s s1 s2 : State) (t : Thread), Issues s w0 t ∧
    (∀ n, (t.taking 7).getLsbD n = true →
      (t.sreg (2 * (0 : BitVec 4).toNat)).toInt ≤ ((t.lane n).get 3).toInt ∧
      ((t.lane n).get 3).toInt ≤ (t.sreg (2 * (0 : BitVec 4).toNat + 1)).toInt) ∧
    exec (.xset 1 3 0 1 7 7) s = .next s1 ∧ exec (.seed 2 0 7) s = .next s2 := by
  have fits : let t := ((dev [] id id id).thread w0).getD (newWarp [] 0 0 0)
      ∀ n < 32, (t.sreg 0).toInt ≤ ((t.lane n).get 3).toInt ∧ ((t.lane n).get 3).toInt ≤ (t.sreg 1).toInt := by decide +kernel
  refine ⟨plain [], _, _, _, ⟨rfl, rfl⟩, fun n h => fits n ?_, rfl, rfl⟩
  rcases Nat.lt_or_ge n 32 with hn | hn
  · exact hn
  · rw [BitVec.getLsbD_of_ge _ _ hn] at h
    cases h

/-! ## Witnesses: control and exceptions -/

theorem witness_ControlTransfers : ∃ s r t q d a, Issues s r t ∧ t.clause = some q ∧ Allotted s r [d, d + 1, a, a + 1] :=
  ⟨plain [], w0, _, _, 4, 110, ⟨rfl, rfl⟩, rfl, rfl⟩
theorem witness_ControlTransfers_index : ∃ (s : State) (r : ThreadRef) (t : Thread) (q : Clause) (x : BitVec 4), Issues s r t ∧
    t.clause = some q ∧ Allotted s r [112 + x.setWidth 7] := ⟨plain [], w0, _, _, 15, ⟨rfl, rfl⟩, rfl, rfl⟩
theorem witness_FrontierInsertion : ∃ f : List Entry, f.length = 2 ∧ f.Pairwise fun x y => x.before y = true ∧ x.pc ≠ y.pc :=
  ⟨[⟨0x2000, 9, 1, 0, 0x2000⟩, ⟨0x1000, 8, 2, 5, 0x1000⟩], rfl, by decide⟩
theorem witness_ProgressRule_starved : ∃ e rest n q, chooseEntry (e :: rest) n = some q ∧ ∃ x ∈ e :: rest, 992 ≤ x.wait :=
  ⟨⟨0x2000, 9, 1, 0, 0x2000⟩, [⟨0x1000, 8, 2, 992, 0x1000⟩], 64, _, rfl, by decide⟩
theorem witness_ProgressRule_loop : ∃ (e e2 : Entry) (q : Choice), chooseEntry [e, e2] 64 = some q ∧ ∀ x ∈ [e, e2], x.wait < 992 :=
  ⟨⟨0x2000, 9, 1, 0, 0x2000⟩, ⟨0x1000, 8, 2, 991, 0x1000⟩, _, rfl, by decide⟩
theorem witness_ProgressRule_first : ∃ (e e2 : Entry) (q : Choice), chooseEntry [e, e2] 63 = some q ∧ (∀ x ∈ [e, e2], x.wait < 992) ∧
    (63 ≠ 64 ∨ [e2] = []) := ⟨⟨0x2000, 9, 1, 0, 0x2000⟩, ⟨0x1000, 8, 2, 991, 0x1000⟩, _, rfl, by decide, .inl (by decide)⟩
theorem witness_TransferEffect : ∃ (s : State) (t : Thread) (gr : Group) (q : Clause) (ms : List Move),
    s.dev.thread (.warp 0 0) = some t ∧ s.dev.group 0 = some gr ∧ t.clause = some q ∧ ∃ m ∈ ms, m.mask ≠ 0 :=
  ⟨plain [], _, _, _, [⟨0, 0, true⟩, ⟨1, 0x2000, true⟩], rfl, rfl, rfl, _, .tail _ (.head _), by decide⟩

/-- A record's bytes with 64 private bytes a lane. -/
def privRec : List Byte :=
  List.replicate 40 0 ++ natBytes (field 43 14 + field 41 3 + field 36 24 + field 23 4) 8 ++ List.replicate 16 0
/-- A group with that record, its private space at 0x1000. -/
def withPriv (g : Group) : Group := { g with record := { g.record with bytes := privRec }, privBase := 0x1000 }

/-- What translations answer when all of them pass. -/
theorem eq_inl {α β γ : Type} {x : (List α ⊕ β) × γ} (h : x.1.isLeft = true) : x = (.inl (x.1.getLeft?.getD []), x.2) := by
  obtain ⟨a | b, c⟩ := x
  · rfl
  · cases h

/-- The warp and its group, with a handler and a frame that fits. -/
def framed : Dev :=
  dev [] (fun t =>
    { t with tvec := 0x2000, handlers := [⟨[⟨0x3000, 1, 2, 0, 0x3000⟩], ⟨0x1000, 1, 1, 0, 0x1000⟩⟩] }) withPriv id
def framedGroup : Group := (framed.group 0).getD (probeGroup 0 [])
def framedWarp : Thread := framedGroup.warps.headD (newWarp [] 0 0 0)

/-- What the statement asks of the device, the warp and the group of a trap that enters its handler. -/
abbrev Enters (base : Dev) (t : Thread) (gr : Group) (q : Clause) (tgs : List (Nat × Target × TlbEntry)) (d1 : Dev) : Prop :=
  let chunks := [0, 16, 32, 48].map fun o => gr.privBase + 0 * 32 * gr.priv + (t.tframe.toNat + o) / 16 * 512 + lowest q.mask * 16 +
    (t.tframe.toNat + o) % 16
  base.thread w0 = some t ∧ base.group 0 = some gr ∧ t.clause = some q ∧ t.masked = false ∧ t.tvec ≠ 0 ∧
    t.tframe.toNat + 64 ≤ gr.priv ∧ t.tframe.toNat % 16 = 0 ∧ base.endReplay.needsOf w0 chunks = [] ∧
    base.endReplay.translateAll gr.core (mkTag gr.ctx gr.epoch) true chunks = (.inl tgs, d1) ∧ ∀ x ∈ tgs, d1.placeWaits x.2.1 16 = false
theorem witness_TrapEntry : ∃ (t : Thread) (gr : Group) (q : Clause) (tgs : List (Nat × Target × TlbEntry)) (d1 : Dev),
    Enters framed t gr q tgs d1 :=
  ⟨framedWarp, framedGroup, _, _, _, rfl, rfl, rfl, rfl, by decide +kernel, by decide +kernel, by decide +kernel, by decide +kernel,
    eq_inl (by decide +kernel), by decide +kernel⟩
/-- The same warp with the loss bit set, and as LOST leaves it. -/
def lossy : Dev := framed.onThread w0 fun t => { t with loss := true }
theorem witness_TrapEntry_lost : ∃ (t0 t : Thread) (gr : Group) (q : Clause) (tgs : List (Nat × Target × TlbEntry)) (d1 : Dev),
    lossy.thread w0 = some t0 ∧ t0.clause = some q ∧ t0.loss = true ∧ lossy.group 0 = some gr ∧
    ∃ gr', Enters (lossy.onThread w0 fun t => { t with loss := false, pend := false }) t gr' q tgs d1 ∧ gr'.core = gr.core :=
  ⟨_, framedWarp, _, _, _, _, rfl, rfl, rfl, rfl, framedGroup, ⟨rfl, rfl, rfl, rfl, by decide +kernel, by decide +kernel, by decide +kernel,
    by decide +kernel, eq_inl (by decide +kernel), by decide +kernel⟩, rfl⟩
/-- The warp whose copy sequencer's program has left a fault. -/
def faulted : Dev := framed.onThread w0 fun t => { t with seqFaults := [(true, ⟨0x5000, 0x5000, 1, 0, 4, 3, 9, 0, 0⟩)] }
theorem witness_TrapEntry_rndv : ∃ (t0 t : Thread) (gr : Group) (q : Clause) (tgs : List (Nat × Target × TlbEntry)) (d1 : Dev)
    (x : Bool × TrapFrame), faulted.thread w0 = some t0 ∧ t0.clause = some q ∧ faulted.issuer = some w0 ∧
    (((faulted.core c0).seq true).any fun p => p.gid = 0 && p.forker = 0) = false ∧ faulted.orphans c0 true w0 = false ∧
    t0.seqFaults.find? (fun x => x.1 = true) = some x ∧
    Enters (faulted.onThread w0 fun t => { t with seqFaults := t.seqFaults.filter fun y => y ≠ x }) t gr q tgs d1 :=
  ⟨_, framedWarp, framedGroup, _, _, _, _, rfl, rfl, rfl, rfl, by decide +kernel, rfl, rfl, rfl, rfl, rfl, by decide +kernel,
    by decide +kernel, by decide +kernel, by decide +kernel, eq_inl (by decide +kernel), by decide +kernel⟩
/-- Translations of which one fails. -/
theorem eq_inr {α β γ : Type} {x : (List α ⊕ β) × γ} (b : β) (h : x.1.isRight = true) : x = (.inr (x.1.getRight?.getD b), x.2) := by
  obtain ⟨a | b, c⟩ := x
  · cases h
  · rfl
/-- The warp whose frame lies in a page that may not be written. -/
def unwritable : Dev := framed.onCore c0 fun k => { k with tlb := [{ page with leaf := { page.leaf with w := false } }] }
theorem witness_TrapDelivery_unwritable : ∃ (t : Thread) (gr : Group) (q : Clause) (d : Dev), unwritable.thread w0 = some t ∧
    unwritable.group 0 = some gr ∧ t.clause = some q ∧ t.masked = false ∧ t.tvec ≠ 0 ∧ t.tframe.toNat + 64 ≤ gr.priv ∧
    t.tframe.toNat % 16 = 0 ∧ unwritable.endReplay.needsOf w0 (frameChunks gr t (lowest q.mask)) = [] ∧ d.thread w0 = some t ∧
    d.group 0 = some gr ∧
    ∃ x, unwritable.endReplay.translateAll gr.core (mkTag gr.ctx gr.epoch) true (frameChunks gr t (lowest q.mask)) = (.inr x, d) :=
  ⟨framedWarp, framedGroup, _, _, rfl, rfl, rfl, rfl, by decide +kernel, by decide +kernel, by decide +kernel, by decide +kernel,
    by decide +kernel, by decide +kernel, _, eq_inr (0, .poison) (by decide +kernel)⟩
theorem witness_TrapDelivery : ∃ (s : State) (t : Thread) (gr : Group) (q : Clause), s.dev.thread (.warp 0 0) = some t ∧
    s.dev.group 0 = some gr ∧ t.clause = some q ∧ t.masked = false ∧ t.tvec ≠ 0 ∧ gr.priv < t.tframe.toNat + 64 :=
  ⟨st (dev [] (fun t => { t with tvec := 0x2000 }) id id), _, _, _, rfl, rfl, rfl, rfl, by decide +kernel, by decide +kernel⟩
theorem witness_AllotmentTrap : ∃ (s : State) (t : Thread) (gr : Group), Issues s (.warp 0 0) t ∧ s.dev.group 0 = some gr ∧
    gr.state = .tail ∧ ([3, 7, 112] : List (BitVec 7)).find? (fun x => if x.toNat < 112 then decide (8 ≤ x.toNat) else
      decide (0 ≤ x.toNat - 112)) = some 112 :=
  ⟨st (dev [] id (fun g => { g with state := .tail }) id), _, _, ⟨rfl, rfl⟩, rfl, rfl, by decide⟩
theorem witness_AllotmentTrap_prologue : ∃ (s : State) (t : Thread) (gr : Group), Issues s (.warp 0 0) t ∧ s.dev.group 0 = some gr ∧
    gr.state = .prologue ∧ ([15, 16, 115] : List (BitVec 7)).find? (fun x => if x.toNat < 112 then decide (16 ≤ x.toNat) else
      decide (4 ≤ x.toNat - 112)) = some 16 :=
  ⟨st (dev [] id (fun g => { g with state := .prologue }) id), _, _, ⟨rfl, rfl⟩, rfl, rfl, by decide⟩

/-! ## Witnesses: system instructions -/

theorem witness_ControlRegisters : ∃ (s : State) (t : Thread) (gr : Group) (d a : BitVec 7) (g : Guard), Issues s (.warp 0 0) t ∧
    s.dev.group 0 = some gr ∧ Allotted s (.warp 0 0) [d, a] ∧ t.taking g ≠ 0 ∧ s.dev.isSuper (.warp 0 0) = true ∧
    Allotted s (.warp 0 0) [d + 1] :=
  ⟨st (sup (dev [] id id id)), _, _, 110, 2, 7, ⟨rfl, rfl⟩, rfl, rfl, by decide +kernel, by decide +kernel, rfl⟩
theorem witness_ControlRegisters_budget : ∃ (s : State) (t : Thread) (gr : Group) (x : Slot), Issues s (.warp 0 0) t ∧
    s.dev.group 0 = some gr ∧ gr.record.slot = some 7 ∧ s.dev.slots.find? (fun y => y.q = 7) = some x ∧ t.taking 7 ≠ 0 :=
  ⟨st { dev [] id (fun g => { g with record := { g.record with slot := some 7 } }) id with slots := [Slot.reset 7] }, _, _, _,
    ⟨rfl, rfl⟩, rfl, rfl, rfl, by decide +kernel⟩
theorem witness_SystemInstructions : ∃ s r t d, Issues s r t ∧ Allotted s r [d, d + 1] ∧ s.dev.isSuper r = true ∧ t.taking 7 ≠ 0 ∧
    t.taking 15 = 0 :=
  ⟨st (sup (dev [] id id id)), w0, _, 110, ⟨rfl, rfl⟩, rfl, by decide +kernel, by decide +kernel, by decide +kernel⟩
theorem witness_TranslationShootdown : ∃ s r t, Issues s r t ∧ s.dev.isSuper r = true ∧ t.taking 7 ≠ 0 ∧
    s.dev.pinsBusy (fun _ => true) = false :=
  ⟨st (sup (dev [] id id id)), w0, _, ⟨rfl, rfl⟩, by decide +kernel, by decide +kernel, by decide +kernel⟩
theorem witness_PrivilegeTrap : ∃ (s : State) (t : Thread) (gr : Group) (d : BitVec 7), Issues s (.warp 0 0) t ∧ s.dev.group 0 = some gr ∧
    s.dev.isSuper (.warp 0 0) = false ∧ Allotted s (.warp 0 0) [d] ∧ t.taking 7 ≠ 0 ∧ FlagFree t 0 ∧ 0x800 ≤ (0x800 : BitVec 12).toNat ∧
    0x40 ≤ (0x40 : BitVec 8).toNat ∧ 4 ≤ (4 : BitVec 3).toNat ∧ Allotted s (.warp 0 0) [d + 1] :=
  ⟨plain [], _, _, 110, ⟨rfl, rfl⟩, rfl, by decide +kernel, rfl, by decide +kernel, rfl, by decide, by decide, by decide, rfl⟩
theorem witness_ReturnFromTrap : ∃ (s : State) (t : Thread) (gr : Group) (q : Clause) (h : Handled) (hs : List Handled)
    (tgs : List (Nat × Target × TlbEntry)) (d1 d2 : Dev) (b : List Byte), Issues s (.warp 0 0) t ∧ s.dev.group 0 = some gr ∧
    t.clause = some q ∧ t.handlers = h :: hs ∧ t.tframe.toNat + 64 ≤ gr.priv ∧ t.tframe.toNat % 16 = 0 ∧
    s.dev.translateAll gr.core (mkTag gr.ctx gr.epoch) false (frameChunks gr t (lowest q.mask)) = (.inl tgs, d1) ∧
    d1.readChunks gr.core (mkTag gr.ctx gr.epoch) tgs = (b, d2) ∧ (d2.count (.warp 0 0) 2 1).thread (.warp 0 0) = some t ∧
    h.suspended.foldl (fun f x => insertEntry x f) t.frontier ≠ [] ∧ h.entry.mask &&& q.mask ≠ 0 :=
  ⟨st framed, framedWarp, framedGroup, _, _, _, _, _, _, _, ⟨rfl, rfl⟩, rfl, rfl, rfl, by decide +kernel, by decide +kernel,
    eq_inl (by decide +kernel), rfl, by decide +kernel, by decide +kernel, by decide +kernel⟩
/-- The warp at ERET with its frame's page in no TLB, and one whose walk for it is done. -/
theorem witness_ReturnFromTrap_stalls : ∃ (t : Thread) (gr : Group) (q : Clause) (h : Handled) (hs : List Handled),
    let d := framed.onCore c0 fun k => { k with tlb := [] }
    Issues (st d) w0 t ∧ d.group 0 = some gr ∧ t.clause = some q ∧ t.handlers = h :: hs ∧ t.tframe.toNat + 64 ≤ gr.priv ∧
    t.tframe.toNat % 16 = 0 ∧ d.needsOf w0 (frameChunks gr t (lowest q.mask)) ≠ [] ∧
    framed.needsOf w0 (frameChunks gr t (lowest q.mask)) = [] :=
  ⟨framedWarp, framedGroup, _, _, _, ⟨rfl, rfl⟩, rfl, rfl, rfl, by decide +kernel, by decide +kernel, by decide +kernel, by decide +kernel⟩
theorem witness_Allotment_free : ∃ (s : State) (t : Thread) (gr : Group), Issues s (.warp 0 0) t ∧ s.dev.group 0 = some gr ∧
    gr.state = .full ∧ (∀ w ∈ gr.warps, w.wid ≠ 0 → w.freed = true ∨ w.ended = true) ∧
    (gr.warps.filter fun w => w.wid = 0).length = 1 ∧
    (s.dev.onThread (.warp 0 0) fun t => { t with freed := true }).dropsPending gr = false :=
  ⟨plain [], _, _, ⟨rfl, rfl⟩, rfl, rfl, by decide +kernel, rfl, by decide +kernel⟩
theorem witness_Allotment_grant : ∃ (s : State) (c : CoreRef) (w : Group) (ws : List Group), s.dev.waiting c = w :: ws ∧
    (needOf w.record.bytes).1 ≤ (s.dev.freePools c).1 ∧ (needOf w.record.bytes).2.1 ≤ (s.dev.freePools c).2.1 ∧
    (needOf w.record.bytes).2.2 ≤ (s.dev.freePools c).2.2 :=
  ⟨st (dev [] id (fun g => { g with state := .waiting, units := 1 }) id), c0, _, _, rfl, by decide +kernel, by decide +kernel,
    by decide +kernel⟩

/-- A supervisor's warp whose core pins page 0 for an array of another warp with a load from it under way. -/
def pinBusy : Dev :=
  let d := sup (dev [] id id fun c => { c with pins := [⟨page, [(0, 1, 3)]⟩] })
  { d with ops := [{ d.opFor w0 (.load 4 false) .load none 1 with pins := [0], pieces := [Piece.new 0 (.mem ⟨none, 0x200000⟩ page.leaf 0) 4] }] }
theorem witness_TranslationShootdown_busy : ∃ (s : State) (t : Thread), Issues s w0 t ∧ s.dev.isSuper w0 = true ∧ t.taking 7 ≠ 0 ∧
    s.dev.pinsBusy (fun _ => true) = true ∧ s.dev.pinsBusy (fun e => tagCtx e.tag == 0) = true ∧
    s.dev.pinsBusy (fun e => decide (0 < 4096 * 1 + e.va)) = true :=
  ⟨st pinBusy, _, ⟨rfl, rfl⟩, by decide +kernel, by decide +kernel, by decide +kernel, by decide +kernel, by decide +kernel⟩
theorem witness_TranslationShootdown_idle : ∃ (s : State) (t : Thread), Issues s w0 t ∧ t.taking 15 = 0 :=
  ⟨plain [], _, ⟨rfl, rfl⟩, by decide +kernel⟩

/-! ## Witnesses: memory instructions -/

theorem witness_GlobalAndPrivateAccess_issue : ∃ (s : State) (r : ThreadRef) (t : Thread), Issues s r t ∧ FlagFree t 0 ∧
    Allotted s r (operandRegs 110 (typeSize 4) ++ globalRegs 55 0 ++ [112 + (15 : BitVec 4).setWidth 7, 3]) ∧ t.unack < 1023 :=
  ⟨st (dev [] (fun t => { t with unack := 1022 }) id id), w0, _, ⟨rfl, rfl⟩, rfl, rfl, by decide +kernel⟩

/-- A warp at an instruction whose one walk, of page 0, has a place at its die's walker. -/
def stalled (i : Instr) (f : Thread → Thread) (h : Group → Group) : Dev :=
  (dev (encode i) (fun t => f { t with wait := .translation 0 [0] }) h id).onDie 0 fun k => { k with walks := [⟨0, .page 0, [.thread w0], true⟩] }
/-- That state once the stall is over. -/
def freed (i : Instr) (f : Thread → Thread) (h : Group → Group) : Dev := (stalled i f h).translated w0 0
/-- The thread of that state. -/
def stalledWarp (i : Instr) (f : Thread → Thread) (h : Group → Group) : Thread :=
  (((stalled i f h).group 0).getD (probeGroup 0 [])).warps.headD (newWarp [] 0 0 0)

/-- Nothing is left to be read for a party. -/
theorem goes {d : Dev} {r : ThreadRef} {vas : List Nat} (h : (match d.gateOf r vas with | .go _ => true | _ => false) = true) :
    d.gateOf r vas = .go (d.passed r vas) := by
  unfold Dev.passed
  split at h
  · rename_i x hx
    rw [hx]
  · cases h
/-- The walker goes on, and the party waits. -/
theorem waits {x : Gate} (h : (match x with | .wait _ => true | _ => false) = true) : ∃ d, x = .wait d := by
  cases x
  · cases h
  · exact ⟨_, rfl⟩
  · cases h
/-- What the statements ask of a warp whose translations are done. -/
abbrev Translated (d : Dev) (t : Thread) (i : Instr) (n : Nat) : Prop := Stalled (st d) w0 t 0 i n

/-- A warp whose walk of page 7 has a place, while that of page 9 waits for one of the 64: a prefetch under way has the others. -/
def halfWalked : Dev :=
  let d := (stalled (.ldg 2 0 2 0 0 0 7) id id).onDie 0 fun k =>
    { k with walks := ⟨0, .page 7, [.thread w0], true⟩ :: ⟨0, .page 9, [.thread w0], false⟩ ::
        (upFrom 100 63).map fun n => ⟨0, .page n, [.piece 5 0], true⟩ }
  { d with ops := [{ d.opFor w0 (.prefetch false) .prefetch none 1 with id := 5, pieces := [Piece.new 0 (.virt 0x64000) 1] }] }
theorem witness_GlobalAndPrivateAccess_walking : ∃ (d d1 : Dev) (t : Thread), d.thread w0 = some t ∧ t.wait = .translation 0 [0] ∧
    t.head = some (.ok (.ldg 2 0 2 0 0 0 7) 1) ∧ d.gateOf w0 [0] = .wait d1 :=
  have ⟨d1, h⟩ := waits (x := halfWalked.gateOf w0 [0]) (by decide +kernel)
  ⟨halfWalked, d1, stalledWarp (.ldg 2 0 2 0 0 0 7) id id, rfl, rfl, by decide +kernel, h⟩

theorem witness_GlobalAndPrivateAccess_ldg : ∃ (s : State) (t : Thread) (ts : List (LaneAccess × Target)) (d1 : Dev),
    Translated s.dev t (.ldg 2 0 2 0 0 0 7) 1 ∧
    (freed (.ldg 2 0 2 0 0 0 7) id id).checkLanes w0 false false
      ((freed (.ldg 2 0 2 0 0 0 7) id id).globalLanes w0 t 0 2 0 7) = (.inl ts, d1) ∧
    s.dev = stalled (.ldg 2 0 2 0 0 0 7) id id :=
  ⟨st (stalled (.ldg 2 0 2 0 0 0 7) id id), stalledWarp (.ldg 2 0 2 0 0 0 7) id id, _, _,
    ⟨rfl, rfl, by decide +kernel, goes (by decide +kernel), by decide +kernel⟩, eq_inl (by decide +kernel), rfl⟩
theorem witness_GlobalAndPrivateAccess_stg : ∃ (t : Thread) (ts : List (LaneAccess × Target)) (d1 : Dev),
    Translated (stalled (.stg 2 0 2 1 0 0 7) id withPriv) t (.stg 2 0 2 1 0 0 7) 1 ∧
    (freed (.stg 2 0 2 1 0 0 7) id withPriv).checkLanes w0 true false
      ((freed (.stg 2 0 2 1 0 0 7) id withPriv).globalLanes w0 t 0 2 1 7) = (.inl ts, d1) ∧
    d1.mayLaunch { d1.opFor w0 .store .store (t.flagOf 0) (t.taking 7) with
      hint := hintOf 0, counted := true
      pieces := ts.flatMap fun y => storePieces y.1.lane y.2 ((t.lane y.1.lane).bytes 2 (typeSize 2)) } = true :=
  ⟨stalledWarp (.stg 2 0 2 1 0 0 7) id withPriv, _, _, ⟨rfl, rfl, by decide +kernel, goes (by decide +kernel), by decide +kernel⟩,
    eq_inl (by decide +kernel), by decide +kernel⟩
theorem witness_GlobalAndPrivateAccess_xld : ∃ (t : Thread) (ts : List (LaneAccess × Target)) (d1 : Dev),
    Translated (stalled (.xld 15 3 3 0 7) id withPriv) t (.xld 15 3 3 0 7) 1 ∧
    (freed (.xld 15 3 3 0 7) id withPriv).checkLanes w0 false false
      ((freed (.xld 15 3 3 0 7) id withPriv).xLanes w0 t 3 3 7) = (.inl ts, d1) :=
  ⟨stalledWarp (.xld 15 3 3 0 7) id withPriv, _, _, ⟨rfl, rfl, by decide +kernel, goes (by decide +kernel), by decide +kernel⟩,
    eq_inl (by decide +kernel)⟩
theorem witness_GlobalAndPrivateAccess_xst : ∃ (t : Thread) (ts : List (LaneAccess × Target)) (d1 : Dev),
    Translated (stalled (.xst 15 3 0 0 7) id withPriv) t (.xst 15 3 0 0 7) 1 ∧
    (freed (.xst 15 3 0 0 7) id withPriv).checkLanes w0 true false
      ((freed (.xst 15 3 0 0 7) id withPriv).xLanes w0 t 3 0 7) = (.inl ts, d1) ∧
    d1.mayLaunch { d1.opFor w0 .store .store (t.flagOf 0) (t.taking 7) with
      counted := true, pieces := ts.flatMap fun y =>
        let v := (t.lane y.1.lane).xr 15
        storePieces y.1.lane y.2 (natBytes v.v.toNat 4 ++ natBytes v.lo.toNat 4 ++ natBytes v.hi.toNat 4 ++ [0, 0, 0, 0]) } = true :=
  ⟨stalledWarp (.xst 15 3 0 0 7) id withPriv, _, _, ⟨rfl, rfl, by decide +kernel, goes (by decide +kernel), by decide +kernel⟩,
    eq_inl (by decide +kernel), by decide +kernel⟩

/-- Four lanes' accesses: out of bounds in lane 2, misaligned in lane 1, without a mapping in lane 0, good in lane 3. -/
def fourLanes : List LaneAccess := [⟨0, 0x400000, true, 4⟩, ⟨1, 0x1001, true, 4⟩, ⟨2, 0, false, 4⟩, ⟨3, 0x1000, true, 4⟩]
theorem witness_AccessChecks_bounds : (fourLanes.find? fun x => !x.inside) = some ⟨2, 0, false, 4⟩ := by decide
theorem witness_AccessChecks_align : (∀ x ∈ fourLanes.eraseIdx 2, x.inside = true) ∧
    (fourLanes.eraseIdx 2).find? (fun x => x.addr.toNat % x.size ≠ 0) = some ⟨1, 0x1001, true, 4⟩ := by decide
theorem witness_AccessChecks_xlate : ∃ xs d1 sub, (dev [] id id id).xlateLanes w0 false [⟨0, 0x400000, true, 4⟩, ⟨3, 0x1000, true, 4⟩] =
      (xs, d1) ∧ xs.find? (fun x => match x.2 with | .xlate _ => true | _ => false) = some (⟨0, 0x400000, true, 4⟩, .xlate sub) :=
  ⟨_, _, 0, rfl, by decide +kernel⟩
/-- A device whose frame at LPA 0x201000 is poisoned. -/
def poisonDev : Dev := { dev [] id id (fun k => { k with tlb := [{ page with clean := false }] }) with mem := [(0x40, 2)] }
theorem witness_AccessChecks_poison : ∃ xs d1, poisonDev.xlateLanes w0 false [⟨3, 0x1000, true, 4⟩] = (xs, d1) ∧
    (∀ x ∈ xs, ∀ sub, x.2 ≠ .xlate sub) ∧
    xs.find? (fun x => match x.2 with | .poison => true | _ => false) = some (⟨3, 0x1000, true, 4⟩, .poison) :=
  ⟨[(⟨3, 0x1000, true, 4⟩, .poison)], _, Prod.ext (by decide +kernel) rfl, by simp, by decide⟩
theorem witness_AccessChecks_pass : ∃ xs d1, (dev [] id id id).xlateLanes w0 true [⟨3, 0x1000, true, 4⟩] = (xs, d1) ∧
    ∀ x ∈ xs, ∃ tg e, x.2 = .ok tg e := by
  refine ⟨_, _, rfl, fun x hx => ?_⟩
  have h : (((dev [] id id id).xlateLanes w0 true [⟨3, 0x1000, true, 4⟩]).1.all fun x => match x.2 with | .ok _ _ => true | _ => false) =
    true := by decide +kernel
  have := List.all_eq_true.mp h x hx
  split at this
  · exact ⟨_, _, ‹_›⟩
  · cases this

/-- An array register of 64 elements of 4 bytes at 0x1000, armed when it says so. -/
def arr4 (trap armed : Bool) (t : Thread) : Thread :=
  { t.setArr 3 ⟨0x1000, 64, 2, trap, false, armed, armed⟩ with lanes := t.lanes.map fun l => l.setX 2 63 ⟨0, 63⟩ }
/-- The pin of that array's page. -/
def withPin (k : Core) : Core := { k with pins := [⟨page, [(0, 0, 3)]⟩] }

theorem witness_ArrayAccess_stalls : ∃ (s : State) (t : Thread), Issues s w0 t ∧ FlagFree t 0 ∧ Allotted s w0 (arrayRegs t 5 3 2) ∧
    arrayFits (t.arr 3).z 5 = true ∧ t.unack < 1023 ∧ t.taking 7 ≠ 0 ∧ s.dev.waveA0 w0 3 = false ∧ t.elided 3 2 0 = true ∧
    (t.arr 3).armed = false :=
  ⟨st (dev [] (arr4 true false) id id), _, ⟨rfl, rfl⟩, rfl, rfl, by decide +kernel, by decide +kernel, by decide +kernel, rfl,
    by decide +kernel, by decide +kernel⟩
theorem witness_ArrayAccess_masked : ∃ (s : State) (t : Thread), Issues s w0 t ∧ FlagFree t 0 ∧ Allotted s w0 (arrayRegs t 5 3 2) ∧
    arrayFits (t.arr 3).z 5 = true ∧ t.unack < 1023 ∧ t.taking 15 = 0 ∧ (t.arr 3).log = true :=
  ⟨st (dev [] (fun t => t.setArr 3 ⟨0x1000, 64, 2, true, true, false, false⟩) id id), _, ⟨rfl, rfl⟩, rfl, rfl, by decide +kernel,
    by decide +kernel, by decide +kernel, by decide +kernel⟩
theorem witness_ArrayAccess_quick : ∃ (s : State) (t : Thread) (ts : List (LaneAccess × Target)) (pins : List Nat) (d2 : Dev), Issues s w0 t ∧
    FlagFree t 0 ∧ Allotted s w0 (arrayRegs t 5 3 2) ∧ arrayFits (t.arr 3).z 5 = true ∧ t.taking 7 ≠ 0 ∧ t.elided 3 2 0 = true ∧
    (t.arr 3).armed = true ∧ s.dev.pinned w0 3 false (t.arrayLanes 3 2 0 (t.taking 7)) = some (ts, pins) ∧ (t.arr 3).log = false ∧
    (s.dev.count w0 7 1).arrayFinish w0 t false 5 3 2 0 0 (t.taking 7) ts pins = some d2 :=
  let d := dev [] (arr4 true true) id withPin
  let t := ((d.group 0).getD (probeGroup 0 [])).warps.headD (newWarp [] 0 0 0)
  let x := (d.pinned w0 3 false (t.arrayLanes 3 2 0 (t.taking 7))).getD ([], [])
  have h1 : (d.pinned w0 3 false (t.arrayLanes 3 2 0 (t.taking 7))).isSome = true := by decide +kernel
  have h2 : ((d.count w0 7 1).arrayFinish w0 t false 5 3 2 0 0 (t.taking 7)
    x.1 x.2).isSome = true := by decide +kernel
  ⟨st d, t, x.1, x.2, _, ⟨rfl, rfl⟩, rfl, (by decide +kernel : d.allotTrap w0 (arrayRegs t 5 3 2) = none),
    by decide +kernel, by decide +kernel, by decide +kernel, by decide +kernel, by
      obtain ⟨y, h⟩ := Option.isSome_iff_exists.mp h1
      show d.pinned w0 3 false _ = some ((d.pinned w0 3 false _).getD ([], []))
      rw [h]; rfl, by decide +kernel, (Option.some_get h2).symm⟩
theorem witness_ArrayAccess_done : ∃ (t : Thread) (ts : List (LaneAccess × Target)) (d1 d2 : Dev),
    Translated (stalled (.lda 5 3 2 0 0 7) (arr4 false false) id) t (.lda 5 3 2 0 0 7) 1 ∧
    (freed (.lda 5 3 2 0 0 7) (arr4 false false) id).checkLanes w0 false false (t.arrayLanes 3 2 0 (t.taking 7)) = (.inl ts, d1) ∧
    d1.arrayFinish w0 t false 5 3 2 0 0 (t.taking 7) ts [] = some d2 ∧ (t.arr 3).trap = false :=
  let t := stalledWarp (.lda 5 3 2 0 0 7) (arr4 false false) id
  let x := (freed (.lda 5 3 2 0 0 7) (arr4 false false) id).checkLanes w0 false false (t.arrayLanes 3 2 0 (t.taking 7))
  have h : (x.2.arrayFinish w0 t false 5 3 2 0 0 (t.taking 7) (x.1.getLeft?.getD []) []).isSome = true := by decide +kernel
  ⟨t, _, _, _, ⟨rfl, rfl, by decide +kernel, goes (by decide +kernel), by decide +kernel⟩, eq_inl (by decide +kernel), (Option.some_get h).symm,
    by decide +kernel⟩
theorem witness_ArrayAccess_zeros : ∃ (dev : Dev) (t : Thread) (ts : List (LaneAccess × Target)) (d2 : Dev), (t.arr 3).trap = false ∧
    dev.arrayFinish w0 t false 5 3 2 1 0 (t.taking 7) ts [] = some d2 ∧ (∀ o : Op, o ∈ dev.ops → o.id ≠ dev.nextId) ∧
    t.outLanes 3 2 1 (t.taking 7) ≠ [] :=
  let d := dev [] (arr4 false false) id id
  let t := ((d.group 0).getD (probeGroup 0 [])).warps.headD (newWarp [] 0 0 0)
  have h : (d.arrayFinish w0 t false 5 3 2 1 0 (t.taking 7) [] []).isSome = true := by decide +kernel
  ⟨d, t, [], _, by decide +kernel, (Option.some_get h).symm, fun _ h => (by cases h), by decide +kernel⟩
theorem witness_ScratchAndPrefetch : ∃ (s : State) (t : Thread) (ts tw : List (LaneAccess × Target))
    (xs : List (LaneAccess × XlateOut)) (d1 : Dev), Issues s w0 t ∧ FlagFree t 0 ∧ Allotted s w0 ([3] ++ addrRegs 2) ∧
    Allotted s w0 (operandRegs 5 (typeSize 4)) ∧ s.dev.scratchLanes w0 (t.scratchAddrs 3 (typeSize 4) 7) = .inl ts ∧
    Allotted s w0 (regRun 108 4) ∧ s.dev.scratchLanes w0 (t.scratchAddrs 3 16 7) = .inl tw ∧
    s.dev.xlateLanes w0 false ((if (s.dev.allotTrap w0 (addrRegs 2)).isSome then [] else maskLanes (t.taking 7)).map
      fun l => ⟨l, t.addr l 2, true, 1⟩) = (xs, d1) :=
  ⟨plain [], _, _, _, _, _, ⟨rfl, rfl⟩, rfl, rfl, rfl, rfl, rfl, rfl, rfl⟩
/-- PRF of a tail group whose address register lies outside its 8 registers. -/
theorem witness_ScratchAndPrefetch_outside : ∃ (s : State) (t : Thread), Issues s w0 t ∧ FlagFree t 0 ∧
    (s.dev.allotTrap w0 (addrRegs 4)).isSome = true :=
  ⟨st (dev [] id (fun g => { g with state := .tail }) id), _, ⟨rfl, rfl⟩, rfl, by decide +kernel⟩

/-- A prefetch of an address, or of a byte that is not mapped, that meets the walker. -/
def prefetching (va : Nat) : Dev :=
  let d := dev [] id id id
  { d with ops := [{ d.opFor w0 (.prefetch false) .prefetch none 1 with id := 5, pieces := [Piece.new 0 (.virt va) 1] }] }
theorem goesAsked {d : Dev} {u : WalkUser} {c : CoreRef} {tag : BitVec 16} {f : Nat → Bool} {vas : List Nat}
    (h : (match d.walkGate u c tag f vas with | .go _ => true | _ => false) = true) : ∃ d0, d.walkGate u c tag f vas = .go d0 := by
  split at h
  · exact ⟨_, ‹_›⟩
  · cases h
theorem witness_ScratchAndPrefetch_arrives : ∃ (o : Op) (p : Piece) (d0 : Dev), (prefetching 0x1000).op 5 = some o ∧
    o.pieces[0]? = some p ∧ o.id = 5 ∧ o.kind = .prefetch (decide ((0 : BitVec 1) = 1)) ∧ p.target = .virt 0x1000 ∧ p.done = false ∧
    p.value = none ∧ (prefetching 0x1000).blocked o 0 = false ∧
    (prefetching 0x1000).walkGate (.piece 5 0) o.core o.tag (fun _ => p.sent) [0x1000] = .go d0 :=
  have ⟨d0, h⟩ := goesAsked (d := prefetching 0x1000) (u := .piece 5 0) (c := c0) (tag := 0) (f := fun _ => false) (vas := [0x1000])
    (by decide +kernel)
  ⟨_, _, d0, rfl, rfl, rfl, rfl, rfl, rfl, rfl, by decide +kernel, h⟩
theorem witness_ScratchAndPrefetch_answers : (∃ tg e d1, (dev [] id id id).translate c0 0 0x1000 false false = (.ok tg e, d1) ∧
      prefetchable tg = true) ∧
    ∃ x d1, (dev [] id id fun k => { k with tlb := [{ page with size := 0x1000 }] }).translate c0 0 0x1000 false false = (.xlate x, d1) :=
  ⟨⟨_, _, _, rfl, by decide +kernel⟩, _, _, rfl⟩
theorem witness_SyncStalls : ∃ (s : State) (t : Thread), Issues s w0 t ∧ FlagFree t 0 ∧
    Allotted s w0 (addrRegs 2 ++ addrRegs 63 ++ [112 + (5 : BitVec 4).setWidth 7]) ∧ t.taking 7 ≠ 0 ∧ s.dev.releaseReady w0 t = true ∧
    t.loss = false ∧ s.dev.waveA0 w0 3 = false ∧ t.unack < 1023 ∧ Allotted s w0 (operandRegs 110 8 ++ operandRegs 4 8 ++ operandRegs 8 8) ∧
    Allotted s w0 (regRun 110 2 ++ regRun 4 2 ++ [9]) ∧ Allotted s w0 (regRun 110 2) ∧ s.dev.admissionWaits w0 = false ∧ t.wait ≠ .retry :=
  ⟨plain [], _, ⟨rfl, rfl⟩, rfl, rfl, by decide +kernel, by decide +kernel, rfl, rfl, by decide +kernel, rfl, rfl, rfl, by decide +kernel,
    by decide +kernel⟩

/-- A jump table of 64 entries of 8 bytes at 0x1000. -/
def arr8 (t : Thread) : Thread := t.setArr 3 ⟨0x1000, 64, 3, true, false, false, false⟩
theorem witness_SyncStalls_jmpt : ∃ (s : State) (t : Thread), Issues s w0 t ∧ FlagFree t 0 ∧ (t.arr 3).z = 3 ∧
    t.arrayLanes 3 2 0 t.active ≠ [] ∧ (t.arr 3).armed = false :=
  ⟨st (dev [] arr8 id id), _, ⟨rfl, rfl⟩, rfl, by decide +kernel, by decide +kernel, by decide +kernel⟩

theorem witness_SyncStalls_atom : ∃ (t : Thread) (ts : List (LaneAccess × Target)) (d1 : Dev),
    Translated (stalled (.atom 2 0 7 0 0 7 4 2 0 6) id id) t (.atom 2 0 7 0 0 7 4 2 0 6) 2 ∧
    (freed (.atom 2 0 7 0 0 7 4 2 0 6) id id).checkLanes w0 true false
      ((maskLanes (t.taking 7)).map fun l => ⟨l, t.addr l 0, true, 4⟩) = (.inl ts, d1) ∧
    d1.mayLaunch { d1.opFor w0 (.atomic 7 false false (ordAcq 0 0)) .atomic (t.flagOf 0) (t.taking 7) with
      dest := 2, counted := true, pieces := ts.map fun y =>
        { Piece.new y.1.lane y.2 4 with
          regs := regParts 2 4, data := (t.lane y.1.lane).bytes 4 4, cmp := bytesD ((t.lane y.1.lane).bytes 6 4) } } = true :=
  ⟨stalledWarp (.atom 2 0 7 0 0 7 4 2 0 6) id id, _, _, ⟨rfl, rfl, by decide +kernel, goes (by decide +kernel), by decide +kernel⟩,
    eq_inl (by decide +kernel), by decide +kernel⟩
/-- An ordered atomic whose lanes' address is 4 modulo 8. -/
theorem witness_SyncStalls_atomAlign : ∃ (t : Thread) (l : LaneAccess),
    Translated (stalled (.atom 2 0 7 1 0 7 4 2 0 6) (fun t => { t with lanes := t.lanes.map fun l => l.set 0 4 }) id) t
      (.atom 2 0 7 1 0 7 4 2 0 6) 2 ∧
    ((maskLanes (t.taking 7)).map fun l => (⟨l, t.addr l 0, true, 4⟩ : LaneAccess)).find? (fun l => l.addr.toNat % 8 ≠ 0) = some l :=
  ⟨stalledWarp (.atom 2 0 7 1 0 7 4 2 0 6) (fun t => { t with lanes := t.lanes.map fun l => l.set 0 4 }) id, _,
    ⟨rfl, rfl, by decide +kernel, goes (by decide +kernel), by decide +kernel⟩, rfl⟩
theorem witness_SyncStalls_callm : ∃ (t : Thread) (d2 : Dev),
    Translated (stalled (.callm 2 0 3 0 0 7 4 0 6) id id) t (.callm 2 0 3 0 0 7 4 0 6) 2 ∧
    (freed (.callm 2 0 3 0 0 7 4 0 6) id id).callmDone w0 t 2 0 3 0 0 7 4 0 6 = some d2 :=
  have h : ((freed (.callm 2 0 3 0 0 7 4 0 6) id id).callmDone w0 (stalledWarp (.callm 2 0 3 0 0 7 4 0 6) id id)
    2 0 3 0 0 7 4 0 6).isSome = true := by decide +kernel
  ⟨stalledWarp (.callm 2 0 3 0 0 7 4 0 6) id id, _, ⟨rfl, rfl, by decide +kernel, goes (by decide +kernel), by decide +kernel⟩, (Option.some_get h).symm⟩
theorem witness_SyncStalls_acq : ∃ (t : Thread) (ts : List (LaneAccess × Target)) (d1 : Dev),
    Translated (stalled (.acq 2 0 3 0 7) id id) t (.acq 2 0 3 0 7) 1 ∧
    (freed (.acq 2 0 3 0 7) id id).checkLanes w0 false true (t.objectLanes 0 (t.taking 7)) = (.inl ts, d1) :=
  ⟨stalledWarp (.acq 2 0 3 0 7) id id, _, _, ⟨rfl, rfl, by decide +kernel, goes (by decide +kernel), by decide +kernel⟩, eq_inl (by decide +kernel)⟩
theorem witness_SyncStalls_rel : ∃ (t : Thread) (ts : List (LaneAccess × Target)) (d1 : Dev),
    Translated (stalled (.rel 2 0 3 0 7) id id) t (.rel 2 0 3 0 7) 1 ∧
    (freed (.rel 2 0 3 0 7) id id).checkLanes w0 true true (t.objectLanes 0 (t.taking 7)) = (.inl ts, d1) ∧
    d1.mayLaunch { d1.opFor w0 .rel .store (t.flagOf 0) (t.taking 7) with
      counted := true, pieces := ts.map fun y => { Piece.new y.1.lane y.2 8 with data := (t.lane y.1.lane).bytes 2 8 } } = true :=
  ⟨stalledWarp (.rel 2 0 3 0 7) id id, _, _, ⟨rfl, rfl, by decide +kernel, goes (by decide +kernel), by decide +kernel⟩, eq_inl (by decide +kernel),
    by decide +kernel⟩
theorem witness_SyncStalls_bind : ∃ (t : Thread) (tg : Target) (e : TlbEntry) (d1 : Dev),
    Translated (stalled (.bind 3 0 1 2 0 7) id id) t (.bind 3 0 1 2 0 7) 1 ∧
    (freed (.bind 3 0 1 2 0 7) id id).xlate w0 (t.kpair 0).toNat false = (.ok tg e, d1) :=
  ⟨stalledWarp (.bind 3 0 1 2 0 7) id id, _, _, _, ⟨rfl, rfl, by decide +kernel, goes (by decide +kernel), by decide +kernel⟩, rfl⟩
theorem witness_SyncStalls_arm : ∃ (t : Thread) (ok : Bool) (d1 : Dev),
    Translated (stalled (.arm 2 3 0 7) (arr4 true false) id) t (.arm 2 3 0 7) 1 ∧
    (freed (.arm 2 3 0 7) (arr4 true false) id).armArray w0 3 = (.inl ok, d1) := by
  have h : ((freed (.arm 2 3 0 7) (arr4 true false) id).armArray w0 3).1.isLeft = true := by decide +kernel
  refine ⟨stalledWarp (.arm 2 3 0 7) (arr4 true false) id, ((freed (.arm 2 3 0 7) (arr4 true false) id).armArray w0 3).1.getLeft?.getD true,
    ((freed (.arm 2 3 0 7) (arr4 true false) id).armArray w0 3).2, ⟨rfl, rfl, by decide +kernel, goes (by decide +kernel), by decide +kernel⟩, ?_⟩
  revert h
  generalize (freed (.arm 2 3 0 7) (arr4 true false) id).armArray w0 3 = x
  obtain ⟨a | b, c⟩ := x
  · intro; rfl
  · intro h; cases h
theorem witness_SyncStalls_ald : ∃ (t : Thread) (ts : List (LaneAccess × Target)) (d1 : Dev),
    Translated (stalled (.ald 3 1 0 7) id id) t (.ald 3 1 0 7) 1 ∧
    (freed (.ald 3 1 0 7) id id).checkLanes w0 false false [⟨0, t.kpair 1, true, 16⟩] = (.inl ts, d1) :=
  ⟨stalledWarp (.ald 3 1 0 7) id id, _, _, ⟨rfl, rfl, by decide +kernel, goes (by decide +kernel), by decide +kernel⟩, eq_inl (by decide +kernel)⟩
theorem witness_SyncStalls_jmptDone : ∃ (t : Thread) (ts : List (LaneAccess × Target)) (d1 : Dev),
    Translated (stalled (.jmpt 3 2 0) arr8 id) t (.jmpt 3 2 0) 1 ∧
    (freed (.jmpt 3 2 0) arr8 id).checkLanes w0 false false (t.arrayLanes 3 2 0 t.active) = (.inl ts, d1) ∧ ts ≠ [] ∧ t.clause ≠ none :=
  ⟨stalledWarp (.jmpt 3 2 0) arr8 id, _, _, ⟨rfl, rfl, by decide +kernel, goes (by decide +kernel), by decide +kernel⟩, eq_inl (by decide +kernel),
    by decide +kernel, by decide +kernel⟩

/-- Two optional results, the second of the first, from the existence of both. -/
theorem both {α β : Type} {x : Option α} {f : α → Option β} (h : (x.bind f).isSome = true) : ∃ a b, x = some a ∧ f a = some b := by
  obtain ⟨b, h⟩ := Option.isSome_iff_exists.mp h
  obtain ⟨a, ha, hb⟩ := Option.bind_eq_some_iff.mp h
  exact ⟨a, b, ha, hb⟩

/-! ## Witnesses: spawns, operations, synchronization -/

/-- A warp at SPAWN whose translations are done: its record at address 0. -/
def spawner (l : Bool) : Dev := stalled (.spawn 3 56 0 7) (fun t => { t with loss := l }) id
def spawnerFreed (l : Bool) : Dev := freed (.spawn 3 56 0 7) (fun t => { t with loss := l }) id
def spawnerWarp (l : Bool) : Thread := stalledWarp (.spawn 3 56 0 7) (fun t => { t with loss := l }) id
def spawnerGroup (l : Bool) : Group := (((spawnerFreed l).groupOf w0)).getD (probeGroup 0 [])
def spawnRecs (l : Bool) : (List (LaneAccess × Target) ⊕ TrapInfo) × Dev :=
  (spawnerFreed l).checkLanes w0 false false ([lowest ((spawnerWarp l).taking 7)].map fun n => ⟨n, (spawnerWarp l).addr n 56, true, 64⟩)

theorem witness_Spawning (l : Bool) : ∃ (t : Thread) (gr : Group) (rs : List (LaneAccess × Target)) (d1 : Dev),
    Translated (spawner l) t (.spawn 3 56 0 7) 1 ∧ t.loss = l ∧ (spawnerFreed l).groupOf w0 = some gr ∧
    (∀ n ∈ [lowest (t.taking 7)], (t.addr n 56).toNat % 64 = 0 ∧ (t.addr n 56).toNat < 2 ^ 54) ∧
    (spawnerFreed l).checkLanes w0 false false ([lowest (t.taking 7)].map fun n => ⟨n, t.addr n 56, true, 64⟩) = (.inl rs, d1) ∧
    d1.releaseReady w0 t = true := by
  cases l
  · exact ⟨spawnerWarp false, spawnerGroup false, _, _, ⟨rfl, rfl, by decide +kernel, goes (by decide +kernel), by decide +kernel⟩, rfl, rfl,
      by decide +kernel, eq_inl (by decide +kernel), by decide +kernel⟩
  · exact ⟨spawnerWarp true, spawnerGroup true, _, _, ⟨rfl, rfl, by decide +kernel, goes (by decide +kernel), by decide +kernel⟩, rfl, rfl,
      by decide +kernel, eq_inl (by decide +kernel), by decide +kernel⟩
theorem witness_Spawning_enters : ∃ d3, (let d2 := (spawnRecs false).2
    let rs := (spawnRecs false).1.getLeft?.getD []
    let t := spawnerWarp false
    let o := { d2.opFor w0 .spawn .engine (t.flagOf 0) (t.taking 7) with pred := 3, pieces := [Piece.new (lowest (t.taking 7)) (.state 0) 0] }
    let q := (d2.dropAudit w0).addOp o
    q.2.spawnAll w0 (spawnerGroup false) { o with id := q.1 } (rs.map fun x => (x.1.lane, x.2, .state 0))) = some d3 :=
  have h : (let d2 := (spawnRecs false).2
    let rs := (spawnRecs false).1.getLeft?.getD []
    let t := spawnerWarp false
    let o := { d2.opFor w0 .spawn .engine (t.flagOf 0) (t.taking 7) with pred := 3, pieces := [Piece.new (lowest (t.taking 7)) (.state 0) 0] }
    let q := (d2.dropAudit w0).addOp o
    q.2.spawnAll w0 (spawnerGroup false) { o with id := q.1 } (rs.map fun x => (x.1.lane, x.2, .state 0))).isSome = true := by
      decide +kernel
  ⟨_, (Option.some_get h).symm⟩

/-- An operation of the warp on 4 bytes at LPA 0x200000. -/
def oneOp (k : OpKind) (p : Piece → Piece) : Op :=
  { (dev [] id id id).opFor w0 k .load none 1 with
    id := 5, dest := 2, pieces := [p { Piece.new 0 (.mem ⟨none, 0x200000⟩ page.leaf 0) 4 with regs := [(2, 0)], data := [1, 2, 3, 4] }] }
def withOp (o : Op) : Dev := { dev [] id id id with ops := [o] }

/-- A warp at SPAWN.AT whose record is at address 0 and whose target lies in package 7, with a store to its scratch under way when
`busy`. -/
def spawnerAt (busy : Bool) : Dev :=
  let d := (stalled (.spawnAt 3 56 57 0 7) (fun t => t.setS 3 0x400000) id).onCore c0 fun k =>
    { k with tlb := { page with va := 2 ^ 54, leaf := { page.leaf with frame := 7 * 2 ^ 31 } } :: k.tlb }
  { d with ops := if busy then [{ oneOp .store (fun p => { p with target := .scratch 0 0 }) with access := .store }] else [] }
def spawnAtWarp : Thread := stalledWarp (.spawnAt 3 56 57 0 7) (fun t => t.setS 3 0x400000) id
def spawnAtRecs (busy : Bool) : (List (LaneAccess × Target) ⊕ TrapInfo) × Dev :=
  ((spawnerAt busy).translated w0 0).checkLanes w0 false false ([0].map fun l => ⟨l, spawnAtWarp.addr l 56, true, 64⟩)
def spawnAtTargets (busy : Bool) : (List (LaneAccess × Target) ⊕ TrapInfo) × Dev :=
  (spawnAtRecs busy).2.checkLanes w0 false true ([0].map fun l => ⟨l, spawnAtWarp.addr l 57, true, 1⟩)
theorem witness_Spawning_remote (busy : Bool) : ∃ (t : Thread) (rs ts : List (LaneAccess × Target)) (d1 d2 : Dev),
    Translated (spawnerAt busy) t (.spawnAt 3 56 57 0 7) 1 ∧ t.loss = false ∧
    ((spawnerAt busy).translated w0 0).checkLanes w0 false false ([0].map fun l => ⟨l, t.addr l 56, true, 64⟩) = (.inl rs, d1) ∧
    d1.releaseReady w0 t = true ∧ d1.checkLanes w0 false true ([0].map fun l => ⟨l, t.addr l 57, true, 1⟩) = (.inl ts, d2) ∧
    (ts.any fun x => x.2.remote) = true ∧ (!d2.admissionWaits w0 && d2.mayInject 0 0 0) = !busy := by
  refine ⟨spawnAtWarp, (spawnAtRecs busy).1.getLeft?.getD [], (spawnAtTargets busy).1.getLeft?.getD [], (spawnAtRecs busy).2,
    (spawnAtTargets busy).2, ⟨?_, rfl, ?_, goes ?_, ?_⟩, rfl, eq_inl (x := spawnAtRecs busy) ?_, ?_, eq_inl (x := spawnAtTargets busy) ?_, ?_, ?_⟩ <;>
    revert busy <;> decide +kernel
/-- A warp at SPAWN that has waited as a release, its store still unacknowledged or acknowledged, its translations held. -/
theorem witness_Spawning_waits (n : Fin 2) : ∃ (s : State) (t : Thread), Issues s w0 t ∧ Allotted s w0 (addrRegs 56) ∧ FlagFree t 0 ∧
    t.taking 7 ≠ 0 ∧ t.wait = .retry ∧ s.dev.needsOf w0 [(t.addr 0 56).toNat] = [] ∧ s.dev.releaseReady w0 t = decide (n.val = 0) :=
  let f : Thread → Thread := fun t => { t with wait := .retry, unack := n.val }
  ⟨st (dev (encode (.spawn 3 56 0 7)) f id id), _, ⟨rfl, rfl⟩, rfl, rfl, by revert n; decide +kernel, rfl, by revert n; decide +kernel,
    by revert n; decide +kernel⟩

theorem witness_OperationEvents_load : ∃ (o : Op) (p : Piece), (withOp o).op 5 = some o ∧ o.pieces[0]? = some p ∧
    o.kind = .load 4 false ∧ o.id = 5 ∧ p.value = some [1, 2, 3, 4] ∧ p.done = false ∧ p.regs = [(2, 0)] ∧ (withOp o).waveReadsBad o 0 = none :=
  ⟨oneOp (.load 4 false) fun p => { p with value := some [1, 2, 3, 4] }, _, rfl, rfl, rfl, rfl, rfl, rfl, rfl, rfl⟩
theorem witness_OperationEvents_read : ∃ (o : Op) (d1 : Dev), o.kind.reads = true ∧ (withOp o).op 5 = some o ∧
    (withOp o).waveReadsBad o 0 = none ∧ (withOp o).readPiece ⟨0, 0, 0, []⟩ 5 0 = some d1 :=
  have h : ((withOp (oneOp (.load 4 false) id)).readPiece ⟨0, 0, 0, []⟩ 5 0).isSome = true := by decide +kernel
  ⟨oneOp (.load 4 false) id, _, rfl, rfl, rfl, (Option.some_get h).symm⟩
theorem witness_OperationEvents_write : ∃ (o : Op) (d1 : Dev), o.kind = .store ∧ (withOp o).op 5 = some o ∧
    (withOp o).writePiece 5 0 = some d1 :=
  have h : ((withOp (oneOp .store id)).writePiece 5 0).isSome = true := by decide +kernel
  ⟨oneOp .store id, _, rfl, rfl, (Option.some_get h).symm⟩
theorem witness_OperationEvents_atomic : ∃ (o : Op) (d1 : Dev), o.kind = .atomic 0 false false none ∧ (withOp o).op 5 = some o ∧
    o.pieceAt (fun x => x.open_) = some 0 ∧ (withOp o).writePiece 5 0 = some d1 :=
  have h : ((withOp (oneOp (.atomic 0 false false none) id)).writePiece 5 0).isSome = true := by decide +kernel
  ⟨oneOp (.atomic 0 false false none) id, _, rfl, rfl, rfl, (Option.some_get h).symm⟩
theorem witness_OperationEvents_old : ∃ (o : Op), o.kind = .atomic 0 false false none ∧ (withOp o).op 5 = some o ∧
    o.pieceAt (fun x => !x.done && x.value.isSome) = some 0 :=
  ⟨oneOp (.atomic 0 false false none) fun p => { p with value := some [1, 2, 3, 4] }, rfl, rfl, rfl⟩
theorem witness_StoreFrame : ∃ (d : Dev) (lpa : Nat) (b : List Byte) (k : Nat), Memory.wf d.mem = true ∧ k < d.home lpa ∧ b ≠ [] :=
  ⟨{ Dev.reset with mem := [(5, 1), (0x200001, 3)] }, 0x200000, [0, 0, 7], 5, by decide, by decide +kernel, by decide⟩

theorem witness_SyncAtOnce : ∃ (s : State) (t : Thread) (gr : Group) (q : Clause), Issues s w0 t ∧ s.dev.groupOf w0 = some gr ∧
    t.clause = some q ∧ FlagFree t 0 ∧ t.taking 7 ≠ 0 ∧ s.dev.waveA0 w0 3 = false ∧ (∀ n, t.wait ≠ .fence n) ∧ t.unack = 0 ∧
    s.dev.loadsPending w0 = false ∧ t.loss = false ∧ (t.kpair 2).toNat / 2 ^ 54 ≠ 2 ∧
    (s.dev.bindings (s.dev.ctxOf w0)).find? (fun x => (bindingSpan x.2.2).1 = (t.kpair 2).toNat) = none :=
  ⟨plain [], _, _, _, ⟨rfl, rfl⟩, rfl, rfl, rfl, by decide +kernel, rfl, fun n h => (by cases h), rfl, by decide +kernel, rfl,
    by decide +kernel, by decide +kernel⟩
theorem witness_SyncAtOnce_waits : ∃ (s : State) (t : Thread), Issues s w0 t ∧ t.unack ≠ 0 ∧ s.dev.loadsPending w0 = false :=
  ⟨st (dev [] (fun t => { t with unack := 1 }) id id), _, ⟨rfl, rfl⟩, by decide +kernel, by decide +kernel⟩
theorem witness_SyncAtOnce_lost : ∃ (s : State) (t : Thread), Issues s w0 t ∧ t.unack = 0 ∧ s.dev.loadsPending w0 = false ∧ t.loss = true :=
  ⟨st (dev [] (fun t => { t with loss := true }) id id), _, ⟨rfl, rfl⟩, rfl, by decide +kernel, rfl⟩
/-- A device whose context 0 has a binding table at 0x90000 with one entry, of the region at 0. -/
def bound : Dev := { dev [] id id id with regs := [(.ctxbase, 0x80000)], mem := [(0x80022, 9), (0x90007, 0x80)] }
theorem witness_SyncAtOnce_unbind : ∃ (s : State) (t : Thread) (x : Nat × DWord × DWord), Issues s w0 t ∧ (t.kpair 2).toNat / 2 ^ 54 ≠ 2 ∧
    (s.dev.bindings (s.dev.ctxOf w0)).find? (fun y => (bindingSpan y.2.2).1 = (t.kpair 2).toNat) = some x :=
  have h : ((bound.bindings (bound.ctxOf w0)).find? fun y => (bindingSpan y.2.2).1 = ((bound.thread w0).elim 0 fun t => t.kpair 2).toNat).isSome =
    true := by decide +kernel
  ⟨st bound, _, _, ⟨rfl, rfl⟩, by decide +kernel, (Option.some_get h).symm⟩

/-- UNBIND of the region at 0 whose translations are done: its object at address 0. -/
def unbinder (k : Core → Core) : Dev :=
  { (stalled (.unbind 3 2 0 7) id id).onCore c0 k with regs := [(.ctxbase, 0x80000)], mem := [(0x80022, 9), (0x90007, 0x80)] }
def unbinderWarp : Thread := stalledWarp (.unbind 3 2 0 7) id id
/-- What the statement asks of it, and the translation's answer. -/
abbrev Unbinds (d : Dev) (q : XlateOut) : Prop :=
  ∃ (x : Nat × DWord × DWord) (d1 : Dev), Translated d unbinderWarp (.unbind 3 2 0 7) 1 ∧
    ((d.translated w0 0).bindings ((d.translated w0 0).ctxOf w0)).find? (fun y => (bindingSpan y.2.2).1 = (unbinderWarp.kpair 2).toNat) =
      some x ∧ (d.translated w0 0).xlate w0 (8 * (x.2.1.toNat / 8 % 2 ^ 53)) false = (q, d1)
theorem unbinds {d : Dev} {q : XlateOut} (h : Translated d unbinderWarp (.unbind 3 2 0 7) 1) (hx : (((d.translated w0 0).bindings
    ((d.translated w0 0).ctxOf w0)).find? (fun y => (bindingSpan y.2.2).1 = (unbinderWarp.kpair 2).toNat)).any (fun x =>
      (d.translated w0 0).xlate w0 (8 * (x.2.1.toNat / 8 % 2 ^ 53)) false |>.1 |> fun y => decide (y = q)) = true) : Unbinds d q := by
  rw [Option.any_eq_true] at hx
  obtain ⟨x, hx, hq⟩ := hx
  exact ⟨x, _, h, hx, Prod.ext (of_decide_eq_true hq) rfl⟩
theorem witness_SyncStalls_unbind : Unbinds (unbinder id) (.ok (.mem ⟨none, 0x200000⟩ page.leaf 0) page) :=
  unbinds ⟨rfl, rfl, by decide +kernel, goes (by decide +kernel), by decide +kernel⟩ (by decide +kernel)
theorem witness_SyncStalls_unbindFails : Unbinds (unbinder fun k => { k with tlb := [{ page with va := 0x200000 }] }) (.xlate 0) :=
  unbinds ⟨rfl, rfl, by decide +kernel, goes (by decide +kernel), by decide +kernel⟩ (by decide +kernel)
theorem witness_SyncStalls_unbindPoison : Unbinds
    { unbinder (fun k => { k with tlb := [{ page with clean := false }], poison := [⟨0, 1, List.replicate 64 255, 0, (0, 0)⟩] }) with mem :=
        [(0x40, 1), (0x80022, 9), (0x90007, 0x80)] } .poison :=
  unbinds ⟨rfl, rfl, by decide +kernel, goes (by decide +kernel), by decide +kernel⟩ (by decide +kernel)

/-- A group whose barrier 3 expects `n` arrivals and has `c`, a warp waiting on it when `w` says so. -/
def withBar (n c : Nat) (g : Group) : Group :=
  { g with gangSize := 2, bars := g.bars.set 3 { Barrier.reset with expected := n, count := c } }
def barDev (n c : Nat) (w : Bool) : Dev :=
  dev [] (fun t => if w then { t with wait := .barrier (.group 0 3) false } else t) (withBar n c) id

theorem witness_BarrierArrival_uninitialised : ∃ (d : Dev) (gr : Group) (b : Barrier), d.group 0 = some gr ∧ 3 < gr.bars.length ∧
    d.bar (.group 0 3) = some b ∧ b.expected = 0 := ⟨dev [] id id id, _, _, rfl, by decide +kernel, rfl, rfl⟩
theorem witness_BarrierArrival_counts : ∃ (d d' : Dev) (gr : Group) (b : Barrier), d.group 0 = some gr ∧ 3 < gr.bars.length ∧
    d.bar (.group 0 3) = some b ∧ d.arrive (.group 0 3) Arrival.plain = some d' ∧ b.count < b.expected ∧ b.count + 1 < b.expected :=
  have h : ((barDev 2 0 true).arrive (.group 0 3) Arrival.plain).isSome = true := by decide +kernel
  ⟨barDev 2 0 true, _, _, _, rfl, by decide +kernel, rfl, (Option.some_get h).symm, by decide +kernel, by decide +kernel⟩
theorem witness_BarrierArrival_completes : ∃ (d d' : Dev) (gr : Group) (b : Barrier) (t : Thread), d.group 0 = some gr ∧
    3 < gr.bars.length ∧ d.bar (.group 0 3) = some b ∧ d.arrive (.group 0 3) Arrival.plain = some d' ∧ b.count < b.expected ∧
    b.count + 1 = b.expected ∧ d.thread (.warp 0 0) = some t ∧ t.wait = .barrier (.group 0 3) b.phase :=
  have h : ((barDev 2 1 true).arrive (.group 0 3) Arrival.plain).isSome = true := by decide +kernel
  ⟨barDev 2 1 true, _, _, _, _, rfl, by decide +kernel, rfl, (Option.some_get h).symm, by decide +kernel, by decide +kernel, rfl, rfl⟩

/-- A group table that gives group 0 the entry 4 of generation 1. -/
def tabled (d : Dev) : Dev := d.onDie 0 fun k => { k with groupTable := [(4, 1, some 0)] }
theorem witness_BarrierInstructions_init : ∃ (s : State) (t : Thread) (gr : Group) (x y : Barrier), Issues s w0 t ∧
    s.dev.group 0 = some gr ∧ t.taking 7 ≠ 0 ∧ wideBar gr 1 2 = some (.gang 0 2) ∧ s.dev.podRemote gr 1 = false ∧
    s.dev.bar (.group gr.gid (3 : BitVec 4).toNat) = some x ∧ s.dev.bar (.gang 0 2) = some y ∧ 1 ≤ (t.sreg 5).toNat ∧
    (t.sreg 5).toNat ≤ 1023 ∧ s.dev.barBusy (.group gr.gid 3) = false ∧ s.dev.barBusy (.gang 0 2) = false ∧
    (s.dev.die (s.dev.entryDie gr)).groupTable.find? (fun z => z.2.2 = some gr.gid) = some (4, 1, some gr.gid) :=
  ⟨st (tabled (dev [] (fun t => t.setS 5 1023) (withBar 0 0) id)), _, _, _, _, ⟨rfl, rfl⟩, rfl, by decide +kernel, rfl, rfl, rfl, rfl,
    by decide +kernel, by decide +kernel, by decide +kernel, by decide +kernel, by decide +kernel⟩
theorem witness_BarrierInstructions_arrive : ∃ (s : State) (t : Thread) (gr : Group) (x y z : Barrier) (d1 : Dev), Issues s w0 t ∧
    s.dev.group 0 = some gr ∧ t.taking 7 ≠ 0 ∧ wideBar gr 1 2 = some (.gang 0 2) ∧ s.dev.podRemote gr 1 = false ∧
    s.dev.bar (.group gr.gid (3 : BitVec 4).toNat) = some x ∧ s.dev.bar (.gang 0 2) = some y ∧ t.unack = 0 ∧
    s.dev.loadsPending w0 = false ∧ t.loss = false ∧ t.wait = .none ∧ x.phase = false ∧
    s.dev.arrive (.group gr.gid 3) { Arrival.plain with member := some 0 } = some d1 ∧ d1.bar (.group gr.gid 3) = some z :=
  have ⟨_, _, h, h2⟩ := both (x := (barDev 1 0 false).arrive (.group 0 3) { Arrival.plain with member := some 0 })
    (f := fun d => d.bar (.group 0 3)) (by decide +kernel)
  ⟨st (barDev 1 0 false), _, _, _, _, _, _, ⟨rfl, rfl⟩, rfl, by decide +kernel, rfl, rfl, rfl, rfl, rfl, by decide +kernel, rfl, rfl, rfl,
    h, h2⟩
/-- A device whose gang has an initialised barrier 2. -/
def gangBar (f : Thread → Thread) : Dev := (dev [] f (withBar 0 0) id).onGang 0 fun k => { k with bars := [Barrier.reset, Barrier.reset, ⟨1, 0, true, 0, [], false, 0, [], false, 0⟩] }
theorem witness_BarrierInstructions_wide : ∃ (s : State) (t : Thread) (gr : Group) (x y z : Barrier) (d1 : Dev), Issues s w0 t ∧
    s.dev.group 0 = some gr ∧ t.taking 7 ≠ 0 ∧ wideBar gr 1 2 = some (.gang 0 2) ∧ s.dev.podRemote gr 1 = false ∧
    s.dev.bar (.group gr.gid (3 : BitVec 4).toNat) = some x ∧ s.dev.bar (.gang 0 2) = some y ∧ t.unack = 0 ∧
    s.dev.loadsPending w0 = false ∧ t.loss = false ∧ t.wait = .none ∧ y.phase = true ∧
    s.dev.arrive (.gang 0 2) Arrival.plain = some d1 ∧ d1.bar (.gang 0 2) = some z :=
  have ⟨_, _, h, h2⟩ := both (x := (gangBar id).arrive (.gang 0 2) Arrival.plain) (f := fun d => d.bar (.gang 0 2)) (by decide +kernel)
  ⟨st (gangBar id), _, _, _, _, _, _, ⟨rfl, rfl⟩, rfl, by decide +kernel, rfl, rfl, rfl, rfl, rfl, by decide +kernel, rfl, rfl, rfl,
    h, h2⟩
/-- A package 5 whose context 0 spans package 2 too, which is the root of its `.pod` barriers. -/
def podDev : Dev :=
  { dev [] (fun t => t.setS 5 9) id id with
    regs := [(.ctxbase, 0x80000), (.pkgcfg, 0x8000000000000005)], mem := [(0x80032, 9), (0x90000, 4)] }
theorem witness_BarrierInstructions_pod : ∃ (s : State) (t : Thread) (gr : Group) (x y z : Barrier), Issues s w0 t ∧
    s.dev.group 0 = some gr ∧ t.taking 7 ≠ 0 ∧ wideBar gr 4 2 = some (.wide 4 0 0 2) ∧ ¬ s.dev.podRemote gr 4 = false ∧
    s.dev.bar (.group gr.gid 3) = some x ∧ s.dev.bar (.wide 4 0 0 2) = some y ∧ 1 ≤ (t.sreg 5).toNat ∧ (t.sreg 5).toNat ≤ 2 ^ 24 - 1 ∧
    (t.unack = 0 ∧ s.dev.loadsPending w0 = false ∧ t.loss = false) ∧ t.wait = .none ∧
    s.dev.mayInject gr.core.die (gr.job / 256) gr.jobNum = true ∧
    (s.dev.inject gr.core.die ⟨5, gr.job / 256, gr.jobNum, gr.ctx, s.dev.root gr.ctx, 0, 0, 8⟩ (.podArrive 2) (.bar w0)).bar (.wide 4 0 0 2) =
      some z :=
  ⟨st podDev, _, _, _, _, _, ⟨rfl, rfl⟩, rfl, by decide +kernel, rfl, by decide +kernel, rfl, rfl, by decide +kernel, by decide +kernel,
    ⟨rfl, by decide +kernel, rfl⟩, rfl, by decide +kernel, rfl⟩
theorem witness_BarrierInstructions_released : ∃ (s : State) (t : Thread), Issues s w0 t ∧ t.wait = .released [⟨0x1000, 16, 0⟩] false 1 :=
  ⟨st (dev [] (fun t => { t with wait := .released [⟨0x1000, 16, 0⟩] false 1 }) id id), _, ⟨rfl, rfl⟩, rfl⟩

/-- A device whose warp holds the baton. -/
def holding (ws : List Word) (f : Thread → Thread) (k : Core → Core) : Dev := dev ws f id fun c => { k c with baton := .warp 0 0 }
/-- A sequencer program that the warp forked. -/
def prog (ended : Bool) : SeqProg := ⟨seqThread (newWarp [] 0 0 0) 0x1000, 0, 0, ended⟩
theorem witness_SequencersAndBaton_holds : ∃ (s : State) (t : Thread) (gr : Group) (q : Clause), Issues s w0 t ∧ s.dev.group 0 = some gr ∧
    t.clause = some q ∧ (s.dev.core gr.core).baton = .warp gr.gid 0 ∧ (s.dev.core gr.core).matSeq = none ∧ t.seqFaults = [] ∧
    0 < gr.warps.length :=
  ⟨st (holding [] id id), _, _, _, ⟨rfl, rfl⟩, rfl, rfl, rfl, rfl, rfl, by decide +kernel⟩
theorem witness_SequencersAndBaton_program (e : Bool) : ∃ (s : State) (t : Thread) (gr : Group) (q : Clause) (p : SeqProg), Issues s w0 t ∧
    s.dev.group 0 = some gr ∧ t.clause = some q ∧ (s.dev.core gr.core).copySeq = some p ∧ p.gid = gr.gid ∧ p.forker = 0 ∧ p.ended = e ∧
    s.dev.seqPending gr.core true = false ∧ t.seqFaults = [] ∧ (s.dev.core gr.core).baton ≠ .warp gr.gid 0 := by
  cases e
  · exact ⟨st (dev [] id id fun c => { c with copySeq := some (prog false) }), _, _, _, prog false, ⟨rfl, rfl⟩, rfl, rfl, rfl, rfl, rfl, rfl,
      by decide +kernel, rfl, by decide +kernel⟩
  · exact ⟨st (dev [] id id fun c => { c with copySeq := some (prog true) }), _, _, _, prog true, ⟨rfl, rfl⟩, rfl, rfl, rfl, rfl, rfl, rfl,
      by decide +kernel, rfl, by decide +kernel⟩
theorem witness_SequencersAndBaton_orphans : ∃ (s : State) (t : Thread) (gr : Group), Issues s w0 t ∧ s.dev.group 0 = some gr ∧
    s.dev.orphans gr.core false w0 = true :=
  ⟨st (dev [] id id fun c => { c with matrix := [⟨4, false, w0, 0, none, none, .seqEnd, [], [], true⟩] }), _, _, ⟨rfl, rfl⟩, rfl,
    by decide +kernel⟩
theorem witness_SequencersAndBaton_take : ∃ (s : State) (t : Thread) (gr : Group), Issues s w0 t ∧ s.dev.group 0 = some gr ∧
    (s.dev.core gr.core).baton = .free ∧ (s.dev.core gr.core).batonQueue = [] := ⟨plain [], _, _, ⟨rfl, rfl⟩, rfl, rfl, rfl⟩
theorem witness_SequencersAndBaton_queue : ∃ (s : State) (t : Thread) (gr : Group), Issues s w0 t ∧ s.dev.group 0 = some gr ∧
    (s.dev.core gr.core).baton = .free ∧ ((s.dev.core gr.core).batonQueue.head?.any fun x => x ≠ (gr.gid, 0)) = true :=
  ⟨st (dev [] id id fun c => { c with batonQueue := [(0, 1)] }), _, _, ⟨rfl, rfl⟩, rfl, rfl, by decide +kernel⟩

theorem witness_QuietAndSignal_issue : ∃ (s : State) (t : Thread) (gr : Group), s.dev.thread w0 = some t ∧ s.dev.group 0 = some gr ∧
    t.taking 7 ≠ 0 ∧ s.dev.issuer = some w0 ∧ Allotted s w0 [1] ∧ FlagFree t 0 ∧ t.wait = .none ∧
    (BarHandle.ofWord (t.kpair 2)).pkg = s.dev.pkgNum ∧ ((s.dev.core gr.core).msgs.any fun m => m.thread = w0) = false ∧
    s.dev.releaseReady w0 t = true ∧ t.loss = false :=
  ⟨plain [], _, _, rfl, rfl, by decide +kernel, rfl, rfl, rfl, rfl, by decide +kernel, by decide +kernel, by decide +kernel, rfl⟩
/-- A warp that waits in QUIET with 1 µs, or with a timeout operand of zero, its deadline at 500 ns. -/
def quietDev (us : Nat) (status : Option Nat) : Dev :=
  { dev (encode (.quiet 1 4 0 7)) (fun t => { t.setS 4 (BitVec.ofNat 32 us) with wait := .quiet 0 500 status }) id id with now := 500 }
theorem witness_QuietAndSignal_decided : ∃ (s : State) (t : Thread), s.dev.thread w0 = some t ∧ s.dev.issuer = some w0 ∧ Allotted s w0 [1] ∧
    FlagFree t 0 ∧ t.wait = .quiet 0 500 (some 1) := ⟨st (quietDev 0 (some 1)), _, rfl, rfl, rfl, rfl, rfl⟩
theorem witness_QuietAndSignal_timeout : ∃ (s : State) (t : Thread), s.dev.thread w0 = some t ∧ t.taking 7 ≠ 0 ∧
    t.wait = .quiet 0 500 none ∧ t.head = some (.ok (.quiet 1 4 0 7) 1) ∧ 500 ≤ s.dev.now ∧ (t.sreg 4).toNat ≠ 0 :=
  ⟨st (quietDev 1 none), _, rfl, by decide +kernel, rfl, by decide +kernel, by decide +kernel, by decide +kernel⟩
theorem witness_QuietAndSignal_trap : ∃ (s : State) (t : Thread), s.dev.thread w0 = some t ∧ t.taking 7 ≠ 0 ∧
    t.wait = .quiet 0 500 none ∧ t.head = some (.ok (.quiet 1 4 0 7) 1) ∧ 500 ≤ s.dev.now ∧ (t.sreg 4).toNat = 0 :=
  ⟨st (quietDev 0 none), _, rfl, by decide +kernel, rfl, by decide +kernel, by decide +kernel, by decide +kernel⟩
/-- A signal on the base die to barrier 3 of group 0, through entry 4 of generation 1, or to no group. -/
def signalTo (entry : Nat) : Transfer := .signal (BarHandle.word ⟨0, 0, entry, 3, 1⟩) 0 c0 9 w0 false 0
theorem witness_QuietAndSignal_arrives : ∃ (s : State) (d1 : Dev) (v : DWord), s.dev.transfers[0]? = some (.signal v 0 c0 9 w0 false 0) ∧
    s.dev.arriveSignal v 0 false 0 = some d1 :=
  let d : Dev := { tabled (barDev 2 0 true) with transfers := [signalTo 4] }
  have h : (d.arriveSignal (BarHandle.word ⟨0, 0, 4, 3, 1⟩) 0 false 0).isSome = true := by decide +kernel
  ⟨st d, _, _, rfl, (Option.some_get h).symm⟩
theorem witness_QuietAndSignal_refused : ∃ (s : State) (v : DWord), s.dev.transfers[0]? = some (.signal v 0 c0 9 w0 false 0) ∧
    s.dev.arriveSignal v 0 false 0 = none :=
  ⟨st { tabled (barDev 2 0 true) with transfers := [signalTo 5] }, _, rfl, by decide +kernel⟩
/-- A record of context 0 of one member with one warp. -/
def rec1 : Rec := Rec.entering (privRec) 0x1000 0 none 0 0 false none .queue
theorem witness_QuietAndSignal_spawn : ∃ (s : State) (x : Rec) (d2 d3 : Dev), s.dev.transfers[0]? = some (.spawn x 1 5 0) ∧
    ({ s.dev with transfers := s.dev.transfers.eraseIdx 0 } : Dev).enterRec 1 x = some d2 ∧ d2.countEntered 1 x = some d3 :=
  let d : Dev := { dev [] id id id with transfers := [.spawn rec1 1 5 0] }
  have ⟨_, _, h, h2⟩ := both (x := ({ d with transfers := d.transfers.eraseIdx 0 } : Dev).enterRec 1 rec1)
    (f := fun d => d.countEntered 1 rec1) (by decide +kernel)
  ⟨st d, rec1, _, _, rfl, h, h2⟩
/-! ## Witnesses: engines -/

/-- A shape whose eight fields are given values. -/
def shapeOf (l : List Nat) : Shape :=
  let f := fun (n : Nat) => (⟨BitVec.ofNat 11 (l.getD n 0), 0⟩ : ShapeField)
  ⟨f 0, f 1, f 2, f 3, f 4, f 5, f 6, f 7⟩

theorem witness_MatrixAdmission : ∃ (s : State) (t : Thread) (gr : Group), Issues s w0 t ∧ s.dev.groupOf w0 = some gr ∧
    (s.dev.core gr.core).baton = holderOf w0 gr ∧ ((s.dev.core gr.core).owner = some gr.gid ∨ (s.dev.core gr.core).matrix = []) ∧
    (s.dev.core gr.core).matrix.length < 64 ∧ s.dev.admissionWaits w0 = false ∧ FlagFree t 0 ∧ t.taking 7 ≠ 0 ∧
    (gr.bars.getD 3 Barrier.reset).expected ≠ 0 :=
  ⟨st (dev [] id (withBar 2 0) fun c => { c with baton := .warp 0 0 }), _, _, ⟨rfl, rfl⟩, rfl, rfl, .inr rfl, by decide +kernel, by decide +kernel, rfl, by decide +kernel, by decide +kernel⟩
/-- The same with the matrix state already that of the group, and entries of it in the queue. -/
theorem witness_MatrixAdmission_owned : ∃ (s : State) (t : Thread) (gr : Group), Issues s w0 t ∧ s.dev.groupOf w0 = some gr ∧
    (s.dev.core gr.core).baton = holderOf w0 gr ∧ (s.dev.core gr.core).owner = some gr.gid ∧ (s.dev.core gr.core).matrix ≠ [] ∧
    (s.dev.core gr.core).matrix.length < 64 :=
  ⟨st (dev [] id id fun c => { c with baton := .warp 0 0, owner := some 0, matrix := [⟨4, false, w0, 0, none, none, .msig, [], [], false⟩] }), _, _,
    ⟨rfl, rfl⟩, rfl, rfl, rfl, by decide +kernel, by decide +kernel⟩
/-- The last column, and every one: where MAMAX and MRD may read. -/
theorem witness_MatrixAdmission_columns : ∃ (t : Thread) (sh : Shape), 1 ≤ t.shape sh.sh2 ∧ t.shape sh.sh1 + t.shape sh.sh2 ≤ 128 ∧
    t.shape sh.sh1 = 127 := ⟨newWarp [] 0 0 0, shapeOf [0, 127, 1], by decide +kernel, by decide +kernel, by decide +kernel⟩
theorem witness_MatrixAdmission_mrdScratch : ∃ (s : State) (t : Thread) (gr : Group) (sh : Shape) (k : Core), Issues s w0 t ∧
    s.dev.groupOf w0 = some gr ∧ k = (s.dev.onCore gr.core fun k => k.owned gr.gid).core gr.core ∧ 1 ≤ t.shape sh.sh2 ∧
    t.shape sh.sh1 + t.shape sh.sh2 ≤ 128 ∧ t.taking 7 ≠ 0 ∧ t.shape sh.sh5 = 0 ∧ signalOf sh.sh6.value.toNat = none ∧ sh.sh0.value = 1 ∧
    t.shape sh.sh2 * mrdBytes 9 ≤ t.shape sh.sh4 * 16 ∧ t.unitAddr sh.sh3 % mrdBytes 9 = 0 ∧
    ∀ i ∈ maskLanes (t.taking 7), gr.ownSpan (t.unitAddr sh.sh3 + i * (t.shape sh.sh4 * 16)) (t.shape sh.sh2 * mrdBytes 9) = true :=
  ⟨st (holding [] id id), _, _, shapeOf [1, 0, 128, 2, 16], _, ⟨rfl, rfl⟩, rfl, rfl, by decide +kernel, by decide +kernel, by decide +kernel,
    by decide +kernel, by decide +kernel, by decide +kernel, by decide +kernel, by decide +kernel, by decide +kernel⟩
theorem witness_MatrixAdmission_mrdRegisters : ∃ (s : State) (t : Thread) (sh : Shape), Issues s w0 t ∧ sh.sh0.value ≠ 1 ∧
    t.shape sh.sh2 * mrdBytes 2 % 4 = 0 ∧ t.shape sh.sh2 * mrdBytes 2 ≤ 64 ∧ (96 : BitVec 7).toNat + t.shape sh.sh2 * mrdBytes 2 / 4 ≤ 112 ∧
    Allotted s w0 [96] ∧ (s.dev.onCore c0 fun k => k.owned 0).allotTrap w0 (regRun 96 (t.shape sh.sh2 * mrdBytes 2 / 4)) = none :=
  ⟨st (holding [] id id), _, shapeOf [0, 0, 16], ⟨rfl, rfl⟩, by decide +kernel, by decide +kernel, by decide +kernel, by decide +kernel,
    rfl, by decide +kernel⟩
/-- A core that group 0 owns with slots 6 and 7 filled in a format. -/
def slotted (fmt : BitVec 4) (c : Core) : Core :=
  { c with owner := some 0, slots := List.replicate 6 WSlot.reset ++ List.replicate 2 { WSlot.reset with admFmt := some fmt, admBands := 16 } }
theorem witness_MatrixAdmission_mma : ∃ (s : State) (t : Thread) (gr : Group) (sh : Shape), Issues s w0 t ∧ s.dev.groupOf w0 = some gr ∧
    (let slots := ((s.dev.core gr.core).slots.drop 6).take 2
     let segs := slots.map fun x => elementBytes 0 (8 * x.admBands)
     let rows := (maskLanes (t.taking 7)).map fun l => (l, ((t.lane l).get 4).toNat)
     sh.sh0.value.extractLsb' 0 4 = 0 ∧ (sh.sh0.value.extractLsb' 4 3).toNat + 1 = 2 ∧ (s.dev.core gr.core).owner = some gr.gid ∧
     formatsAgree 0 slots true = true ∧ (∀ x ∈ segs.take 1, x ≤ 16 * t.shape sh.sh1) ∧
     (∀ x ∈ rows, x.2 % 16 = 0 ∧ ∀ j < 2, gr.ownSpan (x.2 + 16 * t.shape sh.sh1 * j) (segs.getD j 0) = true) ∧ t.taking 7 ≠ 0 ∧
     Machine.isNarrow 0 = false ∧ Allotted s w0 [4]) :=
  ⟨st (holding [] id (slotted 0)), _, _, shapeOf [0x10, 8], ⟨rfl, rfl⟩, rfl, by decide +kernel, by decide +kernel, by decide +kernel,
    by decide +kernel, by decide +kernel, by decide +kernel, by decide +kernel, by decide +kernel, rfl⟩
theorem witness_MatrixAdmission_mmaNarrow : ∃ (s : State) (t : Thread) (gr : Group) (sh : Shape), Issues s w0 t ∧ s.dev.groupOf w0 = some gr ∧
    (let slots := ((s.dev.core gr.core).slots.drop 6).take 2
     let segs := slots.map fun x => elementBytes 14 (8 * x.admBands)
     let rows := (maskLanes (BitVec.ofNat 32 (t.shape sh.sh2))).map fun i => (i, t.unitAddr sh.sh3 + i * (t.shape sh.sh4 * 16))
     formatsAgree 14 slots false = true ∧ (∀ x ∈ segs.take 1, x ≤ 16 * t.shape sh.sh1) ∧ rows ≠ [] ∧
     (∀ x ∈ rows, x.2 % 16 = 0 ∧ ∀ j < 2, gr.ownSpan (x.2 + 16 * t.shape sh.sh1 * j) (segs.getD j 0) = true) ∧
     Machine.isNarrow 14 = true ∧ t.unitAddr sh.sh5 % 16 = 0 ∧
     (∀ x ∈ rows, ∀ j < 2, gr.ownSpan (t.unitAddr sh.sh5 + 32 * x.1 + 4 * j) 4 = true) ∧ Allotted s w0 ((4 : BitVec 7) :: regRun 110 2)) :=
  ⟨st (holding [] id (slotted 14)), _, _, shapeOf [0x1E, 4, 5, 3, 8, 6], ⟨rfl, rfl⟩, rfl, by decide +kernel, by decide +kernel, by decide +kernel,
    by decide +kernel, by decide +kernel, by decide +kernel, by decide +kernel, rfl⟩
theorem witness_MatrixAdmission_mldb : ∃ (s : State) (t : Thread) (gr : Group) (sh : Shape) (x : List Nat × List Byte),
    Issues s w0 t ∧ s.dev.groupOf w0 = some gr ∧ (t.kpair 2).lo.toNat % 16 = 0 ∧ t.shape sh.sh1 = 16 ∧
    elementBytes 0 128 ≤ t.shape sh.sh0 * 16 ∧ signalOf sh.sh2.value.toNat = none ∧
    (s.dev.onCore gr.core fun k => k.owned gr.gid).mldbScratch gr 0 (t.kpair 2).lo.toNat (t.kpair 3).lo.toNat false 16 (t.shape sh.sh0) = some x :=
  let d := holding [] id id
  let g := (d.groupOf w0).getD (probeGroup 0 [])
  have h : ((d.onCore g.core fun k => k.owned g.gid).mldbScratch g 0 0 0 false 16 8).isSome = true := by decide +kernel
  ⟨st d, _, g, shapeOf [8, 16], _, ⟨rfl, rfl⟩, rfl, by decide +kernel, by decide +kernel, by decide +kernel, by decide +kernel,
    (Option.some_get h).symm⟩

/-- A core whose matrix queue holds one entry of group 0. -/
def queuedOp (op : MatrixOp) (c : Core) : Core := { c with owner := some 0, matrix := [⟨4, false, w0, 0, none, none, op, [], [], false⟩] }
theorem witness_MatrixEntryRun (op : MatrixOp) : ∃ (s : State) (e : MatrixEntry) (g : Group), s.dev.clocked = true ∧
    (s.dev.core c0).matrix = [e] ∧ s.dev.group e.gid = some g ∧ e.op = op :=
  ⟨st (dev [] id id (queuedOp op)), _, _, rfl, rfl, rfl, rfl⟩
theorem witness_MatrixEntryRun_mldb : ∃ (d : Dev) (g : Group) (e : MatrixEntry) (d1 : Dev),
    e.op = .mldb 2 0 1 16 [0, 1] [] none (.scr 0x100) [] 8 ∧ (d.core c0).matrix = [e] ∧ d.group 0 = some g ∧
    d.loadSlot ⟨0, 0, 0, []⟩ c0 g e 2 0 1 16 [0, 1] [] none (.scr 0x100) [] 8 = some d1 :=
  let op := MatrixOp.mldb 2 0 1 16 [0, 1] [] none (.scr 0x100) [] 8
  let d := dev [] id id (queuedOp op)
  have h : (d.loadSlot ⟨0, 0, 0, []⟩ c0 ((d.group 0).getD (probeGroup 0 [])) ⟨4, false, w0, 0, none, none, op, [], [], false⟩ 2 0 1 16 [0, 1] [] none (.scr 0x100) [] 8).isSome
    = true := by decide +kernel
  ⟨d, _, ⟨4, false, w0, 0, none, none, op, [], [], false⟩, _, rfl, rfl, rfl, (Option.some_get h).symm⟩
theorem witness_MatrixEntryRun_product : ∃ sl : WSlot, sl.fmt = some 0 ∧ sl.map ≠ [] :=
  ⟨{ WSlot.reset with fmt := some 0, map := [0, 3] }, rfl, by decide⟩

theorem witness_CopyAdmission : ∃ (s : State) (t : Thread) (gr : Group) (op : CopyOp) (sh : Shape), Issues s w0 t ∧
    s.dev.groupOf w0 = some gr ∧ t.taking 7 ≠ 0 ∧ FlagFree t 0 ∧ s.dev.admissionWaits w0 = false ∧
    s.dev.copyCommand (some gr) gr.core.die gr.ctx true false 2 3 0 1 sh t.kpair t.shape = .inl op ∧
    ((t.sreg 4).extractLsb' 30 2).toNat = gr.core.die ∧ (t.sreg 4).extractLsb' 16 10 = 0 :=
  ⟨plain [], _, _, _, shapeOf [16, 2, 1, 16, 0, 16, 0, 0x302], ⟨rfl, rfl⟩, rfl, by decide +kernel, rfl, by decide +kernel, rfl, by decide +kernel,
    by decide +kernel⟩
theorem witness_CopyAdmission_footprint : ∃ (s : State) (t : Thread) (sh : Shape), Issues s w0 t ∧ Allotted s w0 [112 + (2 : BitVec 4).setWidth 7] ∧
    sh.sh0.value.extractLsb' 0 4 = 2 ∧ (30 : BitVec 5).toNat ≤ 30 ∧ (t.arr 3).base.toNat / 2 ^ 54 ≠ 2 ∧
    t.takingIvl 2 (sh.sh1.value.toNat - 1024) (t.taking 7) = ⟨0, 63⟩ ∧ (t.arr 3).extent.toNat = 64 ∧ 64 ≤ t.shape sh.sh2 ∧
    spansMeet [(0x1000, 256)] [(0, 256)] = false ∧
    s.dev.operandBad ((s.dev.groupOf w0)) 0 0 (.virt 0) 256 4 = [] ∧ s.dev.admissionWaits w0 = false :=
  ⟨st (dev [] (fun t => { arr4 true false t with lanes := t.lanes.map fun l => l.setX 2 0 ⟨0, 63⟩ }) id id), _, shapeOf [2, 1024, 64], ⟨rfl, rfl⟩,
    rfl, by decide +kernel, by decide, by decide +kernel, by decide +kernel, by decide +kernel, by decide +kernel, by decide +kernel, by decide +kernel,
    by decide +kernel⟩
theorem witness_CopyAdmission_super : ∃ (s : State) (t : Thread), Issues s w0 t ∧ s.dev.isSuper w0 = true ∧ (t.kpair 2).toNat % 16 = 0 :=
  ⟨st (sup (dev [] id id id)), _, ⟨rfl, rfl⟩, by decide +kernel, by decide +kernel⟩

/-- A core whose copy queue holds one entry. -/
def copyE (op : CopyOp) (f : CopyEntry → CopyEntry) : CopyEntry :=
  let d := dev [] id id id
  f { d.copyEntry w0 ((d.group 0).getD (probeGroup 0 [])) none op with id := 4 }
def copyDev (op : CopyOp) (f : CopyEntry → CopyEntry) : Dev := dev [] id id fun c => { c with copy := [copyE op f] }
/-- What the statements ask of an entry that may run. -/
abbrev Running (d : Dev) (e : CopyEntry) : Prop := d.clocked = true ∧ (d.core c0).copy.find? (fun x => x.id = e.id) = some e ∧
  e.done = false ∧ (d.core c0).started e.id = true ∧ (d.core c0).copy.find? (fun x => !x.done) = some e ∧ d.mustWait c0 e = false
/-- A copy of 4 words of 4 bytes from 0x1000 to 0x1100. -/
def copy4 : CopyOp := .copy false false false (.virt 0x1100) (.virt 0x1000) none 4 4 1 1 4 0 4 0
theorem witness_CopyEvents_moves : ∃ (e : CopyEntry) (d1 : Dev), e.op = copy4 ∧ Running (copyDev copy4 id) e ∧ e.pos < 4 ∧
    (copyDev copy4 id).moveMany ⟨0, 0, 0, []⟩ c0 e.id 3 = some d1 :=
  have h : ((copyDev copy4 id).moveMany ⟨0, 0, 0, []⟩ c0 4 3).isSome = true := by decide +kernel
  ⟨copyE copy4 id, _, rfl, by decide +kernel, by decide +kernel, (Option.some_get h).symm⟩
theorem witness_CopyEvents_ends : ∃ (e : CopyEntry) (d1 : Dev), Running (copyDev copy4 fun e => { e with pos := 4 }) e ∧ 4 ≤ e.pos ∧ e.beat = none ∧
    e.unanswered = 0 ∧ (copyDev copy4 fun e => { e with pos := 4 }).endCopy c0 e = some d1 :=
  have h : ((copyDev copy4 fun e => { e with pos := 4 }).endCopy c0 (copyE copy4 fun e => { e with pos := 4 })).isSome = true := by decide +kernel
  ⟨copyE copy4 (fun e => { e with pos := 4 }), _, by decide +kernel, by decide +kernel, rfl, rfl, (Option.some_get h).symm⟩
theorem witness_CopyEvents_beat : ∃ (e : CopyEntry) (d1 : Dev), Running (copyDev copy4 fun e => { e with pos := 4, beat := some (0x1100, [(0x1100, [1])]) }) e ∧
    4 ≤ e.pos ∧ e.beat ≠ none ∧ (copyDev copy4 fun e => { e with pos := 4, beat := some (0x1100, [(0x1100, [1])]) }).flushBeat c0 e = some d1 :=
  have h : ((copyDev copy4 fun e => { e with pos := 4, beat := some (0x1100, [(0x1100, [1])]) }).flushBeat c0
    (copyE copy4 fun e => { e with pos := 4, beat := some (0x1100, [(0x1100, [1])]) })).isSome = true := by decide +kernel
  ⟨copyE copy4 (fun e => { e with pos := 4, beat := some (0x1100, [(0x1100, [1])]) }), _, by decide +kernel, by decide +kernel, by decide +kernel,
    (Option.some_get h).symm⟩
/-- The footprint of 4 words of an array at 0x1000, to 0x1100. -/
def foot4 : CopyOp := .footprint false (.virt 0x1000) 0 4 2 (.virt 0x1100) false
theorem witness_CopyEvents_footprint : ∃ (e : CopyEntry) (d1 : Dev), e.op = foot4 ∧ Running (copyDev foot4 id) e ∧ e.pos < 4 ∧
    (copyDev foot4 id).moveMany ⟨0, 0, 0, []⟩ c0 e.id 4 = some d1 :=
  have h : ((copyDev foot4 id).moveMany ⟨0, 0, 0, []⟩ c0 4 4).isSome = true := by decide +kernel
  ⟨copyE foot4 id, _, rfl, by decide +kernel, by decide +kernel, (Option.some_get h).symm⟩
theorem witness_CopyEvents_lease : ∃ e, e.op = .lease false 4 2 100 3 5 ∧ Running (copyDev (.lease false 4 2 100 3 5) id) e :=
  ⟨copyE (.lease false 4 2 100 3 5) id, rfl, by decide +kernel⟩
theorem witness_CopyEvents_unlease : ∃ (e : CopyEntry) (d1 : Dev), e.op = .unlease 0x10001 ∧ Running (copyDev (.unlease 0x10001) id) e ∧
    (copyDev (.unlease 0x10001) id).runUnlease c0 e 0x10001 = some d1 :=
  have h : ((copyDev (.unlease 0x10001) id).runUnlease c0 (copyE (.unlease 0x10001) id) 0x10001).isSome = true := by decide +kernel
  ⟨copyE (.unlease 0x10001) id, _, rfl, by decide +kernel, (Option.some_get h).symm⟩
theorem witness_CopyEvents_sig : ∃ (e : CopyEntry) (d1 : Dev), e.op = .sig ∧ Running (copyDev .sig id) e ∧ (copyDev .sig id).runSig c0 e = some d1 :=
  have h : ((copyDev .sig id).runSig c0 (copyE .sig id)).isSome = true := by decide +kernel
  ⟨copyE .sig id, _, rfl, by decide +kernel, (Option.some_get h).symm⟩
theorem witness_CopyEvents_reloc : ∃ (e : CopyEntry) (d1 : Dev), e.op = .reloc 0x1000 ∧ Running (copyDev (.reloc 0x1000) id) e ∧ e.pos = 0 ∧
    (copyDev (.reloc 0x1000) id).runReloc ⟨0, 0, 0, []⟩ c0 e 0x1000 = some d1 :=
  have h : ((copyDev (.reloc 0x1000) id).runReloc ⟨0, 0, 0, []⟩ c0 (copyE (.reloc 0x1000) id) 0x1000).isSome = true := by decide +kernel
  ⟨copyE (.reloc 0x1000) id, _, rfl, by decide +kernel, rfl, (Option.some_get h).symm⟩
theorem witness_CopyEvents_record : ∃ (d : Dev) (e : CopyEntry) (x : Rec) (d1 : Dev),
    (d.core c0).copy.find? (fun y => y.id = e.id && y.done) = some e ∧ e.record = some x ∧ d.completeRec c0 x = some d1 :=
  have h : ((copyDev copy4 fun e => { e with done := true, record := some rec1 }).completeRec c0 rec1).isSome = true := by decide +kernel
  ⟨copyDev copy4 fun e => { e with done := true, record := some rec1 }, copyE copy4 (fun e => { e with done := true, record := some rec1 }), rec1, _,
    by decide +kernel, rfl, (Option.some_get h).symm⟩
theorem witness_CopyEvents_expiry : ∃ (d : Dev) (l : Lease), (d.die 0).leases[15]? = some l ∧ l.valid = true ∧ l.expiry ≤ d.now :=
  ⟨{ dev [] id id id with now := 700 }.onDie 0 fun k => { k with leases := k.leases.set 15 { Lease.reset with valid := true, expiry := 700 } }, _, rfl,
    by decide +kernel, by decide +kernel⟩
theorem witness_CopyEvents_flush : ∃ (d : Dev) (e : DWord × DWord × Nat × Nat), (d.core c0).footprints[0]? = some e ∧ e.2.2.2 + 10000 ≤ d.now :=
  ⟨{ dev [] id id fun c => { c with footprints := [(1, 2, 0, 5)] } with now := 10005 }, _, rfl, by decide +kernel⟩
/-! ## Witnesses: scheduling, messages, combining -/

/-- A record of one warp that needs no private space. -/
def smallRec (slot : Option Nat) : Rec :=
  Rec.entering (List.replicate 40 0 ++ natBytes (field 43 4 + field 41 1 + field 36 1) 8 ++ List.replicate 16 0) 0x1000 0 slot 0 0 false none .queue
/-- A device with slot 5 mapped to context 0, a reservation of 1000 core-µs in 10 µs, and a pool of a record. -/
def slotRegs : List (Reg × DWord) := [(.qctl 5, 0x8000000000000000), (.qperiod 5, 10), (.qbudget 5, 1000)]
def pooled : Dev := { Dev.reset with regs := slotRegs }.onDie 0 fun k => { k with pool := [smallRec none] }
theorem witness_SchedulingEvents_dispatch : ∃ d1, pooled.clocked = true ∧ pooled.heads 0 = [] ++ smallRec none :: [] ∧
    pooled.takeRec 0 0 (smallRec none) = some d1 :=
  have h : (pooled.takeRec 0 0 (smallRec none)).isSome = true := by decide +kernel
  ⟨_, rfl, by decide +kernel, (Option.some_get h).symm⟩
/-- A batch of 2 records at a virtual address of a context without page tables. -/
def batch2 : Batch := ⟨0x1000, 2, 0, none, 0, .queue, 0, 0, 0, false⟩
theorem witness_SchedulingEvents_batch : ∃ (d d1 : Dev), d.enterFirst 1 [] (d.die 1).batches = some d1 :=
  let d := Dev.reset.onDie 1 fun k => { k with batches := [batch2] }
  have h : (d.enterFirst 1 [] (d.die 1).batches).isSome = true := by decide +kernel
  ⟨d, _, (Option.some_get h).symm⟩
theorem witness_SchedulingEvents_spill : ∃ (d : Dev) (r : Rec), d.returning 2 = some (7, r) :=
  ⟨Dev.reset.onDie 2 fun k => { k with spill := [(7, smallRec none)] }, smallRec none, by decide +kernel⟩
theorem witness_SchedulingEvents_descriptor : ∃ (d : Dev) (a : Nat) (c : BitVec 8), d.on = true ∧ d.slotMapped 5 = true ∧ d.tailOf 5 ≠ d.headOf 5 ∧
    (d.slot 5).batch = none ∧ d.descriptor 5 = .inr (a, c) :=
  ⟨{ Dev.reset with regs := (.qtail 5, 1) :: slotRegs }, 0, causeXlate, rfl, by decide +kernel, by decide +kernel, rfl, by decide +kernel⟩
/-- Memory with context 0 valid, its tables mapping its first GiB onto LPA 0, a launch descriptor of one record at 0x100000, and
its export table at 0x90000 naming the frame at LPA 0x200000, for writing. -/
def tables : List Host.Cell :=
  [(0x80007, 0x80), (0x8000A, 0x0A), (0x8006A, 9), (0x90002, 0x20), (0x90007, 0xC0), (0xA0000, 0xB0), (0xA0007, 0x80), (0xB0006, 0x06),
   (0xB0007, 0xC0), (0x100002, 0x11), (0x100008, 1)]
/-- A device with those, slot 5 mapped, its ring at 0x100000, its tail word at 0x120000. -/
def tabledDev (regs : List (Reg × DWord)) : Dev :=
  { Dev.reset with mem := tables, regs := regs ++ (.ctxbase, 0x80000) :: (.qring 5, 0x100000) :: (.qtaila 5, 0x120000) :: slotRegs }
/-- The same device, the descriptor's frame at LPA 0x100000 poisoned, with its summary bit. -/
def poisonedDev : Dev :=
  let d := tabledDev [(.qtail 5, 1)]
  { d with mem := mapPut (mapPut d.mem (d.mapBase 0) (frameIndex 0x100000) true) (d.mapBase 0 + 0x2C00000) (frameIndex 0x100000 / 512) true }
theorem witness_SchedulingEvents_poisoned : ∃ (d : Dev) (a : Nat), d.on = true ∧ d.slotMapped 5 = true ∧ d.tailOf 5 ≠ d.headOf 5 ∧
    (d.slot 5).batch = none ∧ d.descriptor 5 = .inr (a, causePoison) :=
  ⟨poisonedDev, 0x100000, rfl, by decide +kernel, by decide +kernel, rfl, by decide +kernel⟩
theorem witness_SchedulingEvents_feeds : ∃ (d : Dev) (a : Nat) (b : Batch), d.on = true ∧ d.slotMapped 5 = true ∧ d.tailOf 5 ≠ d.headOf 5 ∧
    (d.slot 5).batch = none ∧ d.descriptor 5 = .inl (a, b) :=
  have h : ((tabledDev [(.qtail 5, 1)]).descriptor 5).isLeft = true := by decide +kernel
  match e : (tabledDev [(.qtail 5, 1)]).descriptor 5, h with
  | .inl (a, b), _ => ⟨tabledDev [(.qtail 5, 1)], a, b, rfl, by decide +kernel, by decide +kernel, rfl, e⟩
theorem witness_SchedulingEvents_complete : ∃ (d : Dev) (g : Group) (d1 : Dev), d.group 0 = some g ∧ d.groupIdle g = true ∧
    (∀ x ∈ g.warps, x.loss = false) ∧ (d.sign g.record).completeRec g.core g.record = some d1 :=
  let d := dev [] (fun t => { t with ended := true, clause := none }) id id
  let g := (d.group 0).getD (probeGroup 0 [])
  have h : ((d.sign g.record).completeRec g.core g.record).isSome = true := by decide +kernel
  ⟨d, g, _, rfl, by decide +kernel, by decide +kernel, (Option.some_get h).symm⟩
theorem witness_SchedulingEvents_deadline : ∃ d : Dev, d.slotMapped 5 = true ∧ (d.reg (.qperiod 5)).toNat ≠ 0 ∧ (d.slot 5).deadline ≤ d.now ∧
    (d.slot 5).partSusp = true :=
  ⟨{ Dev.reset with regs := slotRegs, slots := [{ Slot.reset 5 with deadline := 70, partSusp := true }], now := 70 }, by decide +kernel,
    by decide +kernel, by decide +kernel, rfl⟩
theorem witness_SchedulingEvents_overrun : ∃ d : Dev, (d.reg (.qperiod 5)).toNat ≠ 0 ∧ (d.slot 5).remain = 0 ∧ (d.slot 5).overrun = false ∧
    d.residents 5 ≠ 0 :=
  ⟨{ dev [] id (fun g => { g with record := { g.record with slot := some 5 } }) id with regs := slotRegs }, by decide +kernel, rfl, rfl, by decide +kernel⟩
/-- A device with one write on the register bus. -/
def onBus (d : Dev) (r : Reg) (v : DWord) : Dev := { d with regBus := [⟨r, v, none⟩] }
theorem witness_SchedulingEvents_notify : ∃ (d : Dev) (w : RegWrite) (at_ : Target), d.regBus = [w] ∧ d.on = true ∧ w.reg = .qnotify 5 ∧
    d.tailWord 5 true = .inl at_ ∧ d.placeWaits at_ 4 = false ∧ (d.sideWrite at_ (natBytes 3 4)).slotMapped 5 = true :=
  ⟨onBus (tabledDev []) (.qnotify 5) 3, _, .mem ⟨none, 0x120000⟩ { page.leaf with size := 0x40000000, attr := 0, frame := 0 } 0x120000, rfl, rfl, rfl, by decide +kernel,
    by decide +kernel, by decide +kernel⟩
theorem witness_SchedulingEvents_map : ∃ (d : Dev) (w : RegWrite) (v : Nat), d.regBus = [w] ∧ d.on = true ∧ w.reg = .qctl 5 ∧
    bits w.value 63 63 = 1 ∧ d.slotMapped 5 = false ∧ (d.storeReg (.qctl 5) w.value).readTail 5 = .inl v :=
  ⟨onBus (tabledDev [(.qctl 5, 0)]) (.qctl 5) 0x8000000000000000, _, 0, rfl, rfl, rfl, by decide +kernel, by decide +kernel, by decide +kernel⟩
theorem witness_SchedulingEvents_unmap : ∃ (d : Dev) (w : RegWrite) (v : Nat), d.regBus = [w] ∧ d.on = true ∧ w.reg = .qctl 5 ∧
    bits w.value 63 63 = 0 ∧ d.slotMapped 5 = true ∧ d.readTail 5 = .inl v :=
  ⟨onBus (tabledDev []) (.qctl 5) 0, _, 0, rfl, rfl, rfl, by decide +kernel, by decide +kernel, by decide +kernel⟩
/-- A warp between clauses, its frontier given; its next clause, a header and DONE, stands at 0x1000. -/
def between (f : List Entry) (n : Nat) : Dev :=
  { dev [] (fun t => { t with clause := none, frontier := f, loopCount := n }) id id with mem := [(0x201000, 4), (0x201003, 0x80), (0x201007, 0xE2)] }
theorem witness_SchedulingEvents_issue : ∃ (d : Dev) (p : ThreadRef × Thread) (d1 : Dev), d.slotChoice c0 0 = some (p.1, p.2) ∧ (d.takeSlot p.1).startClause p.1 = some d1 :=
  have ⟨p, d1, h, h2⟩ := both (x := (between [⟨0x1000, 9, 5, 0, 0x1000⟩] 0).slotChoice c0 0) (f := fun p => ((between [⟨0x1000, 9, 5, 0, 0x1000⟩] 0).takeSlot p.1).startClause p.1)
    (by decide +kernel)
  ⟨_, p, d1, h, h2⟩
theorem witness_SchedulingEvents_starved : ∃ (d : Dev) (p : ThreadRef × Thread) (d1 : Dev), d.slotChoice c0 0 = some (p.1, p.2) ∧ (d.takeSlot p.1).startClause p.1 = some d1 ∧
    ∃ e ∈ p.2.frontier, 992 ≤ e.wait := by
  obtain ⟨p, d1, h, h2⟩ := both (x := ((between [⟨0x1000, 9, 5, 992, 0x1000⟩] 0).slotChoice c0 0).filter fun p => p.2.frontier.any fun e => 992 ≤ e.wait)
    (f := fun p => ((between [⟨0x1000, 9, 5, 992, 0x1000⟩] 0).takeSlot p.1).startClause p.1) (by decide +kernel)
  obtain ⟨h, h3⟩ := Option.filter_eq_some_iff.mp h
  exact ⟨_, p, d1, h, h2, by simpa using h3⟩
theorem witness_SchedulingEvents_loop : ∃ (d : Dev) (r : ThreadRef) (t : Thread), d.thread r = some t ∧ (∃ e1 e2 rest, t.frontier = e1 :: e2 :: rest) ∧
    t.loopCount = 64 ∧ (∀ e ∈ t.frontier, e.wait < 992) ∧ ((d.slotChoice c0 0).bind fun p => (d.takeSlot p.1).startClause p.1).isSome = true :=
  ⟨between [⟨0x1000, 9, 1, 0, 0x1000⟩, ⟨0x1000, 8, 4, 5, 0x1000⟩] 64, w0, _, rfl, ⟨_, _, [], rfl⟩, rfl, by decide +kernel, by decide +kernel⟩
theorem witness_SchedulingEvents_sequencer : ∃ (d : Dev) (t : Thread) (d1 : Dev), d.thread (.seq c0 true) = some t ∧ t.ended = false ∧
    d.eligible (.seq c0 true) t = true ∧ d.startClause (.seq c0 true) = some d1 :=
  let d : Dev := { dev [] id id (fun c => { c with copySeq := some (prog false) }) with mem := [(0x201000, 4), (0x201003, 0x80), (0x201007, 0xE2)] }
  have h : (d.startClause (.seq c0 true)).isSome = true := by decide +kernel
  ⟨d, _, _, rfl, rfl, by decide +kernel, (Option.some_get h).symm⟩
/-! ## Witnesses: messages -/

/-- A message of package 7, die 2, context 0, job 3, class 4, of a kind and sequence, for LPA 0x200200. -/
def msgOf (kind : Nat) (seq : Nat) (operand : Nat) (p : Payload) : Msg :=
  ⟨⟨BitVec.ofNat 4 kind, 0, 3, 0, 7, 2, 0, BitVec.ofNat 32 seq, BitVec.ofNat 8 operand, 4, 0, 3, 0, 0x200200⟩, p⟩
/-- A device whose package number is fixed, with the export table of `tables`. -/
def netDev : Dev := { tabledDev [(.pkgcfg, 0x8000000000000000)] with cores := [{ Core.reset c0 with tlb := [page] }] }
/-- A flow of that source that expects sequence 6, has abandoned 9 and answered 5. -/
def flow (d : Dev) : Dev :=
  d.setFlow ⟨7, 2, 4, 6, [], [(5, d.responseTo (msgOf 0 5 0 (.bytes [1])) 0 .none)], [9]⟩

theorem witness_MessagesArrive_next : ∃ (d d1 : Dev) (m : Msg), d.on = true ∧ m.header.kind = 0 ∧ d.linkUp = true ∧
    (d.flowIn m.header).abandoned.contains m.header.seq = false ∧ m.header.seq = (d.flowIn m.header).next ∧
    d.mayConsume (d.receivingDie m) m.header = true ∧ d.handle m = .ack .none d1 :=
  ⟨flow netDev, _, msgOf 0 6 0 (.bytes [1, 2]), rfl, rfl, by decide +kernel, by decide +kernel, by decide +kernel, by decide +kernel, rfl⟩
theorem witness_MessagesArrive_again : ∃ (d : Dev) (m : Msg) (a : BitVec 32 × Msg), d.on = true ∧ d.linkUp = true ∧
    (d.flowIn m.header).abandoned.contains m.header.seq = false ∧ 2 ^ 31 ≤ (m.header.seq - (d.flowIn m.header).next).toNat ∧
    (d.flowIn m.header).answered.find? (fun a => a.1 = m.header.seq) = some a :=
  ⟨flow netDev, msgOf 0 5 0 (.bytes [1]), _, rfl, by decide +kernel, by decide +kernel, by decide +kernel, rfl⟩
/-- A device of the network whose package number is not fixed. -/
def unnumbered : Dev := netDev.setReg .pkgcfg 0
theorem witness_MessagesArrive_unnumbered : ∃ (d : Dev) (m p q n l a : Msg), d.on = true ∧ d.linkUp = false ∧ m.header.kind = 0 ∧
    p.header.kind = 9 ∧ headerBad p.header = false ∧ q.header.kind = 10 ∧ headerBad q.header = false ∧ n.header.kind = 7 ∧
    n.header.operand = 6 ∧ headerBad n.header = false ∧ l.header.kind = 8 ∧ headerBad l.header = false ∧ a.header.kind = 7 ∧
    a.payload = .read 8 ∧ headerBad a.header = false :=
  ⟨unnumbered, msgOf 0 6 0 (.bytes [1, 2]), msgOf 9 0 1 .none, msgOf 10 0 1 .none, msgOf 7 0 6 (.podNotice 2 5 true), msgOf 8 0 0 .none,
    msgOf 7 6 7 (.read 8), by decide +kernel⟩
theorem witness_MessagesArrive_store : ∃ (d : Dev) (m : Msg) (b : List Byte), d.on = true ∧ m.header.kind = 0 ∧ headerBad m.header = false ∧
    d.resetting m.header.tgtCtx.toNat = false ∧ (let d := d.noteExports m.header.tgtCtx.toNat m.header.lpa.toNat
    d.refuses m.header true = false ∧ d.inHold m.header.lpa.toNat = false ∧ m.payload = .bytes b ∧
    d.waveHolds m.header.lpa.toNat b.length = false) :=
  ⟨flow netDev, msgOf 0 6 0 (.bytes [1, 2]), _, rfl, rfl, by decide +kernel, by decide +kernel, by decide +kernel, by decide +kernel, rfl, by decide +kernel⟩
theorem witness_MessagesArrive_refused : ∃ (d : Dev) (m : Msg), d.on = true ∧ m.header.kind = 1 ∧ headerBad m.header = false ∧
    d.resetting m.header.tgtCtx.toNat = false ∧ (d.noteExports m.header.tgtCtx.toNat m.header.lpa.toNat).refuses m.header true = true :=
  ⟨{ netDev with mem := [] }, msgOf 1 6 0 (.atomic false false 1 2), rfl, rfl, by decide +kernel, by decide +kernel, by decide +kernel⟩
theorem witness_MessagesArrive_resetting : ∃ (d : Dev) (m : Msg), d.on = true ∧ headerBad m.header = false ∧
    d.resetting m.header.tgtCtx.toNat = true :=
  ⟨{ netDev with sweeps := [⟨0, 0, 1, 2, false⟩] }, msgOf 0 6 0 (.bytes [1, 2]), rfl, by decide +kernel, by decide +kernel⟩
theorem witness_MessagesArrive_discarded : ∃ h : Header, 11 ≤ h.kind.toNat := ⟨(msgOf 11 0 0 .none).header, by decide⟩
theorem witness_MessagesArrive_load : ∃ (d : Dev) (m : Msg), d.on = true ∧ m.header.kind = 7 ∧ headerBad m.header = false ∧ m.payload = .read 8 ∧
    d.linkUp = true ∧ (let d := d.noteExports m.header.tgtCtx.toNat m.header.lpa.toNat
    d.refuses m.header false = false ∧ d.bad m.header.lpa.toNat = false) :=
  ⟨netDev, msgOf 7 6 7 (.read 8), rfl, rfl, by decide +kernel, rfl, by decide +kernel, by decide +kernel, by decide +kernel⟩
theorem witness_MessagesArrive_loadFails : ∃ (d : Dev) (m : Msg), d.on = true ∧ m.header.kind = 7 ∧ headerBad m.header = false ∧ m.payload = .read 8 ∧
    d.linkUp = true ∧ (let d := d.noteExports m.header.tgtCtx.toNat m.header.lpa.toNat
    d.refuses m.header false = false ∧ d.bad m.header.lpa.toNat = true) :=
  ⟨{ netDev with badLines := [0x200200 / 128] }, msgOf 7 6 7 (.read 8), rfl, rfl, by decide +kernel, rfl, by decide +kernel, by decide +kernel,
    by decide +kernel⟩
theorem witness_MessagesArrive_loadRefused : ∃ (d : Dev) (m : Msg), d.on = true ∧ m.header.kind = 7 ∧ headerBad m.header = false ∧
    m.payload = .read 8 ∧ d.linkUp = true ∧ (d.noteExports m.header.tgtCtx.toNat m.header.lpa.toNat).refuses m.header false = true :=
  ⟨{ netDev with mem := [] }, msgOf 7 6 7 (.read 8), rfl, rfl, by decide +kernel, rfl, by decide +kernel, by decide +kernel⟩
theorem witness_MessagesArrive_notice : ∃ (d : Dev) (m : Msg) (b : Barrier), d.on = true ∧ m.header.kind = 7 ∧ m.header.operand = 6 ∧
    headerBad m.header = false ∧ d.linkUp = true ∧ m.payload = .podNotice 2 5 true ∧ d.bar (.wide 4 0 m.header.tgtCtx.toNat 2) = some b :=
  ⟨netDev, msgOf 7 0 6 (.podNotice 2 5 true), _, rfl, rfl, rfl, by decide +kernel, by decide +kernel, rfl, rfl⟩
theorem witness_MessagesArrive_loss : ∃ (d : Dev) (a c e : Msg), d.on = true ∧ a.header.kind = 8 ∧ headerBad a.header = false ∧ d.linkUp = true ∧
    (∀ x ∈ [a, c, e], d.inWave x.header = false ∧ d.inReply x.header = false) ∧
    (d.flowIn a.header).abandoned.contains a.header.seq = true ∧
    c.header.kind = 8 ∧ (d.flowIn c.header).abandoned.contains c.header.seq = false ∧ 2 ^ 31 ≤ (c.header.seq - (d.flowIn c.header).next).toNat ∧
    d.inWain c.header = false ∧ (d.flowIn c.header).answered.find? (fun a => a.1 = c.header.seq) = none ∧
    e.header.kind = 8 ∧ (d.flowIn e.header).abandoned.contains e.header.seq = false ∧ (e.header.seq - (d.flowIn e.header).next).toNat < 2 ^ 31 :=
  ⟨flow netDev, msgOf 8 9 0 .none, msgOf 8 4 0 .none, msgOf 8 7 0 .none, by decide +kernel⟩
theorem witness_MessagesArrive_probe : ∃ (d : Dev) (m : Msg), d.on = true ∧ m.header.kind = 9 ∧ headerBad m.header = false ∧ d.linkUp = true ∧
    ∀ upTo ns, m.payload ≠ .ask upTo ns :=
  ⟨netDev, msgOf 9 0 1 .none, rfl, rfl, by decide +kernel, by decide +kernel, fun _ _ h => by cases h⟩
/-- A device with a traverse of context 0, job 3, in pass 2. -/
def traversing : Dev := { netDev with traverses := [⟨0, 3, 2, 0, 0, 1, 4, 4, false, false, false, 4, 4, []⟩], now := 50000 }
theorem witness_MessagesArrive_report : ∃ (d : Dev) (m : Msg) (t : Traverse), d.on = true ∧ m.header.kind = 10 ∧ headerBad m.header = false ∧ d.linkUp = true ∧
    m.payload = .report 1 2 2 false false false ∧ d.root m.header.srcCtx.toNat = d.pkgNum ∧
    d.traverses.find? (fun t => t.ctx = m.header.srcCtx.toNat && t.job = m.header.job.toNat) = some t ∧ t.pass = m.header.operand.toNat :=
  ⟨traversing, msgOf 10 0 2 (.report 1 2 2 false false false), _, rfl, rfl, by decide +kernel, by decide +kernel, rfl, by decide +kernel, rfl, by decide +kernel⟩

theorem witness_MessagesArrive_ask : ∃ (d : Dev) (m : Msg), d.on = true ∧ m.header.kind = 9 ∧ headerBad m.header = false ∧ d.linkUp = true ∧
    m.payload = .ask 5 2000 := ⟨netDev, msgOf 9 0 0 (.ask 5 2000), rfl, rfl, by decide +kernel, by decide +kernel, rfl⟩
theorem witness_MessagesArrive_decided (clear : Bool) : ∃ (d : Dev) (m : Msg), d.on = true ∧ m.header.kind = 10 ∧ headerBad m.header = false ∧
    d.linkUp = true ∧ m.payload = .decided 5 clear :=
  ⟨netDev, msgOf 10 0 1 (.decided 5 clear), rfl, rfl, by revert clear; decide +kernel, by decide +kernel, rfl⟩

/-- A device whose die 2 keeps a message to package 7, sent at time 0. -/
def kept (f : Sent → Sent) : Dev :=
  let m : Msg := ⟨netDev.header 2 ⟨0, 0, 3, 0, 7, 0, 0x200200, 4⟩ 6, .bytes [1, 2, 3, 4]⟩
  { netDev with now := 2000000 }.onDie 2 fun k => { k with sent := [f ⟨m, .piece 5 0, (0, 3), some 10, 0, 0, 0, false, false, 0⟩] }
theorem witness_AnswersAndTimers_answer (code : Fin 6) : ∃ (d : Dev) (m : Msg) (x : Sent), d.on = true ∧ m.header.kind = 7 ∧
    m.header.operand.toNat = code.val ∧ headerBad m.header = false ∧ d.sentFor m = some x ∧ m.payload = .none :=
  ⟨kept id, msgOf 7 6 code.val .none, _, rfl, rfl, by revert code; decide +kernel, by revert code; decide +kernel, rfl, rfl⟩
theorem witness_AnswersAndTimers_retry : ∃ (d : Dev) (x : Sent), d.on = true ∧ (d.die 2).sent[0]? = some x ∧ x.doubt = false ∧ x.retry = true ∧
    x.last + 1000 ≤ d.now := ⟨kept fun x => { x with retry := true, last := 1999000 }, _, rfl, rfl, rfl, rfl, by decide +kernel⟩
theorem witness_AnswersAndTimers_resend : ∃ (d : Dev) (x : Sent), d.on = true ∧ (d.die 2).sent[0]? = some x ∧ x.doubt = false ∧ x.retry = false ∧
    x.last + 100000 ≤ d.now ∧ x.resends < d.resendLimit := ⟨kept id, _, rfl, rfl, rfl, rfl, by decide +kernel, by decide +kernel⟩
theorem witness_AnswersAndTimers_doubt : ∃ (d : Dev) (x : Sent), d.on = true ∧ (d.die 2).sent[0]? = some x ∧ x.doubt = false ∧ x.retry = false ∧
    (d.die 2).doubts < 64 ∧ d.resendLimit ≤ x.resends ∧ x.last + d.lossTimeout ≤ d.now :=
  ⟨{ kept (fun x => { x with resends := 15 }) with now := 10 ^ 9 }, _, rfl, rfl, rfl, rfl, by decide +kernel, by decide +kernel, by decide +kernel⟩
theorem witness_AnswersAndTimers_loss : ∃ (d : Dev) (x : Sent), d.on = true ∧ (d.die 2).sent[0]? = some x ∧ x.doubt = true ∧ x.noticed + 100000 ≤ d.now :=
  ⟨kept fun x => { x with doubt := true, noticed := 1900000 }, _, rfl, rfl, rfl, by decide +kernel⟩
theorem witness_AnswersAndTimers_held : ∃ (d : Dev) (t op p : Nat) (w : BitVec 16),
    (d.dies.flatMap fun (k : Die) => k.retried.map fun x => (k.idx, x))[0]? = some (1, t, .piece op p w) ∧ t + 1000 ≤ d.now ∧
    d.inHold (d.heldKey (.piece op p w)).2 = false ∧ d.waveHolds (d.heldKey (.piece op p w)).2 16 = false ∧
    ((d.die 1).retried.takeWhile fun y => y.2 ≠ .piece op p w) = [] :=
  ⟨{ netDev with now := 1000 }.onDie 1 fun k => { k with retried := [(0, .piece 5 0 0)] }, 0, 5, 0, 0, rfl, by decide +kernel, by decide +kernel,
    by decide +kernel, by decide +kernel⟩
theorem witness_AnswersAndTimers_timers : ∃ (d : Dev) (y : Notice) (t : Traverse) (b : Budget), d.on = true ∧ d.notices[0]? = some y ∧
    y.last + 100000 ≤ d.now ∧ (∀ z ∈ d.notices.take 0, sameImage z y = false) ∧ d.traverses.find? (fun t => t.ctx = 0 && t.job = 3) = some t ∧
    t.passStart + 50000 ≤ d.now ∧ bits (d.reg .fabctl) 11 0 ≠ 0 ∧ d.lastPeriodic + bits (d.reg .fabctl) 11 0 * 1000 ≤ d.now ∧
    (d.die 3).budgets[5]? = some b ∧ b.since + 1000 * max 1 (bits (d.reg (.abud 3 5)) 43 32) ≤ d.now :=
  ⟨{ traversing with notices := [⟨7, 0, 2, 5, true, 0⟩], now := 10 ^ 9, regs := (.fabctl, 100) :: traversing.regs }, _, _, _, rfl, rfl, by decide +kernel,
    by simp, rfl, by decide +kernel, by decide +kernel, by decide +kernel, rfl, by decide +kernel⟩

/-! ## Witnesses: combining -/

/-- A call of the warp's lane 0 on the object at LPA 0x200000, whose request is due at 100 ns, or its reply. -/
def calling (t : Transfer) : Dev := { withOp { oneOp (.call none false) id with access := .engine } with transfers := [t], now := 100 }
theorem witness_Combining_request : ∃ (d : Dev) (o : Op) (p : Piece), d.transfers[0]? = some (.request 5 0 100) ∧ 100 ≤ d.now ∧
    d.op 5 = some o ∧ o.object 0 = some (0x200000, 0) ∧ o.pieces.find? (fun p => p.lane = 0) = some p ∧ d.callWaits o p = false ∧
    d.dueLanes o 0x200000 = 0 :: [] :=
  ⟨calling (.request 5 0 100), _, _, rfl, by decide +kernel, rfl, by decide +kernel, rfl, by decide +kernel, by decide +kernel⟩
theorem witness_Combining_reply : ∃ d : Dev, d.transfers[0]? = some (.reply ⟨5, 0⟩ 9 0 none) := ⟨calling (.reply ⟨5, 0⟩ 9 0 none), rfl⟩
/-- Two requests for the built-in addition on that object, and the home core that serves it. -/
def adds : List Request := [⟨1, 5, 0x200000, 0, 0x100, 5, ⟨5, 0⟩, none, (0, 0), false, page.leaf⟩,
  ⟨2, 5, 0x200000, 0, 0x100, 7, ⟨5, 1⟩, none, (0, 0), false, page.leaf⟩]
def wain (q : List Request) (w : Option Wave) : Dev :=
  { dev [] id id id with
    cores := [{ Core.reset (homeCore 0x200000) with requests := q, waves := w :: List.replicate 15 none }], cycles := 5000 }
theorem witness_Combining_form : ∃ (d d1 : Dev), d.clocked = true ∧
    (upFrom 0 16).find? (fun k => ((d.core (homeCore 0x200000)).waves.getD k none).isNone) = some 0 ∧
    d.formFirst (homeCore 0x200000) 0 (d.core (homeCore 0x200000)).requests [] = some d1 :=
  have h : ((wain adds none).formFirst (homeCore 0x200000) 0 adds []).isSome = true := by decide +kernel
  ⟨wain adds none, _, rfl, by decide +kernel, (Option.some_get h).symm⟩
/-- The wave of those requests: ended, or at its first clause with a limit. -/
def wave (ended : Bool) : Wave :=
  let w := (wain [] none).newWave 0 ⟨0x1000, 1, 0, 1, 3, 0, 0⟩ 0x100 0x200000 adds
  if ended then w else { w with thread := { w.thread with ended := false, frontier := [⟨0x1000, 9, 3, 0, 0x1000⟩] } }
theorem witness_Combining_complete : ∃ (d : Dev) (w : Wave) (q : Request) (qs : List Request), (d.core (homeCore 0x200000)).waves.getD 0 none = some w ∧
    w.fault = none ∧ w.thread.ended = true ∧ (∀ x ∈ d.ops, x.thread ≠ .wave (homeCore 0x200000) 0) ∧ w.thread.loss = false ∧ w.reqs = q :: qs ∧
    d.mayReply (homeCore 0x200000) w.reqs = true :=
  ⟨wain [] (some (wave true)), wave true, _, _, rfl, rfl, rfl, by simp [wain, dev, Dev.reset], rfl, rfl, by decide +kernel⟩
theorem witness_Combining_limit : ∃ (d : Dev) (w : Wave) (e : Entry) (d1 : Dev), (d.core (homeCore 0x200000)).waves.getD 0 none = some w ∧
    w.fault = none ∧ w.limit ≠ 0 ∧ w.start + 1024 * w.limit ≤ d.cycles ∧ w.thread.ended = false ∧
    (w.thread.clause.elim w.thread.frontier fun x => insertEntry x.entry w.thread.frontier) = e :: [] ∧
    d.faultWave (homeCore 0x200000) 0 w causeMethod (w.offset e.clause) = some d1 :=
  let w := { wave false with start := 1928 }
  let e : Entry := ⟨0x1000, 9, 3, 0, 0x1000⟩
  have h : ((wain [] (some w)).faultWave (homeCore 0x200000) 0 w causeMethod (w.offset e.clause)).isSome = true := by decide +kernel
  ⟨wain [] (some w), w, e, _, rfl, rfl, by decide, by decide +kernel, rfl, rfl, (Option.some_get h).symm⟩
theorem witness_Combining_run : leadingRun adds = adds ∧ adds ≠ [] := by decide
/-! ## Witnesses: pre-emption, containment, power, the host -/

/-- A device with a slot changed, group 0 fed by it, and image slots for 4 gangs. -/
def slotDev (f : Slot → Slot) : Dev :=
  { dev [] id (fun g => { g with record := { g.record with slot := some 5 } }) id with
    slots := [f (Slot.reset 5)], now := 900, regs := (.savepool, 0x4000000000000) :: slotRegs }
theorem witness_Preemption_drain : ∃ d : Dev, (d.slot 5).drainEnd = some 900 ∧ (d.slot 5).expired = false ∧ 900 ≤ d.now ∧ d.undrained 5 ≠ 0 :=
  ⟨slotDev fun x => { x with drainEnd := some 900 }, rfl, rfl, by decide +kernel, by decide +kernel⟩
theorem witness_Preemption_saveTimer : ∃ d : Dev, (d.slot 5).saveEnd = some (900, 0) ∧ 900 ≤ d.now ∧ d.unfinished.contains 0 = true :=
  ⟨(slotDev fun x => { x with saveEnd := some (900, 0) }).onGang 0 fun k => { k with save := some 1 }, rfl, by decide +kernel, by decide +kernel⟩
theorem witness_Preemption_saveOver : ∃ d : Dev, (d.slot 5).saveEnd = some (900, 0) ∧ 900 ≤ d.now ∧ d.unfinished.contains 0 = false :=
  ⟨slotDev fun x => { x with saveEnd := some (900, 0) }, rfl, by decide +kernel, by decide +kernel⟩
theorem witness_Preemption_drained : ∃ d : Dev, (d.slot 6).drainEnd ≠ none ∧ d.undrained 6 = 0 :=
  ⟨{ slotDev id with slots := [{ Slot.reset 6 with drainEnd := some 1 }] }, by decide +kernel, by decide +kernel⟩
/-- That device with its gang marked for a save. -/
def saving (reason : Nat) : Dev := (slotDev id).onGang 0 fun k => { k with save := some reason }
theorem witness_Preemption_save : ∃ (d : Dev) (k : Gang), d.gang 0 = some k ∧ k.save = some 1 ∧
    (let gs := k.members.filterMap fun m => d.group m
     gs ≠ [] ∧ d.saveReady gs = true ∧
     ((d.freeRunsOfSlots gs.length).filter fun n => !d.spanHeld (d.imageBase n) (2 ^ 21 * gs.length)) ≠ [] ∧ ∃ g ∈ gs, ∃ x ∈ g.warps, x.ended = false) :=
  ⟨saving 1, _, rfl, rfl, by decide +kernel⟩
/-- A device that holds the image of a thermal migration, its bytes zero: one group before its grant. -/
def savedDev : Dev :=
  { slotDev id with
    groups := [], gangs := [], images := [⟨0, 0, 0, ⟨0, 1, 0, 0, [0], [], [], 0, [], some 2⟩, [probeGroup 0 []], [], [], [], [], none, 2, true⟩] }
/-- That image, the place of its restore, and what reloading its member answers. -/
def savedImage : Image := savedDev.headed <| savedDev.images.headD ⟨0, 0, 0, ⟨0, 1, 0, 0, [], [], [], 0, [], none⟩, [], [], [], [], [], none, 0, false⟩
def savedPlace : List CoreRef × Dev := (savedDev.restorePlace savedImage).getD ([], Dev.reset)
def reloaded : Reload × Nat × CoreRef :=
  let i := savedImage
  let p := savedPlace
  let work := i.groups.zip p.1
  let bars := mapIdx (fun k b => Barrier.ofBytes (p.2.homeSpan (p.2.imageBase i.first + 0xA400 + 512 * k) 512) b) 0 i.gang.bars
  let c := p.1.headD ⟨0, false, 0⟩
  let back := { i.gang with
    save := if i.gang.save = some i.reason then none else i.gang.save, die := c.die, quad := c.idx / 4, bars := if (i.groups.head?).any (fun (g : Group) => g.member == 0) then bars else i.gang.bars }
  (foldIdx (fun n (d : Dev) (p : Group × CoreRef) => d.putMember i n p.1 p.2) 0 { p.2 with gangs := p.2.gangs ++ [back] } work).reloadMembers ⟨0, 0, 0, []⟩ 0 work
theorem reload_ok : ∀ x : Reload × Nat × CoreRef, (match x.1 with | .ok _ => true | _ => false) = true → ∃ d k c, x = (.ok d, k, c)
  | (.ok d, k, c), _ => ⟨d, k, c, rfl⟩
theorem witness_Preemption_restore : savedDev.images.length = 1 ∧ savedImage.restoring = true ∧ savedDev.clocked = true ∧
    (savedDev.restorePlace savedImage).isSome = true ∧ savedImage.groups.length = 1 ∧
    ∃ d2 k at_, reloaded = (.ok d2, k, at_) :=
  ⟨by decide +kernel, by decide +kernel, by decide +kernel, by decide +kernel, by decide +kernel, reload_ok _ (by decide +kernel)⟩
theorem witness_Preemption_thermal : ∃ d : Dev, d.movable 0 ≠ [] ∧ (d.die 0).lastMove + 1000000 ≤ d.now :=
  ⟨{ slotDev id with coreTemp := [(c0, 96)], now := 4000000 }, by decide +kernel, by decide +kernel⟩
/-- That image in slot 0, of a group without warps. -/
def slot0 : Image := { savedImage with first := 0, restoring := false, groups := [{ probeGroup 0 [] with warps := [] }] }
theorem witness_Preemption_command : ∃ (d : Dev) (w : RegWrite), d.regBus = [w] ∧ d.on = true ∧ d.precmd = none ∧ w.reg = .precmd ∧
    d.images.find? (fun i => i.first = cmdImage w.value && !i.restoring) = some slot0 ∧ d.imageOk slot0 = true :=
  ⟨{ onBus Dev.reset .precmd 0 with images := [slot0] }, ⟨.precmd, 0, none⟩, rfl, rfl, rfl, rfl, rfl, by decide +kernel⟩
/-- The image of a group whose warp has an empty frontier in its state record and no pending frame: it cannot be restored. -/
def emptied : Image := { slot0 with groups := [{ probeGroup 0 [] with warps := [{ newWarp [] 0 0 0 with ended := false }] }] }
theorem witness_Preemption_badImage : ∃ (d : Dev) (w : RegWrite), d.regBus = [w] ∧ d.on = true ∧ d.precmd = none ∧ w.reg = .precmd ∧
    cmdOp w.value = 4 ∧ d.images.find? (fun i => i.first = cmdImage w.value && !i.restoring) = some emptied ∧ d.imageOk emptied = false :=
  ⟨{ onBus Dev.reset .precmd 0x4000000000000000 with images := [emptied] }, ⟨.precmd, 0x4000000000000000, none⟩, rfl, rfl, rfl, rfl,
    by decide +kernel, by decide +kernel, by decide +kernel⟩
/-- The same while PRESTAT says busy. -/
theorem witness_Preemption_busy : ∃ (d : Dev) (v : DWord), d.precmd = some v ∧ cmdOp v = 3 := ⟨{ Dev.reset with precmd := some 0x3000000000000000 }, _, rfl,
  by decide +kernel⟩
theorem witness_Preemption_noImage : Dev.reset.images.find? (fun i => i.first = cmdImage 0 && !i.restoring) = none := rfl
/-- Each command of PRECMD has a value. -/
theorem witness_Preemption_ops (n : Fin 6) : cmdOp (BitVec.ofNat 64 ((n.val + 1) * 2 ^ 60)) = n.val + 1 := by revert n; decide +kernel

/-- An error in an entry of a structure, or in its shared state, on core 0 of die 0. -/
def site (code : Nat) (shared : Bool) : ErrorSite := ⟨code, shared, 0, 0, some c0, some 0, 0x200000⟩
theorem witness_Containment_levels : ∃ d : Dev, d.on = true ∧ d.emergency = none ∧ siteLevel (site 5 false) = 1 ∧ siteLevel (site 1 false) = 2 ∧
    ((site 1 false).gang.bind d.gang).isSome = true ∧ siteLevel (site 4 false) = 3 ∧ siteLevel (site 1 true) = 4 ∧ siteLevel (site 18 false) = 5 ∧
    siteLevel (site 19 true) = 6 ∧ 1 ≤ (site 19 true).code ∧ (site 19 true).code ≤ 19 ∧ (site 1 true).die < 4 ∧ (site 5 false).core ≠ none :=
  ⟨dev [] id id id, by decide +kernel⟩
/-- An error in the scratch of a core that holds a wave of the site's context, and one where there is nothing of it. -/
theorem witness_Containment_wave : ∃ d e : Dev, d.on = true ∧ d.emergency = none ∧ siteLevel (site 2 false) = 2 ∧
    (site 2 false).gang.bind d.gang = none ∧ d.waveAt (site 2 false) = true ∧ e.on = true ∧ e.emergency = none ∧
    (site 2 false).gang.bind e.gang = none ∧ e.waveAt (site 2 false) = false :=
  ⟨{ dev [] id id (fun k => { k with waves := [some ((dev [] id id id).newWave 0 ⟨0x1000, 1, 0, 1, 3, 0, 0⟩ 0x100 0x200000
      [⟨1, 5, 0x200000, 0, 0x100, 5, ⟨5, 0⟩, none, (0, 0), false, page.leaf⟩])] }) with gangs := [] },
    { dev [] id id id with gangs := [] }, by decide +kernel⟩
theorem witness_Containment_soft : ∃ (d : Dev) (x : Nat × Nat × Nat), d.softErrors.find? (fun x => x.1 == 19) = some x ∧ d.now < x.2.2 + 1000000 ∧
    ∀ y, d.softErrors.find? (fun x => x.1 == 1) = some y → y.2.2 + 1000000 ≤ d.now :=
  ⟨{ dev [] id id id with softErrors := [(19, 4, 500001), (1, 2, 500000)], now := 1500000 }, _, rfl, by decide +kernel,
    fun y h => by cases h; decide +kernel⟩
theorem witness_Containment_kill : ∃ (d : Dev) (k : Gang), d.gang 0 = some k ∧ d.consumed k ≠ [] :=
  ⟨{ withOp (oneOp (.load 4 false) id) with badLines := [0x4000] }, _, rfl, by decide +kernel⟩
/-- A device with the audit of a record that has its signature, and budgets for replays on each die. -/
def audit (sig : DWord) : Audit := ⟨3, 0, 0, 0, 0, [], [], [], false, some sig, rec1, 0⟩
def auditDev (sig : DWord) (budget : DWord) : Dev :=
  { dev [] id id id with audits := [audit sig], regs := (upFrom 0 4).map fun k => (.abud k 2, budget) }
theorem witness_Containment_audit : ∃ (s : State) (a : Audit), s.dev.audits.find? (fun a => a.index = 3) = some a ∧ a.signature = some 9 ∧
    s.replays.find? (fun p => p.index = 3) = none ∧ s.dev.clocked = true ∧
    ⟨2, false, 63⟩ ∈ ((upFrom 0 4).filter fun k => k != a.die && s.dev.hasBudget k 2).flatMap computeCores :=
  ⟨st (auditDev 9 0x10000), _, rfl, rfl, rfl, rfl, by decide +kernel⟩
theorem witness_Containment_skipped : ∃ (s : State) (a : Audit), s.dev.audits.find? (fun a => a.index = 3) = some a ∧ a.signature = some 9 ∧
    s.replays.find? (fun p => p.index = 3) = none ∧ s.dev.clocked = true ∧
    ((upFrom 0 4).filter fun k => k != a.die && s.dev.hasBudget k 2) = [] :=
  ⟨st (auditDev 9 0), _, rfl, rfl, rfl, rfl, by decide +kernel⟩
/-- A replay of that audit whose record has run, something having ended it or not. -/
def replay (halted : Bool) : Replay :=
  ⟨3, 2, { dev [] (fun t => { t with ended := true, clause := none }) id id with shadow := some ⟨[], [], (0, 0, 0), halted⟩ }⟩
theorem witness_Containment_replay (halted : Bool) (sig : DWord) : ∃ (s : State) (a : Audit) (p : Replay),
    s.dev.audits.find? (fun a => a.index = 3) = some a ∧ a.signature = some sig ∧ s.replays.find? (fun p => p.index = 3) = some p ∧
    p.inconclusive a = halted ∧ p.finished a = true ∧ p.signature a = crc64 [] :=
  ⟨{ st (auditDev sig 0) with replays := [replay halted] }, audit sig, replay halted, rfl, rfl, rfl, by cases halted <;> rfl,
    by cases halted <;> rfl, rfl⟩
theorem witness_Containment_sweep (b : Bool) : ∃ (d : Dev) (w : Sweep), d.sweeps.find? (fun w => w.ctx == 3 && (w.announced == b)) = some w ∧
    d.waitingResets.find? (fun x => x.1 == 3) = none := by
  cases b
  · exact ⟨{ dev [] id id id with sweeps := [⟨3, 0, 1, 2, false⟩] }, _, rfl, rfl⟩
  · exact ⟨{ dev [] id id id with sweeps := [⟨3, 0, 1, 2, true⟩] }, _, rfl, rfl⟩
theorem witness_Containment_scrub : ∃ d : Dev, backed 0x200000 = true ∧ d.badLines.contains (0x200000 / 128) = true ∧ d.hasBudget (dieOf 0x200000) 1 = true :=
  ⟨{ dev [] id id id with badLines := [0x4000], regs := [(.abud 0 1, 0x10000)] }, by decide +kernel, by decide +kernel, by decide +kernel⟩

/-- A device whose power cap is 100 W, drawing 101 W or 99 W, with a step of the clock taken, and with hot places. -/
def warm (w c : Nat) : Dev :=
  { dev [] id id id with
    regs := [(.pwrctl, 100), (.thermctl, 0x45F55)], watts := w, capped := c, coreTemp := [(c0, 120)], stackTemp := [(11, 105)], now := 10000000 }
theorem witness_PowerAndBoot : ∃ (d e : Dev), d.clocked = true ∧ d.on = true ∧ d.emergency = none ∧ bits (d.reg .pwrctl) 11 0 < d.watts ∧ d.capped < 15 ∧
    e.watts < bits (e.reg .pwrctl) 11 0 ∧ e.capped ≠ 0 ∧ e.clocked = true ∧ (d.die 0).throttled = false ∧ d.anyCore (some 0) 105 = true ∧
    95 ≤ d.stackOf 11 ∧ (d.die (11 / 3)).hotStacks.contains 11 = false ∧ d.anyCore none 120 = true ∧ (∃ p ∈ d.stackTemp, 105 ≤ p.2) ∧
    (upFrom 0 4).find? (fun k => (diePorts k).contains 17) = some 3 ∧ (d.die 3).ports.contains 17 = true :=
  ⟨warm 101 14, warm 99 1, by decide +kernel⟩
theorem witness_PowerAndBoot_ends : ∃ d : Dev, d.on = true ∧ d.clocked = true ∧ (d.die 0).throttled = true ∧
    d.anyCore (some 0) (bits (d.reg .thermctl) 15 8) = false ∧ d.stackOf 2 < 95 ∧ (d.die (2 / 3)).hotStacks.contains 2 = true ∧
    (d.die 3).ports.contains 13 = false :=
  ⟨({ dev [] id id id with coreTemp := [(c0, 94)], stackTemp := [(2, 94)] }).onDie 0 fun k => { k with throttled := true, hotStacks := [2] }, by decide +kernel⟩
theorem witness_PowerAndBoot_loading : ∃ d : Dev, d.loading ≠ none := ⟨{ Dev.reset with loading := some 0x8000020000000000 }, by decide⟩
theorem witness_PowerAndBoot_off : ∃ d : Dev, d.on = false := ⟨{ Dev.reset with on := false }, rfl⟩
theorem witness_PowerAndBoot_emergency : ∃ d : Dev, d.emergency = some 0 ∧ 0 + 10000000 ≤ d.now :=
  ⟨{ Dev.reset with emergency := some 0, now := 10000000 }, rfl, by decide +kernel⟩
theorem witness_PowerAndBoot_commands (n : Fin 3) : ∃ (d : Dev) (w : RegWrite), d.regBus = [w] ∧ d.on = true ∧ w.reg = .bootcmd ∧
    bits w.value 63 62 = n.val + 1 :=
  ⟨onBus Dev.reset .bootcmd (BitVec.ofNat 64 ((n.val + 1) * 2 ^ 62)), _, rfl, rfl, rfl, by revert n; decide +kernel⟩

theorem witness_HostAndRegisters_staging : ∃ (d : Dev) (p : Option (List Byte) × Dev), d.on = true ∧ d.staging 0 (.write [1, 2, 3]) = some p :=
  have h : (({ dev [] id id id with regs := [(.stagebase, 0x20000000000)] } : Dev).staging 0 (.write [1, 2, 3])).isSome = true := by decide +kernel
  ⟨_, _, rfl, (Option.some_get h).symm⟩
theorem witness_HostAndRegisters_migrates : ∃ (d : Dev) (m : Migration), d.on = true ∧ (d.die 0).migration = some m ∧ d.emergency = none ∧
    d.hasBudget 0 4 = true ∧ d.revoking m.src m.size = false ∧ d.pinsBusy (TlbEntry.mapsSpan d m.src m.size) = false ∧ d.heldByWave 0 = false :=
  ⟨({ dev [] id id id with regs := [(.abud 0 4, 0x10000)] }).onDie 0 fun k => { k with migration := some ⟨0x200000, 0x400000, 4096, 0xB0000⟩ }, _,
    rfl, rfl, rfl, by decide +kernel, by decide +kernel, by decide +kernel, by decide +kernel⟩
theorem witness_HostAndRegisters_loading : ∃ (d : Dev) (v : DWord), d.on = true ∧ d.loading = some v :=
  ⟨{ Dev.reset with loading := some 0x8000020000000000 }, _, rfl, rfl⟩
theorem witness_HostAndRegisters_poison : ∃ (d : Dev) (v : DWord), d.on = true ∧ backed (poisonFrame v) = true ∧ dieOf (poisonFrame v) = 0 ∧
    d.hasBudget 0 5 = true ∧ bits v 63 62 = 2 ∧ d.pinsBusy (TlbEntry.mapsSpan d (poisonFrame v) 4096) = false :=
  ⟨{ dev [] id id id with regs := [(.abud 0 5, 0x10000)] }, 0x8000000000200000, by decide +kernel⟩
/-- A device whose context 0 has tables of each level at 0x40000, 0x42000 and 0x44000, with a leaf entry of 4 KiB at 0x44000 for the
frame at LPA 0x200000 and one of 2 MiB at 0x42010 for that at 0x400000, and MIGDST and MIGPTE set. -/
def leafDev (dst pte : DWord) : Dev :=
  { dev [] id id id with
    mem := [(0x40000, 0x42), (0x40007, 0x80), (0x42000, 0x44), (0x42007, 0x80), (0x42011, 4), (0x42016, 0x06), (0x42017, 0xC0),
      (0x44001, 2), (0x44006, 0x06), (0x44007, 0xC0), (0x80007, 0x80), (0x8000A, 0x10), (0x100000, 0x40), (0x100007, 0x80)]
    regs := [(.ctxbase, 0x80000), (.migdst 0, dst), (.migpte 0, pte)] }
theorem witness_HostAndRegisters_migcmd : ∃ (d : Dev) (v : DWord), d.on = true ∧ bits v 63 63 = 1 ∧ bits v 62 61 = 0 ∧ (d.die 0).migration = none ∧
    d.migrationBad 0 (bits v 42 12 * 4096) (bits (d.reg (.migdst 0)) 42 12 * 4096) 4096 (bits (d.reg (.migpte 0)) 42 4 * 16) = false ∧
    (d.die 0).redirects.length < 4096 :=
  ⟨leafDev 0x500000 0x44000, 0x8000000000200000, by decide +kernel⟩
theorem witness_HostAndRegisters_migcmd2m : ∃ (d : Dev) (v : DWord), d.on = true ∧ bits v 63 63 = 1 ∧ bits v 62 61 = 1 ∧ (d.die 0).migration = none ∧
    d.migrationBad 0 (bits v 42 12 * 4096) (bits (d.reg (.migdst 0)) 42 12 * 4096) 0x200000 (bits (d.reg (.migpte 0)) 42 4 * 16) = false ∧
    (d.die 0).redirects.length < 4096 :=
  ⟨leafDev 0x600000 0x42010, 0xA000000000400000, by decide +kernel⟩
theorem witness_HostAndRegisters_redirect : ∃ (d : Dev) (v : DWord), d.on = true ∧ bits v 63 63 = 1 ∧ bits v 62 61 = 2 ∧ (d.die 0).migration = none ∧
    (d.die 0).redirects.any (fun r => r.1 == bits v 42 12 * 4096) = true ∧
    d.migrationBad 0 (bits v 42 12 * 4096) 0 4096 0 = true :=
  ⟨(dev [] id id id).onDie 0 fun k => { k with redirects := [(0x200000, 0x400000, 4096)] }, 0xC000000000200000, by decide +kernel⟩
theorem witness_HostAndRegisters_busy : ∃ (d : Dev) (v : DWord), d.on = true ∧ bits v 63 63 = 1 ∧ bits v 62 61 = 1 ∧ (d.die 0).migration ≠ none :=
  ⟨(dev [] id id id).onDie 0 fun k => { k with migration := some ⟨0x200000, 0x400000, 4096, 0xB0000⟩ }, 0xA000000000200000, by decide +kernel⟩
theorem witness_HostAndRegisters_fields : bits 0x80000004#64 31 31 = 1 ∧ bits 0x2000000000000000#64 61 61 = 1 ∧ bits 0x8000000000000005#64 63 63 = 1 ∧
    bits 0xF0000#64 63 63 = 0 ∧ bits 0xF0000#64 19 16 ≠ 0 := by decide +kernel
/-- A code object with one entry of 4 bytes, and a device whose staging memory holds it and that has verified it before. -/
def object : List Byte :=
  [0x4A, 0x4F, 0x46, 0x31, 1, 0, 0, 0] ++ natBytes 200 4 ++ [1, 0, 0, 0] ++ natBytes 0 16 ++ [0x60, 1, 0, 0] ++ natBytes 0 4 ++ natBytes 64 8 ++
  natBytes 4 8 ++ natBytes 64 4 ++ natBytes 0 4 ++ [1, 2, 3, 4, 5, 6, 7, 8] ++ List.replicate 128 0
def objectDev : Dev :=
  { dev [] id id id with
    mem := memWrite [] 0x20000000000 object, verified := [(object, 0)],
    regs := [(.stagebase, 0x20000000000), (.loaddst, 0x400000), (.loadcmd, 0x8000020000000000)] }
theorem witness_HostAndRegisters_load : ∃ (d : Dev) (x : List Byte), d.on = true ∧ d.loading = none ∧ d.stage = some 0x20000000000 ∧
    d.readSpan 0x20000000000 (bytesNat (d.readSpan 0x20000000008 4)) = object ∧
    loadObject ⟨0, 0, 0, []⟩ d.verified 0 object = (1, 0, some x) ∧ ∀ p ∈ lineParts x.length 0x400000 x, backed p.1 = true :=
  ⟨objectDev, [1, 2, 3, 4], rfl, rfl, by decide +kernel, by decide +kernel, by decide +kernel, by decide +kernel⟩
/-- The same object with its magic changed: it fails. -/
theorem witness_HostAndRegisters_loadFails : ∃ code entry, loadObject ⟨0, 0, 0, []⟩ [] 0 (object.set 0 0) = (code, entry, none) :=
  ⟨_, _, rfl⟩
theorem witness_HostAndRegisters_plain : ∃ (d x : Dev), d.plainWrite (.migcmd 0) 0 = some x := ⟨Dev.reset, _, rfl⟩

/-! ## Witnesses: the whole machine -/

theorem witness_StepRunsDecoded : ∃ (s : State) (t : Thread) (q : Clause) (i : Instr) (n : Nat), s.agenda = .issue w0 :: [] ∧
    (s.onDev fun d => d.elapse 0 1).tidy.dev.thread w0 = some t ∧ t.clause = some q ∧ decode q.words = .ok i n ∧
    (s.onDev fun d => d.elapse 0 1).tidy.dev.canStep w0 t = true :=
  ⟨{ plain [0b00000000_0000011_0000001_0000010_111#32] with agenda := [.issue w0] }, _, _, .iadd 3 1 2 7, 1, rfl, rfl, rfl, by decide +kernel,
    by decide +kernel⟩
theorem witness_StepRunsDecoded_placed : ∃ (nbits w : Nat) (i : Instr), decodeTableWord nbits w = some i :=
  ⟨32, 0b00000000_0000011_0000001_0000010_111, .iadd 3 1 2 7, by decide +kernel⟩
theorem witness_DecodeEncode : ∃ (i : Instr) (ws : List Word) (n : Nat), i.wf = true ∧ i.isEvent = false ∧ decode ws = .ok i n ∧ 1 < n :=
  ⟨.fadd 5 6 7 7 1 0 0, [0b01000000_0000101_0000110_0000111_111#32, 0b0000000_001_0_0_0000000000_00000_00000#32], 2, by decide +kernel⟩
/-- A warp that divides while its frontier holds two entries, over memory that lists two bytes: it steps, and so the invariants speak
of it. -/
def ordered : State :=
  { st { dev (encode (.idivStep 5 2 3 7)) (fun t => { t with frontier := [⟨0x2000, 9, 1, 0, 0x2000⟩, ⟨0x1000, 8, 2, 5, 0x1000⟩] }) id id with
    mem := [(5, 1), (0x200001, 3)], hostMem := [(7, 9)] } with agenda := [.issue w0] }
theorem witness_MemoryKept : ∃ s s' : State, step s = .next s' ∧ s.dev.mem ≠ [] ∧ ∀ d ∈ s.devices, d.Canonical :=
  ⟨ordered, _, rfl, by decide, fun d h => by
    cases h with
    | head => exact ⟨by decide +kernel, by decide +kernel⟩
    | tail _ h => cases h⟩
theorem witness_FrontierOrderKept : ∃ s s' : State, step s = .next s' ∧ (s.dev.threads.any fun p => p.2.frontier.length == 2) = true ∧
    ∀ d ∈ s.devices, d.FrontiersInOrder :=
  ⟨ordered, _, rfl, by decide +kernel, fun d h => by
    cases h with
    | head =>
      refine ⟨fun p hp => ?_, fun i hi => by cases hi⟩
      have e : ordered.dev.threads = [(w0, (ordered.dev.thread w0).getD (newWarp [] 0 0 0))] := rfl
      rw [e] at hp
      cases hp with
      | head => exact (by unfold InOrder; decide +kernel : InOrder [⟨0x2000, 9, 1, 0, 0x2000⟩, ⟨0x1000, 8, 2, 5, 0x1000⟩])
      | tail _ h => cases h
    | tail _ h => cases h⟩
theorem witness_FusesKept : ∃ s s' : State, step s = .next s' ∧ s.fuses.Legal ∧ s'.fuses ≠ s.fuses :=
  ⟨{ st (onBus (dev [] id id id) .fusecmd 0x8000000000000005) with agenda := [.event .fusecmdRaise] }, _, rfl, ⟨by decide +kernel, by decide +kernel⟩, by decide +kernel⟩
/-! ## What well-formedness refuses (R263 and each instruction's rule): an ill-formed term for every kind of check -/

/-- Whether a list of instructions is refused, each with the subcode and the word that stand beside it. -/
def refused (l : List (Instr × Nat × Nat)) : Bool := l.all fun p => p.1.check = some ⟨p.2.1, p.2.2⟩

/-- A shape with one field changed. -/
def Shape.at_ (s : Shape) (n v u : Nat) : Shape :=
  let x : ShapeField := ⟨BitVec.ofNat 11 v, BitVec.ofNat 5 u⟩
  match n with
  | 0 => { s with sh0 := x } | 1 => { s with sh1 := x } | 2 => { s with sh2 := x } | 3 => { s with sh3 := x }
  | 4 => { s with sh4 := x } | 5 => { s with sh5 := x } | 6 => { s with sh6 := x } | _ => { s with sh7 := x }

/-- A guard of 0b1111; reserved modes, numbers and uniform fields; an odd register of a pair; a reserved rounding code. -/
theorem test_refused_integer : refused
  [(.iabs 1 2 15, 10, 0), (.imad 1 2 3 7 4 5, 5, 1), (.mov 1 32 1 7, 1, 0), (.mov 32 1 2 7, 1, 0), (.movs 1 0x0C 0 7, 1, 0),
   (.movs 1 0 1 7, 1, 0), (.movs 32 1 1 7, 1, 0), (.idivStep 1 2 3 7, 6, 0), (.idivStep 2 111 3 7, 6, 0), (.imulw 113 2 3 7 0, 6, 0),
   (.blend 1 2 3 7 4 7 0 0 0 0 0, 5, 1)] = true := by decide
/-- An x field with high bits, a shift amount past 31, a predicate in the trapping form of XSET, a reserved type, an x register. -/
theorem test_refused_index : refused
  [(.xadd 1 2 0 16 7, 1, 0), (.xshl 1 2 1 32 7, 1, 0), (.xshr 1 2 0 16 7, 1, 0), (.xset 1 2 3 1 1 7, 1, 0), (.xfrom 1 2 5 7, 1, 0),
   (.xfrom 1 112 0 7, 6, 0), (.xrd 112 1 0 7, 6, 0), (.xld 1 112 0 0 7, 6, 0), (.xmov 1 2 15, 10, 0)] = true := by decide
/-- An x destination, a format that is not accepted, a register run that is not aligned, a scale without a scaled format. -/
theorem test_refused_vector : refused
  [(.fadd 112 1 2 7 0 0 0, 6, 0), (.ffma 1 1 2 7 3 6 0 0, 5, 1), (.fclass 1 2 3 7, 1, 0), (.hadd2 1 2 3 7 0 0 0 8, 5, 1),
   (.ex2 1 2 1 0 7, 5, 0), (.rcp 1 2 5 0 7, 5, 0), (.cvt 1 2 0 7 0 0 0 4 8 0, 5, 1), (.cvt 1 2 0 7 0 0 0 3 8 0, 6, 0), (.cvt 2 3 0 7 0 0 0 8 3 0, 6, 0),
   (.cvt 1 2 1 7 0 0 0 9 8 5, 5, 1), (.cvt 1 2 0 7 0 0 0 12 8 5, 1, 1), (.pack 1 2 0 7 0 0 0 12 8 0, 6, 0), (.pack 1 4 0 7 0 0 0 12 9 0, 5, 1),
   (.unpack 4 1 0 7 0 0 0 8 14 0, 6, 0), (.amax 1 2 3 0 7, 1, 0), (.seed 33 1 7, 1, 0), (.seed 3 0 7, 6, 0), (.cvt8 1 2 3 0 0 0 14, 5, 1)] = true := by
  decide
/-- The cross-lane instructions: an immediate with high bits, a reserved operation, a register that is not a multiple of 4. -/
theorem test_refused_crossLane : refused
  [(.shfl 1 2 0 1 32, 1, 0), (.redg 1 2 9 7, 1, 0), (.scang 112 2 0 0 0 7, 6, 0), (.ldfrag 6 1 0 7, 6, 0), (.ldfrag 112 1 0 7, 6, 0),
   (.voteBallot 1 2 0 15, 10, 0), (.permb 120 1 2, 6, 0)] = true := by decide
/-- The memory and synchronization instructions: a reserved type, a store with a sign, a pair or four registers that are not aligned,
a scope past 4, an order with a scope that it does not have, a compare register that is not used, no queue named. -/
theorem test_refused_memory : refused
  [(.ldg 2 0 7 0 0 0 7, 1, 0), (.stg 2 0 1 0 0 0 7, 1, 0), (.ldg 3 0 5 0 0 0 7, 6, 0), (.stg 2 0 6 0 0 0 7, 6, 0), (.lds 112 1 6 0 7, 6, 0), (.sts 2 1 3 0 7, 1, 0),
   (.atom 2 0 9 0 0 7 4 2 0 0, 1, 0), (.atom 3 0 0 0 0 7 4 3 0 0, 6, 0), (.atom 2 0 7 0 0 7 4 3 0 5, 6, 1), (.atom 2 0 0 0 0 7 4 4 0 0, 5, 1), (.atom 2 0 8 0 0 7 4 2 0 0, 5, 1),
   (.atom 2 0 0 0 0 7 4 2 1 0, 1, 1), (.atom 2 0 0 1 0 7 4 2 5 0, 1, 1), (.atom 2 0 0 0 0 7 4 2 0 6, 1, 1), (.callm 3 0 0 0 0 7 4 0 6, 6, 0), (.callm 2 0 0 0 0 7 4 1 6, 1, 1),
   (.acq 2 0 5 0 7, 1, 0), (.acq 3 0 4 0 7, 6, 0), (.fence 5 0 7, 1, 0), (.qfence 0 0 0 0 7, 1, 0)] = true := by decide
/-- Control, barriers, QUIET and SIGNAL. -/
theorem test_refused_control : refused
  [(.xbr 1 0 1 32 0, 1, 0), (.call 3 0, 6, 0), (.callIndirect 2 3, 6, 0), (.ret 3, 6, 0), (.brx 113 0, 6, 0), (.exit 15, 10, 0), (.barInit 1 2 3 7, 6, 0),
   (.barWait 1 0 2 7, 1, 0), (.barsInit 0 1 2 7, 1, 0), (.barsArr 5 0 7, 1, 0), (.barsWait 4 4 1 0 7, 1, 0), (.barsWait 1 4 0 2 7, 1, 0), (.quiet 112 1 0 7, 6, 0),
   (.signal 1 5 1 7, 1, 0), (.signal 1 1 0 7, 1, 0)] = true := by decide

/-- MLDB: a format, an unused scale or bitmap, a u without the marker, each unused field, a signal field past 31. -/
theorem test_refused_mldb : refused
  [(.mldb 1 1 0 2 0 0 0 (shapeOf []), 5, 0), (.mldb 1 9 3 2 0 0 0 (shapeOf []), 1, 0), (.mldb 1 9 0 2 3 0 0 (shapeOf []), 1, 0),
   (.mldb 1 9 0 2 0 0 0 (Shape.at_ (shapeOf []) 0 1 1), 9, 1), (.mldb 1 9 0 2 0 0 0 (Shape.at_ (shapeOf []) 3 1 0), 1, 2), (.mldb 1 9 0 2 0 0 0 (Shape.at_ (shapeOf []) 2 32 0), 1, 2),
   (.mldb 1 9 0 2 0 0 0 (Shape.at_ (shapeOf []) 2 0 1), 9, 2), (.mldb 1 9 0 2 0 0 0 (Shape.at_ (shapeOf []) 4 0 1), 1, 3), (.mldb 1 9 0 2 0 0 0 (Shape.at_ (shapeOf []) 7 1 0), 1, 4)]
  = true := by decide
/-- MMA in lane mode and with strides: the A field a marker, past its range, its format, a stride of one slice, the unused fields, the
row mask that must be a marker. -/
theorem test_refused_mma : refused
  [(.mma 0 0 1 2 7 (Shape.at_ (shapeOf []) 0 0x7FF 0), 1, 1), (.mma 0 0 1 2 7 (shapeOf [128]), 1, 1), (.mma 0 0 1 2 7 (shapeOf [1]), 5, 1), (.mma 0 0 1 2 7 (shapeOf [0, 1]), 1, 1),
   (.mma 0 0 1 2 7 (shapeOf [0, 0, 1]), 1, 2), (.mma 0 0 1 2 7 (shapeOf [0, 0, 0, 0, 0, 1]), 1, 3), (.mma 0 0 1 2 7 (shapeOf [0, 0, 0, 0, 0, 0, 32]), 1, 4),
   (.mma 0 0 1 2 7 (Shape.at_ (shapeOf []) 6 1 1), 9, 4), (.mmaStr 0 0 (shapeOf []), 1, 1), (.mmaStr 0 0 (shapeOf [128, 0, 3]), 1, 2),
   (.mmaStr 0 0 (Shape.at_ (shapeOf [128, 0, 0x7FF]) 4 1 1), 9, 3)] = true := by decide
/-- MRD and MAMAX: formats, roundings, a destination beside a scratch destination, columns past the tile, an unused base, a pitch too
small, a full-columns field that is neither zero nor the marker. -/
theorem test_refused_readOut : refused
  [(.mrd 0 3 0 0 0 8 0 7 (shapeOf [0, 0, 1]), 5, 0), (.mrd 0 10 4 0 0 8 0 7 (shapeOf [0, 0, 1]), 5, 0), (.mrd 0 10 0 0 0 8 0 7 (shapeOf [1, 0, 1, 0, 1]), 1, 0),
   (.mrd 0 10 0 0 0 112 0 7 (shapeOf [0, 0, 1]), 6, 0), (.mrd 0 10 0 0 0 8 0 7 (shapeOf [0, 128, 1]), 1, 1), (.mrd 0 10 0 0 0 8 0 7 (shapeOf [0, 0, 129]), 1, 2),
   (.mrd 0 10 0 0 0 8 0 7 (shapeOf [0, 127, 2]), 1, 2), (.mrd 0 10 0 0 0 8 0 7 (shapeOf [0, 0, 1, 1]), 1, 2), (.mrd 0 10 0 0 0 0 0 7 (shapeOf [1, 0, 9, 0, 1]), 1, 3),
   (.mrd 0 10 0 0 0 8 0 7 (shapeOf [0, 0, 1, 0, 0, 1]), 1, 3), (.mamax 0 112 0 7 (shapeOf [0, 0, 1]), 6, 0), (.mamax 0 1 0 7 (shapeOf [0, 0, 0]), 1, 2),
   (.mamax 0 1 0 7 (shapeOf [1, 0, 1]), 1, 1)] = true := by decide
/-- The copy instructions: a reserved space, a status register without room for the running value, a size code, a flag that only the
checksum form has, an unused field, a DSIG that does nothing. -/
theorem test_refused_copy : refused
  [(.dcopy 1 2 3 0 4 0 0 0 7 (shapeOf []), 1, 0), (.dcopyCk 1 2 0 0 30 0 0 0 7 (shapeOf []), 6, 0), (.dfill 1 2 0 0 4 0 0 0 7 (shapeOf [0, 0, 0, 0, 0, 0, 0, 5]), 1, 4),
   (.dcopy 1 2 0 0 4 0 0 0 7 (shapeOf [0, 0, 0, 0, 0, 0, 0, 256]), 1, 4), (.dcopy 1 2 0 0 4 0 0 0 7 (Shape.at_ (shapeOf []) 7 0x7FF 0), 1, 4),
   (.dgather 1 2 0 4 0 0 0 7 (shapeOf [16]), 1, 1), (.dscat 1 2 3 4 0 0 0 7 (shapeOf []), 1, 0), (.dscat 1 2 0 4 0 0 0 7 (shapeOf [0, 0, 0, 1]), 1, 2),
   (.dgather 1 2 0 4 0 0 0 7 (Shape.at_ (shapeOf []) 1 0x7FF 0), 1, 1), (.dgather 1 2 0 4 0 0 0 7 (shapeOf [0, 0, 0, 0, 0, 0, 0, 1]), 1, 4), (.dsig 1 0 0 0 0 7, 1, 0),
   (.dlease 1 2 3 4 0 15, 10, 0)] = true := by decide
/-- The system instructions: a CSR that does not exist or is read only, a cause that is not assigned, an odd pair. -/
theorem test_refused_system : refused
  [(.csrr 1 4 7, 1, 0), (.csrr 112 0 7, 6, 0), (.csrw 1 2 7, 1, 0), (.trap 0 0 7, 1, 0), (.trap 0x0D 0 7, 1, 0), (.clock 1 7, 6, 0), (.perf 3 0 7, 6, 0),
   (.spawn 1 0 0 15, 10, 0), (.tlbiPkg 15, 10, 0)] = true := by decide

/-! ## Words that the spec gives, or that are written out from its pictures -/

/-- The words of the worked clause and of the worked encodings of chapters 9, 10, 11, 14, 18 and 19. -/
theorem test_decode_worked :
    decode [0x0008102F] = .ok (.iadd 4 4 5 7) 1 ∧ decode [0x010C1039] = .ok (.isub 6 4 7 1) 1 ∧ decode [0x0810184F] = .ok (.and 8 6 9 7) 1 ∧
    decode [0x40060417, 0x00900000] = .ok (.fadd 3 1 2 7 2 0 1) 2 ∧ decode [0x18100417, 0x06000A00] = .ok (.blend 8 1 2 7 3 0 2 2 0 0 0) 2 ∧
    decode [0x600A0A07, 0x000C8120] = .ok (.cvt 5 2 1 7 0 0 0 12 8 9) 2 ∧ decode [0xE15D0A07] = .ok (.spawnAt 2 58 5 0 7) 1 ∧
    decode [0xA3320000] = .ok (.jmpt 3 2 0) 1 ∧ decode [0x8A01D201, 0x040001A0] = .ok (.callm 0 58 2 0 0 1 2 0 13) 2 := by decide
theorem test_decode_worked_shapes :
    decode [0xD1102807, 0x20000020, 0x00200000, 0, 0x00002080] = .ok (.dcopyCk 0 4 0 0 20 0 0 0 7 (shapeOf [256, 1, 1, 0, 0, 0, 0, 260])) 5 ∧
    decode [0xD0386802, 0x20000020, 0x00200000, 0, 0x00000D80] = .ok (.dcopy 1 6 0 1 20 0 0 0 2 (shapeOf [256, 1, 1, 0, 0, 0, 0, 108])) 5 ∧
    decode [0xC3140101, 0, 0x00400000, 0, 0] = .ok (.mrd 0 10 0 0 0 8 0 1 (shapeOf [0, 0, 2])) 5 := by decide
theorem test_decode_pictures :
    decode [0b00010110_0000101_1_1000000000000001#32] = .ok (.moviHi 5 0x8001) 1 ∧ decode [0b00110000_0010_1110001_0011_00000_0111#32] = .ok (.xclamp 2 113 3 7) 1 ∧
    decode [0b00101001_0010_1110001_0011_0_101_0_0111#32] = .ok (.xset 2 113 3 0 5 7) 1 ∧ decode [0b01010010_0000101_0000110_100_1_00_0111#32] = .ok (.rcp 5 6 4 1 7) 1 ∧
    decode [0b01110000_0000101_0000110_10_1_0011111#32] = .ok (.shfl 5 6 2 1 31) 1 ∧ decode [0b10000011_0000101_0011_0100_0101_1_0111#32] = .ok (.sta 5 3 4 5 1 7) 1 ∧
    decode [0b10100010_0010_1_0_10000000_1000000000#32] = .ok (.xbr 2 1 0 128 512) 1 ∧ decode [0b10110001_0011_01_1_00101_00000000_0111#32] = .ok (.barWait 3 1 5 7) 1 ∧
    decode [0b10110111_0011_100_1_000000000000_0111#32] = .ok (.signal 3 4 1 7) 1 ∧
    decode [0b11010100_00101_00110_00111_011_1_1_0111#32] = .bad ⟨1, 0⟩ ∧ decode [0b11110010_00000101_100000000001_0111#32] = .ok (.trap 5 0x801 7) 1 := by decide
theorem test_decode_massif :
    decode [0b11000000_011_1001_00000_010_000_1_0_0000#32, 0x01000200, 0x02600000, 0, 0] = .ok (.mldb 3 9 0 2 0 1 0 (shapeOf [8, 16, 19])) 5 ∧
    decode [0b11000010_001_110_0000100_0000000_0111#32, 0x02000080, 0, 0, 0x02400000] = .ok (.mma 1 6 4 0 7 (shapeOf [16, 4, 0, 0, 0, 0, 18])) 5 := by decide
/-- The words of the handoff of chapter 12 and of the MMA under R372. -/
theorem test_decode_examples : decode [0xB7490007] = .ok (.signal 4 4 1 7) 1 ∧ decode [0xB1140007] = .ok (.barWait 1 0 0 7) 1 ∧
    decode [0x80082C07] = .ok (.ldg 4 5 4 0 0 0 7) 1 ∧ decode [0xF00C0047] = .ok (.csrr 6 2 7) 1 ∧
    decode [0xC220A187, 0x03800400, 0, 0, 0x02600000] = .ok (.mma 1 0 20 24 7 (shapeOf [0x1C, 32, 0, 0, 0, 0, 0x13])) 5 := by decide
/-- An unassigned opcode, a reserved bit, an instruction cut short. -/
theorem test_decode_refused : decode [0x40060417] = .short ∧ decode [0x1F000000] = .bad ⟨0, 0⟩ ∧ decode [0xE2000001] = .bad ⟨1, 0⟩ := by decide
/-! ## Single steps: lanes 0 and 2 are active, every lane's registers set alike -/

/-- The thread after an instruction, from lanes with the given registers and a change of the thread. -/
def afterOf (i : Instr) (gs : List (BitVec 7 × Word)) (f : Thread → Thread) : Option Thread :=
  match exec i (st (dev [] (fun t => f { t with lanes := t.lanes.map fun l => gs.foldl (fun l p => l.set p.1 p.2) l }) id id)) with
  | .next s => s.dev.thread w0
  | _ => none
def after (i : Instr) (gs : List (BitVec 7 × Word)) : Option Thread := afterOf i gs id
/-- A register of lane 2 after it. -/
def got (i : Instr) (gs : List (BitVec 7 × Word)) (r : BitVec 7) : Option Word := (after i gs).map fun t => (t.lane 2).get r
/-- Whether each instruction, from g2 and g3, leaves g1 of lane 2 as stated. -/
def gives (l : List (Instr × Word × Word × Word)) : Bool := l.all fun p => got p.1 [(2, p.2.1), (3, p.2.2.1)] 1 = some p.2.2.2
/-- The trap that the machine raised last in the warp of a state: its cause and detail, from the frame. -/
def raised (i : Instr) (gs : List (BitVec 7 × Word)) (f : Thread → Thread) : Option (BitVec 8 × DWord) :=
  (afterOf i gs f).bind fun t => t.frame.map fun k => (k.cause, k.detail)

/-- R272, R278, R282: sums wrap; products keep the low or the signed high half; the absolute value of the smallest integer. -/
theorem test_integer_sums : gives
  [(.iadd 1 2 3 7, 0xFFFFFFFF, 2, 1), (.isub 1 2 3 7, 1, 2, 0xFFFFFFFF), (.imul 1 2 3 7, 0x10001, 0x10001, 0x20001), (.imulhi 1 2 3 7, 0xFFFFFFFF, 1, 0xFFFFFFFF),
   (.imad 1 2 3 7 3 0, 0xFFFFFFFF, 5, 0), (.imin 1 2 3 7, 0xFFFFFFFF, 1, 0xFFFFFFFF), (.imax 1 2 3 7, 0xFFFFFFFF, 1, 1), (.iabs 1 2 7, 0x80000000, 0, 0x80000000),
   (.ineg 1 2 7, 5, 0, 0xFFFFFFFB)] = true := by decide +kernel
/-- R278, R280, R282: shifts by 32 or more, a rotation, bit counts, a signed field and an inserted one, a field of no bits. -/
theorem test_integer_bits : gives
  [(.shl 1 2 3 7, 1, 32, 0), (.shr 1 2 3 7, 0x80000000, 31, 1), (.sar 1 2 3 7, 0x80000000, 40, 0xFFFFFFFF), (.rot 1 2 3 7, 0x80000001, 33, 3), (.popc 1 2 7, 0xF0F0, 0, 8),
   (.clz 1 2 7, 0, 0, 32), (.clz 1 2 7, 0x10, 0, 27), (.brev 1 2 7, 1, 0, 0x80000000), (.xor 1 2 3 7, 0xFF00, 0x0FF0, 0xF0F0), (.bfe 1 2 3 7, 0xF0, 0x10404, 0xFFFFFFFF),
   (.bfe 1 2 3 7, 0xF0, 0x00404, 0xF), (.bfe 1 2 3 7, 0xF0, 0x10004, 0), (.bfi 1 2 3 2 0, 0x5, 0x0404, 0x55)] = true := by decide +kernel
/-- R281: a division step with a divisor of 0 shifts a one into the quotient; both words of the pair. -/
theorem test_idiv_step : ((after (.idivStep 4 2 1 7) [(2, 0x80000000), (3, 1)]).map fun t => ((t.lane 2).get 4, (t.lane 2).get 5)) = some (1, 3) := by decide +kernel
/-- R283: BLEND selects b where c has a one and the inverse of a elsewhere; the exclusive or of three sources. -/
theorem test_blend : gives [(.blend 1 2 3 7 3 0 3 3 1 0 0, 0x0000FFFF, 0x12345678, 0xFFFF5678), (.blend 1 2 3 7 3 0 2 2 0 0 0, 0x5, 0x3, 0x5)] = true := by
  decide +kernel
/-- R287: MOVI extends its sign, and MOVI.hi keeps the low half. R285: p7 selects a. -/
theorem test_moves : gives [(.movi 1 0x8000, 0, 0, 0xFFFF8000), (.sel 1 2 3 7, 4, 5, 4), (.sel 1 2 3 0, 4, 5, 5)] = true ∧ got (.moviHi 1 0x1234) [(1, 0xFFFFABCD)] 1 = some 0x1234ABCD := by
  decide +kernel
/-- R307, R223, R229, R219: FP32 sums and products; infinities of opposite sign; one rounding; zero sums; NaN payloads. -/
theorem test_float : gives
  [(.fadd 1 2 3 7 0 0 0, 0x3F800000, 0x33800000, 0x3F800000), (.fadd 1 2 3 7 2 0 0, 0x3F800000, 0x33800000, 0x3F800001), (.fadd 1 2 3 7 0 0 0, 0x7F800000, 0xFF800000, 0x7FC00000),
   (.fadd 1 2 3 7 3 0 0, 0x3F800000, 0xBF800000, 0x80000000), (.fmul 1 2 3 7 0 0 0, 0x7F000000, 0x40000000, 0x7F800000), (.fmul 1 2 3 7 1 0 0, 0x7F000000, 0x40000000, 0x7F7FFFFF),
   (.fmul 1 2 3 7 0 0 1, 0x00800000, 0x3F000000, 0), (.fsub 1 2 3 7 0 0 0, 0x7F812345, 0, 0x7FC00000), (.fabs 1 2 7, 0xFF812345, 0, 0x7F812345)] = true := by decide +kernel
/-- R316: the special inputs whose results the table states. -/
theorem test_special_inputs : gives
  [(.rcp 1 2 0 0 7, 0x80000000, 0, 0xFF800000), (.rcp 1 2 0 0 7, 0xFF800000, 0, 0x80000000), (.rsq 1 2 0 0 7, 0xBF800000, 0, 0x7FC00000), (.sqrt 1 2 0 0 7, 0xBF800000, 0, 0x7FC00000),
   (.sqrt 1 2 0 0 7, 0x80000000, 0, 0x80000000), (.lg2 1 2 0 0 7, 0x80000000, 0, 0xFF800000), (.ex2 1 2 0 0 7, 0xFF800000, 0, 0), (.cos 1 2 0 0 7, 0x80000000, 0, 0x3F800000),
   (.tanh 1 2 0 0 7, 0xFF800000, 0, 0xBF800000), (.sin 1 2 0 1 7, 0x80000001, 0, 0x80000000)] = true := by decide +kernel
/-- R318: the conversions of the example; R226: the example of stochastic rounding, in g1 and in the generator. -/
theorem test_cvt : gives
  [(.cvt 1 2 1 7 0 0 0 12 8 3, 0x43960000, 0x3F000000, 0x71), (.cvt 1 2 1 7 2 0 0 12 8 3, 0x43960000, 0x3F000000, 0x72), (.cvt 1 2 0 7 0 0 0 12 8 0, 0x43960000, 0, 0x79),
   (.cvt 1 2 0 7 0 0 0 12 8 0, 0x447A0000, 0, 0x7F), (.cvt 1 2 0 7 0 1 0 12 8 0, 0x447A0000, 0, 0x7E), (.cvt 1 2 0 7 0 0 0 0 8 0, 0x43960000, 0, 0x2C)] = true := by decide +kernel
theorem test_stochastic : ((afterOf (.cvt 1 2 0 7 4 0 0 10 8 0) [(2, 0x3F80C000)] fun t => { t with lanes := t.lanes.map fun l => { l with gen := 1 } }).map fun t =>
    ((t.lane 2).get 1, (t.lane 2).gen, (t.lane 1).gen)) = some (0x3F80, 0x40822041, 1) := by decide +kernel
/-- R233, R236: the block promoted and read out, as an E96 value and in the formats of the table. -/
theorem test_promote : promote 0 [.ofInt false 3 0, .ofInt false (-1) (-2), .ofInt false 9 (-2)] 0x3DCCCCCD 0x40400000 = 0x3FFF80000060000000000000 := by
  decide +kernel
/-- R289: the value wraps and the interval of the sum is kept, or is the top where it leaves the range; R299: the refinement of XBR. -/
theorem test_xadd : ((after (.xadd 1 2 1 0x7FF 7) [(114, 7)]).map fun t => ((t.lane 2).xr 1).v) = some 6 := by decide +kernel
/-- R322, R324, R326: a source lane that is not active leaves a lane its own value; votes and reductions over the active lanes, no
other lane written. -/
theorem test_crossLane : got (.shfl 1 2 1 1 0) [(2, 9)] 1 = some 9 ∧ got (.redg 1 2 0 7) [(2, 21)] 1 = some 42 ∧
    got (.voteBallot 1 7 0 7) [] 1 = some 5 ∧ got (.shfl 1 2 0 1 1) [(2, 9)] 1 = some 9 ∧
    ((after (.redg 1 2 0 7) [(1, 3), (2, 21)]).map fun t => (t.lane 1).get 1) = some 3 := by decide +kernel
/-- R394, R422, R390, R35, R291: the cause of the trap that each of these takes, in a warp without a trap vector, whose frame the
supervisor receives. -/
theorem test_trap : raised (.trap 4 5 7) [] id = some (4, 0x8000000000000005) := by decide +kernel
theorem test_privilege : (raised (.csrw 1 0x800 7) [] id).map Prod.fst = some 2 ∧ (raised (.trap 0x40 0 7) [] id).map Prod.fst = some 2 ∧
    (raised (.tlbiPkg 7) [] id).map Prod.fst = some 2 := by decide +kernel
/-- R79, R80, R35: a load waits for its translations, and then one lane's address that is not aligned traps; one that is aligned
is outstanding. -/
def loaded (a : Word) : Option Dev :=
  match exec (.ldg 1 2 4 0 0 0 7) (st (dev [0x80021407] (fun t => { t with lanes := t.lanes.map fun l => l.set 4 a }) id id)) with
  | .next s => match exec (.translationDone w0) s with
    | .next s => some s.dev
    | _ => none
  | _ => none
theorem test_align : ((loaded 2).bind fun d => (d.thread w0).bind fun t => t.frame.map fun k => (k.cause, k.address, k.lane)) = some (3, 2, 0) := by decide +kernel
theorem test_load : (loaded 4).map (fun d => (d.ops.map fun o => (o.flag, o.pieces.map Piece.lane), (d.thread w0).map fun t => t.flags.headD 9)) = some ([(some 0, [0, 2])], some 1) := by decide +kernel
theorem test_xset : (raised (.xset 1 2 0 1 0 7) [(2, 5)] fun t => (t.setS 0 0).setS 1 4).map Prod.fst = some 5 ∧
    ((afterOf (.xset 1 2 0 1 0 7) [(2, 4)] fun t => (t.setS 0 0).setS 1 4).map fun t => (t.lane 2).xr 1) = some ⟨4, 0, 4⟩ := by decide +kernel
/-- R289, R275: the interval of a sum, moved with its value; R299: the lanes that XBR takes have a smaller upper bound, those that
fall through a larger lower bound. -/
theorem test_intervals : ((afterOf (.xadd 1 2 1 0x7FF 7) [] fun t => { t with lanes := t.lanes.map fun l => l.setX 2 7 ⟨0, 9⟩ }).map fun t => (t.lane 2).xr 1) = some ⟨6, 0xFFFFFFFF, 8⟩ ∧
    ((afterOf (.xbr 2 0 0 5 4) [] fun t => { t with lanes := (t.lanes.map fun l => l.setX 2 7 ⟨0, 9⟩).set 0 ((t.lane 0).setX 2 3 ⟨0, 9⟩) }).map fun t =>
      ((t.lane 0).xr 2, (t.lane 2).xr 2, t.frontier.map Entry.mask)) = some (⟨3, 0, 4⟩, ⟨7, 5, 9⟩, [4, 1]) := by decide +kernel
/-- R246, R286: in a warp, a value moved to a uniform register comes from the lowest lane that takes part. -/
theorem test_uniform : ((afterOf (.mov 3 2 2 7) [(2, 8)] fun t => { t with lanes := t.lanes.set 0 ((t.lane 0).set 2 6) }).map fun t => t.sreg 3) = some 6 := by decide +kernel

end Sys2Proof.Tests
end

section
/-! SUPPORT. Host accesses, migrations and register writes (R6, R61, R94, R96, R98, R166, R444, R447, R448, R450): what each event
answers when its conditions hold, and the obligation assembled from that. -/

namespace Sys2Proof.Machine

/-! ## Host accesses (R444) -/

section
variable {s : State} {o : Nat} {acc : HostAccess}

/-- A host access to aperture 0 is always answered. -/
theorem execHostApertureAccess_manage (ho : s.dev.on = true) :
    execHostApertureAccess 0 o acc s = .next (s.withDev
      { (s.dev.manage s.fuses o acc).2 with hostReply := (s.dev.manage s.fuses o acc).1 }) :=
  happen_some (by simp [ho])

/-- A host access to aperture 1 is answered once no home point makes it wait. -/
theorem execHostApertureAccess_staging (ho : s.dev.on = true) {p : Option (List Byte) × Dev} (hp : s.dev.staging o acc = some p) :
    execHostApertureAccess 1 o acc s = .next (s.withDev { p.2 with hostReply := p.1 }) :=
  happen_some (by simp [ho, hp])

end

/-! ## Migrations (R95 to R100) -/

/-- A device whose die has finished a migration (R96 steps 3 to 5, R92, R99). -/
def Dev.finishMigration (d : Dev) (die : Nat) (m : Migration) : Dev :=
  let p := (d.spend die 4).copyPage m
  let poison := fun (d : Dev) (a : Nat) => (d.spend (dieOf a) 5).setPoison a
  let e := p.1.foldl (fun d n => poison (poison d (m.src + 4096 * n)) (m.dst + 4096 * n)) p.2
  let e := (e.writeLeaf m.pte false (m.dst / 4096)).shootPage m
  let after := ((e.die die).held.foldl Dev.releaseHeld ((e.onDie die fun (k : Die) => { k with
    redirects := (m.src, m.dst, m.size) :: k.redirects, hold := k.hold.filter fun h => h ≠ (m.src, m.size)
    held := [], migration := none }).moveRequests m.src m.size)).migstat die false (if p.1.isEmpty then 1 else 2)
  after.event (Event.of 3 0x41 0xFFFF (BitVec.ofNat 64 die) (after.reg (.migstat die)) (BitVec.ofNat 64 m.src))

/-- A migration ends once no access uses a pin of its page and no wave runs on what the held writes write. -/
theorem execMigrationComplete_finishes {s : State} {die : Nat} {m : Migration} (ho : s.dev.on = true)
    (hm : (s.dev.die die).migration = some m) (he : s.dev.emergency = none) (hb : s.dev.hasBudget die 4 = true)
    (hr : s.dev.revoking m.src m.size = false) (hp : s.dev.pinsBusy (TlbEntry.mapsSpan s.dev m.src m.size) = false)
    (hw : s.dev.heldByWave die = false) :
    execMigrationComplete die s = .next (s.withDev (s.dev.finishMigration die m)) :=
  happen_some (by
    simp only [hm, ho, he, hb, hr, hp, hw]
    rfl)

/-- The migration of a page of a size that a MIGCMD write names. -/
def Dev.namedMigration (d : Dev) (die size : Nat) (v : DWord) : Migration :=
  ⟨bits v 42 12 * 4096, bits (d.reg (.migdst die)) 42 12 * 4096, size, bits (d.reg (.migpte die)) 42 4 * 16⟩

/-- Whether the operands of the migration that a MIGCMD write names are invalid (R95, R100). -/
def Dev.namedBad (d : Dev) (die size : Nat) (v : DWord) : Bool :=
  let m := d.namedMigration die size v
  d.migrationBad die m.src m.dst size m.pte

/-- A device whose die has begun a migration (R96 steps 1 and 2). -/
def Dev.beginMigration (d : Dev) (die : Nat) (v : DWord) (m : Migration) : Dev :=
  let e := (d.storeReg (.migcmd die) v).onDie die fun (k : Die) => { k with hold := (m.src, m.size) :: k.hold, migration := some m }
  ((e.writeLeaf m.pte true (m.src / 4096)).shootPage m).migstat die true 0

/-! ## Writes of device registers -/

section
variable {s : State} {w : RegWrite} {ws : List RegWrite} (hw : s.dev.regBus = w :: ws) (ho : s.dev.on = true) {die : Nat}
include hw ho

section
variable (hr : w.reg = .migcmd die) (hgo : bits w.value 63 63 = 1) {op size : Nat} (hop : bits w.value 62 61 = op)
include hr hgo hop

/-- A migration while one runs is refused as busy. -/
theorem migrateOp_busy (hm : (s.dev.die die).migration ≠ none) :
    migrateOp s op size = .next (s.withDev ((s.dev.migstat die true 5).busDone w)) := by
  have hm' : (s.dev.die die).migration.isSome = true := Option.isSome_iff_ne_none.mpr hm
  exact onWrite_some hw ho (by simp [hr, hgo, hop, hm'])

/-- A migration with invalid operands is refused. -/
theorem migrateOp_invalid (hm : (s.dev.die die).migration = none) (hbad : s.dev.namedBad die size w.value = true) :
    migrateOp s op size = .next (s.withDev ((s.dev.migstat die false 4).busDone w)) := by
  simp only [Dev.namedBad, Dev.namedMigration] at hbad
  exact onWrite_some hw ho (by simp [hr, hgo, hop, hm, hbad])

/-- A migration that nothing refuses begins. -/
theorem migrateOp_begins (hm : (s.dev.die die).migration = none) (hgood : s.dev.namedBad die size w.value = false)
    (hroom : (s.dev.die die).redirects.length < 4096) :
    migrateOp s op size =
      .next (s.withDev ((s.dev.beginMigration die w.value (s.dev.namedMigration die size w.value)).busDone w)) := by
  simp only [Dev.namedBad, Dev.namedMigration] at hgood
  have hfull : ¬ 4096 ≤ (s.dev.die die).redirects.length := Nat.not_le.mpr hroom
  exact onWrite_some hw ho (by simp [hr, hgo, hop, hm, hgood, hfull, Dev.beginMigration, Dev.namedMigration])

end

/-- A redirect that exists is removed while no migration runs (R98). -/
theorem execMigcmdRemoveRedirect_removes (hr : w.reg = .migcmd die) (hgo : bits w.value 63 63 = 1) (hop : bits w.value 62 61 = 2)
    (hm : (s.dev.die die).migration = none)
    (hx : (s.dev.die die).redirects.any (fun r => r.1 == bits w.value 42 12 * 4096) = true) :
    execMigcmdRemoveRedirect s = .next (s.withDev ((((s.dev.storeReg (.migcmd die) w.value).onDie die fun (k : Die) =>
      { k with redirects := k.redirects.filter fun r => r.1 != bits w.value 42 12 * 4096 }).migstat die false 1).busDone w)) :=
  onWrite_some hw ho (by simp only [hr, hgo, hop, hm, hx]; rfl)

/-- The lease named by LSECTL ends (R61). -/
theorem execLsectlRevoke_ends (hr : w.reg = .lsectl die) (hv : bits w.value 31 31 = 1) :
    execLsectlRevoke s = .next (s.withDev ((s.dev.endLease die (bits w.value 3 0)).busDone w)) :=
  onWrite_some hw ho (by simp [hr, hv])

section
variable (hr : w.reg = .poisoncmd die) (hb : backed (poisonFrame w.value) = true) (hd : dieOf (poisonFrame w.value) = die)
  (hbud : s.dev.hasBudget die 5 = true)
include hr hb hd hbud

/-- A frame of the die is poisoned once no access uses a pin of it (R92, R94). -/
theorem execPoisoncmdSet_poisons (hop : bits w.value 63 62 = 2)
    (hp : s.dev.pinsBusy (TlbEntry.mapsSpan s.dev (poisonFrame w.value) 4096) = false) :
    execPoisoncmdSet s = .next (s.withDev (((s.dev.spend die 5).setPoison (poisonFrame w.value)).busDone w)) :=
  onWrite_some hw ho (by simp [hr, hop, hb, hd, hbud, hp])

/-- A frame of the die is cleared (R94). -/
theorem execPoisoncmdClear_clears (hop : bits w.value 63 62 = 1) :
    execPoisoncmdClear s = .next (s.withDev (((s.dev.spend die 5).clearPoison (poisonFrame w.value)).busDone w)) :=
  onWrite_some hw ho (by simp [hr, hop, hb, hd, hbud])

end

/-- The lossy bit of the selected entry is cleared (R166). -/
theorem execFabjstatLossyClear_clears (hr : w.reg = .fabjstat die) (hv : bits w.value 61 61 = 1) :
    execFabjstatLossyClear s = .next (s.withDev ((s.dev.onDie die fun (k : Die) => { k with
      jobs := updBy (fun (j : JobEntry) => j.ctx == bits (s.dev.reg (.fabjsel die)) 19 8 &&
        j.job == bits (s.dev.reg (.fabjsel die)) 7 0) (fun j => { j with lossy := false }) k.jobs }).busDone w)) :=
  onWrite_some hw ho (by simp [hr, hv])

/-- SVCTAIL takes the write, and the held events go to the ring (R427). -/
theorem execSvctailWrite_frees (hr : w.reg = .svctail) :
    execSvctailWrite s = .next (s.withDev ((s.dev.svctailWrite w.value).busDone w)) :=
  onWrite_some hw ho (by simp [hr])

/-- The package's number takes a write only while it is not locked (R448). -/
theorem execPkgcfgWrite_unless_locked (hr : w.reg = .pkgcfg) :
    execPkgcfgWrite s =
      .next (s.withDev ((if s.dev.pkgLocked then s.dev else s.dev.storeReg .pkgcfg w.value).busDone w)) := by
  refine onWrite_some hw ho ?_
  cases s.dev.pkgLocked <;> simp [hr]

/-- A fuse command of the kind that its event takes burns the fuses (R447). -/
theorem fuseOp_burns (hr : w.reg = .fusecmd) {p : DWord → Bool} (hp : p w.value = true) :
    fuseOp s p = .next { s with fuses := s.fuses.burn w.value, dev := s.dev.busDone w } := by
  have hon := onWrite_some hw ho (act := fun w d => if w.reg = .fusecmd && p w.value then some d else none)
    (d := s.dev) (by simp [hr, hp])
  simp only [fuseOp, hw, hon]
  rfl

/-- A write that raises the version burns the fuses. -/
theorem execFusecmdRaise_burns (hr : w.reg = .fusecmd) (hv : bits w.value 63 63 = 1) :
    execFusecmdRaise s = .next { s with fuses := s.fuses.burn w.value, dev := s.dev.busDone w } :=
  fuseOp_burns hw ho hr (decide_eq_true hv)

/-- A write that only revokes key slots burns the fuses. -/
theorem execFusecmdRevoke_burns (hr : w.reg = .fusecmd) (hv : bits w.value 63 63 = 0) (hk : bits w.value 19 16 ≠ 0) :
    execFusecmdRevoke s = .next { s with fuses := s.fuses.burn w.value, dev := s.dev.busDone w } :=
  fuseOp_burns hw ho hr (by simp [hv, hk])

/-- A start of a load, while none runs, loads at once (R447, R450). -/
theorem execLoadcmdStart_write (hr : w.reg = .loadcmd) (hgo : bits w.value 63 63 = 1) (hl : s.dev.loading = none) :
    execLoadcmdStart s = .next (s.withDev (((s.dev.storeReg .loadcmd w.value).load s.fuses w.value).busDone w)) := by
  simp only [execLoadcmdStart, hl]
  exact onWrite_some hw ho (by simp [hr, hgo])

/-- A write without an event of its own (R6). -/
theorem execRegisterWrite_plain {x : Dev} (hx : s.dev.plainWrite w.reg w.value = some x) :
    execRegisterWrite s = .next (s.withDev (x.busDone w)) :=
  onWrite_some hw ho hx

end

/-! ## Loads (R449 to R451) -/

/-- The load that runs ends with its result. -/
theorem execLoadcmdStart_running {s : State} {v : DWord} (hl : s.dev.loading = some v) :
    execLoadcmdStart s = .next (s.withDev ({ s.dev with loading := none }.load s.fuses v)) := by
  simp only [execLoadcmdStart, hl]
  exact happen_some rfl

/-- The length of the object that a LOADCMD write names, as its header has it (R449). -/
def Dev.objectLength (d : Dev) (v : DWord) : Nat := bytesNat (d.readSpan (bits v 42 3 * 8 + 8) 4)

/-- The bytes of the object that a LOADCMD write names. -/
def Dev.objectBytes (d : Dev) (v : DWord) : List Byte := d.readSpan (bits v 42 3 * 8) (d.objectLength v)

/-- What the loader answers for the object that a LOADCMD write names. -/
def Dev.loadAnswer (d : Dev) (f : Fuses) (v : DWord) : Nat × Nat × Option (List Byte) :=
  loadObject f d.verified (bits (d.reg .loadva) 55 12 * 4096) (d.objectBytes v)

/-- A device that has verified an object's bytes (R450). -/
def Dev.withVerified (d : Dev) (b : List Byte) : Dev :=
  { d with verified := if d.verified.contains (b, numAt b 6 2) then d.verified else (b, numAt b 6 2) :: d.verified }

/-- What a load leaves once the loader has answered for the object's bytes (R450): its result in LOADSTAT, and the segment, if there is
one, at a destination that memory stands behind. -/
def Dev.endLoad (d : Dev) (b : List Byte) (answer : Nat × Nat × Option (List Byte)) : Dev :=
  let dst := bits (d.reg .loaddst) 42 12 * 4096
  let old := bits (d.reg .loadstat) 10 8
  let e := d.withVerified b
  match answer.2.2 with
  | none => d.setReg .loadstat (BitVec.ofNat 64 (old * 2 ^ 8 + answer.1))
  | some x =>
    if (lineParts x.length dst x).all fun p => backed p.1 then
      (e.writeSpan dst x).setReg .loadstat (BitVec.ofNat 64 (answer.2.1 * 2 ^ 8 + answer.1))
    else e.fresh.2.setReg .loadstat (BitVec.ofNat 64 (old * 2 ^ 8 + bits e.fresh.1 7 0))

section
variable {d : Dev} {f : Fuses} {v : DWord} {base code entry : Nat} (hs : d.stage = some base) (hlo : base ≤ bits v 42 3 * 8)
  (hhi : bits v 42 3 * 8 + max (d.objectLength v) 160 ≤ base + 2 ^ 30)
include hs hlo hhi

/-- An object that lies in aperture 1 is loaded from there. Compared with its unfolding, `Dev.load d f v` would
have the kernel evaluate `loadObject`: so the function is unfolded without its arguments, and an opaque function stands for
`loadObject`. -/
theorem Dev.load_of_inStage : d.load f v = d.endLoad (d.objectBytes v) (d.loadAnswer f v) := by
  have hin : (d.stage.any fun a => decide (a ≤ bits v 42 3 * 8) &&
      decide (bits v 42 3 * 8 + max (d.objectLength v) 160 ≤ a + 2 ^ 30)) = true := by
    rw [hs, Option.any_some, decide_eq_true hlo, decide_eq_true hhi, Bool.and_self]
  unfold Dev.objectLength at hin
  unfold Dev.loadAnswer Dev.objectBytes Dev.objectLength
  obtain ⟨answer, hanswer⟩ : ∃ g, g = loadObject := ⟨_, rfl⟩
  obtain ⟨load, hload⟩ : ∃ g, g = Dev.load := ⟨_, rfl⟩
  rw [← hload, ← hanswer]
  delta Dev.load at hload
  rw [← hanswer] at hload
  subst hload
  simp only [hin, if_true]
  rfl

/-- A load that fails only sets its result code. -/
theorem Dev.load_fails (ha : d.loadAnswer f v = (code, entry, none)) :
    d.load f v = d.setReg .loadstat (BitVec.ofNat 64 (bits (d.reg .loadstat) 10 8 * 2 ^ 8 + code)) := by
  rw [Dev.load_of_inStage hs hlo hhi, ha]
  rfl

/-- A load that succeeds onto memory writes its segment there. -/
theorem Dev.load_writes {x : List Byte} (ha : d.loadAnswer f v = (code, entry, some x))
    (hx : ∀ p ∈ lineParts x.length (bits (d.reg .loaddst) 42 12 * 4096) x, backed p.1 = true) :
    d.load f v = ((d.withVerified (d.objectBytes v)).writeSpan (bits (d.reg .loaddst) 42 12 * 4096) x).setReg .loadstat
      (BitVec.ofNat 64 (entry * 2 ^ 8 + code)) := by
  rw [Dev.load_of_inStage hs hlo hhi, ha]
  exact if_pos (List.all_eq_true.mpr hx)

end

/-- Settles O52, event by event: under the conditions of each clause the event's meaning takes the branch that the clause names. -/
theorem hostAndRegisters : Obligations.HostAndRegisters := by
  intro s die o acc w ws ho goes d
  refine ⟨execHostApertureAccess_manage ho, fun p hp => execHostApertureAccess_staging ho hp,
    fun m hm he hb hr hp hh => execMigrationComplete_finishes ho hm he hb hr hp hh, fun v hl => execLoadcmdStart_running hl, ?_⟩
  intro hw v wrote a src m migrate
  refine ⟨execLsectlRevoke_ends hw ho, ?poison, ?migcmd, execFabjstatLossyClear_clears hw ho, execSvctailWrite_frees hw ho,
    execPkgcfgWrite_unless_locked hw ho, ?fuses, ?load, fun x hx => execRegisterWrite_plain hw ho hx⟩
  case poison =>
    exact fun hr hb hd hbud => ⟨execPoisoncmdSet_poisons hw ho hr hb hd hbud, execPoisoncmdClear_clears hw ho hr hb hd hbud⟩
  case migcmd =>
    refine fun hr hgo => ⟨fun hop => ?_, fun hop => ?_, execMigcmdRemoveRedirect_removes hw ho hr hgo⟩
    all_goals
      exact ⟨migrateOp_busy hw ho hr hgo hop, migrateOp_invalid hw ho hr hgo hop, migrateOp_begins hw ho hr hgo hop⟩
  case fuses =>
    exact fun hr => ⟨execFusecmdRaise_burns hw ho hr, execFusecmdRevoke_burns hw ho hr⟩
  case load =>
    intro hr hgo hl e obj len b dst base code entry seg hs hlo hhi ha
    have hstart := execLoadcmdStart_write hw ho hr hgo hl
    refine ⟨fun hn => ?_, fun x hx hback => ?_⟩
    · subst hn
      exact hstart.trans (by rw [Dev.load_fails hs hlo hhi ha])
    · subst hx
      exact hstart.trans (by rw [Dev.load_writes hs hlo hhi ha hback]; rfl)

end Sys2Proof.Machine
end

section
/-! SUPPORT. The checks of an access (R80): which trap `Dev.checkLanes` answers when some lane fails, and what it answers when none does. -/

namespace Sys2Proof.Machine

/-! ## What a translated lane fails with -/

/-- The first element that a test picks, when every other element gives nothing. -/
theorem findSome?_of_find? {α β : Type} {p : α → Bool} {f : α → Option β} {l : List α} {a : α} {b : β}
    (hf : ∀ x ∈ l, p x = false → f x = none) (ha : l.find? p = some a) (hb : f a = some b) : l.findSome? f = some b := by
  obtain ⟨-, pre, post, rfl, hpre⟩ := List.find?_eq_some_iff_append.mp ha
  have hnone : pre.findSome? f = none :=
    List.findSome?_eq_none_iff.mpr fun x hx => hf x (List.mem_append_left _ hx) (by simpa using hpre x hx)
  simp [List.findSome?_append, hnone, hb]

/-- The XLATE trap of a lane whose translation fails. -/
def xlateTrap (x : LaneAccess × XlateOut) : Option TrapInfo :=
  match x.2 with
  | .xlate sub => some (x.1.trap causeXlate sub)
  | _ => none

/-- The POISON trap of a lane whose frame is poisoned. -/
def poisonTrap (x : LaneAccess × XlateOut) : Option TrapInfo :=
  match x.2 with
  | .poison => some (x.1.trap causePoison 0)
  | _ => none

/-- The target of a lane that passes its checks. -/
def laneTarget (x : LaneAccess × XlateOut) : Option (LaneAccess × Target) :=
  match x.2 with
  | .ok tg _ => some (x.1, tg)
  | _ => none

theorem xlateTrap_eq_none {x : LaneAccess × XlateOut} (h : ∀ sub, x.2 ≠ .xlate sub) : xlateTrap x = none := by
  obtain ⟨a, o⟩ := x
  cases o with
  | xlate sub => exact absurd rfl (h sub)
  | ok tg e => rfl
  | poison => rfl

theorem poisonTrap_eq_none {x : LaneAccess × XlateOut} (h : x.2 ≠ .poison) : poisonTrap x = none := by
  obtain ⟨a, o⟩ := x
  cases o with
  | poison => exact absurd rfl h
  | ok tg e => rfl
  | xlate sub => rfl

/-- The lane whose access resolves to host memory, where that is not supported (R24). -/
def hostLane (noHost : Bool) (ts : List (LaneAccess × Target)) : Option (LaneAccess × Target) :=
  if noHost then ts.find? fun x => match x.2 with
    | .host _ => true
    | _ => false
  else none

/-- Lanes that all pass have a target each, in their order. -/
theorem filterMap_laneTarget_fst {xs : List (LaneAccess × XlateOut)} (h : ∀ x ∈ xs, ∃ tg e, x.2 = .ok tg e) :
    (xs.filterMap laneTarget).map (fun y => y.1) = xs.map fun x => x.1 := by
  induction xs with
  | nil => rfl
  | cons x rest ih =>
    obtain ⟨tg, e, hx⟩ := h x List.mem_cons_self
    have ht : laneTarget x = some (x.1, tg) := by rw [laneTarget, hx]
    rw [List.filterMap_cons_some ht, List.map_cons, List.map_cons, ih fun y hy => h y (List.mem_cons_of_mem x hy)]

/-! ## The one trap of an access -/

section
variable {d : Dev} {r : ThreadRef} {write noHost : Bool} {l : List LaneAccess}

/-- The lanes inside their limits and aligned: the answer is that of their translations. -/
theorem checkLanes_of_aligned (hin : ∀ x ∈ l, x.inside = true) (hal : ∀ x ∈ l, x.addr.toNat % x.size = 0)
    {xs : List (LaneAccess × XlateOut)} {d1 : Dev} (hx : d.xlateLanes r write l = (xs, d1)) :
    d.checkLanes r write noHost l =
      match xs.findSome? xlateTrap with
      | some k => (.inr k, d1)
      | none => match xs.findSome? poisonTrap with
        | some k => (.inr k, d1)
        | none => match hostLane noHost (xs.filterMap laneTarget) with
          | some x => (.inr ⟨causeIllegal, 0xFF, 0, BitVec.ofNat 8 x.1.lane⟩, d1)
          | none => (.inl (xs.filterMap laneTarget), d1) := by
  have hbounds : l.find? (fun a => !a.inside) = none := List.find?_eq_none.mpr fun x hx => by simp [hin x hx]
  have halign : l.find? (fun a => a.addr.toNat % a.size ≠ 0) = none := List.find?_eq_none.mpr fun x hx => by simp [hal x hx]
  simp only [Dev.checkLanes, hbounds, halign, hx]
  rfl

/-- The first lane outside its limits takes BOUNDS. -/
theorem checkLanes_bounds {a : LaneAccess} (ha : l.find? (fun x => !x.inside) = some a) :
    d.checkLanes r write noHost l = (.inr (a.trap causeBounds 0), d) := by
  simp only [Dev.checkLanes, ha]

/-- With every lane inside its limits, the first that is not aligned takes ALIGN. -/
theorem checkLanes_align (hin : ∀ x ∈ l, x.inside = true) {a : LaneAccess}
    (ha : l.find? (fun x => x.addr.toNat % x.size ≠ 0) = some a) :
    d.checkLanes r write noHost l = (.inr (a.trap causeAlign 0), d) := by
  have hbounds : l.find? (fun a => !a.inside) = none := List.find?_eq_none.mpr fun x hx => by simp [hin x hx]
  simp only [Dev.checkLanes, hbounds, ha]

section
variable (hin : ∀ x ∈ l, x.inside = true) (hal : ∀ x ∈ l, x.addr.toNat % x.size = 0)
  {xs : List (LaneAccess × XlateOut)} {d1 : Dev} (hx : d.xlateLanes r write l = (xs, d1))
include hin hal hx

/-- The first lane whose translation fails takes XLATE. -/
theorem checkLanes_xlate {k : TrapInfo} (hk : xs.findSome? xlateTrap = some k) :
    d.checkLanes r write noHost l = (.inr k, d1) := by
  simp only [checkLanes_of_aligned hin hal hx, hk]

/-- With every lane translated, the first whose frame is poisoned takes POISON. -/
theorem checkLanes_poison (hxl : ∀ x ∈ xs, ∀ sub, x.2 ≠ .xlate sub) {k : TrapInfo} (hk : xs.findSome? poisonTrap = some k) :
    d.checkLanes r write noHost l = (.inr k, d1) := by
  have hnone : xs.findSome? xlateTrap = none := List.findSome?_eq_none_iff.mpr fun x hx => xlateTrap_eq_none (hxl x hx)
  simp only [checkLanes_of_aligned hin hal hx, hnone, hk]

/-- With every lane translated and no frame poisoned, the lanes' targets are the answer. -/
theorem checkLanes_ok (hok : ∀ x ∈ xs, ∃ tg e, x.2 = .ok tg e) :
    d.checkLanes r write false l = (.inl (xs.filterMap laneTarget), d1) := by
  have hxl : xs.findSome? xlateTrap = none := List.findSome?_eq_none_iff.mpr fun x hx =>
    xlateTrap_eq_none (by obtain ⟨tg, e, h⟩ := hok x hx; simp [h])
  have hpo : xs.findSome? poisonTrap = none := List.findSome?_eq_none_iff.mpr fun x hx =>
    poisonTrap_eq_none (by obtain ⟨tg, e, h⟩ := hok x hx; simp [h])
  simp only [checkLanes_of_aligned hin hal hx, hxl, hpo]
  rfl

end

end

/-- Settles O29: the checks are tried in the order BOUNDS, ALIGN, XLATE, POISON, and the trap is that of the first lane that a check
picks. -/
theorem accessChecks : Obligations.AccessChecks := by
  intro d r write noHost l
  refine ⟨fun a ha => checkLanes_bounds ha, fun hin a ha => checkLanes_align hin ha, fun hin hal xs d1 hx => ⟨?xlate, ?poison, ?ok⟩⟩
  case xlate =>
    intro a sub ha
    refine checkLanes_xlate hin hal hx (findSome?_of_find? (fun x _ hp => xlateTrap_eq_none fun sub' e => ?_) ha rfl)
    simp [e] at hp
  case poison =>
    intro a hxl ha
    refine checkLanes_poison hin hal hx hxl (findSome?_of_find? (fun x _ hp => poisonTrap_eq_none fun e => ?_) ha rfl)
    simp [e] at hp
  case ok =>
    intro hhost hok
    subst hhost
    exact ⟨_, checkLanes_ok hin hal hx hok, filterMap_laneTarget_fst hok⟩

end Sys2Proof.Machine
end

section
/-! SUPPORT. Translation stalls (R77, R79): what TRANSLATION_DONE answers for a stalled party, and how a long-latency instruction comes to
stall. -/

namespace Sys2Proof.Machine

/-! ## The end of a stall -/

/-- When nothing is left to be read for a stalled party, its instruction's part behind the stall happens. -/
theorem execTranslationDone_performs {s : State} {r : ThreadRef} {t : Thread} {start len : Nat} {i : Instr} {d : Dev}
    (h : Stalled s r t start i len) (hd : (s.dev.translated r start).afterTranslation s.fuses r t i = some d) :
    execTranslationDone r s = .next (s.withDev d) := by
  have ht : s.dev.translated r start = (s.dev.passed r t.stalledFor).stallOver r start := by simp [Dev.translated, h.thread]
  rw [ht] at hd
  refine happen_some ?_
  simp only [h.thread, h.wait, h.head, h.gate, h.issues, if_true, hd, Option.getD_some]

/-- While a stalled party still needs a walk or a bitmap read, the walker goes on. -/
theorem execTranslationDone_waits {s : State} {r : ThreadRef} {t : Thread} {start n : Nat} {vas : List Nat} {i : Instr} {d : Dev}
    (ht : s.dev.thread r = some t) (hw : t.wait = .translation start vas) (hi : t.head = some (.ok i n))
    (hg : s.dev.gateOf r vas = .wait d) : execTranslationDone r s = .next (s.withDev d) :=
  happen_some (by simp only [ht, hw, hi, hg])

/-! ## The beginning of a stall -/

/-- An instruction that only goes on without a taking-part lane, and else stalls for its accesses. -/
theorem longOp_stalls_or_retires {s : State} {r : ThreadRef} {t : Thread} (h : Issues s r t) {regs : List (BitVec 7)}
    (ha : Allotted s r regs) {f : BitVec 1} (hf : FlagFree t f) {g : Guard} {l : List LaneAccess}
    {act : ThreadRef → Thread → Option Nat → Dev → Dev}
    (hact : act r t (t.flagOf f) s.dev = if t.taking g = 0 then s.dev.retire r 1 else s.dev.stall r (addresses l)) :
    longOp s regs f act = .next (if t.taking g = 0 then s.withDev (s.dev.retire r 1) else s.stalls r l) := by
  rw [longOp_free h ha hf, hact]
  split <;> rfl

end Sys2Proof.Machine
end

section
/-! SUPPORT. Accesses of lanes to memory (R333, R334, R296): the stalls of LDG, STG, XLD and XST, and what they leave once translated. -/

namespace Sys2Proof.Machine

/-! ## At issue -/

section
variable {s : State} {r : ThreadRef} {t : Thread} (hi : Issues s r t) {f : BitVec 1} (hf : FlagFree t f) (d a : BitVec 7)
  (ga : BitVec 6) (x : BitVec 4) (imm : BitVec 8) (ty : BitVec 3) (prv : BitVec 1) (ev : BitVec 2) (g : Guard)
include hi hf

theorem execLdg_stalls (ha : Allotted s r (operandRegs d (typeSize ty) ++ globalRegs ga prv)) :
    execLdg d ga ty prv ev f g s =
      .next (if t.taking g = 0 then s.withDev (s.dev.retire r 1) else s.stalls r (s.dev.globalLanes r t ga ty prv g)) :=
  longOp_stalls_or_retires hi ha hf rfl

theorem execXld_stalls (ha : Allotted s r [112 + x.setWidth 7, a]) :
    execXld x a imm f g s =
      .next (if t.taking g = 0 then s.withDev (s.dev.retire r 1) else s.stalls r (s.dev.xLanes r t a imm g)) :=
  longOp_stalls_or_retires hi ha hf rfl

section
variable (hu : t.unack < 1023)
include hu

theorem execStg_stalls (ha : Allotted s r (operandRegs d (typeSize ty) ++ globalRegs ga prv)) :
    execStg d ga ty prv ev f g s =
      .next (if t.taking g = 0 then s.withDev (s.dev.retire r 1) else s.stalls r (s.dev.globalLanes r t ga ty prv g)) :=
  longOp_stalls_or_retires hi ha hf (by simp [Thread.mayCount, hu])

theorem execXst_stalls (ha : Allotted s r [112 + x.setWidth 7, a]) :
    execXst x a imm f g s =
      .next (if t.taking g = 0 then s.withDev (s.dev.retire r 1) else s.stalls r (s.dev.xLanes r t a imm g)) :=
  longOp_stalls_or_retires hi ha hf (by simp [Thread.mayCount, hu])

end

end

/-! ## Once translated -/

section
variable (dev : Dev) (r : ThreadRef) (t : Thread) (d a : BitVec 7) (x : BitVec 4) (ty : BitVec 3) (f : BitVec 1) (ev : BitVec 2)
  (g : Guard) (ts : List (LaneAccess × Target))

/-- The reads of an LDG at its lanes' targets. -/
def Dev.ldgOp : Op :=
  { dev.opFor r (.load (typeSize ty) (typeSigned ty)) .load (t.flagOf f) (t.taking g) with
    hint := hintOf ev, dest := d, pieces := ts.flatMap fun y => loadPieces y.1.lane y.2 (typeSize ty) d }

/-- The writes of an STG at its lanes' targets. -/
def Dev.stgOp : Op :=
  { dev.opFor r .store .store (t.flagOf f) (t.taking g) with
    hint := hintOf ev, counted := true
    pieces := ts.flatMap fun y => storePieces y.1.lane y.2 ((t.lane y.1.lane).bytes d (typeSize ty)) }

/-- The reads of an XLD at its lanes' targets. -/
def Dev.xldOp : Op :=
  { dev.opFor r .xload .load (t.flagOf f) (t.taking g) with
    dest := 112 + x.setWidth 7, pieces := ts.flatMap fun y => [Piece.new y.1.lane y.2 8, Piece.new y.1.lane (y.2.plus 8) 8] }

/-- The 16 bytes of an index register (R296). -/
def XReg.bytes (v : XReg) : List Byte := natBytes v.v.toNat 4 ++ natBytes v.lo.toNat 4 ++ natBytes v.hi.toNat 4 ++ [0, 0, 0, 0]

/-- The writes of an XST at its lanes' targets. -/
def Dev.xstOp : Op :=
  { dev.opFor r .store .store (t.flagOf f) (t.taking g) with
    counted := true, pieces := ts.flatMap fun y => storePieces y.1.lane y.2 ((t.lane y.1.lane).xr x.toNat).bytes }

variable {dev r t d a x ty f ev g ts} {dev1 : Dev} {ga : BitVec 6} {prv : BitVec 1} {imm : BitVec 8}

theorem Dev.ldgDone_ok (hc : dev.checkLanes r false false (dev.globalLanes r t ga ty prv g) = (.inl ts, dev1)) :
    dev.ldgDone r t d ga ty prv ev f g = some ((dev1.launch (dev1.ldgOp r t d ty f ev g ts)).2.retire r 1) := by
  simp only [Dev.ldgDone, hc, Dev.ldgOp]

theorem Dev.stgDone_ok (hc : dev.checkLanes r true false (dev.globalLanes r t ga ty prv g) = (.inl ts, dev1))
    (hm : dev1.mayLaunch (dev1.stgOp r t d ty f ev g ts) = true) :
    dev.stgDone r t d ga ty prv ev f g = some ((dev1.launch (dev1.stgOp r t d ty f ev g ts)).2.retire r 1) := by
  simp only [Dev.stgDone, hc]
  exact if_pos hm

theorem Dev.xldDone_ok (hc : dev.checkLanes r false false (dev.xLanes r t a imm g) = (.inl ts, dev1)) :
    dev.xldDone r t x a imm f g = some ((dev1.launch (dev1.xldOp r t x f g ts)).2.retire r 1) := by
  simp only [Dev.xldDone, hc, Dev.xldOp]

theorem Dev.xstDone_ok (hc : dev.checkLanes r true false (dev.xLanes r t a imm g) = (.inl ts, dev1))
    (hm : dev1.mayLaunch (dev1.xstOp r t x f g ts) = true) :
    dev.xstDone r t x a imm f g = some ((dev1.launch (dev1.xstOp r t x f g ts)).2.retire r 1) := by
  simp only [Dev.xstDone, hc]
  exact if_pos hm

end

/-- Settles O28: each instruction's stall at issue, the walker's part while it lasts, and the operation that is outstanding after it. -/
theorem globalAndPrivateAccess : Obligations.GlobalAndPrivateAccess := by
  intro s r t d a ga x imm ty prv f ev g size
  refine ⟨?issue, ?walk, ?translated⟩
  case issue =>
    intro hi hf ha goes global index
    have hglobal : Allotted s r (operandRegs d (typeSize ty) ++ globalRegs ga prv) := allotted_sub ha fun q => List.mem_append_left _
    have hindex : Allotted s r [112 + x.setWidth 7, a] := allotted_sub ha fun q => List.mem_append_right _
    exact ⟨execLdg_stalls hi hf d ga ty prv ev g hglobal, execXld_stalls hi hf a x imm g hindex, fun hu =>
      ⟨execStg_stalls hi hf d ga ty prv ev g hu hglobal, execXst_stalls hi hf a x imm g hu hindex⟩⟩
  case walk =>
    intro n start vas i d1 ht hw hh hg
    exact execTranslationDone_waits ht hw hh hg
  case translated =>
    intro n start i ts d1 h d0 op goes
    refine ⟨?ldg, ?stg, ?xld, ?xst⟩
    case ldg =>
      rintro rfl hc
      exact execTranslationDone_performs h (Dev.ldgDone_ok hc)
    case stg =>
      rintro rfl hc o hm
      exact execTranslationDone_performs h (Dev.stgDone_ok hc hm)
    case xld =>
      rintro rfl hc
      exact execTranslationDone_performs h (Dev.xldDone_ok hc)
    case xst =>
      rintro rfl hc o hm
      exact execTranslationDone_performs h (Dev.xstDone_ok hc hm)

end Sys2Proof.Machine
end

section
/-! SUPPORT. Atomics, method calls, sync objects, bindings, array registers, spawns and JMPT (R79, R134, R300, R340 to R347, R385): when
they stall, and what they leave once translated. -/

namespace Sys2Proof.Machine

/-! ## At issue -/

/-- A release operation that nothing keeps waiting is performed. -/
theorem Dev.afterRelease_ready {d : Dev} {r : ThreadRef} {t : Thread} (hr : d.releaseReady r t = true) (hl : t.loss = false)
    (go : Dev → Dev) : d.afterRelease r t go = go d := by
  simp [Dev.afterRelease, Dev.afterReleaseIn, hr, hl]

/-- An instruction whose order may have a release part, when nothing keeps that part waiting. -/
theorem ordRel_ready {d : Dev} {r : ThreadRef} {t : Thread} {ord : BitVec 2}
    (h : ord.getLsbD 1 = true → d.releaseReady r t = true ∧ t.loss = false) (go : Dev → Dev) :
    (if ordRel ord then d.afterRelease r t go else go d) = go d := by
  split
  · obtain ⟨hr, hl⟩ := h ‹_›
    exact Dev.afterRelease_ready hr hl go
  · rfl

/-- Two lists of fields lie in the allotment when both do. -/
theorem allotted_append {s : State} {r : ThreadRef} {l m : List (BitVec 7)} :
    Allotted s r (l ++ m) ↔ Allotted s r l ∧ Allotted s r m := by
  rw [allotted_iff s r (l ++ m), allotted_iff s r l, allotted_iff s r m]
  simp only [List.mem_append, or_imp, forall_and]

/-- A long-latency instruction that stalls at once. -/
theorem longOp_stalls {s : State} {r : ThreadRef} {t : Thread} (h : Issues s r t) {regs : List (BitVec 7)} (ha : Allotted s r regs)
    {f : BitVec 1} (hf : FlagFree t f) {vas : List Nat} {act : ThreadRef → Thread → Option Nat → Dev → Dev}
    (hact : act r t (t.flagOf f) s.dev = s.dev.stall r vas) : longOp s regs f act = .next (s.withDev (s.dev.stall r vas)) := by
  rw [longOp_free h ha hf, hact]

section
variable {s : State} {r : ThreadRef} {t : Thread} (hi : Issues s r t) {f : BitVec 1} (hf : FlagFree t f) {g : Guard}
  (ht : t.taking g ≠ 0) {d c scale : BitVec 7} {a tt : BitVec 6} {op : BitVec 4} {ord : BitVec 2} {dfmt arr k o : BitVec 4}
  (sfmt b : BitVec 4) (pd scope : BitVec 3) (n : BitVec 5)
include hi hf ht

theorem execAtom_stalls (hu : t.unack < 1023) (hrel : ord.getLsbD 1 = true → s.dev.releaseReady r t = true ∧ t.loss = false)
    (ha : Allotted s r (operandRegs d (atomSize dfmt) ++ addrRegs a ++ operandRegs c (atomSize dfmt) ++
      if op = 7 then operandRegs scale (atomSize dfmt) else [])) :
    execAtom d a op ord f g c dfmt sfmt scale s =
      .next (s.withDev (s.dev.stall r (addresses (t.pointLanes a (atomSize dfmt) (t.taking g))))) := by
  refine longOp_stalls hi ha hf ?_
  simp only [if_neg ht, Thread.mayCount, hu, decide_true, Bool.not_true, Bool.false_eq_true, if_false]
  exact ordRel_ready hrel _

theorem execCallm_stalls (hw : s.dev.admissionWaits r = false)
    (hrel : ord.getLsbD 1 = true → s.dev.releaseReady r t = true ∧ t.loss = false)
    (ha : Allotted s r (regRun d 2 ++ addrRegs a ++ regRun c 2 ++ [scale])) :
    execCallm d a pd ord f g c sfmt scale s =
      .next (s.withDev (s.dev.stall r (addresses (t.pointLanes a 8 (t.taking g))))) := by
  refine longOp_stalls hi ha hf ?_
  simp only [if_neg ht, hw, Bool.false_eq_true, if_false]
  exact ordRel_ready hrel _

theorem execAcq_stalls (ha : Allotted s r (regRun d 2 ++ addrRegs a)) :
    execAcq d a scope f g s = .next (s.withDev (s.dev.stall r (addresses (t.objectLanes a (t.taking g))))) :=
  longOp_stalls hi ha hf (if_neg ht)

theorem execRel_stalls (hr : s.dev.releaseReady r t = true) (hl : t.loss = false) (ha : Allotted s r (regRun d 2 ++ addrRegs a)) :
    execRel d a scope f g s = .next (s.withDev (s.dev.stall r (addresses (t.objectLanes a (t.taking g))))) :=
  longOp_stalls hi ha hf ((if_neg ht).trans (Dev.afterRelease_ready hr hl _))

theorem execBind_stalls : execBind pd o b n f g s = .next (s.withDev (s.dev.stall r [(t.kpair o.toNat).toNat])) :=
  longOp_stalls hi (allotted_nil s r) hf (if_neg ht)

theorem execArm_stalls (hw : s.dev.waveA0 r arr = false) :
    execArm pd arr f g s = .next (s.withDev (s.dev.stall r (t.arrays.getD arr.toNat ArrReg.reset).pages)) :=
  longOp_stalls hi (allotted_nil s r) hf (by simp only [if_neg ht, hw, Bool.false_eq_true, if_false])

theorem execAld_stalls (hw : s.dev.waveA0 r arr = false) :
    execAld arr k f g s = .next (s.withDev (s.dev.stall r [(t.kpair k.toNat).toNat])) :=
  longOp_stalls hi (allotted_nil s r) hf (by simp only [if_neg ht, hw, Bool.false_eq_true, if_false])

/-- SPAWN and SPAWN.AT, unless they wait already behind their checks. -/
theorem spawnOp_stalls (hw : t.wait ≠ .retry) {regs : List (BitVec 7)} (ha : Allotted s r regs) (x : Option (BitVec 6)) :
    spawnOp s regs pd a x f g = .next (s.withDev (s.dev.stall r
      (addresses (t.spawnRecs (spawnLanes (t.taking g) a x) a ++ t.spawnTargets (spawnLanes (t.taking g) a x) x)))) :=
  longOp_stalls hi ha hf (by simp only [if_neg ht, hw, decide_false, Bool.false_and, Bool.false_eq_true, if_false])

end

/-- A change of a core that leaves its waves leaves the waves of every core. -/
theorem waves_onCore (d : Dev) {f : Core → Core} (hr : ∀ k, (f k).ref = k.ref) (hw : ∀ k, (f k).waves = k.waves) (c e : CoreRef) :
    ((d.onCore c f).core e).waves = (d.core e).waves := by
  rw [core_onCore d hr]
  split
  · rw [hw, ‹e = c›]
  · rfl

/-- Counting leaves every party's wave as it is. -/
theorem waveOf_count (d : Dev) (r q : ThreadRef) (code n : Nat) : (d.count r code n).waveOf q = d.waveOf q := by
  have hwaves : ∀ c, ((d.count r code n).core c).waves = (d.core c).waves := fun c => by
    unfold Dev.count
    cases d.groupOf r with
    | none => exact waves_onCore d (by exact fun _ => rfl) (by exact fun _ => rfl) _ c
    | some g => exact waves_onCore (d.onGroup g.gid _) (by exact fun _ => rfl) (by exact fun _ => rfl) _ c
  cases q with
  | wave c slot => exact congrArg (fun l => List.getD l slot none) (hwaves c)
  | warp gid wid => rfl
  | seq c copy => rfl

/-- JMPT of a table of 8-byte elements, when its pins do not elide the stall. -/
theorem execJmpt_stalls {s : State} {r : ThreadRef} {t : Thread} (hi : Issues s r t) {arr x : BitVec 4} {imm : BitVec 8}
    (ha : Allotted s r [112 + x.setWidth 7]) (hw : s.dev.waveA0 r arr = false) (hz : (t.arr arr).z = 3)
    (hl : t.arrayLanes arr x imm.toInt t.active ≠ []) (he : t.elided arr x imm.toInt = false ∨ (t.arr arr).armed = false) :
    execJmpt arr x imm s = .next (s.withDev ((s.dev.count r (if t.elided arr x imm.toInt then 7 else 6) 1).stall r
      (addresses (t.arrayLanes arr x imm.toInt t.active)))) := by
  have hel : (t.elided arr x imm.toInt && (t.arr arr).armed) = false := Bool.and_eq_false_iff.mpr he
  have hne : (t.arrayLanes arr x imm.toInt t.active).isEmpty = false := by simpa using hl
  simp only [Dev.waveA0] at hw
  rw [execJmpt, runFor_issues hi]
  simp only [show s.dev.allotTrap r [112 + x.setWidth 7] = none from ha, hz, ne_eq, not_true_eq_false, if_false, waveOf_count, hw,
    Thread.tableLanes, hel, hne, Bool.false_eq_true]

/-! ## Once translated: atomics and sync objects -/

section
variable (dev : Dev) (r : ThreadRef) (t : Thread) (d c scale : BitVec 7) (op : BitVec 4) (ord : BitVec 2) (scope : BitVec 3)
  (dfmt sfmt arr : BitVec 4) (f : BitVec 1) (g : Guard) (ts : List (LaneAccess × Target))

/-- The atomics of an ATOM at its lanes' targets. -/
def Dev.atomOp : Op :=
  { dev.opFor r (.atomic op.toNat (dfmt = 3) (dfmt = 8) (ordAcq ord sfmt)) .atomic (t.flagOf f) (t.taking g) with
    dest := d, counted := true, pieces := ts.map fun y =>
      { Piece.new y.1.lane y.2 (atomSize dfmt) with
        regs := regParts d (atomSize dfmt), data := (t.lane y.1.lane).bytes c (atomSize dfmt)
        cmp := if op = 7 then bytesD ((t.lane y.1.lane).bytes scale (atomSize dfmt)) else 0 } }

/-- The reads of an ACQ at its objects. -/
def Dev.acqOp : Op :=
  { dev.opFor r (.acq scope.toNat) .load (t.flagOf f) (t.taking g) with
    dest := d, pieces := ts.map fun y => Piece.new y.1.lane y.2 8 }

/-- The writes of a REL at its objects. -/
def Dev.relOp : Op :=
  { dev.opFor r .rel .store (t.flagOf f) (t.taking g) with
    counted := true, pieces := ts.map fun y => { Piece.new y.1.lane y.2 8 with data := (t.lane y.1.lane).bytes d 8 } }

/-- The read of an ALD's descriptor. -/
def Dev.aldOp : Op :=
  { dev.opFor r (.ald arr.toNat) .load (t.flagOf f) 1 with
    pieces := ts.flatMap fun y => [Piece.new 0 y.2 8, Piece.new 0 (y.2.plus 8) 8] }

/-- The reads of a JMPT's table elements. -/
def Dev.jmptOp : Op :=
  { dev.opFor r .jmpt .load none t.active with pieces := ts.map fun y => Piece.new y.1.lane y.2 8 }

/-- An operation is outstanding, and its party waits for it. -/
def Dev.launchHeld (o : Op) : Dev := (dev.launch o).2.hold r (.op (dev.launch o).1)

/-- An operation is outstanding, and its party waits while a message of it has still to leave. -/
def Dev.launchSent (o : Op) : Dev :=
  if ((dev.launch o).2.op (dev.launch o).1).any Op.unsent then dev.launchHeld r o else (dev.launch o).2.retire r 1

variable {dev r t d c scale op ord scope dfmt sfmt arr f g ts} {dev1 : Dev} {a : BitVec 6} {x k : BitVec 4} {imm : BitVec 8}

/-- An ordered ATOM with a lane at an address that is no multiple of 8 takes ALIGN (log 48). -/
theorem Dev.atomDone_align (ho : ord ≠ 0) {l : LaneAccess}
    (hl : (t.pointLanes a (atomSize dfmt) (t.taking g)).find? (fun l => l.addr.toNat % 8 ≠ 0) = some l) :
    dev.atomDone r t d a op ord f g c dfmt sfmt scale = some (dev.raise r (l.trap causeAlign 0)) := by
  simp only [Dev.atomDone, ho, ne_eq, not_false_eq_true, decide_true, Bool.true_and]
  simp only [ne_eq] at hl
  rw [hl]

theorem Dev.atomDone_ok (ho : ord ≠ 0 → ∀ l ∈ t.pointLanes a (atomSize dfmt) (t.taking g), l.addr.toNat % 8 = 0)
    (hc : dev.checkLanes r true (!(op = 0 || op = 6 || op = 7)) (t.pointLanes a (atomSize dfmt) (t.taking g)) = (.inl ts, dev1))
    (hm : dev1.mayLaunch (dev1.atomOp r t d c scale op ord dfmt sfmt f g ts) = true) :
    dev.atomDone r t d a op ord f g c dfmt sfmt scale =
      some (((dev1.launch (dev1.atomOp r t d c scale op ord dfmt sfmt f g ts)).2.dropAudit r).retire r 2) := by
  have hnone : (t.pointLanes a (atomSize dfmt) (t.taking g)).find? (fun l => ord ≠ 0 && l.addr.toNat % 8 ≠ 0) = none :=
    List.find?_eq_none.mpr fun l hl => by simpa using fun h => ho h l hl
  simp only [Dev.atomDone, hnone, hc]
  exact if_pos hm

theorem Dev.acqDone_ok (hc : dev.checkLanes r false true (t.objectLanes a (t.taking g)) = (.inl ts, dev1)) :
    dev.acqDone r t d a scope f g = some (dev1.launchHeld r (dev1.acqOp r t d scope f g ts)) := by
  simp only [Dev.acqDone, hc]
  rfl

theorem Dev.relDone_ok (hc : dev.checkLanes r true true (t.objectLanes a (t.taking g)) = (.inl ts, dev1))
    (hm : dev1.mayLaunch (dev1.relOp r t d f g ts) = true) :
    dev.relDone r t d a f g = some (dev1.launchSent r (dev1.relOp r t d f g ts)) := by
  simp only [Dev.relDone, hc]
  exact if_pos hm

theorem Dev.aldDone_ok (hc : dev.checkLanes r false false [⟨0, t.kpair k.toNat, true, 16⟩] = (.inl ts, dev1)) :
    dev.aldDone r t arr k f = some (dev1.launchHeld r (dev1.aldOp r t arr f ts)) := by
  simp only [Dev.aldDone, hc]
  rfl

theorem Dev.jmptDone_ok (hc : dev.checkLanes r false false (t.arrayLanes arr x imm.toInt t.active) = (.inl ts, dev1)) (ht : ts ≠ [])
    (hq : t.clause ≠ none) : dev.jmptDone r t arr x imm = some (dev1.launchHeld r (dev1.jmptOp r t ts)) := by
  obtain ⟨q, hq⟩ := Option.ne_none_iff_exists'.mp hq
  have hne : ts.isEmpty = false := by simpa using ht
  simp only [Dev.jmptDone, Thread.tableLanes, hc, Dev.jmptRead, hq, hne, Bool.false_eq_true, if_false]
  rfl

end

/-! ## Once translated: bindings and array registers -/

/-- The object that a binding names is the address in its first word's bits 55 to 3 (R112). -/
theorem bindingObject_toNat (x : Nat × DWord × DWord) : (bindingObject x).toNat = 8 * (x.2.1.toNat / 8 % 2 ^ 53) := by
  simp only [bindingObject, bits, BitVec.toNat_ofNat]
  omega

section
variable {dev dev1 : Dev} {r : ThreadRef} {t : Thread} {pd : BitVec 3} {o b arr : BitVec 4} {n : BitVec 5} {g : Guard}

/-- BIND of an aligned base for an aligned object, once the object is translated. -/
theorem Dev.bindDone_ok (ho : (t.kpair o.toNat).toNat % 8 = 0) (hb : (t.kpair b.toNat).toNat % 4096 = 0)
    (hor : (t.kpair o.toNat).toNat / 2 ^ 54 < 2) (hbr : (t.kpair b.toNat).toNat / 2 ^ 54 < 2) {tg : Target} {e : TlbEntry}
    (hx : dev.xlate r (t.kpair o.toNat).toNat false = (.ok tg e, dev1)) {q : Bool × Dev}
    (hq : dev1.bindRegion (dev1.coreOf r) (dev1.tagOf r) (t.kpair o.toNat).toNat (t.kpair b.toNat).toNat (t.sreg n.toNat).toNat = q) :
    dev.bindDone r t pd o b n g = some (q.2.bindStatus r pd g q.1) := by
  subst hq
  simp only [Dev.bindDone, ho, hb, hx, Nat.ne_of_lt hor, Nat.ne_of_lt hbr, Nat.not_le.mpr (Nat.lt_succ_of_lt hor),
    Nat.not_le.mpr (Nat.lt_succ_of_lt hbr), ne_eq, not_true_eq_false, decide_false, Bool.or_false, Bool.false_eq_true, if_false]

/-- ARM, once its walks have ended without a fault. -/
theorem Dev.armDone_ok {ok : Bool} (ha : dev.armArray r arr.toNat = (.inl ok, dev1)) :
    dev.armDone r pd arr g = some ((dev1.onThread r fun t => t.setPred pd (t.taking g) ok).retire r 1) := by
  simp only [Dev.armDone, ha]

section
variable {x : Nat × DWord × DWord} (hb : dev.bindingAt r (t.kpair b.toNat).toNat = some x)
include hb

/-- UNBIND of an object whose translation fails (log 53). -/
theorem Dev.unbindDone_xlate {sub : Nat} (hx : dev.xlate r (bindingObject x).toNat false = (.xlate sub, dev1)) :
    dev.unbindDone r t pd b g = some (dev1.raise r (warpTrap causeXlate sub (bindingObject x))) := by
  simp only [Dev.unbindDone, hb, hx]

/-- UNBIND of an object in a poisoned frame (log 53). -/
theorem Dev.unbindDone_poison (hx : dev.xlate r (bindingObject x).toNat false = (.poison, dev1)) :
    dev.unbindDone r t pd b g = some (dev1.raise r (warpTrap causePoison 0 (bindingObject x))) := by
  simp only [Dev.unbindDone, hb, hx]

/-- UNBIND of a translated object: the binding loses its valid bit. -/
theorem Dev.unbindDone_ok {tg : Target} {e : TlbEntry} (hx : dev.xlate r (bindingObject x).toNat false = (.ok tg e, dev1)) :
    dev.unbindDone r t pd b g = some ((dev1.homeWrite ((dev1.ctxD (dev1.ctxOf r) 32).toNat + 16 * x.1)
      (natBytes (x.2.1.toNat % 2 ^ 63) 8)).bindStatus r pd g true) := by
  simp only [Dev.unbindDone, hb, hx]

end

end

/-- Settles O32: the stall of each instruction at issue, and what each leaves once its translations are done. -/
theorem syncStalls : Obligations.SyncStalls := by
  refine ⟨?issue, ?translated⟩
  case issue =>
    intro s r t d c scale a tt op ord f g dfmt sfmt arr x k o b pd scope n imm hi hf ha ht hrel hw stalls points objects spawns size
    obtain ⟨haddr, hx⟩ := allotted_append.mp ha
    obtain ⟨haddr, htarget⟩ := allotted_append.mp haddr
    refine ⟨fun hu h => ?atom, fun h hq => ?callm, fun h => ?acq, fun h hr hl => ?rel, ?bind, ?arm, ?ald, fun hwait => ?spawn,
      fun hz hl he => ?jmpt⟩
    case atom =>
      obtain ⟨hdc, hscale⟩ := allotted_append.mp h
      obtain ⟨hd, hc⟩ := allotted_append.mp hdc
      exact execAtom_stalls hi hf ht sfmt hu hrel
        (allotted_append.mpr ⟨allotted_append.mpr ⟨allotted_append.mpr ⟨hd, haddr⟩, hc⟩, hscale⟩)
    case callm =>
      obtain ⟨hdc, hscale⟩ := allotted_append.mp h
      obtain ⟨hd, hc⟩ := allotted_append.mp hdc
      exact execCallm_stalls hi hf ht sfmt pd hq hrel
        (allotted_append.mpr ⟨allotted_append.mpr ⟨allotted_append.mpr ⟨hd, haddr⟩, hc⟩, hscale⟩)
    case acq => exact execAcq_stalls hi hf ht scope (allotted_append.mpr ⟨h, haddr⟩)
    case rel => exact execRel_stalls hi hf ht scope hr hl (allotted_append.mpr ⟨h, haddr⟩)
    case bind => exact execBind_stalls hi hf ht b pd n
    case arm => exact execArm_stalls hi hf ht pd hw
    case ald => exact execAld_stalls hi hf ht hw
    case spawn =>
      exact ⟨spawnOp_stalls hi hf ht pd hwait haddr none,
        spawnOp_stalls hi hf ht pd hwait (allotted_append.mpr ⟨haddr, htarget⟩) (some tt)⟩
    case jmpt => exact execJmpt_stalls hi hx hw hz hl he
  case translated =>
    intro s r t d c scale a op ord f g dfmt sfmt arr x k o b pd scope n imm i len start ts d1 d2 h d0 goes size lanes
    refine ⟨?align, ?atom, ?callm, ?acq, ?rel, ?unbind, ?bind, ?arm, ?ald, ?jmpt⟩
    case align =>
      rintro rfl ho l hl
      exact execTranslationDone_performs h (Dev.atomDone_align ho hl)
    case atom =>
      rintro rfl ho hc q hm
      exact execTranslationDone_performs h (Dev.atomDone_ok ho hc hm)
    case callm =>
      rintro rfl hd
      exact execTranslationDone_performs h hd
    case acq =>
      rintro rfl hc
      exact execTranslationDone_performs h (Dev.acqDone_ok hc)
    case rel =>
      rintro rfl hc q hm
      exact execTranslationDone_performs h (Dev.relDone_ok hc hm)
    case unbind =>
      rintro rfl y hy object q e1 hq
      have hobject : (bindingObject y).toNat = object := bindingObject_toNat y
      have haddress : bindingObject y = BitVec.ofNat 64 object := by rw [← hobject, BitVec.ofNat_toNat, BitVec.setWidth_eq]
      rw [← hobject] at hq
      rw [← haddress]
      refine ⟨fun sub hs => ?_, fun hp => ?_, fun tg e hk => ?_⟩
      · exact execTranslationDone_performs h (Dev.unbindDone_xlate hy (hs ▸ hq))
      · exact execTranslationDone_performs h (Dev.unbindDone_poison hy (hp ▸ hq))
      · exact execTranslationDone_performs h (Dev.unbindDone_ok hy (hk ▸ hq))
    case bind =>
      rintro rfl ho hb hor hbr tg e hx q
      exact execTranslationDone_performs h (Dev.bindDone_ok ho hb hor hbr hx rfl)
    case arm =>
      rintro rfl ok hok
      exact execTranslationDone_performs h (Dev.armDone_ok hok)
    case ald =>
      rintro rfl hc
      exact execTranslationDone_performs h (Dev.aldDone_ok hc)
    case jmpt =>
      rintro rfl hc hts hq
      exact execTranslationDone_performs h (Dev.jmptDone_ok hc hts hq)

end Sys2Proof.Machine
end

section
/-! SUPPORT. Scheduling events (R92, R141, R199, R200, R211, R405 to R412, R415): what each event answers when its conditions hold. -/

namespace Sys2Proof.Machine

/-! ## Records and groups -/

section
variable {s : State} {die q gid : Nat} {rec : Rec} {d1 : Dev} {g : Group}

/-- The first record in order that can be taken is dispatched (R408, R415). -/
theorem execDispatch_takes {pre post : List Rec} (hc : s.dev.clocked = true) (hd : die < 4)
    (hh : s.dev.heads die = pre ++ rec :: post) (hpre : ∀ x ∈ pre, s.dev.takeRec die die x = none)
    (ht : s.dev.takeRec die die rec = some d1) : execDispatch die s = .next (s.withDev d1) := by
  have hfirst : (s.dev.heads die).findSome? (fun r => s.dev.takeRec die die r) = some d1 := by
    rw [hh, List.findSome?_append, List.findSome?_eq_none_iff.mpr hpre, Option.none_or, List.findSome?_cons, ht]
  have hne : (s.dev.heads die).isEmpty = false := by simp [hh]
  refine happen_some ?_
  simp only [hc, Nat.not_le.mpr hd, hne, Bool.not_true, decide_false, Bool.or_false, Bool.false_eq_true, if_false, hfirst]

/-- A released batch enters a pool (R410). -/
theorem execSuccessorEntry_enters (h : s.dev.enterFirst die [] (s.dev.die die).batches = some d1) :
    execSuccessorEntry die s = .next (s.withDev d1) := happen_some h

/-- A spilled record returns as the spill region holds it (R412). -/
theorem execSpillReturn_returns {place : Nat} (hr : s.dev.returning die = some (place, rec)) :
    execSpillReturn die s = .next (s.withDev (s.dev.onDie die fun (k : Die) =>
      { k with pool := k.pool ++ [rec.fromSpill (s.dev.homeRead (s.dev.spillAt die rec.ctx place) 128)]
               spill := k.spill.erase (place, rec) })) :=
  happen_some (by simp only [hr])

/-- An idle group without a loss completes its record and gives its resources back (R141). -/
theorem execGroupComplete_completes (hg : s.dev.group gid = some g) (hi : s.dev.groupIdle g = true)
    (hl : ∀ x ∈ g.warps, x.loss = false) (hc : (s.dev.sign g.record).completeRec g.core g.record = some d1) :
    execGroupComplete gid s = .next (s.withDev ((d1.releaseGroup g).memberDone g)) := by
  have hlost : (g.warps.filter fun w => w.loss) = [] := List.filter_eq_nil_iff.mpr fun x hx => by simp [hl x hx]
  exact happen_some (by simp only [hg, hi, hlost, hc]; rfl)

end

/-! ## Registers that poison leaves -/

/-- A fold whose steps leave the registers leaves them. -/
theorem foldl_regs {α : Type} {f : Dev → α → Dev} (hf : ∀ d x, (f d x).regs = d.regs) (l : List α) (d : Dev) :
    (l.foldl f d).regs = d.regs :=
  List.foldlRecOn (motive := fun e => e.regs = d.regs) l f rfl fun e he x _ => (hf e x).trans he

theorem freePins_regs (d : Dev) (c : CoreRef) : (d.freePins c).regs = d.regs := by
  unfold Dev.freePins
  split <;> rfl

theorem revoke_regs (d : Dev) (p : TlbEntry → Bool) : (d.revoke p).regs = d.regs := by
  unfold Dev.revoke
  dsimp only
  split
  · rfl
  · exact foldl_regs (fun e (k : Core) => freePins_regs e k.ref) _ _

theorem revokeSpan_regs (d : Dev) (lpa n : Nat) : (d.revokeSpan lpa n).regs = d.regs := by
  unfold Dev.revokeSpan
  split
  · rfl
  · exact revoke_regs d _

theorem setPoison_regs (d : Dev) (lpa : Nat) : (d.setPoison lpa).regs = d.regs := revokeSpan_regs _ _ _

/-- Reading uncorrectable lines poisons frames and leaves the registers. -/
theorem poisonRead_regs (d : Dev) (tag : BitVec 16) (va n : Nat) : (d.poisonRead tag va n).regs = d.regs := by
  refine foldl_regs (fun e k => ?_) _ d
  split
  · split
    · exact setPoison_regs e _
    · rfl
  · rfl

/-- The context of a slot is read from its register. -/
theorem slotCtx_of_regs {d e : Dev} (h : e.regs = d.regs) (q : Nat) : e.slotCtx q = d.slotCtx q := by
  simp only [Dev.slotCtx, Dev.reg, h]

/-! ## Queue slots -/

/-- A device that has read a bad descriptor: where POISON is the cause, the frames of its uncorrectable lines are poisoned (R92). -/
def Dev.metDescriptor (d : Dev) (q a : Nat) (c : BitVec 8) : Dev :=
  if c = causePoison then d.poisonRead (d.tag (d.slotCtx q)) a 64 else d

theorem slotCtx_metDescriptor (d : Dev) (q a : Nat) (c : BitVec 8) : (d.metDescriptor q a c).slotCtx q = d.slotCtx q := by
  unfold Dev.metDescriptor
  split
  · exact slotCtx_of_regs (poisonRead_regs _ _ _ _) q
  · rfl

section
variable {s : State} {q : Nat}

section
variable (ho : s.dev.on = true) (hm : s.dev.slotMapped q = true) (ht : s.dev.tailOf q ≠ s.dev.headOf q) (hb : (s.dev.slot q).batch = none)
include ho hm ht hb

/-- A bad descriptor is refused and skipped (R405, R406). -/
theorem execDescriptorRead_refuses {a : Nat} {c : BitVec 8} (hd : s.dev.descriptor q = .inr (a, c)) :
    execDescriptorRead q s = .next (s.withDev (((s.dev.metDescriptor q a c).refuse (s.dev.slotCtx q) q c a).nextHead q)) := by
  have hctx := slotCtx_metDescriptor s.dev q a c
  unfold Dev.metDescriptor at hctx ⊢
  exact happen_some (by
    simp only [ho, hm, ht, hb, hd, hctx, Bool.not_true, decide_false, Bool.or_self, Bool.false_eq_true, if_false])

/-- A descriptor's records are fed (R406). -/
theorem execDescriptorRead_feeds {a : Nat} {b : Batch} (hd : s.dev.descriptor q = .inl (a, b)) :
    execDescriptorRead q s = .next (s.withDev (s.dev.feed q b).2) :=
  happen_some (by simp only [ho, hm, ht, hb, hd, Bool.not_true, decide_false, Bool.or_self, Bool.false_eq_true, if_false])

end

/-- A register reads as before when another one is written. -/
theorem reg_setReg_ne (d : Dev) {r p : Reg} (h : r ≠ p) (v : DWord) : (d.setReg p v).reg r = d.reg r := by
  have hfind : (d.regs.filter fun x => x.1 ≠ p).find? (fun x => x.1 = r) = d.regs.find? fun x => x.1 = r := by
    rw [List.find?_filter]
    refine congrArg (fun test => d.regs.find? test) (funext fun x => ?_)
    by_cases hx : x.1 = r
    · simp only [hx, h, ne_eq, not_false_eq_true, decide_true, and_self]
    · simp only [hx, decide_false, Bool.false_eq_true, and_false]
  simp only [Dev.reg, Dev.setReg, List.find?_cons, decide_eq_false h.symm, hfind]

/-- Suspending a slot leaves its budget register. -/
theorem qbudget_setSusp (d : Dev) (q n : Nat) (v : Bool) : (d.setSusp q v).reg (.qbudget n) = d.reg (.qbudget n) :=
  reg_setReg_ne d (by simp) _

/-- At its deadline a slot has its budget again (R407). -/
theorem execSlotDeadline_refills (hm : s.dev.slotMapped q = true) (hp : (s.dev.reg (.qperiod q)).toNat ≠ 0)
    (hd : (s.dev.slot q).deadline ≤ s.dev.now) :
    execSlotDeadline q s = .next (s.withDev ((if (s.dev.slot q).partSusp then s.dev.setSusp q false else s.dev).onSlot q fun (x : Slot) =>
      { x with
        remain := (s.dev.reg (.qbudget q)).toNat, deadline := x.deadline + 1000 * (s.dev.reg (.qperiod q)).toNat
        partSusp := false, overrun := false })) := by
  have hbudget : (if (s.dev.slot q).partSusp then s.dev.setSusp q false else s.dev).reg (.qbudget q) = s.dev.reg (.qbudget q) := by
    split
    · exact qbudget_setSusp s.dev q q false
    · rfl
  refine happen_some ?_
  simp only [hm, hp, Nat.not_lt.mpr hd, hbudget, Bool.not_true, decide_false, Bool.or_false, Bool.false_eq_true, if_false]

/-- A device that has suspended slot `q` for its spent budget (R407). -/
def Dev.overrunSlot (d : Dev) (q : Nat) : Dev :=
  let e := (d.setSusp q true).onSlot q fun (x : Slot) => { x with overrun := true, partSusp := x.partSusp || !d.slotSusp q }
  { e with overruns := if e.overruns.contains q then e.overruns else e.overruns ++ [q] }

/-- A slot whose budget is spent while groups of it are resident is suspended and reported (R407). -/
theorem execOverrun_suspends (hp : (s.dev.reg (.qperiod q)).toNat ≠ 0) (hr : (s.dev.slot q).remain = 0)
    (ho : (s.dev.slot q).overrun = false) (hn : s.dev.residents q ≠ 0) :
    execOverrun q s = .next (s.withDev ((s.dev.overrunSlot q).event
      ⟨2, 0x40, (s.dev.overrunSlot q).slotCtx q, 0xFFFF, q, BitVec.ofNat 64 q, 0, 0⟩)) := by
  have hp' : s.dev.reg (.qperiod q) ≠ 0 := fun e => hp (by rw [e]; rfl)
  refine happen_some ?_
  simp only [hp', hr, ho, hn, ne_eq, not_true_eq_false, decide_false, Bool.or_false, Bool.false_eq_true, if_false, Dev.overrunSlot]

end

/-! ## Register writes of a slot -/

section
variable {s : State} {w : RegWrite} {ws : List RegWrite} (hw : s.dev.regBus = w :: ws) (ho : s.dev.on = true) {q : Nat}
include hw ho

/-- A notify posts its tail to the tail word, which a mapped slot takes (R405). -/
theorem execQnotify_posts (hr : w.reg = .qnotify q) {t : Target} (ht : s.dev.tailWord q true = .inl t)
    (hp : s.dev.placeWaits t 4 = false) (hm : (s.dev.sideWrite t (natBytes (bits w.value 31 0) 4)).slotMapped q = true) :
    execQnotify s = .next (s.withDev
      (((s.dev.sideWrite t (natBytes (bits w.value 31 0) 4)).takeTail q (bits w.value 31 0)).busDone w)) :=
  onWrite_some hw ho (by simp only [hr, ht, hp, hm, Bool.false_eq_true, if_false, if_true])

/-- A device whose slot `q` a write of QCTL opens: a reservation starts its period (R407). -/
def Dev.openSlot (d : Dev) (q : Nat) (v : DWord) : Dev :=
  (d.storeReg (.qctl q) v).onSlot q fun (x : Slot) => { x with
    partSusp := false, overrun := false, charged := 0
    remain := if ((d.storeReg (.qctl q) v).reg (.qperiod q)).toNat = 0 then x.remain
      else ((d.storeReg (.qctl q) v).reg (.qbudget q)).toNat
    deadline := if ((d.storeReg (.qctl q) v).reg (.qperiod q)).toNat = 0 then x.deadline
      else (d.storeReg (.qctl q) v).now + 1000 * ((d.storeReg (.qctl q) v).reg (.qperiod q)).toNat }

/-- A slot that is mapped takes its tail word (R405). -/
theorem execQctlMap_opens (hr : w.reg = .qctl q) (hv : bits w.value 63 63 = 1) (hm : s.dev.slotMapped q = false) {v : Nat}
    (ht : (s.dev.openSlot q w.value).readTail q = .inl v) :
    execQctlMap s = .next (s.withDev (((s.dev.openSlot q w.value).takeTail q v).busDone w)) := by
  unfold Dev.openSlot at ht ⊢
  exact onWrite_some hw ho (by simp only [hr, hv, hm, ht, Nat.reduceEqDiff, decide_false, Bool.or_self, Bool.false_eq_true, if_false])

/-- A slot that is unmapped records its tail word and closes (R405). -/
theorem execQctlUnmap_closes (hr : w.reg = .qctl q) (hv : bits w.value 63 63 = 0) (hm : s.dev.slotMapped q = true) {v : Nat}
    (ht : s.dev.readTail q = .inl v) :
    execQctlUnmap s = .next (s.withDev ((((s.dev.setReg (.qtail q)
      (BitVec.ofNat 64 ((s.dev.reg (.qtail q)).toNat / 2 ^ 32 * 2 ^ 32 + v))).storeReg (.qctl q) w.value).onSlot q fun (x : Slot) =>
        { x with partSusp := false }).busDone w)) :=
  onWrite_some hw ho (by
    simp only [hr, hv, hm, ht, Nat.reduceEqDiff, Bool.not_true, decide_false, Bool.or_self, Bool.false_eq_true, if_false])

end

/-! ## Clauses -/

/-- The longest wait of a frontier is one of its entries'. -/
theorem longestWaiting_mem {f : List Entry} {e : Entry} (h : longestWaiting f = some e) : e ∈ f := by
  induction f generalizing e with
  | nil => cases h
  | cons a f ih =>
    simp only [longestWaiting] at h
    split at h
    · rename_i x hx
      split at h
      · cases h; exact List.mem_cons_of_mem a (ih hx)
      · cases h; exact List.mem_cons_self
    · cases h; exact List.mem_cons_self

/-- A frontier that is not empty has an entry that waits longest. -/
theorem longestWaiting_cons (e : Entry) (f : List Entry) : ∃ w, longestWaiting (e :: f) = some w := by
  simp only [longestWaiting]
  split
  · split <;> exact ⟨_, rfl⟩
  · exact ⟨_, rfl⟩

/-- At a loop count of 64, with no entry at the wait limit, the second entry is chosen (R199). -/
theorem chooseEntry_byLoop {e1 e2 : Entry} {rest : List Entry} (hw : ∀ e ∈ e1 :: e2 :: rest, e.wait < 992) :
    chooseEntry (e1 :: e2 :: rest) 64 = some ⟨e2, 0, false, true⟩ := by
  obtain ⟨w, hl⟩ := longestWaiting_cons e1 (e2 :: rest)
  have hlt : ¬ 992 ≤ w.wait := Nat.not_le.mpr (hw w (longestWaiting_mem hl))
  simp only [chooseEntry, hl, if_neg hlt, if_true]

section
variable {s : State} {c : CoreRef} {slot : Nat} {r : ThreadRef} {t : Thread} {d1 : Dev} (hs : s.dev.slotChoice c slot = some (r, t))
  (hd : (s.dev.takeSlot r).startClause r = some d1)
include hs hd

/-- An issue slot starts a clause of the party it chooses (R200). -/
theorem execClauseIssue_starts : execClauseIssue c slot s = .next (s.withDev d1) :=
  happen_some (by simp only [hs, hd])

/-- The start is named by the wait limit when an entry has reached it (R199). -/
theorem execFrontierWaitLimit_starts (he : ∃ e ∈ t.frontier, 992 ≤ e.wait) :
    execFrontierWaitLimit c slot s = .next (s.withDev d1) := by
  have hany : (t.frontier.any fun e => 992 ≤ e.wait) = true := by simpa using he
  exact happen_some (by simp only [hs, hany, if_true, hd])

/-- The start is named by the loop limit when that chooses the second entry (R199). -/
theorem execLoopLimit_starts {e1 e2 : Entry} {rest : List Entry} (hf : t.frontier = e1 :: e2 :: rest) (hn : t.loopCount = 64)
    (hw : ∀ e ∈ t.frontier, e.wait < 992) : execLoopLimit c slot s = .next (s.withDev d1) := by
  rw [hf] at hw
  exact happen_some (by simp only [hs, hf, hn, chooseEntry_byLoop hw, Option.any_some, if_true, hd])

end

/-- A sequencer starts the next clause of its program (R211). -/
theorem execSequencerIssue_starts {s : State} {c : CoreRef} {copy : Bool} {t : Thread} {d1 : Dev}
    (ht : s.dev.thread (.seq c copy) = some t) (he : t.ended = false) (hg : s.dev.eligible (.seq c copy) t = true)
    (hd : s.dev.startClause (.seq c copy) = some d1) : execSequencerIssue c copy s = .next (s.withDev d1) :=
  happen_some (by simp only [ht, he, hg, Bool.not_false, Bool.and_self, if_true, hd])

/-- Settles O45, event by event. -/
theorem schedulingEvents : Obligations.SchedulingEvents := by
  refine ⟨?queues, ?clauses⟩
  case queues =>
    intro s die q gid rec d1 g w ws goes period
    refine ⟨fun pre post => execDispatch_takes, execSuccessorEntry_enters, fun place => execSpillReturn_returns,
      fun ho hm ht hb => ?descriptor, execGroupComplete_completes, execSlotDeadline_refills, execOverrun_suspends, fun hw ho => ?writes⟩
    case descriptor =>
      exact ⟨fun a c => execDescriptorRead_refuses ho hm ht hb, fun a b => execDescriptorRead_feeds ho hm ht hb⟩
    case writes =>
      intro wrote tail
      exact ⟨fun hr at_ => execQnotify_posts hw ho hr, fun hr hv hm v => execQctlMap_opens hw ho hr hv hm,
        fun hr hv hm v => execQctlUnmap_closes hw ho hr hv hm⟩
  case clauses =>
    intro s c slot copy r t d1 goes
    exact ⟨fun hs hd => ⟨execClauseIssue_starts hs hd, execFrontierWaitLimit_starts hs hd,
      fun e1 e2 rest => execLoopLimit_starts hs hd⟩, execSequencerIssue_starts⟩

end Sys2Proof.Machine
end

section
/-! SUPPORT. Containment (R92, R419, R434 to R439, R442): what each event of errors, audits, resets and scrubs answers when its conditions
hold. -/

namespace Sys2Proof.Machine

/-! ## Uncorrectable errors (R435 to R437) -/

/-- The level at which an error is contained on a device: an entry of the gang level that a wave holds is contained as a wave's state. -/
def Dev.errorLevel (d : Dev) (x : ErrorSite) : Nat :=
  if siteLevel x = 2 && (x.gang.bind d.gang).isNone && d.waveAt x then 3 else siteLevel x

/-- The context that the event of an error at a level names. -/
def Dev.errorCtx (d : Dev) (x : ErrorSite) (level : Nat) : Nat :=
  match level with
  | 1 => tagCtx x.tag
  | 2 => match x.gang.bind d.gang with
    | some q => ((q.recs.head?).map Rec.ctx).getD 0xFFFF
    | none => tagCtx x.tag
  | 3 => tagCtx x.tag
  | _ => 0xFFFF

/-- A device that has reported an error at a level; an L2 line that is dirty poisons its frame as well. -/
def Dev.noteError (d : Dev) (x : ErrorSite) (level ctx : Nat) : Dev :=
  let e := d.event ⟨10, 0, ctx, (x.core.map coreId).getD 0xFFFF, 0xFFFF, BitVec.ofNat 64 x.code, BitVec.ofNat 64 level,
    BitVec.ofNat 64 x.lpa⟩
  if x.code = 9 ∧ (∃ l ∈ (d.die x.die).l2, l.dirty = true ∧ l.pa = ⟨none, x.lpa / 128 * 128⟩) then e.setPoison x.lpa else e

/-- What containment at a level makes of the device `e` that has reported an error of `d`. -/
def Dev.containError (d : Dev) (x : ErrorSite) (level : Nat) (e : Dev) : Dev :=
  match level with
  | 1 => e.discardEntry x
  | 2 => match x.gang.bind d.gang with
    | some q => e.killGang q
    | none => e
  | 3 => e.resetAll (e.liveTag x.tag).toList
  | 4 => match x.core with
    | some c => (e.resetAll (e.contextsOn c)).renewCore c
    | none => e
  | 5 => (e.resetAll (e.contextsOf x.die)).renewDie x.die
  | _ => e.warmStart

/-- A device outside an emergency stop has an error at a site that exists. -/
structure Dev.Reports (d : Dev) (x : ErrorSite) : Prop where
  on : d.on = true
  clocks : d.emergency = none
  code_pos : 1 ≤ x.code
  code_le : x.code ≤ 19
  die_lt : x.die < 4
  core_of_tlb : x.code = 5 → x.core ≠ none

section
variable {s : State} {site : ErrorSite}

/-- An error is reported at its level and contained there. -/
theorem execUncorrectableError_contains (h : s.dev.Reports site) {level : Nat} (hl : s.dev.errorLevel site = level)
    (h4 : level = 4 → site.core ≠ none) :
    execUncorrectableError site s = .next (s.withDev
      (s.dev.containError site level (s.dev.noteError site level (s.dev.errorCtx site level)))) := by
  have hcore : (decide (level = 4) && site.core.isNone) = false := by simpa [Option.isSome_iff_ne_none] using h4
  have htlb : (decide (site.code = 5) && site.core.isNone) = false := by simpa [Option.isSome_iff_ne_none] using h.core_of_tlb
  have hcode : site.code ≠ 0 := Nat.ne_of_gt h.code_pos
  unfold Dev.errorLevel at hl
  refine happen_some ?_
  simp only [hl, hcore, htlb, hcode, h.on, h.clocks, Nat.not_lt.mpr h.code_le, Nat.not_le.mpr h.die_lt, Option.isSome_none, Bool.not_true,
    decide_false, Bool.or_self, Bool.false_eq_true, if_false, Dev.noteError]
  simp only [Bool.and_eq_true, decide_eq_true_eq, List.any_eq_true]
  match level with
  | 0 | 1 | 2 | 3 | 4 | 5 => rfl
  | _ + 6 => rfl

/-- Away from what a wave holds, an error is contained at the level of its site. -/
theorem Dev.errorLevel_eq {d : Dev} {x : ErrorSite} (h : siteLevel x = 2 → x.gang.bind d.gang = none → d.waveAt x = false) :
    d.errorLevel x = siteLevel x := by
  refine if_neg fun hw => ?_
  simp only [Bool.and_eq_true, decide_eq_true_eq, Option.isNone_iff_eq_none] at hw
  obtain ⟨⟨hl, hg⟩, hwave⟩ := hw
  exact absurd hwave (by simp [h hl hg])

/-- An error of a level other than the gang's is contained at that level. -/
theorem execUncorrectableError_of_level (h : s.dev.Reports site) {level : Nat} (hl : siteLevel site = level) (h2 : level ≠ 2)
    (h4 : level = 4 → site.core ≠ none) :
    execUncorrectableError site s = .next (s.withDev
      (s.dev.containError site level (s.dev.noteError site (siteLevel site) (s.dev.errorCtx site level)))) :=
  hl.symm ▸ execUncorrectableError_contains h ((Dev.errorLevel_eq fun e => absurd (hl.symm.trans e) h2).trans hl) h4

section
variable (h : s.dev.Reports site) (hl : siteLevel site = 2)
include h hl

/-- An error in what a gang holds kills the gang. -/
theorem execUncorrectableError_gang {k : Gang} (hg : site.gang.bind s.dev.gang = some k) :
    execUncorrectableError site s = .next (s.withDev
      ((s.dev.noteError site (siteLevel site) (((k.recs.head?).map Rec.ctx).getD 0xFFFF)).killGang k)) := by
  have hlevel : s.dev.errorLevel site = 2 := (Dev.errorLevel_eq fun _ hn => by simp [hn] at hg).trans hl
  rw [execUncorrectableError_contains h hlevel (by simp), hl]
  simp only [Dev.containError, Dev.errorCtx, hg]

section
variable (hg : site.gang.bind s.dev.gang = none)
include hg

/-- An error in what a wave holds resets its context (log 51). -/
theorem execUncorrectableError_wave (hw : s.dev.waveAt site = true) :
    let d := s.dev.noteError site 3 (tagCtx site.tag)
    execUncorrectableError site s = .next (s.withDev (d.resetAll (d.liveTag site.tag).toList)) := by
  have hlevel : s.dev.errorLevel site = 3 := if_pos (by simp [hl, hg, hw])
  exact execUncorrectableError_contains h hlevel (by simp)

/-- An error of the gang level that neither a gang nor a wave holds is only reported. -/
theorem execUncorrectableError_unheld (hw : s.dev.waveAt site = false) :
    execUncorrectableError site s = .next (s.withDev (s.dev.noteError site (siteLevel site) (tagCtx site.tag))) := by
  have hlevel : s.dev.errorLevel site = 2 := (Dev.errorLevel_eq fun _ _ => hw).trans hl
  rw [execUncorrectableError_contains h hlevel (by simp), hl]
  simp only [Dev.containError, Dev.errorCtx, hg]

end

end

/-- An error of the core level resets the contexts with state on the core, which begins anew. -/
theorem execUncorrectableError_core (h : s.dev.Reports site) (hl : siteLevel site = 4) {c : CoreRef} (hc : site.core = some c) :
    let d := s.dev.noteError site (siteLevel site) 0xFFFF
    execUncorrectableError site s = .next (s.withDev ((d.resetAll (d.contextsOn c)).renewCore c)) := by
  rw [execUncorrectableError_of_level h hl (by simp) fun _ => by simp [hc]]
  simp only [Dev.containError, Dev.errorCtx, hc]

end

/-! ## Corrected errors and killed gangs (R435, R438) -/

/-- A device that has counted a corrected error of a structure, last reported at a time. -/
def Dev.countSoft (d : Dev) (code last : Nat) : Dev :=
  { d with softErrors := (code, ((d.softErrors.find? fun x => x.1 == code).map fun x => x.2.1).getD 0 + 1, last) ::
      d.softErrors.filter fun x => x.1 != code }

section
variable {s : State} {code : Nat} (ho : s.dev.on = true) (h1 : 1 ≤ code) (h19 : code ≤ 19)
include ho h1 h19

/-- A corrected error within 1 ms of the last report of its structure is only counted. -/
theorem execCorrectedSoftError_counts {x : Nat × Nat × Nat} (hx : s.dev.softErrors.find? (fun x => x.1 == code) = some x)
    (ht : s.dev.now < x.2.2 + 1000000) : execCorrectedSoftError code s = .next (s.withDev (s.dev.countSoft code x.2.2)) := by
  refine happen_some ?_
  simp only [ho, Nat.ne_of_gt h1, Nat.not_lt.mpr h19, hx, Nat.not_le.mpr ht, Dev.countSoft, Bool.not_true, decide_false, Bool.or_self,
    Bool.false_eq_true, if_false, Option.map_some, Option.getD_some]

/-- A corrected error is reported when its structure's last report lies 1 ms or more back. -/
theorem execCorrectedSoftError_reports
    (ht : ∀ x, s.dev.softErrors.find? (fun x => x.1 == code) = some x → x.2.2 + 1000000 ≤ s.dev.now) :
    execCorrectedSoftError code s = .next (s.withDev
      ((s.dev.countSoft code s.dev.now).event (Event.of 10 0 0xFFFF (BitVec.ofNat 64 code) 0 0))) := by
  refine happen_some ?_
  cases hx : s.dev.softErrors.find? fun x => x.1 == code with
  | none =>
    simp only [ho, Nat.ne_of_gt h1, Nat.not_lt.mpr h19, hx, Dev.countSoft, Bool.not_true, decide_false, Bool.or_self, Bool.false_eq_true,
      if_false, if_true]
  | some x =>
    simp only [ho, Nat.ne_of_gt h1, Nat.not_lt.mpr h19, hx, ht x hx, Dev.countSoft, Bool.not_true, decide_false, decide_true, Bool.or_self,
      Bool.false_eq_true, if_false, if_true]

end

/-- A gang that consumes uncorrectable data is killed, and the frames that it read are poisoned. -/
theorem execGangKill_kills {s : State} {gang : Nat} {k : Gang} (hk : s.dev.gang gang = some k) (hc : s.dev.consumed k ≠ []) :
    execGangKill gang s = .next (s.withDev (((s.dev.consumed k).foldl Dev.foundBad s.dev).killGang k)) := by
  have hne : (s.dev.consumed k).isEmpty = false := by simpa using hc
  exact happen_some (by simp only [hk, hne, Bool.false_eq_true, if_false])

/-! ## Audits (R441, R442) -/

/-- The dies other than a record's own that have budget for its replay (R419). -/
def Dev.replayDies (d : Dev) (a : Audit) : List Nat := (upFrom 0 4).filter fun k => k != a.die && d.hasBudget k 2

section
variable {s : State} {idx : Nat} {core : CoreRef} {a : Audit} {sig : DWord}
  (ha : s.dev.audits.find? (fun a => a.index = idx) = some a) (hs : a.signature = some sig)
include ha hs

section
variable (hp : s.replays.find? (fun p => p.index = idx) = none) (hc : s.dev.clocked = true)
include hp hc

/-- A record is skipped when no other die has budget for its replay. -/
theorem execAuditReplay_skips (hd : s.dev.replayDies a = []) :
    execAuditReplay idx core s =
      .next (s.withDev { s.dev with audits := s.dev.audits.filter fun x => x.index ≠ idx }) := by
  unfold Dev.replayDies at hd
  simp only [execAuditReplay, ha, hs, hp, hc, hd, Bool.not_true, Bool.false_eq_true, if_false, List.isEmpty_nil, if_true]
  rfl

/-- A record begins its replay on a compute core of another die with budget (log 38). -/
theorem execAuditReplay_begins (hm : core ∈ (s.dev.replayDies a).flatMap computeCores) :
    execAuditReplay idx core s = .next
      { s with
        dev := s.dev.spend core.die 2
        replays := s.replays ++ [⟨idx, core.die, (s.dev.spend core.die 2).replayDev a core⟩] } := by
  have hcore : ((s.dev.replayDies a).flatMap computeCores).contains core = true := List.contains_iff_mem.mpr hm
  have hdies : (s.dev.replayDies a).isEmpty = false := by
    obtain ⟨die, hdie, -⟩ := List.mem_flatMap.mp hm
    exact List.isEmpty_eq_false_iff.mpr (List.ne_nil_of_mem hdie)
  unfold Dev.replayDies at hcore hdies
  simp only [execAuditReplay, ha, hs, hp, hc, hdies, hcore, Bool.not_true, Bool.false_eq_true, if_false]

end

section
variable {p : Replay} (hp : s.replays.find? (fun p => p.index = idx) = some p)
include hp

/-- A replay that something ended is inconclusive. -/
theorem execAuditReplay_inconclusive (hi : p.inconclusive a = true) :
    execAuditReplay idx core s = .next
      { s with dev := s.dev.auditEnds a 12 0 0 0, replays := s.replays.filter fun p => p.index ≠ idx } := by
  simp only [execAuditReplay, ha, hs, hp, hi, if_true]

section
variable (hi : p.inconclusive a = false) (hf : p.finished a = true)
include hi hf

/-- A replay with the record's signature reports nothing. -/
theorem execAuditReplay_equal (he : p.signature a = sig) :
    execAuditReplay idx core s = .next
      { s with
        dev := { s.dev with audits := s.dev.audits.filter fun x => x.index ≠ idx }
        replays := s.replays.filter fun p => p.index ≠ idx } := by
  simp only [execAuditReplay, ha, hs, hp, hi, hf, he, Bool.not_true, Bool.false_eq_true, if_false, if_true]

/-- A replay with another signature raises AUDIT. -/
theorem execAuditReplay_differs (he : p.signature a ≠ sig) :
    execAuditReplay idx core s = .next
      { s with dev := s.dev.auditEnds a 4 0x42 sig (p.signature a), replays := s.replays.filter fun p => p.index ≠ idx } := by
  simp only [execAuditReplay, ha, hs, hp, hi, hf, he, Bool.not_true, Bool.false_eq_true, if_false]

end

end

end

/-! ## Resets, sweeps and scrubs (R92, R419, R434) -/

/-- A completed reset raises its context's epoch and reports it. -/
theorem execContextResetComplete_announces {s : State} {ctx : Nat} {w : Sweep}
    (hw : s.dev.sweeps.find? (fun w => w.ctx == ctx && !w.announced) = some w) :
    let d := s.dev.discardCtx ctx
    let ctl := d.ctxD ctx 0
    let d := d.homeWrite (d.ctxEntry ctx) (natBytes (ctl.toNat - bits ctl 61 58 * 2 ^ 58 + w.new.toNat * 2 ^ 58) 8)
    execContextResetComplete ctx s = .next (s.withDev
      ({ d with sweeps := updBy (fun x => x = w) (fun x => { x with announced := true }) d.sweeps }.event
        (Event.of 7 0 ctx (w.new.setWidth 64) (BitVec.ofNat 64 w.reason) 0))) :=
  happen_some (by simp only [hw])

/-- A device that has swept the entries of an old epoch of a context (R434). -/
def Dev.swept (d : Dev) (ctx : Nat) (w : Sweep) : Dev :=
  let tag := mkTag ctx w.old
  let d := ((d.dropPages (fun e => e.tag = tag) (fun e => e.tag = tag) fun e => e.tag = tag).mapCores fun (k : Core) =>
    { k with l1 := k.l1.filter fun l => l.tag ≠ tag }).mapDies fun (k : Die) => { k with rdc := k.rdc.filter fun l => l.tag ≠ tag }
  { d with sweeps := d.sweeps.erase w }

/-- A sweep that no reset waits for ends. -/
theorem execBackgroundSweepComplete_sweeps {s : State} {ctx : Nat} {w : Sweep}
    (hw : s.dev.sweeps.find? (fun w => w.ctx == ctx && w.announced) = some w)
    (hn : (s.dev.swept ctx w).waitingResets.find? (fun x => x.1 == ctx) = none) :
    execBackgroundSweepComplete ctx s = .next (s.withDev (s.dev.swept ctx w)) := by
  unfold Dev.swept at hn ⊢
  exact happen_some (by simp only [hw, hn])

/-- A scrub that finds a line uncorrectable poisons its frame. -/
theorem execScrubRead_poisons {s : State} {lpa : Nat} (ho : s.dev.on = true) (hb : backed lpa = true)
    (hl : s.dev.badLines.contains (lpa / 128) = true) (hbud : s.dev.hasBudget (dieOf lpa) 1 = true) :
    execScrubRead lpa s = .next (s.withDev (((s.dev.spend (dieOf lpa) 1).spend (dieOf lpa) 5).setPoison lpa)) :=
  happen_some (by simp only [ho, hb, hl, hbud, Bool.not_true, Bool.or_self, Bool.false_eq_true, if_false])

/-- Settles O50, event by event. -/
theorem containment : Obligations.Containment := by
  intro s site core code ctx idx lpa gang ho goes level report
  refine ⟨fun he h1 h19 hd h5 => ?errors, fun h1 h19 => ?soft, fun k => execGangKill_kills, fun a sig ha hs => ?audits,
    fun w => execContextResetComplete_announces, fun w => execBackgroundSweepComplete_sweeps, execScrubRead_poisons ho⟩
  case errors =>
    have h : s.dev.Reports site := ⟨ho, he, h1, h19, hd, h5⟩
    exact ⟨fun hl => execUncorrectableError_of_level h hl (by simp) (by simp), fun k hl => execUncorrectableError_gang h hl,
      fun hl hg hw => execUncorrectableError_wave h hl hg hw, fun hl hg hw => execUncorrectableError_unheld h hl hg hw,
      fun hl => execUncorrectableError_of_level h hl (by simp) (by simp), fun c hl => execUncorrectableError_core h hl,
      fun hl => execUncorrectableError_of_level h hl (by simp) (by simp),
      fun hl => execUncorrectableError_of_level h hl (by simp) (by simp)⟩
  case soft =>
    exact ⟨fun x => execCorrectedSoftError_counts ho h1 h19, execCorrectedSoftError_reports ho h1 h19⟩
  case audits =>
    have hidx : a.index = idx := by simpa using List.find?_some ha
    subst hidx
    exact ⟨fun hp hc => ⟨execAuditReplay_skips ha hs hp hc, execAuditReplay_begins ha hs hp hc⟩, fun p hp =>
      ⟨execAuditReplay_inconclusive ha hs hp, execAuditReplay_equal ha hs hp, execAuditReplay_differs ha hs hp⟩⟩

end Sys2Proof.Machine
end

section
/-! SUPPORT. Massif (R133, R249, R366, R367, R370, R373, R374): what each part of the head entry's performance leaves, and the exact sum
of an I8 block. -/

namespace Sys2Proof.Machine

/-! ## Performing the head entry -/

/-- How many of `k` rows an event performs that is for `n` of them, or for all. -/
def rowCount (n : Option Nat) (k : Nat) : Nat := (n.getD k).min k

/-- The entry stays at the head of its queue, with what is left of its operation. -/
def Dev.keepEntry (d : Dev) (c : CoreRef) (e : MatrixEntry) (op : MatrixOp) : Dev :=
  d.onCore c fun (k : Core) =>
    { k with matrix := updBy (fun x => x.id = e.id) (fun x => { x with op := op, started := true }) k.matrix }

/-- The tile after rows of an MMA (R370); the scales of A come from the entry, or from scratch at `sbase`. -/
def mmaTile (g : Group) (slots : List WSlot) (fmt : BitVec 4) (stride : Nat) (scales : List (List Word)) (sbase : Option Nat)
    (tile : Tile) (rows : List (Nat × Nat)) : Tile :=
  foldIdx (fun x t row => mmaRow g slots fmt stride t row fun j => match sbase with
    | some b => BitVec.ofNat 32 (bytesNat (g.scratchRead (b + 32 * row.1 + 4 * j) 4))
    | none => (scales.getD x []).getD j 0) 0 tile rows

/-- The device after the first `part` rows of an MMA: the tile, and the planes' cycles counted. -/
def Dev.afterMma (d : Dev) (c : CoreRef) (e : MatrixEntry) (g : Group) (m : Nat) (slots : List WSlot) (fmt : BitVec 4) (stride : Nat)
    (scales : List (List Word)) (sbase : Option Nat) (rows : List (Nat × Nat)) (part : Nat) : Dev :=
  let tile := mmaTile g slots fmt stride scales sbase ((d.core c).tiles.getD m Tile.reset) (rows.take part)
  (d.onCore c fun (k : Core) => { k with tiles := updAt k.tiles m fun _ => tile }).count e.thread 8
    (part * planes fmt * (if slots.any fun x => !x.map.isEmpty then 1 else 0))

/-- The device after rows of an MRD: each goes to scratch or to its lane's registers, the first from its first register not yet
written on. -/
def Dev.afterMrd (d : Dev) (e : MatrixEntry) (row : Nat → List Byte) (dest : Option (BitVec 7)) (base pitch wrote : Nat)
    (lanes : List Nat) : Dev :=
  foldIdx (fun k (d : Dev) i => d.writeRow e i (row i) dest (base + i * pitch) (if k = 0 then wrote else 0) 16) 0 d lanes

/-- The device after rows of an MAMAX; an entry of a replaced program writes no register. -/
def Dev.afterMamax (d : Dev) (e : MatrixEntry) (t : Tile) (c0 cols : Nat) (reg : BitVec 7) (lanes : List Nat) : Dev :=
  lanes.foldl (fun (d : Dev) i => if e.orphan then d else d.onLane e.thread i fun l => l.set reg (rowMax t c0 cols i)) d

section
variable {s : State} {c : CoreRef} {e : MatrixEntry} {g : Group} {rest : List MatrixEntry} {n : Option Nat}
  (hc : s.dev.clocked = true) (hq : (s.dev.core c).matrix = e :: rest) (hg : s.dev.group e.gid = some g)
include hc hq hg

/-- The event performs what the head entry's operation does. -/
theorem execMatrixEntryRun_head {d1 : Dev} (h : s.dev.runMatrix s.fuses c e g n = some d1) :
    execMatrixEntryRun c n s = .next (s.withDev d1) :=
  happen_some (by simp [hc, hq, hg, h])

theorem execMatrixEntryRun_msig (ho : e.op = .msig) : execMatrixEntryRun c n s = .next (s.withDev (s.dev.matrixDone c e)) :=
  execMatrixEntryRun_head hc hq hg (by simp only [Dev.runMatrix, ho])

theorem execMatrixEntryRun_seqEnd (ho : e.op = .seqEnd) (hor : e.orphan = false) :
    execMatrixEntryRun c n s = .next (s.withDev ((s.dev.matrixDone c e).seqEnd c false none)) :=
  execMatrixEntryRun_head hc hq hg (by simp only [Dev.runMatrix, ho, hor, Bool.false_eq_true, if_false])

theorem execMatrixEntryRun_mzero {m : Nat} {i : Bool} (ho : e.op = .mzero m i) :
    execMatrixEntryRun c n s = .next (s.withDev ((s.dev.onCore c fun (k : Core) =>
      { k with tiles := updAt k.tiles m fun _ => { Tile.reset with isInt := i } }).matrixDone c e)) :=
  execMatrixEntryRun_head hc hq hg (by simp only [Dev.runMatrix, ho])

theorem execMatrixEntryRun_mldb {w bands pitch : Nat} {fmt : BitVec 4} {sb : Word} {map : List Nat} {bits : List Byte}
    {bm : Option EngineSpace} {src : EngineSpace} {pages : List TlbEntry} {d1 : Dev}
    (ho : e.op = .mldb w fmt sb bands map bits bm src pages pitch)
    (hl : s.dev.loadSlot s.fuses c g e w fmt sb bands map bits bm src pages pitch = some d1) :
    execMatrixEntryRun c n s = .next (s.withDev (d1.matrixDone c e)) :=
  execMatrixEntryRun_head hc hq hg (by simp only [Dev.runMatrix, ho, hl, Option.map_some])

/-- An MMA's next rows: the entry leaves the queue with its last row. -/
theorem execMatrixEntryRun_mma {m w k stride : Nat} {fmt : BitVec 4} {rows : List (Nat × Nat)} {scales : List (List Word)}
    {sbase : Option Nat} (ho : e.op = .mma m w k fmt rows stride scales sbase) (hn : n ≠ some 0) :
    let part := rowCount n rows.length
    let d := s.dev.afterMma c e g m (((s.dev.core c).slots.drop w).take k) fmt stride scales sbase rows part
    execMatrixEntryRun c n s = .next (s.withDev (if part = rows.length then d.matrixDone c e
      else d.keepEntry c e (.mma m w k fmt (rows.drop part) stride (scales.drop part) sbase))) := by
  intro part d
  refine execMatrixEntryRun_head hc hq hg ?_
  simp only [Dev.runMatrix, ho, if_neg hn]
  exact (apply_ite some _ _ _).symm

section
variable {m c0 cols base pitch wrote rnd : Nat} {df : BitVec 4} {sat ftz : Bool} {lanes : List Nat} {dest : Option (BitVec 7)}
  (ho : e.op = .mrd m df rnd sat ftz c0 cols lanes dest base pitch wrote)
include ho

/-- An MRD's next rows: the entry leaves the queue with its last row. -/
theorem execMatrixEntryRun_mrd (hn : n ≠ some 0) :
    let row := rowBytes ((s.dev.core c).tiles.getD m Tile.reset) df rnd sat ftz c0 cols
    let part := rowCount n lanes.length
    let d := s.dev.afterMrd e row dest base pitch wrote (lanes.take part)
    execMatrixEntryRun c n s = .next (s.withDev (if part = lanes.length then d.matrixDone c e
      else d.keepEntry c e (.mrd m df rnd sat ftz c0 cols (lanes.drop part) dest base pitch 0))) := by
  intro row part d
  refine execMatrixEntryRun_head hc hq hg ?_
  simp only [Dev.runMatrix, ho, if_neg hn]
  exact (apply_ite some _ _ _).symm

/-- One register of an MRD's first row: the row ends with its last register, and the entry with its last row. -/
theorem execMatrixEntryRun_mrdRegister (hn : n = some 0) (hd : dest ≠ none) {i : Nat} {l : List Nat} (hl : lanes = i :: l) :
    let row := rowBytes ((s.dev.core c).tiles.getD m Tile.reset) df rnd sat ftz c0 cols i
    let d := s.dev.writeRow e i row dest 0 wrote 1
    execMatrixEntryRun c n s = .next (s.withDev (
      if wrote + 1 < (row.length + 3) / 4 then d.keepEntry c e (.mrd m df rnd sat ftz c0 cols lanes dest base pitch (wrote + 1))
      else if l = [] then d.matrixDone c e else d.keepEntry c e (.mrd m df rnd sat ftz c0 cols l dest base pitch 0))) := by
  intro row d
  obtain ⟨q, rfl⟩ := Option.ne_none_iff_exists'.mp hd
  subst hn hl
  refine execMatrixEntryRun_head hc hq hg ?_
  simp only [Dev.runMatrix, ho, if_true, List.isEmpty_iff, apply_ite some]
  rfl

end

/-- An MAMAX's next rows: the entry leaves the queue with its last row. -/
theorem execMatrixEntryRun_mamax {m c0 cols : Nat} {lanes : List Nat} {reg : BitVec 7} (ho : e.op = .mamax m c0 cols lanes reg)
    (hn : n ≠ some 0) :
    let part := rowCount n lanes.length
    let d := s.dev.afterMamax e ((s.dev.core c).tiles.getD m Tile.reset) c0 cols reg (lanes.take part)
    execMatrixEntryRun c n s = .next (s.withDev (if part = lanes.length then d.matrixDone c e
      else d.keepEntry c e (.mamax m c0 cols (lanes.drop part) reg))) := by
  intro part d
  refine execMatrixEntryRun_head hc hq hg ?_
  simp only [Dev.runMatrix, ho, if_neg hn]
  exact (apply_ite some _ _ _).symm

end

/-! ## Folds with an index -/

theorem foldIdx_snoc_eq_mapIdx {α β : Type} (f : Nat → α → β) (n : Nat) (acc : List β) (xs : List α) :
    foldIdx (fun k l x => l ++ [f k x]) n acc xs = acc ++ mapIdx f n xs := by
  induction xs generalizing n acc with
  | nil => simp [foldIdx, mapIdx]
  | cons x xs ih => simp [foldIdx, mapIdx, ih]

theorem foldIdx_add_eq_sum {α : Type} (f : Nat → α → Int) (n : Nat) (v : Int) (xs : List α) :
    foldIdx (fun k v x => v + f k x) n v xs = v + (mapIdx f n xs).sum := by
  induction xs generalizing n v with
  | nil => simp [foldIdx, mapIdx]
  | cons x xs ih => simp [foldIdx, mapIdx, ih, Int.add_assoc]

theorem map_mapIdx {α β γ : Type} (h : β → γ) (f : Nat → α → β) (n : Nat) (xs : List α) :
    (mapIdx f n xs).map h = mapIdx (fun k x => h (f k x)) n xs := by
  induction xs generalizing n with
  | nil => rfl
  | cons x xs ih => simp [mapIdx, ih]

/-- The sum of a list of lists, list by list. -/
theorem sum_flatten_int (l : List (List Int)) : l.flatten.sum = (l.map List.sum).sum := by
  induction l with
  | nil => rfl
  | cons x l ih => rw [List.flatten_cons, List.sum_append, List.map_cons, List.sum_cons, ih]

/-! ## I8 blocks (R370) -/

/-- The product of two integers as values is the product, at weight 0. -/
theorem atWeight_mul_ofInt (a b : Int) : atWeight 0 ((FVal.ofInt false a 0).mul (FVal.ofInt false b 0)) = a * b := by
  have hneg : ∀ k : Int, (if k = 0 then false else decide (k < 0)) = decide (k < 0) := fun k => by
    split
    · simp [*]
    · rfl
  simp only [FVal.ofInt, FVal.mul, atWeight, scaled, hneg, Int.add_zero, Int.le_refl, if_true, Int.sub_self, Int.toNat_zero,
    Nat.pow_zero, Nat.mul_one, Int.natCast_mul]
  have habs : ∀ k : Int, (k.natAbs : Int) = if k < 0 then -k else k := fun k => by omega
  rw [habs, habs]
  by_cases ha : a < 0 <;> by_cases hb : b < 0 <;>
    simp only [ha, hb, decide_true, decide_false, bne_self_eq_false, Bool.true_bne, Bool.false_bne, Bool.not_false, Bool.false_eq_true,
      if_true, if_false, Int.neg_mul, Int.mul_neg, Int.neg_neg]

/-- An element of a run of I8 elements is its byte. -/
theorem elementCode_i8 (a : List Byte) (k : Nat) : elementCode 0 a k = (a.getD k 0).toNat := by
  have hbyte : bytesNat ((a.drop k).take 1) = (a.getD k 0).toNat := by
    rw [List.getD_eq_getElem?_getD, ← List.head?_drop]
    cases a.drop k <;> simp [bytesNat]
  simpa [elementCode, elementBits, sourceBits, hbyte] using (a.getD k 0).isLt

/-- The sum of one physical band's products, for I8 (R370): the slot's row `phys` of blocks times the logical band `b` of A. -/
def i8BandSum (a : List Byte) (sl : WSlot) (col phys b : Nat) : Int :=
  ((upFrom 0 8).map fun t =>
    (a.getD (8 * b + t) 0).toInt * (BitVec.ofNat 8 ((sl.data.getD (8 * phys + t) []).getD col 0)).toInt).sum

theorem sum_bandProducts_i8 (a : List Byte) (sl : WSlot) (col phys b : Nat) :
    ((bandProducts 0 a sl 0 phys b col).map (atWeight 0)).sum = i8BandSum a sl col phys b := by
  have hval : ∀ k, elementValue 0 k = FVal.ofInt false (BitVec.ofNat 8 k).toInt 0 := fun _ => rfl
  simp only [bandProducts, i8BandSum, List.map_map, Function.comp_def, hval, atWeight_mul_ofInt, elementCode_i8, BitVec.ofNat_toNat,
    BitVec.setWidth_eq]

/-- An I8 block adds the sum of its bands' exact products to the element, modulo 2^96. -/
theorem afterBlock_i8 (a : List Byte) {sl : WSlot} (sc : Word) (col c : Nat) (hf : sl.fmt = some 0) :
    BitVec.ofNat 96 (afterBlock 0 a sl sc col c) =
      BitVec.ofNat 96 c + BitVec.ofInt 96 (foldIdx (fun phys v b => v + i8BandSum a sl col phys b) 0 0 sl.map) := by
  have hbands : ((foldIdx (fun phys l b => l ++ [bandProducts 0 a sl 0 phys b col]) 0 [] sl.map).flatten.map (atWeight 0)).sum =
      foldIdx (fun phys v b => v + i8BandSum a sl col phys b) 0 0 sl.map := by
    rw [foldIdx_snoc_eq_mapIdx, foldIdx_add_eq_sum, List.map_flatten, sum_flatten_int, List.nil_append, map_mapIdx, map_mapIdx, Int.zero_add]
    simp only [sum_bandProducts_i8]
  have hfold : ∀ l : List FVal, l.foldl (fun (k : Int) v => k + atWeight 0 v) 0 = (l.map (atWeight 0)).sum := fun l => by
    rw [List.sum_eq_foldl, List.foldl_map]
  simp only [afterBlock, hf, Option.getD_some, show isNarrow 0 = false from rfl, Bool.false_eq_true, if_false, if_true, hfold, hbands,
    BitVec.ofNat_toNat, BitVec.setWidth_eq, BitVec.ofInt_add, BitVec.ofInt_toInt]

/-- Settles O42: one lemma for each part of an entry that an event performs, and the exact sum of an I8 block. -/
theorem matrixEntryRun : Obligations.MatrixEntryRun := by
  refine ⟨?entry, fun a sl sc col c hf => afterBlock_i8 a sc col c hf⟩
  intro s c e g rest n hc hq hg tile goes keep part
  refine ⟨execMatrixEntryRun_msig hc hq hg, execMatrixEntryRun_seqEnd hc hq hg, fun m i => execMatrixEntryRun_mzero hc hq hg,
    fun w fmt sb bands map bits bm src pages pitch d1 => execMatrixEntryRun_mldb hc hq hg, 
    fun m w k fmt rows stride scales sbase => execMatrixEntryRun_mma hc hq hg, ?mrd,
    fun m c0 cols lanes reg => execMatrixEntryRun_mamax hc hq hg⟩
  case mrd =>
    intro m df rnd sat ftz c0 cols lanes dest base pitch wrote ho row rest
    exact ⟨execMatrixEntryRun_mrd hc hq hg ho, fun hn hd i l hl => execMatrixEntryRun_mrdRegister hc hq hg ho hn hd hl⟩

end Sys2Proof.Machine
end

section
/-! SUPPORT. Outstanding operations (R103, R247, R249): what the events of loads, stores and atomics answer when their conditions hold. -/

namespace Sys2Proof.Machine

section
variable {s : State} {id n : Nat} {o : Op} {p : Piece} {d1 : Dev} (ho : s.dev.op id = some o)
include ho

/-- A register of a performed load is written (R249). -/
theorem execLoadDataReturn_writes {size : Nat} {signed : Bool} {b : List Byte} (hp : o.pieces[n]? = some p)
    (hk : o.kind = .load size signed) (hv : p.value = some b) (hd : p.done = false) (hw : s.dev.waveReadsBad o n = none) :
    execLoadDataReturn id n .write s = .next (s.withDev (s.dev.writeRegister o n p size signed b)) := by
  have hread : s.dev.readFirst s.fuses id n = some s.dev := by simp [Dev.readFirst, ho, hp, hv, hd, Op.written, hk]
  have hafter : s.dev.afterRead id n = s.dev := by simp [Dev.afterRead, ho, hk]
  refine happen_some ?_
  simp only [ho, hk, OpKind.reads, hw, hread, Option.map_some, hafter, hp, hv, hd, Dev.writeLoaded]
  rfl

/-- A read is performed (R103). -/
theorem execLoadDataReturn_performs (hk : o.kind.reads = true) (hw : s.dev.waveReadsBad o n = none)
    (hr : s.dev.readPiece s.fuses id n = some d1) :
    execLoadDataReturn id n .fix s = .next (s.withDev (d1.afterRead id n)) :=
  happen_some (by simp [ho, hk, hw, hr])

/-- A store, or the write of a REL, is performed at its home point. -/
theorem execStoreAck_performs (hk : o.kind = .store ∨ o.kind = .rel) (hw : s.dev.writePiece id n = some d1) :
    execStoreAck id n s = .next (s.withDev d1) :=
  happen_some (by rcases hk with hk | hk <;> simp [ho, hk, hw])

section
variable {k : Nat} {w fl : Bool} {acq : Option Nat} (hk : o.kind = .atomic k w fl acq)
include hk

/-- The first lane's atomic that is not performed is performed (R343). -/
theorem execAtomicReply_performs (hn : o.pieceAt (fun x => x.open_) = some n) (hw : s.dev.writePiece id n = some d1) :
    execAtomicReply id .fix s = .next (s.withDev d1) :=
  happen_some (by simp [ho, hk, hn, hw])

/-- The old value of a performed atomic goes to a register of its lane (R343). -/
theorem execAtomicReply_writes (hp : o.pieces[n]? = some p) (hn : o.pieceAt (fun x => !x.done && x.value.isSome) = some n) :
    execAtomicReply id .write s =
      .next (s.withDev (s.dev.writeRegister o n p (if w then 8 else 4) false (p.value.getD []))) :=
  happen_some (by simp [ho, hk, hn, hp])

end

end

/-- A write of the first of a piece's registers: the piece ends with the last. -/
theorem Dev.writeRegister_cons {d : Dev} {o : Op} {n : Nat} {p : Piece} {size : Nat} {signed : Bool} {b : List Byte} {q : BitVec 7}
    {off : Nat} {rest : List (BitVec 7 × Nat)} (hr : p.regs = (q, off) :: rest) :
    d.writeRegister o n p size signed b =
      let d2 := (d.onLane o.thread p.lane fun l => l.set q (loadedWord size signed b off)).onPiece o.id n fun x => { x with regs := rest }
      if rest = [] then d2.donePiece o.id n else d2 := by
  simp [Dev.writeRegister, hr]

/-- Settles O34: each event performs what its operation waits for, and a load writes one register at a time. -/
theorem operationEvents : Obligations.OperationEvents := by
  intro s id n o p d1 ho hp
  refine ⟨?load, fun hk hw hr => execLoadDataReturn_performs ho hk hw hr, fun hk hw => execStoreAck_performs ho hk hw,
    fun k w fl acq hk hn hw => execAtomicReply_performs ho hk hn hw, fun k w fl acq hk hn => execAtomicReply_writes ho hk hp hn⟩
  case load =>
    intro size signed b q off rest hk hid hv hd hr hw d2
    have hwrite := execLoadDataReturn_writes ho hp hk hv hd hw
    rw [Dev.writeRegister_cons hr, hid] at hwrite
    exact hwrite

end Sys2Proof.Machine
end

section
/-! SUPPORT. Synchronization at once (R117 to R119, R127, R135, R340, R345, R348, R387): acquires, releases, fences, UNBIND, DISARM and DONE. -/

namespace Sys2Proof.Machine

/-! ## Release operations -/

/-- A release operation waits while a store or a load of its party is not done (R118). -/
theorem Dev.afterRelease_waits {d : Dev} {r : ThreadRef} {t : Thread} (hr : d.releaseReady r t = false) (go : Dev → Dev) :
    d.afterRelease r t go = d.hold r .retry := by
  simp [Dev.afterRelease, Dev.afterReleaseIn, hr]

/-- A release operation of a party with its loss bit set takes LOST (R127). -/
theorem Dev.afterRelease_lost {d : Dev} {r : ThreadRef} {t : Thread} (hr : d.releaseReady r t = true) (hl : t.loss = true)
    (go : Dev → Dev) : d.afterRelease r t go = d.raiseLost r := by
  simp [Dev.afterRelease, Dev.afterReleaseIn, hr, hl]

theorem Dev.releaseReady_iff {d : Dev} {r : ThreadRef} {t : Thread} :
    d.releaseReady r t = true ↔ t.unack = 0 ∧ d.loadsPending r = false := by
  simp [Dev.releaseReady]

/-- DONE of a party in a clause is a release operation (R387). -/
theorem execDone_afterRelease {s : State} {r : ThreadRef} {t : Thread} {q : Clause} (hi : Issues s r t) (hq : t.clause = some q) :
    execDone s = .next (s.withDev (s.dev.afterRelease r t fun d => ((d.count r 2 1).disarmWarp r).endThread r q.entry)) := by
  rw [execDone, runFor_issues hi]
  simp only [hq]

section
variable {s : State} {r : ThreadRef} {t : Thread} (hi : Issues s r t) {f : BitVec 1} (hf : FlagFree t f) {g : Guard}
  (ht : t.taking g ≠ 0) (scope pd : BitVec 3) {arr b : BitVec 4}
include hi hf ht

theorem execRelAll_afterRelease :
    execRelAll scope f g s = .next (s.withDev (s.dev.afterRelease r t fun d => d.retire r 1)) := by
  rw [execRelAll, longOp_free hi (allotted_nil s r) hf, if_neg ht]

theorem execFence_afterRelease : execFence scope f g s = .next (s.withDev (s.dev.afterRelease r t fun d =>
    (d.acquireAll (d.coreOf r) (d.ctxOf r) scope.toNat).retire r 1)) := by
  rw [execFence, longOp_free hi (allotted_nil s r) hf, if_neg ht]

theorem execAcqAll_acquires : execAcqAll scope f g s =
    .next (s.withDev ((s.dev.acquireAll (s.dev.coreOf r) (s.dev.ctxOf r) scope.toNat).retire r 1)) := by
  rw [execAcqAll, longOp_free hi (allotted_nil s r) hf, if_neg ht]

/-! ## The other instructions -/

/-- QFENCE at its first issue: the entries ahead of it are those admitted until now (R135). -/
theorem execQfence_fresh {gr : Group} (hg : s.dev.groupOf r = some gr) (hw : ∀ n, t.wait ≠ .fence n) (msg copy mat : BitVec 1) :
    execQfence msg copy mat f g s = .next (s.withDev
      (if s.dev.queued gr.core gr.gid s.dev.nextId (msg = 1) (copy = 1) (mat = 1) then s.dev.hold r (.fence s.dev.nextId)
       else s.dev.retire r 1)) := by
  rw [execQfence, longOp_free hi (allotted_nil s r) hf]
  split
  · exact absurd ‹_› (hw _)
  · simp only [hg, ht, ne_eq, not_false_eq_true, decide_true, Bool.true_and]

theorem execDisarm_disarms (hw : s.dev.waveA0 r arr = false) :
    execDisarm arr f g s = .next (s.withDev ((s.dev.disarm r arr.toNat).retire r 1)) := by
  rw [execDisarm, longOp_free hi (allotted_nil s r) hf, if_neg ht, hw, if_neg Bool.false_ne_true]

section
variable (hb : (t.kpair b.toNat).toNat / 2 ^ 54 ≠ 2)
include hb

/-- UNBIND of a base that no binding has answers false at once (R115). -/
theorem execUnbind_none (hn : s.dev.bindingAt r (t.kpair b.toNat).toNat = none) :
    execUnbind pd b f g s = .next (s.withDev (s.dev.bindStatus r pd g false)) := by
  rw [execUnbind, longOp_free hi (allotted_nil s r) hf]
  simp only [if_neg ht, if_neg hb, hn]

/-- UNBIND of a binding stalls for the object that it names (log 53). -/
theorem execUnbind_stalls {x : Nat × DWord × DWord} (hx : s.dev.bindingAt r (t.kpair b.toNat).toNat = some x) :
    execUnbind pd b f g s = .next (s.withDev (s.dev.stall r [8 * (x.2.1.toNat / 8 % 2 ^ 53)])) := by
  rw [execUnbind, longOp_free hi (allotted_nil s r) hf]
  simp only [if_neg ht, if_neg hb, hx, bindingObject_toNat]

end

end

/-- Settles O36: the release operations by what keeps them waiting, and the others by what they do at once. -/
theorem syncAtOnce : Obligations.SyncAtOnce := by
  intro s r t gr q scope pd arr b msg copy mat f g hi hg hq hf ht hw hfence goes acquired ahead base unbound
  have hrel := execRelAll_afterRelease hi hf ht scope
  have hfen := execFence_afterRelease hi hf ht scope
  have hdone := execDone_afterRelease hi hq
  refine ⟨execAcqAll_acquires hi hf ht scope, fun hu hl hloss => ?ready, fun hwait => ?waits, fun hu hl hloss => ?lost,
    execQfence_fresh hi hf ht hg hfence msg copy mat, fun hb => ⟨fun hn => execUnbind_none hi hf ht pd hb hn, fun x hx =>
      execUnbind_stalls hi hf ht pd hb hx⟩, execDisarm_disarms hi hf ht hw⟩
  case ready =>
    have hr := Dev.releaseReady_iff.mpr ⟨hu, hl⟩
    rw [Dev.afterRelease_ready hr hloss] at hrel hfen hdone
    exact ⟨hrel, hfen, hdone⟩
  case waits =>
    have hr : s.dev.releaseReady r t = false := Bool.eq_false_iff.mpr fun h => by
      obtain ⟨hu, hl⟩ := Dev.releaseReady_iff.mp h
      simp [hu, hl] at hwait
    rw [Dev.afterRelease_waits hr] at hrel hfen hdone
    exact ⟨hrel, hfen, hdone⟩
  case lost =>
    have hr := Dev.releaseReady_iff.mpr ⟨hu, hl⟩
    rw [Dev.afterRelease_lost hr hloss] at hrel hfen hdone
    exact ⟨hrel, hfen, hdone⟩

end Sys2Proof.Machine
end

section
/-! SUPPORT. Clauses that memory accesses leave (R67 to R70, R72 to R79, R92): the engines' and the log's translations and writes
change caches, memory and pins, but no party's clause in progress. -/

namespace Sys2Proof.Machine

/-! ## Parties -/

/-- The sequencer programs and waves of a core. -/
def Core.parties (k : Core) : Option SeqProg × Option SeqProg × List (Option Wave) := (k.matSeq, k.copySeq, k.waves)

/-- The clause that a party is in, if the party is there. -/
def Dev.clauseOf (d : Dev) (r : ThreadRef) : Option (Option Clause) := (d.thread r).map fun t => t.clause

/-- Equal groups, sequencer programs and waves are equal threads. -/
theorem thread_congr {d e : Dev} (hg : e.groups = d.groups) (hp : ∀ c, (e.core c).parties = (d.core c).parties) (r : ThreadRef) :
    e.thread r = d.thread r := by
  simp only [Core.parties, Prod.mk.injEq] at hp
  cases r with
  | warp gid wid => simp only [Dev.thread, Dev.group, hg]
  | seq c copy => obtain ⟨hm, hc, -⟩ := hp c; simp only [Dev.thread, hm, hc]
  | wave c slot => obtain ⟨-, -, hw⟩ := hp c; simp only [Dev.thread, hw]

/-- A change of a core that leaves its number, its sequencer programs and its waves. -/
def KeepsParties (f : Core → Core) : Prop := ∀ k, (f k).ref = k.ref ∧ (f k).parties = k.parties

section
variable (d : Dev) {f : Core → Core} (c : CoreRef) (r : ThreadRef) (hf : KeepsParties f := by exact fun _ => ⟨rfl, rfl⟩)
include hf

theorem thread_onCore : (d.onCore c f).thread r = d.thread r :=
  thread_congr (d := d) (e := d.onCore c f) rfl (fun e => by
    rw [core_onCore d fun k => (hf k).1]
    split
    · rw [(hf _).2, ‹e = c›]
    · rfl) r

theorem thread_mapCores : (d.mapCores f).thread r = d.thread r := by
  refine thread_congr (d := d) (e := d.mapCores f) rfl (fun e => ?_) r
  have href : ((fun k => decide (k.ref = e)) ∘ f) = fun k : Core => decide (k.ref = e) := funext fun k => by simp [(hf k).1]
  have hfind : ((d.mapCores f).cores.find? fun k => k.ref = e) = (d.cores.find? fun k => k.ref = e).map f := by
    rw [show (d.mapCores f).cores = d.cores.map f from rfl, List.find?_map, href]
  rw [Dev.core, Dev.core, hfind]
  cases d.cores.find? fun k => k.ref = e with
  | none => rfl
  | some k => exact (hf k).2

theorem clauseOf_onCore : (d.onCore c f).clauseOf r = d.clauseOf r := congrArg _ (thread_onCore d c r hf)
theorem clauseOf_mapCores : (d.mapCores f).clauseOf r = d.clauseOf r := congrArg _ (thread_mapCores d r hf)

end

theorem clauseOf_onDie (d : Dev) (n : Nat) (f : Die → Die) (r : ThreadRef) : (d.onDie n f).clauseOf r = d.clauseOf r := rfl
theorem clauseOf_mapDies (d : Dev) (f : Die → Die) (r : ThreadRef) : (d.mapDies f).clauseOf r = d.clauseOf r := rfl

/-- A change of every warp that keeps its number and its clause keeps every clause. -/
theorem clauseOf_mapWarps (d : Dev) {f : Group → Thread → Thread} (hw : ∀ g t, (f g t).wid = t.wid)
    (hc : ∀ g t, (f g t).clause = t.clause) (r : ThreadRef) : (d.mapWarps f).clauseOf r = d.clauseOf r := by
  cases r with
  | seq c copy => rfl
  | wave c slot => rfl
  | warp gid wid =>
    simp only [Dev.clauseOf, Dev.thread, Dev.group, Dev.mapWarps, List.find?_map, Function.comp_def]
    cases d.groups.find? fun g => g.gid = gid with
    | none => rfl
    | some g =>
      simp only [Option.map_some, Option.bind_some, List.find?_map, Function.comp_def, hw, Option.map_map, hc]

/-- A fold whose steps leave a party's clause leaves it. -/
theorem clauseOf_foldl {α : Type} {f : Dev → α → Dev} {r : ThreadRef} (hf : ∀ d x, (f d x).clauseOf r = d.clauseOf r) (l : List α)
    (d : Dev) : (l.foldl f d).clauseOf r = d.clauseOf r :=
  List.foldlRecOn (motive := fun e => e.clauseOf r = d.clauseOf r) l f rfl fun e he x _ => (hf e x).trans he

section
variable (d : Dev) (c : CoreRef) (tag : BitVec 16) (va lpa n : Nat) (r : ThreadRef)

/-! ## Poison (R87, R92) -/

theorem clauseOf_freePins : (d.freePins c).clauseOf r = d.clauseOf r := by
  unfold Dev.freePins
  split
  · rfl
  · exact clauseOf_onCore d c r

theorem clauseOf_revoke (p : TlbEntry → Bool) : (d.revoke p).clauseOf r = d.clauseOf r := by
  unfold Dev.revoke
  dsimp only
  split
  · rfl
  · rw [clauseOf_mapWarps _ (by exact fun _ _ => rfl) (by exact fun _ _ => rfl), clauseOf_foldl fun e (k : Core) => clauseOf_freePins e k.ref r]
    exact clauseOf_mapCores d r

theorem clauseOf_revokeSpan : (d.revokeSpan lpa n).clauseOf r = d.clauseOf r := by
  unfold Dev.revokeSpan
  split
  · rfl
  · exact clauseOf_revoke d r _

theorem clauseOf_setPoison : (d.setPoison lpa).clauseOf r = d.clauseOf r := by
  unfold Dev.setPoison
  rw [clauseOf_revokeSpan, clauseOf_mapDies, clauseOf_mapCores]
  rfl

/-! ## Translations (R72 to R79) -/

theorem clauseOf_trim {α : Type} (l : List α) : (d.trim n l).2.clauseOf r = d.clauseOf r := by
  unfold Dev.trim
  split <;> rfl

theorem clauseOf_fillL1Tlb (e : TlbEntry) : (d.fillL1Tlb c e).clauseOf r = d.clauseOf r := by
  unfold Dev.fillL1Tlb
  rw [clauseOf_onCore, clauseOf_trim]

theorem clauseOf_fillL2Tlb (die key : Nat) (e : TlbEntry) : (d.fillL2Tlb die key e).clauseOf r = d.clauseOf r :=
  clauseOf_trim d 2048 r _

theorem clauseOf_withExports (e : TlbEntry) : (d.withExports e).2.clauseOf r = d.clauseOf r := by
  unfold Dev.withExports Dev.keepExports
  split
  · dsimp only
    split <;> rfl
  · rfl

theorem clauseOf_page : (d.page c tag va).2.clauseOf r = d.clauseOf r := by
  unfold Dev.page
  split
  · rfl
  · split
    · exact clauseOf_fillL1Tlb d c r _
    · dsimp only
      split
      · rfl
      · have hread : ∀ (l : List WalkEntry) (e : Dev), (l.foldl (fun d x =>
            if d.badLines.contains (d.home x.lpa / 128) then d.foundBad x.lpa else d) e).clauseOf r = e.clauseOf r :=
          clauseOf_foldl fun e x => by
            split
            · exact clauseOf_setPoison e _ r
            · rfl
        split
        · rw [hread, clauseOf_onDie, clauseOf_trim]
        · rw [clauseOf_fillL1Tlb, clauseOf_fillL2Tlb, clauseOf_withExports, hread, clauseOf_onDie, clauseOf_trim]

theorem clauseOf_poisonChunk (page : Nat × Nat) (base die chunk : Nat) :
    (d.poisonChunk c tag page base die chunk).2.clauseOf r = d.clauseOf r := by
  unfold Dev.poisonChunk
  split
  · rfl
  · exact clauseOf_trim d 256 r _

theorem clauseOf_poisonBit (page : Nat × Nat) : (d.poisonBit c tag page lpa).2.clauseOf r = d.clauseOf r := by
  unfold Dev.poisonBit
  dsimp only
  split
  · rfl
  · rw [clauseOf_onCore, clauseOf_trim, clauseOf_poisonChunk]

theorem clauseOf_resolve (e : TlbEntry) (write fetch : Bool) : (d.resolve c tag e va write fetch).2.clauseOf r = d.clauseOf r := by
  have hbit := clauseOf_poisonBit d c tag (e.lpaAt va) r (e.va, e.size)
  unfold Dev.resolve
  dsimp only
  split
  · rfl
  split
  · rfl
  split
  · rfl
  split
  · rfl
  split
  · rfl
  split
  · rfl
  split
  all_goals exact hbit

theorem clauseOf_shadowed (write fetch : Bool) (x : XlateOut) : (d.shadowed va write fetch x).2.clauseOf r = d.clauseOf r := by
  have hend : d.endReplay.clauseOf r = d.clauseOf r := by
    unfold Dev.endReplay
    split <;> rfl
  unfold Dev.shadowed
  split
  · split
    · rfl
    · split
      · rfl
      · exact hend
  · exact hend
  · rfl

theorem clauseOf_translate (write fetch : Bool) : (d.translate c tag va write fetch).2.clauseOf r = d.clauseOf r := by
  have hpage := clauseOf_page d c tag va r
  unfold Dev.translate
  split
  · rfl
  · split
    · rfl
    · split
      · rename_i h
        rw [h] at hpage
        exact hpage
      · rename_i h
        rw [h] at hpage
        exact ((clauseOf_shadowed _ va r write fetch _).trans (clauseOf_resolve _ c tag va r _ write fetch)).trans hpage

theorem clauseOf_translated {d e : Dev} {c : CoreRef} {tag : BitVec 16} {va : Nat} {write fetch : Bool} {x : XlateOut}
    (r : ThreadRef) (h : d.translate c tag va write fetch = (x, e)) : e.clauseOf r = d.clauseOf r := by
  have hx := clauseOf_translate d c tag va r write fetch
  rwa [h] at hx

/-! ## The footprint log (R67 to R70) -/

variable (b : List Byte)

theorem clauseOf_passFill (die : Nat) (pa : PAddr) : (d.passFill die pa b).clauseOf r = d.clauseOf r := by
  unfold Dev.passFill
  split
  · rfl
  · unfold Dev.onAsking
    dsimp only
    split
    · rw [clauseOf_mapCores _ r (by intro k; dsimp only; split <;> exact ⟨rfl, rfl⟩)]
      rfl
    · rfl

theorem clauseOf_storeNear (pa : PAddr) (l : Leaf) (hint : Option Nat) : (d.storeNear c tag pa l hint b).clauseOf r = d.clauseOf r := by
  unfold Dev.storeNear
  rw [clauseOf_passFill, clauseOf_onDie, clauseOf_onCore _ c r (by intro k; dsimp only; split <;> exact ⟨rfl, rfl⟩)]

theorem clauseOf_holdItem (h : HeldItem) : (d.holdItem lpa h).clauseOf r = d.clauseOf r := by
  have hhold : ∀ die, (d.hold_ die h).2.clauseOf r = d.clauseOf r := fun die => by
    unfold Dev.hold_
    split <;> rfl
  have hlast : ∀ p : Bool × Dev, (if p.1 then p.2 else p.2.onDie (p.2.heldKey h).1.2 fun (k : Die) =>
      { k with retried := k.retried ++ [(p.2.now, h)] }).clauseOf r = p.2.clauseOf r := fun p => by
    split <;> rfl
  have hfirst : (if d.inHold lpa then d.hold_ (dieOf (d.home lpa)) h else (false, d)).2.clauseOf r = d.clauseOf r := by
    split
    · exact hhold _
    · rfl
  exact (hlast _).trans hfirst

theorem clauseOf_storeHome (l : Leaf) (hint : Option Nat) : (d.storeHome lpa l hint b).clauseOf r = d.clauseOf r := by
  unfold Dev.storeHome Dev.l2Use
  dsimp only
  split <;> rfl

theorem clauseOf_logStore (pa : PAddr) (l : Leaf) : (d.logStore c tag pa l b).clauseOf r = d.clauseOf r := by
  unfold Dev.logStore
  dsimp only
  split
  · rw [clauseOf_holdItem, clauseOf_storeNear]
  · rw [clauseOf_storeHome, clauseOf_storeNear]

theorem clauseOf_writeLog (w0 w1 : DWord) : (d.writeLog c tag w0 w1).clauseOf r = d.clauseOf r := by
  unfold Dev.writeLog
  split
  · rfl
  split
  · rename_i h
    rw [← clauseOf_translated r h]
    split
    · rfl
    split
    · rfl
    dsimp only
    split
    · rw [clauseOf_logStore]
    split
    · rename_i h
      rw [← clauseOf_translated r h]
      split
      · rfl
      · rw [clauseOf_logStore, clauseOf_logStore]
    · exact clauseOf_translated r ‹_›
  · exact clauseOf_translated r ‹_›

theorem clauseOf_flushFootprint (i : Nat) : (d.flushFootprint c i).clauseOf r = d.clauseOf r := by
  unfold Dev.flushFootprint
  split
  · rfl
  · rw [clauseOf_writeLog]
    exact clauseOf_onCore d c r

/-- Logging a footprint leaves every party in its clause (R67 to R70). -/
theorem clauseOf_logFootprint (kind : Nat) (span : Option (Nat × Nat)) : (d.logFootprint c tag kind span).clauseOf r = d.clauseOf r := by
  unfold Dev.logFootprint
  split
  · rfl
  split
  · rfl
  dsimp only
  split
  · exact clauseOf_onCore d c r
  · rw [clauseOf_onCore]
    split
    · exact clauseOf_flushFootprint d c r 0
    · rfl

end

end Sys2Proof.Machine
end

section
/-! SUPPORT. Admission of copies (R134, R375 to R381): the entry that each copy instruction puts into its core's queue once its checks
have passed. -/

namespace Sys2Proof.Machine

/-! ## Changes of a thread that differ only off the thread -/

theorem updBy_congr {α : Type} {p : α → Bool} {f g : α → α} {l : List α} (h : ∀ a, l.find? p = some a → f a = g a) :
    updBy p f l = updBy p g l := by
  induction l with
  | nil => rfl
  | cons a rest ih =>
    cases hp : p a with
    | true => simp only [updBy, hp, if_true, h a (by rw [List.find?_cons_of_pos hp])]
    | false =>
      have hrest : updBy p f rest = updBy p g rest := ih fun b hb => h b (by rw [List.find?_cons_of_neg (by simp [hp]), hb])
      simp only [updBy, hp, Bool.false_eq_true, if_false, hrest]

theorem updAt_congr {α : Type} {f g : α → α} {l : List α} {n : Nat} (h : ∀ a, l[n]? = some a → f a = g a) :
    updAt l n f = updAt l n g := by
  induction l generalizing n with
  | nil => rfl
  | cons a rest ih =>
    cases n with
    | zero => simp only [updAt, h a rfl]
    | succ n => simp only [updAt, ih fun b hb => h b (by simpa using hb)]

/-- Changes of a party's thread that agree on that thread are one change. -/
theorem onThread_congr {d : Dev} {r : ThreadRef} {f g : Thread → Thread} (h : ∀ t, d.thread r = some t → f t = g t) :
    d.onThread r f = d.onThread r g := by
  rcases r with ⟨gid, wid⟩ | ⟨c, _ | _⟩ | ⟨c, slot⟩
  · have hgroups : updBy (fun x => x.gid = gid) (fun x => { x with warps := updBy (fun w => w.wid = wid) f x.warps }) d.groups =
        updBy (fun x => x.gid = gid) (fun x => { x with warps := updBy (fun w => w.wid = wid) g x.warps }) d.groups :=
      updBy_congr fun x hx => by
        rw [updBy_congr fun w hw => h w (by simp only [Dev.thread, Dev.group, hx, Option.bind_some, hw])]
    simp only [Dev.onThread, Dev.onGroup, hgroups]
  · have hseq : (d.core c).matSeq.map (fun p => { p with thread := f p.thread }) =
        (d.core c).matSeq.map fun p => { p with thread := g p.thread } :=
      Option.map_congr fun p hp => by rw [h p.thread (by simp only [Dev.thread, hp]; rfl)]
    simp only [Dev.onThread, Dev.onCore, hseq]
  · have hseq : (d.core c).copySeq.map (fun p => { p with thread := f p.thread }) =
        (d.core c).copySeq.map fun p => { p with thread := g p.thread } :=
      Option.map_congr fun p hp => by rw [h p.thread (by simp only [Dev.thread, hp]; rfl)]
    simp only [Dev.onThread, Dev.onCore, hseq]
  · have hwaves : updAt (d.core c).waves slot (fun w => w.map fun w => { w with thread := f w.thread }) =
        updAt (d.core c).waves slot fun w => w.map fun w => { w with thread := g w.thread } :=
      updAt_congr fun w hw => Option.map_congr fun x hx => by
        rw [h x.thread (by simp only [Dev.thread, List.getD_eq_getElem?_getD, hw, Option.getD_some, hx]; rfl)]
    simp only [Dev.onThread, Dev.onCore, hwaves]

/-- A party in the clause of `t` tags the flag that `t` selects. -/
theorem onThread_tagFlag {d : Dev} {r : ThreadRef} {t : Thread} (h : d.clauseOf r = some t.clause) (f : BitVec 1) :
    (d.onThread r fun x => x.tagFlag (t.flagOf f)) = d.onThread r fun x => x.tagFlag (x.flagOf f) :=
  onThread_congr fun x hx => by
    have hclause : x.clause = t.clause := by simpa [Dev.clauseOf, hx] using h
    simp only [Thread.flagOf, hclause]

/-! ## Admission -/

theorem clauseOf_issues {s : State} {r : ThreadRef} {t : Thread} (h : Issues s r t) : s.dev.clauseOf r = some t.clause := by
  rw [Dev.clauseOf, h.2, Option.map_some]

/-- A device whose queue has taken a party's entry: the flag that the party selects is tagged, and the party goes on. -/
def Dev.takesCopy (d : Dev) (r : ThreadRef) (g : Group) (f : BitVec 1) (len : Nat) (e : CopyEntry) : Dev :=
  ((d.pushCopy g.core e).onThread r fun t => t.tagFlag (t.flagOf f)).retire r len

theorem admitCopy_takes {d : Dev} {r : ThreadRef} {t : Thread} {gr : Group} {f : BitVec 1} {e : CopyEntry} (hc : d.clauseOf r = some t.clause)
    (hw : d.admissionWaits r = false) (he : e.flag = t.flagOf f) (len : Nat) : d.admitCopy r gr len e = d.takesCopy r gr f len e := by
  have hpush : (d.pushCopy gr.core e).clauseOf r = some t.clause := (clauseOf_onCore _ gr.core r).trans hc
  rw [Dev.admitCopy, hw, if_neg Bool.false_ne_true, he, onThread_tagFlag hpush, Dev.takesCopy]

section
variable {s : State} {r : ThreadRef} {t : Thread} {gr : Group} {f : BitVec 1} {g : Guard} (hi : Issues s r t)
  (hg : s.dev.groupOf r = some gr) (ht : t.taking g ≠ 0) (hf : FlagFree t f)
include hi hg ht hf

/-- A class-4 instruction of a group's party with a taking-part lane and room in its flag. -/
theorem copyOp_taking (len : Nat) (act : ThreadRef → Thread → Group → Dev → Dev) :
    copyOp s len f g act = .next (s.withDev (act r t gr s.dev)) := by
  rw [copyOp, longOp_free hi (allotted_nil s r) hf]
  simp only [if_neg ht, hg]

variable (hw : s.dev.admissionWaits r = false)
include hw

/-- A class-4 instruction that asks for the admission of an entry. -/
theorem copyOp_admits {len : Nat} {act : ThreadRef → Thread → Group → Dev → Dev} {e : CopyEntry}
    (hact : act r t gr s.dev = s.dev.admitCopy r gr len e) (he : e.flag = t.flagOf f) :
    copyOp s len f g act = .next (s.withDev (s.dev.takesCopy r gr f len e)) := by
  rw [copyOp_taking hi hg ht hf, hact, admitCopy_takes (clauseOf_issues hi) hw he]

/-! ## The copy instructions -/

/-- DCOPY, DCOPY.CK and DFILL whose command passes its checks (R375 to R378). -/
theorem copyInstr_admits {ck fill : Bool} {dk sk h : BitVec 3} {dsp ssp : BitVec 2} {st : BitVec 5} {sg : BitVec 1} {sh : Shape}
    {op : CopyOp} (hop : s.dev.copyCommand (some gr) gr.core.die gr.ctx ck fill dk sk dsp ssp sh t.kpair t.shape = .inl op) :
    copyInstr s ck fill dk sk dsp ssp st sg h f g sh = .next (s.withDev (s.dev.takesCopy r gr f 5
      { s.dev.copyEntry r gr (t.flagOf f) op with
        st := some st, arrive := arriveOf sh, signal := t.signalHandle sg h
        start := if ck && bitOf sh.sh7.value.toNat 8 then some (t.sreg (st.toNat + 1)) else none
        expect := if ck && bitOf sh.sh7.value.toNat 9 then some (t.sreg (st.toNat + 2)) else none })) :=
  copyOp_admits hi hg ht hf hw (by simp only [hop]) rfl

theorem execDlease_admits {d sz du : BitVec 5} {pd : BitVec 3} : execDlease d sz du pd f g s =
    .next (s.withDev (s.dev.takesCopy r gr f 1 (s.dev.copyEntry r gr (t.flagOf f)
      (.lease false d (t.sreg sz.toNat) (t.sreg du.toNat) pd (t.taking g))))) :=
  copyOp_admits hi hg ht hf hw rfl rfl

theorem execDleaseRenew_admits {d du : BitVec 5} {pd : BitVec 3} : execDleaseRenew d du pd f g s =
    .next (s.withDev (s.dev.takesCopy r gr f 1 (s.dev.copyEntry r gr (t.flagOf f)
      (.lease true d (t.sreg d.toNat) (t.sreg du.toNat) pd (t.taking g))))) :=
  copyOp_admits hi hg ht hf hw rfl rfl

theorem execDunlease_admits {d : BitVec 5} (hd : ((t.sreg d.toNat).extractLsb' 30 2).toNat = gr.core.die)
    (hz : (t.sreg d.toNat).extractLsb' 16 10 = 0) : execDunlease d f g s =
      .next (s.withDev (s.dev.takesCopy r gr f 1 (s.dev.copyEntry r gr (t.flagOf f) (.unlease (t.sreg d.toNat))))) :=
  copyOp_admits hi hg ht hf hw (by simp [hd, hz]) rfl

theorem execDsig_admits {b : BitVec 4} {arr sg : BitVec 1} {h : BitVec 3}
    (hb : arr = 1 → (gr.bars.getD b.toNat Barrier.reset).expected ≠ 0) : execDsig b arr sg h f g s =
      .next (s.withDev (s.dev.takesCopy r gr f 1 { s.dev.copyEntry r gr (t.flagOf f) .sig with
        arrive := if arr = 1 then some b.toNat else none, signal := t.signalHandle sg h })) := by
  have hgood : gr.signalBad (if arr = 1 then some b.toNat else none) = false := by
    split
    · simpa [Group.signalBad] using hb ‹_›
    · rfl
  exact copyOp_admits hi hg ht hf hw (by simp only [hgood, Bool.false_eq_true, if_false]) rfl

theorem execDreloc_admits {k : BitVec 3} {st : BitVec 5} (hs : s.dev.isSuper r = true) (ha : (t.kpair k.toNat).toNat % 16 = 0) :
    execDreloc k st f g s = .next (s.withDev (s.dev.takesCopy r gr f 1
      { s.dev.copyEntry r gr (t.flagOf f) (.reloc (t.kpair k.toNat).toNat) with st := some st })) :=
  copyOp_admits hi hg ht hf hw (by simp [hs, ha]) rfl

end

/-! ## DGATHER and DSCAT (R379) -/

/-- The elements of an array that an index in its lanes' intervals may name: of a top interval, all. -/
def Thread.namedElements (t : Thread) (a : ArrReg) (x : BitVec 4) (c : Int) (mask : Word) : Ivl :=
  let i := t.takingIvl x c mask
  let e : Int := a.extent.toNat
  if i = ivlTop then ⟨0, e - 1⟩ else ivlMeet i ⟨0, e - 1⟩

/-- The first number of an interval, 0 of an empty one, and how many numbers it has. -/
def Ivl.first (j : Ivl) : Nat := if j.hi < j.lo then 0 else j.lo.toNat
def Ivl.count (j : Ivl) : Nat := (j.hi - j.lo + 1).toNat

/-- A device that has logged an instruction's footprint, where its array asks for that (R67). -/
def Dev.notes (d : Dev) (r : ThreadRef) (gr : Group) (a : ArrReg) (scatter : Bool) (base count : Nat) : Dev :=
  if a.log then
    d.logFootprint gr.core (d.tagOf r) (if scatter then 3 else 2) (if count = 0 then none else some (base, count * 2 ^ a.z))
  else d

theorem clauseOf_notes (d : Dev) (r : ThreadRef) (gr : Group) (a : ArrReg) (scatter : Bool) (base count : Nat) :
    (d.notes r gr a scatter base count).clauseOf r = d.clauseOf r := by
  unfold Dev.notes
  split
  · exact clauseOf_logFootprint d _ _ r _ _
  · rfl

/-- The checks of a footprint of `n` bytes that fail. -/
def Dev.footprintBad (d : Dev) (gr : Group) (a : ArrReg) (side : EngineSpace) (base n : Nat) : List TrapInfo :=
  let meet := match side with
    | .virt v => spansMeet [(base, n)] [(v, n)]
    | _ => false
  (if a.base.toNat / 2 ^ 54 = 2 then [trapAdmit 1] else []) ++ d.operandBad (some gr) gr.core.die gr.ctx side n (2 ^ a.z) ++
    (if meet || 2 ^ 31 < n then [.plain causeBounds 0] else [])

theorem footprintBad_nil {d : Dev} {gr : Group} {a : ArrReg} {side : EngineSpace} {base n : Nat} (hbase : a.base.toNat / 2 ^ 54 ≠ 2)
    (hn : n ≤ 2 ^ 31) (hmeet : ∀ y, side = .virt y → spansMeet [(base, n)] [(y, n)] = false)
    (hside : d.operandBad (some gr) gr.core.die gr.ctx side n (2 ^ a.z) = []) : d.footprintBad gr a side base n = [] := by
  have hsize : decide (2 ^ 31 < n) = false := decide_eq_false (Nat.not_lt.mpr hn)
  simp only [Dev.footprintBad, if_neg hbase, hside, hsize, List.nil_append, Bool.or_false]
  cases side with
  | virt v => exact if_neg (Bool.eq_false_iff.mp (hmeet v rfl))
  | scr v => rfl
  | lease h v => rfl

/-- A footprint instruction whose checks pass; with `big`, more elements than its limit, its entry will move none and end with code 7. -/
theorem footprintInstr_admits {s : State} {r : ThreadRef} {t : Thread} {gr : Group} {f : BitVec 1} {g : Guard} (hi : Issues s r t)
    (hg : s.dev.groupOf r = some gr) (ht : t.taking g ≠ 0) (hf : FlagFree t f) (hw : s.dev.admissionWaits r = false) {scatter : Bool}
    {k h : BitVec 3} {arr : BitVec 4} {sp : BitVec 2} {st : BitVec 5} {sg : BitVec 1} {sh : Shape} :
    let x : BitVec 4 := sh.sh0.value.extractLsb' 0 4
    let a := t.arr arr
    let j := t.namedElements a x (sh.sh1.value.toNat - 1024) (t.taking g)
    let base := a.base.toNat + j.first * 2 ^ a.z
    let side := spaceOf sp (t.kpair k.toNat)
    let d := s.dev.notes r gr a scatter base j.count
    ∀ big, decide (t.shape sh.sh2 < j.count) = big → Allotted s r [112 + x.setWidth 7] → st.toNat ≤ 30 →
    s.dev.footprintBad gr a side base (if big then 0 else j.count * 2 ^ a.z) = [] → d.admissionWaits r = false →
    footprintInstr s scatter k arr sp st sg h f g sh = .next (s.withDev (d.takesCopy r gr f 5
      { d.copyEntry r gr (t.flagOf f) (.footprint scatter (.virt base) j.first j.count a.z side big) with
        st := some st, arrive := arriveOf sh, signal := t.signalHandle sg h, code := if big then 7 else 0 })) := by
  rintro x a j base side d big rfl ha hst hbad hwait
  have hclause : d.clauseOf r = some t.clause := (clauseOf_notes _ _ _ _ _ _ _).trans (clauseOf_issues hi)
  have hallot : s.dev.allotTrap r [112 + (sh.sh0.value.extractLsb' 0 4).setWidth 7] = none := ha
  rw [footprintInstr, copyOp_taking hi hg ht hf]
  simp only [hallot, if_neg (Nat.not_lt.mpr hst), hw, Bool.not_false, Bool.and_true]
  generalize hz : firstBad _ = z
  obtain rfl : z = none := hz.symm.trans (congrArg firstBad hbad)
  exact congrArg (fun y => Host.Outcome.next (s.withDev y)) (admitCopy_takes (d := d) hclause hwait rfl 5)

/-- Settles O43: each copy instruction's checks pass, and its entry is admitted; logging a footprint leaves the party in its clause. -/
theorem copyAdmission : Obligations.CopyAdmission := by
  intro s r t gr dk sk h pd dsp ssp sp st d sz du sg f arr b ar g sh hi hg ht hf hw goes v handle ends copies
  have harrive : arriveOf sh = if v / 8 % 2 = 1 then some (v / 16 % 16) else none := by
    simp only [arriveOf, bitOf, beq_iff_eq]
    rfl
  have hcopies : ∀ i ck fill, exec i s = copyInstr s ck fill dk sk dsp ssp st sg h f g sh → copies i ck fill := by
    intro i ck fill hexec op hop
    have hadmits := copyInstr_admits hi hg ht hf hw (sg := sg) (st := st) (h := h) hop
    simp only [harrive, bitOf, Bool.and_eq_true, beq_iff_eq] at hadmits
    exact hexec.trans hadmits
  refine ⟨hcopies _ _ _ rfl, hcopies _ _ _ rfl, hcopies _ _ _ rfl, ?footprint, execDlease_admits hi hg ht hf hw,
    execDleaseRenew_admits hi hg ht hf hw, fun hd hz => execDunlease_admits hi hg ht hf hw hd hz,
    fun hb => execDsig_admits hi hg ht hf hw hb, fun hs ha => execDreloc_admits hi hg ht hf hw hs ha⟩
  intro x a i e j lo count n base side ha hst hbase hn hcount hmeet hbad noted
  have hnil : s.dev.footprintBad gr a side base n = [] := footprintBad_nil hbase hn hmeet hbad
  have hfit : decide (t.shape sh.sh2 < count) = false := decide_eq_false (Nat.not_lt.mpr hcount)
  have hadmits := fun scatter => footprintInstr_admits hi hg ht hf hw (scatter := scatter) (k := dk) (arr := ar) (h := h) (sp := sp)
    (st := st) (sg := sg) (sh := sh) false hfit ha hst hnil
  rw [harrive] at hadmits
  exact ⟨hadmits false, hadmits true⟩

end Sys2Proof.Machine
end

section
/-! SUPPORT. Power, clocks, temperatures, ports and boot commands (R145, R445, R446, R448, R451 to R453): what each event answers when its
conditions hold, and that a start answers a load that was running. -/

namespace Sys2Proof.Machine

/-! ## Starts (R445, R451) -/

theorem reg_setReg (d : Dev) (r : Reg) (v : DWord) : (d.setReg r v).reg r = v := by
  simp [Dev.setReg, Dev.reg]

/-- A start that finds a load running answers it ABORTED (R451), whatever else the start leaves. -/
theorem loadstat_abortLoad {old : Dev} (h : old.loading ≠ none) (d : Dev) : (Dev.abortLoad d old).reg .loadstat = 8 := by
  rw [Dev.abortLoad, if_pos (Option.isSome_iff_ne_none.mpr h), reg_setReg]

theorem loadstat_coldStart {d : Dev} (h : d.loading ≠ none) : d.coldStart.reg .loadstat = 8 := loadstat_abortLoad h _

theorem loadstat_warmStart {d : Dev} (h : d.loading ≠ none) : d.warmStart.reg .loadstat = 8 := loadstat_abortLoad h _

/-! ## Power on and off (R445, R452) -/

section
variable {s : State}

theorem execPowerOn_starts (h : s.dev.on = false) :
    execPowerOn s = .next (s.withDev { s.dev.coldStart with on := true }) :=
  happen_some (by simp [h])

theorem execPowerOff_loses (h : s.dev.on = true) : execPowerOff s = .next (s.withDev s.dev.dead) :=
  happen_some (by simp [h])

/-! ## The power cap (R453) -/

section
variable {die : Nat} (hc : s.dev.clocked = true)
include hc

theorem execPowerCap_lowers (hw : bits (s.dev.reg .pwrctl) 11 0 < s.dev.watts) (hn : s.dev.capped < 15) :
    execPowerCap s = .next (s.withDev { s.dev with capped := s.dev.capped + 1 }) :=
  happen_some (by simp [hc, hw, hn])

theorem execPowerStateNormal_uncaps (hw : s.dev.watts < bits (s.dev.reg .pwrctl) 11 0) (hn : s.dev.capped ≠ 0) :
    execPowerStateNormal none s = .next (s.withDev { s.dev with capped := 0 }) :=
  happen_some (by simp [hc, hw, hn])

/-! ## Temperatures (R453) -/

theorem execDieThrottle_throttles (hd : die < 4) (ht : (s.dev.die die).throttled = false)
    (hot : s.dev.anyCore (some die) 105 = true) :
    execDieThrottle die s = .next (s.withDev (s.dev.onDie die fun (k : Die) => { k with throttled := true })) :=
  happen_some (by simp [hc, hd, ht, hot])

theorem execPowerStateNormal_unthrottles (ht : (s.dev.die die).throttled = true)
    (hcool : s.dev.anyCore (some die) (bits (s.dev.reg .thermctl) 15 8) = false) :
    execPowerStateNormal (some die) s = .next (s.withDev (s.dev.onDie die fun (k : Die) => { k with throttled := false })) :=
  happen_some (by simp [hc, ht, hcool])

end

section
variable {stack : Nat} (ho : s.dev.on = true)
include ho

theorem execMemoryThermalState_enters (hs : stack < 12) (ht : 95 ≤ s.dev.stackOf stack)
    (hn : (s.dev.die (stack / 3)).hotStacks.contains stack = false) :
    execMemoryThermalState stack s =
      .next (s.withDev (s.dev.onDie (stack / 3) fun (k : Die) => { k with hotStacks := stack :: k.hotStacks })) :=
  happen_some (by simp only [ho, hs, ht, hn]; rfl)

theorem execMemoryThermalStateExit_leaves (ht : s.dev.stackOf stack < 95)
    (hn : (s.dev.die (stack / 3)).hotStacks.contains stack = true) :
    execMemoryThermalStateExit stack s = .next (s.withDev (s.dev.onDie (stack / 3) fun (k : Die) =>
      { k with hotStacks := k.hotStacks.filter fun n => n != stack })) :=
  happen_some (by simp only [ho, ht, hn]; rfl)

/-- A device in the emergency stop that begins now: what it halts, and the notice of PWRSTAT to the host (R453). -/
def Dev.emergencyStopped (d : Dev) : Dev :=
  let e := { d.halted true with boot := 3, emergency := some d.now, now := d.now }
  { e with hostNotices := e.hostNotices ++ [e.readReg 0 0 .pwrstat] }

theorem execEmergencyStop_stops (he : s.dev.emergency = none)
    (hot : s.dev.anyCore none 120 = true ∨ ∃ p ∈ s.dev.stackTemp, 105 ≤ p.2) :
    execEmergencyStop s = .next (s.withDev s.dev.emergencyStopped) := by
  have hhot : (s.dev.anyCore none 120 || s.dev.stackTemp.any fun p => decide (105 ≤ p.2)) = true := by
    simpa using hot
  refine happen_some ?_
  simp only [ho, he, hhot]
  rfl

end

theorem execEmergencyStopComplete_ends {t : Nat} (he : s.dev.emergency = some t) (ht : t + 10000000 ≤ s.dev.now) :
    execEmergencyStopComplete s = .next (s.withDev s.dev.dead) :=
  happen_some (by simp [he, ht])

/-! ## Ports (R145) -/

section
variable (ho : s.dev.on = true) {port die : Nat} (hd : (upFrom 0 4).find? (fun k => (diePorts k).contains port) = some die)
include ho hd

theorem execWorkingPortChange_leaves (hp : (s.dev.die die).ports.contains port = true) :
    execWorkingPortChange port false s = .next (s.withDev (s.dev.onDie die fun (k : Die) =>
      { k with ports := k.ports.filter fun n => n != port })) :=
  happen_some (by simp only [hd, ho, hp]; rfl)

theorem execWorkingPortChange_joins (hp : (s.dev.die die).ports.contains port = false) :
    execWorkingPortChange port true s = .next (s.withDev (s.dev.onDie die fun (k : Die) => { k with ports := port :: k.ports })) :=
  happen_some (by simp only [hd, ho, hp]; rfl)

end

/-! ## Boot commands (R445) -/

/-- A device after a shutdown: memory and the retention record stay (log 32). -/
def Dev.shutDown (d : Dev) : Dev := { d.halted true with boot := 0, retain := true }

/-- A write of BOOTCMD with the operation of its event does what the operation does. -/
theorem bootOp_acts {w : RegWrite} {ws : List RegWrite} (hw : s.dev.regBus = w :: ws) (ho : s.dev.on = true) (hr : w.reg = .bootcmd)
    {op : Nat} (hop : bits w.value 63 62 = op) (f : Dev → Dev) : bootOp s op f = .next (s.withDev ((f s.dev).busDone w)) :=
  onWrite_some hw ho (by simp [hr, hop])

end

/-- Settles O51, event by event: under the conditions of each clause the event's meaning takes the branch that the clause names. -/
theorem powerAndBoot : Obligations.PowerAndBoot := by
  intro s die stack port w ws goes d cap
  refine ⟨execPowerOn_starts, fun hl => ⟨loadstat_coldStart hl, loadstat_warmStart hl⟩, execPowerOff_loses, execPowerCap_lowers,
    execPowerStateNormal_uncaps, execDieThrottle_throttles, execPowerStateNormal_unthrottles, execMemoryThermalState_enters,
    execMemoryThermalStateExit_leaves, execEmergencyStop_stops, fun t => execEmergencyStopComplete_ends, ?ports, ?boot⟩
  case ports => exact fun ho _ hd => ⟨execWorkingPortChange_leaves ho hd, execWorkingPortChange_joins ho hd⟩
  case boot =>
    intro hw ho hr
    exact ⟨fun hop => bootOp_acts hw ho hr hop .warmStart, fun hop => bootOp_acts hw ho hr hop .coldStart,
      fun hop => bootOp_acts hw ho hr hop .shutDown⟩

end Sys2Proof.Machine
end

section
/-! SUPPORT. Answers and timers (R97, R150, R157, R160, R162, R419, R480): what each answer does with the message that it names, and what
each event does whose time has come. -/

namespace Sys2Proof.Machine

/-! ## Answers to kept messages (R97, R150, R157) -/

section
variable {s : State} {m : Msg} (ho : s.dev.on = true) (hk : m.header.kind = 7) (hb : headerBad m.header = false)
include ho hk hb

/-- A response with the code of its event and a sound header acts. -/
theorem answerEvent_acts {code : Nat} (hc : m.header.operand.toNat = code) {f : Dev → Option Dev} {d : Dev} (hf : f s.dev = some d) :
    answerEvent code m s f = .next (s.withDev d) :=
  happen_some (by simp [ho, hk, hc, hb, hf])

variable {x : Sent} (hx : s.dev.sentFor m = some x)
include hx

theorem execAckResponse_settles (hc : m.header.operand.toNat = 0) (hp : m.payload = .none) :
    execAckResponse m s = .next (s.withDev ((s.dev.acked x.origin .none).forget m.header.srcDie.toNat x)) :=
  answerEvent_acts ho hk hb hc (by simp only [hp, hx])

theorem execRefusedResponse_loses (hc : m.header.operand.toNat = 1) (hp : m.payload = .none) :
    execRefusedResponse m s = .next (s.withDev ((s.dev.lostMsg m.header.srcDie.toNat x).forget m.header.srcDie.toNat x)) :=
  answerEvent_acts ho hk hb hc (by simp only [hp, hx])

theorem execRetryResponse_waits (hc : m.header.operand.toNat = 2) :
    execRetryResponse m s = .next (s.withDev (s.dev.onSent m.header.srcDie.toNat x fun (y : Sent) =>
      { y with retry := true, resends := 0, last := s.dev.now })) :=
  answerEvent_acts ho hk hb hc (by simp only [hx])

theorem execHeldResponse_waits (hc : m.header.operand.toNat = 3) :
    execHeldResponse m s = .next (s.withDev (s.dev.onSent m.header.srcDie.toNat x fun (y : Sent) =>
      { y with resends := 0, last := s.dev.now })) :=
  answerEvent_acts ho hk hb hc (by simp only [hx])

theorem execConsumedResponse_settles (hc : m.header.operand.toNat = 4) :
    execConsumedResponse m s = .next (s.withDev ((s.dev.settled x.origin).forget m.header.srcDie.toNat x)) :=
  answerEvent_acts ho hk hb hc (by simp only [hx])

theorem execAbandonedResponse_loses (hc : m.header.operand.toNat = 5) :
    execAbandonedResponse m s = .next (s.withDev ((s.dev.lostMsg m.header.srcDie.toNat x).forget m.header.srcDie.toNat x)) :=
  answerEvent_acts ho hk hb hc (by simp only [hx])

end

/-! ## Resends, doubts and loss notices (R97, R150, R157) -/

section
variable {s : State} {die n : Nat} {x : Sent} (ho : s.dev.on = true) (hx : (s.dev.die die).sent[n]? = some x)
include ho hx

theorem execMessageResend_retries (hd : x.doubt = false) (hr : x.retry = true) (ht : x.last + 1000 ≤ s.dev.now) :
    execMessageResend die n s = .next (s.withDev (s.dev.resend die x fun (y : Sent) =>
      { y with retry := false, last := s.dev.now })) :=
  happen_some (by simp [hx, ho, hd, hr, Nat.not_lt.mpr ht])

theorem execMessageResend_resends (hd : x.doubt = false) (hr : x.retry = false) (ht : x.last + 100000 ≤ s.dev.now)
    (hn : x.resends < s.dev.resendLimit) :
    execMessageResend die n s = .next (s.withDev (s.dev.resend die x fun (y : Sent) =>
      { y with resends := y.resends + 1, last := s.dev.now })) :=
  happen_some (by simp [hx, ho, hd, hr, Nat.not_lt.mpr ht, Nat.not_le.mpr hn])

theorem execMessageDoubt_doubts (hd : x.doubt = false) (hr : x.retry = false) (hroom : (s.dev.die die).doubts < 64)
    (hn : s.dev.resendLimit ≤ x.resends) (ht : x.last + s.dev.lossTimeout ≤ s.dev.now) :
    execMessageDoubt die n s = .next (s.withDev
      (((s.dev.onSent die x fun (y : Sent) => { y with doubt := true, noticed := s.dev.now }).onJob die x.key.1 x.key.2
        fun (j : JobEntry) => { j with doubt := j.doubt + 1 }).emitLossNotice die x)) :=
  happen_some (by simp [hx, ho, hd, hr, Nat.not_le.mpr hroom, Nat.not_lt.mpr hn, Nat.not_lt.mpr ht])

theorem execLossNoticeResend_resends (hd : x.doubt = true) (ht : x.noticed + 100000 ≤ s.dev.now) :
    execLossNoticeResend die n s = .next (s.withDev
      ((s.dev.onSent die x fun (y : Sent) => { y with noticed := s.dev.now }).emitLossNotice die x)) :=
  happen_some (by simp [hx, ho, hd, Nat.not_lt.mpr ht])

end

/-- A write answered retry goes again when it is the first of its die to its line, and nothing holds its line (R97). -/
theorem execRetryResend_performs {s : State} {n die t op p : Nat} {w : BitVec 16}
    (hx : (s.dev.dies.flatMap fun (k : Die) => k.retried.map fun x => (k.idx, x))[n]? = some (die, t, .piece op p w))
    (ht : t + 1000 ≤ s.dev.now) (hh : s.dev.inHold (s.dev.heldKey (.piece op p w)).2 = false)
    (hw : s.dev.waveHolds (s.dev.heldKey (.piece op p w)).2 16 = false)
    (hfirst : ∀ y ∈ (s.dev.die die).retried.takeWhile (fun y => y.2 ≠ .piece op p w),
      ¬ ((s.dev.heldKey y.2).1 = (s.dev.heldKey (.piece op p w)).1 ∧
        sameLine (s.dev.heldKey y.2).2 (s.dev.heldKey (.piece op p w)).2 = true)) :
    execRetryResend n s = .next (s.withDev ((s.dev.onDie die fun (k : Die) =>
      { k with retried := k.retried.filter fun y => y.2 ≠ .piece op p w }).releasePiece op p)) := by
  have hnone : (((s.dev.die die).retried.takeWhile fun x => x.2 ≠ .piece op p w).any fun x =>
      (s.dev.heldKey x.2).1 = (s.dev.heldKey (.piece op p w)).1 &&
        sameLine (s.dev.heldKey x.2).2 (s.dev.heldKey (.piece op p w)).2) = false := by
    simpa only [List.any_eq_false, Bool.and_eq_true, decide_eq_true_eq] using hfirst
  refine happen_some ?_
  simp only [hx, hnone, Nat.not_lt.mpr ht, hh, heldSpan, hw]
  rfl

/-- The first notice of its image leaves again while it is not acknowledged (R480). -/
theorem execPhaseNoticeResend_resends {s : State} {n : Nat} {y : Notice} (ho : s.dev.on = true) (hy : s.dev.notices[n]? = some y)
    (ht : y.last + 100000 ≤ s.dev.now) (hfirst : ∀ z ∈ s.dev.notices.take n, sameImage z y = false) :
    execPhaseNoticeResend n s = .next (s.withDev
      ({ s.dev with notices := updAt s.dev.notices n fun z => { z with last := s.dev.now } }.emitNotice y)) := by
  have hnone : ((s.dev.notices.take n).any fun z => sameImage z y) = false := by
    simpa only [List.any_eq_false, Bool.not_eq_true] using hfirst
  exact happen_some (by simp [hy, ho, Nat.not_lt.mpr ht, hnone])

/-! ## Traverses and activity periods (R160, R162, R419) -/

/-- A pass that 50 µs have not completed begins again as pass 1. -/
theorem execTraversePassTimeout_restarts {s : State} {ctx job : Nat} {t : Traverse}
    (hf : s.dev.traverses.find? (fun t => t.ctx = ctx && t.job = job) = some t) (ht : t.passStart + 50000 ≤ s.dev.now) :
    execTraversePassTimeout ctx job s = .next (s.withDev
      (((s.dev.dropTraverse ctx job).startPass t 1).2.putTraverse ((s.dev.dropTraverse ctx job).startPass t 1).1)) :=
  happen_some (by simp only [hf, if_neg (Nat.not_lt.mpr ht)])

/-- A device that has told the roots of its other jobs of them (R162, log 21). -/
def Dev.toldRoots (d : Dev) : Dev :=
  (d.entryJobs.filter fun j => d.root j.1 ≠ d.pkgNum).foldl (fun e j =>
    e.sendPlain 0 ⟨9, j.1, j.2, j.1, e.root j.1, 0, 0, 16⟩ 0 (.ask 0 0))
    { d with lastPeriodic := d.now, asks := d.asks.filter fun a => a.upTo ≠ 0 }

theorem execTraversePeriodic_starts {s : State} (ho : s.dev.on = true) (hp : bits (s.dev.reg .fabctl) 11 0 ≠ 0)
    (ht : s.dev.lastPeriodic + bits (s.dev.reg .fabctl) 11 0 * 1000 ≤ s.dev.now) :
    execTraversePeriodic s = .next (s.withDev (s.dev.activeJobs.foldl Dev.startPeriodic s.dev.toldRoots)) := by
  refine happen_some (if_neg ?_)
  simp [ho, hp, ht]

theorem execActivityPeriod_ends {s : State} {die n : Nat} {b : Budget} (hd : die < 4) (hb : (s.dev.die die).budgets[n]? = some b)
    (ht : b.since + 1000 * max 1 (bits (s.dev.reg (.abud die n)) 43 32) ≤ s.dev.now) :
    execActivityPeriod die n s = .next (s.withDev (s.dev.onDie die fun (k : Die) =>
      { k with budgets := k.budgets.set n ⟨0, 0, b.deferred + s.dev.waitingUnits die n, s.dev.now⟩ })) := by
  refine happen_some ?_
  simp only [hb, Nat.not_le.mpr hd, Nat.not_lt.mpr ht]
  rfl

/-- Settles O47, event by event: the answers by their codes, the timers by their times. -/
theorem answersAndTimers : Obligations.AnswersAndTimers := by
  intro s m die n ctx job x ho h goes k is now
  refine ⟨?ack, ?refused, ?retry, ?held, ?consumed, ?abandoned, fun hx => ⟨execMessageResend_retries ho hx, execMessageResend_resends ho hx,
    execMessageDoubt_doubts ho hx, execLossNoticeResend_resends ho hx⟩, fun t op p w hx ht hh hw => execRetryResend_performs hx ht hh hw,
    fun y hy => execPhaseNoticeResend_resends ho hy, fun t ht => execTraversePassTimeout_restarts ht, execTraversePeriodic_starts ho,
    fun b => execActivityPeriod_ends⟩
  case ack => exact fun ⟨hk, hc, hb, hx, hp⟩ => execAckResponse_settles ho hk hb hx hc hp
  case refused => exact fun ⟨hk, hc, hb, hx, hp⟩ => execRefusedResponse_loses ho hk hb hx hc hp
  case retry => exact fun ⟨hk, hc, hb, hx, _⟩ => execRetryResponse_waits ho hk hb hx hc
  case held => exact fun ⟨hk, hc, hb, hx, _⟩ => execHeldResponse_waits ho hk hb hx hc
  case consumed => exact fun ⟨hk, hc, hb, hx, _⟩ => execConsumedResponse_settles ho hk hb hx hc
  case abandoned => exact fun ⟨hk, hc, hb, hx, _⟩ => execAbandonedResponse_loses ho hk hb hx hc

end Sys2Proof.Machine
end

section
/-! SUPPORT. Arriving messages (R21, R22, R92, R147 to R149, R157, R160, R434, R448, R480): the turn of a counted message in its flow, what
its unit answers, and the messages that are not counted. -/

namespace Sys2Proof.Machine

/-! ## The turn of a counted message (R149) -/

/-- The event that brings in a counted message of a kind that is not reserved. -/
def Brings (i : Instr) (m : Msg) : Prop :=
  let h := m.header
  (h.kind = 0 ∧ i = .remoteStore m) ∨ (h.kind = 1 ∧ i = .remoteAtomic m) ∨ (h.kind = 2 ∧ i = .methodCall m) ∨
    (h.kind = 3 ∧ i = .methodReply (some m) 0) ∨ (h.kind = 4 ∧ i = .remoteSpawn m) ∨ (h.kind = 6 ∧ i = .copyBeat m) ∨
    (h.kind = 5 ∧ h.operand = 0 ∧ i = .remoteSignal m) ∨ (h.kind = 5 ∧ h.operand = 1 ∧ i = .remotePodInit m)

/-- An event of a message's kind has it arrive. -/
theorem msgEvent_arrives {s : State} {m : Msg} {k : Nat} (hk : m.header.kind.toNat = k) :
    msgEvent k m s = happen s fun d => d.arriveMsg d.receivingDie m := by
  simp [msgEvent, hk]

/-- Whatever its kind, the event of a counted message has it arrive. -/
theorem exec_of_brings {s : State} {m : Msg} {i : Instr} (hi : Brings i m) :
    exec i s = happen s fun d => d.arriveMsg d.receivingDie m := by
  rcases hi with ⟨hk, rfl⟩ | ⟨hk, rfl⟩ | ⟨hk, rfl⟩ | ⟨hk, rfl⟩ | ⟨hk, rfl⟩ | ⟨hk, rfl⟩ | ⟨hk, ho, rfl⟩ | ⟨hk, ho, rfl⟩
  case inr.inr.inr.inr.inr.inr.inl => exact (if_pos ho).trans (msgEvent_arrives (congrArg BitVec.toNat hk))
  case inr.inr.inr.inr.inr.inr.inr => exact (if_pos ho).trans (msgEvent_arrives (congrArg BitVec.toNat hk))
  all_goals exact msgEvent_arrives (congrArg BitVec.toNat hk)

section
variable {d : Dev} {m : Msg} (ho : d.on = true)
include ho

theorem arriveMsg_unnumbered (hl : d.linkUp = false) (die : Msg → Nat) :
    d.arriveMsg die m = some (d.emit (die m) (d.responseTo m 1 .none)) := by
  simp [Dev.arriveMsg, ho, hl]

variable (hl : d.linkUp = true)
include hl

/-- A duplicate gets its first answer again. -/
theorem arriveMsg_behind {a : BitVec 32 × Msg} (hb : 2 ^ 31 ≤ (m.header.seq - (d.flowIn m.header).next).toNat)
    (ha : (d.flowIn m.header).answered.find? (fun a => a.1 = m.header.seq) = some a) (die : Msg → Nat) :
    d.arriveMsg die m = some (d.emit (die m) a.2) := by
  simp only [Dev.arriveMsg, ho, hl, ha, decide_eq_true hb, Bool.or_true]
  rfl

section
variable (hf : (d.flowIn m.header).abandoned.contains m.header.seq = false) (hn : m.header.seq = (d.flowIn m.header).next)
include hf hn

/-- A message whose turn it is in its flow is handed to its unit; when the flow goes on, those held behind it follow. -/
theorem arriveMsg_next {die : Msg → Nat} {goesOn : Bool} {d1 : Dev} (hh : d.hand die m = some (goesOn, d1)) :
    d.arriveMsg die m = some (if goesOn then d1.drain die m.header ((d.flowIn m.header).held.length + 1) else d1) := by
  have hz : (m.header.seq - (d.flowIn m.header).next).toNat = 0 := by simp [hn]
  simp only [Dev.arriveMsg, ho, hl, hf, hz, hh]
  cases goesOn <;> rfl

end

end

/-! ## What a unit answers (R148, R149) -/

/-- What becomes of a message that its unit has answered: whether its flow goes on, and the device. -/
def Got.handed (g : Got) (k : Nat) (m : Msg) : Option (Bool × Dev) :=
  match g with
  | .ack p d => some (true, ((d.passSeq m.header).consume k m.header).answer k m 0 p)
  | .refused d => some (true, (d.passSeq m.header).answer k m 1 .none)
  | .retry d => some (false, d.emit k (d.responseTo m 2 .none))
  | .held d => some (true, ((d.withEntry k m.header).passSeq m.header).answer k m 3 .none)
  | .taken d => some (true, (d.withEntry k m.header).passSeq m.header)
  | .discarded d => some (true, (d.passSeq m.header).consume k m.header)
  | .wait => none

theorem hand_eq_handed {d : Dev} {die : Msg → Nat} {m : Msg} (hm : d.mayConsume (die m) m.header = true) :
    d.hand die m = (d.handle m).handed (die m) m := by
  simp only [Dev.hand, hm, Got.handed]
  rfl

/-- A message whose turn it is becomes what its unit's answer says; when the flow goes on, those held behind it follow. -/
theorem exec_of_handed {s : State} {m : Msg} {i : Instr} (ho : s.dev.on = true) (hi : Brings i m) (hl : s.dev.linkUp = true)
    (hf : (s.dev.flowIn m.header).abandoned.contains m.header.seq = false) (hn : m.header.seq = (s.dev.flowIn m.header).next)
    (hm : s.dev.mayConsume (s.dev.receivingDie m) m.header = true) {g : Got} (hg : s.dev.handle m = g) {goesOn : Bool} {d1 : Dev}
    (hd : g.handed (s.dev.receivingDie m) m = some (goesOn, d1)) :
    exec i s = .next (s.withDev
      (if goesOn then d1.drain s.dev.receivingDie m.header ((s.dev.flowIn m.header).held.length + 1) else d1)) := by
  have hhand : s.dev.hand s.dev.receivingDie m = some (goesOn, d1) := by rw [hand_eq_handed hm, hg, hd]
  rw [exec_of_brings hi]
  exact happen_some (arriveMsg_next ho hl hf hn hhand)

section
variable {d : Dev} {m : Msg}

/-- A message with a reserved kind or bit is discarded; a method call of such a header closes its call (R147, R174). -/
theorem handle_of_headerBad (hb : headerBad m.header = true) :
    d.handle m = .discarded (if m.header.kind = 2 then (d.discard (d.receivingDie m) m.header).closeCall m.header
      else d.discard (d.receivingDie m) m.header) := by
  by_cases h2 : m.header.kind = 2
  · simp [Dev.handle, hb, h2, Dev.peerCall]
  · have h2' : m.header.kind.toNat ≠ 2 := fun h => h2 (BitVec.eq_of_toNat_eq h)
    simp only [Dev.handle, hb, h2, h2', Bool.not_true, Bool.and_false, Dev.peerReply, Dev.peerSpawn, Dev.peerSignal, Dev.peerWrite, if_true,
      if_false, Bool.false_eq_true, ite_self]

/-- A store, atomic or beat is a write at its home point. -/
theorem handle_write (hr : d.resetting m.header.tgtCtx.toNat = false)
    (hk : m.header.kind = 0 ∨ m.header.kind = 1 ∨ m.header.kind = 6) : d.handle m = d.peerWrite m := by
  rcases hk with hk | hk | hk <;> simp [Dev.handle, hr, hk]

variable (hb : headerBad m.header = false)
include hb

/-- A message for a context that is being reset is refused (R434). -/
theorem handle_of_resetting (hr : d.resetting m.header.tgtCtx.toNat = true) : d.handle m = .refused d := by
  simp [Dev.handle, hb, hr]

section
variable (hr : d.resetting m.header.tgtCtx.toNat = false)
include hr

/-- A store that nothing refuses or holds writes its home (R148, R21). -/
theorem handle_store (hk : m.header.kind = 0) {b : List Byte} (hp : m.payload = .bytes b)
    (hx : (d.noteExports m.header.tgtCtx.toNat m.header.lpa.toNat).refuses m.header true = false)
    (hh : (d.noteExports m.header.tgtCtx.toNat m.header.lpa.toNat).inHold m.header.lpa.toNat = false)
    (hw : (d.noteExports m.header.tgtCtx.toNat m.header.lpa.toNat).waveHolds m.header.lpa.toNat b.length = false) :
    d.handle m = .ack .none ((d.noteExports m.header.tgtCtx.toNat m.header.lpa.toNat).writeHome m.header.lpa.toNat peerLeaf none b) := by
  rw [handle_write hr (.inl hk)]
  simp [Dev.peerWrite, hb, hx, hh, hw, hp, hk, payloadSpan, Dev.performMsg]

/-- A write that its target context does not let in, or whose frame is poisoned, is refused (R21, R93). -/
theorem handle_refused (hk : m.header.kind = 0 ∨ m.header.kind = 1 ∨ m.header.kind = 6)
    (hx : (d.noteExports m.header.tgtCtx.toNat m.header.lpa.toNat).refuses m.header true = true) :
    d.handle m = .refused (d.noteExports m.header.tgtCtx.toNat m.header.lpa.toNat) := by
  rw [handle_write hr hk]
  simp [Dev.peerWrite, hb, hx]

end

end

/-! ## Loads (R21, R92) -/

theorem linkUp_noteExports (d : Dev) (ctx lpa : Nat) : (d.noteExports ctx lpa).linkUp = d.linkUp := by
  unfold Dev.noteExports Dev.keepExports
  split
  · split <;> rfl
  · rfl

section
variable {s : State} {m : Msg} {n : Nat} (ho : s.dev.on = true) (hk : m.header.kind = 7) (hb : headerBad m.header = false)
  (hp : m.payload = .read n)
include ho hk hb hp

theorem execRemoteLoad_unnumbered (hl : s.dev.linkUp = false) :
    execRemoteLoad m s = .next (s.withDev (s.dev.emit (ownerDie m.header.lpa.toNat) (s.dev.responseTo m 1 (.loaded [])))) :=
  happen_some (by simp [hp, ho, hk, hb, hl])

variable (hl : s.dev.linkUp = true) {e : Dev} (he : s.dev.noteExports m.header.tgtCtx.toNat m.header.lpa.toNat = e)
include hl he

theorem execRemoteLoad_refuses (hx : e.refuses m.header false = true) :
    execRemoteLoad m s = .next (s.withDev (e.emit (ownerDie m.header.lpa.toNat) (e.responseTo m 1 (.loaded [])))) :=
  happen_some (by simp [hp, ho, hk, hb, hl, he, hx])

variable (hx : e.refuses m.header false = false)
include hx

/-- A load that finds uncorrectable data poisons its frame, and is refused. -/
theorem execRemoteLoad_bad (hbad : e.bad m.header.lpa.toNat = true) :
    execRemoteLoad m s = .next (s.withDev ((e.foundBad m.header.lpa.toNat).emit (ownerDie m.header.lpa.toNat)
      (e.responseTo m 1 (.loaded [])))) := by
  have hel : e.linkUp = true := by rw [← he, linkUp_noteExports, hl]
  exact happen_some (by simp [hp, ho, hk, hb, hl, he, hel, hx, hbad])

theorem execRemoteLoad_reads (hbad : e.bad m.header.lpa.toNat = false) :
    execRemoteLoad m s = .next (s.withDev (e.emit (dieOf m.header.lpa.toNat)
      (e.responseTo m 0 (.loaded (e.homeRead m.header.lpa.toNat n))))) := by
  have hel : e.linkUp = true := by rw [← he, linkUp_noteExports, hl]
  exact happen_some (by simp [hp, ho, hk, hb, hl, he, hel, hx, hbad])

end

/-! ## Phase notices (R480) -/

section
variable {s : State} {m : Msg} (ho : s.dev.on = true) (hk : m.header.kind = 7) (hc : m.header.operand = 6)
  (hb : headerBad m.header = false)
include ho hk hc hb

theorem execPhaseNotice_unnumbered (hl : s.dev.linkUp = false) : execPhaseNotice m s = .next (s.withDev s.dev) :=
  answerEvent_acts ho hk hb (congrArg BitVec.toNat hc) (by simp [hl])

/-- The image of the pod barrier follows its root, and its waiters are released. -/
theorem execPhaseNotice_moves (hl : s.dev.linkUp = true) {n e : Nat} {ph : Bool} (hp : m.payload = .podNotice n e ph) {b : Barrier}
    (hbar : s.dev.bar (.wide 4 0 m.header.tgtCtx.toNat n) = some b) :
    let ref := BarRef.wide 4 0 m.header.tgtCtx.toNat n
    let d := (s.dev.setBar ref { b with expected := e, phase := ph }).releaseWaiters ref (!ph) { b with expected := e, phase := ph }
    execPhaseNotice m s = .next (s.withDev (d.emit 0 (d.responseTo m 0 m.payload))) :=
  answerEvent_acts ho hk hb (congrArg BitVec.toNat hc) (by simp [hl, hp, hbar])

end

/-! ## Loss notices (R157) -/

section
variable {s : State} {m : Msg} (ho : s.dev.on = true) (hk : m.header.kind = 8) (hb : headerBad m.header = false)
include ho hk hb

theorem execLossNotice_unnumbered (hl : s.dev.linkUp = false) :
    execLossNotice m s = .next (s.withDev (s.dev.emit (s.dev.receivingDie m) (s.dev.responseTo m 1 .none))) :=
  happen_some (by simp [ho, hk, hb, hl])

variable (hl : s.dev.linkUp = true) (hw : s.dev.inWave m.header = false) (hr : s.dev.inReply m.header = false)
include hl hw hr

theorem execLossNotice_again (hf : (s.dev.flowIn m.header).abandoned.contains m.header.seq = true) :
    execLossNotice m s = .next (s.withDev (s.dev.emit (s.dev.receivingDie m) (s.dev.responseTo m 5 .none))) :=
  happen_some (by simp only [ho, hk, hb, hl, hw, hr, hf]; rfl)

variable (hf : (s.dev.flowIn m.header).abandoned.contains m.header.seq = false)
include hf

/-- A message that its flow has passed, and that nothing keeps, was consumed. -/
theorem execLossNotice_consumed (hn : 2 ^ 31 ≤ (m.header.seq - (s.dev.flowIn m.header).next).toNat) (hq : s.dev.inWain m.header = false)
    (ha : (s.dev.flowIn m.header).answered.find? (fun a => a.1 = m.header.seq) = none) :
    execLossNotice m s = .next (s.withDev (s.dev.emit (s.dev.receivingDie m) (s.dev.responseTo m 4 .none))) :=
  happen_some (by simp only [ho, hk, hb, hl, hw, hr, hf, decide_eq_true hn, hq, ha]; rfl)

/-- A flow that no message of a sequence enters any more: one held ahead of its turn leaves, and the answer to it stays. -/
def FlowIn.abandon (f : FlowIn) (seq : BitVec 32) (answer : Msg) : FlowIn :=
  { f with
    abandoned := seq :: f.abandoned, held := f.held.filter fun x => x.1.header.seq ≠ seq
    answered := (seq, answer) :: f.answered.filter fun a => a.1 ≠ seq }

/-- A message that its flow has not come to is abandoned from now on. -/
theorem execLossNotice_abandons (hn : (m.header.seq - (s.dev.flowIn m.header).next).toNat < 2 ^ 31) :
    let h := m.header
    let d := s.dev.dropMsg h
    let r := d.responseTo m 5 .none
    let f := (s.dev.flowIn h).abandon h.seq r
    let e := (d.setFlow (f.skip (f.abandoned.length + 1))).emit (s.dev.receivingDie m) r
    execLossNotice m s = .next (s.withDev (e.drain e.receivingDie h (f.held.length + 1))) :=
  happen_some (by simp only [ho, hk, hb, hl, hw, hr, hf, decide_eq_false (Nat.not_le.mpr hn)]; rfl)

end

/-! ## Probes and reports (R160, R162) -/

section
variable {s : State} {m : Msg} (ho : s.dev.on = true) (hk : m.header.kind = 9) (hb : headerBad m.header = false)
include ho hk hb

theorem execProbe_unnumbered (hl : s.dev.linkUp = false) : execProbe m s = .next (s.withDev s.dev) :=
  happen_some (by simp [ho, hk, hb, hl])

variable (hl : s.dev.linkUp = true)
include hl

/-- Another package asks for a traverse of its job (log 21). -/
theorem execProbe_asks {upTo : DWord} {ns : Nat} (hp : m.payload = .ask upTo ns) :
    execProbe m s = .next (s.withDev
      (s.dev.addAsk ⟨m.header.srcCtx.toNat, m.header.job.toNat, m.header.srcPkg.toNat, upTo, s.dev.now + ns⟩)) :=
  happen_some (by simp [ho, hk, hb, hl, hp])

theorem execProbe_reports (hp : ∀ upTo ns, m.payload ≠ .ask upTo ns) :
    let h := m.header
    let q := (s.dev.spend 0 3).readJob h.srcCtx.toNat h.job.toNat h.operand.toNat
    execProbe m s = .next (s.withDev
      (q.2.sendPlain 0 ⟨10, h.srcCtx.toNat, h.job.toNat, h.srcCtx.toNat, h.srcPkg.toNat, h.operand.toNat, 0, 18⟩ h.seq
        (.report 1 q.1.injected q.1.consumed q.1.doubt q.1.activity q.1.lossy))) := by
  refine happen_some ?_
  simp only [ho, hk, hb, hl]
  cases hm : m.payload
  case ask upTo ns => exact absurd hm (hp upTo ns)
  all_goals rfl

end

section
variable {s : State} {m : Msg} (ho : s.dev.on = true) (hk : m.header.kind = 10) (hb : headerBad m.header = false)
include ho hk hb

theorem execReport_unnumbered (hl : s.dev.linkUp = false) : execReport m s = .next (s.withDev s.dev) :=
  happen_some (by simp [ho, hk, hb, hl])

variable (hl : s.dev.linkUp = true)
include hl

/-- A report of the running pass is added to it. -/
theorem execReport_adds {n : Nat} {inj con : DWord} {doubt act lossy : Bool} (hp : m.payload = .report n inj con doubt act lossy)
    (hr : s.dev.root m.header.srcCtx.toNat = s.dev.pkgNum) {t : Traverse}
    (ht : s.dev.traverses.find? (fun t => t.ctx = m.header.srcCtx.toNat && t.job = m.header.job.toNat) = some t)
    (hn : t.pass = m.header.operand.toNat) :
    execReport m s = .next (s.withDev ((s.dev.spend 0 3).putTraverse (t.add n ⟨inj, con, doubt, act, lossy⟩))) :=
  happen_some (by simp [ho, hk, hb, hl, hp, hr, ht, hn])

/-- A decision reaches the QUIETs of this package (log 21). -/
theorem execReport_decides {upTo : DWord} {clear : Bool} (hp : m.payload = .decided upTo clear) :
    let d := s.dev.deliverQuiet m.header.srcCtx.toNat m.header.job.toNat upTo.toNat m.header.operand.toNat
    execReport m s = .next (s.withDev (if clear = true then d.clearRead m.header.srcCtx.toNat m.header.job.toNat else d)) :=
  happen_some (by simp [ho, hk, hb, hl, hp])

end

/-- Settles O46: a counted message by the turn it has in its flow and by what its unit answers, the others event by event. -/
theorem messagesArrive : Obligations.MessagesArrive := by
  intro s m ho h die f goes is read lpa asked
  refine ⟨?counted, fun i hi hl => ?refused, ?unnumbered, fun hbad => ?discarded, handle_of_resetting, ?writes, ?loads, ?notice, ?loss,
    fun upTo ns hk hb hl => execProbe_asks ho hk hb hl, execProbe_reports ho, ?report, fun upTo clear hk hb hl => execReport_decides ho hk hb hl⟩
  case counted =>
    intro i hi hl hf
    refine ⟨fun hn hm => ?turn, fun a hb ha => ?again⟩
    case turn =>
      have handed {g : Got} (hg : s.dev.handle m = g) {goesOn : Bool} {d1 : Dev} (hd : g.handed die m = some (goesOn, d1)) :=
        exec_of_handed ho hi hl hf hn hm hg hd
      exact ⟨fun p d1 hg => handed hg rfl, fun d1 hg => handed hg rfl, fun d1 hg => handed hg rfl, fun d1 hg => handed hg rfl,
        fun d1 hg => handed hg rfl, fun d1 hg => handed hg rfl⟩
    case again =>
      exact (exec_of_brings hi).trans (happen_some (arriveMsg_behind ho hl hb ha s.dev.receivingDie))
  case refused => exact (exec_of_brings hi).trans (happen_some (arriveMsg_unnumbered ho hl s.dev.receivingDie))
  case unnumbered =>
    exact fun hb hl => ⟨fun hk => execProbe_unnumbered ho hk hb hl, fun hk => execReport_unnumbered ho hk hb hl,
      fun hk hc => execPhaseNotice_unnumbered ho hk hc hb hl, fun hk => execLossNotice_unnumbered ho hk hb hl⟩
  case discarded => exact handle_of_headerBad (by simpa [headerBad, or_assoc] using hbad)
  case writes =>
    exact fun hb hr => ⟨fun hk hx hh b hp hw => handle_store hb hr hk hp hx hh hw, fun hk hx => handle_refused hb hr hk hx⟩
  case loads =>
    exact fun n hk hb hp => ⟨execRemoteLoad_unnumbered ho hk hb hp, fun hl hx => execRemoteLoad_refuses ho hk hb hp hl rfl hx,
      fun hl hx hbad => execRemoteLoad_bad ho hk hb hp hl rfl hx hbad, fun hl hx hbad => execRemoteLoad_reads ho hk hb hp hl rfl hx hbad⟩
  case notice => exact fun n e ph b hk hc hb hl hp hbar => execPhaseNotice_moves ho hk hc hb hl hp hbar
  case loss =>
    exact fun hk hb hl hw hr => ⟨execLossNotice_again ho hk hb hl hw hr, execLossNotice_consumed ho hk hb hl hw hr,
      execLossNotice_abandons ho hk hb hl hw hr⟩
  case report =>
    exact fun n inj con doubt act lossy t hk hb hl hp hroot ht hn => execReport_adds ho hk hb hl hp hroot ht hn

end Sys2Proof.Machine
end

section
/-! SUPPORT. QUIET, SIGNAL and transfers across the base die (R134, R162, R163, R350, R356, R357, R382, R386): what each leaves when its
conditions hold. -/

namespace Sys2Proof.Machine

/-! ## What QUIET and SIGNAL leave -/

/-- A device in which a QUIET of the party has taken its place and asked for a traverse of its job, with its timeout operand in µs. -/
def Dev.quietAsks (d : Dev) (r : ThreadRef) (gr : Group) (us : Nat) : Dev :=
  let deadline := d.bump.2.quietDeadline us
  ((d.bump.2.dropAudit r).hold r (.quiet d.bump.1 deadline none)).demandTraverse gr.ctx gr.jobNum d.bump.1 deadline

/-- A device in which the party's SIGNAL has entered the message queue and the base die. -/
def Dev.signals (d : Dev) (r : ThreadRef) (gr : Group) (v : DWord) (scope : Nat) (rel : Bool) : Dev :=
  let e := { d with nextId := d.nextId + 1 }.onCore gr.core fun (k : Core) =>
    { k with msgs := k.msgs ++ [(⟨d.nextId, r, gr.gid, .signal v scope rel, true, false⟩ : MsgEntry)] }
  ({ e with transfers := e.transfers ++ [Transfer.signal v gr.ctx gr.core d.nextId r rel scope] }.dropAudit r).retire r 1

/-! ## QUIET (R162, R163, R356) -/

/-- The timeout of a QUIET that is not decided: status 2, or with a zero operand the QUIETTO trap. -/
theorem execQuietTimeout_ends {s : State} {r : ThreadRef} {t : Thread} {d : BitVec 7} {tm : BitVec 5} {f : BitVec 1} {g : Guard}
    {start dl len : Nat} (hr : s.dev.thread r = some t) (hw : t.wait = .quiet start dl none)
    (hh : t.head = some (.ok (.quiet d tm f g) len)) (hdl : dl ≤ s.dev.now) :
    execQuietTimeout r s = .next (s.withDev (if (t.sreg tm.toNat).toNat = 0 then s.dev.raise r (.plain causeQuietTo 0)
      else s.dev.quietEnd r d (t.taking g) 2)) := by
  refine happen_some ?_
  simp only [hr, hw, hh, if_neg (Nat.not_lt.mpr hdl)]
  split <;> rfl

section
variable {s : State} {r : ThreadRef} {t : Thread} {d : BitVec 7} {g : Guard} (ht : t.taking g ≠ 0)
include ht

section
variable (hi : Issues s r t) (ha : Allotted s r [d]) {f : BitVec 1} (hf : FlagFree t f) (tm : BitVec 5)
include hi ha hf

/-- QUIET at its first issue takes its place, asks and waits. -/
theorem execQuiet_asks {gr : Group} (hg : s.dev.groupOf r = some gr) (hw : t.wait = .none) :
    execQuiet d tm f g s = .next (s.withDev (s.dev.quietAsks r gr (t.sreg tm.toNat).toNat)) := by
  rw [execQuiet, longOp_free hi ha hf]
  simp only [if_neg ht, hw, hg]
  rfl

/-- A decided QUIET writes its status and goes on. -/
theorem execQuiet_decided {start dl n : Nat} (hw : t.wait = .quiet start dl (some n)) :
    execQuiet d tm f g s = .next (s.withDev (s.dev.quietEnd r d (t.taking g) n)) := by
  rw [execQuiet, longOp_free hi ha hf]
  simp only [if_neg ht, hw]

end

/-! ## SIGNAL (R357) -/

/-- SIGNAL to this package is sent when nothing keeps it from being admitted; `.rel` waits as a release, and for the warp's own entries. -/
theorem execSignal_sends (hi : Issues s r t) {gr : Group} (hg : s.dev.groupOf r = some gr) {h : BitVec 4} (scope : BitVec 3)
    {rel : BitVec 1} (hp : (BarHandle.ofWord (t.kpair h.toNat)).pkg = s.dev.pkgNum) (hw : s.dev.admissionWaits r = false)
    (hrel : rel = 1 → ((s.dev.core gr.core).msgs.any fun m => m.thread = r) = false ∧ s.dev.releaseReady r t = true ∧ t.loss = false) :
    execSignal h scope rel g s = .next (s.withDev (s.dev.signals r gr (t.kpair h.toNat) scope.toNat (rel = 1))) := by
  rw [execSignal, warpOp_taking hi hg ht]
  simp only [hp, hw, ne_eq, not_true_eq_false, decide_false, Bool.false_and, Bool.or_false, if_false, Bool.false_eq_true]
  by_cases h1 : rel = 1
  · obtain ⟨hmine, hready, hloss⟩ := hrel h1
    simp only [if_pos h1, hmine, Dev.afterRelease_ready hready hloss]
    rfl
  · simp only [if_neg h1]
    rfl

end

/-! ## Across the base die (R350, R386) -/

section
variable {s : State} {index : Nat}

section
variable {v : DWord} {ctx e scope : Nat} {c : CoreRef} {r : ThreadRef} {rel : Bool}
  (ht : s.dev.transfers[index]? = some (.signal v ctx c e r rel scope))
include ht

theorem execSignalBaseDieTransfer_arrives {d1 : Dev} (ha : s.dev.arriveSignal v ctx rel scope = some d1) :
    execSignalBaseDieTransfer index s = .next (s.withDev
      ({ d1 with transfers := d1.transfers.eraseIdx index }.msgDone c fun x => x.id = e)) :=
  happen_some (by simp only [ht, ha])

/-- A signal that no barrier takes is lost (R158). -/
theorem execSignalBaseDieTransfer_loses (ha : s.dev.arriveSignal v ctx rel scope = none) :
    execSignalBaseDieTransfer index s = .next (s.withDev
      (({ s.dev with transfers := s.dev.transfers.eraseIdx index }.markLoss r).msgDone c fun x => x.id = e)) :=
  happen_some (by simp only [ht, ha])

end

section
variable {x : Rec} {die op lane : Nat} (ht : s.dev.transfers[index]? = some (.spawn x die op lane))
include ht

theorem execSpawnBaseDieTransfer_fails (he : { s.dev with transfers := s.dev.transfers.eraseIdx index }.enterRec die x = none) :
    execSpawnBaseDieTransfer index s =
      .next (s.withDev ({ s.dev with transfers := s.dev.transfers.eraseIdx index }.spawnEnd op lane false)) :=
  happen_some (by simp only [ht, he])

theorem execSpawnBaseDieTransfer_enters {d2 d3 : Dev}
    (he : { s.dev with transfers := s.dev.transfers.eraseIdx index }.enterRec die x = some d2) (hc : d2.countEntered die x = some d3) :
    execSpawnBaseDieTransfer index s = .next (s.withDev (d3.spawnEnd op lane true)) :=
  happen_some (by simp only [ht, he, hc, Option.map_some])

end

end

/-- Settles O40: QUIET by what it waits for, SIGNAL by its admission, and the transfers by what the other die answers. -/
theorem quietAndSignal : Obligations.QuietAndSignal := by
  intro s gid wid t gr d tm f rel h scope g start dl index d1 ctx c e rf v sr sc r hr hg ht goes done us hv sent dropped
  refine ⟨fun hissuer ha hf => ?issued, fun hw hh hdl => ?timeout, fun hx => ⟨execSignalBaseDieTransfer_arrives hx,
    execSignalBaseDieTransfer_loses hx⟩, fun die x op lane hx => ⟨execSpawnBaseDieTransfer_fails hx, fun d2 d3 =>
    execSpawnBaseDieTransfer_enters hx⟩⟩
  case issued =>
    have hi : Issues s r t := ⟨hissuer, hr⟩
    exact ⟨execQuiet_asks ht hi ha hf tm hg, fun n => execQuiet_decided ht hi ha hf tm, execSignal_sends ht hi hg scope⟩
  case timeout =>
    have hends := execQuietTimeout_ends hr hw hh hdl
    exact ⟨fun hus => hends.trans (by rw [if_neg hus]), fun hus => hends.trans (by rw [if_pos hus])⟩

end Sys2Proof.Machine
end

section
/-! SUPPORT. Combining at the home (R168 to R185): the requests that one wave takes, the replies of a built-in method, and what each
event of a request or a wave leaves when its conditions hold. -/

namespace Sys2Proof.Machine

/-! ## The requests of one wave (R170, R175, R185) -/

section
variable {q : Request} {r : List Request}

/-- A request to be run again is taken alone. -/
theorem leadingRun_single (hq : q.single = true) : leadingRun (q :: r) = [q] := by
  rw [leadingRun, if_pos hq]

/-- Any other request is taken with those right behind it that share its selector and context, up to 32 of them. -/
theorem leadingRun_together (hq : q.single = false) :
    leadingRun (q :: r) = (q :: r.takeWhile fun x => x.sel = q.sel && x.ctx == q.ctx && !x.single).take 32 := by
  rw [leadingRun, if_neg (by simp [hq])]

/-- What is taken with a request that is not to be run alone has its selector and context, and is not to be run alone either. -/
theorem agree_of_mem_leadingRun (hq : q.single = false) {x : Request} (hx : x ∈ leadingRun (q :: r)) :
    x.sel = q.sel ∧ x.ctx = q.ctx ∧ x.single = false := by
  rw [leadingRun_together hq] at hx
  rcases List.mem_cons.mp (List.mem_of_mem_take hx) with rfl | hx
  · exact ⟨rfl, rfl, hq⟩
  · have hagree := List.all_eq_true.mp List.all_takeWhile x hx
    simp only [Bool.and_eq_true, decide_eq_true_eq, beq_iff_eq, Bool.not_eq_true'] at hagree
    exact and_assoc.mp hagree

theorem leadingRun_prefix : ∀ l : List Request, leadingRun l <+: l
  | [] => List.prefix_rfl
  | q :: r => by
    cases hq : q.single
    case true => rw [leadingRun_single hq]; exact ⟨r, rfl⟩
    case false =>
      rw [leadingRun_together hq]
      exact (List.take_prefix _ _).trans ((List.prefix_cons_inj q).mpr (List.takeWhile_prefix _))

theorem length_leadingRun_le : ∀ l : List Request, (leadingRun l).length ≤ 32
  | [] => Nat.zero_le _
  | q :: r => by
    cases hq : q.single
    case true => rw [leadingRun_single hq]; exact Nat.le_add_left 1 31
    case false => rw [leadingRun_together hq]; exact List.length_take_le _ _

theorem leadingRun_ne_nil : leadingRun (q :: r) ≠ [] := by
  cases hq : q.single
  case true => rw [leadingRun_single hq]; exact List.cons_ne_nil _ _
  case false => rw [leadingRun_together hq]; exact List.cons_ne_nil _ _

end

/-- The requests of one wave call one method in one context. -/
theorem leadingRun_uniform {l : List Request} {q x : Request} (hq : q ∈ leadingRun l) (hx : x ∈ leadingRun l) :
    q.sel = x.sel ∧ q.ctx = x.ctx := by
  cases l with
  | nil => cases hq
  | cons a r =>
    cases ha : a.single
    case true =>
      rw [leadingRun_single ha, List.mem_singleton] at hq hx
      rw [hq, hx]
      exact ⟨rfl, rfl⟩
    case false =>
      obtain ⟨hqs, hqc, -⟩ := agree_of_mem_leadingRun ha hq
      obtain ⟨hxs, hxc, -⟩ := agree_of_mem_leadingRun ha hx
      exact ⟨hqs.trans hxs.symm, hqc.trans hxc.symm⟩

/-- A request to be run again is the whole of its wave. -/
theorem leadingRun_eq_singleton {l : List Request} {q : Request} (hq : q ∈ leadingRun l) (hs : q.single = true) : leadingRun l = [q] := by
  cases l with
  | nil => cases hq
  | cons a r =>
    cases ha : a.single
    case true =>
      rw [leadingRun_single ha, List.mem_singleton] at hq
      rw [leadingRun_single ha, hq]
    case false =>
      obtain ⟨-, -, hns⟩ := agree_of_mem_leadingRun ha hq
      exact absurd hs (by simp [hns])

/-! ## The built-in methods (R179) -/

section
variable (code : Nat)

theorem length_builtinRun : ∀ (v : Word) (args : List DWord), (builtinRun code v args).1.length = args.length
  | _, [] => rfl
  | v, a :: r => congrArg Nat.succ (length_builtinRun (builtin code v a) r)

/-- The last value of the object is the fold of the method over the arguments. -/
theorem builtinRun_value : ∀ (v : Word) (args : List DWord), (builtinRun code v args).2 = args.foldl (builtin code) v
  | _, [] => rfl
  | v, a :: r => builtinRun_value (builtin code v a) r

/-- Each reply is the value before its request. -/
theorem builtinRun_reply : ∀ (v : Word) (args : List DWord) (n : Nat), n < args.length →
    (builtinRun code v args).1[n]? = some (((args.take n).foldl (builtin code) v).setWidth 64)
  | _, _ :: _, 0, _ => rfl
  | v, a :: r, n + 1, hn => builtinRun_reply (builtin code v a) r n (Nat.lt_of_succ_lt_succ hn)

end

/-! ## Requests and replies inside the package (R169, R173, R174, R182) -/

section
variable {s : State} {n : Nat}

/-- The request of the first of its call's lanes still to come reaches its Wain, once no earlier call comes before it. -/
theorem execMethodRequest_arrives {op lane due lpa ctx : Nat} {o : Op} {p : Piece} {more : List Nat}
    (ht : s.dev.transfers[n]? = some (.request op lane due)) (hdue : due ≤ s.dev.now) (ho : s.dev.op op = some o)
    (hobj : o.object lane = some (lpa, ctx)) (hp : o.pieces.find? (fun p => p.lane = lane) = some p) (hw : s.dev.callWaits o p = false)
    (hl : s.dev.dueLanes o lpa = lane :: more) :
    execMethodRequest n s = .next (s.withDev (s.dev.requestLane o lpa ctx lane more.length)) :=
  happen_some (by simp [ht, Nat.not_lt.mpr hdue, ho, hobj, hp, hw, hl])

/-- A reply inside the package is written to where its lane waits for it. -/
theorem execMethodReply_writes {dest : ReplyTo} {v : DWord} {st : Nat} {m : Option (Nat × Msg)}
    (ht : s.dev.transfers[n]? = some (.reply dest v st m)) :
    execMethodReply none n s =
      .next (s.withDev ({ s.dev with transfers := s.dev.transfers.eraseIdx n }.writeReply dest v st m)) := by
  rw [execMethodReply]
  exact happen_some (by simp only [ht])

end

/-! ## Waves (R175, R178, R184) -/

/-- The lowest free wave slot takes requests of the first object that can be served. -/
theorem execWaveForm_forms {s : State} {c : CoreRef} {slot : Nat} {d1 : Dev} (hc : s.dev.clocked = true)
    (hs : (upFrom 0 16).find? (fun k => ((s.dev.core c).waves.getD k none).isNone) = some slot)
    (hf : s.dev.formFirst c slot (s.dev.core c).requests [] = some d1) : execWaveForm c s = .next (s.withDev d1) :=
  happen_some (by simp only [hs, if_pos hc, hf])

/-- The reply of a wave's lane: what the lane left, or zero. -/
def Wave.replyOf (w : Wave) (j : Nat) : DWord := ((w.replies.find? fun x => x.1 = j).map fun x => x.2).getD 0

/-- A device in which a wave has written its state to the object of its first request, as one write; the near caches of the package's own
callers drop the object's line (R47, R109, R184). -/
def Dev.writeWave (d : Dev) (w : Wave) (q : Request) : Dev :=
  let d := (d.objectUse q true).homeWrite q.lpa (if w.sel.getLsbD 8 then w.buffer.take 4 else w.buffer)
  w.reqs.foldl (fun d q => if q.msg.isNone then d.dropObject q.dest else d) d

/-- A device in which a wave has written its state, left its slot, and sent its replies in lane order (R178, R184). -/
def Dev.finishWave (d : Dev) (c : CoreRef) (slot : Nat) (w : Wave) (q : Request) : Dev :=
  foldIdx (fun j d q => d.sendReply c q (w.replyOf j) 0) 0
    ((d.writeWave w q).onCore c fun (k : Core) => { k with waves := k.waves.set slot none }) w.reqs

/-- A wave has run its limit when it has one and that many units of 1024 cycles have passed. -/
theorem Dev.timedOut_of_le {d : Dev} {w : Wave} (hl : w.limit ≠ 0) (ht : w.start + 1024 * w.limit ≤ d.cycles) : d.timedOut w = true := by
  simp [Dev.timedOut, hl, ht]

section
variable {s : State} {c : CoreRef} {slot : Nat} {w : Wave} (hw : (s.dev.core c).waves.getD slot none = some w) (hf : w.fault = none)
include hw hf

/-- A wave whose lanes have all exited, with no operation outstanding and none lost, ends once its replies may be sent. -/
theorem execWaveComplete_finishes {q : Request} {qs : List Request} (he : w.thread.ended = true)
    (ho : ∀ x ∈ s.dev.ops, x.thread ≠ .wave c slot) (hl : w.thread.loss = false) (hq : w.reqs = q :: qs)
    (hm : s.dev.mayReply c w.reqs = true) : execWaveComplete c slot s = .next (s.withDev (s.dev.finishWave c slot w q)) := by
  have hops : (s.dev.ops.any fun o => o.thread = .wave c slot) = false := by simpa using ho
  rw [hq] at hm
  refine happen_some ?_
  simp only [hw, hf, he, hops, hl, hq, hm, Dev.finishWave, Dev.writeWave]
  rfl

/-- A wave that has run its limit faults at the clause of the first entry of its frontier, that of a clause it runs included. -/
theorem execWaveTimeLimit_faults (hl : w.limit ≠ 0) (ht : w.start + 1024 * w.limit ≤ s.dev.cycles) (he : w.thread.ended = false)
    {e : Entry} {r : List Entry}
    (hr : (w.thread.clause.elim w.thread.frontier fun x => insertEntry x.entry w.thread.frontier) = e :: r) {d1 : Dev}
    (hd : s.dev.faultWave c slot w causeMethod (w.offset e.clause) = some d1) : execWaveTimeLimit c slot s = .next (s.withDev d1) := by
  refine happen_some ?_
  simp only [hw, hf, he, Dev.timedOut_of_le hl ht]
  cases hc : w.thread.clause <;> rw [hc] at hr
  case none =>
    rw [Option.elim_none] at hr
    simpa [hr] using hd
  case some x =>
    rw [Option.elim_some] at hr
    simpa [hr] using hd

end

/-- Settles O48: each event of a request or a wave by what its conditions leave, the built-in methods by recursion on the arguments, and
the leading requests by whether the first of them is to be run alone. -/
theorem combining : Obligations.Combining := by
  refine ⟨⟨?events, ?builtin⟩, ?leading⟩
  case events =>
    intro s c n op lane due o lpa ctx d1 w q qs goes
    refine ⟨fun p more => execMethodRequest_arrives, fun dest v st m => execMethodReply_writes, fun slot => execWaveForm_forms,
      fun hw hf => ⟨execWaveComplete_finishes hw hf, fun hl ht he e r hr => execWaveTimeLimit_faults hw hf hl ht he hr⟩⟩
  case builtin => exact fun code v args => ⟨length_builtinRun code v args, builtinRun_value code v args, builtinRun_reply code v args⟩
  case leading =>
    intro l
    refine ⟨leadingRun_prefix l, length_leadingRun_le l, fun hl => ?taken, fun q hq x => leadingRun_uniform hq,
      fun q => leadingRun_eq_singleton⟩
    case taken =>
      obtain ⟨q, r, rfl⟩ := List.exists_cons_of_ne_nil hl
      exact leadingRun_ne_nil

end Sys2Proof.Machine
end
